-- ==== Sys2Proof/Word.lean ====
section
/-!
DEFINITION. The word types of the Vuroer 46 (04_number_formats_and_layouts.md R85; 02_execution_model.md R26)
and the padded lists that hold its register files: a list whose missing entries read as a default.
-/
namespace Sys2Proof

/-- One byte, the smallest location of memory (06 R132). -/
abbrev Byte := BitVec 8

/-- One 32-bit register value (03 R59). -/
abbrev Word := BitVec 32

/-- A 64-bit value: a register pair (03 R60), an address or a program counter (02 R26). -/
abbrev DWord := BitVec 64

/-- Entry `i` of a padded list: the default where the list is too short. -/
def getP {α : Type} (d : α) : List α → Nat → α
  | [], _ => d
  | x :: _, 0 => x
  | _ :: xs, i + 1 => getP d xs i

/-- A padded list with entry `i` replaced, filled up with the default where it is too short. -/
def setP {α : Type} (d : α) : List α → Nat → α → List α
  | [], 0, v => [v]
  | [], i + 1, v => d :: setP d [] i v
  | _ :: xs, 0, v => v :: xs
  | x :: xs, i + 1, v => x :: setP d xs i v

/-- The value of an association list at a natural key. -/
def lookupN {α : Type} : List (Nat × α) → Nat → Option α
  | [], _ => none
  | (k, v) :: r, a => if k = a then some v else lookupN r a

end Sys2Proof
end

