-- ==== Sys2Proof/Syntax.lean ====
section
/-!
DEFINITION. The instruction set of Cheusk version 3 as syntax: operand fields, instruction forms, and the ONE
inductive `Instr`, with a constructor for every row of spec/opcode_table.json. The table lists operations that a
program encodes and events that the device performs by itself; both are steps of the part
(95_what_each_step_holds.md).
-/

namespace Sys2Proof

/-- The forms and layouts of an instruction word (07 R159, R168-R174): 64-bit, 96-bit register and immediate
layouts, 128-bit modifier and wide-immediate layouts, and a slot of a paired word. -/
inductive Form where
  | w64 | w96r | w96i | w128m | w128i | slot
  deriving DecidableEq, Repr

/-- Source kinds (07 R164): vector, scalar or special, immediate, indexed vector. -/
inductive Kind where
  | vec | scal | imm | idx
  deriving DecidableEq, Repr

/-- Destination kinds (07 R164): vector, scalar, predicate or index register, indexed vector. In the lane majors
the same two bits are UD (08 R216). -/
inductive DKind where
  | vec | scal | pred | idx
  deriving DecidableEq, Repr

/-- Rounding modes (04 R82). -/
inductive Rm where
  | rne | rtz | rup | rdn
  deriving DecidableEq, Repr

/-- A lane-modifier descriptor (03 R69). `kind` 0 is none; the other fields are then zero. -/
structure Desc where
  kind : BitVec 3
  k : BitVec 6
  dir : Bool
  fill : BitVec 2
  sreg : BitVec 6
  deriving DecidableEq, Repr

/-- The descriptor KIND = none (03 R69). -/
def Desc.off : Desc := ⟨0, 0, false, 0, 0⟩

/-- One source operand: its kind field, its register field, its last-read mark (03 R67) and its descriptor. -/
structure Operand where
  kind : Kind
  val : BitVec 8
  lr : Bool
  desc : Desc
  deriving DecidableEq, Repr

/-- The operand of an unused source field: every bit zero. -/
def Operand.off : Operand := ⟨.vec, 0, false, Desc.off⟩

/-- The operand fields of an instruction word (07 R162, R168-R174). `imm` is IMM32 or IMM64 in the immediate
layouts, DISP24 in the branch layout (08 R196), bits 63:42 of `WAIT` (07 R178) and bits 63:14 of `QFETCH`
(03 R66); otherwise 0. -/
structure Ops where
  form : Form
  neg : Bool
  pn : BitVec 3
  dst : BitVec 8
  kd : DKind
  s1 : Operand
  s2 : Operand
  s3 : Operand
  sub : BitVec 6
  rm : Rm
  ftz : Bool
  pd : BitVec 3
  aux : BitVec 3
  ixn : BitVec 2
  imm : BitVec 64
  deriving DecidableEq, Repr

/-- One slot of a paired word (07 R174): a pairable major and its fields. -/
structure Slot where
  maj : BitVec 8
  ops : Ops
  deriving DecidableEq, Repr

/-- A word of the hint space, majors 0xF0-0xF7 (07 R179): low major bits, form code and the ignored bits. -/
structure Hint where
  maj : BitVec 3
  form : BitVec 2
  rest : BitVec 118
  deriving DecidableEq, Repr

/-- Every operation and event of spec/opcode_table.json: first what a word encodes, then the events, each group in the
table's order. The operands of an event (the unit it happens in, the value that a write carries) stand in
`Machine.State.ev`. -/
inductive Instr where
  /-- NOP (R197): Does nothing; the warp issues again 1 cc later. -/
  | nop (o : Ops)
  /-- HINT_NOP (R179): A hint-space major 0xF0 to 0xF7 executes as NOP, with every field above bit 9 ignored. -/
  | hintNop (h : Hint)
  /-- BRA (R197): Sets the PC of each passing lane to the target, which splits active(w) into the lanes that branch and the lanes that advance. -/
  | bra (o : Ops)
  /-- BRX (R197): Sets the PC of each passing lane to a 64-bit source value. -/
  | brx (o : Ops)
  /-- BRALL (R197): Branches every lane of active(w) only when every lane passes its predicate test. -/
  | brall (o : Ops)
  /-- BRANY (R197): Branches every lane of active(w) when any lane passes its predicate test. -/
  | brany (o : Ops)
  /-- CALL (R197): Saves the next address in a vector pair and branches to a label. -/
  | call (o : Ops)
  /-- CALLX (R197): Saves the next address in a vector pair and branches to a register address. -/
  | callx (o : Ops)
  /-- RET (R197): Sets the PC to a 64-bit source value. -/
  | ret (o : Ops)
  /-- MEET (R197): Sets the meeting register of each passing lane to a label. -/
  | meet (o : Ops)
  /-- MEETX (R197): Sets the meeting register from a register value; the no-meeting value clears it. -/
  | meetx (o : Ops)
  /-- EXIT (R197): Each passing thread exits. -/
  | exitT (o : Ops)
  /-- YIELD (R197): Treats the warp as having reached the greed limit when any lane passes. -/
  | yield (o : Ops)
  /-- LOOP (R197): Decrements an index register and branches while its new value is not zero. -/
  | loop (o : Ops)
  /-- JTAB (R198): Branches to entry a of an 8-byte jump table when a lies in range, and parks passing lanes when the target is misaligned. -/
  | jtab (o : Ops)
  /-- SLEEP (R197): Stalls the warp for the largest requested number of cycles. -/
  | sleep (o : Ops)
  /-- DEMOTE (R199): Makes each passing lane a helper lane until the thread exits. -/
  | demote (o : Ops)
  /-- PSET (R202): Sets a predicate to whether a 32-bit source is non-zero. -/
  | pset (o : Ops)
  /-- PAND (R202): Writes the AND of two predicates. -/
  | pand (o : Ops)
  /-- POR (R202): Writes the OR of two predicates. -/
  | por (o : Ops)
  /-- PXOR (R202): Writes the XOR of two predicates. -/
  | pxor (o : Ops)
  /-- PNOT (R202): Writes the complement of a predicate. -/
  | pnot (o : Ops)
  /-- PLD (R202): Loads p1 to p7 from bits 7:1 of a source. -/
  | pld (o : Ops)
  /-- PST (R202): Stores the predicates and the helper status of each lane into a vector register. -/
  | pst (o : Ops)
  /-- PSEL (R202): Selects between two predicates under a third. -/
  | psel (o : Ops)
  /-- PERM (R220): Permutes bytes across lanes through a team pattern table. -/
  | perm (o : Ops)
  /-- LDPAT (R221): Starts a warp-uniform load of a 512-byte pattern table from scratch. -/
  | ldpat (o : Ops)
  /-- REDUCE (R217): Combines the contributing lanes in the fixed butterfly order. -/
  | reduce (o : Ops)
  /-- SCAN (R217): Computes an inclusive prefix over the lanes in the fixed tree order. -/
  | scan (o : Ops)
  /-- SCANX (R217): Computes an exclusive prefix over the lanes. -/
  | scanx (o : Ops)
  /-- AGREE_SOME (R218): Reports whether a predicate is true in at least one contributing lane. -/
  | agreeSome (o : Ops)
  /-- AGREE_EVERY (R218): Reports whether a predicate is true in every contributing lane. -/
  | agreeEvery (o : Ops)
  /-- AGREE_MASK (R218): Writes a 64-bit mask of the contributing lanes in which a predicate is true. -/
  | agreeMask (o : Ops)
  /-- MATCH (R218): Writes, in each lane, a mask of the contributing lanes whose value equals its own. -/
  | matchL (o : Ops)
  /-- SHFL (R219): Reads a source from the lane that each lane names. -/
  | shfl (o : Ops)
  /-- BCAST (R219): Broadcasts one lane's value to every lane. -/
  | bcast (o : Ops)
  /-- FIRST (R218): Returns the value of the lowest-numbered contributing lane. -/
  | firstL (o : Ops)
  /-- POPL (R218): Counts the contributing lanes in which a predicate is true. -/
  | popl (o : Ops)
  /-- RDLN (R219): Reads one lane's value into a scalar. -/
  | rdln (o : Ops)
  /-- WRLN (R219): Writes a scalar value into one lane, when that lane contributes. -/
  | wrln (o : Ops)
  /-- LMOV (R219): Moves a value across lanes through a modifier held in SUB and SRC2. -/
  | lmov (o : Ops)
  /-- QFETCH (R66): Allocates operand-queue entries for one to four vector registers. -/
  | qfetch (o : Ops)
  /-- IADD (R203): Integer add with wrap, with the unsigned carry out in PD. -/
  | iadd (o : Ops)
  /-- ISUB (R203): Integer subtract with wrap, with the unsigned borrow in PD. -/
  | isub (o : Ops)
  /-- INEG (R203): Integer negation with wrap. -/
  | ineg (o : Ops)
  /-- IABS (R203): Integer absolute value with wrap. -/
  | iabs (o : Ops)
  /-- IMUL (R203): Low 32 bits of a product. -/
  | imul (o : Ops)
  /-- IMULH (R203): High 32 bits of a signed or unsigned product. -/
  | imulh (o : Ops)
  /-- IMAD (R203): Integer multiply-add with wrap. -/
  | imad (o : Ops)
  /-- IADDS (R203): Saturating integer add, with saturation reported in PD. -/
  | iadds (o : Ops)
  /-- ISUBS (R203): Saturating integer subtract, with saturation reported in PD. -/
  | isubs (o : Ops)
  /-- IMIN (R203): Signed or unsigned minimum. -/
  | imin (o : Ops)
  /-- IMAX (R203): Signed or unsigned maximum. -/
  | imax (o : Ops)
  /-- AND (R203): Bitwise AND. -/
  | andB (o : Ops)
  /-- OR (R203): Bitwise OR. -/
  | orB (o : Ops)
  /-- XOR (R203): Bitwise XOR. -/
  | xorB (o : Ops)
  /-- NOT (R203): Bitwise complement. -/
  | notB (o : Ops)
  /-- SHL (R203): Shift left; 0 when the shift is 32 or more. -/
  | shl (o : Ops)
  /-- SHR (R203): Logical shift right; 0 when the shift is 32 or more. -/
  | shr (o : Ops)
  /-- SAR (R203): Arithmetic shift right; all sign bits when the shift is 32 or more. -/
  | sar (o : Ops)
  /-- ROL (R203): Rotate left by b mod 32. -/
  | rol (o : Ops)
  /-- ROR (R203): Rotate right by b mod 32. -/
  | ror (o : Ops)
  /-- BFX (R204): Extracts a bit field, zero- or sign-extended. -/
  | bfx (o : Ops)
  /-- BFI (R204): Inserts a bit field. -/
  | bfi (o : Ops)
  /-- POPC (R203): Counts the 1 bits of a source. -/
  | popc (o : Ops)
  /-- CLZ (R203): Counts leading zeros; 32 for zero. -/
  | clz (o : Ops)
  /-- BREV (R203): Reverses the bits of a source. -/
  | brev (o : Ops)
  /-- ICMP (R205): Integer compare that writes a predicate and, optionally, its complement. -/
  | icmp (o : Ops)
  /-- ISEL (R203): Selects between two sources under a predicate. -/
  | isel (o : Ops)
  /-- IADD64 (R206): 64-bit add over register pairs, with the carry out in PD. -/
  | iadd64 (o : Ops)
  /-- IMUL64 (R206): Low 64 bits of a 64-bit product. -/
  | imul64 (o : Ops)
  /-- LEA (R206): Adds a shifted, extended 32-bit offset to a 64-bit base. -/
  | lea (o : Ops)
  /-- MOV (R206): Moves a 32-bit value, a pair or an index register. -/
  | mov (o : Ops)
  /-- MOVI (R206): Moves an immediate into a register or an even pair. -/
  | movi (o : Ops)
  /-- FADD (R207): FP32 add with one rounding. -/
  | fadd (o : Ops)
  /-- FSUB (R207): FP32 subtract with one rounding. -/
  | fsub (o : Ops)
  /-- FMUL (R207): FP32 multiply with one rounding. -/
  | fmul (o : Ops)
  /-- FFMA (R207): FP32 fused multiply-add with one rounding. -/
  | ffma (o : Ops)
  /-- FMIN (R207): FP32 minimumNumber, with -0 ordered below +0. -/
  | fmin (o : Ops)
  /-- FMAX (R207): FP32 maximumNumber, with -0 ordered below +0. -/
  | fmax (o : Ops)
  /-- FABS (R207): Clears the sign bit. -/
  | fabs (o : Ops)
  /-- FNEG (R207): Inverts the sign bit. -/
  | fneg (o : Ops)
  /-- FCMP (R208): FP32 compare that writes a predicate and, optionally, its complement. -/
  | fcmp (o : Ops)
  /-- FSEL (R207): Selects between two sources under a predicate. -/
  | fsel (o : Ops)
  /-- FCLS (R208): Tests the class of an FP32 value against a mask. -/
  | fcls (o : Ops)
  /-- FRCP (R209): Correctly rounded reciprocal on the special-function unit. -/
  | frcp (o : Ops)
  /-- FRSQ (R209): Correctly rounded reciprocal square root. -/
  | frsq (o : Ops)
  /-- FSQRT (R209): Correctly rounded square root. -/
  | fsqrt (o : Ops)
  /-- FDIV (R209): Correctly rounded division. -/
  | fdiv (o : Ops)
  /-- FEXP2 (R209): Correctly rounded 2 to the power a. -/
  | fexp2 (o : Ops)
  /-- FLOG2 (R209): Correctly rounded base-2 logarithm. -/
  | flog2 (o : Ops)
  /-- FSIN (R209): Correctly rounded sine. -/
  | fsin (o : Ops)
  /-- FCOS (R209): Correctly rounded cosine. -/
  | fcos (o : Ops)
  /-- FTANH (R209): Correctly rounded hyperbolic tangent. -/
  | ftanh (o : Ops)
  /-- DADD (R210): FP64 add on the FP64 unit. -/
  | dadd (o : Ops)
  /-- DSUB (R210): FP64 subtract. -/
  | dsub (o : Ops)
  /-- DMUL (R210): FP64 multiply. -/
  | dmul (o : Ops)
  /-- DFMA (R210): FP64 fused multiply-add. -/
  | dfma (o : Ops)
  /-- DMIN (R210): FP64 minimum. -/
  | dmin (o : Ops)
  /-- DMAX (R210): FP64 maximum. -/
  | dmax (o : Ops)
  /-- DCMP (R210): FP64 compare. -/
  | dcmp (o : Ops)
  /-- DDIV (R210): FP64 division. -/
  | ddiv (o : Ops)
  /-- DSQRT (R210): FP64 square root. -/
  | dsqrt (o : Ops)
  /-- HADD2 (R211): Packed FP16 or BF16 add. -/
  | hadd2 (o : Ops)
  /-- HMUL2 (R211): Packed FP16 or BF16 multiply. -/
  | hmul2 (o : Ops)
  /-- HFMA2 (R211): Packed FP16 or BF16 fused multiply-add. -/
  | hfma2 (o : Ops)
  /-- HMIN2 (R211): Packed 16-bit minimum. -/
  | hmin2 (o : Ops)
  /-- HMAX2 (R211): Packed 16-bit maximum. -/
  | hmax2 (o : Ops)
  /-- HCMP2 (R211): Packed 16-bit compare into two predicates. -/
  | hcmp2 (o : Ops)
  /-- FDOT2 (R211): Two-element 16-bit dot product plus FP32, with one rounding. -/
  | fdot2 (o : Ops)
  /-- F2F (R212): Converts between float formats. -/
  | f2f (o : Ops)
  /-- F2I (R212): Converts a float to an integer with saturation. -/
  | f2i (o : Ops)
  /-- I2F (R212): Converts an integer to a float. -/
  | i2f (o : Ops)
  /-- I2I (R212): Saturates an integer to a narrower type. -/
  | i2i (o : Ops)
  /-- LN2F (R213): Decodes one LNS6 element to FP32. -/
  | ln2f (o : Ops)
  /-- F2LN (R213): Encodes FP32 as an LNS6 code. -/
  | f2ln (o : Ops)
  /-- PACK (R213): Packs 16-bit values, bytes or nibbles into one register. -/
  | pack (o : Ops)
  /-- UNPK (R213): Extracts one packed element as raw bits. -/
  | unpk (o : Ops)
  /-- QBLK (R214): Quantises the warp as two blocks of 32 lanes, and ORs QSTAT bits at completion. -/
  | qblk (o : Ops)
  /-- DQBL (R214): Decodes one quantised element with its scale. -/
  | dqbl (o : Ops)
  /-- QSRD (R215): Reads the team's QSTAT once the warp's earlier quantising operations have completed. -/
  | qsrd (o : Ops)
  /-- QSCLR (R215): Clears QSTAT bits under the W1C rule. -/
  | qsclr (o : Ops)
  /-- GLD (R226): Starts a global load: the lanes are checked and the line requests are sent. -/
  | gld (o : Ops)
  /-- GST (R226): Starts a global store through the core's write-through queue. -/
  | gst (o : Ops)
  /-- SPLD (R226): Scratch load, served in bank rounds. -/
  | spld (o : Ops)
  /-- SPST (R226): Scratch store. -/
  | spst (o : Ops)
  /-- SLLD (R226): Slice-memory load. -/
  | slld (o : Ops)
  /-- SLST (R226): Slice-memory store. -/
  | slst (o : Ops)
  /-- SKLD (R228): Per-thread stack load. -/
  | skld (o : Ops)
  /-- SKST (R228): Per-thread stack store. -/
  | skst (o : Ops)
  /-- GSTN (R226): Global store whose line the home slice marks first for replacement. -/
  | gstn (o : Ops)
  /-- CLD (R229): Warp-uniform global load from a scalar address. -/
  | cld (o : Ops)
  /-- PRFG_L1 (R229): Prefetches each lane's line into L1. -/
  | prfgL1 (o : Ops)
  /-- PRFG_L2 (R229): Prefetches each lane's line into its home slice only. -/
  | prfgL2 (o : Ops)
  /-- CCTL_IVL (R229): Invalidates the named lines in the issuing core's L1. -/
  | cctlIvl (o : Ops)
  /-- CCTL_IVAL (R229): Invalidates every global line of the issuing core's L1. -/
  | cctlIval (o : Ops)
  /-- TLD (R230): Loads one 16 x 16 tile into the warp. -/
  | tld (o : Ops)
  /-- TST (R230): Stores one 16 x 16 tile from the warp. -/
  | tst (o : Ops)
  /-- QLD (R231): Loads and decodes two blocks of a scaled line. -/
  | qld (o : Ops)
  /-- QST (R231): Quantises two blocks and writes them into a scaled line as one event. -/
  | qst (o : Ops)
  /-- COPY (R232): Issues a per-lane copy; its addresses are checked at issue and the line operations are handed to the copy channel. -/
  | copy (o : Ops)
  /-- CPRG (R234): Issues a region copy from a record in scalars, translating every page at issue. -/
  | cprg (o : Ops)
  /-- HWAIT_FULL (R235): Stalls until the handle is full or draining. -/
  | hwaitFull (o : Ops)
  /-- HWAIT_FREE (R235): Stalls until the handle is free. -/
  | hwaitFree (o : Ops)
  /-- HWP (R235): Reads a handle's WPTR and acquires the bytes below it. -/
  | hwp (o : Ops)
  /-- HREL_CLAIM (R235): Moves a handle from full to draining. -/
  | hrelClaim (o : Ops)
  /-- HREL_FREE (R235): Moves a handle from full or draining to free. -/
  | hrelFree (o : Ops)
  /-- SEND (R236): Sends one message per passing lane to a team's receive ring. -/
  | send (o : Ops)
  /-- AADD (R238): Atomic add that returns the old value. -/
  | aadd (o : Ops)
  /-- AMIN (R238): Atomic minimum that returns the old value. -/
  | amin (o : Ops)
  /-- AMAX (R238): Atomic maximum that returns the old value. -/
  | amax (o : Ops)
  /-- AAND (R238): Atomic AND that returns the old value. -/
  | aand (o : Ops)
  /-- AOR (R238): Atomic OR that returns the old value. -/
  | aor (o : Ops)
  /-- AXOR (R238): Atomic XOR that returns the old value. -/
  | axor (o : Ops)
  /-- AXCH (R238): Atomic exchange. -/
  | axch (o : Ops)
  /-- ACAS (R238): Atomic compare-and-swap. -/
  | acas (o : Ops)
  /-- RDADD (R238): Reduce-add packet with no return. -/
  | rdadd (o : Ops)
  /-- RDMIN (R238): Reduce-minimum packet. -/
  | rdmin (o : Ops)
  /-- RDMAX (R238): Reduce-maximum packet. -/
  | rdmax (o : Ops)
  /-- RDAND (R238): Reduce-AND packet. -/
  | rdand (o : Ops)
  /-- RDOR (R238): Reduce-OR packet. -/
  | rdor (o : Ops)
  /-- RDXOR (R238): Reduce-XOR packet. -/
  | rdxor (o : Ops)
  /-- BOP (R240): Bank operation on slice memory, with no return. -/
  | bop (o : Ops)
  /-- BOPR (R240): Bank operation on slice memory that returns the old value. -/
  | bopr (o : Ops)
  /-- FENCE (R138): Orders loads and stores at a scope in both directions. -/
  | fence (o : Ops)
  /-- ACQ (R138): Acquire at a scope, invalidating L1 at SECTOR or wider. -/
  | acq (o : Ops)
  /-- REL (R138): Release at a scope, waiting for the drain set. -/
  | rel (o : Ops)
  /-- ACQ_STEAL (R142): Remote-scope promotion: drains a victim core and then acquires at DEVICE scope. -/
  | acqSteal (o : Ops)
  /-- BAR (R242): Arrives at the team barrier and waits for the phase to complete. -/
  | bar (o : Ops)
  /-- BARARV (R242): Arrives at the team barrier with a release. -/
  | bararv (o : Ops)
  /-- BARWT (R242): Waits for the pending barrier phase and acquires. -/
  | barwt (o : Ops)
  /-- WAIT (R243): Stalls until the outstanding counters fall to the given limits. -/
  | wait (o : Ops)
  /-- PUBL (R156): Publishes a range of code lines and invalidates instruction-cache copies within the scope. -/
  | publ (o : Ops)
  /-- CNTRD (R245): Reads the warp's counters or the team's send-discard count. -/
  | cntrd (o : Ops)
  /-- SPAWN_DIRECT (R246): Appends each passing lane's record to the bin of a label entry. -/
  | spawnDirect (o : Ops)
  /-- SPAWN_INDIRECT (R246): Appends records to the bin of an entry held in a scalar pair. -/
  | spawnIndirect (o : Ops)
  /-- BFLUSH (R247): Launches a bin as if its timer expired. -/
  | bflush (o : Ops)
  /-- BSTAT (R247): Reads the number of records a bin holds. -/
  | bstat (o : Ops)
  /-- LAUNCH (R248): Launches a child grid from the team leader, or returns a failure status. -/
  | launch (o : Ops)
  /-- LWAIT (R250): Waits for a child grid to retire, then writes its status and acquires. -/
  | lwait (o : Ops)
  /-- LPOLL (R250): Reads a child grid's status without waiting. -/
  | lpoll (o : Ops)
  /-- PUSH (R252): Pushes a value to a neighbour port, spending a credit and completing for all lanes at once. -/
  | push (o : Ops)
  /-- POP (R252): Pops the oldest value of a port queue and returns its credit. -/
  | pop (o : Ops)
  /-- PEEK (R253): Reads the oldest queued value without removing it. -/
  | peek (o : Ops)
  /-- PSTAT (R253): Reads the edge, credit and held-value status of a port. -/
  | pstat (o : Ops)
  /-- PDRD (R254): Reads the team's port-discard count. -/
  | pdrd (o : Ops)
  /-- PDRD_CLR (R254): Reads the port-discard count and clears it. -/
  | pdrdClr (o : Ops)
  /-- PMAP (R254): Reads the team's port-map coordinates. -/
  | pmap (o : Ops)
  /-- MZERO (R265): Zeroes an accumulator tile. -/
  | mzero (o : Ops)
  /-- MLDW (R262): Sheaf-collective load of a weight tile from registers. -/
  | mldw (o : Ops)
  /-- MWST (R263): Sheaf-collective load of a weight tile from scratch through a handle. -/
  | mwst (o : Ops)
  /-- MSTR (R264): Streams activations through the arrays into an accumulator. -/
  | mstr (o : Ops)
  /-- MSTACC (R266): Stores, and may quantise, an accumulator tile to memory or scratch. -/
  | mstacc (o : Ops)
  /-- MLDACC (R267): Loads an accumulator tile from memory. -/
  | mldacc (o : Ops)
  /-- MRD (R265): Reads an accumulator into vector registers. -/
  | mrd (o : Ops)
  /-- MWR (R265): Writes vector registers into an accumulator. -/
  | mwr (o : Ops)
  /-- MCPY (R265): Copies one accumulator to another. -/
  | mcpy (o : Ops)
  /-- MSCL (R265): Scales every element of an accumulator. -/
  | mscl (o : Ops)
  /-- MTRN (R265): Transposes an accumulator. -/
  | mtrn (o : Ops)
  /-- MSYN (R265): Stalls until no accumulator in its mask is owned. -/
  | msyn (o : Ops)
  /-- LEASE (R272): Requests a lease of engines, queueing until the lease is ready. -/
  | lease (o : Ops)
  /-- LEASE_TRY (R272): Requests a lease without queueing, and reports BUSY when it cannot grant. -/
  | leaseTry (o : Ops)
  /-- ERLS (R272): Releases a lease once its commands have completed, leaving its engines idle. -/
  | erls (o : Ops)
  /-- ERLS_COLD (R272): Releases a lease and puts its engines to sleep. -/
  | erlsCold (o : Ops)
  /-- ESTAT (R273): Reads a lease's status word. -/
  | estat (o : Ops)
  /-- TRACE (R278): Traverses rays through a BVH and spawns hit or miss records. -/
  | trace (o : Ops)
  /-- ATTR (R281): Computes attributes for explicit items into a handle. -/
  | attr (o : Ops)
  /-- RAST (R279): Rasterises clusters into visibility tiles. -/
  | rast (o : Ops)
  /-- THRESH (R280): Classifies a visibility tile and spawns its quad groups into material bins. -/
  | thresh (o : Ops)
  /-- DECODE (R282): Decodes compressed clusters. -/
  | decode (o : Ops)
  /-- GATHER (R283): Gathers indexed elements into a handle. -/
  | gather (o : Ops)
  /-- SCATR (R283): Scatters elements from a handle to indexed addresses. -/
  | scatr (o : Ops)
  /-- COLL (R284): Combines one buffer across a group of devices. -/
  | coll (o : Ops)
  /-- ECANC (R277): Cancels a command once its current items finish. -/
  | ecanc (o : Ops)
  /-- EPOLL (R277): Reads a command's status word. -/
  | epoll (o : Ops)
  /-- EWAIT (R277): Waits for a command's final status. -/
  | ewait (o : Ops)
  /-- SRD (R330): Reads a system register. -/
  | srd (o : Ops)
  /-- SWR (R330): Writes a system register that has no behaviour of its own. -/
  | swr (o : Ops)
  /-- TLBI_ALL (R347): Drops every TLB entry in the scope. -/
  | tlbiAll (o : Ops)
  /-- TLBI_ASID (R347): Drops the non-global entries of one ASID. -/
  | tlbiAsid (o : Ops)
  /-- TLBI_VA (R347): Drops the entries whose page contains an address. -/
  | tlbiVa (o : Ops)
  /-- TLBI_MAP (R348): Clears the published state of a physical range and invalidates its instruction-cache copies. -/
  | tlbiMap (o : Ops)
  /-- TRAP (R332): Takes class 0x11 with subcode 0x80 + n. -/
  | trap (o : Ops)
  /-- BRKPT (R332): Takes class 0x11 with subcode 0. -/
  | brkpt (o : Ops)
  /-- HRET (R329): Leaves handler mode. -/
  | hret (o : Ops)
  /-- HRPL (R329): Replays the parked lanes of a mask. -/
  | hrpl (o : Ops)
  /-- HRPL_ALL (R329): Replays every parked lane. -/
  | hrplAll (o : Ops)
  /-- HEMU (R329): Resumes parked lanes past their faulting instruction. -/
  | hemu (o : Ops)
  /-- HEMU_TO (R329): Resumes parked lanes at a per-lane address. -/
  | hemuTo (o : Ops)
  /-- HEND (R329): Ends the warp: every thread exits and its records are discarded. -/
  | hend (o : Ops)
  /-- HFRD (R328): Reads one word of each lane's fault record. -/
  | hfrd (o : Ops)
  /-- HSRD (R328): Reads the warp's trap cause, lane masks or detail. -/
  | hsrd (o : Ops)
  /-- CTXSV (R335): Team-collective save of the context image, after which the team is descheduled. -/
  | ctxsv (o : Ops)
  /-- CTXLD (R335): Team-collective restore from a context image. -/
  | ctxld (o : Ops)
  /-- ICINV (R331): Invalidates the issuing core's instruction cache. -/
  | icinv (o : Ops)
  /-- PMRD (R331): Reads a quarter performance counter. -/
  | pmrd (o : Ops)
  /-- L2FL_WB (R365): Writes back the dirty lines of a range. -/
  | l2flWb (o : Ops)
  /-- L2FL_INV (R365): Writes back and invalidates the lines of a range. -/
  | l2flInv (o : Ops)
  /-- L2FL_SLICE (R365): Writes back and invalidates every line of one slice. -/
  | l2flSlice (o : Ops)
  /-- L2FL_PART (R365): Writes back and invalidates every slice of the issuing partition. -/
  | l2flPart (o : Ops)
  /-- PAIRED_WORD (R176): Issues two slots in one cycle, each slot reading its sources before either writes. -/
  | pairedWord (p q : Slot)
  /-- PATTERN_TABLE_REPLACE (R221): The pattern table is replaced in a single cycle, 40 cc after LDPAT issues. -/
  | patternTableReplace
  /-- COPY_LINE_SEND (R233): A copy channel sends a line operation once deficit, permits and tokens allow. -/
  | copyLineSend
  /-- COPY_LINE_DELIVERY (R233): A copy line is delivered to scratch or to global memory, advancing WPTR and ending any recall on the line. -/
  | copyLineDelivery
  /-- MESSAGE_APPEND (R130): The destination network interface writes a message entry into the ring and then increments TAIL, once the ring has room. -/
  | messageAppend
  /-- REQUEST_ARRIVAL (R415): A request arrives at its home, which in that cycle performs a store, gives a load its value or applies an atomic, reduce packet or bank operation. -/
  | requestArrival
  /-- STORE_ACKNOWLEDGE (R136): A store's acknowledgement reaches its core, and the store is complete. -/
  | storeAcknowledge
  /-- LOAD_REPLY (R227): A line reply returns and writes the load's destinations, lowering LD at completion. -/
  | loadReply
  /-- STEAL_ARRIVAL (R142): The steal request reaches the victim core, which drains its write-through queue and invalidates its L1. -/
  | stealArrival
  /-- BIN_TIMER_EXPIRY (R51): A bin's timer expires and the bin launches with the records it holds. -/
  | binTimerExpiry
  /-- BIN_WAITING_ENTRY (R50): A record or quad group waiting at a full bin enters in the first cycle in which its room is free. -/
  | binWaitingEntry
  /-- PORT_VALUE_ARRIVAL (R74): A pushed value becomes poppable in the neighbour's queue after the axis latency. -/
  | portValueArrival
  /-- PORT_CREDIT_RETURN (R74): A popped value's credit reaches the sender after the axis latency. -/
  | portCreditReturn
  /-- PORT_STALL_TRAP (R79): A warp stalled at a port instruction for the timeout takes class 0x0B. -/
  | portStallTrap
  /-- TILE_OP_START (R260): A queued tile operation starts on the array once its order, hazard and array-free conditions hold. -/
  | tileOpStart
  /-- TILE_OP_COMPLETE (R260): A tile operation completes, frees its accumulators and lowers TL. -/
  | tileOpComplete
  /-- LEASE_GRANT (R270): The head of a sector's lease queue is granted when its engines and tokens fit, putting idle engines of other classes to sleep. -/
  | leaseGrant
  /-- ENGINE_WAKE_COMPLETE (R269): A waking engine becomes leased when its wake latency elapses. -/
  | engineWakeComplete
  /-- LEASE_REVOKE (R271): A grace period expires: the lease is revoked, its commands end EVICTED and its engines become idle. -/
  | leaseRevoke
  /-- ENGINE_COMMAND_ARRIVAL (R275): A command reaches an engine of its lease 12 cc after issue. -/
  | engineCommandArrival
  /-- ENGINE_ITEM_START (R275): An engine starts the next item of a command when a slot is free. -/
  | engineItemStart
  /-- ENGINE_COMMAND_COMPLETE (R275): A command's status becomes final and CP falls. -/
  | engineCommandComplete
  /-- RAST_STALL_RESUME (R293): A RAST write stalled on a busy tile or a full budget proceeds once a tile closes. -/
  | rastStallResume
  /-- COLL_TIMEOUT (R284): A COLL ends with TIMEOUT when a rank has not joined before its timeout. -/
  | collTimeout
  /-- LANE_DELIVERY (R295): The attribute engine delivers the registers of a lane launched from a thresher or traversal record. -/
  | laneDelivery
  /-- TLB_WALK_COMPLETE (R343): A hardware walk ends and fills the TLBs, or reports the page not present. -/
  | tlbWalkComplete
  /-- ADDRESS_BREAKPOINT (R333): A selected warp about to issue at an enabled BKADDR takes class 0x11 before the issue. -/
  | addressBreakpoint
  /-- MEETING_RELEASE (R28): At the end of a cycle, the threads held at a meeting value that no running thread carries are released. -/
  | meetingRelease
  /-- GREED_LIMIT (R53): After 256 consecutive issues the scheduler switches to the oldest ready warp. -/
  | greedLimit
  /-- HANDLER_VECTOR (R56): A warp with parked lanes or a due warp trap enters handler mode at TRAPVEC at an instruction boundary. -/
  | handlerVector
  /-- WARP_RETIRE (R200): A warp whose threads have all exited retires once its counters are zero and its stores are complete. -/
  | warpRetire
  /-- TEAM_RESOURCES_FREE (R42): A retired or saved team's resources return to the core 40 cc later. -/
  | teamResourcesFree
  /-- TEAM_PLACEMENT (R47): The dispatcher places the next team, bin or group on the lowest-numbered core that can hold it. -/
  | teamPlacement
  /-- LAUNCH_DOORBELL (R354): A write of TAIL to LQDB covers new launch records, unless it would overfill the ring. -/
  | launchDoorbell
  /-- LAUNCH_RECORD (R356): The dispatcher takes a KIND 1 record, which takes a pool entry and waits on its token. -/
  | launchRecord
  /-- SKIP_RECORD (R359): The dispatcher takes a KIND 0 record, which completes as a dependence join when its token condition holds. -/
  | skipRecord
  /-- RESTORE_RECORD (R359): The dispatcher takes a KIND 2 record, which restores a team from its image. -/
  | restoreRecord
  /-- PREEMPT_REQUEST (R358): A write to PREQ asks the named resident teams to be pre-empted. -/
  | preemptRequest
  /-- PREEMPT_TRAP (R334): Each warp of a pre-empted team takes class 0x13 at its next boundary outside handler mode. -/
  | preemptTrap
  /-- PARTCFG_WRITE (R353): Sets the partitions and the L2 mode at a context boundary, and is ignored otherwise. -/
  | partcfgWrite
  /-- HASHMASK_COMMIT (R362): A write to HASHMASK index 32 commits staged domains or is refused, and on success starts the orphan scan. -/
  | hashmaskCommit
  /-- COMMIT_SCAN_END (R362): The orphan scan ends: GEN increases and the core ports hold the new map. -/
  | commitScanEnd
  /-- REFUSED_REQUEST_RESEND (R363): A port resends a refused request to its new home 8 cc after the refusal arrives. -/
  | refusedRequestResend
  /-- TKSHARE_WRITE (R368): A write to TKSHARE sets the bucket parameters and fills every bucket. -/
  | tkshareWrite
  /-- BUCKET_REFILL (R368): At every 1,024th cycle of a core, its bucket is refilled with REFILL plus EXTRA, up to BURST. -/
  | bucketRefill
  /-- PARTITION_IDLE_CHANGE (R369): A metered partition becomes idle, or stops being idle. -/
  | partitionIdleChange
  /-- IDLE_STATE_ARRIVAL (R369): An idle-state change reaches every core 64 cc after it occurs. -/
  | idleStateArrival
  /-- ENGBUDGET_WRITE (R370): A write to ENGBUDGET sets a sector budget, sleeping idle engines and starting grace when tokens exceed it. -/
  | engbudgetWrite
  /-- SLMCARVE_WRITE (R118): Sets a slice's carve-out at a context boundary with the slice flushed. -/
  | slmcarveWrite
  /-- PAGER_DOORBELL (R349): A write of a slot number to PAGEDB interrupts the Guluth control core. -/
  | pagerDoorbell
  /-- PAGER_SERVE (R350): The pager serves one request: copies or decodes the page, maps it, invalidates and writes the completion word. -/
  | pagerServe
  /-- REMAP_GO (R395): Starts a remap, and dispatchers stop placing teams. -/
  | remapGo
  /-- REMAP_CANCEL (R395): Abandons a remap that is waiting. -/
  | remapCancel
  /-- REMAP_RUN (R395): Once no team is resident and no tile is open, the remap invalidates, gates layers and begins zeroing. -/
  | remapRun
  /-- REMAP_COMPLETE (R395): The zeroing ends and CAPMAP, GEN, LIVEMIB and MEMSTAT are updated. -/
  | remapComplete
  /-- OBJECT_ENABLE (R388): A write that sets EN in OBJTAB enables a coherence object when its shape is valid. -/
  | objectEnable
  /-- OBJECT_DISABLE (R388): A write that clears EN stalls until every tenure of the object is recalled or reverted. -/
  | objectDisable
  /-- OBJECT_FLAG_CLEAR (R388): Writing 1 to FLAG clears an object's flag. -/
  | objectFlagClear
  /-- TENURE_RECALL_TIMEOUT (R153): A recall unanswered for the recall bound stops renewals and starts the 2T wait. -/
  | tenureRecallTimeout
  /-- TENURE_REVERT (R153): After 2T the home reverts the holder's lines, flags the object and completes the waiting request. -/
  | tenureRevert
  /-- TENURE_RENEWAL (R389): A renewal message from a holder reaches the home, which restarts its count. -/
  | tenureRenewal
  /-- TENURE_LAPSE (R389): A holder whose own count lapses drops its copies without write-back. -/
  | tenureLapse
  /-- FLIT_REPLAY (R379): A Drathes flit that fails its CRC is rejected and replayed. -/
  | flitReplay
  /-- LINK_DOWN (R383): A link goes down after failed replays or a loss of training, and contexts with requests on it are killed. -/
  | linkDown
  /-- HEADER_ERROR (R378): A header flit that fails its CRC halts its partition, or every partition under shared L2. -/
  | headerError
  /-- PARTITION_HALT_COMPLETE (R378): A halting partition logs completion within 20,000 cc. -/
  | partitionHaltComplete
  /-- BANK_LOSS (R392): A bank fails, moving its column to penumbra, unprotected or failed. -/
  | bankLoss
  /-- GLEAN_STEP (R393): Gleaning rebuilds one position of the lost bank into layer 8 every 10 cc. -/
  | gleanStep
  /-- ERRLOG_CLEAR (R397): An SWR to ERRLOG index 0 clears the corrected and uncorrected counts. -/
  | errlogClear
  /-- CLOCK_SET (R411): A CLKMHZ write sets the arithmetic clock when no team is resident. -/
  | clockSet
  /-- D3HOT_ENTRY (R411): A PowerState write of D3hot enters D3hot only when idle, and is otherwise ignored and reported. -/
  | d3hotEntry
  /-- DRAW_OVER_LIMIT (R411): When DRAWW exceeds LIMITW, the device posts a mailbox message and raises vector 8. -/
  | drawOverLimit
  /-- OVER_TEMPERATURE_TRIP (R412): At the trip temperature every clock stops except the Guluth clock, TRIP is set and a message is posted. -/
  | overTemperatureTrip
  /-- RESET (R405): A reset starts the staged bring-up at stage 0. -/
  | reset
  /-- STAGE_COMPLETE (R405): A bring-up stage completes, or fails and stops the sequence. -/
  | stageComplete
  /-- LOADFW (R407): Mailbox command that loads and verifies a firmware image. -/
  | loadfw
  /-- STATUS (R413): Mailbox command that returns status. -/
  | status
  /-- IDCERT (R408): Mailbox command that returns the identity certificate. -/
  | idcert
  /-- ATTEST (R409): Mailbox command that returns a signed attestation over a nonce. -/
  | attest
  /-- LOADMOD (R190): Mailbox command that finalises and loads a Snisyn module. -/
  | loadmod
  /-- READLOG (R397): Mailbox command that returns the error log. -/
  | readlog
  /-- RECALL_AT_HOLDER (R152): A recall from a remote home reaches this device as the holder of a tenure, which writes back its dirty lines of the object and gives up the tenure. -/
  | recallAtHolder
  /-- D0_ENTRY (R411): A write of D0 to the PowerState field brings the device out of D3hot, with memory contents and stage kept. -/
  | d0Entry
  /-- MAILBOX_BADCMD (R413): A mailbox request with an unknown command code or a bad length is answered with status BADCMD. -/
  | mailboxBadcmd
  deriving DecidableEq, Repr

end Sys2Proof
end

