-- ==== Sys2Proof/Machine/Num.lean ====
section
/-!
DEFINITION. The number formats and the arithmetic helpers of 04_number_formats_and_layouts.md (R81-R102): exact
rationals, IEEE values with one rounding, LNS6, the element codecs, quantisation, and the orders of summation.
Every helper of R107 has its one definition here.
-/
namespace Sys2Proof.Machine

/-! ## Exact rationals -/

/-- An exact rational `num / den`, not reduced; `den` is positive. -/
structure Q where
  num : Int
  den : Nat
  deriving DecidableEq, Repr

def Q.ofInt (i : Int) : Q := ⟨i, 1⟩
def Q.zero : Q := ⟨0, 1⟩
def Q.isZero (a : Q) : Bool := a.num == 0
def Q.isNeg (a : Q) : Bool := a.num < 0
def Q.add (a b : Q) : Q :=
  if a.den = b.den then ⟨a.num + b.num, a.den⟩ else ⟨a.num * b.den + b.num * a.den, a.den * b.den⟩
def Q.neg (a : Q) : Q := ⟨-a.num, a.den⟩
def Q.sub (a b : Q) : Q := a.add b.neg
def Q.mul (a b : Q) : Q := ⟨a.num * b.num, a.den * b.den⟩
/-- Division; by zero it gives zero, and every caller has excluded that case. -/
def Q.div (a b : Q) : Q :=
  if b.num = 0 then Q.zero
  else if b.num < 0 then ⟨-(a.num * b.den), a.den * b.num.natAbs⟩ else ⟨a.num * b.den, a.den * b.num.natAbs⟩
def Q.abs (a : Q) : Q := ⟨a.num.natAbs, a.den⟩
def Q.lt (a b : Q) : Bool := a.num * b.den < b.num * a.den
def Q.le (a b : Q) : Bool := a.num * b.den ≤ b.num * a.den
def Q.eq (a b : Q) : Bool := a.num * b.den = b.num * a.den
/-- `a * 2^k`. -/
def Q.scale (a : Q) (k : Int) : Q :=
  if 0 ≤ k then ⟨a.num * (2 ^ k.toNat : Nat), a.den⟩ else ⟨a.num, a.den * 2 ^ (-k).toNat⟩
def Q.floor (a : Q) : Int := a.num.fdiv a.den

/-- The greatest `e` with `2^e ≤ n / d`, for positive `n` and `d`. -/
def floorLog2 (n d : Nat) : Int :=
  let e : Int := (n.log2 : Int) - (d.log2 : Int)
  if 0 ≤ e then (if d <<< e.toNat ≤ n then e else e - 1)
  else (if d ≤ n <<< (-e).toNat then e else e - 1)

/-! ## Rounding -/

/-- Whether a magnitude `m + r/d` (with `r < d`) rounds away from zero under `rm` (04 R82). -/
def roundsUp (rm : Rm) (neg : Bool) (m r d : Nat) : Bool :=
  match rm with
  | .rne => 2 * r > d || (2 * r == d && m % 2 == 1)
  | .rtz => false
  | .rup => !neg && r != 0
  | .rdn => neg && r != 0

/-- `round_int(x, rm)` (04 R86). -/
def roundInt (x : Q) (rm : Rm) : Int :=
  let n := x.num.natAbs
  let m := n / x.den
  let m' := if roundsUp rm x.isNeg m (n % x.den) x.den then m + 1 else m
  if x.isNeg then -(m' : Int) else m'

/-- A binary format: exponent and fraction widths (04 R81). -/
structure Fmt where
  eb : Nat
  mb : Nat
  deriving DecidableEq, Repr

def fp64 : Fmt := ⟨11, 52⟩
def fp32 : Fmt := ⟨8, 23⟩
def fp16 : Fmt := ⟨5, 10⟩
def bf16 : Fmt := ⟨8, 7⟩

def Fmt.bias (f : Fmt) : Nat := 2 ^ (f.eb - 1) - 1
def Fmt.signBit (f : Fmt) : Nat := 2 ^ (f.eb + f.mb)
def Fmt.infBits (f : Fmt) : Nat := (2 ^ f.eb - 1) * 2 ^ f.mb
/-- `canon_nan(fmt)` (04 R84). -/
def Fmt.canonNan (f : Fmt) : Nat := f.infBits + 2 ^ (f.mb - 1)

/-- A floating-point value: NaN, an infinity, or a finite exact value whose sign bit is `neg` (which tells the two
zeros apart). -/
inductive FV where
  | nan
  | inf (neg : Bool)
  | fin (neg : Bool) (q : Q)
  deriving DecidableEq, Repr

/-- The value of a bit pattern. -/
def Fmt.decode (f : Fmt) (b : Nat) : FV :=
  let mant := b % 2 ^ f.mb
  let ex := b / 2 ^ f.mb % 2 ^ f.eb
  let neg := b / f.signBit % 2 == 1
  let sgn (q : Q) : Q := if neg then q.neg else q
  if ex = 2 ^ f.eb - 1 then (if mant = 0 then .inf neg else .nan)
  else if ex = 0 then .fin neg (sgn ((Q.ofInt mant).scale (1 - f.bias - f.mb : Int)))
  else .fin neg (sgn ((Q.ofInt (2 ^ f.mb + mant : Nat)).scale ((ex : Int) - f.bias - f.mb)))

/-- The bits of a value that overflows (04 R82). -/
def Fmt.overflow (f : Fmt) (rm : Rm) (neg : Bool) : Nat :=
  let toInf := match rm with
    | .rne => true
    | .rtz => false
    | .rup => !neg
    | .rdn => neg
  (if neg then f.signBit else 0) + (if toInf then f.infBits else f.infBits - 1)

/-- The bits of a non-zero real rounded once (04 R82). -/
def Fmt.roundQ (f : Fmt) (rm : Rm) (q : Q) : Nat :=
  let n := q.num.natAbs
  let e := floorLog2 n q.den
  let emin : Int := 1 - f.bias
  let e' := if e < emin then emin else e
  let k : Int := e' - f.mb
  let a := if k < 0 then n <<< (-k).toNat else n
  let d := if k < 0 then q.den else q.den <<< k.toNat
  let m := a / d
  let m' := if roundsUp rm q.isNeg m (a % d) d then m + 1 else m
  let bits := (e' - emin).toNat * 2 ^ f.mb + m'
  if f.infBits ≤ bits then f.overflow rm q.isNeg
  else (if q.isNeg then f.signBit else 0) + bits

/-- `round(x, fmt, rm)` (04 R82, R84). -/
def Fmt.round (f : Fmt) (rm : Rm) : FV → Nat
  | .nan => f.canonNan
  | .inf neg => (if neg then f.signBit else 0) + f.infBits
  | .fin neg q => if q.isZero then (if neg then f.signBit else 0) else f.roundQ rm q

def Fmt.isSubnormal (f : Fmt) (b : Nat) : Bool :=
  b / 2 ^ f.mb % 2 ^ f.eb == 0 && b % 2 ^ f.mb != 0
/-- `ftz_in` and `ftz_out` act alike on a bit pattern: a subnormal becomes the zero of its sign (04 R83). -/
def Fmt.flush (f : Fmt) (ftz : Bool) (b : Nat) : Nat :=
  if ftz && f.isSubnormal b then (if b / f.signBit % 2 == 1 then f.signBit else 0) else b
def Fmt.isNan (f : Fmt) (b : Nat) : Bool := f.decode b == .nan

/-! ## Arithmetic on values -/

def FV.isNeg : FV → Bool
  | .nan => false
  | .inf n => n
  | .fin n _ => n

def FV.isZero : FV → Bool
  | .fin _ q => q.isZero
  | _ => false

def FV.neg : FV → FV
  | .nan => .nan
  | .inf n => .inf (!n)
  | .fin n q => .fin (!n) q.neg

/-- An exact sum, with the sign of an exact zero under `rm` (IEEE 754-2019 clause 6.3; 04 R82). -/
def FV.add (rm : Rm) : FV → FV → FV
  | .nan, _ => .nan
  | _, .nan => .nan
  | .inf a, .inf b => if a = b then .inf a else .nan
  | .inf a, .fin _ _ => .inf a
  | .fin _ _, .inf b => .inf b
  | .fin a p, .fin b q =>
    let r := p.add q
    if r.isZero then
      .fin (if p.isZero && q.isZero && a == b then a else rm == .rdn) Q.zero
    else .fin r.isNeg r

/-- An exact product. -/
def FV.mul : FV → FV → FV
  | .nan, _ => .nan
  | _, .nan => .nan
  | .inf a, .inf b => .inf (a != b)
  | .inf a, .fin b q => if q.isZero then .nan else .inf (a != b)
  | .fin a p, .inf b => if p.isZero then .nan else .inf (a != b)
  | .fin a p, .fin b q => .fin (a != b) (p.mul q)

/-- An exact quotient (IEEE 754-2019 clause 5.4). -/
def FV.div : FV → FV → FV
  | .nan, _ => .nan
  | _, .nan => .nan
  | .inf _, .inf _ => .nan
  | .inf a, .fin b _ => .inf (a != b)
  | .fin a _, .inf b => .fin (a != b) Q.zero
  | .fin a p, .fin b q =>
    if q.isZero then (if p.isZero then .nan else .inf (a != b)) else .fin (a != b) (p.div q)

/-- A value times a power of two. -/
def FV.scale (k : Int) : FV → FV
  | .fin a q => .fin a (q.scale k)
  | v => v

/-- Ordered comparison; −0 equals +0. -/
def FV.lt : FV → FV → Bool
  | .nan, _ => false
  | _, .nan => false
  | .inf a, .inf b => a && !b
  | .inf a, .fin _ _ => a
  | .fin _ _, .inf b => !b
  | .fin _ p, .fin _ q => p.lt q

def FV.eq : FV → FV → Bool
  | .inf a, .inf b => a == b
  | .fin _ p, .fin _ q => p.eq q
  | _, _ => false

/-- The order of minimum and maximum: −0 lies below +0 (08 R207). -/
def FV.below (a b : FV) : Bool := a.lt b || (a.eq b && a.isNeg && !b.isNeg)

/-- A bounded integer square root: the greatest `r` below `2^k` with `r * r ≤ n`, by bits from `k` down. -/
def isqrtBits (n : Nat) : Nat → Nat → Nat
  | 0, r => r
  | k + 1, r => isqrtBits n k (if (r + 2 ^ k) * (r + 2 ^ k) ≤ n then r + 2 ^ k else r)

def isqrt (n : Nat) : Nat := isqrtBits n (n.log2 / 2 + 1) 0

/-- A rational that rounds as the square root of `q` does in every format whose half-ulp is a multiple of `2^-k`:
the root itself when it is such a multiple, and otherwise the midpoint of the multiples around it. -/
def Q.sqrtAt (q : Q) (k : Nat) : Q :=
  let t := q.num.natAbs * q.den * 4 ^ k
  let r := isqrt t
  if r * r = t then ⟨r, q.den * 2 ^ k⟩ else ⟨2 * r + 1, q.den * 2 ^ (k + 1)⟩

/-- `√x` for `round` to `f`, with √(−0) = −0 (08 R209). -/
def FV.sqrt (f : Fmt) : FV → FV
  | .nan => .nan
  | .inf n => if n then .nan else .inf false
  | .fin n q =>
    if q.isZero then .fin n q else if q.isNeg then .nan else .fin false (q.sqrtAt (f.bias + f.mb + 4))

/-- `1/√x` for `round` to `f` (IEEE 754-2019 clause 9.2: rSqrt of ±0 is ±∞). -/
def FV.rsqrt (f : Fmt) : FV → FV
  | .nan => .nan
  | .inf n => if n then .nan else .fin false Q.zero
  | .fin n q =>
    if q.isZero then .inf n else if q.isNeg then .nan
    else .fin false ((Q.ofInt 1 |>.div q).sqrtAt (f.bias + f.mb + 4))

/-! ## Operations on bit patterns -/

def fAdd (f : Fmt) (rm : Rm) (a b : Nat) : Nat := f.round rm ((f.decode a).add rm (f.decode b))
def fSub (f : Fmt) (rm : Rm) (a b : Nat) : Nat := f.round rm ((f.decode a).add rm (f.decode b).neg)
def fMul (f : Fmt) (rm : Rm) (a b : Nat) : Nat := f.round rm ((f.decode a).mul (f.decode b))
def fFma (f : Fmt) (rm : Rm) (a b c : Nat) : Nat :=
  f.round rm (((f.decode a).mul (f.decode b)).add rm (f.decode c))
def fDiv (f : Fmt) (rm : Rm) (a b : Nat) : Nat := f.round rm ((f.decode a).div (f.decode b))
def fSqrt (f : Fmt) (rm : Rm) (a : Nat) : Nat := f.round rm ((f.decode a).sqrt f)

/-- minimumNumber (08 R207): NaN only when both are NaN. -/
def fMin (f : Fmt) (a b : Nat) : Nat :=
  if f.isNan a then (if f.isNan b then f.canonNan else b)
  else if f.isNan b then a
  else if (f.decode b).below (f.decode a) then b else a
/-- maximumNumber (08 R207). -/
def fMax (f : Fmt) (a b : Nat) : Nat :=
  if f.isNan a then (if f.isNan b then f.canonNan else b)
  else if f.isNan b then a
  else if (f.decode a).below (f.decode b) then b else a
/-- Minimum and maximum of atomics and bank operations: a NaN operand gives `canon_nan` (09 R238). -/
def fMinNan (f : Fmt) (a b : Nat) : Nat := if f.isNan a || f.isNan b then f.canonNan else fMin f a b
def fMaxNan (f : Fmt) (a b : Nat) : Nat := if f.isNan a || f.isNan b then f.canonNan else fMax f a b

/-! ## Integers (04 R86) -/

/-- `wrap(n, x)` as a pattern. -/
def wrapN (n : Nat) (x : Int) : Nat := (x % (2 ^ n : Nat)).toNat
def clampI (x lo hi : Int) : Int := if x < lo then lo else if hi < x then hi else x
def satS (n : Nat) (x : Int) : Int := clampI x (-(2 ^ (n - 1) : Nat)) ((2 ^ (n - 1) : Nat) - 1)
def satU (n : Nat) (x : Int) : Int := clampI x 0 ((2 ^ n : Nat) - 1)
/-- Two's-complement value of an `n`-bit pattern. -/
def sx (n : Nat) (b : Nat) : Int :=
  let b := b % 2 ^ n
  if b < 2 ^ (n - 1) then b else (b : Int) - (2 ^ n : Nat)
/-- The saturated integer of a float: 0 for a NaN, infinities saturate (04 R86, 08 R212). -/
def toIntSat (v : FV) (rm : Rm) (signed : Bool) (n : Nat) : Int :=
  let sat := fun x => if signed then satS n x else satU n x
  match v with
  | .nan => 0
  | .inf neg => if neg then sat (-(2 ^ 200 : Nat)) else sat (2 ^ 200 : Nat)
  | .fin _ q => sat (roundInt q rm)
def signExtend4 (f : Nat) : Nat := wrapN 8 (sx 4 f)

/-! ## LNS6 (04 R87-R90) -/

def lnsTbl : Nat → Nat
  | 0 => 65536
  | 1 => 77935
  | 2 => 92682
  | _ => 110218
def lnsQ (c : Nat) : Int := sx 5 c
def lnsS (c : Nat) : Bool := c / 32 % 2 == 1
def lnsCode (s : Bool) (q : Int) : Nat := (if s then 32 else 0) + wrapN 5 q

/-- `lns_dec(c)` (04 R87). -/
def lnsDec (c : Nat) : Q :=
  let q := lnsQ c
  if q = -16 then Q.zero
  else
    let i := q.fdiv 4
    let f := (q - 4 * i).toNat
    let v := (⟨lnsTbl f, 65536⟩ : Q).scale i
    if lnsS c then v.neg else v

/-- `lns_mul(a, b)` (04 R88). -/
def lnsMul (a b : Nat) : Nat :=
  if lnsQ a = -16 || lnsQ b = -16 then 0x10
  else lnsCode (lnsS a != lnsS b) (clampI (lnsQ a + lnsQ b) (-15) 15)

/-- `step(t)` (04 R89), on a rational `t`. -/
def lnsStep (t : Q) : Nat :=
  if t.le (.ofInt 143471) then 0
  else if t.lt (.ofInt 170617) then 1
  else if t.le (.ofInt 202900) then 2
  else if t.lt (.ofInt 241290) then 3 else 4

/-- `lns_enc(x)` (04 R89). -/
def lnsEnc : FV → Nat
  | .nan => 0x10
  | .inf neg => lnsCode neg 15
  | .fin _ x =>
    if x.isZero then 0x10
    else
      let e := floorLog2 x.num.natAbs x.den
      let f := lnsStep (x.abs.scale (17 - e))
      let q := 4 * e + f
      if q < -15 then 0x10 else lnsCode x.isNeg (if q > 15 then 15 else q)

/-- `lns_add(a, b)` (04 R90). -/
def lnsAdd (a b : Nat) : Nat :=
  let x := (lnsDec a).add (lnsDec b)
  lnsEnc (.fin x.isNeg x)

/-! ## Element codecs and quantisation (04 R91-R96) -/

/-- An exact real as a value with its sign. -/
def FV.ofQ (q : Q) : FV := .fin q.isNeg q

/-- The magnitude `fmtmax` of a narrow format, by its code (04 R91, R92). -/
def fmtMax : Nat → Q
  | 1 => ⟨881744, 65536⟩
  | 2 => .ofInt 127
  | _ => .ofInt 7

/-- `elem_dec(fmt, c)` (04 R91) for codes 1, 2, 3; FP16, BF16 and FP32 decode as themselves. -/
def elemDec (fmt c : Nat) : FV :=
  match fmt with
  | 1 => .ofQ (lnsDec c)
  | 2 => .ofQ (.ofInt (if c % 256 = 128 then -127 else sx 8 c))
  | 3 => .ofQ (.ofInt (if c % 16 = 8 then -7 else sx 4 c))
  | 4 => bf16.decode c
  | 5 => fp16.decode c
  | _ => fp32.decode c

/-- `elem_enc(fmt, x)` (04 R91), as a code pattern. -/
def elemEnc (fmt : Nat) (x : FV) : Nat :=
  if fmt = 1 then lnsEnc x
  else
    let mx : Int := if fmt = 2 then 127 else 7
    let w := if fmt = 2 then 8 else 4
    match x with
    | .nan => 0
    | .inf neg => wrapN w (if neg then -mx else mx)
    | .fin _ q => wrapN w (clampI (roundInt q .rne) (-mx) mx)

/-- The exponent of `scale_dec(e)`: 2^(e − 127), with the reserved codes (04 R94). -/
def scaleExp (e : Nat) : Int :=
  let e := e % 256
  if e = 0 then -127 else if e = 255 then 127 else (e : Int) - 127

/-- The largest non-NaN magnitude: `none` when an infinity is present. -/
def blockMax : List FV → Option Q
  | [] => some Q.zero
  | .nan :: r => blockMax r
  | .inf _ :: _ => none
  | .fin _ q :: r => (blockMax r).map (fun a => if a.lt q.abs then q.abs else a)

/-- The scale byte of a block and its SATQ and SUF bits (04 R96). -/
def quantScale (fmt : Nat) (x : List FV) : Nat × Nat :=
  match blockMax x with
  | none => (254, 2)
  | some a =>
    if a.isZero then (1, 0)
    else
      let r := a.div (fmtMax fmt)
      let e := floorLog2 r.num.natAbs r.den
      let k := if (Q.ofInt 1 |>.scale e).eq r then e else e + 1
      if k + 127 > 254 then (254, 2) else if k + 127 < 1 then (1, 1) else ((k + 127).toNat, 0)

/-- `quant_block(fmt, x)` (04 R96): scale byte, codes, and the QSTAT bits it sets. -/
def quantBlock (fmt : Nat) (x : List FV) : Nat × List Nat × Nat :=
  let p := quantScale fmt x
  let nanq := if x.any (fun v => v == .nan) then 4 else 0
  (p.1, x.map (fun v => elemEnc fmt (v.scale (127 - (p.1 : Int)))), nanq ||| p.2)

/-! ## Orders of summation (04 R99-R101) -/

/-- `group_sum` of four products (04 R99). -/
def groupSum (ps : List FV) : FV :=
  if ps.any (fun v => v == .nan) || (ps.any (· == .inf false) && ps.any (· == .inf true)) then .nan
  else if ps.any (· == .inf false) then .inf false
  else if ps.any (· == .inf true) then .inf true
  else if ps.all (fun v => v.isZero && v.isNeg) then .fin true Q.zero
  else
    let q := ps.foldl (fun (acc : Q) v => match v with | .fin _ p => acc.add p | _ => acc) Q.zero
    .fin q.isNeg q

/-- `acc_add(acc, g)` (04 R99) on FP32 bits. -/
def accAdd (acc : Nat) (g : FV) : Nat := fp32.round .rne ((fp32.decode acc).add .rne g)

/-- The product of an activation and a weight with their scale bytes (04 R99). -/
def mprod (fa a sa fw w sw : Nat) : FV :=
  let p := if fa = 1 && fw = 1 then FV.ofQ (lnsDec (lnsMul a w)) else (elemDec fa a).mul (elemDec fw w)
  p.scale (scaleExp sa + scaleExp sw)

/-- `tree_reduce(op, v, id)` (04 R100) over 64 values that already hold the identity where no lane contributes. -/
def treeReduce (op : Nat → Nat → Nat) (a : List Nat) : Nat :=
  let pass (k : Nat) (a : List Nat) : List Nat :=
    (List.range 64).map (fun l => op (getP 0 a (min l (l ^^^ k))) (getP 0 a (max l (l ^^^ k))))
  getP 0 (pass 1 (pass 2 (pass 4 (pass 8 (pass 16 (pass 32 a)))))) 0

/-- `tree_scan(op, v, id)` (04 R101), inclusive. -/
def treeScan (op : Nat → Nat → Nat) (a : List Nat) : List Nat :=
  let pass (k : Nat) (a : List Nat) : List Nat :=
    (List.range 64).map (fun l => if k ≤ l then op (getP 0 a (l - k)) (getP 0 a l) else getP 0 a l)
  pass 32 (pass 16 (pass 8 (pass 4 (pass 2 (pass 1 a)))))

/-! ## Layouts (04 R104-R106) -/

/-- The byte offset of element (r, c) in a row-major, column-major or 16 × 16 tiled tensor (04 R104), doubled so that
INT4 has a whole size: `z2` is twice the element size. -/
def tensorOff (layout z2 ld r c : Nat) : Nat :=
  match layout with
  | 0 => (r * ld + c) * z2 / 2
  | 1 => (c * ld + r) * z2 / 2
  | _ => ((r / 16) * (ld / 16) + c / 16) * (128 * z2) + ((r % 16) * 16 + c % 16) * z2 / 2

/-- The swizzled physical offset of a scratch offset (04 R106). -/
def swizzle (swz a : Nat) : Nat :=
  match swz with
  | 0 => a
  | 1 => a ^^^ (16 * (a / 128 % 2))
  | 2 => a ^^^ (16 * (a / 128 % 4))
  | _ => a ^^^ (16 * (a / 128 % 8))

/-- Blocks per scaled line and payload bytes of a block (04 R93). -/
def lineBlocks : Nat → Nat
  | 1 => 5
  | 2 => 3
  | _ => 7
def blockBytes : Nat → Nat
  | 1 => 24
  | 2 => 32
  | _ => 16

/-- Element `k` of a block's payload, read as a little-endian number (04 R93). -/
def payloadElem (fmt payload k : Nat) : Nat :=
  match fmt with
  | 1 => payload / 2 ^ (6 * k) % 64
  | 2 => payload / 2 ^ (8 * k) % 256
  | _ => payload / 2 ^ (4 * k) % 16

/-- The payload of 32 element codes as a little-endian number (04 R93). -/
def payloadOf (fmt : Nat) : List Nat → Nat
  | [] => 0
  | c :: r =>
    let w := match fmt with
      | 1 => 6
      | 2 => 8
      | _ => 4
    c % 2 ^ w + 2 ^ w * payloadOf fmt r

/-- Element `k` of a packed 32-bit register (04 R85), by format code. -/
def packedElem (fmt reg k : Nat) : Nat :=
  match fmt with
  | 1 => reg / 2 ^ (8 * k) % 64
  | 2 => reg / 2 ^ (8 * k) % 256
  | 3 => reg / 2 ^ (4 * k) % 16
  | _ => reg / 2 ^ (16 * k) % 65536

end Sys2Proof.Machine
end

