-- ==== Sys2Proof/Machine/Shape.lean ====
section
/-!
DEFINITION. The shape of every instruction: its major, its forms and what its operand fields may hold (07 R159-R179 and
the tables of chapters 03, 08, 09, 10, 15, 16, 17). A word that its shape refuses raises the illegal-instruction fault
(00 R7; 07 R161 step 7). What depends on the warp (a vector register at or above the allocation, 03 R60) is checked
when the instruction issues (Machine/Operands.lean).
-/
namespace Sys2Proof

/-- How a source is read: its width, and how an immediate becomes a value of its type (07 R164, R170, R173). -/
inductive Ty where
  | i32 | i64 | f32 | f64
  | h2 (bf : Bool)
  deriving DecidableEq, Repr

/-- Registers a source takes: a 64-bit operand is a pair (03 R60). -/
def Ty.regs : Ty → Nat
  | .i64 => 2
  | .f64 => 2
  | _ => 1

/-- What a destination may be. `gpr n x`: a vector, scalar or indexed vector of `n` registers, and an index register
when `x`. `vec n`: a vector or indexed vector. `pred`: a predicate (08 R205). `ud v s p`: the lane majors' UD
(08 R216): vectors of `v` registers (0: none), scalars of `s` registers (0: none), predicates when `p`. -/
inductive DTy where
  | off
  | gpr (n : Nat) (x : Bool)
  | vec (n : Nat)
  | pred
  | ud (v s : Nat) (p : Bool)
  deriving DecidableEq, Repr

/-- The shape of an instruction: major, forms, destination and source types, the fields that may be non-zero (RM, FTZ,
PD), whether AUX and SUB hold a listed value, whether the major is unpredicated. A `special` shape checks its operands
by `ok` alone. `dn`, `n1`, `n2`, `n3` are the registers that DST and the sources span. -/
structure Shape where
  maj : Nat
  forms : List Form
  d : DTy := .off
  s1 : Option Ty := none
  s2 : Option Ty := none
  s3 : Option Ty := none
  rm : Bool := false
  ftz : Bool := false
  pd : Bool := false
  aux : Bool := true
  sub : Bool := true
  unpred : Bool := false
  special : Bool := false
  ok : Bool := true
  dn : Nat := 1
  n1 : Nat := 1
  n2 : Nat := 1
  n3 : Nat := 1
  deriving DecidableEq, Repr

/-! ## Operand checks -/

def Operand.isOff (x : Operand) : Bool := x == Operand.off
/-- A scalar register `s0`–`s63`, not a special register (07 R164). -/
def Operand.isS (x : Operand) : Bool := x.kind == .scal && x.val < 64 && !x.lr && x.desc == Desc.off
/-- An even scalar register: a scalar pair. -/
def Operand.isS2 (x : Operand) : Bool := x.isS && x.val.toNat % 2 == 0
def Operand.isI (x : Operand) : Bool := x.kind == .imm && !x.lr && x.desc == Desc.off
/-- A scalar, a special register that is the same in every lane, or an immediate. -/
def Operand.isU (x : Operand) : Bool :=
  ((x.kind == .scal && x.val.toNat < 73 && x.val != 64) || x.kind == .imm) && !x.lr && x.desc == Desc.off
/-- A plain vector register without a last-read mark (10 R258). -/
def Operand.isV0 (x : Operand) : Bool := x.kind == .vec && !x.lr && x.desc == Desc.off
/-- An accumulator (10 R258). -/
def Operand.isAcc (x : Operand) : Bool := x.isV0 && x.val.toNat < 8
/-- A scale operand (10 R262, R264). -/
def Operand.isScale (x : Operand) : Bool := x.isV0 || x.isU || (x.kind == .scal && x.val == 64 && !x.lr && x.desc == Desc.off)
def Operand.isV (x : Operand) : Bool := x.kind == .vec && x.desc == Desc.off
def Operand.isVI (x : Operand) : Bool := (x.kind == .vec || x.kind == .idx) && x.desc == Desc.off
/-- A descriptor's codes (03 R69). -/
def Desc.ok (d : Desc) : Bool := d.kind.toNat < 6 && !(d.kind == 3 && d.fill == 3) && !(d.kind == 0 && d != Desc.off)

/-- A source of a general shape: kind codes, pair alignment, last-read mark and descriptor on vectors only
(07 R164, R167, R171; 03 R60). A `s`n fill of a 64-bit operand needs n even (03 R70). -/
def Operand.okSrc (t : Ty) (x : Operand) : Bool :=
  x.desc.ok &&
  (match x.kind with
  | .vec => t.regs == 1 || x.val.toNat % 2 == 0
  | .scal => x.val.toNat < 73 && (t.regs == 1 || x.val.toNat ≥ 64 || x.val.toNat % 2 == 0)
  | .imm => true
  | .idx => true) &&
  (x.kind == .vec || x.kind == .idx || (!x.lr && x.desc == Desc.off)) &&
  !(t.regs == 2 && x.desc.kind == 3 && x.desc.fill == 2 && x.desc.sreg.toNat % 2 == 1)

def okOpt (t : Option Ty) (x : Operand) : Bool :=
  match t with
  | some t => x.okSrc t
  | none => x.isOff

/-- The source is the same in every lane: scalar, immediate, or a special register other than `%lane` (07 R166). -/
def Operand.uniform (x : Operand) : Bool := x.kind == .imm || (x.kind == .scal && x.val != 64)

def Form.isImm : Form → Bool
  | .w96i => true
  | .w128i => true
  | _ => false

namespace Ops

/-- No predicate: bits 13:10 are zero. -/
def unpred (o : Ops) : Bool := !o.neg && o.pn == 0
/-- RM, FTZ and PD are zero (07 R167). -/
def noRFP (o : Ops) : Bool := o.rm == .rne && !o.ftz && o.pd == 0
def noDst (o : Ops) : Bool := o.dst == 0 && o.kd == .vec
/-- An unpredicated word is needed where DST is scalar (07 R166). -/
def scalarOk (o : Ops) : Bool := o.kd != .scal || o.unpred
/-- DST as `n` registers: a vector whose number is a multiple of `n`, an indexed vector, or a scalar. -/
def dstG (o : Ops) (n : Nat) : Bool :=
  match o.kd with
  | .vec => o.dst.toNat % n == 0
  | .scal => o.dst.toNat < 64 && o.dst.toNat % n == 0
  | .idx => true
  | .pred => false
def dstV (o : Ops) (n : Nat) : Bool := (o.kd == .vec && o.dst.toNat % n == 0) || o.kd == .idx
def dstVec (o : Ops) (n : Nat) : Bool := o.kd == .vec && o.dst.toNat % n == 0
def dstS (o : Ops) (n : Nat) : Bool := o.kd == .scal && o.dst.toNat < 64 && o.dst.toNat % n == 0
def subN (o : Ops) : Nat := o.sub.toNat
def auxN (o : Ops) : Nat := o.aux.toNat
def immOk (o : Ops) : Bool :=
  match o.form with
  | .w96i => o.imm.toNat < 2 ^ 32
  | .w128i => true
  | _ => o.imm == 0
/-- Third-source fields that an immediate layout leaves zero. -/
def imm3Off (o : Ops) : Bool := o.s3.isOff

/-- Bytes of a load or store (09 R225). -/
def accBytes (o : Ops) : Nat :=
  match o.sub.toNat % 8 with
  | 0 => 1
  | 1 => 1
  | 2 => 2
  | 3 => 2
  | 4 => 4
  | 5 => 8
  | _ => 16
/-- Registers of a load or store (09 R225). -/
def accRegs (o : Ops) : Nat := if o.accBytes = 8 then 2 else if o.accBytes = 16 then 4 else 1
/-- The SIZE and SCOPED fields (09 R225). -/
def sizeOk (o : Ops) (store scopedOk : Bool) (max : Nat) : Bool :=
  o.subN / 16 == 0 && o.subN % 8 ≤ max && !(store && (o.subN % 8 == 1 || o.subN % 8 == 3)) &&
  (if o.subN / 8 % 2 == 1 then scopedOk && o.auxN ≤ 4 else o.auxN == 0)
/-- A global address: an even vector pair, an even scalar pair or an indexed pair (09 R224). -/
def gaddr (x : Operand) : Bool :=
  x.desc == Desc.off && ((x.kind == .vec && x.val.toNat % 2 == 0) || x.isS2 || x.kind == .idx)
/-- A scratch or stack address: 32 bits of any kind (09 R224). -/
def saddr (x : Operand) : Bool := x.okSrc .i32 && x.desc == Desc.off
/-- The offset: SRC2 in the 64-bit form, the immediate otherwise; bits 37:30 are zero (09 R224). -/
def offOk (o : Ops) : Bool :=
  if o.form.isImm then o.s2.isOff && o.imm3Off else o.s3.isOff && o.s2.kind != .idx && o.s2.okSrc .i32 && o.s2.desc == Desc.off
/-- A load with a scalar destination is warp-uniform: its address and offset are scalar (09 R224). -/
def loadDst (o : Ops) : Bool :=
  o.dstG o.accRegs && o.scalarOk && (o.kd != .scal || (o.s1.uniform && (o.form.isImm || o.s2.uniform)))

/-- The width in registers of an atomic's type (09 R237). -/
def atyRegs (c : Nat) : Nat := if c = 2 || c = 3 then 2 else if c = 6 then 4 else 1
/-- The type codes of each atomic (09 R237). -/
def atyOk (kind c : Nat) : Bool :=
  match kind with
  | 0 => c ≤ 5
  | 1 => c ≤ 4
  | 2 => c ≤ 3
  | _ => c == 0 || c == 2 || c == 6
/-- The operand of an atomic: `n` registers; a compare-and-swap takes a group of twice the width (09 R237). -/
def atOperand (x : Operand) (n : Nat) (cas : Bool) : Bool :=
  x.desc == Desc.off && (x.kind == .vec || x.kind == .idx || !x.lr) &&
  (match x.kind with
  | .vec => x.val.toNat % (if cas then 2 * n else n) == 0
  | .scal => if cas || n != 1 then x.val.toNat < 64 && x.val.toNat % (if cas then 2 * n else n) == 0 else x.val.toNat < 73
  | .imm => !cas
  | .idx => true)
def atAddr (o : Ops) : Bool := if o.subN / 8 % 2 == 1 then saddr o.s1 && o.form != .w128i else gaddr o.s1
/-- An atomic with return (09 R224, R237). -/
def atomicOk (o : Ops) (kind : Nat) (cas : Bool) : Bool :=
  let n := atyRegs (o.subN % 8)
  o.noRFP && o.auxN == 0 && o.subN / 16 == 0 && atyOk kind (o.subN % 8) && o.atAddr && o.dstG n && o.scalarOk &&
  (if o.form.isImm then o.s2.isOff && atOperand o.s3 n cas else o.s3.isOff && atOperand o.s2 n cas) &&
  (o.kd != .scal || (o.s1.uniform && (if o.form.isImm then o.s3.uniform else o.s2.uniform)))
/-- A reduce packet (09 R224, R237): DST is the operand. -/
def reduceOk (o : Ops) (kind : Nat) : Bool :=
  o.noRFP && o.auxN == 0 && o.subN / 16 == 0 && atyOk kind (o.subN % 8) && o.atAddr &&
  o.dstG (atyRegs (o.subN % 8)) && o.offOk
/-- The types of a bank operation (09 R240). -/
def bopTy (op c : Nat) : Bool :=
  match op with
  | 0 => c == 0 || c == 1 || c == 2 || c == 4 || c == 5
  | 1 => c == 0 || c == 1 || c == 4
  | 2 => c == 0 || c == 1 || c == 4
  | 3 => c ≤ 3
  | 4 => c ≤ 3
  | 5 => c ≤ 3
  | 6 => c == 0 || c == 2 || c == 6
  | 7 => c == 0 || c == 2 || c == 6
  | 8 => c == 4
  | _ => false

/-- A spawn entry (09 R246): a label in the 96-bit immediate layout with SUB 0, a scalar pair with SUB 1. -/
def entryOk (o : Ops) (sub : Nat) : Bool :=
  if sub = 0 then o.form == .w96i && o.s2.isOff && o.s3.isOff && o.imm.toNat % 4 == 0
  else o.form == .w64 && o.s2.isS2 && o.s3.isOff

end Ops

/-! ## Checks by shape -/

/-- The destination of a general shape (07 R164, R166; 08 R192, R216). -/
def DTy.okDst (d : DTy) (o : Ops) : Bool :=
  match d with
  | .off => o.noDst
  | .gpr n x =>
    match o.kd with
    | .vec => o.dst.toNat % n == 0
    | .scal => o.dst.toNat < 64 && o.dst.toNat % n == 0 && o.unpred
    | .pred => x && 8 ≤ o.dst.toNat && o.dst.toNat < 12
    | .idx => true
  | .vec n => o.dstV n
  | .pred => o.kd == .pred && o.dst.toNat < 8
  | .ud v s p =>
    match o.kd with
    | .vec => v != 0 && o.dst.toNat % v == 0
    | .scal => s != 0 && o.dst.toNat < 64 && o.dst.toNat % s == 0
    | .pred => p && o.dst.toNat < 8
    | .idx => v != 0

/-- A scalar destination needs uniform sources (07 R166), but not in the lane majors (08 R216). -/
def Shape.uniformOk (sh : Shape) (o : Ops) : Bool :=
  match sh.d with
  | .gpr _ _ =>
    o.kd != .scal ||
      (sh.s1.isNone || o.s1.uniform) && (sh.s2.isNone || o.form.isImm || o.s2.uniform) && (sh.s3.isNone || o.s3.uniform)
  | _ => true

/-- The layout of an instruction's operand bits (07 R162, R168-R173; 08 R196; 07 R178; 03 R66). -/
inductive Lay where
  | normal | branch | wait | qfetch
  deriving DecidableEq, Repr

/-- The majors with a layout of their own. -/
def layOf (maj : Nat) (f : Form) : Lay :=
  match f with
  | .w64 =>
    if maj = 0xAD then .wait else if maj = 0x2E then .qfetch
    else if maj = 0x02 || maj = 0x04 || maj = 0x05 || maj = 0x06 || maj = 0x09 || maj = 0x0D || maj = 0x0E then .branch
    else .normal
  | _ => .normal

/-- A descriptor with KIND none has every other field zero: the ignored bits are not kept. -/
def Desc.norm (d : Desc) : Bool := d.kind != 0 || d == Desc.off

/-- Every field that the normal layouts do not place is zero, in a layout of its own. -/
def Ops.bare (o : Ops) : Bool :=
  o.kd == .vec && o.s1.kind == .vec && o.s2.kind == .vec && !o.s1.lr && !o.s2.lr && o.s1.desc == Desc.off &&
  o.s2.desc == Desc.off && o.s3.isOff && o.sub == 0 && o.rm == .rne && !o.ftz && o.pd == 0 && o.aux == 0 && o.ixn == 0

/-- The fields a layout does not place are zero: at most one descriptor in a 96-bit register word (07 R171), one kind
bit for the third source in a 128-bit word or a slot (07 R172, R174), and what else the layouts leave out. -/
def Ops.layoutOk (o : Ops) (l : Lay) : Bool :=
  o.s1.desc.norm && o.s2.desc.norm && o.s3.desc.norm &&
  match l with
  | .branch => o.bare && o.imm.toNat < 2 ^ 24
  | .wait => o.bare && o.dst == 0 && o.s1.isOff && o.s2.isOff && o.imm.toNat < 2 ^ 22
  | .qfetch => o.bare && o.dst == 0 && o.s1.isOff && o.s2.isOff && o.imm.toNat < 2 ^ 50
  | .normal =>
    match o.form with
    | .w64 => o.s1.desc == Desc.off && o.s2.desc == Desc.off && o.s3.isOff && o.imm == 0
    | .w96r =>
      o.imm == 0 && ((o.s1.desc == Desc.off && o.s2.desc == Desc.off) || (o.s1.desc == Desc.off && o.s3.desc == Desc.off) ||
        (o.s2.desc == Desc.off && o.s3.desc == Desc.off))
    | .w96i => o.s2.isOff && o.s1.desc == Desc.off && o.s3.desc == Desc.off && o.imm.toNat < 2 ^ 32
    | .w128m => o.imm == 0 && (o.s3.kind == .vec || o.s3.kind == .scal)
    | .w128i => o.s2.isOff && o.s1.desc == Desc.off && o.s3.desc == Desc.off
    | .slot =>
      (o.s3.kind == .vec || o.s3.kind == .scal) && o.s1.kind != .idx && o.s2.kind != .idx && o.kd == .vec &&
      o.s1.desc == Desc.off && o.s2.desc == Desc.off && o.s3.desc == Desc.off && o.aux == 0 && o.pd == 0 && o.ixn == 0 &&
      o.imm == 0

/-- Whether a word of a shape is legal. -/
def Shape.okOps (sh : Shape) (o : Ops) : Bool :=
  sh.forms.contains o.form && o.layoutOk (layOf sh.maj o.form) && !(o.neg && o.pn == 0) && (!sh.unpred || o.unpred) &&
  (o.rm == .rne || sh.rm) && (!o.ftz || sh.ftz) && (o.pd == 0 || sh.pd) && sh.aux && sh.sub && sh.ok &&
  (sh.special || (sh.d.okDst o && sh.uniformOk o && okOpt sh.s1 o.s1 &&
    (if o.form.isImm then sh.s2.isSome || o.imm == 0 else okOpt sh.s2 o.s2) && okOpt sh.s3 o.s3))

/-! ## The shapes -/

/-- The forms of an `All` group, of an `All` group with three sources, and of the lane and conversion groups (07 R179; 08 R192). Where an
instruction has no source 2, an immediate layout holds zero there (07 R167; 08 R203). -/
def formsAll : List Form := [.w64, .w96r, .w96i, .w128m, .w128i]
def forms3 : List Form := [.w96r, .w96i, .w128m, .w128i]
def formsNoWide : List Form := [.w64, .w96r, .w96i, .w128m]

/-- A 32-bit integer instruction of two sources (08 R203). -/
def shI2 (maj : Nat) (o : Ops) (subMax : Nat) (pd : Bool) : Shape where
  maj := maj
  forms := .slot :: formsAll
  d := .gpr 1 true
  s1 := some .i32
  s2 := some .i32
  pd := pd && o.form != .slot
  aux := o.auxN == 0
  sub := o.subN ≤ subMax
def shI1 (maj : Nat) (o : Ops) : Shape where
  maj := maj
  forms := .slot :: formsAll
  d := .gpr 1 true
  s1 := some .i32
  aux := o.auxN == 0
  sub := o.subN == 0
/-- A compare of two sources into predicates (08 R205, R208). -/
def shCmp (maj : Nat) (t : Ty) (forms : List Form) (ftz aux sub : Bool) : Shape where
  maj := maj
  forms := forms
  d := .pred
  s1 := some t
  s2 := some t
  ftz := ftz
  pd := true
  aux := aux
  sub := sub
/-- A floating-point instruction (08 R207, R209-R211). -/
def shF (maj : Nat) (o : Ops) (n : Nat) (t : Ty) (srcs : Nat) (slot rm ftz sub : Bool) : Shape where
  maj := maj
  forms := (if slot then [.slot] else []) ++ (if srcs = 3 then forms3 else formsAll)
  d := .gpr n false
  s1 := some t
  s2 := if srcs ≥ 2 then some t else none
  s3 := if srcs = 3 then some t else none
  rm := rm
  ftz := ftz
  aux := o.auxN == 0
  sub := sub
/-- A word whose operands `ok` checks; `dn`, `n1`, `n2` are the registers its operands span. -/
def shRaw (maj : Nat) (forms : List Form) (unpred ok : Bool) (dn : Nat := 1) (n1 : Nat := 1) (n2 : Nat := 1) : Shape where
  maj := maj
  forms := forms
  unpred := unpred
  special := true
  ok := ok
  dn := dn
  n1 := n1
  n2 := n2
/-- A 64-bit word whose operands `ok` checks; every field not named is zero. -/
def sh64 (maj : Nat) (_o : Ops) (unpred d s1 s2 aux sub : Bool) : Shape :=
  shRaw maj [.w64] unpred (d && s1 && s2 && aux && sub)
    (if maj = 0xC6 then 4 else if maj = 0xE6 then 2 else 1) (if maj = 0xC7 then 4 else 1) (if maj = 0xE3 then 2 else 1)
/-- A branch (08 R196): `dst64` and `dst96` say what DST holds in the 64-bit and in the 96-bit form. -/
def shBr (maj : Nat) (o : Ops) (jtab dst64 dst96 : Bool) : Shape :=
  shRaw maj [.w64, .w96i] false
    (if o.form == .w64 then dst64 && (jtab || (o.s1.isOff && o.s2.isOff))
     else o.imm.toNat % 4 == 0 && dst96 && o.subN == 0 && o.auxN == 0 && (jtab || o.ixn == 0) &&
      (if jtab then o.s1.okSrc .i32 && o.s3.isI else o.s1.isOff && o.s3.isOff))
    (if maj = 0x06 then 2 else 0) 1 0
/-- `BRX`, `CALLX`, `RET`, `MEETX`: a 64-bit source (08 R197). -/
def shJump (maj : Nat) (o : Ops) (d : Bool) : Shape :=
  shRaw maj [.w64] false
    (d && o.subN == 0 && o.auxN == 0 && o.s2.isOff && o.s1.okSrc .i64 && o.s1.kind != .imm && !o.s1.lr) 2 2
/-- The source of `PSET` and `PLD` (08 R201). -/
def Ops.predSrc (o : Ops) : Bool :=
  (o.s1.kind == .vec || o.s1.kind == .imm || (o.s1.kind == .scal && o.s1.val.toNat < 73)) && !o.s1.lr
/-- A predicate instruction (08 R201): `pd`, `pa`, `pb`, `pc` say which fields are used. -/
def shP (maj : Nat) (o : Ops) (pd pa pb pc : Bool) : Shape :=
  let q (x : Operand) : Bool := x.kind == .vec && !x.lr && x.val.toNat / 8 % 16 == 0
  shRaw maj [.w64] false
    (o.subN == 0 && o.ixn == 0 && o.kd == .vec && (if pd then o.dst.toNat < 8 else o.dst == 0) && (pc || o.auxN == 0) &&
     (if pa then q o.s1 else o.s1.isOff) && (if pb then q o.s2 else o.s2.isOff)) 0 0 0
/-- A lane, conversion or quantisation instruction (08 R213-R220). -/
def shLane (maj : Nat) (forms : List Form) (d : DTy) (s1 s2 : Option Ty) (rm ftz aux sub ok : Bool) : Shape where
  maj := maj
  forms := forms
  d := d
  s1 := s1
  s2 := s2
  rm := rm
  ftz := ftz
  aux := aux
  sub := sub
  ok := ok
/-- The type of the sources of a reduction or a scan (08 R217). -/
def foldTy (sub : Nat) : Ty := if 8 ≤ sub then .f32 else .i32
/-- `QFETCH` (03 R66): the valid mask is filled from bit 0 upward; a register field that is not valid holds any value. -/
def shQfetch (o : Ops) : Shape :=
  let v := o.imm.toNat / 2 ^ 32 % 16
  shRaw 0x2E [.w64] true (o.imm.toNat / 2 ^ 36 == 0 && (v == 1 || v == 3 || v == 7 || v == 15))
/-- `WAIT` (07 R178). -/
def shWait (_o : Ops) : Shape := shRaw 0xAD [.w64] true true
def shI3 (maj : Nat) (o : Ops) : Shape where
  maj := maj
  forms := .slot :: forms3
  d := .gpr 1 true
  s1 := some .i32
  s2 := some .i32
  s3 := some .i32
  aux := o.auxN == 0
  sub := o.subN == 0
/-- `IADD64`, `IMUL64` (08 R206). -/
def shI64 (maj : Nat) (o : Ops) (pd : Bool) : Shape where
  maj := maj
  forms := formsAll
  d := .gpr 2 false
  s1 := some .i64
  s2 := some .i64
  pd := pd
  aux := o.auxN == 0
  sub := o.subN == 0
def shLea (o : Ops) : Shape where
  maj := 0x4D
  forms := .slot :: formsAll
  d := .gpr 2 false
  s1 := some .i64
  s2 := some .i32
  aux := o.auxN == 0
  sub := o.subN < 16
/-- `MOV` (08 R206): SUB 2 reads an index register, which no scalar instruction can. -/
def shMov (o : Ops) : Shape where
  maj := 0x4E
  forms := .slot :: formsAll
  d := if o.subN = 1 then .gpr 2 false else .gpr 1 true
  s1 := some (if o.subN = 1 then .i64 else .i32)
  aux := o.auxN == 0
  sub := o.subN ≤ 2
  ok := o.subN != 2 || (o.s1.kind == .imm && o.s1.val.toNat < 4 && o.kd != .scal)
def shMovi (o : Ops) : Shape where
  maj := 0x4F
  forms := formsAll
  d := if o.subN = 1 then .gpr 2 false else .gpr 1 true
  s2 := some (if o.subN = 1 then .i64 else .i32)
  aux := o.auxN == 0
  sub := o.subN ≤ 1
  ok := o.form.isImm || o.s2.kind == .imm
def shFcls (o : Ops) : Shape where
  maj := 0x5A
  forms := formsAll
  d := .pred
  s1 := some .f32
  s2 := some .i32
  ftz := true
  aux := o.auxN == 0
  sub := o.subN == 0
def shFdot2 (o : Ops) : Shape where
  maj := 0x73
  forms := forms3
  d := .gpr 1 false
  s1 := some (.h2 (o.subN == 1))
  s2 := some (.h2 (o.subN == 1))
  s3 := some .f32
  rm := true
  ftz := true
  aux := o.auxN == 0
  sub := o.subN ≤ 1
/-- The type of a float format selector in SUB (08 R212). -/
def cvtTy (c : Nat) : Ty :=
  match c with
  | 0 => .f32
  | 1 => .h2 true
  | 2 => .h2 false
  | _ => .f64
/-- `h` is 0 where the source format is FP32 or FP64 (08 R212). -/
def cvtHalfOk (c h : Nat) : Bool := c == 1 || c == 2 || h == 0
/-- `F2F`, `F2I`, `I2F`, `I2I` (08 R212). -/
def shCvt (maj : Nat) (o : Ops) (dn : Nat) (t : Ty) (rm ftz sub : Bool) : Shape where
  maj := maj
  forms := .slot :: formsNoWide
  d := .gpr dn false
  s1 := some t
  rm := rm
  ftz := ftz
  aux := o.auxN == 0
  sub := sub
/-- The forms of the memory majors (07 R179). -/
def formsMem : List Form := [.w64, .w96i, .w128i]
/-- An offset of zero (09 R229): an all-zero field or the immediate 0. -/
def Ops.zeroOff (o : Ops) : Bool := o.imm == 0 && o.s3.isOff && (o.s2.isOff || (o.s2.isI && o.s2.val == 0))
/-- A load or store of chapter 09 (R224-R228). -/
def shLS (maj : Nat) (o : Ops) (glob store scp : Bool) : Shape :=
  shRaw maj (if glob then formsMem else [.w64, .w96i]) false
    (o.sizeOk store scp 6 && o.offOk && (if glob then Ops.gaddr o.s1 else Ops.saddr o.s1) &&
     (if store then o.dstG o.accRegs else o.loadDst))
    o.accRegs (if glob then 2 else 1) 1
/-- `CLD` (09 R229): a scalar address and offset; SIZE 0-5. -/
def shCld (o : Ops) : Shape :=
  shRaw 0x88 formsMem false
    (o.sizeOk false true 5 && o.s1.isS2 && o.s3.isOff && (if o.form.isImm then o.s2.isOff else o.s2.isU) &&
     o.dstG o.accRegs && o.scalarOk) o.accRegs 1 1
/-- `PRFG` (09 R229). -/
def shPrfg (o : Ops) (sub : Nat) : Shape :=
  shRaw 0x89 formsMem false (o.noDst && o.auxN == 0 && o.subN == sub && Ops.gaddr o.s1 && o.offOk) 1 2 1
/-- `TLD` and `TST` (09 R230). -/
def shTile (maj : Nat) (o : Ops) : Shape :=
  let n := if o.subN = 0 then 4 else 2
  shRaw maj [.w64, .w96i] false
    (o.subN ≤ 1 && o.auxN ≤ 2 && o.s1.isS2 && (if maj = 0x8A then o.dstV n else o.dstG n) && (o.ixn == 0 || o.kd == .idx) &&
     (if o.form.isImm then o.s2.isOff && o.s3.isU else o.s2.isU)) n 1 1
/-- `QLD` and `QST` (09 R231): AUX names a block of the format (04 R93). -/
def shQl (maj : Nat) (o : Ops) (load : Bool) : Shape :=
  shRaw maj formsMem false
    (1 ≤ o.subN && o.subN ≤ 3 && o.auxN < (if o.subN = 1 then 5 else if o.subN = 2 then 3 else 7) && o.s1.isS2 && o.s3.isOff &&
     (if o.form.isImm then o.s2.isOff else o.s2.isU) && (if load then o.dstV 1 else o.dstG 1))
/-- `COPY` (09 R232). The DST field is the destination operand. -/
def Ops.dstSrc (o : Ops) : Operand :=
  ⟨match o.kd with
    | .vec => .vec
    | .scal => .scal
    | .pred => .imm
    | .idx => .idx, o.dst, false, Desc.off⟩
def shCopy (o : Ops) : Shape :=
  let dir := o.subN % 4
  shRaw 0x90 [.w96i] false
    (o.auxN == 0 && o.subN / 16 ≤ 2 && dir ≤ 2 && o.s3.isOff && o.kd != .pred &&
     (if dir = 0 then o.imm.toNat < 2 ^ 14 && o.imm.toNat / 2 ^ 6 % 8 ≤ 3 && o.imm.toNat / 2 ^ 9 % 16 ≤ 6 else o.imm == 0) &&
     (if dir = 0 then (o.dstG 1) else Ops.gaddr o.dstSrc) &&
     (if dir = 1 then Ops.saddr o.s1 else Ops.gaddr o.s1)) (if dir = 0 then 1 else 2) (if dir = 1 then 1 else 2)
/-- `SEND` (09 R236). -/
def shSend (o : Ops) : Shape :=
  let len := o.imm.toNat / 2 ^ 16 % 64
  shRaw 0x95 [.w96i] false
    (o.subN == 0 && o.auxN == 0 && o.ixn == 0 && o.kd == .vec && o.s3.isOff && (o.s1.isV || o.s1.isU || (o.s1.kind == .scal && o.s1.val == 64 && !o.s1.lr)) &&
     o.imm.toNat < 2 ^ 22 && len ≤ 60) (max 1 ((len + 3) / 4))
/-- An atomic or reduce packet (09 R237). -/
def shAt (maj : Nat) (o : Ops) (kind : Nat) (cas ret : Bool) : Shape where
  maj := maj
  forms := formsMem
  special := true
  ok := if ret then o.atomicOk kind cas else o.reduceOk kind
  dn := Ops.atyRegs (o.subN % 8)
  n1 := if o.subN / 8 % 2 = 1 then 1 else 2
  n2 := if ret then Ops.atyRegs (o.subN % 8) * (if cas then 2 else 1) else 1
  n3 := Ops.atyRegs (o.subN % 8) * (if cas then 2 else 1)
/-- A bank operation (09 R240): its operation in SUB, its type in AUX. -/
def shBop (maj : Nat) (o : Ops) (ret : Bool) : Shape :=
  let n := Ops.atyRegs o.auxN
  let cas := o.subN == 7
  let m := if cas then 2 * n else n
  { maj := maj
    forms := formsMem
    special := true
    ok := Ops.bopTy o.subN o.auxN && Ops.gaddr o.s1 &&
      (if ret then
        o.subN ≤ 7 && o.dstG n && o.scalarOk &&
        (if o.form.isImm then Ops.atOperand o.s3 n cas else o.s3.isOff && Ops.atOperand o.s2 n cas) &&
        (o.kd != .scal || (o.s1.uniform && (if o.form.isImm then o.s3.uniform else o.s2.uniform)))
      else
        o.dstG m &&
        (if o.subN = 8 then o.form == .w96i && o.s3.isU && o.s3.kind == .scal else o.offOk))
    dn := if ret then n else m
    n1 := 2
    n2 := if ret then m else 1
    n3 := if ret then m else 1 }
/-- `SPAWN` (09 R246): SUB 0 names a label, SUB 1 a scalar pair. -/
def shSpawn (maj : Nat) (o : Ops) (sub : Nat) : Shape :=
  shRaw maj [.w64, .w96i] false
    (o.subN == sub && o.entryOk sub && o.noDst && o.ixn == 0 && o.s1.isV) 1 (o.auxN + 1)
/-- `BFLUSH` and `BSTAT` (09 R247). -/
def shBin (maj : Nat) (o : Ops) (dst : Bool) : Shape :=
  shRaw maj [.w64, .w96i] false
    (o.subN ≤ 1 && o.entryOk o.subN && o.s1.isOff && o.auxN == 0 && (if dst then o.dstG 1 && o.scalarOk else o.noDst && o.ixn == 0))
/-- `LAUNCH` (09 R248). -/
def shLaunch (o : Ops) : Shape where
  maj := 0xB5
  forms := [.w96i]
  special := true
  pd := true
  ok := o.subN == 0 && o.auxN == 0 && o.ixn == 0 && o.dstS 2 && o.s1.isU && o.s3.isS && o.s3.val.toNat % 8 == 0 &&
    o.imm.toNat < 2 ^ 16
  dn := 2
/-- A neighbour-port instruction (09 R251). -/
def shPort (maj : Nat) (o : Ops) (ordOk pdOk dst s1 : Bool) : Shape where
  maj := maj
  forms := [.w64, .w96r]
  special := true
  pd := pdOk
  ok := o.s2.isOff && o.s3.isOff && dst && s1 && o.subN / 16 == 0 && o.subN % 8 ≤ 5 &&
    (if o.subN / 8 % 2 == 1 then ordOk && o.auxN ≤ 4 else o.auxN == 0)
/-- A wide-immediate word with IMM64 = 0 (10 R272, R277). -/
def shWide (maj : Nat) (o : Ops) (d s1 sub : Bool) : Shape :=
  shRaw maj [.w128i] false (o.imm == 0 && o.auxN == 0 && o.s3.isOff && d && s1 && sub) (if maj = 0xCE then 2 else 1)
/-- An engine command (10 R274). `hv`: the command takes a handle. -/
def shCmd (maj : Nat) (o : Ops) (hv sub : Bool) : Shape :=
  shRaw maj [.w128i] false
    (o.auxN == 0 && o.ixn == 0 && o.dstS 1 && o.s3.isS && o.s1.isS && o.s1.val.toNat % 8 == 0 &&
     o.imm.toNat < 2 ^ 15 && o.imm.toNat / 2 ^ 10 % 16 ≤ 6 && o.imm.toNat / 2 ^ 7 % 8 ≤ 3 &&
     (o.imm.toNat / 2 ^ 6 % 2 == (if hv then 1 else 0)) && sub)
/-- The weight and activation format codes (10 R257). -/
def wfmtOk (c : Nat) : Bool := 1 ≤ c && c ≤ 5
/-- Registers of activations (10 R264). -/
def actRegs (fmt kl : Nat) : Nat :=
  let epr := if fmt = 3 then 8 else if fmt = 1 || fmt = 2 then 4 else 2
  max 1 (kl / (4 * epr))
/-- `MSTR` (10 R264). -/
def shMstr (o : Ops) : Shape :=
  let c := actRegs (o.subN % 16) (16 * 2 ^ (o.subN / 16))
  let r := o.imm.toNat % 32
  let k := o.imm.toNat / 2 ^ 8 % 32
  shRaw 0xC4 [.w64, .w96i] false
    (wfmtOk (o.subN % 16) && o.dst.toNat < 8 && o.kd == .vec && o.auxN == 0 && o.ixn == 0 && o.s1.isV0 &&
     o.s1.val.toNat % c == 0 &&
     (if o.form.isImm then o.s3.isScale && 1 ≤ r && r ≤ 16 && 1 ≤ k && k ≤ 16 && o.imm.toNat == r + 2 ^ 8 * k
      else o.s2.isScale)) 1 c
/-- `MSTACC` and `MLDACC` (10 R266, R267): with the layouts that take no leading dimension the third source is ignored, but for its last-read
mark and an indexed kind (10 R258). -/
def shMacc (maj : Nat) (o : Ops) (store : Bool) : Shape where
  maj := maj
  forms := [.w96i]
  special := true
  rm := store
  ftz := store
  ok :=
    let f := o.subN % 16
    o.dst.toNat < 8 && o.kd == .vec && o.ixn == 0 &&
    (((f == 0 || f == 4 || f == 5) && o.auxN ≤ 2) || (store && 1 ≤ f && f ≤ 3 && o.auxN == 3)) &&
    (if o.subN / 32 = 1 then o.s1.isU && o.imm.toNat < 64 else o.s1.isS2) &&
    !o.s3.lr && o.s3.kind != .idx && (2 ≤ o.auxN || (o.s3.isU && (o.s3.kind != .imm || o.s3.val.toNat < 128)))
  n3 := if 2 ≤ o.auxN then 0 else 1
/-- `MSCL` (10 R265). -/
def shMscl (o : Ops) : Shape where
  maj := 0xCA
  forms := [.w64]
  special := true
  rm := true
  ftz := true
  ok := o.dst.toNat < 8 && o.kd == .vec && o.s1.isU && o.s2.isOff && o.auxN == 0 && o.ixn == 0 && o.subN == 0
/-- The assigned system-register numbers (15 R330; 16 R337, R349; 17 R352-R370; 18 R374-R397; 20 R406, R411). -/
def sregOk (n : Nat) : Bool := n ≤ 0xA || (0x20 ≤ n && n ≤ 0x30)
/-- `SRD` and `SWR` (15 R330). -/
def shSreg (maj : Nat) (o : Ops) (d s1 : Bool) : Shape :=
  shRaw maj [.w96i] true
    (d && s1 && o.auxN == 0 && o.ixn == 0 && o.imm.toNat < 2 ^ 28 && sregOk (o.imm.toNat % 2 ^ 12) && o.subN ≤ 1 &&
     (if o.subN = 1 then o.s3.isS else o.s3.isOff)) 2

/-- The shape of each instruction; events, hints and paired words have none. -/
def shapeOf (i : Instr) : Option Shape :=
  match i with
  | .nop o => some (shRaw 0x01 [.w64, .w96i] false (o.s1.isOff && o.s2.isOff && o.s3.isOff && o.noDst && o.subN == 0 && o.auxN == 0 && o.ixn == 0 && o.imm == 0))
  | .hintNop _ => none
  | .bra o => some (shBr 0x02 o false (o.dst == 0) (o.dst == 0 && o.kd == .vec))
  | .brx o => some (shJump 0x03 o o.noDst)
  | .brall o => some (shBr 0x04 o false (o.dst == 0) (o.dst == 0 && o.kd == .vec))
  | .brany o => some (shBr 0x05 o false (o.dst == 0) (o.dst == 0 && o.kd == .vec))
  | .call o => some (shBr 0x06 o false (o.dst.toNat % 2 == 0) (o.dstVec 2))
  | .callx o => some (shJump 0x07 o (o.dstVec 2))
  | .ret o => some (shJump 0x08 o o.noDst)
  | .meet o => some (shBr 0x09 o false (o.dst == 0) (o.dst == 0 && o.kd == .vec))
  | .meetx o => some (shJump 0x0A o o.noDst)
  | .exitT o => some (sh64 0x0B o false o.noDst o.s1.isOff o.s2.isOff (o.auxN == 0 && o.ixn == 0) (o.subN == 0))
  | .yield o => some (sh64 0x0C o false o.noDst o.s1.isOff o.s2.isOff (o.auxN == 0 && o.ixn == 0) (o.subN == 0))
  | .loop o => some (shBr 0x0D o false (8 ≤ o.dst.toNat && o.dst.toNat < 12) (8 ≤ o.dst.toNat && o.dst.toNat < 12 && o.kd == .pred))
  | .jtab o => some (shBr 0x0E o true (o.dst == 0) (o.dst == 0 && o.kd == .vec))
  | .sleep o => some (shRaw 0x0F [.w64, .w96i] false (o.noDst && o.subN == 0 && o.auxN == 0 && o.s2.isOff && o.s3.isOff && (if o.form.isImm then o.s1.isOff && o.ixn == 0 else o.s1.okSrc .i32)))
  | .demote o => some (sh64 0x10 o false o.noDst o.s1.isOff o.s2.isOff (o.auxN == 0 && o.ixn == 0) (o.subN == 0))
  | .pset o => some (sh64 0x11 o false (o.dst.toNat < 8 && o.kd == .vec) o.predSrc o.s2.isOff (o.auxN == 0 && o.ixn == 0) (o.subN == 0))
  | .pand o => some (shP 0x12 o true true true false)
  | .por o => some (shP 0x13 o true true true false)
  | .pxor o => some (shP 0x14 o true true true false)
  | .pnot o => some (shP 0x15 o true true false false)
  | .pld o => some (sh64 0x16 o false o.noDst o.predSrc o.s2.isOff (o.auxN == 0 && o.ixn == 0) (o.subN == 0))
  | .pst o => some (sh64 0x17 o false (o.kd == .vec) o.s1.isOff o.s2.isOff (o.auxN == 0 && o.ixn == 0) (o.subN == 0))
  | .psel o => some (shP 0x18 o true true true true)
  | .perm o => some (shLane 0x20 formsNoWide (.ud 1 0 false) (some .i32) none (false) (false) (true) (o.subN == 0) (true))
  | .ldpat o => some (shRaw 0x21 formsNoWide false (o.noDst && o.subN == 0 && o.ixn == 0 && o.s1.isU && o.s3.isOff && (if o.form.isImm then o.s2.isOff else o.s2.isI)))
  | .patternTableReplace => none
  | .reduce o => some (shLane 0x22 formsNoWide (.ud 1 1 false) (some (foldTy o.subN)) none (o.subN == 8) (8 ≤ o.subN) (o.auxN == 0) (o.subN ≤ 10) (true))
  | .scan o => some (shLane 0x23 formsNoWide (.ud 1 0 false) (some (foldTy o.subN)) none (o.subN == 8) (8 ≤ o.subN) (o.auxN == 0) (o.subN ≤ 10) (o.kd == .vec))
  | .scanx o => some (shLane 0x24 formsNoWide (.ud 1 0 false) (some (foldTy o.subN)) none (o.subN == 8) (8 ≤ o.subN) (o.auxN == 0) (o.subN ≤ 10) (o.kd == .vec))
  | .agreeSome o => some (shLane 0x25 formsNoWide (.ud 1 1 true) none none (false) (false) (true) (o.subN == 0) (true))
  | .agreeEvery o => some (shLane 0x25 formsNoWide (.ud 1 1 true) none none (false) (false) (true) (o.subN == 1) (true))
  | .agreeMask o => some (shLane 0x25 formsNoWide (.ud 2 2 false) none none (false) (false) (true) (o.subN == 2) (true))
  | .matchL o => some (shLane 0x26 formsNoWide (.ud 2 0 false) (some (if o.subN = 1 then .i64 else .i32)) none (false) (false) (o.auxN == 0) (o.subN ≤ 1) (true))
  | .shfl o => some (shLane 0x27 (.slot :: formsNoWide) (.ud 1 0 false) (some .i32) (some .i32) (false) (false) (o.auxN == 0) (o.subN == 0) (true))
  | .bcast o => some (shLane 0x28 (.slot :: formsNoWide) (.ud 1 0 false) (some .i32) (some .i32) (false) (false) (o.auxN == 0) (o.subN == 0) (o.form.isImm || o.s2.isU))
  | .firstL o => some (shLane 0x29 formsNoWide (.ud 1 1 false) (some .i32) none (false) (false) (o.auxN == 0) (o.subN == 0) (true))
  | .popl o => some (shLane 0x2A formsNoWide (.ud 1 1 false) none none (false) (false) (true) (o.subN == 0) (true))
  | .rdln o => some (shLane 0x2B formsNoWide (.ud 0 1 false) (some .i32) (some .i32) (false) (false) (o.auxN == 0) (o.subN == 0) (o.form.isImm || o.s2.isU))
  | .wrln o => some (shLane 0x2C formsNoWide (.ud 1 0 false) (some .i32) (some .i32) (false) (false) (o.auxN == 0) (o.subN == 0) (o.s1.isU && (o.form.isImm || o.s2.isU)))
  | .lmov o => some (shLane 0x2D [.w64, .slot] (.ud 1 0 false) (some .i32) (some .i32) (false) (false) (o.auxN == 0) (o.subN < 6) (o.s2.isI && (o.subN == 0 || o.s1.kind == .vec || o.s1.kind == .idx)))
  | .qfetch o => some (shQfetch o)
  | .iadd o => some (shI2 0x30 o 0 true)
  | .isub o => some (shI2 0x31 o 0 true)
  | .ineg o => some (shI1 0x32 o)
  | .iabs o => some (shI1 0x33 o)
  | .imul o => some (shI2 0x34 o 0 false)
  | .imulh o => some (shI2 0x35 o 1 false)
  | .imad o => some (shI3 0x36 o)
  | .iadds o => some (shI2 0x37 o 1 true)
  | .isubs o => some (shI2 0x38 o 1 true)
  | .imin o => some (shI2 0x39 o 1 false)
  | .imax o => some (shI2 0x3A o 1 false)
  | .andB o => some (shI2 0x3B o 0 false)
  | .orB o => some (shI2 0x3C o 0 false)
  | .xorB o => some (shI2 0x3D o 0 false)
  | .notB o => some (shI1 0x3E o)
  | .shl o => some (shI2 0x3F o 0 false)
  | .shr o => some (shI2 0x40 o 0 false)
  | .sar o => some (shI2 0x41 o 0 false)
  | .rol o => some (shI2 0x42 o 0 false)
  | .ror o => some (shI2 0x43 o 0 false)
  | .bfx o => some (shI2 0x44 o 1 false)
  | .bfi o => some (shI3 0x45 o)
  | .popc o => some (shI1 0x46 o)
  | .clz o => some (shI1 0x47 o)
  | .brev o => some (shI1 0x48 o)
  | .icmp o => some (shCmp 0x49 .i32 formsAll false (o.auxN == 0) (o.subN % 8 ≤ 5 && o.subN < 16))
  | .isel o => some (shI2 0x4A o 7 false)
  | .iadd64 o => some (shI64 0x4B o true)
  | .imul64 o => some (shI64 0x4C o false)
  | .lea o => some (shLea o)
  | .mov o => some (shMov o)
  | .movi o => some (shMovi o)
  | .fadd o => some (shF 0x50 o 1 .f32 2 true true true (o.subN == 0))
  | .fsub o => some (shF 0x51 o 1 .f32 2 true true true (o.subN == 0))
  | .fmul o => some (shF 0x52 o 1 .f32 2 true true true (o.subN == 0))
  | .ffma o => some (shF 0x53 o 1 .f32 3 true true true (o.subN == 0))
  | .fmin o => some (shF 0x54 o 1 .f32 2 true false true (o.subN == 0))
  | .fmax o => some (shF 0x55 o 1 .f32 2 true false true (o.subN == 0))
  | .fabs o => some (shF 0x56 o 1 .f32 1 true false false (o.subN == 0))
  | .fneg o => some (shF 0x57 o 1 .f32 1 true false false (o.subN == 0))
  | .fcmp o => some (shCmp 0x58 .f32 formsAll true (o.auxN == 0) (o.subN < 8))
  | .fsel o => some (shF 0x59 o 1 .f32 2 true false false (o.subN < 8))
  | .fcls o => some (shFcls o)
  | .frcp o => some (shF 0x5B o 1 .f32 1 false true true (o.subN == 0))
  | .frsq o => some (shF 0x5C o 1 .f32 1 false true true (o.subN == 0))
  | .fsqrt o => some (shF 0x5D o 1 .f32 1 false true true (o.subN == 0))
  | .fdiv o => some (shF 0x5E o 1 .f32 2 false true true (o.subN == 0))
  | .fexp2 o => some (shF 0x5F o 1 .f32 1 false true true (o.subN == 0))
  | .flog2 o => some (shF 0x60 o 1 .f32 1 false true true (o.subN == 0))
  | .fsin o => some (shF 0x61 o 1 .f32 1 false true true (o.subN == 0))
  | .fcos o => some (shF 0x62 o 1 .f32 1 false true true (o.subN == 0))
  | .ftanh o => some (shF 0x63 o 1 .f32 1 false true true (o.subN == 0))
  | .dadd o => some (shF 0x64 o 2 .f64 2 false true true (o.subN == 0))
  | .dsub o => some (shF 0x65 o 2 .f64 2 false true true (o.subN == 0))
  | .dmul o => some (shF 0x66 o 2 .f64 2 false true true (o.subN == 0))
  | .dfma o => some (shF 0x67 o 2 .f64 3 false true true (o.subN == 0))
  | .dmin o => some (shF 0x68 o 2 .f64 2 false false true (o.subN == 0))
  | .dmax o => some (shF 0x69 o 2 .f64 2 false false true (o.subN == 0))
  | .dcmp o => some (shCmp 0x6A .f64 formsAll true (o.auxN == 0) (o.subN < 8))
  | .ddiv o => some (shF 0x6B o 2 .f64 2 false true true (o.subN == 0))
  | .dsqrt o => some (shF 0x6C o 2 .f64 1 false true true (o.subN == 0))
  | .hadd2 o => some (shF 0x6D o 1 (.h2 (o.subN == 1)) 2 true true true (o.subN ≤ 1))
  | .hmul2 o => some (shF 0x6E o 1 (.h2 (o.subN == 1)) 2 true true true (o.subN ≤ 1))
  | .hfma2 o => some (shF 0x6F o 1 (.h2 (o.subN == 1)) 3 true true true (o.subN ≤ 1))
  | .hmin2 o => some (shF 0x70 o 1 (.h2 (o.subN == 1)) 2 true false true (o.subN ≤ 1))
  | .hmax2 o => some (shF 0x71 o 1 (.h2 (o.subN == 1)) 2 true false true (o.subN ≤ 1))
  | .hcmp2 o => some (shCmp 0x72 (.h2 (o.subN % 2 == 1)) formsAll true (o.auxN == 0) (o.subN < 16))
  | .fdot2 o => some (shFdot2 o)
  | .f2f o => some (shCvt 0x74 o (if o.subN / 8 % 4 = 3 then 2 else 1) (cvtTy (o.subN % 4)) true true (o.subN < 32 && cvtHalfOk (o.subN % 4) (o.subN / 4 % 2)))
  | .f2i o => some (shCvt 0x75 o 1 (cvtTy (o.subN % 4)) true true (o.subN / 8 ≤ 5 && cvtHalfOk (o.subN % 4) (o.subN / 4 % 2)))
  | .i2f o => some (shCvt 0x76 o (if o.subN % 4 = 3 then 2 else 1) (if o.subN / 8 % 2 = 1 then .i64 else .i32) true false (o.subN < 16))
  | .i2i o => some (shCvt 0x77 o 1 .i32 false false (o.subN % 8 ≤ 5 && o.subN < 16))
  | .ln2f o => some (shLane 0x78 formsNoWide (.gpr 1 false) (some .i32) none (false) (false) (o.auxN == 0) (o.subN < 4) (true))
  | .f2ln o => some (shLane 0x79 formsNoWide (.gpr 1 false) (some .f32) none (false) (true) (o.auxN == 0) (o.subN == 0) (true))
  | .pack o => some (shLane 0x7A formsNoWide (.gpr 1 false) (some (if o.subN ≤ 1 then .f32 else .i32)) (some (if o.subN ≤ 1 then .f32 else .i32)) (o.subN ≤ 1) (o.subN ≤ 1) (o.auxN == 0) (o.subN ≤ 4) (true))
  | .unpk o => some (shLane 0x7B formsNoWide (.gpr 1 false) (some .i32) (some .i32) (false) (false) (o.auxN == 0) (o.subN ≤ 6) (true))
  | .qblk o => some (shLane 0x7C formsNoWide (.vec 1) (some .f32) none (false) (false) (o.auxN == 0) (1 ≤ o.subN && o.subN ≤ 3) (true))
  | .dqbl o => some (shLane 0x7D formsNoWide (.gpr 1 false) (some .i32) (some .i32) (true) (true) (o.auxN == 0) (1 ≤ o.subN / 4 && o.subN / 4 ≤ 3) (true))
  | .qsrd o => some (shLane 0x7E formsNoWide (.gpr 1 false) none none (false) (false) (o.auxN == 0) (o.subN == 0) (true))
  | .qsclr o => some (shLane 0x7F formsNoWide .off (some .i32) none (false) (false) (o.auxN == 0) (o.subN == 0) (o.s1.isU))
  | .gld o => some (shLS 0x80 o true false true)
  | .gst o => some (shLS 0x81 o true true false)
  | .spld o => some (shLS 0x82 o false false false)
  | .spst o => some (shLS 0x83 o false true false)
  | .slld o => some (shLS 0x84 o true false false)
  | .slst o => some (shLS 0x85 o true true false)
  | .skld o => some (shLS 0x86 o false false true)
  | .skst o => some (shLS 0x87 o false true false)
  | .gstn o => some (shLS 0x8E o true true false)
  | .cld o => some (shCld o)
  | .prfgL1 o => some (shPrfg o 0)
  | .prfgL2 o => some (shPrfg o 1)
  | .cctlIvl o => some (shRaw 0x8F formsMem false (o.noDst && o.auxN == 0 && o.subN == 0 && Ops.gaddr o.s1 && o.zeroOff))
  | .cctlIval o => some (shRaw 0x8F formsMem false (o.noDst && o.auxN == 0 && o.subN == 1 && o.s1.isOff && o.ixn == 0 && o.zeroOff))
  | .tld o => some (shTile 0x8A o)
  | .tst o => some (shTile 0x8B o)
  | .qld o => some (shQl 0x8C o true)
  | .qst o => some (shQl 0x8D o false)
  | .copy o => some (shCopy o)
  | .cprg o => some (sh64 0x91 o false o.noDst (o.s1.isS && o.s1.val.toNat % 8 == 0) o.s2.isOff (o.auxN == 0 && o.ixn == 0) (o.subN < 16 && o.subN % 4 ≤ 2))
  | .copyLineSend => none
  | .copyLineDelivery => none
  | .hwaitFull o => some (sh64 0x92 o false o.noDst (o.s1.isU && (o.s1.kind != .imm || o.s1.val.toNat < 64)) o.s2.isOff (o.auxN == 0 && o.ixn == 0) (o.subN == 0))
  | .hwaitFree o => some (sh64 0x92 o false o.noDst (o.s1.isU && (o.s1.kind != .imm || o.s1.val.toNat < 64)) o.s2.isOff (o.auxN == 0 && o.ixn == 0) (o.subN == 1))
  | .hwp o => some (sh64 0x93 o false (o.dstG 1 && o.scalarOk) (o.s1.isU && (o.s1.kind != .imm || o.s1.val.toNat < 64)) o.s2.isOff (o.auxN == 0) (o.subN == 0))
  | .hrelClaim o => some (sh64 0x94 o false o.noDst (o.s1.isU && (o.s1.kind != .imm || o.s1.val.toNat < 64)) o.s2.isOff (o.auxN == 0 && o.ixn == 0) (o.subN == 0))
  | .hrelFree o => some (sh64 0x94 o false o.noDst (o.s1.isU && (o.s1.kind != .imm || o.s1.val.toNat < 64)) o.s2.isOff (o.auxN == 0 && o.ixn == 0) (o.subN == 1))
  | .send o => some (shSend o)
  | .messageAppend => none
  | .aadd o => some (shAt 0x96 o 0 false true)
  | .amin o => some (shAt 0x97 o 1 false true)
  | .amax o => some (shAt 0x98 o 1 false true)
  | .aand o => some (shAt 0x99 o 2 false true)
  | .aor o => some (shAt 0x9A o 2 false true)
  | .axor o => some (shAt 0x9B o 2 false true)
  | .axch o => some (shAt 0x9C o 3 false true)
  | .acas o => some (shAt 0x9D o 3 true true)
  | .rdadd o => some (shAt 0x9E o 0 false false)
  | .rdmin o => some (shAt 0x9F o 1 false false)
  | .rdmax o => some (shAt 0xA0 o 1 false false)
  | .rdand o => some (shAt 0xA1 o 2 false false)
  | .rdor o => some (shAt 0xA2 o 2 false false)
  | .rdxor o => some (shAt 0xA3 o 2 false false)
  | .bop o => some (shBop 0xA4 o false)
  | .bopr o => some (shBop 0xA5 o true)
  | .requestArrival => none
  | .storeAcknowledge => none
  | .loadReply => none
  | .fence o => some (sh64 0xA6 o false o.noDst o.s1.isOff o.s2.isOff (o.auxN ≤ 4 && o.ixn == 0) (o.subN == 0))
  | .acq o => some (sh64 0xA7 o false o.noDst o.s1.isOff o.s2.isOff (o.auxN ≤ 4 && o.ixn == 0) (o.subN == 0))
  | .rel o => some (sh64 0xA8 o false o.noDst o.s1.isOff o.s2.isOff (o.auxN ≤ 4 && o.ixn == 0) (o.subN == 0))
  | .acqSteal o => some (sh64 0xA9 o false o.noDst o.s1.isU o.s2.isOff (o.auxN == 0 && o.ixn == 0) (o.subN == 0))
  | .stealArrival => none
  | .bar o => some (sh64 0xAA o true o.noDst o.s1.isOff o.s2.isOff (o.auxN == 0 && o.ixn == 0) (o.subN == 0))
  | .bararv o => some (sh64 0xAB o true o.noDst o.s1.isOff o.s2.isOff (o.auxN == 0 && o.ixn == 0) (o.subN == 0))
  | .barwt o => some (sh64 0xAC o true o.noDst o.s1.isOff o.s2.isOff (o.auxN == 0 && o.ixn == 0) (o.subN == 0))
  | .wait o => some (shWait o)
  | .publ o => some (sh64 0xAE o true o.noDst o.s1.isS2 o.s2.isU (o.auxN ≤ 4 && o.ixn == 0) (o.subN == 0))
  | .cntrd o => some (sh64 0xAF o false (o.dstG 1 && o.scalarOk) o.s1.isOff o.s2.isOff (o.auxN == 0) (o.subN ≤ 1))
  | .spawnDirect o => some (shSpawn 0xB4 o 0)
  | .spawnIndirect o => some (shSpawn 0xB4 o 1)
  | .binTimerExpiry => none
  | .binWaitingEntry => none
  | .bflush o => some (shBin 0xB8 o false)
  | .bstat o => some (shBin 0xB9 o true)
  | .launch o => some (shLaunch o)
  | .lwait o => some (sh64 0xB6 o true (o.dstS 1) o.s1.isS o.s2.isOff (o.auxN == 0 && o.ixn == 0) (o.subN == 0))
  | .lpoll o => some (sh64 0xB7 o true (o.dstS 1) o.s1.isS o.s2.isOff (o.auxN == 0 && o.ixn == 0) (o.subN == 0))
  | .push o => some (shPort 0xBC o true false o.noDst (o.s1.okSrc .i32))
  | .pop o => some (shPort 0xBD o true false (o.dstV 1) o.s1.isOff)
  | .peek o => some (shPort 0xBE o false true (o.dstV 1) o.s1.isOff)
  | .pstat o => some (shPort 0xBF o false false (o.dstV 1) o.s1.isOff)
  | .pdrd o => some (shRaw 0xC0 [.w64, .w96r] false (o.dstG 1 && o.scalarOk && o.subN == 0 && o.auxN == 0 && o.s1.isOff && o.s2.isOff && o.s3.isOff))
  | .pdrdClr o => some (shRaw 0xC0 [.w64, .w96r] false (o.dstG 1 && o.scalarOk && o.subN == 1 && o.auxN == 0 && o.s1.isOff && o.s2.isOff && o.s3.isOff))
  | .pmap o => some (shRaw 0xC1 [.w64, .w96r] false (o.dstG 1 && o.scalarOk && o.subN == 0 && o.auxN == 0 && o.s1.isOff && o.s2.isOff && o.s3.isOff))
  | .portValueArrival => none
  | .portCreditReturn => none
  | .portStallTrap => none
  | .mzero o => some (sh64 0xC2 o false (o.dst.toNat < 8 && o.kd == .vec) o.s1.isOff o.s2.isOff (o.auxN == 0 && o.ixn == 0) (o.subN == 0))
  | .mldw o => some (sh64 0xC3 o false (o.kd == .vec && (o.subN / 16 % 2 == 1 || o.dst == 0)) o.s1.isV0 o.s2.isScale (o.auxN == 0 && o.ixn == 0) (o.subN < 32 && wfmtOk (o.subN % 16)))
  | .mwst o => some (shRaw 0xCC [.w64, .w96i] false (o.dst.toNat < 64 && o.kd == .vec && o.s1.isOff && o.s3.isOff && (if o.form.isImm then o.s2.isOff else o.s2.isU) && o.auxN == 0 && o.ixn == 0 && wfmtOk (o.subN % 16)) 0)
  | .mstr o => some (shMstr o)
  | .mstacc o => some (shMacc 0xC5 o true)
  | .mldacc o => some (shMacc 0xC8 o false)
  | .mrd o => some (sh64 0xC6 o false (o.dstVec 4) o.s1.isAcc o.s2.isOff (o.auxN == 0 && o.ixn == 0) (o.subN == 0))
  | .mwr o => some (sh64 0xC7 o false (o.dst.toNat < 8 && o.kd == .vec) (o.s1.isV0 && o.s1.val.toNat % 4 == 0) o.s2.isOff (o.auxN == 0 && o.ixn == 0) (o.subN == 0))
  | .mcpy o => some (sh64 0xC9 o false (o.dst.toNat < 8 && o.kd == .vec) o.s1.isAcc o.s2.isOff (o.auxN == 0 && o.ixn == 0) (o.subN == 0))
  | .mscl o => some (shMscl o)
  | .mtrn o => some (sh64 0xCB o false (o.dst.toNat < 8 && o.kd == .vec) o.s1.isAcc o.s2.isOff (o.auxN == 0 && o.ixn == 0) (o.subN == 0))
  | .msyn o => some (sh64 0xCD o false o.noDst o.s1.isI o.s2.isOff (o.auxN == 0 && o.ixn == 0) (o.subN == 0))
  | .tileOpStart => none
  | .tileOpComplete => none
  | .lease o => some (shWide 0xCE o (o.dstS 2) (o.s1.isU && o.ixn == 0) (o.subN ≤ 6))
  | .leaseTry o => some (shWide 0xCE o (o.dstS 2) (o.s1.isU && o.ixn == 0) (8 ≤ o.subN && o.subN ≤ 14))
  | .erls o => some (shWide 0xCF o o.noDst (o.s1.isS && o.ixn == 0) (o.subN == 0))
  | .erlsCold o => some (shWide 0xCF o o.noDst (o.s1.isS && o.ixn == 0) (o.subN == 1))
  | .estat o => some (shWide 0xD0 o (o.dstG 1 && o.kd != .idx) o.s1.isS (o.subN == 0))
  | .leaseGrant => none
  | .engineWakeComplete => none
  | .leaseRevoke => none
  | .trace o => some (shCmd 0xD1 o false (o.subN < 4))
  | .attr o => some (shCmd 0xD2 o true (o.subN == 0))
  | .rast o => some (shCmd 0xD3 o false (o.subN < 16 && o.subN / 2 % 2 == 0))
  | .thresh o => some (shCmd 0xD4 o false (o.subN == 0))
  | .decode o => some (shCmd 0xD5 o false (o.subN == 0))
  | .gather o => some (shCmd 0xD6 o true (o.subN ≤ 2))
  | .scatr o => some (shCmd 0xD7 o true (o.subN ≤ 2))
  | .coll o => some (shCmd 0xD8 o false (o.subN % 8 ≤ 2 && o.subN / 8 ≤ 2))
  | .engineCommandArrival => none
  | .engineItemStart => none
  | .engineCommandComplete => none
  | .rastStallResume => none
  | .collTimeout => none
  | .ecanc o => some (shWide 0xD9 o o.noDst (o.s1.isS && o.ixn == 0) (o.subN == 0))
  | .epoll o => some (shWide 0xDA o (o.dstG 1 && o.scalarOk) o.s1.isS (o.subN == 0))
  | .ewait o => some (shWide 0xDB o (o.dstG 1 && o.scalarOk) o.s1.isS (o.subN == 0))
  | .laneDelivery => none
  | .srd o => some (shSreg 0xDC o (o.dstS 2 || o.dstVec 2) o.s1.isOff)
  | .swr o => some (shSreg 0xDD o o.noDst o.s1.isS2)
  | .tlbiAll o => some (sh64 0xDE o true o.noDst o.s1.isOff o.s2.isOff (o.auxN ≤ 2 && o.ixn == 0) (o.subN == 0))
  | .tlbiAsid o => some (sh64 0xDE o true o.noDst o.s1.isS o.s2.isOff (o.auxN ≤ 2 && o.ixn == 0) (o.subN == 1))
  | .tlbiVa o => some (sh64 0xDE o true o.noDst o.s1.isS o.s2.isS2 (o.auxN ≤ 2 && o.ixn == 0) (o.subN == 2))
  | .tlbiMap o => some (sh64 0xDE o true o.noDst o.s1.isS2 o.s2.isU (o.auxN ≤ 2 && o.ixn == 0) (o.subN == 3))
  | .tlbWalkComplete => none
  | .trap o => some (sh64 0xDF o true o.noDst o.s1.isOff (o.s2.isI && o.s2.val.toNat < 128) (o.auxN == 0 && o.ixn == 0) (o.subN == 0))
  | .brkpt o => some (sh64 0xE0 o true o.noDst o.s1.isOff o.s2.isOff (o.auxN == 0 && o.ixn == 0) (o.subN == 0))
  | .addressBreakpoint => none
  | .hret o => some (sh64 0xE1 o true o.noDst o.s1.isOff o.s2.isOff (o.auxN == 0 && o.ixn == 0) (o.subN == 0))
  | .hrpl o => some (sh64 0xE2 o true o.noDst o.s1.isS2 o.s2.isOff (o.auxN == 0 && o.ixn == 0) (o.subN == 0))
  | .hrplAll o => some (sh64 0xE2 o true o.noDst o.s1.isOff o.s2.isOff (o.auxN == 0 && o.ixn == 0) (o.subN == 1))
  | .hemu o => some (sh64 0xE3 o true o.noDst o.s1.isS2 o.s2.isOff (o.auxN == 0 && o.ixn == 0) (o.subN == 0))
  | .hemuTo o => some (sh64 0xE3 o true o.noDst o.s1.isS2 (o.s2.isV0 && o.s2.val.toNat % 2 == 0) (o.auxN == 0 && o.ixn == 0) (o.subN == 1))
  | .hend o => some (sh64 0xE4 o true o.noDst o.s1.isOff o.s2.isOff (o.auxN == 0 && o.ixn == 0) (o.subN == 0))
  | .hfrd o => some (sh64 0xE5 o true (o.kd == .vec) o.s1.isOff o.s2.isOff (o.auxN == 0 && o.ixn == 0) (o.subN < 8))
  | .hsrd o => some (sh64 0xE6 o true (o.dstS 2 || o.dstVec 2) o.s1.isOff o.s2.isOff (o.auxN == 0 && o.ixn == 0) (o.subN ≤ 6))
  | .ctxsv o => some (sh64 0xE7 o true o.noDst o.s1.isS2 o.s2.isOff (o.auxN == 0 && o.ixn == 0) (o.subN == 0))
  | .ctxld o => some (sh64 0xE8 o true o.noDst o.s1.isS2 o.s2.isOff (o.auxN == 0 && o.ixn == 0) (o.subN == 0))
  | .icinv o => some (sh64 0xE9 o true o.noDst o.s1.isOff o.s2.isOff (o.auxN == 0 && o.ixn == 0) (o.subN == 0))
  | .pmrd o => some (sh64 0xEB o false (o.dstG 1 && o.scalarOk) o.s1.isOff o.s2.isOff (o.auxN == 0) (o.subN ≤ 2))
  | .l2flWb o => some (sh64 0xEA o true o.noDst o.s1.isS2 (o.s2.isU && (o.s2.kind != .imm || o.s2.val.toNat < 128)) (o.auxN == 0 && o.ixn == 0) (o.subN == 0))
  | .l2flInv o => some (sh64 0xEA o true o.noDst o.s1.isS2 (o.s2.isU && (o.s2.kind != .imm || o.s2.val.toNat < 128)) (o.auxN == 0 && o.ixn == 0) (o.subN == 1))
  | .l2flSlice o => some (sh64 0xEA o true o.noDst o.s1.isU o.s2.isOff (o.auxN == 0 && o.ixn == 0) (o.subN == 2))
  | .l2flPart o => some (sh64 0xEA o true o.noDst o.s1.isOff o.s2.isOff (o.auxN == 0 && o.ixn == 0) (o.subN == 3))
  | .pairedWord _ _ => none
  | .meetingRelease => none
  | .greedLimit => none
  | .handlerVector => none
  | .warpRetire => none
  | .teamResourcesFree => none
  | .teamPlacement => none
  | .launchDoorbell => none
  | .launchRecord => none
  | .skipRecord => none
  | .restoreRecord => none
  | .preemptRequest => none
  | .preemptTrap => none
  | .partcfgWrite => none
  | .hashmaskCommit => none
  | .commitScanEnd => none
  | .refusedRequestResend => none
  | .tkshareWrite => none
  | .bucketRefill => none
  | .partitionIdleChange => none
  | .idleStateArrival => none
  | .engbudgetWrite => none
  | .slmcarveWrite => none
  | .pagerDoorbell => none
  | .pagerServe => none
  | .remapGo => none
  | .remapCancel => none
  | .remapRun => none
  | .remapComplete => none
  | .objectEnable => none
  | .objectDisable => none
  | .objectFlagClear => none
  | .tenureRecallTimeout => none
  | .tenureRevert => none
  | .tenureRenewal => none
  | .tenureLapse => none
  | .flitReplay => none
  | .linkDown => none
  | .headerError => none
  | .partitionHaltComplete => none
  | .bankLoss => none
  | .gleanStep => none
  | .errlogClear => none
  | .clockSet => none
  | .d3hotEntry => none
  | .drawOverLimit => none
  | .overTemperatureTrip => none
  | .reset => none
  | .stageComplete => none
  | .loadfw => none
  | .status => none
  | .idcert => none
  | .attest => none
  | .loadmod => none
  | .readlog => none
  | .recallAtHolder => none
  | .d0Entry => none
  | .mailboxBadcmd => none

/-- The operand fields of an instruction. -/
def opsOf (i : Instr) : Option Ops :=
  match i with
  | .nop o => some o
  | .hintNop _ => none
  | .bra o => some o
  | .brx o => some o
  | .brall o => some o
  | .brany o => some o
  | .call o => some o
  | .callx o => some o
  | .ret o => some o
  | .meet o => some o
  | .meetx o => some o
  | .exitT o => some o
  | .yield o => some o
  | .loop o => some o
  | .jtab o => some o
  | .sleep o => some o
  | .demote o => some o
  | .pset o => some o
  | .pand o => some o
  | .por o => some o
  | .pxor o => some o
  | .pnot o => some o
  | .pld o => some o
  | .pst o => some o
  | .psel o => some o
  | .perm o => some o
  | .ldpat o => some o
  | .patternTableReplace => none
  | .reduce o => some o
  | .scan o => some o
  | .scanx o => some o
  | .agreeSome o => some o
  | .agreeEvery o => some o
  | .agreeMask o => some o
  | .matchL o => some o
  | .shfl o => some o
  | .bcast o => some o
  | .firstL o => some o
  | .popl o => some o
  | .rdln o => some o
  | .wrln o => some o
  | .lmov o => some o
  | .qfetch o => some o
  | .iadd o => some o
  | .isub o => some o
  | .ineg o => some o
  | .iabs o => some o
  | .imul o => some o
  | .imulh o => some o
  | .imad o => some o
  | .iadds o => some o
  | .isubs o => some o
  | .imin o => some o
  | .imax o => some o
  | .andB o => some o
  | .orB o => some o
  | .xorB o => some o
  | .notB o => some o
  | .shl o => some o
  | .shr o => some o
  | .sar o => some o
  | .rol o => some o
  | .ror o => some o
  | .bfx o => some o
  | .bfi o => some o
  | .popc o => some o
  | .clz o => some o
  | .brev o => some o
  | .icmp o => some o
  | .isel o => some o
  | .iadd64 o => some o
  | .imul64 o => some o
  | .lea o => some o
  | .mov o => some o
  | .movi o => some o
  | .fadd o => some o
  | .fsub o => some o
  | .fmul o => some o
  | .ffma o => some o
  | .fmin o => some o
  | .fmax o => some o
  | .fabs o => some o
  | .fneg o => some o
  | .fcmp o => some o
  | .fsel o => some o
  | .fcls o => some o
  | .frcp o => some o
  | .frsq o => some o
  | .fsqrt o => some o
  | .fdiv o => some o
  | .fexp2 o => some o
  | .flog2 o => some o
  | .fsin o => some o
  | .fcos o => some o
  | .ftanh o => some o
  | .dadd o => some o
  | .dsub o => some o
  | .dmul o => some o
  | .dfma o => some o
  | .dmin o => some o
  | .dmax o => some o
  | .dcmp o => some o
  | .ddiv o => some o
  | .dsqrt o => some o
  | .hadd2 o => some o
  | .hmul2 o => some o
  | .hfma2 o => some o
  | .hmin2 o => some o
  | .hmax2 o => some o
  | .hcmp2 o => some o
  | .fdot2 o => some o
  | .f2f o => some o
  | .f2i o => some o
  | .i2f o => some o
  | .i2i o => some o
  | .ln2f o => some o
  | .f2ln o => some o
  | .pack o => some o
  | .unpk o => some o
  | .qblk o => some o
  | .dqbl o => some o
  | .qsrd o => some o
  | .qsclr o => some o
  | .gld o => some o
  | .gst o => some o
  | .spld o => some o
  | .spst o => some o
  | .slld o => some o
  | .slst o => some o
  | .skld o => some o
  | .skst o => some o
  | .gstn o => some o
  | .cld o => some o
  | .prfgL1 o => some o
  | .prfgL2 o => some o
  | .cctlIvl o => some o
  | .cctlIval o => some o
  | .tld o => some o
  | .tst o => some o
  | .qld o => some o
  | .qst o => some o
  | .copy o => some o
  | .cprg o => some o
  | .copyLineSend => none
  | .copyLineDelivery => none
  | .hwaitFull o => some o
  | .hwaitFree o => some o
  | .hwp o => some o
  | .hrelClaim o => some o
  | .hrelFree o => some o
  | .send o => some o
  | .messageAppend => none
  | .aadd o => some o
  | .amin o => some o
  | .amax o => some o
  | .aand o => some o
  | .aor o => some o
  | .axor o => some o
  | .axch o => some o
  | .acas o => some o
  | .rdadd o => some o
  | .rdmin o => some o
  | .rdmax o => some o
  | .rdand o => some o
  | .rdor o => some o
  | .rdxor o => some o
  | .bop o => some o
  | .bopr o => some o
  | .requestArrival => none
  | .storeAcknowledge => none
  | .loadReply => none
  | .fence o => some o
  | .acq o => some o
  | .rel o => some o
  | .acqSteal o => some o
  | .stealArrival => none
  | .bar o => some o
  | .bararv o => some o
  | .barwt o => some o
  | .wait o => some o
  | .publ o => some o
  | .cntrd o => some o
  | .spawnDirect o => some o
  | .spawnIndirect o => some o
  | .binTimerExpiry => none
  | .binWaitingEntry => none
  | .bflush o => some o
  | .bstat o => some o
  | .launch o => some o
  | .lwait o => some o
  | .lpoll o => some o
  | .push o => some o
  | .pop o => some o
  | .peek o => some o
  | .pstat o => some o
  | .pdrd o => some o
  | .pdrdClr o => some o
  | .pmap o => some o
  | .portValueArrival => none
  | .portCreditReturn => none
  | .portStallTrap => none
  | .mzero o => some o
  | .mldw o => some o
  | .mwst o => some o
  | .mstr o => some o
  | .mstacc o => some o
  | .mldacc o => some o
  | .mrd o => some o
  | .mwr o => some o
  | .mcpy o => some o
  | .mscl o => some o
  | .mtrn o => some o
  | .msyn o => some o
  | .tileOpStart => none
  | .tileOpComplete => none
  | .lease o => some o
  | .leaseTry o => some o
  | .erls o => some o
  | .erlsCold o => some o
  | .estat o => some o
  | .leaseGrant => none
  | .engineWakeComplete => none
  | .leaseRevoke => none
  | .trace o => some o
  | .attr o => some o
  | .rast o => some o
  | .thresh o => some o
  | .decode o => some o
  | .gather o => some o
  | .scatr o => some o
  | .coll o => some o
  | .engineCommandArrival => none
  | .engineItemStart => none
  | .engineCommandComplete => none
  | .rastStallResume => none
  | .collTimeout => none
  | .ecanc o => some o
  | .epoll o => some o
  | .ewait o => some o
  | .laneDelivery => none
  | .srd o => some o
  | .swr o => some o
  | .tlbiAll o => some o
  | .tlbiAsid o => some o
  | .tlbiVa o => some o
  | .tlbiMap o => some o
  | .tlbWalkComplete => none
  | .trap o => some o
  | .brkpt o => some o
  | .addressBreakpoint => none
  | .hret o => some o
  | .hrpl o => some o
  | .hrplAll o => some o
  | .hemu o => some o
  | .hemuTo o => some o
  | .hend o => some o
  | .hfrd o => some o
  | .hsrd o => some o
  | .ctxsv o => some o
  | .ctxld o => some o
  | .icinv o => some o
  | .pmrd o => some o
  | .l2flWb o => some o
  | .l2flInv o => some o
  | .l2flSlice o => some o
  | .l2flPart o => some o
  | .pairedWord _ _ => none
  | .meetingRelease => none
  | .greedLimit => none
  | .handlerVector => none
  | .warpRetire => none
  | .teamResourcesFree => none
  | .teamPlacement => none
  | .launchDoorbell => none
  | .launchRecord => none
  | .skipRecord => none
  | .restoreRecord => none
  | .preemptRequest => none
  | .preemptTrap => none
  | .partcfgWrite => none
  | .hashmaskCommit => none
  | .commitScanEnd => none
  | .refusedRequestResend => none
  | .tkshareWrite => none
  | .bucketRefill => none
  | .partitionIdleChange => none
  | .idleStateArrival => none
  | .engbudgetWrite => none
  | .slmcarveWrite => none
  | .pagerDoorbell => none
  | .pagerServe => none
  | .remapGo => none
  | .remapCancel => none
  | .remapRun => none
  | .remapComplete => none
  | .objectEnable => none
  | .objectDisable => none
  | .objectFlagClear => none
  | .tenureRecallTimeout => none
  | .tenureRevert => none
  | .tenureRenewal => none
  | .tenureLapse => none
  | .flitReplay => none
  | .linkDown => none
  | .headerError => none
  | .partitionHaltComplete => none
  | .bankLoss => none
  | .gleanStep => none
  | .errlogClear => none
  | .clockSet => none
  | .d3hotEntry => none
  | .drawOverLimit => none
  | .overTemperatureTrip => none
  | .reset => none
  | .stageComplete => none
  | .loadfw => none
  | .status => none
  | .idcert => none
  | .attest => none
  | .loadmod => none
  | .readlog => none
  | .recallAtHolder => none
  | .d0Entry => none
  | .mailboxBadcmd => none

/-- The instruction of a major and its operand fields; SUB separates the majors that hold several. -/
def opOf (maj : Nat) (o : Ops) : Option Instr :=
  match maj with
  | 0x01 => some (.nop o)
  | 0x02 => some (.bra o)
  | 0x03 => some (.brx o)
  | 0x04 => some (.brall o)
  | 0x05 => some (.brany o)
  | 0x06 => some (.call o)
  | 0x07 => some (.callx o)
  | 0x08 => some (.ret o)
  | 0x09 => some (.meet o)
  | 0x0A => some (.meetx o)
  | 0x0B => some (.exitT o)
  | 0x0C => some (.yield o)
  | 0x0D => some (.loop o)
  | 0x0E => some (.jtab o)
  | 0x0F => some (.sleep o)
  | 0x10 => some (.demote o)
  | 0x11 => some (.pset o)
  | 0x12 => some (.pand o)
  | 0x13 => some (.por o)
  | 0x14 => some (.pxor o)
  | 0x15 => some (.pnot o)
  | 0x16 => some (.pld o)
  | 0x17 => some (.pst o)
  | 0x18 => some (.psel o)
  | 0x20 => some (.perm o)
  | 0x21 => some (.ldpat o)
  | 0x22 => some (.reduce o)
  | 0x23 => some (.scan o)
  | 0x24 => some (.scanx o)
  | 0x25 => if o.subN = 0 then some (.agreeSome o) else if o.subN = 1 then some (.agreeEvery o) else some (.agreeMask o)
  | 0x26 => some (.matchL o)
  | 0x27 => some (.shfl o)
  | 0x28 => some (.bcast o)
  | 0x29 => some (.firstL o)
  | 0x2A => some (.popl o)
  | 0x2B => some (.rdln o)
  | 0x2C => some (.wrln o)
  | 0x2D => some (.lmov o)
  | 0x2E => some (.qfetch o)
  | 0x30 => some (.iadd o)
  | 0x31 => some (.isub o)
  | 0x32 => some (.ineg o)
  | 0x33 => some (.iabs o)
  | 0x34 => some (.imul o)
  | 0x35 => some (.imulh o)
  | 0x36 => some (.imad o)
  | 0x37 => some (.iadds o)
  | 0x38 => some (.isubs o)
  | 0x39 => some (.imin o)
  | 0x3A => some (.imax o)
  | 0x3B => some (.andB o)
  | 0x3C => some (.orB o)
  | 0x3D => some (.xorB o)
  | 0x3E => some (.notB o)
  | 0x3F => some (.shl o)
  | 0x40 => some (.shr o)
  | 0x41 => some (.sar o)
  | 0x42 => some (.rol o)
  | 0x43 => some (.ror o)
  | 0x44 => some (.bfx o)
  | 0x45 => some (.bfi o)
  | 0x46 => some (.popc o)
  | 0x47 => some (.clz o)
  | 0x48 => some (.brev o)
  | 0x49 => some (.icmp o)
  | 0x4A => some (.isel o)
  | 0x4B => some (.iadd64 o)
  | 0x4C => some (.imul64 o)
  | 0x4D => some (.lea o)
  | 0x4E => some (.mov o)
  | 0x4F => some (.movi o)
  | 0x50 => some (.fadd o)
  | 0x51 => some (.fsub o)
  | 0x52 => some (.fmul o)
  | 0x53 => some (.ffma o)
  | 0x54 => some (.fmin o)
  | 0x55 => some (.fmax o)
  | 0x56 => some (.fabs o)
  | 0x57 => some (.fneg o)
  | 0x58 => some (.fcmp o)
  | 0x59 => some (.fsel o)
  | 0x5A => some (.fcls o)
  | 0x5B => some (.frcp o)
  | 0x5C => some (.frsq o)
  | 0x5D => some (.fsqrt o)
  | 0x5E => some (.fdiv o)
  | 0x5F => some (.fexp2 o)
  | 0x60 => some (.flog2 o)
  | 0x61 => some (.fsin o)
  | 0x62 => some (.fcos o)
  | 0x63 => some (.ftanh o)
  | 0x64 => some (.dadd o)
  | 0x65 => some (.dsub o)
  | 0x66 => some (.dmul o)
  | 0x67 => some (.dfma o)
  | 0x68 => some (.dmin o)
  | 0x69 => some (.dmax o)
  | 0x6A => some (.dcmp o)
  | 0x6B => some (.ddiv o)
  | 0x6C => some (.dsqrt o)
  | 0x6D => some (.hadd2 o)
  | 0x6E => some (.hmul2 o)
  | 0x6F => some (.hfma2 o)
  | 0x70 => some (.hmin2 o)
  | 0x71 => some (.hmax2 o)
  | 0x72 => some (.hcmp2 o)
  | 0x73 => some (.fdot2 o)
  | 0x74 => some (.f2f o)
  | 0x75 => some (.f2i o)
  | 0x76 => some (.i2f o)
  | 0x77 => some (.i2i o)
  | 0x78 => some (.ln2f o)
  | 0x79 => some (.f2ln o)
  | 0x7A => some (.pack o)
  | 0x7B => some (.unpk o)
  | 0x7C => some (.qblk o)
  | 0x7D => some (.dqbl o)
  | 0x7E => some (.qsrd o)
  | 0x7F => some (.qsclr o)
  | 0x80 => some (.gld o)
  | 0x81 => some (.gst o)
  | 0x82 => some (.spld o)
  | 0x83 => some (.spst o)
  | 0x84 => some (.slld o)
  | 0x85 => some (.slst o)
  | 0x86 => some (.skld o)
  | 0x87 => some (.skst o)
  | 0x88 => some (.cld o)
  | 0x89 => if o.subN = 0 then some (.prfgL1 o) else some (.prfgL2 o)
  | 0x8A => some (.tld o)
  | 0x8B => some (.tst o)
  | 0x8C => some (.qld o)
  | 0x8D => some (.qst o)
  | 0x8E => some (.gstn o)
  | 0x8F => if o.subN = 0 then some (.cctlIvl o) else some (.cctlIval o)
  | 0x90 => some (.copy o)
  | 0x91 => some (.cprg o)
  | 0x92 => if o.subN = 0 then some (.hwaitFull o) else some (.hwaitFree o)
  | 0x93 => some (.hwp o)
  | 0x94 => if o.subN = 0 then some (.hrelClaim o) else some (.hrelFree o)
  | 0x95 => some (.send o)
  | 0x96 => some (.aadd o)
  | 0x97 => some (.amin o)
  | 0x98 => some (.amax o)
  | 0x99 => some (.aand o)
  | 0x9A => some (.aor o)
  | 0x9B => some (.axor o)
  | 0x9C => some (.axch o)
  | 0x9D => some (.acas o)
  | 0x9E => some (.rdadd o)
  | 0x9F => some (.rdmin o)
  | 0xA0 => some (.rdmax o)
  | 0xA1 => some (.rdand o)
  | 0xA2 => some (.rdor o)
  | 0xA3 => some (.rdxor o)
  | 0xA4 => some (.bop o)
  | 0xA5 => some (.bopr o)
  | 0xA6 => some (.fence o)
  | 0xA7 => some (.acq o)
  | 0xA8 => some (.rel o)
  | 0xA9 => some (.acqSteal o)
  | 0xAA => some (.bar o)
  | 0xAB => some (.bararv o)
  | 0xAC => some (.barwt o)
  | 0xAD => some (.wait o)
  | 0xAE => some (.publ o)
  | 0xAF => some (.cntrd o)
  | 0xB4 => if o.subN = 0 then some (.spawnDirect o) else some (.spawnIndirect o)
  | 0xB5 => some (.launch o)
  | 0xB6 => some (.lwait o)
  | 0xB7 => some (.lpoll o)
  | 0xB8 => some (.bflush o)
  | 0xB9 => some (.bstat o)
  | 0xBC => some (.push o)
  | 0xBD => some (.pop o)
  | 0xBE => some (.peek o)
  | 0xBF => some (.pstat o)
  | 0xC0 => if o.subN = 0 then some (.pdrd o) else some (.pdrdClr o)
  | 0xC1 => some (.pmap o)
  | 0xC2 => some (.mzero o)
  | 0xC3 => some (.mldw o)
  | 0xC4 => some (.mstr o)
  | 0xC5 => some (.mstacc o)
  | 0xC6 => some (.mrd o)
  | 0xC7 => some (.mwr o)
  | 0xC8 => some (.mldacc o)
  | 0xC9 => some (.mcpy o)
  | 0xCA => some (.mscl o)
  | 0xCB => some (.mtrn o)
  | 0xCC => some (.mwst o)
  | 0xCD => some (.msyn o)
  | 0xCE => if o.subN < 8 then some (.lease o) else some (.leaseTry o)
  | 0xCF => if o.subN = 0 then some (.erls o) else some (.erlsCold o)
  | 0xD0 => some (.estat o)
  | 0xD1 => some (.trace o)
  | 0xD2 => some (.attr o)
  | 0xD3 => some (.rast o)
  | 0xD4 => some (.thresh o)
  | 0xD5 => some (.decode o)
  | 0xD6 => some (.gather o)
  | 0xD7 => some (.scatr o)
  | 0xD8 => some (.coll o)
  | 0xD9 => some (.ecanc o)
  | 0xDA => some (.epoll o)
  | 0xDB => some (.ewait o)
  | 0xDC => some (.srd o)
  | 0xDD => some (.swr o)
  | 0xDE => if o.subN = 0 then some (.tlbiAll o) else if o.subN = 1 then some (.tlbiAsid o) else if o.subN = 2 then some (.tlbiVa o) else some (.tlbiMap o)
  | 0xDF => some (.trap o)
  | 0xE0 => some (.brkpt o)
  | 0xE1 => some (.hret o)
  | 0xE2 => if o.subN = 0 then some (.hrpl o) else some (.hrplAll o)
  | 0xE3 => if o.subN = 0 then some (.hemu o) else some (.hemuTo o)
  | 0xE4 => some (.hend o)
  | 0xE5 => some (.hfrd o)
  | 0xE6 => some (.hsrd o)
  | 0xE7 => some (.ctxsv o)
  | 0xE8 => some (.ctxld o)
  | 0xE9 => some (.icinv o)
  | 0xEA => if o.subN = 0 then some (.l2flWb o) else if o.subN = 1 then some (.l2flInv o) else if o.subN = 2 then some (.l2flSlice o) else some (.l2flPart o)
  | 0xEB => some (.pmrd o)
  | _ => none

/-! ## Paired words -/

/-- The class of a pairable major (07 R175): 1 I, 2 F, 3 C, 4 L; 0 not pairable. -/
def pairClass (m : Nat) : Nat :=
  if (0x30 ≤ m && m ≤ 0x48) || m = 0x4A || m = 0x4D || m = 0x4E then 1
  else if (0x50 ≤ m && m ≤ 0x57) || m = 0x59 || (0x6D ≤ m && m ≤ 0x71) then 2
  else if 0x74 ≤ m && m ≤ 0x77 then 3
  else if m = 0x27 || m = 0x28 || m = 0x2D then 4
  else 0

/-- The permitted pairs of classes (07 R175). -/
def pairOk (a b : Nat) : Bool :=
  a != 0 && b != 0 && (a == 1 || b == 1 || (a == 2 && b != 2) || (b == 2 && a != 2))

/-- The registers a destination spans (08 R192). -/
def Shape.dstRegs (sh : Shape) : Nat :=
  match sh.d with
  | .gpr n _ => n
  | .vec n => n
  | .ud v _ _ => v
  | _ => 0

/-- The vector registers that the sources of a general shape name. -/
def Shape.reads (sh : Shape) (o : Ops) : List Nat :=
  let r (t : Option Ty) (x : Operand) : List Nat :=
    match t with
    | some t => if x.kind == .vec then (List.range t.regs).map (x.val.toNat + ·) else []
    | none => []
  r sh.s1 o.s1 ++ (if o.form.isImm then [] else r sh.s2 o.s2) ++ r sh.s3 o.s3

/-- The source ports that two slots share (07 R175): the banks in which they read different registers. -/
def sharedPorts (p q : List Nat) : Nat :=
  ((List.range 4).filter fun b =>
    p.any fun x => x % 4 == b && q.any fun y => y % 4 == b && y != x).length

/-- The shape of a slot. -/
def Slot.shape (s : Slot) : Option Shape := (opOf s.maj.toNat s.ops).bind shapeOf

/-- A legal paired word (07 R175). -/
def pairLegal (p q : Slot) : Bool :=
  match p.shape, q.shape with
  | some a, some b =>
    p.ops.form == .slot && q.ops.form == .slot && a.okOps p.ops && b.okOps q.ops &&
    pairOk (pairClass p.maj.toNat) (pairClass q.maj.toNat) &&
    ((List.range a.dstRegs).all fun i => (List.range b.dstRegs).all fun j =>
      (p.ops.dst.toNat + i) % 4 != (q.ops.dst.toNat + j) % 4) &&
    sharedPorts (a.reads p.ops) (b.reads q.ops) ≤ 1
  | _, _ => false

/-! ## What a shape says of registers -/

/-- The registers that an operand field spans, where it names a vector register: 0 for a field that names none. -/
def Shape.spans (sh : Shape) (o : Ops) : List (Operand × Nat) :=
  let t (t : Option Ty) : Nat := match t with
    | some t => t.regs
    | none => 0
  let d : Nat :=
    if sh.special then sh.dn
    else match sh.d with
      | .off => 0
      | .gpr n _ => n
      | .vec n => n
      | .pred => 0
      | .ud v n _ => max v n
  if sh.special then [(o.dstSrc, d), (o.s1, sh.n1), (o.s2, sh.n2), (o.s3, sh.n3)]
  else [(o.dstSrc, d), (o.s1, t sh.s1), (o.s2, t sh.s2), (o.s3, t sh.s3)]

/-- Which operand fields of a special shape name registers: DST written, DST read, the three sources. -/
structure Use where
  dW : Bool
  dR : Bool
  s1 : Bool
  s2 : Bool
  s3 : Bool
  deriving DecidableEq, Repr

/-- The operand fields that a special shape uses, by major and SUB, in an immediate layout or another. -/
def useOf (maj sub : Nat) (imm : Bool) : Use :=
  if maj = 0x0F then ⟨false, false, !imm, false, false⟩
  else if maj = 0xDE then ⟨false, false, sub != 0, 2 ≤ sub, false⟩
  else if maj = 0xE2 || maj = 0x8F then ⟨false, false, sub == 0, false, false⟩
  else if maj = 0xE3 then ⟨false, false, true, sub != 0, false⟩
  else if maj = 0xEA then ⟨false, false, sub ≤ 2, sub ≤ 1, false⟩
  else if maj = 0xB4 then ⟨false, false, true, sub != 0, false⟩
  else if maj = 0xA4 then ⟨false, true, true, true, sub == 8⟩
  else if maj = 0x03 || maj = 0x08 || maj = 0x0A || maj = 0x0E || maj = 0x11 || maj = 0x16 || maj = 0x21 then
    ⟨false, false, true, false, false⟩
  else if maj = 0x07 then ⟨true, false, true, false, false⟩
  else if maj = 0x06 || maj = 0x17 || maj = 0xAF || (0xBD ≤ maj && maj ≤ 0xC1) || maj = 0xC6 || maj = 0xE5 || maj = 0xE6 ||
    maj = 0xEB then ⟨true, false, false, false, false⟩
  else if maj = 0x80 || maj = 0x82 || maj = 0x84 || maj = 0x86 || maj = 0x88 || maj = 0x8C then ⟨true, false, true, true, false⟩
  else if maj = 0x81 || maj = 0x83 || maj = 0x85 || maj = 0x87 || maj = 0x8D || maj = 0x8E || (0x9E ≤ maj && maj ≤ 0xA3) then
    ⟨false, true, true, true, false⟩
  else if maj = 0x89 || maj = 0xAE then ⟨false, false, true, true, false⟩
  else if maj = 0x8A || (0x96 ≤ maj && maj ≤ 0x9D) || maj = 0xA5 then ⟨true, false, true, true, true⟩
  else if maj = 0x8B then ⟨false, true, true, true, true⟩
  else if maj = 0x90 || maj = 0x95 then ⟨false, true, true, false, false⟩
  else if maj = 0x91 || maj = 0x92 || maj = 0x94 || maj = 0xA9 || maj = 0xBC || maj = 0xC7 || maj = 0xCA || maj = 0xCF ||
    maj = 0xD9 || maj = 0xE7 || maj = 0xE8 then ⟨false, false, true, false, false⟩
  else if maj = 0x93 || maj = 0xB6 || maj = 0xB7 || maj = 0xCE || maj = 0xD0 || maj = 0xDA || maj = 0xDB then
    ⟨true, false, true, false, false⟩
  else if maj = 0xB5 || (0xD1 ≤ maj && maj ≤ 0xD8) then ⟨true, false, true, false, true⟩
  else if maj = 0xB8 then ⟨false, false, false, true, false⟩
  else if maj = 0xB9 then ⟨true, false, false, true, false⟩
  else if maj = 0xC3 then ⟨false, sub / 16 % 2 == 1, true, true, false⟩
  else if maj = 0xC4 then ⟨false, false, true, true, true⟩
  else if maj = 0xC5 || maj = 0xC8 then ⟨false, false, true, false, true⟩
  else if maj = 0xDD then ⟨false, false, true, false, sub == 1⟩
  else if maj = 0xCC then ⟨false, false, false, true, false⟩
  else if maj = 0xDC then ⟨true, false, false, false, sub == 1⟩
  else ⟨false, false, false, false, false⟩

/-- Scalars that a scalar operand of a special shape spans. -/
def scalarSpan (maj k n : Nat) : Nat :=
  if maj = 0x91 || (0xD1 ≤ maj && maj ≤ 0xD8 && k = 1) || (maj = 0xB5 && k = 3) then 8
  else if k = 1 && (maj = 0x88 || (0x8A ≤ maj && maj ≤ 0x8D) || maj = 0xAE || maj = 0xC5 || maj = 0xC8 || maj = 0xDD || maj = 0xDE ||
    maj = 0xE2 || maj = 0xE3 || maj = 0xE7 || maj = 0xE8 || maj = 0xEA) then 2
  else if k = 2 && (maj = 0xB4 || maj = 0xB8 || maj = 0xB9 || maj = 0xDE) then 2
  else n

/-- The source operands of an instruction with the registers each spans, and its place. -/
def Shape.sources (sh : Shape) (o : Ops) : List (Operand × Nat × Nat) :=
  match sh.spans o with
  | [d, a, b, c] =>
    if sh.special then
      let u := useOf sh.maj o.subN o.form.isImm
      (if u.dR then [(d.1, d.2, 0)] else []) ++ (if u.s1 then [(a.1, a.2, 1)] else []) ++
      (if u.s2 && !o.form.isImm then [(b.1, b.2, 2)] else []) ++
      (if u.s3 && o.form != .w64 && !((sh.maj == 0xC5 || sh.maj == 0xC8) && 2 ≤ o.auxN) then [(c.1, c.2, 3)] else [])
    else
      (if sh.s1.isSome then [(a.1, a.2, 1)] else []) ++ (if sh.s2.isSome && !o.form.isImm then [(b.1, b.2, 2)] else []) ++
      (if sh.s3.isSome then [(c.1, c.2, 3)] else [])
  | _ => []

/-- The vector registers that the sources of an instruction name; `none` for an indexed one, which counts as a
register-file read (03 R63). -/
def Shape.vsrcs (sh : Shape) (o : Ops) : List (Option Nat) :=
  (sh.sources o).flatMap fun p =>
    match p.1.kind with
    | .vec => (List.range p.2.1).map fun i => some (p.1.val.toNat + i)
    | .idx => [none]
    | _ => []

/-- Keys of the scoreboard: a vector register, 256 + a scalar, 512 + a predicate, 520 + an index register; 1000 stands for
every vector register. -/
def Operand.keys (x : Operand) (maj k n : Nat) : List Nat :=
  match x.kind with
  | .vec => (List.range n).map (x.val.toNat + ·)
  | .scal => if x.val.toNat < 64 then (List.range (scalarSpan maj k n)).map (256 + x.val.toNat + ·) else []
  | .imm => []
  | .idx => [1000]

/-- The predicates that an instruction reads as operands (08 R201, R202, R203, R208, R218). -/
def Shape.predKeys (sh : Shape) (o : Ops) : List Nat :=
  let p (k : Nat) : List Nat := if k = 0 then [] else [512 + k]
  if 0x12 ≤ sh.maj && sh.maj ≤ 0x15 then p (o.s1.val.toNat % 8) ++ p (o.s2.val.toNat % 8)
  else if sh.maj = 0x17 then (List.range 7).map (513 + ·)
  else if sh.maj = 0x18 then p (o.s1.val.toNat % 8) ++ p (o.s2.val.toNat % 8) ++ p o.auxN
  else if sh.maj = 0x25 || sh.maj = 0x2A then p o.auxN
  else if sh.maj = 0x4A || sh.maj = 0x59 then p (o.subN % 8)
  else []
/-- The registers an instruction reads. -/
def Shape.readKeys (sh : Shape) (o : Ops) : List Nat :=
  ((sh.sources o).flatMap fun p => p.1.keys sh.maj p.2.2 p.2.1) ++ (if o.pn = 0 then [] else [512 + o.pn.toNat]) ++
  (if (sh.sources o).any (fun p => p.1.kind == .idx) || o.kd == .idx then [520 + o.ixn.toNat] else []) ++
  sh.predKeys o ++ (if sh.maj = 0x4E && o.subN = 2 then [520 + o.s1.val.toNat] else [])

/-- The registers an instruction writes, its predicates included; `p0` is never written (03 R59). -/
def Shape.writeKeys (sh : Shape) (o : Ops) : List Nat :=
  let w := if sh.special then (useOf sh.maj o.subN o.form.isImm).dW else true
  let n := match sh.spans o with
    | d :: _ => d.2
    | [] => 0
  let pds := if sh.pd && o.pd != 0 then [512 + o.pd.toNat] else []
  if sh.maj = 0x0D then [520 + (o.dst.toNat - 8)]
  else if sh.maj = 0x16 then (List.range 7).map (513 + ·)
  else if (0x11 ≤ sh.maj && sh.maj ≤ 0x15) || sh.maj = 0x18 then (if o.dst = 0 then [] else [512 + o.dst.toNat])
  else if !w then pds
  else match o.kd with
    | .vec => (List.range n).map (o.dst.toNat + ·) ++ pds
    | .scal => (List.range n).map (256 + o.dst.toNat + ·) ++ pds
    | .idx => 1000 :: pds
    | .pred => (if o.dst.toNat = 0 then [] else if o.dst.toNat < 8 then [512 + o.dst.toNat] else [520 + (o.dst.toNat - 8)]) ++ pds

end Sys2Proof
end

