-- ==== Sys2Proof/Config.lean ====
section
/-!
DEFINITION. What one part or one installation fixes, and the free values: opaque constants without a body, so that
nothing can be proved about which value they take. Each is named in the assumption log.
-/
namespace Sys2Proof.Config

/-- The three ordering codes (00 R1). -/
inductive DeviceForm where
  | vu46d | vu46p | vu46m
  deriving DecidableEq, Repr, Inhabited

/-- The form of this part (00 R1). -/
opaque form : DeviceForm

/-- The second tier is present on VU46-M only (00 R2, 05 R125). -/
def tier2 : Bool := form == .vu46m

/-- A free 32-bit value: one for each value of the counter `State.free` (log entry 1). -/
opaque freeWord : Nat → BitVec 32

/-- A free byte, for what the spec leaves undefined at an address or position (log entry 1). -/
opaque freeByte : Nat → Nat → BitVec 8

/-- How many cycles after the reset of the device a core leaves its own reset: the device has no time base of its own, and counts of
different cores are not comparable (01 R14, 03 R61; log entry 8). -/
opaque resetSkew : Nat → Nat

/-- The harvest map that fuses and training give, by index of HARVEST (18 R374; log entry 7). -/
opaque harvest : Nat → BitVec 64

/-- The 512-bit digest of the firmware key fused at manufacture (20 R407; log entry 7). -/
opaque keyDigest : List (BitVec 8)

/-- The fused minimum security version (20 R407; log entry 7). -/
opaque minSvn : Nat

/-- What the identity certificate that IDCERT returns certifies, which the spec does not lay out (20 R408; log entry 30). -/
opaque certified : List (BitVec 8)

/-- Psilvarov's private key, and the identity key of the part (20 R408; log entry 30). -/
opaque makerKey : Nat
opaque identityKey : Nat

/-- The secret number of a signature over a digest (01 R22; log entry 30). -/
opaque signNonce : List (BitVec 8) → Nat

/-- The payload of a `STATUS` response, which the spec does not lay out (20 R413; log entry 55). -/
opaque statusPayload : BitVec 64 → List (BitVec 8)

/-- The payload of a `READLOG` response over the words of the error log, which the spec does not lay out (20 R413; 18 R397; log entry 55). -/
opaque logPayload : List (BitVec 64) → List (BitVec 8)

/-- The row of a stacked-memory line under a map generation: column, layer and position. The spec gives no map from
addresses to banks (18 R390; log entry 31). -/
opaque bankOf : Nat → Nat → Nat × Nat × Nat

/-- The bank map that memory training gives, by index of CAPMAP (05 R123; log entry 7). -/
opaque liveBanks : Nat → BitVec 64

/-- The security version in the header of a firmware image: the spec does not say where the header holds it (20 R407; log
entry 7). -/
opaque imageSvn : List (BitVec 8) → Nat

/-- Whether the host accepts an atomic to its window as an AtomicOp (18 R384; log entry 32). -/
opaque hostAccepts : Nat → Bool

/-- The KIND code, from 2 to 10, of the error-log entry of a restore record whose image has another VERSION: no code of 18 R397 names
that event (17 R359; log entry 39). -/
opaque versionKind : Fin 9
/-- The code of a unit class in an error-log entry, which the spec does not list (18 R397; log entry 36). -/
opaque unitClass : Nat → Nat

/-- The coherence object that another device has declared around a line of its memory (06 R151; log entry 35). -/
opaque remoteObject : Nat → Option Nat

/-- `TEN` of such an object, in its home's object table (18 R387; log entry 35). -/
opaque remoteTen : Nat → BitVec 16
/-- The generation of the grant of a line of such an object in a cycle (06 R150; log entry 35). -/
opaque remoteGrant : Nat → Nat → BitVec 16

/-- Whether the back faces of `RAST` are the triangles of positive area on the screen: the spec does not say which faces
are back faces there (10 R279; log entry 41). -/
opaque backPositive : Bool

end Sys2Proof.Config
end

