-- ==== Sys2Proof/Machine/State.lean ====
section
/-!
DEFINITION. The state of one Vuroer 46 package as plain data: every piece of state the spec gives the machine, the
reasons a step can stop, and the state after reset. Tables of units are lists read through `getP`, whose missing
entries are the units' idle state; memory is a list of cells in canonical form (`Memory` in Machine/Memory.lean).
-/
namespace Sys2Proof.Machine

/-! ## Threads and warps -/

/-- The four states of a thread (02 R27). -/
inductive LaneSt where
  | running | held | parked | exited
  deriving DecidableEq, Repr

/-- A fault record (15 R325). `delivery` marks a fault of the attribute engine's delivery (11 R300), which replay
serves by delivering again. -/
structure FaultRec where
  cls : Nat
  subcode : Nat
  slot : Bool
  write : Bool
  size : Nat
  fetch : Bool
  info : Word
  pc : DWord
  addr : DWord
  delivery : Bool
  deriving DecidableEq, Repr

/-- A value in a neighbour-port queue; `ready` once the axis latency has passed (03 R74). -/
structure PortVal where
  ready : Bool
  val : Word
  deriving DecidableEq, Repr

/-- One thread (02 R26, 03 R59). `inq` and `cred` are indexed by the direction codes of 09 R251. -/
structure Lane where
  st : LaneSt
  pc : DWord
  meet : DWord
  helper : Bool
  preds : BitVec 8
  x : List (BitVec 16)
  v : List Word
  shadow : List Word
  fault : Option FaultRec
  inq : List (List PortVal)
  cred : List Nat
  /-- A fault that is known to come, with the cycle in which the lane parks (16 R345): until then the lane issues nothing. -/
  failing : Option (Nat × FaultRec)
  deriving DecidableEq, Repr

/-- The no-meeting value (02 R26). -/
def noMeeting : DWord := 0xFFFFFFFFFFFFFFFF

/-- A lane that holds no thread: exited, every register zero. -/
def Lane.idle : Lane :=
  ⟨.exited, 0, noMeeting, false, 0, [], [], [], none, [], [4, 4, 4, 4, 4, 4], none⟩

/-- A warp trap (15 R326): class, subcode, detail address and detail word. -/
structure Trap where
  cls : Nat
  subcode : Nat
  addr : DWord
  word : Word
  deriving DecidableEq, Repr

/-- The record of an instruction a warp is stalled at (09 R255): its address, the cycle it was first tried, the
sequence number that bounds its drain set (06 R141), its progress and a datum of the instruction. -/
structure Stalled where
  pc : DWord
  since : Nat
  bound : Nat
  phase : Nat
  datum : Nat
  deriving DecidableEq, Repr

/-- A ticket slot (10 R277): sequence number, status word, whether a command is in flight, and the cycle in which the status
became final. -/
structure Ticket where
  seq : Nat
  status : Nat
  busy : Bool
  final : Nat
  deriving DecidableEq, Repr

/-- A weight slot (10 R256): format code, sparse flag, stored rows, element codes and scale bytes in row-major
order of 16 columns, and metadata words. -/
structure WSlot where
  fmt : Nat
  sparse : Bool
  rows : Nat
  wts : List Nat
  scales : List Nat
  mdata : List Word
  deriving DecidableEq, Repr

/-- The weight slot at warp launch (10 R256): BF16 dense, +0 weights, scale bytes 0x7F. -/
def WSlot.launch : WSlot := ⟨4, false, 16, [], List.replicate 256 0x7F, []⟩

/-- The attributes of the leaf that an access was translated through: global, size code, coherence object (16 R340, R347). -/
structure PageAttr where
  glob : Bool
  size : Nat
  coh : Bool
  deriving DecidableEq, Repr

/-- How an engine's access was translated: the attributes SLR and CMP of its page with the others, and the cycle of the lookup. -/
structure LineAttr where
  slr : Bool
  cmp : Bool
  page : PageAttr
  asked : Nat
  deriving DecidableEq, Repr

/-- Not translated. -/
def LineAttr.none_ : LineAttr := ⟨false, false, ⟨false, 0, false⟩, 0⟩

/-- A line that an engine has read: its virtual address, the cycle in which it returns, the fault class that it meets (0: none), its
bytes, and its translation. -/
structure LineRead where
  va : Nat
  ret : Nat
  cls : Nat
  data : BitVec 1024
  attr : LineAttr
  deriving DecidableEq, Repr

/-- A line that an engine is reading (06 R415): its virtual and physical address, its translation, whether it has left the engine, and if
so whether it goes to a reflection and the map generation it carries (17 R363). -/
structure Ask where
  va : Nat
  pa : Nat
  attr : LineAttr
  left : Bool
  refl : Bool
  gen : Nat
  deriving DecidableEq, Repr

/-- The reads of an item (10 R275): the cycle in which it started, the cycle in which it goes on, its lines, and the one under way. -/
structure Reading where
  start : Nat
  due : Nat
  lines : List LineRead
  ask : Option Ask
  deriving DecidableEq, Repr

/-- Nothing read. -/
def Reading.idle : Reading := ⟨0, 0, [], none⟩

/-- A lane waiting for the attribute engine (11 R295, R300, R301): the lane, the cycle its item ends (0 before that is known), and its reads
once it has started. -/
structure Deliv where
  lane : Nat
  due : Nat
  read : Option Reading
  deriving DecidableEq, Repr

/-- What supplied a bin record (02 R49, 11 R291-R294). -/
inductive RecKind where
  | spawn | quadReal | quadHelper | filler | rayHit | rayMiss
  deriving DecidableEq, Repr

/-- A record in a bin. `words` is a `SPAWN` record; the other fields are those of the thresher and of traversal:
identifier, `v0` (pixel or ray index), `v7` (depth or t), ray address, material table, attribute lease handle with
the lease it named (1 + 8 × its grant cycle + its sector; 0 for none), and the tile. -/
structure BinRec where
  kind : RecKind
  words : List Word
  ident : DWord
  first : Word
  depth : Word
  ray : DWord
  table : DWord
  lease : Word
  owner : Nat
  tile : Option Nat
  deriving DecidableEq, Repr

/-- The outstanding counters of a warp (07 R178). -/
inductive Ctr where
  | ld | st | cp | tl | none
  deriving DecidableEq, Repr

/-- One warp slot. -/
structure Warp where
  live : Bool
  team : Nat
  num : Nat
  core : Nat
  quarter : Nat
  slot : Nat
  placed : Nat
  nregs : Nat
  lo : Nat
  hi : Nat
  lanes : List Lane
  s : List Word
  m : List (List Word)
  ws : WSlot
  latched : Bool
  oq : List (Nat × Nat)
  ld : Nat
  st : Nat
  cp : Nat
  tl : Nat
  hmode : Bool
  hpc : DWord
  cause : Trap
  traps : List Trap
  dbgSkip : Bool
  arrived : Bool
  /-- The address of a `BAR` whose first half has arrived (09 R255). -/
  barAt : Option DWord
  tickets : List Ticket
  tiles : List Nat
  retryAt : Nat
  /-- The instruction that reads the register file before it issues, with its lanes and address (03 R65). -/
  choice : Option (Instr × BitVec 64 × DWord)
  /-- Results not ready yet: register (256 + number for a scalar, 512 + number for a predicate, 520 + number for an index
  register) and the cycle it is ready (02 R27). -/
  pending : List (Nat × Nat)
  stalled : Option Stalled
  portSince : Option Nat
  rdv : Option DWord
  rdvAt : Nat
  recs : List BinRec
  deliv : List Deliv
  ended : Bool
  /-- The cycle before which the warp is at no boundary: a `LAUNCH` is completing (09 R255), `HRET` is under way (15 R329), or
  its lanes were delivered (11 R301). -/
  busyTo : Nat
  /-- A cycle, and the counters lowered in it (02 R414). -/
  lowered : Nat × List Ctr
  /-- The first failure of a translation or of a home that an access made in handler mode is to meet, with its cycle (16 R345; 15
  R324). -/
  failing : Option (Nat × FaultRec)
  /-- An acquire of an instruction that has taken effect, which holds back the warp's next instruction until its earlier loads have
  returned (06 R138): whether it invalidates L1, the bound of those loads, and its cost. -/
  acq : Option (Bool × Nat × Nat)
  deriving DecidableEq, Repr

/-- A warp slot that holds no warp. -/
def Warp.idle : Warp :=
  ⟨false, 0, 0, 0, 0, 0, 0, 0, 0, 0, [], [], [], WSlot.launch, false, [], 0, 0, 0, 0, false, 0, ⟨0, 0, 0, 0⟩, [],
    false, false, none, [], [], 0, none, [], none, none, none, 0, [], [], false, 0, (0, []), none, none⟩

/-- The Guluth control core right after reset: one thread, its program counter and registers zero (log entry 120), in no team. -/
def Warp.guluth : Warp := { Warp.idle with live := true, team := 2 ^ 20, lanes := { Lane.idle with st := .running } :: List.replicate 63 Lane.idle }

/-! ## Kernels, teams, grids, bins -/

/-- A kernel descriptor (07 R187) as the finaliser leaves it: launch entry, team shape, allocation, scratch, buffer
records (BASE and SIZE in 64-byte units, SIZE minus 1), ring and port-map word. -/
structure Kernel where
  entry : DWord
  hasEntry : Bool
  warps : Nat
  regs : Nat
  lo : Nat
  hi : Nat
  scratch : Nat
  swz : Nat
  bufs : List (Nat × Nat)
  ringOff : Nat
  ringN : Nat
  portmap : DWord
  /-- The 64 bytes of the descriptor. -/
  desc : List Byte
  deriving DecidableEq, Repr

/-- The kernel of an idle slot. -/
def Kernel.idle : Kernel := ⟨0, false, 1, 8, 0, 7, 0, 0, [], 0, 0, 0, []⟩

/-- A buffer-table entry (05 R112): STATE 0 free, 1 filling, 2 full, 3 draining; `got` holds the delivered byte
intervals above WPTR. -/
structure Handle where
  state : Nat
  layout : Nat
  fmt : Nat
  base : Nat
  size : Nat
  wptr : Nat
  got : List (Nat × Nat)
  /-- The cycle of the last change of WPTR or STATE, and both as they stood before it (02 R414). -/
  changed : Nat
  before : Nat × Nat
  deriving DecidableEq, Repr

/-- A handle beyond the table. -/
def Handle.idle : Handle := ⟨0, 0, 0, 0, 0, 0, [], 0, (0, 0)⟩

/-- A lease slot of a team (10 R268): the handle, the lease record, and whether it was revoked. -/
structure LeaseSlot where
  handle : Word
  lease : Option Nat
  revoked : Bool
  deriving DecidableEq, Repr

/-- One team slot. `holds` lasts until its resources return (02 R42). -/
structure Team where
  live : Bool
  holds : Bool
  part : Nat
  core : Nat
  grid : Nat
  bin : Option Nat
  gridId : Word
  ctx : Word
  num : Nat
  depth : Nat
  nteams : Nat
  warps : List Nat
  asid : Nat
  prio : Nat
  sb : DWord
  sz : Nat
  kern : Kernel
  scratch : List Host.Cell
  handles : List Handle
  qstat : Word
  /-- The bits of `QBLK`s that have not completed: warp, cycle of completion, bits (08 R214). -/
  qlater : List (Nat × Nat × Word)
  pats : List (List Byte)
  patLoaded : BitVec 8
  /-- What the storage of the pattern tables held at launch: a free value (log entry 4). -/
  patFree : Nat
  phase : Nat
  /-- The cycle in which the last barrier phase completed (09 R242). -/
  phaseAt : Nat
  /-- The port discards since the count was last cleared (03 R78). -/
  portDisc : Nat
  /-- The cycle of the last port discard, and the discards of that cycle (09 R254). -/
  discNow : Nat × Nat
  sendDisc : Nat
  leases : List LeaseSlot
  leaseSeq : Nat
  ringTail : Nat
  /-- The cycle (plus 1) of the team's last port issue (15 R335). -/
  portAt : Nat
  deriving DecidableEq, Repr

/-- A team slot that holds no team. -/
def Team.idle : Team :=
  ⟨false, false, 0, 0, 0, none, 0, 0, 0, 0, 0, [], 0, 0, 0, 0, Kernel.idle, [], [], 0, [], [], 0, 0, 0, 0, 0, (0, 0), 0, [], 1, 0, 0⟩

/-- The life of a grid: free slot, taken and waiting on its token (17 R356), pending until it retires. -/
inductive GridSt where
  | free | waiting | pending
  deriving DecidableEq, Repr

/-- One grid slot (02 R44-R48; 17 R355-R357). `pool` is its pool entry, `kids` its live child grids, `order` its
place in the order of launch, `saved` the numbers of its teams that are saved and not restored (15 R335), `drain` the core
and the bound of the stores that a device launch releases (02 R48). -/
structure Grid where
  st : GridSt
  part : Nat
  id : Word
  ctx : Word
  depth : Nat
  parent : Option Nat
  asid : Nat
  prio : Nat
  kern : Kernel
  nteams : Nat
  next : Nat
  liveTeams : Nat
  kids : Nat
  pool : Option Nat
  order : Nat
  readyAt : Nat
  args : List Word
  sb : DWord
  sz : Nat
  host : Bool
  comp : DWord
  sigtok : Word
  irq : Bool
  waittok : Word
  waitval : Word
  status : Nat
  saved : List Nat
  drain : Option (Nat × Nat)
  deriving DecidableEq, Repr

/-- A free grid slot. -/
def Grid.idle : Grid :=
  ⟨.free, 0, 0, 0, 0, none, 0, 0, Kernel.idle, 0, 0, 0, 0, none, 0, 0, [], 0, 0, false, 0, 0xFFFFFFFF, false,
    0xFFFFFFFF, 0, 0, [], none⟩

/-- A record that waits on its token (17 R356, R359): `grid` is the grid slot of a KIND 1 record. -/
structure WaitRec where
  part : Nat
  kind : Nat
  comp : DWord
  sigtok : Word
  irq : Bool
  waittok : Word
  waitval : Word
  prio : Nat
  asid : Nat
  grid : Nat
  deriving DecidableEq, Repr

/-- A restore that waits for placement (17 R358, R359): image address, priority, ASID, SIGTOK, interrupt flag, the cycle from
which it can be placed, and its place in the order of launch. -/
structure Restore where
  img : Nat
  prio : Nat
  asid : Nat
  sigtok : Word
  irq : Bool
  readyAt : Nat
  order : Nat
  deriving DecidableEq, Repr

/-- An entry of the pending-launch pool (09 R249): taken, current sequence number, and the sequence number, final status
and retirement cycle of the last grid that retired from it. -/
structure PoolEnt where
  busy : Bool
  seq : Nat
  lastSeq : Nat
  lastSt : Nat
  lastAt : Nat
  deriving DecidableEq, Repr

/-- An entry that no grid has taken. -/
def PoolEnt.idle : PoolEnt := ⟨false, 0, 0, 0, 0⟩

/-- An arrival waiting at a full bin (02 R50): its records, whether they are a quad group, and the warp or the command it
belongs to. -/
structure BinArr where
  recs : List BinRec
  quad : Bool
  asid : Nat
  prio : Nat
  cmd : Option Nat
  warp : Option Nat
  deriving DecidableEq, Repr

/-- What the device keeps of a warp of a saved team beside its image (log entry 46): its tile references, its records, the lanes
whose fault record is of a delivery, its waiting messages, and the address of its `BAR`. -/
structure SavedWarp where
  tiles : List Nat
  recs : List BinRec
  deliv : BitVec 64
  sends : List Nat
  barAt : Option DWord
  deriving DecidableEq, Repr

/-- Nothing kept. -/
def SavedWarp.none_ : SavedWarp := ⟨[], [], 0, [], none⟩

/-- What the device keeps of a saved team (15 R335; 05 R121, R130): its partition, grid and team number, warps in order, the TAIL of
its ring, and its next lease sequence number. -/
structure SavedTeam where
  part : Nat
  gridId : Word
  num : Nat
  warps : List SavedWarp
  ringTail : Nat
  leaseSeq : Nat
  deriving DecidableEq, Repr

/-- One bound bin (02 R49-R52): partition, entry, sheaf-wide flag, timer period, records, timer expiry, launches so
far, bin-grid identifier, ASID and priority of the first record, waiting arrivals, due launches (cause, first cycle, records), and
the room freed in a cycle (02 R50). -/
structure Bin where
  live : Bool
  part : Nat
  entry : DWord
  sheaf : Bool
  timer : Nat
  recs : List BinRec
  expires : Option Nat
  launched : Nat
  gridId : Word
  asid : Nat
  prio : Nat
  kern : Kernel
  waiting : List BinArr
  due : List (Nat × Nat × List BinRec)
  freed : Nat × Nat
  deriving DecidableEq, Repr

/-- A bin slot that is not bound. -/
def Bin.idle : Bin := ⟨false, 0, 0, false, 2048, [], none, 0, 0, 0, 0, Kernel.idle, [], [], (0, 0)⟩

/-- A partition (17 R352-R359): launch-queue HEAD, the cycle the next
record can be taken, the pool, launch templates, next identifiers, halt and metering state, due bins in order. -/
structure Part where
  head : Nat
  takeAt : Nat
  pool : List PoolEnt
  templates : List Kernel
  nextId : Nat
  order : Nat
  placeAt : Nat
  halted : Bool
  idle : Bool
  idleSeen : Bool
  dueBins : List Nat
  waits : List WaitRec
  /-- Doorbells whose records are not all taken (17 R356): TAIL, and the cycle of the first take. -/
  bells : List (Nat × Nat)
  restores : List Restore
  /-- The cycle in which the idle state last reached the cores (17 R369). -/
  idleAt : Nat
  deriving DecidableEq, Repr

/-- A partition with nothing in it. -/
def Part.idle_ : Part := ⟨0, 0, [], [], 1, 0, 0, false, false, false, [], [], [], [], 0⟩

/-! ## Memory traffic -/

/-- Atomic operations (09 R237): reduce packets and bank operations use the same ones. -/
inductive AOp where
  | add | min | max | and | or | xor | xch | cas | scl
  deriving DecidableEq, Repr

/-- The type of an atomic (09 R237, the codes of SUB bits 2:0). -/
inductive ATy where
  | s32 | n32 | s64 | n64 | f32 | bf16x2 | b128
  deriving DecidableEq, Repr

/-- What a request asks of a location. -/
inductive ReqKind where
  | load
  | store
  | atomic (op : AOp) (ty : ATy) (ret : Bool)
  deriving DecidableEq, Repr

/-- One lane's access: lane, virtual and physical address, size in bytes, data to write (for compare-and-swap the
compare value below the new value; for a scaled update the scale above the addend), the first destination register of a
load, the attributes SLR and CMP of the page it was translated through, and for a translated access the other attributes. -/
structure Acc where
  lane : Nat
  va : Nat
  pa : Nat
  size : Nat
  data : BitVec 256
  reg : Nat
  slr : Bool
  cmp : Bool
  page : Option PageAttr
  deriving DecidableEq, Repr

/-- How a finished memory operation delivers its values. -/
inductive OpKind where
  | store
  | load (signed : Bool) (toScalar : Bool)
  | cld (signed : Bool) (toScalar : Bool) (mask : BitVec 64)
  | tld16
  | qld (fmt : Nat) (blk : Nat) (mask : BitVec 64) (regs : List Nat)
  | qst (bits : Nat)
  | atomicRet (toScalar : Bool)
  | copy
  | mstacc (bits : Nat)
  | mldacc (m : Nat) (fmt : Nat)
  | ldpat (t : Nat)
  | send
  | prefetch (l1 : Bool)
  deriving DecidableEq, Repr

/-- A memory instruction under way (09 R227): its warp and core, counter, kind and request, whether it bypasses L1 (06
R137), accesses, values read so far by access, requests outstanding, sequence number, address, the registers it will
write (vector numbers, then 256 + scalar numbers), the lanes whose values are written, and the marks of `GSTN` and of a
whole-line event (06 R144); for a warp-uniform access the lanes that a failure parks (09 R222), and whether its warp issued it in handler
mode (15 R324). -/
structure MemOp where
  live : Bool
  warp : Nat
  core : Nat
  ctr : Ctr
  kind : OpKind
  req : ReqKind
  bypass : Bool
  accs : List Acc
  buf : List (Nat × BitVec 128)
  left : Nat
  seq : Nat
  pc : DWord
  dsts : List Nat
  lastUse : Bool
  uni : Option (BitVec 64)
  handler : Bool
  deriving DecidableEq, Repr

/-- A free memory-operation record. -/
def MemOp.idle : MemOp := ⟨false, 0, 0, .none, .store, .load, false, [], [], 0, 0, 0, [], false, none, false⟩

/-- A line request (06 R415): its operation, core, physical line, accesses (places in the operation), sequence number,
the cycle it leaves the core, the map generation it carries (17 R363), whether it waits at the core port for a token
(17 R368), whether it goes to a reflection (05 R116), whether the home has performed it, whether it waits there for a
recall (06 R146) or a commit (17 R362), and the line captured for the L1 fill. -/
structure Req where
  live : Bool
  op : Nat
  core : Nat
  line : Nat
  accs : List Nat
  seq : Nat
  sent : Nat
  gen : Nat
  port : Bool
  refl : Bool
  performed : Bool
  waits : Bool
  captured : Option (BitVec 1024)
  deriving DecidableEq, Repr

/-- A free request record. -/
def Req.idle : Req := ⟨false, 0, 0, 0, [], 0, 0, 0, false, false, false, false, none⟩

/-- A TLB entry (16 R343): unit (a core's number, or 576 + sector), ASID, global flag, first virtual and physical
address of the page, size code, the attributes X, SLR, CMP, COH of the leaf (16 R340), and the cycle from which it
stands. -/
structure TlbEnt where
  unit : Nat
  asid : Nat
  glob : Bool
  va : Nat
  pa : Nat
  size : Nat
  ex : Bool
  slr : Bool
  cmp : Bool
  coh : Bool
  from_ : Nat
  deriving DecidableEq, Repr

/-- A table walk in flight (16 R343): sector, the cores that wait for it, ASID, 4 KiB page, the cycle it ends, what it
found (a leaf, or the fault class), the malformed entry it met, and whether a `TLBI` has barred its fill. -/
structure Walk where
  live : Bool
  sector : Nat
  cores : List Nat
  asid : Nat
  page : Nat
  endAt : Nat
  leaf : Option TlbEnt
  cls : Nat
  bad : Option (Nat × Nat)
  barred : Bool
  deriving DecidableEq, Repr

/-- A free walk record. -/
def Walk.idle : Walk := ⟨false, 0, [], 0, 0, 0, none, 0, none, false⟩

/-- A line in a slice: its home copy (05 R115) or a reflection in a reader's sector (05 R116): address, the slice that
holds it, contents, dirty, poisoned (18 R376), pinned (05 R120), slice-resident (05 R118), the generation of its grant
(06 R150), the cycle from which it hits, and the cycle from which an invalidation has removed it. The list of lines is
in order of last use, most recent first. -/
structure L2Line where
  addr : Nat
  slice : Nat
  isRefl : Bool
  data : BitVec 1024
  dirty : Bool
  poison : Bool
  pinned : Bool
  slm : Bool
  gen : Nat
  from_ : Nat
  goneAt : Option Nat
  deriving DecidableEq, Repr

/-- A request in the queue of a DRAM bank or of a Drathes link (05 R117; 18 R382): the unit, the cycle of its arrival there, and the
cycle in which it has left the queue. -/
structure Queued where
  unit : Nat
  from_ : Nat
  until_ : Nat
  deriving DecidableEq, Repr

/-- A line in an L1 or an instruction cache (05 R114, 06 R157). -/
structure CLine where
  core : Nat
  addr : Nat
  data : BitVec 1024
  deriving DecidableEq, Repr

/-- Where a copy or an engine moves bytes: a physical global address, or scratch of a team. -/
inductive Place where
  | glob (pa : Nat)
  | scr (team : Nat) (off : Nat) (handle : Option Nat) (hoff : Nat)
  deriving DecidableEq, Repr

/-- One line operation of a copy (09 R233): its operation, channel queue, the bytes it moves (destination, source, count)
in lane order, its chunk (17 R366), the cycle from which its translations are ready, the ingress (a sector, or 6 + a core) of
which it holds copy permits and their number (05 R128), whether it waits for a token (19 R400), the cycle it left, its
source lines not read yet, the cycle its slowest source returns, the lines read, and its core and order. -/
structure LineOp where
  live : Bool
  op : Nat
  queue : Nat
  moves : List (Place × Place × Nat)
  chunk : Nat
  early : Nat
  ingress : Nat
  permits : Nat
  held : Bool
  waits : Bool
  sent : Option Nat
  left : Nat
  ready : Nat
  got : List (Nat × BitVec 1024)
  core : Nat
  seq : Nat
  deriving DecidableEq, Repr

/-- A free line operation. -/
def LineOp.idle : LineOp := ⟨false, 0, 0, [], 0, 0, 0, 0, false, false, none, 0, 0, [], 0, 0⟩

/-- A copy channel (17 R366): its four queues of line operations, their deficits, the queue being visited with the chunk
that the deficit has paid for, the queue whose turn is next, and the cycle (plus 1) of its last line operation. -/
structure Channel where
  queues : List (List Nat)
  deficits : List Nat
  cur : Option (Nat × Nat)
  turn : Nat
  sentAt : Nat
  deriving DecidableEq, Repr

/-- A channel with nothing queued. -/
def Channel.idle : Channel := ⟨[[], [], [], []], [0, 0, 0, 0], none, 0, 0⟩

/-- A message waiting to append (05 R130): operation, sending core, partition, the sender's team number and warp, the grid,
destination team, tag, payload, and the place in the order of arrival once it has arrived. -/
structure Msg where
  live : Bool
  op : Nat
  core : Nat
  part : Nat
  sender : Nat
  warp : Nat
  gridId : Word
  dest : Nat
  tag : Nat
  payload : List Byte
  arrived : Option Nat
  deriving DecidableEq, Repr

/-- A free message record. -/
def Msg.idle : Msg := ⟨false, 0, 0, 0, 0, 0, 0, 0, 0, [], none⟩

/-- Port values or credits under way (03 R74): the destinations (warp, lane, and the cycle in which that warp was placed), and
the direction of the queue. -/
structure Xfer where
  live : Bool
  dst : List (Nat × Nat × Nat)
  dir : Nat
  deriving DecidableEq, Repr

/-- A free transfer record. -/
def Xfer.idle : Xfer := ⟨false, [], 0⟩

/-! ## Matrix arrays and engines -/

/-- What a tile operation does (10 R259). -/
inductive TileKind where
  | mldw (ws : WSlot)
  | mwst (ws : WSlot)
  | mstr (m : Nat) (fmt : Nat) (kl : Nat) (rows : Nat) (cols : Nat) (acts : List (List Nat)) (scales : List (List Nat))
  | mstacc (m : Nat) (team : Nat) (layout : Nat) (fmt : Nat) (rm : Rm) (ftz : Bool) (ld : Nat) (dst : Place)
      (handle : Option Nat)
  | mldacc (m : Nat)
  deriving DecidableEq, Repr

/-- A tile operation in a quarter's order (10 R260): its warp and quarter, address, issue cycle (for `MWST` the first cycle in
which it can start), whether it has started or its lines are read, the cycle in which it read its accumulator, its memory
operation, and the cycles from which its pages are ready. -/
structure TileOp where
  live : Bool
  warp : Nat
  quarter : Nat
  kind : TileKind
  pc : DWord
  issued : Nat
  started : Bool
  readDone : Bool
  doneAt : Nat
  seq : Nat
  memop : Option Nat
  ready : List (Nat × Nat)
  deriving DecidableEq, Repr

/-- A free tile-operation record. -/
def TileOp.idle : TileOp := ⟨false, 0, 0, .mldacc 0, 0, 0, false, false, 0, 0, none, []⟩

/-- A quarter (02 R53; 10 R256, R260; 15 R331): the warp it issued from last, its greed count, the cycle it last
issued in (plus 1), the warps that went to the youngest position with the cycle of each, array-free cycle, latched warp slot, the cycles from which
its special-function and FP64 units are free (08 R194), and the counters RFCOMP and of instructions issued. -/
structure Quarter where
  last : Nat
  greed : Nat
  at_ : Nat
  young : List (Nat × Nat)
  arrayFree : Nat
  latched : Option Nat
  unitFree : Nat
  fp64Free : Nat
  rfcomp : Word
  issued : Word
  deriving DecidableEq, Repr

/-- A quarter that has issued nothing. -/
def Quarter.idle_ : Quarter := ⟨0, 0, 0, [], 0, none, 0, 0, 0, 0⟩

/-- Engine states (10 R269). -/
inductive EngSt where
  | dormant | waking | leased | idle
  deriving DecidableEq, Repr

/-- One engine (10 R269), by the engine number of 18 R374: its state, and the cycle its wake ends. -/
structure Engine where
  st : EngSt
  wakeAt : Nat
  deriving DecidableEq, Repr

/-- An engine at reset. -/
def Engine.idle_ : Engine := ⟨.dormant, 0⟩

/-- A request in a sector's lease queue (10 R270). -/
structure LeaseReq where
  warp : Nat
  cls : Nat
  n : Nat
  prio : Nat
  at_ : Nat
  deriving DecidableEq, Repr

/-- What started a grace period (10 R271): the budget, the request of a warp at the head of a queue, or the host. -/
inductive Origin where
  | budget
  | head (w : Nat)
  | host
  deriving DecidableEq, Repr

/-- One lease (10 R268-R271): owner team and slot, sector, class, engines, priority, grant cycle, sequence number, whether its last
engine is leased, its grace end with the origin of the grace, the place of its rotation over its engines (10 R275), the warp whose
`LEASE` waits for it, and the cycle (plus 1) in which its engines last started a delivery (11 R301). -/
structure Lease where
  live : Bool
  team : Nat
  slot : Nat
  sector : Nat
  cls : Nat
  engines : List Nat
  prio : Nat
  granted : Nat
  seq : Nat
  ready : Bool
  grace : Option (Nat × Origin)
  rot : Nat
  waiter : Option Nat
  servedAt : Nat
  deriving DecidableEq, Repr

/-- A free lease record. -/
def Lease.idle : Lease := ⟨false, 0, 0, 0, 0, [], 0, 0, 0, false, none, 0, none, 0⟩

/-- The engine commands (10 R274), in the order of their majors. -/
inductive CmdKind where
  | trace | attr | rast | thresh | decode | gather | scatr | coll
  deriving DecidableEq, Repr

/-- A write of an item (10 R275): bytes of scratch; bytes of a global line by its virtual address (a line, the bytes named by a mask), with
its physical address and its translation once it has been translated; a pixel of `RAST` (tile, pixel,
identifier, depth, whether the depth test is made, whether the tile is cleared as it opens; 10 R279); a record or quad group that
enters a bin, with the place of the group in its pass (10 R278, R280). -/
inductive Write where
  | scratch (p : Place) (bs : List Byte)
  | line (va pa : Nat) (attr : LineAttr) (d : BitVec 1024) (mask : BitVec 128)
  | pixel (tile k : Nat) (ident : DWord) (depth : Word) (test clr : Bool)
  | record (bin : Nat) (recs : List BinRec) (quad : Bool) (key : Nat)
  deriving DecidableEq, Repr

/-- A write on its way (06 R415): the cycle in which it leaves or acts (0: it waits), the map generation it carries (17 R363), whether it
has left, and the write; none where only its acknowledgement is awaited. -/
structure Sent where
  due : Nat
  gen : Nat
  left : Bool
  w : Option Write
  deriving DecidableEq, Repr

/-- An item in flight (10 R275): its number, its reads, and its writes once it has made them. -/
structure Item where
  key : Nat
  read : Reading
  sent : Option (List Sent)
  deriving DecidableEq, Repr

/-- An engine command (10 R274-R277): its warp, team, core and ASID, lease, ticket slot and sequence, record scalars, layout fields, handle,
place in the order of issue, status word, whether it has reached its engine, the next item and the number of items, whether no
later item starts, whether the next item waits for a free place, the items in flight, the tile of a pass with the number of groups it has
spawned, the lines it owns, once for each delivery to come (06 R146), the index lines (10 R283), the elements of a `SCATR` that wait
for others of their line (06 R144), the matching commands of a collective's ranks with group and count, the ranks' data (10 R284), its
engine, the first cycle in which its next item may start, the cycle of its last write, and whether its completion is due. -/
structure Cmd where
  live : Bool
  kind : CmdKind
  sub : Nat
  warp : Nat
  team : Nat
  core : Nat
  asid : Nat
  lease : Option Nat
  ticket : Nat
  tseq : Nat
  words : List Word
  raw : Bool
  fmt : Nat
  layout : Nat
  handle : Option Nat
  seq : Nat
  status : Nat
  arrived : Bool
  next : Nat
  count : Nat
  stopped : Bool
  blocked : Bool
  flight : List Item
  tile : Option Nat
  spawned : Nat
  owned : List Nat
  idx : List Reading
  parts : List Write
  ranks : List (Nat × Nat × Nat)
  others : Option (List Byte)
  engine : Nat
  startAt : Nat
  doneAt : Nat
  ending : Bool
  deriving DecidableEq, Repr

/-- A free command record. -/
def Cmd.idle : Cmd :=
  ⟨false, .trace, 0, 0, 0, 0, 0, none, 0, 0, [], false, 0, 0, none, 0, 0, false, 0, 0, false, false, [], none, 0, [], [], [], [], none, 0, 0, 0, false⟩

/-- A request that the pager is serving (16 R350): partition, ASID, address and completion word of the request, the leaf to write, the
compressed clusters with the sector whose engine decodes them, the step, the cycle in which what it does ends, the piece of the frame
that is mapped next, and for the step's invalidation whether an entry was dropped and the bound of the accesses that are awaited. -/
structure PageJob where
  part : Nat
  asid : Nat
  va : Nat
  comp : Nat
  leaf : Nat
  packed : List Byte
  sector : Nat
  stage : Nat
  until_ : Nat
  piece : Nat
  dropped : Bool
  bound : Nat
  deriving DecidableEq, Repr

/-- Tile states (05 R120). -/
inductive TileSt where
  | closed | opened | classifying | shading
  deriving DecidableEq, Repr

/-- A visibility tile that is not closed (05 R120, R121; 10 R280), by the physical address of its first line: its 24 lines, partition,
state, references, the place of its first group not yet spawned, and the pass that runs. -/
structure Tile where
  addr : Nat
  lines : List Nat
  part : Nat
  st : TileSt
  refs : Nat
  resume : Nat
  running : Option Nat
  deriving DecidableEq, Repr

/-- A sector: its lease queue (10 R270), the cycle of its last grant, and the cycle (plus 1) of a request or a revocation on which it acts in
the same cycle (10 R271). -/
structure Sector where
  queue : List LeaseReq
  grantedAt : Nat
  touched : Nat
  deriving DecidableEq, Repr

/-- A sector with nothing queued. -/
def Sector.idle_ : Sector := ⟨[], 0, 0⟩

/-! ## Fabric, objects, resilience, bring-up -/

/-- A tenure of a coherence object (06 R152, R153), this device as the home: the object, the holding device, whether for writing, the
cycle it lapses, the cycle a recall was sent, and whether it is renewed no more. -/
structure Tenure where
  obj : Nat
  dev : Nat
  write : Bool
  until_ : Nat
  recalled : Option Nat
  noRenew : Bool
  deriving DecidableEq, Repr

/-- A line of an object homed elsewhere as this device holds it: whether it is dirty, and the generation of its grant (06 R150). -/
structure HeldLine where
  addr : Nat
  data : BitVec 1024
  dirty : Bool
  gen : BitVec 16
  deriving DecidableEq, Repr

/-- A tenure this device holds of an object homed elsewhere (18 R389): the object, whether for writing, its lines, and the cycle its own
count lapses. -/
structure Held where
  obj : Nat
  write : Bool
  lines : List HeldLine
  lapse : Nat
  deriving DecidableEq, Repr

/-- A column of stacked memory (18 R390-R394): MODE, LOST, GLEAN, the layers lost since the last remap, the cycle of the next gleaning (0:
none), the layer of its parity bank, and the layers whose banks have failed for good. -/
structure Column where
  mode : Nat
  lost : Nat
  glean : Nat
  failed : List Nat
  gleanAt : Nat
  parity : Nat
  dead : List Nat
  deriving DecidableEq, Repr

/-- A column before any loss (18 R391). -/
def Column.whole : Column := ⟨0, 15, 0, [], 0, 8, []⟩

/-- The last commit of interleave domains (17 R362): the cycle its scan ends, the domains, and the map it produces. -/
structure Scan where
  endAt : Nat
  mask : BitVec 16
  hash : List DWord
  slices : List DWord
  deriving DecidableEq, Repr

/-- The progress of a remap of one stack (18 R395). -/
inductive RemapSt where
  | none | waiting | running (doneAt : Nat)
  deriving DecidableEq, Repr

/-- An entry of the error log (18 R397): KIND, unit class, unit number, context, address. -/
structure ErrEnt where
  kind : Nat
  cls : Nat
  unit : Nat
  ctx : Word
  addr : Nat
  deriving DecidableEq, Repr

/-- What the device posts to the host (15 R324; 16 R341; 20 R411-R413), and the interrupts it raises (18 R384). -/
inductive Post where
  | handlerFault (r : FaultRec)
  | malformed (pa level : Nat)
  | error (kind : Nat)
  | drawOver
  | firmwareHalt
  | d3Refused
  | trip
  | response (status : Nat) (payload : List Byte)
  | msix (vector : Nat)
  deriving DecidableEq, Repr

/-- The operands of an event: up to three numbers that name units or carry counts, a 64-bit value, and the payload of a
mailbox command. -/
structure EvArg where
  a : Nat
  b : Nat
  c : Nat
  v : DWord
  bytes : List Byte
  deriving DecidableEq, Repr

/-- No operands. -/
def EvArg.none_ : EvArg := ⟨0, 0, 0, 0, []⟩

/-- An action of the agenda: an event of the table, a BAR0 write of a system register by the host, a byte the host
writes through BAR2, a word of the host's own memory (18 R384, R385), a word that the firmware of the Guluth control core comes to (20 R410). -/
inductive Act where
  | ev (i : Instr) (x : EvArg)
  | hostReg (num idx : Nat) (v : BitVec 64)
  | hostMem (pa : Nat) (b : Byte)
  | firmware (word : List Byte)
  deriving DecidableEq, Repr

/-- A due action. -/
structure Due where
  at_ : Nat
  act : Act
  deriving DecidableEq, Repr

/-- The reasons the machine stops. -/
inductive Fault where
  /-- Raised by `step` after the over-temperature trip when no input is to come: every clock but that of the Guluth control core has stopped,
  register, cache and memory contents are undefined, and only a reset leaves the halt (20 R412). Safe: a stopped machine proves nothing of
  what the part does next. -/
  | overTemperature
  deriving DecidableEq, Repr

/-- The reasons an instruction is refused. -/
inductive Refusal where
  /-- Raised by `exec` for an instruction that has no meaning in the model yet. Safe. -/
  | notModelled (mnemonic : String)
  deriving DecidableEq, Repr

/-- The state of one package. -/
structure State where
  /-- The device cycle (log entry 8). -/
  now : Nat
  /-- The cycle of the last reset of the device (03 R61; 15 R331). -/
  resetAt : Nat
  /-- The part of the cycle that is reached (02 R414): 0 the units that wait on events of earlier cycles, 1 the arrivals
  that are due, 2 the issues of the quarters, 3 what the cycle's end decides. -/
  ph : Nat
  /-- The warp slot the running instruction serves. -/
  cur : Nat
  /-- The lanes of `active(w)` for the running instruction (02 R32). -/
  act : BitVec 64
  /-- False once the running instruction has stalled (09 R255). -/
  issued : Bool
  /-- The address of the running instruction. -/
  ipc : DWord
  /-- The address that follows it (07 R160). -/
  npc : DWord
  /-- The operands of the running event. -/
  ev : EvArg
  /-- Counter of free values (log entry 1). -/
  free : Nat
  /-- Counter of store, request and command order. -/
  seq : Nat
  /-- Inputs and due events, earliest first. -/
  agenda : List Due
  warps : List Warp
  teams : List Team
  saves : List SavedTeam
  grids : List Grid
  bins : List Bin
  parts : List Part
  quarters : List Quarter
  memops : List MemOp
  reqs : List Req
  walks : List Walk
  tlb : List TlbEnt
  l1 : List CLine
  icache : List CLine
  l2 : List L2Line
  /-- The slices that have allocated a line since their last flush (17 R353). -/
  filledSlices : List Nat
  published : List Nat
  gens : List (Nat × Nat)
  poisoned : List Nat
  dram : List Host.Cell
  remote : List Host.Cell
  /-- The code of each compressible block that is not raw, by the address of the block (05 R126, R127). -/
  codes : List (Nat × Nat)
  queues : List Queued
  lineops : List LineOp
  channels : List Channel
  msgs : List Msg
  xfers : List Xfer
  tileops : List TileOp
  engines : List Engine
  sectors : List Sector
  leases : List Lease
  cmds : List Cmd
  tiles : List Tile
  tenures : List Tenure
  held : List Held
  columns : List Column
  /-- The first-tier capacity of each stack in MiB under the live map (18 R395). -/
  stackMib : List Nat
  remaps : List RemapSt
  buckets : List Nat
  /-- The cycle (plus 1) of each core's last charge, and of its last refill (17 R368, R369). -/
  lastCharge : List Nat
  refilled : List Nat
  kills : List (Nat × Word)
  scan : Option Scan
  errlog : List ErrEnt
  errCorr : Nat
  errUncorr : Nat
  errHead : Nat
  posts : List Post
  trapvec : List DWord
  dbgctl : List DWord
  bkaddr : List DWord
  hfcount : List DWord
  asidtab : DWord
  pageq : List DWord
  /-- The doorbells of the pager, oldest first: partition and slot (16 R349). -/
  pageDb : List (Nat × Nat)
  pageJob : Option PageJob
  partcfg : DWord
  lqbase : List DWord
  capmap : List DWord
  slmcarve : List DWord
  tilebud : List DWord
  hashmask : List DWord
  slicetab : List DWord
  hashLive : List DWord
  sliceLive : List DWord
  tkshare : List DWord
  engbudget : List DWord
  harvest : List DWord
  drcfg : DWord
  drroute : List DWord
  hostwin : DWord
  objtab : List DWord
  remapReg : List DWord
  pwrctl : DWord
  stage : Nat
  fail : Nat
  trip : Bool
  fwsvn : Nat
  measurement : List Byte
  d3hot : Bool
  /-- The firmware of the Guluth control core has met an illegal word (20 R410). -/
  fwHalted : Bool
  /-- The registers of the Guluth control core (20 R410), as a warp of one thread. -/
  gul : Warp
  deriving DecidableEq, Repr

/-- The state right after reset (20 R405): stage 0 not complete, no memory trained, no warp resident, every
register at the value the spec or a log entry names. -/
def State.reset : State where
  now := 0
  resetAt := 0
  ph := 0
  cur := 0
  act := 0
  issued := false
  ipc := 0
  npc := 0
  ev := EvArg.none_
  free := 0
  seq := 1
  agenda := []
  warps := []
  teams := []
  saves := []
  grids := []
  bins := []
  parts := []
  quarters := []
  memops := []
  reqs := []
  walks := []
  tlb := []
  l1 := []
  icache := []
  l2 := []
  filledSlices := []
  published := []
  gens := []
  poisoned := []
  dram := []
  remote := []
  codes := []
  queues := []
  lineops := []
  channels := []
  msgs := []
  xfers := []
  tileops := []
  engines := []
  sectors := []
  leases := []
  cmds := []
  tiles := []
  tenures := []
  held := []
  columns := []
  stackMib := []
  remaps := []
  buckets := []
  lastCharge := []
  refilled := []
  kills := []
  scan := none
  errlog := []
  errCorr := 0
  errUncorr := 0
  errHead := 0
  posts := []
  trapvec := []
  dbgctl := []
  bkaddr := []
  hfcount := []
  asidtab := 0
  pageq := []
  pageDb := []
  pageJob := none
  partcfg := 0
  lqbase := []
  capmap := []
  slmcarve := []
  tilebud := [1024, 1024, 1024, 1024, 1024, 1024]
  hashmask := []
  slicetab := []
  hashLive := []
  sliceLive := []
  tkshare := [0, 0, 0, 0, 0, 0, 0x1248]
  engbudget := [40, 40, 40, 40, 40, 40]
  harvest := []
  drcfg := 0
  drroute := []
  hostwin := 0
  objtab := []
  remapReg := [0x200, 0x200]
  pwrctl := BitVec.ofNat 64 (((if Config.form = .vu46m then 1600 else 1350) <<< 48) + 1100)
  stage := 0
  fail := 0
  trip := false
  fwsvn := 0
  measurement := []
  d3hot := false
  fwHalted := false
  gul := Warp.guluth

end Sys2Proof.Machine
end

