-- ==== Sys2Proof/Machine/Ops.lean ====
section
/-!
DEFINITION. The named operations that the meanings share: reading and writing units of the state, lanes and registers,
the agenda, stalls and the next issue, the program counters, parking a lane (02 R55), a warp trap (15 R326), a handler
fault (15 R324), taking the vector to the handler (15 R320) and the checks made before every instruction.
-/
namespace Sys2Proof.Machine

/-- The three outcomes of this machine. -/
abbrev Out := Host.Outcome State Fault Refusal

/-! ## Units -/

def State.warp (s : State) (w : Nat) : Warp := getP Warp.idle s.warps w
def State.setWarp (s : State) (w : Nat) (x : Warp) : State := { s with warps := setP Warp.idle s.warps w x }
/-- The warp that the running instruction serves. -/
def State.me (s : State) : Warp := s.warp s.cur
def State.setMe (s : State) (x : Warp) : State := s.setWarp s.cur x
def State.onMe (s : State) (f : Warp → Warp) : State := s.setMe (f s.me)
def State.onWarp (s : State) (w : Nat) (f : Warp → Warp) : State := s.setWarp w (f (s.warp w))
def State.team (s : State) (t : Nat) : Team := getP Team.idle s.teams t
def State.setTeam (s : State) (t : Nat) (x : Team) : State := { s with teams := setP Team.idle s.teams t x }
def State.onTeam (s : State) (t : Nat) (f : Team → Team) : State := s.setTeam t (f (s.team t))
/-- The team of the running instruction's warp. -/
def State.myTeam (s : State) : Team := s.team s.me.team
def State.onMyTeam (s : State) (f : Team → Team) : State := s.onTeam s.me.team f
def State.part (s : State) (p : Nat) : Part := getP Part.idle_ s.parts p
def State.onPart (s : State) (p : Nat) (f : Part → Part) : State :=
  { s with parts := setP Part.idle_ s.parts p (f (s.part p)) }
def State.grid (s : State) (g : Nat) : Grid := getP Grid.idle s.grids g
def State.onGrid (s : State) (g : Nat) (f : Grid → Grid) : State :=
  { s with grids := setP Grid.idle s.grids g (f (s.grid g)) }
/-- Quarter `q` of core `c` is unit `4c + q`. -/
def State.quarter (s : State) (q : Nat) : Quarter := getP Quarter.idle_ s.quarters q
def State.onQuarter (s : State) (q : Nat) (f : Quarter → Quarter) : State :=
  { s with quarters := setP Quarter.idle_ s.quarters q (f (s.quarter q)) }
def Warp.unit (x : Warp) : Nat := 4 * x.core + x.quarter
/-- The sector of a core (01 R11): 96 cores each. -/
def sectorOf (core : Nat) : Nat := core / 96

/-- The first free place of a table: one past its end when every entry is in use. -/
def freeSlot {α : Type} (live : α → Bool) : List α → Nat
  | [] => 0
  | x :: r => if live x then freeSlot live r + 1 else 0

/-- The partition of a sector under PARTCFG (17 R352). -/
def State.npart (s : State) : Nat := s.partcfg.toNat % 4
def State.partOfSector (s : State) (sec : Nat) : Nat :=
  match s.npart with
  | 0 => 0
  | 1 => sec / 3
  | 2 => sec / 2
  | _ => sec
/-- The sectors of a partition, lowest first. -/
def State.sectorsOf (s : State) (p : Nat) : List Nat := (List.range 6).filter fun k => s.partOfSector k == p
/-- HARVEST marks a core as absent (18 R374: indices 0-8, 64 cores each). -/
def State.coreLive (s : State) (c : Nat) : Bool := c < 576 && !(getP 0 s.harvest (c / 64)).getLsbD (c % 64)
/-- The live cores of a partition, in increasing number. -/
def State.coresOf (s : State) (p : Nat) : List Nat :=
  (List.range 576).filter fun c => s.partOfSector (sectorOf c) == p && s.coreLive c

/-! ## The agenda -/

/-- Insert an action after every action that is due no later. -/
def insertDue (d : Due) : List Due → List Due
  | [] => [d]
  | x :: r => if d.at_ < x.at_ then d :: x :: r else x :: insertDue d r

def State.schedule (s : State) (at_ : Nat) (a : Act) : State := { s with agenda := insertDue ⟨at_, a⟩ s.agenda }
/-- An event of the table, `n` cycles from now. -/
def State.later (s : State) (n : Nat) (i : Instr) (a : Nat := 0) (b : Nat := 0) (c : Nat := 0) (v : DWord := 0) : State :=
  s.schedule (s.now + n) (.ev i ⟨a, b, c, v, []⟩)
/-- Events that the predicate names are dropped from the agenda. -/
def State.cancel (s : State) (p : Instr → EvArg → Bool) : State :=
  { s with agenda := s.agenda.filter fun d =>
      match d.act with
      | .ev i x => !p i x
      | _ => true }

def State.bumpSeq (s : State) : State := { s with seq := s.seq + 1 }
/-- A message for the host. -/
def State.post (s : State) (p : Post) : State := { s with posts := s.posts ++ [p] }

/-! ## Lanes -/

def Warp.lane (x : Warp) (l : Nat) : Lane := getP Lane.idle x.lanes l
/-- Every lane of a warp through `f`. -/
def Warp.mapLanes (x : Warp) (f : Nat → Lane → Lane) : Warp :=
  { x with lanes := (List.range 64).map fun l => f l (x.lane l) }
def Warp.onLane (x : Warp) (l : Nat) (f : Lane → Lane) : Warp :=
  { x with lanes := setP Lane.idle x.lanes l (f (x.lane l)) }
/-- The lanes with a property, as a mask. -/
def Warp.maskOf (x : Warp) (p : Nat → Lane → Bool) : BitVec 64 :=
  (List.range 64).foldl (fun m l => if p l (x.lane l) then m ||| (1 <<< l) else m) 0
/-- The lanes of a mask, lowest first. -/
def lanesOf (m : BitVec 64) : List Nat := (List.range 64).filter fun l => m.getLsbD l

/-- A predicate register of a lane: `p0` reads as true (03 R59). -/
def Lane.pred (y : Lane) (k : Nat) : Bool := k == 0 || y.preds.getLsbD k
/-- A predicate register written; a write to `p0` is discarded (03 R59). -/
def Lane.setPred (y : Lane) (k : Nat) (b : Bool) : Lane :=
  if k % 8 = 0 then y else { y with preds := (y.preds &&& ~~~(1#8 <<< (k % 8))) ||| (if b then 1#8 <<< (k % 8) else 0) }
/-- The predicate test of R163. -/
def Lane.test (y : Lane) (o : Ops) : Bool := y.pred o.pn.toNat != o.neg
def Lane.setX (y : Lane) (k : Nat) (v : BitVec 16) : Lane := { y with x := setP 0 y.x k v }

/-- `pass(l)` (08 R193): in `active(w)` and the predicate test passes. -/
def State.pass (s : State) (o : Ops) (l : Nat) : Bool := s.act.getLsbD l && (s.me.lane l).test o
/-- `pass(l)` for an instruction that a helper lane takes no part in (08 R199; 09 R223). -/
def State.passReal (s : State) (o : Ops) (l : Nat) : Bool := s.pass o l && !(s.me.lane l).helper
def State.passMask (s : State) (o : Ops) : BitVec 64 := s.me.maskOf fun l _ => s.pass o l
/-- A warp-uniform instruction executes when `pass` holds in any lane. -/
def State.anyPass (s : State) (o : Ops) : Bool := (List.range 64).any (s.pass o)
def State.anyPassReal (s : State) (o : Ops) : Bool := (List.range 64).any (s.passReal o)

/-! ## Registers -/

/-- Vector register `r` of a lane as an instruction field names it: in handler mode fields 0-15 name the shadow set
(15 R321). -/
def Warp.reg (x : Warp) (l r : Nat) : Word :=
  if x.hmode && r < 16 then getP 0 (x.lane l).shadow r else getP 0 (x.lane l).v r
/-- A group of `n` registers (1, 2 or 4) as a number, the first register lowest (03 R60). -/
def Warp.regN (x : Warp) (l r : Nat) : Nat → Nat
  | 0 => 0
  | n + 1 => (x.reg l r).toNat + 2 ^ 32 * x.regN l (r + 1) n
/-- The warp's own vector registers, past the shadow set. -/
def Warp.ownN (x : Warp) (l r : Nat) : Nat → Nat
  | 0 => 0
  | n + 1 => (getP 0 (x.lane l).v r).toNat + 2 ^ 32 * x.ownN l (r + 1) n
def Lane.setOwn (y : Lane) (r : Nat) (v : Word) : Lane := { y with v := setP 0 y.v r v }
def Lane.setReg (y : Lane) (h : Bool) (r : Nat) (v : Word) : Lane :=
  if h && r < 16 then { y with shadow := setP 0 y.shadow r v } else y.setOwn r v
/-- A group of `n` registers written from a number. -/
def Lane.setRegN (y : Lane) (h : Bool) (r : Nat) : Nat → Nat → Lane
  | 0, _ => y
  | n + 1, v => (y.setReg h r (BitVec.ofNat 32 v)).setRegN h (r + 1) n (v / 2 ^ 32)
/-- A scalar register, and a group of `n`. -/
def Warp.sreg (x : Warp) (r : Nat) : Word := getP 0 x.s r
def Warp.sregN (x : Warp) (r : Nat) : Nat → Nat
  | 0 => 0
  | n + 1 => (x.sreg r).toNat + 2 ^ 32 * x.sregN (r + 1) n
def Warp.setS (x : Warp) (r : Nat) (v : Word) : Warp := { x with s := setP 0 x.s r v }
def Warp.setSN (x : Warp) (r : Nat) : Nat → Nat → Warp
  | 0, _ => x
  | n + 1, v => (x.setS r (BitVec.ofNat 32 v)).setSN (r + 1) n (v / 2 ^ 32)
/-- Element `(r, c)` of accumulator tile `m` (03 R59; 10 R256). -/
def Warp.acc (x : Warp) (m r c : Nat) : Word := getP 0 (getP [] x.m m) (16 * r + c)
/-- An accumulator tile from a function of row and column. -/
def Warp.setAcc (x : Warp) (m : Nat) (f : Nat → Nat → Word) : Warp :=
  { x with m := setP [] x.m m ((List.range 256).map fun k => f (k / 16) (k % 16)) }

/-- The code with which the register file stores 64 words (03 R68; 05 R126). -/
def blockCode (ws : List Word) : Nat :=
  let b := getP 0 ws 0
  let d := ws.map fun w => sx 32 (w - b).toNat
  let fits (n : Nat) : Bool := d.all fun x => decide (-(2 ^ (n - 1) : Nat) ≤ x) && decide (x < (2 ^ (n - 1) : Nat))
  if d.all (· == 0) then 0 else if fits 4 then 1 else if fits 8 then 2 else if fits 16 then 3 else 4
/-- Sectors of 32 bytes that a block code occupies. -/
def codeSectors (c : Nat) : Nat :=
  match c with
  | 0 => 1
  | 1 => 2
  | 2 => 3
  | 3 => 5
  | _ => 8
/-- The 64 lanes of a warp's register; numbers from 1000 on name shadow registers. -/
def Warp.column (x : Warp) (r : Nat) : List Word :=
  (List.range 64).map fun l => if 1000 ≤ r then getP 0 (x.lane l).shadow (r - 1000) else getP 0 (x.lane l).v r
/-- RFCOMP counts the writes of these registers that are stored in fewer than 8 sectors (03 R68). -/
def State.countRf (s : State) (w : Nat) (regs : List Nat) : State :=
  let x := s.warp w
  let n := (regs.filter fun r => codeSectors (blockCode (x.column r)) < 8).length
  s.onQuarter x.unit fun q => { q with rfcomp := q.rfcomp + BitVec.ofNat 32 n }

/-! ## Stall and next issue -/

/-- The warp issues again `n` cycles after this issue. -/
def State.nextIn (s : State) (n : Nat) : State := s.onMe fun x => { x with retryAt := s.now + n }
/-- The instruction stalls: it has not executed, and is tried again in the next cycle (02 R414; 09 R255). The record of
the stall keeps its first cycle and the bound of its drain set (06 R141). -/
def State.stallAs (s : State) (phase datum : Nat) : State :=
  let r : Stalled :=
    match s.me.stalled with
    | some r => if r.pc = s.ipc then { r with phase := phase, datum := datum } else ⟨s.ipc, s.now, s.seq, phase, datum⟩
    | none => ⟨s.ipc, s.now, s.seq, phase, datum⟩
  { (s.onMe fun x => { x with retryAt := s.now + 1, stalled := some r }) with issued := false }
def State.stall (s : State) : State := s.stallAs 0 0
/-- The record of an earlier try of the instruction at this address. -/
def State.tried (s : State) : Option Stalled := s.me.stalled.filter fun r => r.pc == s.ipc
/-- The first cycle of the instruction's wait, and the sequence number that bounds its drain set (06 R141). -/
def State.since (s : State) : Nat :=
  match s.tried with
  | some r => r.since
  | none => s.now
def State.bound (s : State) : Nat :=
  match s.tried with
  | some r => r.bound
  | none => s.seq
def State.datum (s : State) : Nat :=
  match s.tried with
  | some r => r.datum
  | none => 0
/-- The phase an instruction that stalled has reached; 0 at its first try. An instruction in a phase from 1 on has
issued and waits: its tries take no issue slot (02 R53). -/
def State.phase (s : State) : Nat :=
  match s.tried with
  | some r => r.phase
  | none => 0

/-! ## Faults and traps -/

/-- A fault record with only a class and an address of the instruction (15 R325). -/
def mkFault (cls : Nat) (pc : DWord) : FaultRec := ⟨cls, 0, false, false, 0, false, 0, pc, 0, false⟩
/-- The record of a fetch fault (07 R161; 15 R325). -/
def fetchRec (cls : Nat) (early : Bool) (pc addr : DWord) : FaultRec := { mkFault cls pc with fetch := early, addr := addr }
/-- log2 of an access size. -/
def sizeLog (n : Nat) : Nat := n.log2

/-- A lane parks: its PC stays at the faulting instruction and its record is latched (02 R55). -/
def Lane.park (y : Lane) (r : FaultRec) : Lane :=
  if y.st = .exited then y else { y with st := .parked, pc := r.pc, fault := some r, failing := none }

/-- The partition of a warp. -/
def State.partOf (s : State) (w : Nat) : Nat := (s.team (s.warp w).team).part

/-- A barrier phase completes in the cycle in which every warp of the team that has not retired or been ended has a
pending arrival (02 R43; 09 R242). -/
def State.checkBarrier (s : State) (t : Nat) : State :=
  let ws := (s.team t).warps.filter fun w => (s.warp w).live && (s.warp w).team == t && !(s.warp w).ended
  if ws.isEmpty || !(ws.all fun w => (s.warp w).arrived) then s
  else
    let s := ws.foldl (fun s w => s.onWarp w fun x => { x with arrived := false }) s
    s.onTeam t fun tm => { tm with phase := tm.phase + 1, phaseAt := s.now }

/-- The name of a lease that no later lease shares: leases of one sector are granted in distinct cycles (10 R271). -/
def Lease.name (x : Lease) : Nat := 1 + 8 * x.granted + x.sector
/-- A lease ends: its engines become idle, or dormant (10 R269, R272), and its record is free. -/
def State.freeLease (s : State) (l : Nat) (st : EngSt) : State :=
  let x := getP Lease.idle s.leases l
  let s : State := { s with
    engines := x.engines.foldl (fun es e => setP Engine.idle_ es e ⟨st, 0⟩) s.engines
    leases := setP Lease.idle s.leases l Lease.idle }
  -- The deliveries that waited for the lease can no longer be made (11 R299).
  if x.cls = 1 then s.later 0 .laneDelivery 0 0 x.name else s
/-- A lease slot of a team is free. -/
def Team.clearSlot (t : Team) (k : Nat) : Team := { t with leases := setP ⟨0, none, false⟩ t.leases k ⟨0, none, false⟩ }

/-- What a warp waits for outside itself is withdrawn: its arrivals at bins, its request in a lease queue (09 R255; 10 R272). -/
def State.withdraw (s : State) (w : Nat) : State :=
  let s : State := { s with
    bins := s.bins.map fun b =>
      if b.waiting.any fun a => a.warp == some w then { b with waiting := b.waiting.filter fun a => a.warp != some w } else b
    sectors := s.sectors.map fun c => if c.queue.any fun q => q.warp == w then { c with queue := c.queue.filter fun q => q.warp != w } else c }
  match s.leases.findIdx? fun l => l.live && l.waiter == some w with
  | some l =>
    let x := getP Lease.idle s.leases l
    (s.freeLease l .idle).onTeam x.team fun t => t.clearSlot x.slot
  | none => s

/-- Whether two warps belong to one sheaf (02 R35). -/
def State.sameSheaf (s : State) (v w : Nat) : Bool :=
  v != w && (s.warp v).live && (s.warp v).team == (s.warp w).team && (s.warp v).num / 4 == (s.warp w).num / 4

/-- Every warp of the sheaf that waits at a rendezvous takes the illegal-convergence trap (02 R37); none of them is in handler
mode. -/
def State.breakSheaf (s : State) (w kase : Nat) : State :=
  (List.range s.warps.length).foldl (fun s v =>
    if s.sameSheaf v w && (s.warp v).rdv.isSome then
      s.onWarp v fun x =>
        { x with rdv := none, stalled := none, choice := none, traps := x.traps ++ [⟨0x08, 0, x.rdv.getD 0, BitVec.ofNat 32 kase⟩] }
    else s) s

def State.tile (s : State) (a : Nat) : Option Tile := s.tiles.find? fun t => t.addr == a
def State.onTile (s : State) (a : Nat) (f : Tile → Tile) : State := { s with tiles := s.tiles.map fun t => if t.addr == a then f t else t }
/-- A tile closes, and its lines are ordinary cached lines again (05 R120). -/
def State.closeTile (s : State) (a : Nat) : State :=
  match s.tile a with
  | some t => { s with
      l2 := s.l2.map fun y => if t.lines.contains y.addr && !y.isRefl then { y with pinned := false } else y
      tiles := s.tiles.filter fun x => x.addr != a }
  | none => s
/-- A reference is taken (05 R121). -/
def State.takeRef (s : State) (a : Nat) : State := s.onTile a fun t => { t with refs := t.refs + 1 }
/-- A reference drops: a shading tile without references closes (05 R120, R121). -/
def State.dropRef (s : State) (a : Nat) : State :=
  let s := s.onTile a fun t => { t with refs := t.refs - 1 }
  match s.tile a with
  | some t => if t.st == .shading && t.refs == 0 then s.closeTile a else s
  | none => s
/-- The references of a warp drop as it retires or is ended (05 R121). -/
def State.dropRefs (s : State) (w : Nat) : State :=
  ((s.warp w).tiles.foldl State.dropRef s).onWarp w fun x => { x with tiles := [] }

/-- Every thread of a warp exits and its records are discarded, as by `HEND` (15 R329); the warp counts as arrived, and its tile
references drop (05 R121). -/
def State.endWarp (s : State) (w : Nat) : State :=
  ((((s.withdraw w).onWarp w fun x =>
    { x.mapLanes (fun _ y => { y with st := .exited, fault := none, failing := none }) with
      hmode := false, ended := true, traps := [], stalled := none, choice := none, portSince := none, rdv := none
      recs := [], deliv := [], failing := none }).breakSheaf w 3).checkBarrier (s.warp w).team).dropRefs w

/-- The end of a warp by a handler fault (15 R324): its record, with the address of the handler's instruction, is posted to the host,
and the partition's count rises. A warp that has ended already has no further fault. -/
def State.handlerEnd (s : State) (w : Nat) (r : FaultRec) : State :=
  if (s.warp w).ended then s
  else
    let p := s.partOf w
    let n := getP 0 s.hfcount p
    { (s.endWarp w).post (.handlerFault r) with
      hfcount := setP 0 s.hfcount p (BitVec.ofNat 64 ((n.toNat + 1) % 2 ^ 32)) }
/-- A handler fault (15 R324) of the instruction that the handler has reached. -/
def State.handlerFault (s : State) (w : Nat) (r : FaultRec) : State := s.handlerEnd w { r with pc := (s.warp w).hpc }

/-- The running lanes of a mask park with their records (02 R55); for an instruction issued in handler mode this is a handler fault
(15 R324). -/
def State.parkAs (s : State) (handler : Bool) (w : Nat) (m : BitVec 64) (f : Nat → FaultRec) : State :=
  match lanesOf m with
  | [] => s
  | l :: _ =>
    if handler then s.handlerEnd w (f l)
    else s.onWarp w fun x => x.mapLanes fun l y => if m.getLsbD l && y.st == .running then y.park (f l) else y
/-- The lanes of a mask park with their records; in handler mode this is a handler fault. -/
def State.parkLanes (s : State) (w : Nat) (m : BitVec 64) (f : Nat → FaultRec) : State :=
  s.parkAs (s.warp w).hmode w m fun l => if (s.warp w).hmode then { f l with pc := (s.warp w).hpc } else f l

/-- Every lane of `active(w)` parks with a class at the running instruction. -/
def State.parkAll (s : State) (r : FaultRec) : State := s.parkLanes s.cur s.act fun _ => r
/-- The classes that a word itself raises (0x01, 0x10) have the fetch address as their address (07 R161; 15 R325). -/
def State.faultAll (s : State) (cls : Nat) : State :=
  s.parkAll { mkFault cls s.ipc with addr := if cls = 0x01 || cls = 0x10 then s.ipc else 0 }

/-- A warp trap falls due (15 R326); in handler mode it is a handler fault (15 R324), except a pre-emption, which waits
(15 R323). -/
def State.trap (s : State) (w : Nat) (t : Trap) : State :=
  if (s.warp w).hmode && t.cls != 0x13 then
    s.handlerFault w { mkFault t.cls s.ipc with subcode := t.subcode, addr := t.addr, info := t.word }
  else s.onWarp w fun x => { x with traps := x.traps ++ [t] }

/-- The lowest-numbered due trap and the traps that stay pending (15 R326). -/
def lowestTrap : List Trap → Option (Trap × List Trap)
  | [] => none
  | t :: r =>
    match lowestTrap r with
    | none => some (t, [])
    | some (u, rest) => if u.cls < t.cls then some (u, t :: rest) else some (t, r)

/-- TRAPVEC's entry, sign-extended from bit 56 (15 R330). -/
def vectorEntry (v : DWord) : DWord := (v.setWidth 57).signExtend 64

/-- TAKING AN EXCEPTION. A warp vectors to the privileged handler (02 R56, R57; 15 R320, R326): it enters handler mode
and fetches from its partition's TRAPVEC, 24 cc after the boundary; the cause is the lowest-numbered due warp trap, or
class 0 where only lanes are parked; the operand queue is emptied; no thread's PC, meeting register, state or register
changes. A warp of its sheaf that waits at a rendezvous takes the illegal-convergence trap (02 R37), unless the vector is that of a
pre-emption, which takes the whole team out and leaves the rendezvous to be formed again (02 R38). -/
def State.takeVector (s : State) (w : Nat) : State :=
  let x := s.warp w
  let c := lowestTrap x.traps
  let t : Trap := match c with
    | some (t, _) => t
    | none => ⟨0, 0, 0, 0⟩
  let rest := match c with
    | some (_, r) => r
    | none => []
  let t1 := (s.withdraw w).setWarp w { x with
    hmode := true
    hpc := vectorEntry (getP 0 s.trapvec (s.partOf w))
    cause := t
    traps := rest
    oq := []
    retryAt := s.now + 24
    busyTo := s.now + 24
    portSince := none
    stalled := none
    choice := none
    rdv := none }
  if t.cls = 0x13 then t1 else t1.breakSheaf w 3

/-- RETURN FROM AN EXCEPTION (15 R329: `HRET`). The warp leaves handler mode and its next program issue follows 24 cc
later, its first boundary with it (15 R322, R323); the operand queue is emptied (03 R64); after a class 0x11 cause the first
issue raises no breakpoint or step trap (15 R333). -/
def State.returnVector (s : State) (w : Nat) : State :=
  s.onWarp w fun x =>
    { x with hmode := false, oq := [], retryAt := s.now + 24, busyTo := s.now + 24, dbgSkip := x.cause.cls == 0x11, cause := ⟨0, 0, 0, 0⟩ }

/-! ## Program counters -/

/-- A running thread whose PC equals its meeting register becomes held (02 R28). -/
def Lane.settle (y : Lane) : Lane :=
  if y.st = .running && y.pc == y.meet then { y with st := .held } else y

/-- Every lane of `active(w)` that is still running moves to its next address: `f l`, or the address that follows. In
handler mode the warp has one PC, and lanes that disagree on it are a handler fault (15 R321). -/
def State.moveTo (s : State) (f : Nat → Option DWord) : State :=
  let x := s.me
  if x.hmode then
    match lanesOf s.act with
    | [] => s.setMe { x with hpc := s.npc }
    | l :: r =>
      let t := (f l).getD s.npc
      if r.all fun k => (f k).getD s.npc == t then s.setMe { x with hpc := t }
      else s.handlerFault s.cur (mkFault 0 s.ipc)
  else
    s.setMe (x.mapLanes fun l y =>
      if s.act.getLsbD l && y.st == .running && y.failing.isNone then { y with pc := (f l).getD s.npc }.settle else y)

/-- The instruction is over: every lane advances, and the warp issues again `n` cycles later. -/
def State.advance (s : State) (n : Nat := 1) : State := (s.moveTo fun _ => none).nextIn n

/-! ## Checks before an instruction executes -/

/-- No vector operand reaches the allocation (03 R60); in handler mode fields 0-15 name the shadow set. -/
def Warp.regsOk (x : Warp) (sh : Shape) (o : Ops) : Bool :=
  (sh.spans o).all fun p =>
    p.2 == 0 || p.1.kind != .vec || p.1.val.toNat + p.2 ≤ x.nregs || (x.hmode && p.1.val.toNat + p.2 ≤ 16)

/-- The majors that are privileged (07 R180); `SRD` is privileged by register. -/
def privileged (maj : Nat) (o : Ops) : Bool :=
  if maj = 0xDC then
    let n := o.imm.toNat % 2 ^ 12
    !(n == 0x20 || n == 0x21 || n == 0x2C || n == 0x2F)
  else maj == 0xDD || maj == 0xDE || (0xE1 ≤ maj && maj ≤ 0xEA)

/-- The instructions barred in handler mode (15 R321). -/
def barred (maj : Nat) : Bool :=
  maj == 0x09 || maj == 0x0A || maj == 0x0B || maj == 0x0C || maj == 0x0F || maj == 0x10 || maj == 0xB4 || maj == 0xB5 ||
  maj == 0xAA || maj == 0xAB || maj == 0xAC || (0xBC ≤ maj && maj ≤ 0xC1) || maj == 0xC3 || maj == 0xC4 || maj == 0xCC

/-- The operand-queue entries that are valid now (03 R64, R66). -/
def Warp.queued (x : Warp) (now r : Nat) : Bool := x.oq.any fun e => e.1 == r && e.2 ≤ now

/-- An instruction with a vector source that is not valid in the operand queue reads the register file, which delays its
issue by 3 cc (03 R65); in handler mode every vector source does. An indexed source names a register in each lane of
`active(w)` (03 R63). -/
def State.slowOperands (s : State) (sh : Shape) (o : Ops) : Bool :=
  (sh.sources o).any fun p =>
    let out (r : Nat) : Bool := (List.range p.2.1).any fun k => !s.me.queued s.now (r + k)
    match p.1.kind with
    | .vec => s.me.hmode || out p.1.val.toNat
    | .idx => s.me.hmode || (lanesOf s.act).any fun l => out ((getP 0 (s.me.lane l).x o.ixn.toNat).toNat + p.1.val.toNat)
    | _ => false

/-- The registers that an instruction reads under last-read marks (03 R67): for an indexed source those that the lanes of `active(w)`
name; in handler mode the queue is empty. -/
def State.markRegs (s : State) (sh : Shape) (o : Ops) : List Nat :=
  if s.me.hmode then []
  else
    ((sh.spans o).drop 1).flatMap fun p =>
      let from_ (r : Nat) : List Nat := (List.range p.2).map (r + ·)
      if !p.1.lr then []
      else
        match p.1.kind with
        | .vec => from_ p.1.val.toNat
        | .idx => (lanesOf s.act).flatMap fun l => from_ ((getP 0 (s.me.lane l).x o.ixn.toNat).toNat + p.1.val.toNat)
        | _ => []
/-- The queue entries of registers are released. -/
def State.releaseMarks (s : State) (g : List Nat) : State :=
  if g.isEmpty then s else s.onMe fun x => { x with oq := x.oq.filter fun e => !g.contains e.1 }

/-- The bits of operations that have completed are in QSTAT (08 R214; 10 R266), and bits are cleared (04 R97). -/
def Team.settleQ (t : Team) (now : Nat) (clear : Word) : Team :=
  { t with
    qstat := (t.qlater.foldl (fun q e => if e.2.1 ≤ now then q ||| e.2.2 else q) t.qstat) &&& ~~~clear
    qlater := t.qlater.filter fun e => now ≤ e.2.1 }
/-- Bits that a quantising operation of warp `w` adds at cycle `at_`; the entry stands also for no bits, since `QSRD` waits for it (08 R215). -/
def Team.addQ (t : Team) (w at_ bits : Nat) : Team := { t with qlater := t.qlater ++ [(w, at_, BitVec.ofNat 32 bits)] }

/-- What stands before every instruction: the register bound (03 R60), privilege (07 R180), what handler mode bars
(15 R321); then the instruction itself, and the last-read marks once it has issued (03 R67). -/
def State.guarded (s : State) (i : Instr) (k : State → State) : State :=
  match shapeOf i, opsOf i with
  | some sh, some o =>
    if !s.me.regsOk sh o then s.faultAll 0x01
    else if privileged sh.maj o && !s.me.hmode then s.faultAll 0x10
    else if barred sh.maj && s.me.hmode then s.handlerFault s.cur (mkFault 0 s.ipc)
    else
      let t := k { s with issued := true }
      if t.issued then t.releaseMarks (s.markRegs sh o) else t
  | _, _ => k s

end Sys2Proof.Machine
end

