-- ==== Sys2Proof/Machine/Operands.lean ====
section
/-!
DEFINITION. Operand forms: every source kind and immediate (07 R164, R170, R173), special registers (03 R61), indexed
registers (03 R63), lane modifiers (03 R69-R71), and the destinations of a register instruction (07 R166; 08 R192,
R193). `execAlu` runs one register instruction over the lanes from a function of the operand values.
-/
namespace Sys2Proof.Machine

/-- The float format of a type. -/
def tyFmt : Ty → Fmt
  | .f64 => fp64
  | .h2 bf => if bf then bf16 else fp16
  | _ => fp32

/-- The exact value of a small integer in a format, as bits. -/
def intBits (f : Fmt) (n : Int) : Nat := f.round .rne (FV.ofQ (Q.ofInt n))
/-- The same 16 bits in both elements. -/
def both (h : Nat) : Nat := h % 2 ^ 16 + 2 ^ 16 * (h % 2 ^ 16)

/-- An 8-bit immediate as a value of an operand's type (07 R164; 08 R210, R211). -/
def imm8 (t : Ty) (v : BitVec 8) : Nat :=
  match t with
  | .i32 => wrapN 32 v.toInt
  | .i64 => wrapN 64 v.toInt
  | .f32 => intBits fp32 v.toInt
  | .f64 => intBits fp64 v.toInt
  | .h2 bf => both (intBits (if bf then bf16 else fp16) v.toInt)

/-- IMM32 as a value of an operand's type (07 R170). -/
def imm32 (t : Ty) (n : Nat) : Nat :=
  match t with
  | .i32 => n % 2 ^ 32
  | .i64 => wrapN 64 (sx 32 n)
  | .f32 => n % 2 ^ 32
  | .f64 => fp64.round .rne (fp32.decode (n % 2 ^ 32))
  | .h2 _ => both n

/-- IMM64 as a value of an operand's type (07 R173). -/
def imm64 (t : Ty) (n : Nat) : Nat :=
  match t with
  | .i64 => n
  | .f64 => n
  | .h2 _ => both n
  | _ => n % 2 ^ 32

/-- Source 2 of an immediate layout. -/
def immVal (o : Ops) (t : Ty) : Nat := if o.form == .w128i then imm64 t o.imm.toNat else imm32 t o.imm.toNat

/-- The cycles of a core since its reset (03 R61; log entry 8). -/
def State.cycle (s : State) (core : Nat) : Nat := s.now - (s.resetAt + Config.resetSkew core)

/-- Special registers 64-72 (03 R61; 07 R164). -/
def State.special (s : State) (l k : Nat) : Nat :=
  match k with
  | 64 => l
  | 65 => s.me.num
  | 66 => 64
  | 67 => s.myTeam.num % 2 ^ 32
  | 68 => s.myTeam.gridId.toNat
  | 69 => s.me.core
  | 70 => sectorOf s.me.core
  | 71 => s.myTeam.depth
  | _ => s.cycle s.me.core % 2 ^ 64

/-- The lane that a descriptor reads for lane `i`; none is the fill (03 R70). -/
def descLane (d : Desc) (i : Nat) : Option Nat :=
  match d.kind.toNat with
  | 1 => some d.k.toNat
  | 2 => some ((i + 64 - d.k.toNat) % 64)
  | 3 => if d.dir then (if i + d.k.toNat > 63 then none else some (i + d.k.toNat))
      else (if i < d.k.toNat then none else some (i - d.k.toNat))
  | 4 => some (i ^^^ d.k.toNat)
  | 5 => some (63 - i)
  | _ => some i

/-- The register number of an indexed operand in a lane (03 R63), without wrap. -/
def Warp.idxOf (x : Warp) (o : Ops) (l imm : Nat) : Nat := (getP 0 (x.lane l).x o.ixn.toNat).toNat + imm
/-- The bound check of an indexed operand of `n` registers (03 R63; in handler mode 15 R321). -/
def Warp.idxOk (x : Warp) (e n : Nat) : Bool :=
  e % n == 0 && (if x.hmode then e + n ≤ x.nregs else x.lo ≤ e && e + n ≤ x.hi + 1)

/-- A source register group of `n` registers in a lane, through its kind and descriptor. -/
def State.readN (s : State) (o : Ops) (op : Operand) (n l : Nat) : Nat :=
  let x := s.me
  match op.kind with
  | .scal => if op.val.toNat < 64 then x.sregN op.val.toNat n else s.special l op.val.toNat % 2 ^ (32 * n)
  | .imm => 0
  | k =>
    let g (j : Nat) : Nat := if k = .vec then x.regN j op.val.toNat n else x.ownN j (x.idxOf o l op.val.toNat) n
    match descLane op.desc l with
    | some j => g j
    | none =>
      match op.desc.fill.toNat with
      | 0 => 0
      | 1 => g l
      | _ => x.sregN op.desc.sreg.toNat n

/-- A source of a type in a lane. -/
def State.src (s : State) (o : Ops) (t : Ty) (op : Operand) (l : Nat) : Nat :=
  if op.kind = .imm then imm8 t op.val else s.readN o op t.regs l

/-- Source 2, which an immediate layout replaces. -/
def State.src2 (s : State) (o : Ops) (t : Ty) (l : Nat) : Nat :=
  if o.form.isImm then immVal o t else s.src o t o.s2 l

/-- The indexed operands of an instruction with the registers they span. -/
def idxOperands (sh : Shape) (o : Ops) : List (Nat × Nat) :=
  (sh.spans o).filterMap fun p => if p.1.kind == .idx && p.2 != 0 then some (p.1.val.toNat, p.2) else none

/-- The first indexed operand of a lane that breaks its bound: its register number. -/
def Warp.idxFault (x : Warp) (sh : Shape) (o : Ops) (l : Nat) : Option Nat :=
  (idxOperands sh o).findSome? fun p => if x.idxOk (x.idxOf o l p.1) p.2 then none else some (x.idxOf o l p.1)

/-- The index-bound fault (03 R63; 15 R325). -/
def idxRec (pc : DWord) (e : Nat) : FaultRec := { mkFault 0x07 pc with info := BitVec.ofNat 32 (e % 2 ^ 16) }

/-- The lanes that an instruction parks for an index out of bounds. -/
def State.idxBad (s : State) (sh : Shape) (o : Ops) : BitVec 64 :=
  s.me.maskOf fun l _ => s.pass o l && (s.me.idxFault sh o l).isSome
def State.parkIdx (s : State) (sh : Shape) (o : Ops) : State :=
  s.parkLanes s.cur (s.idxBad sh o) fun l => idxRec s.ipc ((s.me.idxFault sh o l).getD 0)

/-! ## Register instructions -/

/-- What a register instruction computes from in one lane: its fields, the operand values, the lane and its number. -/
structure AluIn where
  o : Ops
  a : Nat
  b : Nat
  c : Nat
  lane : Lane
  l : Nat
  /-- Source 1 as lane `j` reads it. -/
  at_ : Nat → Nat
  /-- Source 1 as the lane reads it through a lane modifier. -/
  via : Desc → Nat

/-- What it computes: the destination value, and what it writes to the predicate DST (`none` for a register
destination) and to the predicate PD. -/
structure AluOut where
  d : Nat
  dp : Option Bool
  pd : Option Bool
  deriving DecidableEq, Repr

def AluOut.val (d : Nat) : AluOut := ⟨d, none, none⟩

/-- Whether DST and PD name one predicate, whose value the spec then leaves open (log entry 1). -/
def clash (o : Ops) (r : AluOut) : Bool := r.dp.isSome && r.pd.isSome && o.pd != 0 && o.pd.toNat == o.dst.toNat

/-- The predicates that a result writes in a lane. -/
def Lane.putPreds (y : Lane) (o : Ops) (r : AluOut) (freeBit : Bool) : Lane :=
  let y := match r.dp with
    | some b => y.setPred o.dst.toNat (if clash o r then freeBit else b)
    | none => y
  match r.pd with
  | some b => y.setPred o.pd.toNat (if clash o r then freeBit else b)
  | none => y

/-- The register that a result writes in a lane: `n` registers, an index register (DST 8-11), or none. -/
def Lane.putReg (y : Lane) (x : Warp) (o : Ops) (l n : Nat) (r : AluOut) : Lane :=
  match o.kd with
  | .vec => y.setRegN x.hmode o.dst.toNat n r.d
  | .idx => y.setRegN false (x.idxOf o l o.dst.toNat) n r.d
  | .pred => if r.dp.isSome then y else y.setX (o.dst.toNat - 8) (BitVec.ofNat 16 r.d)
  | .scal => y

/-- The vector registers that an instruction writes in the lanes of a mask; numbers from 1000 on name shadow registers. -/
def Warp.written (x : Warp) (o : Ops) (m : BitVec 64) (n : Nat) : List Nat :=
  match o.kd with
  | .vec => if m == 0 then [] else (List.range n).map ((if x.hmode && o.dst.toNat < 16 then 1000 else 0) + o.dst.toNat + ·)
  | .idx => ((lanesOf m).flatMap fun l => (List.range n).map (x.idxOf o l o.dst.toNat + ·)).eraseDups
  | _ => []

/-- The results written: a vector destination in the lanes of `m` (08 R193), a scalar once, with its predicate in every
lane of `active(w)` (07 R166). -/
def State.putResults (s : State) (o : Ops) (n : Nat) (m : BitVec 64) (f : Nat → AluOut) : State :=
  let x := s.me
  let fb (l : Nat) : Bool := (Config.freeWord (s.free + l)).getLsbD 0
  let s := if o.kd == .pred && o.pd != 0 && o.pd.toNat == o.dst.toNat then { s with free := s.free + 64 } else s
  if o.kd = .scal then
    if s.act = 0 then s
    else
      let r := f 0
      s.setMe ((x.mapLanes fun l y => if s.act.getLsbD l then y.putPreds o r (fb l) else y).setSN o.dst.toNat n r.d)
  else
    (s.setMe (x.mapLanes fun l y =>
      if m.getLsbD l then (y.putReg x o l n (f l)).putPreds o (f l) (fb l) else y)).countRf s.cur (x.written o m n)

/-- The operand values of a general shape in a lane. -/
def State.aluIn (s : State) (sh : Shape) (o : Ops) (l : Nat) : AluIn :=
  ⟨o, match sh.s1 with
    | some t => s.src o t o.s1 l
    | none => 0,
   match sh.s2 with
    | some t => s.src2 o t l
    | none => 0,
   match sh.s3 with
    | some t => s.src o t o.s3 l
    | none => 0, s.me.lane l, l,
   match sh.s1 with
    | some t => fun j => s.src o t o.s1 j
    | none => fun _ => 0,
   match sh.s1 with
    | some t => fun d => s.src o t { o.s1 with desc := d } l
    | none => fun _ => 0⟩

/-- A register instruction: index bounds, then the results of the lanes that pass, all sources read before any write. -/
def State.runAlu (s : State) (sh : Shape) (o : Ops) (f : AluIn → AluOut) : State :=
  let bad := s.idxBad sh o
  let good := s.passMask o &&& ~~~bad
  let vals := (List.range 64).map fun l => if good.getLsbD l || o.kd == .scal then f (s.aluIn sh o l) else ⟨0, none, none⟩
  ((s.putResults o sh.dstRegs good fun l => getP ⟨0, none, none⟩ vals l).parkLanes s.cur bad fun l =>
    idxRec s.ipc ((s.me.idxFault sh o l).getD 0)).advance

/-- Run a register instruction of the table from its lane function. -/
def execAlu (i : Instr) (f : AluIn → AluOut) (s : State) : Out :=
  .next (s.guarded i fun s =>
    match shapeOf i, opsOf i with
    | some sh, some o => s.runAlu sh o f
    | _, _ => s)

/-- A function unit of the quarter that is busy: the instruction waits for it (08 R194). -/
def State.unitBusy (s : State) (fp64 : Bool) : Bool :=
  let q := s.quarter s.me.unit
  s.now < (if fp64 then q.fp64Free else q.unitFree)
def State.takeUnit (s : State) (fp64 : Bool) (k : Nat) : State :=
  s.onQuarter s.me.unit fun q => if fp64 then { q with fp64Free := s.now + k } else { q with unitFree := s.now + k }

/-- A register instruction that occupies a function unit for `k` cycles (08 R194). -/
def execUnit (i : Instr) (fp64 : Bool) (k : Nat) (f : AluIn → AluOut) (s : State) : Out :=
  .next (s.guarded i fun s =>
    if s.unitBusy fp64 then s.stall
    else
      match shapeOf i, opsOf i with
      | some sh, some o => (s.takeUnit fp64 k).runAlu sh o f
      | _, _ => s)

/-! ## Operands of the other families -/

/-- A warp-uniform 32-bit operand: scalar, special or immediate. -/
def State.uni (s : State) (o : Ops) (op : Operand) : Nat := s.src o .i32 op 0
/-- An even scalar pair. -/
def State.uni64 (s : State) (op : Operand) : Nat := s.me.sregN op.val.toNat 2

/-- One value of `n` registers to a scalar destination, or to every lane of `m` of a vector one. -/
def State.putUniform (s : State) (o : Ops) (n : Nat) (m : BitVec 64) (v : Nat) : State :=
  s.putResults o n m fun _ => AluOut.val v

/-- One value into the 32-bit destination, with the bound check of an indexed one (03 R63); the instruction is over. -/
def State.putPort (s : State) (sh : Shape) (o : Ops) (v : Nat) : State :=
  ((s.putUniform o 1 (s.passMask o &&& ~~~s.idxBad sh o) v).parkLanes s.cur (s.idxBad sh o) fun l =>
    idxRec s.ipc ((s.me.idxFault sh o l).getD 0)).advance

end Sys2Proof.Machine
end

