-- ==== Sys2Proof/Machine/Memory.lean ====
section
/-!
DEFINITION. Where memory lies: the cells of memory in canonical form, the paths of the die and their latencies (01 R13,
R24; 18 R373), the home of an address (17 R361; 18 R380, R385; 05 R125), the lines of the slices with their reflections
and replacement (05 R115-R118), the L1 caches (05 R114), and reads and writes performed at a home.
-/
namespace Sys2Proof.Machine

/-! ## Cells -/

/-- What an unlisted byte of the device's own memory reads as (log entry 5). -/
def zeroByte (_a : Nat) : Byte := 0
/-- What an unlisted byte of another device or of the host reads as: a free value (log entry 5). -/
def farByte (a : Nat) : Byte := Config.freeByte 0 a

/-- One byte of a cell list whose unlisted bytes read as `d`. -/
def Memory.get (d : Nat → Byte) : List Host.Cell → Nat → Byte
  | [], a => d a
  | (k, v) :: r, a => if k = a then v else Memory.get d r a

/-- The cells of the bytes `bs` from address `a` on that differ from what an unlisted byte reads as. -/
def Memory.fresh (d : Nat → Byte) : Nat → List Byte → List Host.Cell
  | _, [] => []
  | a, b :: r => if b = d a then Memory.fresh d (a + 1) r else (a, b) :: Memory.fresh d (a + 1) r

/-- The bytes `bs` written from address `a` on. -/
def Memory.put (d : Nat → Byte) (m : List Host.Cell) (a : Nat) (bs : List Byte) : List Host.Cell :=
  m.filter (fun c => c.1 < a) ++ Memory.fresh d a bs ++ m.filter fun c => a + bs.length ≤ c.1

/-- Canonical form: addresses strictly rising, and no entry equal to what an unlisted address reads as. -/
def Memory.wf (d : Nat → Byte) : List Host.Cell → Bool
  | [] => true
  | (k, v) :: r => v != d k && (r.all fun c => k < c.1) && Memory.wf d r

/-- `n` bytes from address `a` on. -/
def Memory.bytes (d : Nat → Byte) (m : List Host.Cell) (a n : Nat) : List Byte :=
  (List.range n).map fun i => Memory.get d m (a + i)

/-- Bytes as a number, the first lowest, and back. -/
def leNum : List Byte → Nat
  | [] => 0
  | b :: r => b.toNat + 256 * leNum r
def toBytes : Nat → Nat → List Byte
  | 0, _ => []
  | n + 1, v => BitVec.ofNat 8 v :: toBytes n (v / 256)

/-! ## Lines -/

/-- The first address of the 128-byte line of an address. -/
def lineOf (a : Nat) : Nat := a / 128 * 128
/-- `n` bytes of a line from byte `o` on, as a number. -/
def lineGet (d : BitVec 1024) (o n : Nat) : Nat := d.toNat / 2 ^ (8 * o) % 2 ^ (8 * n)
/-- `n` bytes of a line from byte `o` on replaced. -/
def linePut (d : BitVec 1024) (o n v : Nat) : BitVec 1024 :=
  (d &&& ~~~(BitVec.ofNat 1024 (2 ^ (8 * n) - 1) <<< (8 * o))) ||| (BitVec.ofNat 1024 (v % 2 ^ (8 * n)) <<< (8 * o))

/-! ## Compressed blocks (05 R126) -/

/-- The field width of a block code. -/
def deltaBits (code : Nat) : Nat := if code = 1 then 4 else if code = 2 then 8 else 16
/-- The bytes of a block of 64 words in the form of a code. -/
def regBlock (code : Nat) (ws : List Word) : List Byte :=
  let b := getP 0 ws 0
  let base := toBytes 4 b.toNat
  match code with
  | 0 => base ++ List.replicate 28 0
  | 4 => ws.flatMap fun w => toBytes 4 w.toNat
  | _ =>
    let n := deltaBits code
    let v := (List.range 64).foldl (fun (v : Nat) k => v + 2 ^ (n * k) * ((getP 0 ws k - b).toNat % 2 ^ n)) 0
    base ++ toBytes (32 * codeSectors code - 4) v
/-- The words of a block from its stored bytes: a reserved code reads as raw. -/
def blockWords (code : Nat) (v : Nat) : List Word :=
  let b := BitVec.ofNat 32 v
  match code with
  | 0 => List.replicate 64 b
  | 1 | 2 | 3 =>
    let n := deltaBits code
    (List.range 64).map fun k => b + BitVec.ofInt 32 (sx n (v / 2 ^ (32 + n * k) % 2 ^ n))
  | _ => (List.range 64).map fun k => BitVec.ofNat 32 (v / 2 ^ (32 * k))

/-! ## Paths -/

/-- HARVEST marks the ring link between sectors `k` and `k + 1` as absent (18 R373, R374). -/
def State.linkGone (s : State) (k : Nat) : Bool := (getP 0 s.harvest 11).getLsbD k
/-- The links of the way round from sector `i` in increasing order over `n` hops. -/
def ringLinks (i n : Nat) : List Nat := (List.range n).map fun k => (i + k) % 6
/-- Hops and bridge crossings between two sectors (01 R13; 18 R373): the shorter way, in increasing order when equal,
and the one way round that avoids an absent link. -/
def State.route (s : State) (i j : Nat) : Nat × Nat :=
  let u := (j + 6 - i) % 6
  let up := ringLinks i u
  let dn := ringLinks j ((6 - u) % 6)
  let l := if up.any s.linkGone then dn else if dn.any s.linkGone then up else if u ≤ 3 then up else dn
  (l.length, (l.filter fun k => k == 2 || k == 5).length)

/-- The hit latency from a sector to a slice (01 R24): 96 cc in the sector, else the remote figure. -/
def State.hitLat (s : State) (sec sl : Nat) : Nat :=
  if sec = sl / 16 then 96
  else
    let r := s.route sec (sl / 16)
    160 + 8 * (r.1 - 1) + 24 * r.2
/-- What the ring adds from one sector to another (06 R136; 05 R118): 64 cc + 8 cc per further hop + 24 cc a crossing. -/
def State.ringLat (s : State) (i j : Nat) : Nat :=
  if i = j then 0
  else
    let r := s.route i j
    64 + 8 * (r.1 - 1) + 24 * r.2
/-- The path of a slice-memory access (05 R118). -/
def State.slmLat (s : State) (sec sl : Nat) : Nat := 104 + s.ringLat sec (sl / 16)

/-! ## Homes -/

/-- Where a physical address is homed: a slice under an interleave domain, host memory, another device (its number, the
sector of the outgoing link and the link traversals), or nowhere. -/
inductive Home where
  | slice (dom sl : Nat)
  | host (a : Nat)
  | remote (dev sec hops : Nat)
  | absent
  deriving DecidableEq, Repr

/-- The hash of line-address bits folded to 4 bits (17 R361). -/
def fold4 : Nat → Nat → Nat
  | 0, _ => 0
  | n + 1, m => (m % 16) ^^^ fold4 n (m / 16)

/-- The committed window of a domain, as the core ports hold it (17 R360). -/
def State.window (s : State) (d : Nat) : DWord := getP 0 s.hashLive (2 * d)
def winIn (w : DWord) (g : Nat) : Bool := w.getLsbD 63 && w.toNat % 2 ^ 12 ≤ g && g ≤ w.toNat / 2 ^ 16 % 2 ^ 12
/-- The generation of a committed domain. -/
def State.domGen (s : State) (d : Nat) : Nat := (s.window d).toNat / 2 ^ 48 % 256
/-- Live first-tier capacity in MiB (05 R123). -/
def State.liveMib (s : State) : Nat := (getP 0 s.capmap 18).toNat / 2 ^ 32
/-- An address of the device's span that one of its tiers covers (05 R124, R125; 18 R395). -/
def State.covered (s : State) (a : Nat) : Bool :=
  a < s.liveMib * 2 ^ 20 || (Config.tier2 && 1024 ≤ a / 2 ^ 30 && a / 2 ^ 30 < 1072)
/-- This device's number (18 R380). -/
def State.self (s : State) : Nat := s.drcfg.toNat % 2 ^ 10
/-- The links that route a device number and are up (18 R380, R381). -/
def State.linksTo (s : State) (n : Nat) : List Nat :=
  (List.range 16).filter fun k => (getP 0 s.drroute n).getLsbD k && s.drcfg.getLsbD (16 + k)

/-- The home of a physical address for an access from partition `p` (17 R361, R364; 18 R380, R381, R385). Under private
L2 a window belongs to the partition whose sectors hold its slices. -/
def State.homeOf (s : State) (p pa : Nat) : Home :=
  let dev := pa / 2 ^ 42 % 2 ^ 10
  let a := pa % 2 ^ 42
  if dev ≠ s.self then
    if dev < 640 && (getP 0 s.drroute dev).getLsbD 31 then
      match s.linksTo dev with
      | [] => .absent
      | l :: r =>
        let k := getP 0 (l :: r) (fold4 9 (a / 2 ^ 7) % (r.length + 1))
        .remote dev (6 * k / 16) (max 1 ((getP 0 s.drroute dev).toNat / 2 ^ 16 % 16))
    else .absent
  else if a / 2 ^ 41 = 1 then (if s.hostwin.getLsbD 0 then .host (s.hostwin.toNat / 2 ^ 12 * 2 ^ 12 + a % 2 ^ 41) else .absent)
  else if !s.covered a then .absent
  else
    match (List.range 16).find? fun d => winIn (s.window d) (a / 2 ^ 30) with
    | none => .absent
    | some d =>
      let h := fold4 9 (a / 2 ^ 7 &&& (getP 0 s.hashLive (2 * d + 1)).toNat % 2 ^ 35)
      let sl := (getP 0 s.sliceLive (16 * d + h)).toNat % 2 ^ 7
      if s.partcfg.getLsbD 2 && s.partOfSector (sl / 16) ≠ p then .absent else .slice d sl

/-- The partition whose slices an agent of no partition uses: the one that owns the address. -/
def State.homeAny (s : State) (pa : Nat) : Home :=
  ((List.range 6).map fun p => s.homeOf p pa).find? (fun h => h != .absent) |>.getD .absent

/-! ## Stacked memory (18 R390-R394) -/

/-- The map generation, and the stack of a first-tier address: the capacity of stack 0 comes first (05 R123; 18 R395). -/
def State.mapGen (s : State) : Nat := (getP 0 s.capmap 18).toNat / 2 ^ 24 % 256
def State.stackOf (s : State) (a : Nat) : Nat := if a % 2 ^ 42 < 2 ^ 20 * getP 0 s.stackMib 0 then 0 else 1
/-- The column of a line, its layer and its position (log entry 31). -/
def State.column (s : State) (la : Nat) : Column × Nat × Nat :=
  let b := Config.bankOf s.mapGen la
  (getP Column.whole s.columns (64 * s.stackOf la + b.1), b.2.1, b.2.2)
/-- A line of a failed column that can no longer be read (18 R394). -/
def Column.unreadable (c : Column) (layer pos : Nat) : Bool :=
  c.mode == 3 && (c.failed.contains layer || (if pos < c.glean then c.failed.contains c.parity && layer == c.lost else layer == c.lost))
/-- The columns that are not whole: none on a part without losses. -/
def State.lossy (s : State) : Bool := s.columns.any fun c => c.mode != 0
/-- A line whose miss reads the other eight banks of its column (18 R392, R393). -/
def State.rebuilt (s : State) (la : Nat) : Bool :=
  let (c, layer, pos) := s.column la
  c.mode == 1 && layer == c.lost && c.glean ≤ pos
/-- The latency that a miss adds (01 R24; 18 R392, R393): none for a line that cannot be read. -/
def State.tierLat (s : State) (la : Nat) : Option Nat :=
  if 1024 ≤ la % 2 ^ 42 / 2 ^ 30 then some 560
  else if !s.lossy then some 340
  else
    let (c, layer, pos) := s.column la
    if c.unreadable layer pos then none
    else if s.rebuilt la then some 460
    else some 340

/-! ## Queues (05 R117; 18 R382) -/

/-- A request joins the queue of a unit at cycle `at_`: it waits one quantum for each earlier request there, and leaves a quantum after its
turn (log entry 124). -/
def State.enqueue (s : State) (unit quantum at_ : Nat) : State × Nat :=
  let n := (s.queues.filter fun q => q.unit == unit && q.from_ ≤ at_ && at_ < q.until_).length
  ({ s with queues := s.queues ++ [⟨unit, at_, at_ + quantum * (n + 1)⟩] }, quantum * n)
/-- The link on which a request to a physical address travels (18 R381). -/
def State.linkOf (s : State) (pa : Nat) : Option Nat :=
  let dev := pa / 2 ^ 42 % 2 ^ 10
  if dev = s.self || 640 ≤ dev || !(getP 0 s.drroute dev).getLsbD 31 then none
  else match s.linksTo dev with
    | [] => none
    | l :: r => some (getP 0 (l :: r) (fold4 9 (pa / 2 ^ 7 % 2 ^ 35) % (r.length + 1)))
/-- A request that leaves a sector at cycle `t` for another device waits 8 cc at its link for each flit ahead of it (18 R382): each
request is one flit (log entry 124). -/
def State.linkWait (s : State) (p sec la t : Nat) : State × Nat :=
  match s.homeOf p la, s.linkOf la with
  | .remote _ l _, some k => s.enqueue (4096 + k) 8 (t + s.hitLat sec (16 * l) / 2)
  | _, _ => (s, 0)
/-- A bank of layer `l` in the column of a line of stacked memory, and the GDDR 7 device of a granule (05 R125). -/
def State.bankUnit (s : State) (la l : Nat) : Nat := 16 * (64 * s.stackOf la + (Config.bankOf s.mapGen la).1 % 64) + l
def gddrUnit (la : Nat) : Nat := 2048 + (la % 2 ^ 42 - 2 ^ 40) / 256 % 16
/-- The banks that a read of a line takes, with their quantum (05 R117, R125; 18 R392). -/
def State.banksOf (s : State) (la : Nat) : List Nat × Nat :=
  if 1024 ≤ la % 2 ^ 42 / 2 ^ 30 then ([gddrUnit la], 64)
  else
    let layer := (Config.bankOf s.mapGen la).2.1
    (if s.lossy && s.rebuilt la then ((List.range 9).filter (· != layer)).map (s.bankUnit la) else [s.bankUnit la layer], 48)
/-- A request to the memory of a line at cycle `at_`: the cycles it waits for the slowest of its banks. -/
def State.bankWait (s : State) (la at_ : Nat) : State × Nat :=
  let (us, q) := s.banksOf la
  us.foldl (fun a u => let r := a.1.enqueue u q at_; (r.1, max a.2 r.2)) (s, 0)

/-! ## Lines of the slices -/

/-- The set of a line within its slice (05 R115). -/
def setOf (la : Nat) : Nat := la / 2 ^ 11 % 2048
/-- The carve-out of a slice in MiB (05 R118; log entry 33). -/
def State.carve (s : State) (sl : Nat) : Nat := min 2 ((getP 0 s.slmcarve sl).toNat % 4)

/-- The 256-byte block of an address (05 R126). -/
def blockOf (a : Nat) : Nat := a / 256 * 256
/-- The code of a block: a mapping starts every code at 4 (05 R127). -/
def State.codeOf (s : State) (la : Nat) : Nat := (lookupN s.codes (blockOf la)).getD 4
/-- The other line of a compressible block (05 R126). -/
def buddy (la : Nat) : Nat := if la / 128 % 2 = 0 then la + 128 else la - 128
/-- The lines that a slice holds together: the block of a line that an access has reached through a compressible page (05 R115, R127). -/
def State.blockLines (s : State) (la : Nat) : List Nat := if (lookupN s.codes (blockOf la)).isSome then [la, buddy la] else [la]
/-- A block that an access has reached through a compressible page. -/
def State.markBlock (s : State) (la : Nat) : State :=
  if (lookupN s.codes (blockOf la)).isSome then s else { s with codes := (blockOf la, 4) :: s.codes }
/-- The 64 words of a block from its stored bytes. -/
def State.dramBlock (s : State) (la : Nat) : List Word :=
  blockWords (s.codeOf la) (leNum (Memory.bytes zeroByte s.dram (blockOf la) 256))
/-- A line from the words of its block, and words of a line. -/
def lineOfBlock (ws : List Word) (la : Nat) : BitVec 1024 :=
  BitVec.ofNat 1024 (leNum (((ws.drop (la % 256 / 4)).take 32).flatMap fun w => toBytes 4 w.toNat))
def lineWords (d : BitVec 1024) : List Word := (List.range 32).map fun k => BitVec.ofNat 32 (lineGet d (4 * k) 4)
/-- A line of stacked memory or GDDR 7: expanded from its block where that is stored compressed (05 R127). -/
def State.dramLine (s : State) (la : Nat) : BitVec 1024 :=
  if s.codeOf la < 4 then lineOfBlock (s.dramBlock la) la else BitVec.ofNat 1024 (leNum (Memory.bytes zeroByte s.dram la 128))
def State.setDram (s : State) (a : Nat) (bs : List Byte) : State := { s with dram := Memory.put zeroByte s.dram a bs }
/-- A block stored under the lowest code that holds its words (05 R126, R127); the bytes past its sectors are zero. -/
def State.storeBlock (s : State) (b : Nat) (ws : List Word) : State :=
  let c := blockCode ws
  let bs := regBlock c ws
  { s.setDram b (bs ++ List.replicate (256 - bs.length) 0) with codes := (b, c) :: s.codes.filter fun p => p.1 != b }
/-- A line stored in memory: in its block where the block has a code, else as it is. -/
def State.storeLine (s : State) (la : Nat) (d : BitVec 1024) : State :=
  match lookupN s.codes (blockOf la) with
  | none => s.setDram la (toBytes 128 d.toNat)
  | some _ =>
    let ws := s.dramBlock la
    s.storeBlock (blockOf la) (if la % 256 = 0 then lineWords d ++ ws.drop 32 else ws.take 32 ++ lineWords d)

/-- The home copy of a line in a slice, and the reflection that a sector hits now (05 R115, R116). -/
def State.homeCopy (s : State) (la : Nat) : Option L2Line := s.l2.find? fun x => x.addr == la && !x.isRefl
def L2Line.hits (x : L2Line) (now : Nat) : Bool :=
  x.from_ ≤ now && (match x.goneAt with
    | some t => now < t
    | none => true)
def State.reflection (s : State) (sec la : Nat) : Option L2Line :=
  s.l2.find? fun x => x.addr == la && x.isRefl && x.slice / 16 == sec && x.hits s.now

/-- A line written back to memory (05 R115): nothing for a clean line. A poisoned line leaves memory poisoned (18 R376). -/
def State.writeBack (s : State) (x : L2Line) : State :=
  if x.isRefl || !x.dirty then s
  else
    let s := (s.storeLine x.addr x.data).bankWait x.addr s.now |>.1
    { s with poisoned := if x.poison then x.addr :: s.poisoned.erase x.addr else s.poisoned.erase x.addr }

/-- A line leaves its slice: written back, and its reflections invalidated (05 R115). -/
def State.evict (s : State) (x : L2Line) : State :=
  let s := s.writeBack x
  { s with l2 := if x.isRefl then s.l2.filter (fun y => !(y.isRefl && y.addr == x.addr && y.slice == x.slice))
                 else s.l2.filter fun y => y.addr != x.addr }

/-- A line that replacement may not take (05 R115): pinned, or waiting on a recall. -/
def State.fixed (s : State) (x : L2Line) : Bool :=
  x.pinned || x.slm || (!x.isRefl && s.reqs.any fun r => r.live && r.waits && r.line == x.addr)

/-- A line brought into its slice as the most recently used of its set, the least recently used line that may go giving
way (05 R115). When every way holds a line that stays, nothing is allocated, and a dirty line goes to memory. -/
def State.l2Insert (s : State) (e : L2Line) : State :=
  let s : State := if s.filledSlices.contains e.slice then s else { s with filledSlices := e.slice :: s.filledSlices }
  let set := s.l2.filter fun x => !x.slm && x.slice == e.slice && setOf x.addr == setOf e.addr
  if e.slm || set.length < 16 - 4 * s.carve e.slice then { s with l2 := e :: s.l2 }
  else
    match set.reverse.find? fun x => !s.fixed x with
    | some v => { s.evict v with l2 := e :: (s.evict v).l2 }
    | none => s.writeBack e

/-- The home copy becomes the most recently used line. -/
def State.l2Touch (s : State) (x : L2Line) : State :=
  { s with l2 := x :: s.l2.filter fun y => !(y.addr == x.addr && y.isRefl == x.isRefl && y.slice == x.slice) }

/-- The slice-resident lines of a slice. -/
def State.slmLines (s : State) (sl : Nat) : Nat := (s.l2.filter fun x => x.slm && x.slice == sl).length

/-- A line at its home slice, brought in from memory on a miss (05 R115, R118): the state, the line, and the latency that
a miss adds, with the wait at its bank (05 R117). None: the line cannot be read, or a slice-resident line finds no room in the carve-out. A write keeps what
it writes when nothing can be allocated, since the caller puts the line back with `l2Touch` or memory. -/
def State.fetchHome (s : State) (sl la : Nat) (slm : Bool) : Option (State × L2Line × Nat) :=
  match s.homeCopy la with
  | some x => if x.from_ ≤ s.now then some (s.l2Touch x, x, 0) else some (s, x, (s.tierLat la).getD 0)
  | none =>
    match s.tierLat la with
    | none => none
    | some lat =>
      let (s, wait) := if slm then (s, 0) else s.bankWait la s.now
      let t := lat + wait
      let e : L2Line := ⟨la, sl, false, s.dramLine la, false, s.poisoned.contains la, false, slm, 0, if slm then s.now else s.now + t, none⟩
      if slm then
        if s.slmLines sl < 8192 * s.carve sl then some (s.l2Insert e, e, 0) else none
      else some (s.l2Insert e, e, t)

/-- The contents of a line at its home, without effect on the caches. -/
def State.peekLine (s : State) (la : Nat) : BitVec 1024 :=
  match s.homeCopy la with
  | some x => x.data
  | none => s.dramLine la

/-- The cycles until every reflection of a line has acknowledged its invalidation (05 R116; 06 R136): those that a write sends now,
and those that an earlier write has sent. -/
def State.invalLat (s : State) (sl la : Nat) : Nat :=
  let ls := s.blockLines la
  s.l2.foldl (fun m x =>
    if x.isRefl && ls.contains x.addr then
      let n := s.ringLat (sl / 16) (x.slice / 16)
      max m (match x.goneAt with
        | none => n
        | some t => t + (n - n / 2) - s.now)
    else m) 0

/-- Every reflection of a line is revoked: it serves until the invalidation reaches it (06 R137, R150). A reflection of a compressible
line holds the block (05 R116), and goes with it. -/
def State.revoke (s : State) (sl la : Nat) : State :=
  let ls := s.blockLines la
  { s with l2 := s.l2.map fun x =>
      if x.isRefl && ls.contains x.addr && x.goneAt.isNone then { x with goneAt := some (s.now + s.ringLat (sl / 16) (x.slice / 16) / 2) } else x }

/-- A line that a store, a copy or an engine writes: it stands in its slice at once, and no tier latency is added (06 R136). -/
def L2Line.held (x : L2Line) (t : Nat) : L2Line := { x with from_ := min x.from_ t }
/-- A write performed at the home of a line (06 R132, R136): the line becomes dirty, its published state is cleared
(06 R156) and its reflections are revoked. A write of the whole line clears poison (18 R376). -/
def State.putHome (s : State) (sl : Nat) (x : L2Line) (d : BitVec 1024) (whole : Bool) : State :=
  let e := { x with data := d, dirty := true, poison := x.poison && !whole }
  let s := s.revoke sl x.addr
  let s := { s with published := s.published.erase x.addr }
  if (s.homeCopy x.addr).isSome then s.l2Touch e else s.writeBack e

/-- The generation of the next grant of a line, and its grant (06 R150). -/
def State.nextGrant (s : State) (la : Nat) : Nat := ((lookupN s.gens la).getD 0 + 1) % 2 ^ 16
def State.countGrant (s : State) (la : Nat) : State := { s with gens := (la, s.nextGrant la) :: s.gens.filter fun p => p.1 != la }

/-- A reflection granted to a sector (05 R116), under the line's next generation (06 R150), standing from cycle `at_`. -/
def State.grant (s : State) (sec sl la at_ : Nat) (d : BitVec 1024) : State :=
  let g := s.nextGrant la
  let s := { s.countGrant la with l2 := s.l2.filter fun x => !(x.isRefl && x.addr == la && x.slice / 16 == sec) }
  s.l2Insert ⟨la, 16 * sec + sl % 16, true, d, false, false, false, false, g, at_, none⟩

/-- A home read makes no reflection of these lines (05 R116; 18 R376). -/
def L2Line.noRefl (x : L2Line) : Bool := x.slm || x.pinned || x.poison
/-- A line on which an atomic or reduce packet is pending at home is not reflected either (05 R116). -/
def State.noRefl (s : State) (x : L2Line) : Bool :=
  x.noRefl || s.reqs.any fun r => r.live && r.waits && r.line == x.addr && (match (getP MemOp.idle s.memops r.op).req with
    | .atomic _ _ _ => true
    | _ => false)
/-- The reflections of a line that one sector holds go at once (06 R147). -/
def State.dropRefl (s : State) (sec la : Nat) : State :=
  let ls := s.blockLines la
  { s with l2 := s.l2.filter fun x => !(x.isRefl && ls.contains x.addr && x.slice / 16 == sec) }

/-! ## L1 and instruction caches -/

def State.l1Line (s : State) (core la : Nat) : Option CLine := s.l1.find? fun x => x.core == core && x.addr == la
/-- Eight ways of 128 sets: the ninth line of a set, least recently used, goes (05 R114). -/
def dropNinth (core set : Nat) : Nat → List CLine → List CLine
  | _, [] => []
  | n, x :: r =>
    if x.core = core && x.addr / 128 % 128 = set then
      match n with
      | 0 => r
      | n + 1 => x :: dropNinth core set n r
    else x :: dropNinth core set n r
def State.l1Drop (s : State) (core la : Nat) : State :=
  { s with l1 := s.l1.filter fun x => !(x.core == core && x.addr == la) }
def State.l1Fill (s : State) (core la : Nat) (d : BitVec 1024) : State :=
  { s with l1 := dropNinth core (la / 128 % 128) 8 (⟨core, la, d⟩ :: (s.l1Drop core la).l1) }
/-- A line is dropped from the L1 of a core, with what its requests have captured for it. -/
def State.l1Kill (s : State) (core la : Nat) : State :=
  let s := s.l1Drop core la
  { s with reqs := s.reqs.map fun r => if r.core == core && r.line == la then { r with captured := none } else r }
/-- The copies of a line in the L1 of a core, and those on their way to it, take the value that a load around the L1 has
returned: no later load of the core returns an older one (06 R134, R137). No line is allocated. -/
def State.l1Renew (s : State) (core la : Nat) (d : BitVec 1024) : State :=
  { s with
    l1 := s.l1.map fun x => if x.core == core && x.addr == la then { x with data := d } else x
    reqs := s.reqs.map fun r => if r.core == core && r.line == la then { r with captured := r.captured.map fun _ => d } else r }
/-- Every global line of a core's L1 is invalidated (06 R138; 09 R229). -/
def State.l1Clear (s : State) (core : Nat) : State :=
  { s with
    l1 := s.l1.filter fun x => x.core != core
    reqs := s.reqs.map fun r => if r.core == core then { r with captured := none } else r }
/-- The published state of a line (06 R156), and the instruction-cache copies of a range that some cores hold. -/
def State.icacheDrop (s : State) (cores : Nat → Bool) (lo hi : Nat) : State :=
  { s with icache := s.icache.filter fun x => !(cores x.core && lo ≤ x.addr && x.addr < hi) }

/-! ## Whole accesses at the home, for engines, walks, dispatchers and the host -/

/-- A key of the far memory: an address of another device, or of the host above 2^52. -/
def farKey (pa : Nat) : Home → Nat
  | .host a => 2 ^ 52 + a
  | _ => pa

/-- One byte at its home. -/
def State.peekByte (s : State) (pa : Nat) : Byte :=
  match s.homeAny pa with
  | .host a => Memory.get farByte s.remote (2 ^ 52 + a)
  | .remote _ _ _ => Memory.get farByte s.remote pa
  | _ => BitVec.ofNat 8 (lineGet (s.peekLine (lineOf pa)) (pa % 128) 1)
/-- `n` bytes at their homes, as a number. -/
def State.peek (s : State) (pa n : Nat) : Nat := leNum ((List.range n).map fun i => s.peekByte (pa + i))

/-- Bytes written at the home of one line, as one event (06 R144). -/
def State.pokeLine (s : State) (pa : Nat) (bs : List Byte) : State :=
  match s.homeAny pa with
  | .host a => { s with remote := Memory.put farByte s.remote (2 ^ 52 + a) bs, published := s.published.erase (lineOf pa) }
  | .remote _ _ _ => { s with remote := Memory.put farByte s.remote pa bs, published := s.published.erase (lineOf pa) }
  | .slice _ sl =>
    match s.fetchHome sl (lineOf pa) false with
    | some (s, x, _) => s.putHome sl (x.held s.now) (linePut x.data (pa % 128) bs.length (leNum bs)) (bs.length == 128)
    | none => s
  | .absent => s
/-- Bytes written at their homes, line by line; `fuel` bounds the lines. -/
def State.poke (s : State) : Nat → Nat → List Byte → State
  | 0, _, _ => s
  | fuel + 1, pa, bs =>
    if bs.isEmpty then s
    else
      let n := 128 - pa % 128
      (s.pokeLine pa (bs.take n)).poke fuel (pa + n) (bs.drop n)
def State.pokeBytes (s : State) (pa : Nat) (bs : List Byte) : State := s.poke (bs.length / 128 + 2) pa bs
def State.pokeNum (s : State) (pa n v : Nat) : State := s.pokeBytes pa (toBytes n v)

/-- A block is encoded again, from its words as they stand at home (05 R127). -/
def State.recode (s : State) (la : Nat) : State :=
  let b := blockOf la
  s.storeBlock b (lineWords (s.peekLine b) ++ lineWords (s.peekLine (b + 128)))
/-- The blocks of a range start raw again, with the bytes that they hold (05 R127). -/
def State.rawBlocks (s : State) (lo hi : Nat) : State :=
  (s.codes.filter fun p => lo ≤ p.1 && p.1 < hi).foldl (fun s p =>
    { s.setDram p.1 ((s.dramBlock p.1).flatMap fun w => toBytes 4 w.toNat) with codes := s.codes.filter fun q => q.1 != p.1 }) s

end Sys2Proof.Machine
end

