-- ==== Sys2Proof/Machine/Translate.lean ====
section
/-!
DEFINITION. Address translation (chapter 16): the table tree and its malformed entries (R338-R341), permissions (R342),
the two levels of TLB, and the hardware walks (R343-R345).
-/
namespace Sys2Proof.Machine

/-- The bytes of a page of size code `k` (16 R339). -/
def pageBytes (k : Nat) : Nat := 2 ^ (12 + 2 * k)
/-- Bits 63:57 equal bit 56 (05 R109). -/
def canonical (va : Nat) : Bool := va / 2 ^ 56 % 256 == 0 || va / 2 ^ 56 % 256 == 255

/-! ## TLBs -/

def TlbEnt.covers (e : TlbEnt) (asid va : Nat) : Bool :=
  (e.glob || e.asid == asid) && va / pageBytes e.size == e.va / pageBytes e.size
/-- The TLB unit of a sector. -/
def sectorUnit (sec : Nat) : Nat := 576 + sec
def State.tlbFind (s : State) (unit asid va : Nat) : Option TlbEnt := s.tlb.find? fun e => e.unit == unit && e.covers asid va
/-- An entry as the most recently used of its TLB. -/
def State.tlbTouch (s : State) (e : TlbEnt) : State := { s with tlb := e :: s.tlb.erase e }
/-- The entries of a unit past the first `n` are dropped. -/
def dropPast (unit : Nat) : Nat → List TlbEnt → List TlbEnt
  | _, [] => []
  | n, e :: r =>
    if e.unit = unit then
      match n with
      | 0 => dropPast unit 0 r
      | n + 1 => e :: dropPast unit n r
    else e :: dropPast unit n r
/-- An entry filled into a TLB of 64 entries (a core) or 4,096 (a sector) (16 R343). -/
def State.tlbFill (s : State) (e : TlbEnt) : State :=
  let old := s.tlb.filter fun x => !(x.unit == e.unit && x.asid == e.asid && x.glob == e.glob && x.va == e.va && x.size == e.size)
  { s with tlb := dropPast e.unit (if e.unit < 576 then 64 else 4096) (e :: old) }

/-! ## The tree -/

/-- What a walk finds: the entries read, the leaf or the class of its failure, and a malformed entry with its level. -/
structure WalkRes where
  reads : List Nat
  leaf : Option TlbEnt
  cls : Nat
  bad : Option (Nat × Nat)
  deriving DecidableEq, Repr

/-- A leaf entry at level `j` is well formed (16 R341). -/
def leafOk (e j : Nat) : Bool :=
  e / 2 ^ 52 % 16 == 0 && e / 2 ^ 6 % 2 == 0 && j < 6 && e / 4 % 16 / 3 == j && e / 2 ^ 12 % 2 ^ (2 * (e / 4 % 16)) == 0
/-- A pointer entry at level `j` is well formed (16 R340, R341). -/
def pointerOk (e j : Nat) : Bool := e / 2 ^ 52 == 0 && e / 4 % 2 ^ 7 == 0 && j != 0

/-- The leaf as a TLB entry. -/
def leafEnt (asid va e : Nat) : TlbEnt :=
  let k := e / 4 % 16
  ⟨0, asid, e / 2 ^ 11 % 2 == 1, va / pageBytes k * pageBytes k, e % 2 ^ 52 / 2 ^ 12 * 2 ^ 12, k, e / 2 ^ 7 % 2 == 1,
    e / 2 ^ 8 % 2 == 1, e / 2 ^ 9 % 2 == 1 && e / 2 ^ 8 % 2 == 0, e / 2 ^ 10 % 2 == 1, 0⟩

/-- Whether a line can be reached: its home exists, and it is cached or can be read (05 R124; 18 R394). -/
def State.reachable (s : State) (p pa : Nat) : Bool :=
  s.homeOf p pa != .absent && ((s.homeCopy (lineOf pa)).isSome || (s.tierLat (lineOf pa)).isSome)

/-- The walk from level `j` (the first argument is `j + 1`) of table `t` down (16 R338). -/
def State.walkFrom (s : State) (p asid va : Nat) : Nat → Nat → List Nat → WalkRes
  | 0, _, rs => ⟨rs, none, 4, none⟩
  | j + 1, t, rs =>
    let a := t + 8 * (va / 2 ^ (12 + 6 * j) % (if j = 7 then 8 else 64))
    if !s.reachable p a then ⟨rs, none, 0x0D, none⟩
    else
      let e := s.peek a 8
      let rs := rs ++ [a]
      if e % 2 = 0 then ⟨rs, none, 4, none⟩
      else if e / 2 % 2 = 1 then
        if leafOk e j then ⟨rs, some (leafEnt asid va e), 0, none⟩ else ⟨rs, none, 4, some (a, j)⟩
      else if pointerOk e j then s.walkFrom p asid va j (e / 2 ^ 9 * 2 ^ 9) rs
      else ⟨rs, none, 4, some (a, j)⟩

/-- A walk from the ASID table (16 R337). -/
def State.walkTables (s : State) (p asid va : Nat) : WalkRes :=
  let a := s.asidtab.toNat / 2 ^ 18 % 2 ^ 34 * 2 ^ 18 + 16 * asid
  if !s.asidtab.getLsbD 0 then ⟨[], none, 4, none⟩
  else if !s.reachable p a then ⟨[], none, 0x0D, none⟩
  else
    let e := s.peek a 8
    if e % 2 = 0 then ⟨[], none, 4, none⟩
    else if e / 2 % 2 ^ 5 ≠ 0 || e / 2 ^ 52 ≠ 0 || s.peek (a + 8) 8 ≠ 0 then ⟨[], none, 4, some (a, 8)⟩
    else s.walkFrom p asid va 8 (e / 2 ^ 6 * 2 ^ 6) []

/-- One read of a walk from a sector, made at cycle `t`: the line is brought in when the read arrives (06 R415), and the
read takes the path, the tier on a miss, and 4 cc (16 R343). -/
def State.walkRead (s : State) (p sec a t : Nat) : State × Nat :=
  match s.homeOf p a with
  | .slice _ sl =>
    match ({ s with now := t + s.hitLat sec sl / 2 } : State).fetchHome sl (lineOf a) false with
    | some (u, _, x) => ({ u with now := s.now }, t + s.hitLat sec sl + x + 4)
    | none => (s, t + s.hitLat sec sl + 4)
  | .remote _ l h => (s, t + s.hitLat sec (16 * l) + 640 * h + 96 + 4)
  | _ => (s, t + s.hitLat sec 0 + 400 + 4)
/-- The reads of a walk from cycle `t` on, one after another, and the cycle in which the last has returned. -/
def State.walkReads (s : State) (p sec : Nat) : List Nat → Nat → State × Nat
  | [], t => (s, t)
  | a :: r, t =>
    let (s, t) := s.walkRead p sec a t
    s.walkReads p sec r t

/-- The cycle in which a walk may start in a sector that holds at most 256 in flight (16 R344). -/
def insertNat (n : Nat) : List Nat → List Nat
  | [] => [n]
  | x :: r => if n < x then n :: x :: r else x :: insertNat n r
def State.walkSlot (s : State) (sec t : Nat) : Nat :=
  let ends := ((s.walks.filter fun k => k.live && k.sector == sec && t < k.endAt).map (·.endAt)).foldr insertNat []
  if ends.length < 256 then t else max t (getP 0 ends (ends.length - 256))

/-- A walk in flight in a sector for a page. -/
def State.walkOf (s : State) (sec asid va : Nat) : Option Nat :=
  s.walks.findIdx? fun k =>
    k.live && k.sector == sec && !k.barred &&
    (match k.leaf with
    | some e => e.covers asid va
    | none => k.asid == asid && k.page == va / 4096)

/-- A walk is started for a page of an address space; the TLBs are filled when it ends. -/
def State.startWalk (s : State) (p sec : Nat) (cores : List Nat) (asid va t : Nat) : State × Walk :=
  let r := s.walkTables p asid va
  let t := s.walkSlot sec t
  let (s, e) := s.walkReads p sec r.reads t
  let k : Walk := ⟨true, sec, cores, asid, va / 4096, e, r.leaf, r.cls, r.bad, false⟩
  let i := freeSlot Walk.live s.walks
  ({ s with walks := setP Walk.idle s.walks i k }.schedule e (.ev .tlbWalkComplete ⟨i, 0, 0, 0, []⟩), k)

/-- The translation of a page: the cycle it is ready, and the leaf or the class of its failure. -/
structure Xlate where
  ready : Nat
  ent : Option TlbEnt
  cls : Nat
  deriving DecidableEq, Repr

/-- A lookup in a sector's TLB at cycle `t`, with a walk on a miss: `cores` are filled when it ends (16 R343). -/
def State.sectorLookup (s : State) (p sec : Nat) (cores : List Nat) (asid va t : Nat) : State × Xlate :=
  match s.tlbFind (sectorUnit sec) asid va with
  | some e =>
    let s := s.tlbTouch e
    (cores.foldl (fun s c => s.tlbFill { e with unit := c, from_ := max t e.from_ }) s, ⟨max t e.from_, some e, 0⟩)
  | none =>
    match s.walkOf sec asid va with
    | some i =>
      let k := getP Walk.idle s.walks i
      ({ s with walks := setP Walk.idle s.walks i { k with cores := k.cores ++ cores.filter fun c => !k.cores.contains c } },
        ⟨max t k.endAt, k.leaf, k.cls⟩)
    | none =>
      let (s, k) := s.startWalk p sec cores asid va t
      (s, ⟨k.endAt, k.leaf, k.cls⟩)

/-- A lookup in a core's TLB at cycle `t` (16 R343). -/
def State.coreLookup (s : State) (p core asid va t : Nat) : State × Xlate :=
  match s.tlbFind core asid va with
  | some e => (s.tlbTouch e, ⟨max t e.from_, some e, 0⟩)
  | none => s.sectorLookup p (sectorOf core) [core] asid va (t + 40)

/-- The physical address of a virtual one through a leaf. -/
def TlbEnt.phys (e : TlbEnt) (va : Nat) : Nat := e.pa + va % pageBytes e.size

end Sys2Proof.Machine
end

