-- ==== Sys2Proof/Machine/Access.lean ====
section
/-!
DEFINITION. A memory instruction under way (09 R222-R227; 06 R134-R149, R415): the checks of its accesses, its line requests
and their sending, what a request does when it arrives at its home, and what its reply or acknowledgement completes.
-/
namespace Sys2Proof.Machine

/-- No access. -/
def Acc.none_ : Acc := ⟨0, 0, 0, 0, 0, 0, false, false, none⟩
/-- An access of an operation by its place. -/
def MemOp.acc (m : MemOp) (k : Nat) : Acc := getP Acc.none_ m.accs k
def State.memop (s : State) (i : Nat) : MemOp := getP MemOp.idle s.memops i
def State.onMemop (s : State) (i : Nat) (f : MemOp → MemOp) : State := { s with memops := setP MemOp.idle s.memops i (f (s.memop i)) }
def State.req (s : State) (i : Nat) : Req := getP Req.idle s.reqs i
def State.onReq (s : State) (i : Nat) (f : Req → Req) : State := { s with reqs := setP Req.idle s.reqs i (f (s.req i)) }
def State.addMemop (s : State) (m : MemOp) : State × Nat :=
  let i := freeSlot MemOp.live s.memops
  ({ s with memops := setP MemOp.idle s.memops i m }, i)
def State.addReq (s : State) (r : Req) : State × Nat :=
  let i := freeSlot Req.live s.reqs
  ({ s with reqs := setP Req.idle s.reqs i r }, i)

/-! ## Counters (07 R178) -/

def Warp.ctr (x : Warp) : Ctr → Nat
  | .ld => x.ld
  | .st => x.st
  | .cp => x.cp
  | .tl => x.tl
  | .none => 0
def Warp.onCtr (x : Warp) (c : Ctr) (f : Nat → Nat) : Warp :=
  match c with
  | .ld => { x with ld := f x.ld }
  | .st => { x with st := f x.st }
  | .cp => { x with cp := f x.cp }
  | .tl => { x with tl := f x.tl }
  | .none => x
/-- A full counter: 63 operations, or 15 on TL (07 R178). -/
def Warp.ctrFull (x : Warp) (c : Ctr) : Bool :=
  match c with
  | .none => false
  | .tl => 15 ≤ x.tl
  | c => 63 ≤ x.ctr c
/-- A counter falls by one; the place is free from the next cycle on (02 R414). -/
def Warp.lower (x : Warp) (now : Nat) (c : Ctr) : Warp :=
  { x.onCtr c (· - 1) with lowered := (now, c :: (if x.lowered.1 = now then x.lowered.2 else [])) }
/-- The counter has no place for another operation in this cycle (02 R414; 07 R178). -/
def State.noRoom (s : State) (c : Ctr) : Bool :=
  let x := s.me
  x.ctrFull c || (x.lowered.1 == s.now && (x.onCtr c (· + x.lowered.2.count c)).ctrFull c)
def State.count (s : State) (w : Nat) (c : Ctr) (f : Nat → Nat) : State := s.onWarp w fun x => x.onCtr c f

/-- A prefetch into the home slice alone neither makes nor uses a reflection (09 R229). -/
def MemOp.mayReflect (m : MemOp) : Bool := m.kind != .prefetch false

/-! ## Stores that stand in the write-through queue (06 R136, R141) -/

/-- A store, atomic, reduce packet or bank operation. -/
def ReqKind.writes : ReqKind → Bool
  | .load => false
  | _ => true
/-- The requests that a drain at a scope wider than CORE waits for: those of the core that write, not complete, and the
loads of the warp that have no value yet (06 R138, R141). -/
def State.draining (s : State) (w bound : Nat) : Bool :=
  s.reqs.any fun r =>
    r.live && r.seq < bound && r.core == (s.warp w).core &&
      ((s.memop r.op).req.writes || ((s.memop r.op).warp == w && !r.performed))
/-- The drain of a core's write-through queue alone (06 R142). -/
def State.drainingCore (s : State) (core bound : Nat) : Bool :=
  s.reqs.any fun r => r.live && r.seq < bound && r.core == core && (s.memop r.op).req.writes
/-- Loads of a warp issued before `bound` that have not returned (06 R138). -/
def State.loading (s : State) (w bound : Nat) : Bool :=
  s.memops.any fun m => m.live && m.warp == w && m.seq < bound && m.ctr == .ld

/-- The bytes of a store's accesses put into a line. -/
def putAccs (la : Nat) (d : BitVec 1024) : List Acc → BitVec 1024
  | [] => d
  | a :: r => putAccs la (if lineOf a.pa = la then linePut d (a.pa % 128) a.size a.data.toNat else d) r
/-- The accesses of a request. -/
def State.reqAccs (s : State) (r : Req) : List Acc := r.accs.map fun k => (s.memop r.op).acc k
/-- Requests in the order they were made. -/
def insertSeq (q : Req) : List Req → List Req
  | [] => [q]
  | r :: l => if q.seq ≤ r.seq then q :: r :: l else r :: insertSeq q l
/-- A line as a core sees it: with its stores that are not yet performed and older than `bound`, oldest first (06 R134, R136). -/
def State.overlay (s : State) (core la bound : Nat) (d : BitVec 1024) : BitVec 1024 :=
  ((s.reqs.filter fun r =>
    r.live && !r.performed && r.core == core && r.line == la && r.seq < bound && (s.memop r.op).req == .store).foldr insertSeq []).foldl
      (fun d r => putAccs la d (s.reqAccs r)) d
/-- A core has a request under way that has no value yet, or a write not complete, to a line. -/
def State.lineBusy (s : State) (core la : Nat) : Bool :=
  s.reqs.any fun r => r.live && r.core == core && r.line == la && (!r.performed || (s.memop r.op).req.writes)
def State.lineLoading (s : State) (core la : Nat) : Bool :=
  s.reqs.any fun r => r.live && r.core == core && r.line == la && !r.performed && !(s.memop r.op).req.writes

/-! ## Checks (09 R222) -/

/-- The record of a fault of an access. -/
def accRec (cls : Nat) (pc : DWord) (write : Bool) (size va : Nat) : FaultRec :=
  { mkFault cls pc with write := write, size := sizeLog size, addr := BitVec.ofNat 64 va }

/-- Distinct numbers in increasing order. -/
def insertU (n : Nat) : List Nat → List Nat
  | [] => [n]
  | x :: r => if n < x then n :: x :: r else if n = x then x :: r else x :: insertU n r
def sortU (l : List Nat) : List Nat := l.foldr insertU []

/-- Whether a physical line lies in a flagged object (06 R153). -/
def State.objWord (s : State) (o k : Nat) : Nat := (getP 0 s.objtab (8 * o + k)).toNat
def State.inObject (s : State) (o la : Nat) : Bool :=
  let base := s.objWord o 0 / 2 ^ 7 % 2 ^ 45 * 2 ^ 7
  let rows := s.objWord o 1 / 2 ^ 32
  let rb := s.objWord o 1 % 2 ^ 32
  let st := s.objWord o 2
  2 ^ 63 ≤ s.objWord o 0 && base ≤ la &&
    (if rows ≤ 1 then la < base + rb else (la - base) / st < rows && (la - base) % st < rb)
/-- The enabled object of a line. -/
def State.objectOf (s : State) (la : Nat) : Option Nat := (List.range (s.objtab.length / 8 + 1)).find? fun o => s.inObject o la
def State.isFlagged (s : State) (la : Nat) : Bool :=
  match s.objectOf la with
  | some o => (getP 0 s.objtab (8 * o)).getLsbD 62
  | none => false

/-- How the checks of one access end: a physical address with the leaf's attributes, or a class. -/
inductive Checked where
  | ok (pa : Nat) (slr cmp : Bool) (page : PageAttr)
  | bad (cls : Nat) (atHome : Bool)
  deriving DecidableEq, Repr

/-- What an instruction asks of its pages. -/
structure Need where
  write : Bool
  /-- `SLLD`, `SLST`, `BOP` and `BOPR`: only slice-resident pages (09 R226, R240). -/
  slr : Bool
  /-- An atomic whose type the host link does not carry (18 R384). -/
  noHost : Bool
  atomic : Bool
  /-- A warp-uniform access: a failure parks these lanes and nothing is accessed (09 R222). -/
  uni : Option (BitVec 64)
  /-- The access size that a fault record shows. -/
  bytes : Nat
  /-- A prefetch: a lane that fails drops its access (09 R229). -/
  quiet : Bool
  /-- The lines of the page that are named, from its first byte, beside the line of the address (09 R234). -/
  lines : List Nat
  deriving DecidableEq, Repr

/-- Steps 4 to 7 of R222 on one access through its page's translation. -/
def State.checkAcc (s : State) (p : Nat) (need : Need) (va : Nat) (x : Xlate) : Checked :=
  match x.ent with
  | none => .bad x.cls false
  | some e =>
    if need.write && e.ex then .bad 5 false
    else if need.slr && !e.slr then .bad 5 false
    else
      let pa := e.phys va
      let la := lineOf pa
      match s.homeOf p pa with
      | .absent => .bad 0x0D false
      | .host a => if need.noHost || (need.atomic && !Config.hostAccepts a) then .bad 5 true else .ok pa e.slr e.cmp ⟨e.glob, e.size, e.coh⟩
      | .remote _ _ _ => .ok pa e.slr e.cmp ⟨e.glob, e.size, e.coh⟩
      | .slice _ sl =>
        if (s.homeCopy la).isNone && (s.tierLat la).isNone then .bad 0x0D true
        else if e.slr && (s.homeCopy la).isNone && 8192 * s.carve sl ≤ s.slmLines sl then .bad 0x0D true
        else if s.isFlagged la || need.lines.any (fun k => s.isFlagged (la + k)) then .bad 0x0E true
        else .ok pa e.slr e.cmp ⟨e.glob, e.size, e.coh⟩

/-- The translations of 4 KiB pieces in increasing order: one lookup for each distinct page, eight lookups a cycle (16 R344). `done`
holds the pieces looked up so far. -/
def State.lookupFrom (s : State) (p core asid : Nat) : Nat → List (Nat × Xlate) → List Nat → State × List (Nat × Xlate)
  | _, done, [] => (s, done)
  | i, done, pg :: r =>
    match done.find? fun q => q.2.ent.any fun e => e.covers asid (pg * 4096) with
    | some q => s.lookupFrom p core asid i (done ++ [(pg, q.2)]) r
    | none =>
      let (s, x) := s.coreLookup p core asid (pg * 4096) (s.now + i / 8)
      s.lookupFrom p core asid (i + 1) (done ++ [(pg, x)]) r
def State.lookupPages (s : State) (p core asid : Nat) (pgs : List Nat) : State × List (Nat × Xlate) := s.lookupFrom p core asid 0 [] pgs

/-- The outcome of the checks of one lane: its class, and whether it is known only at the reply. -/
def xlateOf (xs : List (Nat × Xlate)) (va : Nat) : Xlate := (lookupN xs (va / 4096)).getD ⟨0, none, 4⟩

/-- The place of a fault class in the order of R222; step 3 is the non-canonical address. -/
def rankOf (cls : Nat) : Nat :=
  match cls with
  | 6 => 2
  | 4 => 4
  | 5 => 5
  | 0x0D => 6
  | 0x0E => 7
  | _ => 8

/-- A check that fails: its place in the order, the record, and the cycle in which it is known (16 R345). -/
structure Bad where
  rank : Nat
  rec_ : FaultRec
  at_ : Nat

/-- The first of two failed checks. -/
def Bad.first (a b : Option Bad) : Option Bad :=
  match a, b with
  | some x, some y => if y.rank < x.rank then some y else some x
  | some x, none => some x
  | none, y => y

/-- The cycles in which the line requests leave: one a cycle in increasing address order, each no earlier than its page's translation
(09 R227; 16 R344). -/
def sendSlots (ready : List (Nat × Nat)) : Nat → List Nat → List (Nat × Nat)
  | _, [] => []
  | t, vl :: r =>
    let t := max t ((lookupN ready (vl / 4096)).getD t)
    (vl, t) :: sendSlots ready (t + 1) r
/-- The write-through queue sends stores in issue order (06 R136): the cycle from which a store's lines may leave. -/
def State.sendFrom (s : State) (core : Nat) (store : Bool) : Nat :=
  if store then s.reqs.foldl (fun t r => if r.live && !r.performed && r.core == core && (s.memop r.op).req == .store then max t r.sent else t) s.now
  else s.now

/-- The failed check of one access of a core, through its page's translation; `slots` holds the cycles in which lines leave. -/
def State.accBad (s : State) (p core : Nat) (pc : DWord) (need : Need) (xs : List (Nat × Xlate)) (slots : List (Nat × Nat)) (a : Acc) : Option Bad :=
  let x := xlateOf xs a.va
  let r (cls : Nat) : FaultRec := accRec cls pc need.write need.bytes a.va
  if !canonical a.va then some ⟨3, r 5, s.now⟩
  else
    match s.checkAcc p need a.va x with
    | .ok _ _ _ _ => none
    | .bad c false => some ⟨rankOf c, r c, x.ready⟩
    | .bad c true =>
      let home := match x.ent with
        | some e => (match s.homeOf p (e.phys a.va) with
          | .slice _ sl => s.hitLat (sectorOf core) sl
          | _ => s.hitLat (sectorOf core) 0 + 400)
        | none => 0
      some ⟨rankOf c, r c, (lookupN slots (lineOf a.va)).getD x.ready + home⟩

/-- The first check that fails in a lane. -/
def State.laneBad (s : State) (p core : Nat) (pc : DWord) (needOf : Acc → Need) (xs : List (Nat × Xlate)) (slots : List (Nat × Nat))
    (accs : List Acc) : Option Bad :=
  accs.foldl (fun b a => Bad.first b (s.accBad p core pc (needOf a) xs slots a)) none

/-- A lane fails now, or at a later cycle until which it issues nothing (16 R345). An access of a warp in handler mode is a handler
fault in the cycle in which its failure is known (15 R324). -/
def State.failAt (s : State) (w l t : Nat) (r : FaultRec) : State :=
  if t ≤ s.now then s.parkLanes w (1 <<< l) fun _ => r
  else if (s.warp w).hmode then
    s.onWarp w fun x => { x with failing := match x.failing with
      | some q => if t < q.1 then some (t, r) else some q
      | none => some (t, r) }
  else s.onWarp w fun x => x.onLane l fun y => if y.st == .running then { y with failing := some (t, r) } else y
/-- Lanes whose failure is now known park (16 R345), and a handler's access that fails now ends its warp (15 R324). -/
def State.parkDue (s : State) (w : Nat) : State :=
  let s := match (s.warp w).failing with
    | some (t, r) => if (s.warp w).live && t ≤ s.now then s.handlerEnd w r else s
    | none => s
  let x := s.warp w
  let due (y : Lane) : Option FaultRec :=
    match y.failing with
    | some (t, r) => if t ≤ s.now then some r else none
    | none => none
  if x.live && (List.range 64).any (fun l => (due (x.lane l)).isSome) then
    s.setWarp w (x.mapLanes fun _ y =>
      match due y with
      | some r => { (if y.st == .running then y.park r else y) with failing := none }
      | none => y)
  else s

/-- The result of the checks: the state, the accesses that go on with their physical addresses, and the cycle each 4 KiB
page is ready. -/
structure Cleared where
  s : State
  accs : List Acc
  ready : List (Nat × Nat)
  /-- The cycle in which each line leaves. -/
  slots : List (Nat × Nat)

/-- The checks of an instruction's accesses in the lanes of one warp, step 3 of R222 on: `needOf` says what each access
asks of its page, and `extra` names a failed check of a lane that is not of its pages. `pc` is the instruction's address. A
lane's failure leaves the other lanes alone. -/
def State.clearWith (s : State) (w : Nat) (pc : DWord) (need : Need) (needOf : Acc → Need) (extra : Nat → Option Bad)
    (accs : List Acc) : Cleared :=
  let x := s.warp w
  let p := s.partOf w
  let asid := (s.team x.team).asid
  let (s, xs) := s.lookupPages p x.core asid (sortU ((accs.filter fun a => canonical a.va).map fun a => a.va / 4096))
  let ready := xs.map fun q => (q.1, q.2.ready)
  let sent := accs.filter fun a => canonical a.va && (match s.checkAcc p (needOf a) a.va (xlateOf xs a.va) with
    | .bad _ false => false
    | _ => true)
  let slots := sendSlots ready (s.sendFrom x.core (need.write && !need.atomic)) (sortU (sent.map fun a => lineOf a.va))
  let lanes := sortU (accs.map (·.lane))
  let bads := lanes.filterMap fun l =>
    (Bad.first (extra l) (s.laneBad p x.core pc needOf xs slots (accs.filter fun a => a.lane == l))).map fun b => (l, b)
  let lost := if need.uni.isSome && !bads.isEmpty then lanes else bads.map (·.1)
  let fail (s : State) (m : BitVec 64) (b : Bad) : State :=
    let s := if b.at_ ≤ s.now then s else s.later (b.at_ - s.now) .tlbWalkComplete 0 1 w
    (lanesOf m).foldl (fun s l => s.failAt w l b.at_ b.rec_) s
  let s1 :=
    if need.quiet then s
    else
      match need.uni, bads with
      | some m, b :: _ => fail s m b.2
      | some _, [] => s
      | none, bs => bs.foldl (fun s b => fail s (1 <<< b.1) b.2) s
  let good := (accs.filter fun a => !lost.contains a.lane).map fun a =>
    match s.checkAcc p (needOf a) a.va (xlateOf xs a.va) with
    | .ok pa slr cmp page => { a with pa := pa, slr := slr, cmp := cmp, page := some page }
    | .bad _ _ => a
  ⟨s1, good, ready, slots⟩

/-- The checks of accesses that all ask the same of their pages. -/
def State.clearAccs (s : State) (w : Nat) (pc : DWord) (need : Need) (accs : List Acc) : Cleared :=
  s.clearWith w pc need (fun _ => need) (fun _ => none) accs

/-! ## Sending (09 R227; 16 R344; 17 R363, R368) -/

/-- The token bucket of a core's partition: BURST and REFILL, an unmetered partition having REFILL 0 (17 R367). -/
def State.share (s : State) (p : Nat) : Nat × Nat :=
  let v := (getP 0 s.tkshare p).toNat
  (max (v / 2 ^ 16 % 2 ^ 16) (v % 2 ^ 16), v % 2 ^ 16)
def State.metered (s : State) (core : Nat) : Bool := (s.share (s.partOfSector (sectorOf core))).2 != 0
/-- A token is charged for a request that leaves at cycle `t` (17 R368, R369). -/
def State.takeToken (s : State) (core t : Nat) : State :=
  { s with
    buckets := setP 0 s.buckets core (getP 0 s.buckets core - 1)
    lastCharge := setP 0 s.lastCharge core (max (getP 0 s.lastCharge core) (t + 1)) }

/-- The hit latency of a request's path (01 R24; 05 R115, R118; 18 R382, R385), without what the home adds. -/
def State.pathLat (s : State) (core p la : Nat) (slr refl : Bool) : Nat :=
  let sec := sectorOf core
  if refl then 96
  else
    match s.homeOf p la with
    | .slice _ sl => if slr then s.slmLat sec sl else s.hitLat sec sl
    | .remote _ l h => s.hitLat sec (16 * l) + 640 * h + 96
    | .host _ => s.hitLat sec 0 + 400
    | .absent => s.hitLat sec 0
/-- The one-way time of a path (06 R415). -/
def State.oneWay (s : State) (core p la : Nat) (slr refl : Bool) : Nat :=
  match s.homeOf p la with
  | .remote _ l h => s.hitLat (sectorOf core) (16 * l) / 2 + 320 * h + 48
  | _ => s.pathLat core p la slr refl / 2

/-- The attributes of a request's page. -/
def State.reqSlr (s : State) (r : Req) : Bool := (s.reqAccs r).any (·.slr)
def State.reqCmp (s : State) (r : Req) : Bool := (s.reqAccs r).any (·.cmp)
def State.reqPart (s : State) (r : Req) : Nat := s.partOfSector (sectorOf r.core)

/-- The map generation that a request to a line carries, with the domain it belongs to (17 R363). -/
def State.genOf (s : State) (p la : Nat) : Nat :=
  match s.homeOf p la with
  | .slice d _ => 256 * d + s.domGen d
  | _ => 0

/-- A request leaves its port at cycle `t`, with the map its port holds: its arrival falls due (06 R415). A load may go to
a reflection of its sector when its core has nothing under way to the line (05 R116; 06 R134, R137). A request behind one of its warp
and line that went by an older map is held back (17 R363), and one that leaves after a commit's scan takes its map then. -/
def State.launchReq (s : State) (i t : Nat) : State :=
  let r := s.req i
  let p := s.reqPart r
  let gen := s.genOf p r.line
  let older (q : Req) : Bool := q.live && q.seq < r.seq && q.line == r.line
  if (s.reqs.any fun q => older q && !q.performed && !q.port && q.gen != gen && (s.memop q.op).warp == (s.memop r.op).warp) ||
      (match s.scan with
      | some k => s.now < k.endAt && k.endAt ≤ t
      | none => false) then
    (s.onReq i fun r => { r with gen := gen, port := false }).schedule (max t (s.now + 1)) (.ev .refusedRequestResend ⟨i, 0, 0, 0, []⟩)
  else
    let slr := s.reqSlr r
    let refl := !slr && !(s.memop r.op).req.writes && (s.memop r.op).mayReflect && (s.reflection (sectorOf r.core) r.line).isSome &&
      !(s.reqs.any fun q => older q && q.core == r.core && (!q.performed || (s.memop q.op).req.writes))
    let (s, wait) := s.linkWait p (sectorOf r.core) r.line t
    (s.onReq i fun r => { r with sent := t, gen := gen, refl := refl, port := false }).schedule
      (t + wait + s.oneWay r.core p r.line slr refl) (.ev .requestArrival ⟨i, 0, 0, 0, []⟩)

/-- A request at its core port: it leaves at cycle `t`, or waits for a token (17 R368). -/
def State.portReq (s : State) (i t : Nat) : State :=
  let r := s.req i
  if !s.metered r.core then s.launchReq i t
  else if getP 0 s.buckets r.core = 0 || s.reqs.any (fun q => q.live && q.port && q.core == r.core) then
    s.onReq i fun r => { r with port := true, sent := t }
  else (s.takeToken r.core t).launchReq i t

/-- The value of one access in a line. -/
def accVal (d : BitVec 1024) (a : Acc) : BitVec 128 := BitVec.ofNat 128 (lineGet d (a.pa % 128) a.size)

/-- A use of an L1 line (05 R114). -/
def State.l1Use (s : State) (core la : Nat) : State :=
  match s.l1Line core la with
  | some c => { s with l1 := c :: s.l1.erase c }
  | none => s

/-- One line request of an operation, leaving at cycle `t`: an L1 hit is answered from the line in 32 cc (05 R114), and
any other goes to the port. -/
def State.sendLine (s : State) (op la t : Nat) (ks : List Nat) : State :=
  let m := s.memop op
  let r : Req := ⟨true, op, m.core, la, ks, s.seq, t, 0, false, false, false, false, none⟩
  let hit := if m.req == .load && !m.bypass && !(s.reqAccs r).any (·.slr) && !s.lineLoading m.core la then s.l1Line m.core la else none
  let (s, i) := s.bumpSeq.addReq r
  match hit with
  | some c =>
    let d := s.overlay m.core la r.seq c.data
    ((((s.onReq i fun r => { r with performed := true }).onMemop op fun m =>
      { m with buf := m.buf ++ ks.map fun k => (k, accVal d (m.acc k)) }).l1Use m.core la).schedule
        (t + 32) (.ev .loadReply ⟨i, 0, 0, 0, []⟩))
  | none => s.portReq i t

/-- The line requests of an operation, each virtual line at its cycle (09 R227; 16 R344). -/
def State.sendLines (s : State) (op : Nat) : List (Nat × Nat) → State
  | [] => s
  | (vl, t) :: r =>
    let m := s.memop op
    let ks := (List.range m.accs.length).filter fun k => lineOf (m.acc k).va = vl
    match ks with
    | [] => s.sendLines op r
    | k :: _ => (s.sendLine op (lineOf (m.acc k).pa) t ks).sendLines op r

/-- A store updates the copies of its lines in its own L1, which uses them, and those on their way to it (05 R114;
06 R136). -/
def State.ownStore (s : State) (core : Nat) (accs : List Acc) : State :=
  let s := { s with
    l1 := s.l1.map fun x => if x.core == core then { x with data := putAccs x.addr x.data accs } else x
    reqs := s.reqs.map fun r =>
      if r.live && r.core == core then { r with captured := r.captured.map fun d => putAccs r.line d accs } else r }
  (sortU (accs.map fun a => lineOf a.pa)).foldl (fun s la => s.l1Use core la) s

/-- A memory instruction of warp `w` starts: its accesses are checked, its operation is recorded and counted, and its
lines are sent. Without an access that goes on, nothing is sent (09 R222). -/
def State.startOp (s : State) (w : Nat) (need : Need) (m : MemOp) : State :=
  let c := s.clearAccs w m.pc need m.accs
  let s := c.s
  match c.accs with
  | [] => s
  | accs =>
    let lines := sortU (accs.map fun a => lineOf a.va)
    let m := { m with
      live := true, warp := w, core := (s.warp w).core, accs := accs, left := lines.length, seq := s.seq
      uni := need.uni, handler := (s.warp w).hmode
      dsts := if m.kind == .store then [] else m.dsts }
    let (s, i) := s.bumpSeq.addMemop m
    let s := s.count w m.ctr (· + 1)
    let s := if m.req == .store then s.ownStore m.core accs
      else if m.req.writes then accs.foldl (fun s a => s.l1Kill m.core (lineOf a.pa)) s
      else s
    s.sendLines i (c.slots.filter fun q => lines.contains q.1)

end Sys2Proof.Machine
end

