-- ==== Sys2Proof/Machine/Arrive.lean ====
section
/-!
DEFINITION. What a line request does at its home and what its reply or acknowledgement completes (06 R132-R153, R415;
09 R227, R238-R240), with the error log (18 R397) and the kills of contexts that wait for the next cycle (18 R377).
-/
namespace Sys2Proof.Machine

/-! ## Errors -/

/-- An event of the error log (18 R397): every kind but a corrected error also raises vector 9 and posts a message. -/
def State.logError (s : State) (kind cls unit : Nat) (ctx : Word) (addr : Nat) : State :=
  let s := { s with
    errlog := setP ⟨0, 0, 0, 0, 0⟩ s.errlog (s.errHead % 64) ⟨kind, Config.unitClass cls % 256, unit % 2 ^ 16, ctx, addr⟩
    errHead := (s.errHead + 1) % 256 }
  if kind = 1 then { s with errCorr := min (2 ^ 32 - 1) (s.errCorr + 1) }
  else ({ s with errUncorr := min 65535 (s.errUncorr + 1) }.post (.error kind)).post (.msix 9)

/-- A context is to be killed (18 R376): the system context is never killed. -/
def State.killCtx (s : State) (p : Nat) (ctx : Word) : State :=
  if ctx = 0 || s.kills.contains (p, ctx) then s else { s with kills := s.kills ++ [(p, ctx)] }

/-- The context of a warp (18 R372). -/
def State.ctxOf (s : State) (w : Nat) : Word := (s.team (s.warp w).team).ctx

/-- A payload error met by a warp's request: logged, and the warp's context is killed (18 R376). -/
def State.payloadError (s : State) (w pa : Nat) : State :=
  (s.logError 2 0 0 (s.ctxOf w) pa).killCtx (s.partOf w) (s.ctxOf w)

/-! ## Atomics (05 R119; 09 R238, R240) -/

/-- The bytes of an atomic's type. -/
def ATy.bytes : ATy → Nat
  | .s64 => 8
  | .n64 => 8
  | .b128 => 16
  | _ => 4

def minMax (ty : ATy) (mx : Bool) (a b : Nat) : Nat :=
  let pick (lt : Bool) : Nat := if lt != mx then a else b
  match ty with
  | .s32 => pick (sx 32 a < sx 32 b)
  | .s64 => pick (sx 64 a < sx 64 b)
  | .f32 => if mx then fMaxNan fp32 a b else fMinNan fp32 a b
  | _ => pick (a < b)

/-- The new value of a location from its old value and a lane's operand: for a compare-and-swap the compare value with
the new value above it, for a scaled update the addend with the scale above it. -/
def atomicNew (op : AOp) (ty : ATy) (old b : Nat) : Nat :=
  let n := 8 * ty.bytes
  match op with
  | .add =>
    match ty with
    | .f32 => fAdd fp32 .rne old (b % 2 ^ 32)
    | .bf16x2 => fAdd bf16 .rne (old % 2 ^ 16) (b % 2 ^ 16) + 2 ^ 16 * fAdd bf16 .rne (old / 2 ^ 16) (b / 2 ^ 16 % 2 ^ 16)
    | _ => (old + b) % 2 ^ n
  | .min => minMax ty false old (b % 2 ^ n)
  | .max => minMax ty true old (b % 2 ^ n)
  | .and => old &&& b % 2 ^ n
  | .or => old ||| b % 2 ^ n
  | .xor => old ^^^ b % 2 ^ n
  | .xch => b % 2 ^ n
  | .cas => if old = b % 2 ^ n then b / 2 ^ n % 2 ^ n else old
  | .scl => fFma fp32 .rne old (b / 2 ^ 32 % 2 ^ 32) (b % 2 ^ 32)

/-- The accesses of an atomic applied to a line in lane order, with the old values by place (09 R238). -/
def applyAtomic (op : AOp) (ty : ATy) (la : Nat) (m : MemOp) (d : BitVec 1024) : List Nat → BitVec 1024 × List (Nat × BitVec 128)
  | [] => (d, [])
  | k :: r =>
    let a := m.acc k
    let old := lineGet d (a.pa % 128) a.size
    let (d, vs) := applyAtomic op ty la m (linePut d (a.pa % 128) a.size (atomicNew op ty old a.data.toNat)) r
    (d, (k, BitVec.ofNat 128 old) :: vs)

/-! ## At the home -/

/-- The copy or command that holds exclusive ownership of a line against a request (06 R146): an access of the issuing
warp that stands before it does not wait. -/
def LineOp.dst (o : LineOp) (la : Nat) : Bool :=
  o.moves.any fun m =>
    match m.1 with
    | .glob pa => lineOf pa == la
    | .scr _ _ _ _ => false
def State.ownedBy (s : State) (r : Req) : Bool :=
  let w := (s.memop r.op).warp
  (s.lineops.any fun o => o.live && o.dst r.line && !((s.memop o.op).warp == w && r.seq < o.seq)) ||
  (s.cmds.any fun c => c.live && c.owned.contains r.line && !(c.warp == w && r.seq < c.seq))

/-- The tenures of an object that conflict with an access of this device to a line (06 R152). -/
def State.conflictsAt (s : State) (la : Nat) (writes : Bool) : List Tenure :=
  match s.objectOf la with
  | some o => s.tenures.filter fun t => t.obj == o && (t.write || writes)
  | none => []
def State.conflicts (s : State) (r : Req) : List Tenure := s.conflictsAt r.line (s.memop r.op).req.writes
/-- The recall bound of a holder (06 R152): the host's tenures are at SYSTEM scope. -/
def recallBound (dev : Nat) : Nat := if dev = 1023 then 10000 else 6000
/-- Every conflicting tenure that is not yet recalled is recalled. -/
def State.recallAll (s : State) (ts : List Tenure) : State :=
  ts.foldl (fun s t =>
    if t.recalled.isSome then s
    else { s with tenures := s.tenures.map fun u => if u == t then { u with recalled := some s.now } else u }.later
      (recallBound t.dev) .tenureRecallTimeout t.obj t.dev) s

/-- A line in far memory: its key there, and the line as this device holds it. -/
def State.farLine (s : State) (key : Nat) : BitVec 1024 := BitVec.ofNat 1024 (leNum (Memory.bytes farByte s.remote key 128))
/-- The key of a line in far memory, where it lies there. -/
def State.farKey (s : State) (la : Nat) : Option Nat :=
  match s.homeAny la with
  | .host a => some (2 ^ 52 + a)
  | .remote _ _ _ => some la
  | _ => none
/-- The published state of the lines of a key in far memory goes (06 R156). -/
def State.unpublish (s : State) (key : Nat) : State := { s with published := s.published.filter fun la => s.farKey la != some key }
def State.farPut (s : State) (key : Nat) (d : BitVec 1024) : State :=
  { s.unpublish key with remote := Memory.put farByte s.remote key (toBytes 128 d.toNat) }

/-- The tenure that this device holds of another device's object (18 R389). -/
def State.heldOf (s : State) (o : Nat) : Option Held := s.held.find? fun h => h.obj == o
/-- *T* of an object from its TEN (06 R152; 18 R387). -/
def tenureTime (ten : Nat) : Nat := if ten = 0 then 65536 else 256 * ten
/-- A line of another device's object as this device holds it; each use renews the tenure (06 R152). -/
def State.heldLine (s : State) (o la : Nat) : State × BitVec 1024 :=
  let h := (s.heldOf o).getD ⟨o, false, [], 0⟩
  let t := tenureTime (Config.remoteTen o).toNat
  let d := match h.lines.find? fun l => l.addr == la with
    | some l => l.data
    | none => s.farLine la
  let h := { h with
    lines := if h.lines.any fun l => l.addr == la then h.lines else ⟨la, d, false, Config.remoteGrant la s.now⟩ :: h.lines
    lapse := s.now + t }
  let s := if (s.heldOf o).isSome then s else s.later t .tenureLapse o
  ({ s with held := h :: s.held.filter fun x => x.obj != o }, d)
def State.heldPut (s : State) (o la : Nat) (d : BitVec 1024) : State :=
  { s with
    held := s.held.map fun h =>
      if h.obj == o then
        { h with write := true, lines := h.lines.map fun l => if l.addr == la then { l with data := d, dirty := true } else l }
      else h
    published := s.published.erase la }

/-- The lanes of a request fail at its home: they park when the reply returns (16 R345). -/
def State.failReq (s : State) (i cls back : Nat) : State :=
  (s.onReq i fun r => { r with performed := true }).schedule (s.now + back) (.ev .loadReply ⟨i, 5, cls, 0, []⟩)

/-- What the request makes of a line: the line after it, and the values read. -/
def State.effect (s : State) (r : Req) (d : BitVec 1024) : BitVec 1024 × List (Nat × BitVec 128) :=
  let m := s.memop r.op
  match m.req with
  | .load =>
    let own := s.overlay r.core r.line r.seq d
    (d, r.accs.map fun k => (k, accVal own (m.acc k)))
  | .store => (putAccs r.line d (s.reqAccs r), [])
  | .atomic op ty _ => applyAtomic op ty r.line m d r.accs

/-- The accesses of a store cover every byte of the line exactly once (06 R144). -/
def wholeLine (la : Nat) (accs : List Acc) : Bool :=
  (List.range 128).all fun b => (accs.filter fun a => a.pa ≤ la + b && la + b < a.pa + a.size).length == 1

/-- The other line of a block is brought in with it (05 R114, R115). -/
def State.fetchBuddy (s : State) (p la : Nat) : State :=
  match s.homeOf p (buddy la) with
  | .slice _ sl =>
    match s.fetchHome sl (buddy la) false with
    | some (s, _, _) => s
    | none => s
  | _ => s

/-- A prefetch into the home slice alone fills no L1 (09 R229). -/
def MemOp.fillsL1 (m : MemOp) : Bool :=
  match m.kind with
  | .prefetch l1 => l1
  | _ => true

/-- A global load has taken its line: its reply fills the L1, and a load around the L1 only renews the copy there. -/
def State.l1Takes (s : State) (i : Nat) (all : BitVec 1024) : State :=
  let r := s.req i
  let m := s.memop r.op
  let done (s : State) (c : Option (BitVec 1024)) : State := s.onReq i fun r => { r with performed := true, captured := c }
  if m.bypass then done (s.l1Renew r.core r.line all) none
  else if m.fillsL1 then done (s.l1Kill r.core r.line) (some all)
  else done s none

/-- A reflection granted to the sector of a reader, of every line of its block where the page is compressible (05 R116). -/
def State.grantBlock (s : State) (sec sl la at_ : Nat) (d : BitVec 1024) : State :=
  (s.blockLines la).foldl (fun s k =>
    match (if k = la then some sl else match s.homeAny k with
      | .slice _ m => some m
      | _ => none) with
    | some m => s.grant sec m k at_ (if k = la then d else s.peekLine k)
    | none => s) s

/-- The request is performed at its home slice (06 R415); `back` is the time of the way back. -/
def State.performSlice (s : State) (i sl back : Nat) : State :=
  let r := s.req i
  let m := s.memop r.op
  let la := r.line
  let slr := s.reqSlr r
  let cmp := s.reqCmp r
  let s := if cmp then s.markBlock la else s
  let there := (s.homeCopy la).isSome && (s.homeCopy (buddy la)).isSome
  match s.fetchHome sl la slr with
  | none => s.failReq i 0x0D back
  | some (s, x, miss) =>
    let e := s.effect r x.data
    let s := if cmp then s.fetchBuddy (s.reqPart r) la else s
    let s := s.onMemop r.op fun m => { m with buf := m.buf ++ e.2 }
    if !m.req.writes then
      let all := s.overlay r.core la s.seq x.data
      let s := if slr then s.onReq i fun r => { r with performed := true, captured := none } else s.l1Takes i all
      let s := if sectorOf r.core = sl / 16 || s.noRefl x || slr || !m.mayReflect then s
        else s.grantBlock (sectorOf r.core) sl la (s.now + back + miss) x.data
      s.schedule (s.now + back + miss) (.ev .loadReply ⟨i, if x.poison then 4 else 0, 0, 0, []⟩)
    else
      let inval := s.invalLat sl la
      let whole := m.req == .store && wholeLine la (s.reqAccs r)
      let s := s.putHome sl (if m.req == .store then x.held s.now else x) e.1 whole
      let s := if cmp then s.recode la else s
      let s := if m.lastUse then { s with l2 := s.l2.filter (fun y => !(y.addr == la && !y.isRefl)) ++ s.l2.filter fun y => y.addr == la && !y.isRefl }
        else s
      let s := s.onReq i fun r => { r with performed := true }
      let s := if m.req == .store then s else s.l1Kill r.core la
      let slow := if cmp && !there then (s.tierLat la).getD 0 else 0
      match m.req with
      | .atomic _ _ true => s.schedule (s.now + back + max miss slow + inval) (.ev .loadReply ⟨i, if x.poison then 4 else 0, 0, 0, []⟩)
      | .atomic _ _ false => s.schedule (s.now + back + max miss slow + inval) (.ev .storeAcknowledge ⟨i, 0, 0, 0, []⟩)
      | _ => s.schedule (s.now + back + inval + slow) (.ev .storeAcknowledge ⟨i, 0, 0, 0, []⟩)

/-- The request is performed in far memory, at the host or at another device (06 R151; 18 R385). -/
def State.performFar (s : State) (i key : Nat) (obj : Option Nat) (back : Nat) : State :=
  let r := s.req i
  let m := s.memop r.op
  let (s, d) := match obj with
    | some o => s.heldLine o r.line
    | none => (s, s.farLine key)
  let e := s.effect r d
  let s := if m.req.writes then (match obj with
      | some o => s.heldPut o r.line e.1
      | none => s.farPut key e.1)
    else s
  let s := (s.onMemop r.op fun m => { m with buf := m.buf ++ e.2 }).onReq i fun r => { r with performed := true }
  match m.req with
  | .load => s.schedule (s.now + back) (.ev .loadReply ⟨i, 0, 0, 0, []⟩)
  | .atomic _ _ true => s.schedule (s.now + back) (.ev .loadReply ⟨i, 0, 0, 0, []⟩)
  | _ => s.schedule (s.now + back) (.ev .storeAcknowledge ⟨i, 0, 0, 0, []⟩)

/-- The request is performed where it stands; `resumed` counts the whole hit latency from now (06 R146). -/
def State.perform (s : State) (i : Nat) (resumed : Bool) : State :=
  let r := s.req i
  let p := s.reqPart r
  let full := s.pathLat r.core p r.line (s.reqSlr r) false
  let back := if resumed then full else full - s.oneWay r.core p r.line (s.reqSlr r) false
  let s := s.onReq i fun r => { r with waits := false }
  match s.homeOf p r.line with
  | .slice _ sl => s.performSlice i sl back
  | .host a => s.performFar i (2 ^ 52 + a) none back
  | .remote _ _ _ => s.performFar i r.line (Config.remoteObject r.line) back
  | .absent => s.failReq i 0x0D back

/-- A load is answered by the reflection of its sector (05 R116; 06 R137). -/
def State.performRefl (s : State) (i : Nat) (x : L2Line) : State :=
  let r := s.req i
  let own := s.overlay r.core r.line r.seq x.data
  let all := s.overlay r.core r.line s.seq x.data
  (((s.l2Touch x).onMemop r.op fun m =>
    { m with buf := m.buf ++ r.accs.map fun k => (k, accVal own (m.acc k)) }).l1Takes i all).schedule
      (s.now + 48) (.ev .loadReply ⟨i, 0, 0, 0, []⟩)

/-- A domain whose commit is being scanned (17 R362). -/
def State.scanning (s : State) (d : Nat) : Bool :=
  match s.scan with
  | some k => s.now < k.endAt && k.mask.getLsbD d
  | none => false

/-- A request with an old map is refused: it is sent again 8 cc after the refusal reaches its port (17 R363). -/
def State.refuse (s : State) (i sl : Nat) : State :=
  let r := s.req i
  (s.onReq i fun r => { r with waits := false }).schedule
    (s.now + (if sectorOf r.core = sl / 16 then 40 else 80) + 8) (.ev .refusedRequestResend ⟨i, 0, 0, 0, []⟩)

/-- An earlier request of the same warp to the line that has not been performed, and does not wait at the home: the request keeps its
place behind it (06 R134). -/
def State.behind (s : State) (r : Req) : Bool :=
  s.reqs.any fun q => q.live && !q.performed && !q.waits && q.seq < r.seq && q.line == r.line && (s.memop q.op).warp == (s.memop r.op).warp

/-- A request arrives (06 R415). An object that has been flagged since it issued fails it (06 R153). -/
def State.arrive (s : State) (i : Nat) : State :=
  let r := s.req i
  let p := s.reqPart r
  if s.behind r then s.later 1 .requestArrival i
  else if r.refl then
    match s.reflection (sectorOf r.core) r.line with
    | some x => if s.isFlagged r.line then s.failReq i 0x0E 48 else s.performRefl i x
    | none => (s.onReq i fun r => { r with refl := false }).schedule
        (s.now + s.oneWay r.core p r.line (s.reqSlr r) false) (.ev .requestArrival ⟨i, 0, 0, 0, []⟩)
  else
    match s.homeOf p r.line with
    | .slice d sl =>
      if r.gen ≠ s.genOf p r.line then s.refuse i sl
      else if s.isFlagged r.line then s.failReq i 0x0E (s.pathLat r.core p r.line (s.reqSlr r) false - s.oneWay r.core p r.line (s.reqSlr r) false)
      else if s.scanning d || s.ownedBy r || s.reqs.any (fun q => q.live && q.waits && q.core == r.core && q.line == r.line && q.seq < r.seq) then
        s.onReq i fun r => { r with waits := true }
      else
        match s.conflicts r with
        | [] => s.perform i false
        | ts => (s.recallAll ts).onReq i fun r => { r with waits := true }
    | _ => s.perform i false

/-- A request to a line of a domain that is being committed: it waits until the end of the scan (17 R362). -/
def State.scanned (s : State) (r : Req) : Bool :=
  match s.homeOf (s.reqPart r) r.line with
  | .slice d _ => s.scanning d
  | _ => false

/-- Requests in the order they were made. -/
def insertReq (s : State) (i : Nat) : List Nat → List Nat
  | [] => [i]
  | j :: r => if (s.req i).seq < (s.req j).seq then i :: j :: r else j :: insertReq s i r
def State.waitingReqs (s : State) (p : Req → Bool) : List Nat :=
  ((List.range s.reqs.length).filter fun i => (s.req i).live && (s.req i).waits && p (s.req i)).foldr (insertReq s) []
/-- The requests that waited for a line proceed against it (06 R146, R148). -/
def State.resumeLine (s : State) (la : Nat) : State :=
  (s.waitingReqs fun r => r.line == la).foldl (fun s i =>
    if s.ownedBy (s.req i) || !(s.conflicts (s.req i)).isEmpty || s.scanned (s.req i) then s else s.perform i true) s

/-! ## At the core -/

/-- The value that a load writes: an 8-bit or 16-bit value extended to 32 bits (09 R225). -/
def extendTo (signed : Bool) (size v : Nat) : Nat :=
  if signed && size < 4 then wrapN 32 (sx (8 * size) v) else v
/-- Registers of a loaded value. -/
def regsOfBytes (size : Nat) : Nat := if size = 8 then 2 else if size = 16 then 4 else 1
/-- A value into a lane's registers; numbers from 1000 on name shadow registers (15 R321). -/
def Lane.load (y : Lane) (reg n v : Nat) : Lane := if 1000 ≤ reg then y.setRegN true (reg - 1000) n v else y.setRegN false reg n v

/-- The value read by an access. -/
def MemOp.val (m : MemOp) (k : Nat) : Nat := ((lookupN m.buf k).getD 0).toNat
/-- The own vector registers that an operation writes. -/
def MemOp.vregs (m : MemOp) : List Nat := m.dsts.filterMap fun k => if k < 256 then some k else if 2000 ≤ k then some (k - 1000) else none

/-- The first byte of block `b` of a scaled line (04 R93). -/
def blockAt (fmt b : Nat) : Nat := 3 + b * (1 + blockBytes fmt)
/-- The blocks of a scaled line that are read: NBLK, at most the blocks of the format (04 R95). -/
def presentBlocks (fmt line : Nat) : Nat := min (line / 16 % 8) (lineBlocks fmt)
/-- Element `k` of block `b` of a scaled line, as an exact value; a block beyond those present reads as +0 (04 R93, R95). -/
def lineElem (fmt line b k : Nat) : FV :=
  if presentBlocks fmt line ≤ b then .fin false Q.zero
  else
    let blk := line / 2 ^ (8 * blockAt fmt b)
    (elemDec fmt (payloadElem fmt (blk / 256) k)).scale (scaleExp (blk % 256))
/-- A lane's value of a scaled line (09 R231). -/
def qldLane (fmt blk l line : Nat) : Nat := fp32.round .rne (lineElem fmt line (blk + l / 32) (l % 32))

/-- The whole value of accesses that follow one another, the first lowest. -/
def MemOp.joined (m : MemOp) : Nat :=
  ((List.range m.accs.length).foldr (fun k v => m.val k + 2 ^ (8 * (m.acc k).size) * v) 0)

/-- The registers of a load written in its lanes (09 R226). -/
def Warp.loadLanes (x : Warp) (m : MemOp) (signed : Bool) : Warp :=
  (List.range m.accs.length).foldl (fun x k =>
    let a := m.acc k
    if a.size = 0 then x
    else x.onLane a.lane fun y => y.load a.reg (regsOfBytes a.size) (extendTo signed a.size (m.val k))) x
/-- One value into every lane of a mask. -/
def Warp.loadAll (x : Warp) (mask : BitVec 64) (reg n v : Nat) : Warp :=
  x.mapLanes fun l y => if mask.getLsbD l then y.load reg n v else y

/-- Lanes held until the outcome of their instruction is known go on (log entry 37). -/
def State.freeLanes (s : State) (w : Nat) (pc : DWord) : State :=
  s.onWarp w fun x => x.mapLanes fun _ y =>
    match y.failing with
    | some (_, r) => if r.pc = pc && r.cls = 0 then { y with failing := none } else y
    | none => y
/-- ... or park with a class; for an instruction issued in handler mode this is a handler fault. -/
def State.parkHeld (s : State) (handler : Bool) (w : Nat) (pc : DWord) (r : FaultRec) : State :=
  if handler then s.handlerEnd w r
  else s.onWarp w fun x => x.mapLanes fun _ y =>
    match y.failing with
    | some (_, q) => if q.pc = pc && q.cls = 0 then { y.park r with failing := none } else y
    | none => y

/-- A finished operation leaves its counter, and its record is free. -/
def State.closeOp (s : State) (i : Nat) : State :=
  let m := s.memop i
  ((s.onWarp m.warp fun x => x.lower s.now m.ctr).onMemop i fun _ => MemOp.idle)

/-- A stack word is a part of its lane's value: the parts of a lane in address order (09 R228). -/
def MemOp.laneVal (m : MemOp) (l : Nat) : Nat :=
  let ks := (List.range m.accs.length).filter fun k => (m.acc k).lane == l
  (ks.foldr (fun k v => m.val k + 2 ^ (8 * (m.acc k).size) * v) 0)
def MemOp.laneBytes (m : MemOp) (l : Nat) : Nat := (m.accs.filter fun a => a.lane == l).foldl (fun n a => n + a.size) 0

/-- Every request of an operation is answered: its destinations are written (09 R227). Tile operations and copies finish
with their own events. -/
def State.finishOp (s : State) (i : Nat) : State :=
  let m := s.memop i
  let wrote (s : State) : State := (s.countRf m.warp m.vregs).closeOp i
  match m.kind with
  | .store => s.closeOp i
  | .prefetch _ => s.closeOp i
  | .send => s.closeOp i
  | .copy => s.closeOp i
  | .mstacc _ => s.later 0 .tileOpComplete i 2
  | .mldacc _ _ => s.later 0 .tileOpComplete i 3
  | .load signed sc =>
    let lanes := sortU ((m.accs.filter fun a => a.size != 0).map (·.lane))
    if sc then
      match lanes with
      | [] => s.closeOp i
      | l :: _ => (s.onWarp m.warp fun x => x.setSN (m.acc 0).reg (regsOfBytes (m.laneBytes l)) (extendTo signed (m.laneBytes l) (m.laneVal l))).closeOp i
    else
      wrote (s.onWarp m.warp fun x => lanes.foldl (fun x l =>
        x.onLane l fun y =>
          y.load ((m.accs.find? fun a => a.lane == l).getD Acc.none_).reg (regsOfBytes (m.laneBytes l))
            (extendTo signed (m.laneBytes l) (m.laneVal l))) x)
  | .atomicRet sc =>
    if (m.acc 0).size = 0 then s.closeOp i
    else if sc then (s.onWarp m.warp fun x => x.setSN (m.acc 0).reg (regsOfBytes (m.acc 0).size) (m.val 0)).closeOp i
    else wrote (s.onWarp m.warp fun x => x.loadLanes m false)
  | .cld signed sc mask =>
    let v := extendTo signed (m.acc 0).size (m.val 0)
    let n := regsOfBytes (m.acc 0).size
    if (m.acc 0).size = 0 then s.closeOp i
    else if sc then (s.onWarp m.warp fun x => x.setSN (m.acc 0).reg n v).closeOp i
    else wrote (s.onWarp m.warp fun x => x.loadAll mask (m.acc 0).reg n v)
  | .tld16 =>
    wrote (s.onWarp m.warp fun x => (List.range m.accs.length).foldl (fun x k =>
      let a := m.acc k
      if a.size = 0 then x
      else x.onLane a.lane fun y =>
        let r := a.reg / 2
        let old := (if 1000 ≤ r then getP 0 y.shadow (r - 1000) else getP 0 y.v r).toNat
        let new := if a.reg % 2 = 0 then old / 2 ^ 16 * 2 ^ 16 + m.val k else old % 2 ^ 16 + 2 ^ 16 * m.val k
        y.load r 1 new) x)
  | .qld fmt blk mask regs =>
    let line := m.joined
    if (m.acc 0).size = 0 then s.closeOp i
    else if line % 16 ≠ fmt then ((s.parkHeld m.handler m.warp m.pc { accRec 0x0A m.pc false 128 (m.acc 0).va with size := 7 }).closeOp i)
    else
      wrote ((s.freeLanes m.warp m.pc).onWarp m.warp fun x => x.mapLanes fun l y =>
        if mask.getLsbD l then y.load (getP 0 regs l) 1 (qldLane fmt blk l line) else y)
  | .qst bits => if (m.acc 0).size = 0 then s.closeOp i else (s.onTeam (s.warp m.warp).team fun t => { t with qstat := t.qstat ||| BitVec.ofNat 32 bits }).closeOp i
  | .ldpat _ => s.closeOp i

/-- A request of an operation is answered. -/
def State.answered (s : State) (op : Nat) : State :=
  let s := s.onMemop op fun m => { m with left := m.left - 1 }
  if (s.memop op).live && (s.memop op).left = 0 then s.finishOp op else s

/-- The L1 fill of a reply (05 R114): no line when the captured copy has been invalidated. -/
def State.fillL1 (s : State) (r : Req) (d : BitVec 1024) : State :=
  let s := s.l1Fill r.core r.line d
  if s.reqCmp r then s.l1Fill r.core (buddy r.line) (s.overlay r.core (buddy r.line) s.seq (s.peekLine (buddy r.line))) else s

/-- The reply of request `i` returns (09 R227). -/
def State.reply (s : State) (i : Nat) : State :=
  let r := s.req i
  if !r.live then s
  else
    let s := match r.captured with
      | some d => s.fillL1 r d
      | none => s
    (s.onReq i fun _ => Req.idle).answered r.op
/-- The acknowledgement of request `i` arrives: the store is complete (06 R136). -/
def State.acknowledge (s : State) (i : Nat) : State :=
  let r := s.req i
  if !r.live then s else (s.onReq i fun _ => Req.idle).answered r.op

/-- The lanes of a request fail with a class found at the home, or every lane that a warp-uniform access names (09 R222); their
accesses are emptied, so that nothing is written. -/
def State.failLanes (s : State) (i cls : Nat) : State :=
  let r := s.req i
  let m := s.memop r.op
  let own := (s.reqAccs r).foldl (fun (b : BitVec 64) a => b ||| (1 <<< a.lane)) 0
  (s.parkAs m.handler m.warp (m.uni.getD own) fun l =>
    let a := ((s.reqAccs r).find? fun a => a.lane == l).getD ((s.reqAccs r).headD Acc.none_)
    accRec cls m.pc m.req.writes a.size a.va).onMemop r.op fun m =>
      { m with accs := m.accs.map fun a => if m.uni.isSome || own.getLsbD a.lane then { a with size := 0 } else a }

end Sys2Proof.Machine
end

