-- ==== Sys2Proof/Machine/Flags.lean ====
section
/-!
DEFINITION. Every flag computation: the carries, borrows and saturation events that PD receives (08 R203, R206), the
conditions of the compares (08 R205, R208, R211), the classes of `FCLS` (08 R208), predicate operands (08 R201) and the
agreement results (08 R218).
-/
namespace Sys2Proof.Machine

/-- Unsigned carry out of a `w`-bit sum, and borrow of a difference (08 R203, R206). -/
def carryOf (w a b : Nat) : Bool := 2 ^ w ≤ a + b
def borrowOf (a b : Nat) : Bool := a < b

/-- The value of a 32-bit pattern, signed or unsigned. -/
def asInt (uns : Bool) (a : Nat) : Int := if uns then a else sx 32 a

/-- A saturated 32-bit sum or difference, and whether it saturated (08 R203). -/
def satOf (uns : Bool) (x : Int) : Nat × Bool :=
  let y := if uns then satU 32 x else satS 32 x
  (wrapN 32 y, y != x)

/-- An integer condition (08 R205): bits 2:0 the condition, bit 3 unsigned. -/
def icmpCond (sub a b : Nat) : Bool :=
  let x := asInt (sub / 8 % 2 == 1) a
  let y := asInt (sub / 8 % 2 == 1) b
  match sub % 8 with
  | 0 => x == y
  | 1 => x != y
  | 2 => x < y
  | 3 => x ≤ y
  | 4 => y < x
  | _ => y ≤ x

/-- A floating-point condition (08 R208). -/
def fcmpCond (c : Nat) (x y : FV) : Bool :=
  let un := x == .nan || y == .nan
  match c with
  | 0 => x.eq y
  | 1 => un || !x.eq y
  | 2 => x.lt y
  | 3 => x.lt y || x.eq y
  | 4 => y.lt x
  | 5 => y.lt x || x.eq y
  | 6 => !un
  | _ => un

/-- The class of a pattern (08 R208). -/
def Fmt.classOf (f : Fmt) (b : Nat) : Nat :=
  let neg := b / f.signBit % 2 == 1
  match f.decode b with
  | .nan => if b / 2 ^ (f.mb - 1) % 2 == 1 then 1 else 0
  | .inf _ => if neg then 2 else 9
  | .fin _ q =>
    if q.isZero then (if neg then 5 else 6)
    else if f.isSubnormal b then (if neg then 4 else 7)
    else (if neg then 3 else 8)

/-- A predicate operand of the predicate instructions: bit 7 negates (08 R201). -/
def Lane.predOp (y : Lane) (v : BitVec 8) : Bool := y.pred (v.toNat % 8) != v.getLsbD 7

/-- A compare: the condition to DST, its complement to PD (08 R205). -/
def AluOut.cmp (b : Bool) : AluOut := ⟨0, some b, some (!b)⟩

/-- A result with a flag for PD. -/
def AluOut.flag (d : Nat) (b : Bool) : AluOut := ⟨d, none, some b⟩

end Sys2Proof.Machine
end

