-- ==== Sys2Proof/Machine/Trans.lean ====
section
/-!
DEFINITION. The transcendental functions of the special unit (08 R209): each value is computed to 2^-300 in fixed point
and rounded once; results that are exactly representable, infinite or NaN are taken out first (IEEE 754-2019 clause
9.2). That no other FP32 argument lies so close to a rounding boundary is log entry 34.
-/
namespace Sys2Proof.Machine

/-- Fractional bits of the fixed-point values. -/
def fixBits : Nat := 320
def fixOne : Int := (2 ^ fixBits : Nat)
def fixMul (a b : Int) : Int := (a * b).fdiv fixOne
/-- A fixed-point value as a rational. -/
def ofFix (a : Int) : Q := ⟨a, 2 ^ fixBits⟩
def toFix (q : Q) : Int := (q.num * fixOne).fdiv q.den

/-- The mathematical constants ln 2 (320 fractional bits) and pi (640 fractional bits), rounded down. -/
def ln2Fix : Int := 0xb17217f7d1cf79abc9e3b39803f2f6af40f343267298b62d8a0d175b8baafa2be7b876206debac98
def piWide : Int := 0x3243f6a8885a308d313198a2e03707344a4093822299f31d0082efa98ec4e6c89452821e638d01377be5466cf34e90c6cc0ac29b7c97c50dd3f84d5b5b54709179216d5d98979fb1bd1310ba698dfb5ac

/-- `e^t` for `|t| < 1`, by Horner's rule over `n` terms. -/
def expSeries (t : Int) : Nat → Nat → Int
  | 0, _ => fixOne
  | n + 1, k => fixOne + (fixMul t (expSeries t n (k + 1))).fdiv k

/-- `1 - u/(k(k+1)) (1 - u/((k+2)(k+3)) ...)`, the common series of sine and cosine with `u = r^2`. -/
def trigSeries (u : Int) : Nat → Nat → Int
  | 0, _ => fixOne
  | n + 1, k => fixOne - (fixMul u (trigSeries u n (k + 2))).fdiv (k * (k + 1))

/-- The sum of `u^i / (k + 2i)`: the series of the inverse hyperbolic tangent. -/
def atanhSeries (u : Int) : Nat → Nat → Int
  | 0, _ => 0
  | n + 1, k => fixOne.fdiv k + fixMul u (atanhSeries u n (k + 2))

/-- `e^y` for a fixed-point `y`, as a rational. -/
def expQ (y : Int) : Q :=
  let n := y.fdiv ln2Fix
  (ofFix (expSeries (y - n * ln2Fix) 90 1)).scale n

/-- Whether a magnitude lies below `2^k`. -/
def magBelow (q : Q) (k : Int) : Bool := q.abs.lt ((Q.ofInt 1).scale k)

/-- A value just inside `x` towards zero: it rounds as every value in between does. -/
def justInside (x : Q) : Q := x.mul ⟨2 ^ 60 - 1, 2 ^ 60⟩

/-- `2^a` (08 R209: FEXP2). -/
def fExp2 (rm : Rm) (a : Nat) : Nat :=
  match fp32.decode a with
  | .nan => fp32.canonNan
  | .inf neg => if neg then 0 else fp32.infBits
  | .fin _ x =>
    let n := x.floor
    if x.isZero then intBits32 1
    else if n ≥ 130 then fp32.roundQ rm ((Q.ofInt 1).scale 130)
    else if n < -300 then fp32.roundQ rm ((Q.ofInt 1).scale (-300))
    else if (Q.ofInt n).eq x then fp32.roundQ rm ((Q.ofInt 1).scale n)
    else if magBelow x (-30) then fp32.roundQ rm ((Q.ofInt 1).add (x.scale (-1)))
    else fp32.roundQ rm ((ofFix (expSeries (fixMul (toFix (x.sub (Q.ofInt n))) ln2Fix) 90 1)).scale n)
where
  intBits32 (n : Int) : Nat := fp32.round .rne (FV.ofQ (Q.ofInt n))

/-- log2 `a` (08 R209: FLOG2). -/
def fLog2 (rm : Rm) (a : Nat) : Nat :=
  match fp32.decode a with
  | .nan => fp32.canonNan
  | .inf neg => if neg then fp32.canonNan else fp32.infBits
  | .fin neg x =>
    if x.isZero then fp32.signBit + fp32.infBits
    else if neg then fp32.canonNan
    else
      let e := floorLog2 x.num.natAbs x.den
      let m := x.scale (-e)
      if m.eq (Q.ofInt 1) then fp32.round rm (FV.ofQ (Q.ofInt e))
      else
        let t := toFix ((m.sub (Q.ofInt 1)).div (m.add (Q.ofInt 1)))
        let ln := 2 * fixMul t (atanhSeries (fixMul t t) 110 1)
        fp32.round rm (FV.ofQ (ofFix (e * fixOne + (ln * fixOne).fdiv ln2Fix)))

/-- The quadrant of `x` and the rest in fixed point: `x = k (pi/2) + r`, reduced exactly (08 R209). -/
def trigReduce (x : Q) : Int × Int :=
  let w := (x.num * (2 ^ 640 : Nat)).fdiv x.den
  let k := (2 * w + piWide.fdiv 2).fdiv piWide
  (k, (w - (k * piWide).fdiv 2).fdiv (2 ^ 320 : Nat))

def sinFix (r : Int) : Int := fixMul r (trigSeries (fixMul r r) 45 2)
def cosFix (r : Int) : Int := trigSeries (fixMul r r) 45 1

/-- sine of the quadrant `k` and rest `r`. -/
def quadrantSin (k r : Int) : Q :=
  match (k % 4).toNat with
  | 0 => ofFix (sinFix r)
  | 1 => ofFix (cosFix r)
  | 2 => ofFix (-sinFix r)
  | _ => ofFix (-cosFix r)

/-- sin `a`, cos `a` (08 R209: FSIN, FCOS). -/
def fSin (rm : Rm) (a : Nat) : Nat :=
  match fp32.decode a with
  | .fin neg x =>
    if x.isZero then fp32.round rm (.fin neg x)
    else if magBelow x (-20) then fp32.roundQ rm (justInside x)
    else
      let p := trigReduce x
      fp32.round rm (FV.ofQ (quadrantSin p.1 p.2))
  | _ => fp32.canonNan
def fCos (rm : Rm) (a : Nat) : Nat :=
  match fp32.decode a with
  | .fin _ x =>
    if x.isZero then fp32.roundQ rm (Q.ofInt 1)
    else if magBelow x (-32) then fp32.roundQ rm (justInside (Q.ofInt 1))
    else
      let p := trigReduce x
      fp32.round rm (FV.ofQ (quadrantSin (p.1 + 1) p.2))
  | _ => fp32.canonNan

/-- tanh `a` (08 R209: FTANH). -/
def fTanh (rm : Rm) (a : Nat) : Nat :=
  match fp32.decode a with
  | .nan => fp32.canonNan
  | .inf neg => fp32.round rm (FV.ofQ (Q.ofInt (if neg then -1 else 1)))
  | .fin neg x =>
    if x.isZero then fp32.round rm (.fin neg x)
    else if magBelow x (-20) then fp32.roundQ rm (justInside x)
    else
      let s (q : Q) : Q := if neg then q.neg else q
      if !magBelow x 5 then fp32.roundQ rm (s (justInside (Q.ofInt 1)))
      else
        let e := expQ (2 * toFix x.abs)
        fp32.roundQ rm (s ((e.sub (Q.ofInt 1)).div (e.add (Q.ofInt 1))))

end Sys2Proof.Machine
end

