-- ==== Sys2Proof/Machine/Float.lean ====
section
/-!
DEFINITION. Floating-point instructions (08 R207-R211): FP32, the FP32 functions of the special unit, FP64, and packed
16-bit. Each is a function of the operand values in one lane.
-/
namespace Sys2Proof.Machine

/-- The 16-bit format that SUB selects, and element `k` of a packed source (08 R211). -/
def halfFmt (bf : Bool) : Fmt := if bf then bf16 else fp16
def half (a k : Nat) : Nat := a / 2 ^ (16 * k) % 2 ^ 16

/-- A packed instruction: each element is computed by itself, with FTZ at both ends. -/
def packed2 (i : AluIn) (f : Fmt → Nat → Nat → Nat → Nat) : Nat :=
  let t := halfFmt (i.o.subN == 1)
  let e (k : Nat) : Nat :=
    t.flush i.o.ftz (f t (t.flush i.o.ftz (half i.a k)) (t.flush i.o.ftz (half i.b k)) (t.flush i.o.ftz (half i.c k)))
  e 0 + 2 ^ 16 * e 1

/-- The exact sum of two products and a value, with the special values of `group_sum` (08 R211; 04 R99). An exact zero
takes the sign of R82. -/
def dot2 (rm : Rm) (p q c : FV) : FV :=
  match groupSum [p, q, c] with
  | .fin n r => if r.isZero && !(p.isZero && q.isZero && c.isZero && p.isNeg == q.isNeg && q.isNeg == c.isNeg) then .fin (rm == .rdn) Q.zero else if r.isZero then .fin p.isNeg Q.zero else .fin n r
  | v => v

/-- FADD (R207): FP32 add with one rounding. -/
def aluFadd (i : AluIn) : AluOut := .val (fp32.flush i.o.ftz (fAdd fp32 i.o.rm (fp32.flush i.o.ftz i.a) (fp32.flush i.o.ftz i.b)))
def execFadd (o : Ops) (s : State) : Out := execAlu (.fadd o) aluFadd s

/-- FSUB (R207): FP32 subtract with one rounding. -/
def aluFsub (i : AluIn) : AluOut := .val (fp32.flush i.o.ftz (fSub fp32 i.o.rm (fp32.flush i.o.ftz i.a) (fp32.flush i.o.ftz i.b)))
def execFsub (o : Ops) (s : State) : Out := execAlu (.fsub o) aluFsub s

/-- FMUL (R207): FP32 multiply with one rounding. -/
def aluFmul (i : AluIn) : AluOut := .val (fp32.flush i.o.ftz (fMul fp32 i.o.rm (fp32.flush i.o.ftz i.a) (fp32.flush i.o.ftz i.b)))
def execFmul (o : Ops) (s : State) : Out := execAlu (.fmul o) aluFmul s

/-- FDIV (R209): Correctly rounded division. -/
def aluFdiv (i : AluIn) : AluOut := .val (fp32.flush i.o.ftz (fDiv fp32 i.o.rm (fp32.flush i.o.ftz i.a) (fp32.flush i.o.ftz i.b)))
def execFdiv (o : Ops) (s : State) : Out := execUnit (.fdiv o) false 8 aluFdiv s

/-- FFMA (R207): FP32 fused multiply-add with one rounding. -/
def aluFfma (i : AluIn) : AluOut := .val (fp32.flush i.o.ftz (fFma fp32 i.o.rm (fp32.flush i.o.ftz i.a) (fp32.flush i.o.ftz i.b) (fp32.flush i.o.ftz i.c)))
def execFfma (o : Ops) (s : State) : Out := execAlu (.ffma o) aluFfma s

/-- FMIN (R207): FP32 minimumNumber, with -0 ordered below +0. -/
def aluFmin (i : AluIn) : AluOut := .val (fp32.flush i.o.ftz (fMin fp32 (fp32.flush i.o.ftz i.a) (fp32.flush i.o.ftz i.b)))
def execFmin (o : Ops) (s : State) : Out := execAlu (.fmin o) aluFmin s

/-- FMAX (R207): FP32 maximumNumber, with -0 ordered below +0. -/
def aluFmax (i : AluIn) : AluOut := .val (fp32.flush i.o.ftz (fMax fp32 (fp32.flush i.o.ftz i.a) (fp32.flush i.o.ftz i.b)))
def execFmax (o : Ops) (s : State) : Out := execAlu (.fmax o) aluFmax s

/-- FABS (R207): Clears the sign bit. -/
def aluFabs (i : AluIn) : AluOut := .val (i.a % 2 ^ 31)
def execFabs (o : Ops) (s : State) : Out := execAlu (.fabs o) aluFabs s

/-- FNEG (R207): Inverts the sign bit. -/
def aluFneg (i : AluIn) : AluOut := .val (i.a ^^^ 2 ^ 31)
def execFneg (o : Ops) (s : State) : Out := execAlu (.fneg o) aluFneg s

/-- FSEL (R207): Selects between two sources under a predicate. -/
def aluFsel (i : AluIn) : AluOut := .val (if i.lane.pred i.o.subN then i.a else i.b)
def execFsel (o : Ops) (s : State) : Out := execAlu (.fsel o) aluFsel s

/-- FCMP (R208): FP32 compare that writes a predicate and, optionally, its complement. -/
def aluFcmp (i : AluIn) : AluOut := .cmp (fcmpCond i.o.subN (fp32.decode (fp32.flush i.o.ftz i.a)) (fp32.decode (fp32.flush i.o.ftz i.b)))
def execFcmp (o : Ops) (s : State) : Out := execAlu (.fcmp o) aluFcmp s

/-- FCLS (R208): Tests the class of an FP32 value against a mask. -/
def aluFcls (i : AluIn) : AluOut := ⟨0, some (i.b.testBit (fp32.classOf (fp32.flush i.o.ftz i.a))), none⟩
def execFcls (o : Ops) (s : State) : Out := execAlu (.fcls o) aluFcls s

/-- DADD (R210): FP64 add on the FP64 unit. -/
def aluDadd (i : AluIn) : AluOut := .val (fp64.flush i.o.ftz (fAdd fp64 i.o.rm (fp64.flush i.o.ftz i.a) (fp64.flush i.o.ftz i.b)))
def execDadd (o : Ops) (s : State) : Out := execUnit (.dadd o) true 16 aluDadd s

/-- DSUB (R210): FP64 subtract. -/
def aluDsub (i : AluIn) : AluOut := .val (fp64.flush i.o.ftz (fSub fp64 i.o.rm (fp64.flush i.o.ftz i.a) (fp64.flush i.o.ftz i.b)))
def execDsub (o : Ops) (s : State) : Out := execUnit (.dsub o) true 16 aluDsub s

/-- DMUL (R210): FP64 multiply. -/
def aluDmul (i : AluIn) : AluOut := .val (fp64.flush i.o.ftz (fMul fp64 i.o.rm (fp64.flush i.o.ftz i.a) (fp64.flush i.o.ftz i.b)))
def execDmul (o : Ops) (s : State) : Out := execUnit (.dmul o) true 16 aluDmul s

/-- DDIV (R210): FP64 division. -/
def aluDdiv (i : AluIn) : AluOut := .val (fp64.flush i.o.ftz (fDiv fp64 i.o.rm (fp64.flush i.o.ftz i.a) (fp64.flush i.o.ftz i.b)))
def execDdiv (o : Ops) (s : State) : Out := execUnit (.ddiv o) true 64 aluDdiv s

/-- DFMA (R210): FP64 fused multiply-add. -/
def aluDfma (i : AluIn) : AluOut := .val (fp64.flush i.o.ftz (fFma fp64 i.o.rm (fp64.flush i.o.ftz i.a) (fp64.flush i.o.ftz i.b) (fp64.flush i.o.ftz i.c)))
def execDfma (o : Ops) (s : State) : Out := execUnit (.dfma o) true 16 aluDfma s

/-- DMIN (R210): FP64 minimum. -/
def aluDmin (i : AluIn) : AluOut := .val (fp64.flush i.o.ftz (fMin fp64 (fp64.flush i.o.ftz i.a) (fp64.flush i.o.ftz i.b)))
def execDmin (o : Ops) (s : State) : Out := execUnit (.dmin o) true 16 aluDmin s

/-- DMAX (R210): FP64 maximum. -/
def aluDmax (i : AluIn) : AluOut := .val (fp64.flush i.o.ftz (fMax fp64 (fp64.flush i.o.ftz i.a) (fp64.flush i.o.ftz i.b)))
def execDmax (o : Ops) (s : State) : Out := execUnit (.dmax o) true 16 aluDmax s

/-- DCMP (R210): FP64 compare. -/
def aluDcmp (i : AluIn) : AluOut := .cmp (fcmpCond i.o.subN (fp64.decode (fp64.flush i.o.ftz i.a)) (fp64.decode (fp64.flush i.o.ftz i.b)))
def execDcmp (o : Ops) (s : State) : Out := execUnit (.dcmp o) true 16 aluDcmp s

/-- DSQRT (R210): FP64 square root. -/
def aluDsqrt (i : AluIn) : AluOut := .val (fp64.flush i.o.ftz (fSqrt fp64 i.o.rm (fp64.flush i.o.ftz i.a)))
def execDsqrt (o : Ops) (s : State) : Out := execUnit (.dsqrt o) true 64 aluDsqrt s

/-- HADD2 (R211): Packed FP16 or BF16 add. -/
def aluHadd2 (i : AluIn) : AluOut := .val (packed2 i fun f a b _ => fAdd f i.o.rm a b)
def execHadd2 (o : Ops) (s : State) : Out := execAlu (.hadd2 o) aluHadd2 s

/-- HMUL2 (R211): Packed FP16 or BF16 multiply. -/
def aluHmul2 (i : AluIn) : AluOut := .val (packed2 i fun f a b _ => fMul f i.o.rm a b)
def execHmul2 (o : Ops) (s : State) : Out := execAlu (.hmul2 o) aluHmul2 s

/-- HFMA2 (R211): Packed FP16 or BF16 fused multiply-add. -/
def aluHfma2 (i : AluIn) : AluOut := .val (packed2 i fun f a b c => fFma f i.o.rm a b c)
def execHfma2 (o : Ops) (s : State) : Out := execAlu (.hfma2 o) aluHfma2 s

/-- HMIN2 (R211): Packed 16-bit minimum. -/
def aluHmin2 (i : AluIn) : AluOut := .val (packed2 i fun f a b _ => fMin f a b)
def execHmin2 (o : Ops) (s : State) : Out := execAlu (.hmin2 o) aluHmin2 s

/-- HMAX2 (R211): Packed 16-bit maximum. -/
def aluHmax2 (i : AluIn) : AluOut := .val (packed2 i fun f a b _ => fMax f a b)
def execHmax2 (o : Ops) (s : State) : Out := execAlu (.hmax2 o) aluHmax2 s

/-- HCMP2 (R211): Packed 16-bit compare into two predicates. -/
def aluHcmp2 (i : AluIn) : AluOut :=
  let f := halfFmt (i.o.subN % 2 == 1)
  let c (k : Nat) : Bool := fcmpCond (i.o.subN / 2) (f.decode (f.flush i.o.ftz (half i.a k))) (f.decode (f.flush i.o.ftz (half i.b k)))
  ⟨0, some (c 0), some (c 1)⟩
def execHcmp2 (o : Ops) (s : State) : Out := execAlu (.hcmp2 o) aluHcmp2 s

/-- FDOT2 (R211): Two-element 16-bit dot product plus FP32, with one rounding. -/
def aluFdot2 (i : AluIn) : AluOut :=
  let f := halfFmt (i.o.subN == 1)
  let e (x k : Nat) : FV := f.decode (f.flush i.o.ftz (half x k))
  .val (fp32.flush i.o.ftz (fp32.round i.o.rm (dot2 i.o.rm ((e i.a 0).mul (e i.b 0)) ((e i.a 1).mul (e i.b 1)) (fp32.decode (fp32.flush i.o.ftz i.c)))))
def execFdot2 (o : Ops) (s : State) : Out := execAlu (.fdot2 o) aluFdot2 s

/-- FRCP (R209): Correctly rounded reciprocal on the special-function unit. -/
def aluFrcp (i : AluIn) : AluOut := .val (fp32.flush i.o.ftz (fDiv fp32 i.o.rm (intBits fp32 1) (fp32.flush i.o.ftz i.a)))
def execFrcp (o : Ops) (s : State) : Out := execUnit (.frcp o) false 4 aluFrcp s

/-- FRSQ (R209): Correctly rounded reciprocal square root. -/
def aluFrsq (i : AluIn) : AluOut := .val (fp32.flush i.o.ftz (fp32.round i.o.rm ((fp32.decode (fp32.flush i.o.ftz i.a)).rsqrt fp32)))
def execFrsq (o : Ops) (s : State) : Out := execUnit (.frsq o) false 4 aluFrsq s

/-- FSQRT (R209): Correctly rounded square root. -/
def aluFsqrt (i : AluIn) : AluOut := .val (fp32.flush i.o.ftz (fSqrt fp32 i.o.rm (fp32.flush i.o.ftz i.a)))
def execFsqrt (o : Ops) (s : State) : Out := execUnit (.fsqrt o) false 4 aluFsqrt s

/-- FEXP2 (R209): Correctly rounded 2 to the power a. -/
def aluFexp2 (i : AluIn) : AluOut := .val (fp32.flush i.o.ftz (fExp2 i.o.rm (fp32.flush i.o.ftz i.a)))
def execFexp2 (o : Ops) (s : State) : Out := execUnit (.fexp2 o) false 4 aluFexp2 s

/-- FLOG2 (R209): Correctly rounded base-2 logarithm. -/
def aluFlog2 (i : AluIn) : AluOut := .val (fp32.flush i.o.ftz (fLog2 i.o.rm (fp32.flush i.o.ftz i.a)))
def execFlog2 (o : Ops) (s : State) : Out := execUnit (.flog2 o) false 4 aluFlog2 s

/-- FSIN (R209): Correctly rounded sine. -/
def aluFsin (i : AluIn) : AluOut := .val (fp32.flush i.o.ftz (fSin i.o.rm (fp32.flush i.o.ftz i.a)))
def execFsin (o : Ops) (s : State) : Out := execUnit (.fsin o) false 8 aluFsin s

/-- FCOS (R209): Correctly rounded cosine. -/
def aluFcos (i : AluIn) : AluOut := .val (fp32.flush i.o.ftz (fCos i.o.rm (fp32.flush i.o.ftz i.a)))
def execFcos (o : Ops) (s : State) : Out := execUnit (.fcos o) false 8 aluFcos s

/-- FTANH (R209): Correctly rounded hyperbolic tangent. -/
def aluFtanh (i : AluIn) : AluOut := .val (fp32.flush i.o.ftz (fTanh i.o.rm (fp32.flush i.o.ftz i.a)))
def execFtanh (o : Ops) (s : State) : Out := execUnit (.ftanh o) false 8 aluFtanh s

end Sys2Proof.Machine
end

