-- ==== Sys2Proof/Machine/Conv.lean ====
section
/-!
DEFINITION. Conversion and quantisation (08 R212-R215): between formats, the narrow elements, `QBLK` and `DQBL`, and the
team's `QSTAT`. Results are written at issue (log entry 9).
-/
namespace Sys2Proof.Machine

/-- A float format of a conversion selector, and the element a source of it takes (08 R212). -/
def selFmt (c : Nat) : Fmt :=
  match c with
  | 0 => fp32
  | 1 => bf16
  | 2 => fp16
  | _ => fp64
def selElem (c h a : Nat) : Nat := if c = 1 || c = 2 then half a h else a

/-- The integer type of a narrowing selector: bits and whether signed (08 R212). -/
def selInt (bits0 t : Nat) : Nat × Bool := (bits0 / 2 ^ (t / 2), t % 2 == 0)

/-- Element `k` of a register as raw bits, extended to 32 bits, by the types of `UNPK` (08 R213). -/
def unpkElem (t a k : Nat) : Nat :=
  match t with
  | 0 => wrapN 32 (sx 8 (a / 2 ^ (8 * (k % 4)) % 256))
  | 1 => a / 2 ^ (8 * (k % 4)) % 256
  | 2 => wrapN 32 (sx 4 (a / 2 ^ (4 * (k % 8)) % 16))
  | 3 => a / 2 ^ (4 * (k % 8)) % 16
  | 4 => wrapN 32 (sx 16 (a / 2 ^ (16 * (k % 2)) % 2 ^ 16))
  | 5 => a / 2 ^ (16 * (k % 2)) % 2 ^ 16
  | _ => a / 2 ^ (8 * (k % 4)) % 64

/-- The value of a narrow code with its scale byte, rounded to FP32 (08 R214; 09 R231). -/
def scaledVal (rm : Rm) (fmt code scale : Nat) : Nat := fp32.round rm ((elemDec fmt code).scale (scaleExp scale))

/-- F2F (R212): Converts between float formats. -/
def aluF2f (i : AluIn) : AluOut :=
  let c := i.o.subN % 4
  let d := selFmt (i.o.subN / 8)
  let x := (selFmt c).flush i.o.ftz (selElem c (i.o.subN / 4 % 2) i.a)
  .val (d.flush i.o.ftz (d.round i.o.rm ((selFmt c).decode x)))
def execF2f (o : Ops) (s : State) : Out := execAlu (.f2f o) aluF2f s

/-- F2I (R212): Converts a float to an integer with saturation. -/
def aluF2i (i : AluIn) : AluOut :=
  let c := i.o.subN % 4
  let t := selInt 32 (i.o.subN / 8)
  let x := (selFmt c).flush i.o.ftz (selElem c (i.o.subN / 4 % 2) i.a)
  .val (wrapN 32 (toIntSat ((selFmt c).decode x) i.o.rm t.2 t.1))
def execF2i (o : Ops) (s : State) : Out := execAlu (.f2i o) aluF2i s

/-- I2F (R212): Converts an integer to a float. -/
def aluI2f (i : AluIn) : AluOut :=
  let v : Int := if i.o.subN / 4 % 2 = 1 then i.a else sx (if i.o.subN / 8 = 1 then 64 else 32) i.a
  .val ((selFmt (i.o.subN % 4)).round i.o.rm (FV.ofQ (Q.ofInt v)))
def execI2f (o : Ops) (s : State) : Out := execAlu (.i2f o) aluI2f s

/-- I2I (R212): Saturates an integer to a narrower type. -/
def aluI2i (i : AluIn) : AluOut :=
  let t := selInt 16 (i.o.subN % 8)
  let v := asInt (i.o.subN / 8 == 1) i.a
  .val (wrapN 32 (if t.2 then satS t.1 v else satU t.1 v))
def execI2i (o : Ops) (s : State) : Out := execAlu (.i2i o) aluI2i s

/-- LN2F (R213): Decodes one LNS6 element to FP32. -/
def aluLn2f (i : AluIn) : AluOut :=
  .val (fp32.round .rne (FV.ofQ (lnsDec (packedElem 1 i.a i.o.subN))))
def execLn2f (o : Ops) (s : State) : Out := execAlu (.ln2f o) aluLn2f s

/-- F2LN (R213): Encodes FP32 as an LNS6 code. -/
def aluF2ln (i : AluIn) : AluOut :=
  .val (lnsEnc (fp32.decode (fp32.flush i.o.ftz i.a)))
def execF2ln (o : Ops) (s : State) : Out := execAlu (.f2ln o) aluF2ln s

/-- PACK (R213): Packs 16-bit values, bytes or nibbles into one register. -/
def aluPack (i : AluIn) : AluOut :=
  let r (f : Fmt) (x : Nat) : Nat := f.flush i.o.ftz (f.round i.o.rm (fp32.decode (fp32.flush i.o.ftz x)))
  match i.o.subN with
  | 0 => .val (r fp16 i.a + 2 ^ 16 * r fp16 i.b)
  | 1 => .val (r bf16 i.a + 2 ^ 16 * r bf16 i.b)
  | 2 => .val (i.a % 2 ^ 16 + 2 ^ 16 * (i.b % 2 ^ 16))
  | 3 => .val (i.a * 2 ^ 8 % 2 ^ 32 + i.b % 2 ^ 8)
  | _ => .val (i.a * 2 ^ 4 % 2 ^ 32 + i.b % 2 ^ 4)
def execPack (o : Ops) (s : State) : Out := execAlu (.pack o) aluPack s

/-- UNPK (R213): Extracts one packed element as raw bits. -/
def aluUnpk (i : AluIn) : AluOut :=
  .val (unpkElem i.o.subN i.a i.b)
def execUnpk (o : Ops) (s : State) : Out := execAlu (.unpk o) aluUnpk s

/-- DQBL (R214): Decodes one quantised element with its scale. -/
def aluDqbl (i : AluIn) : AluOut :=
  .val (fp32.flush i.o.ftz (scaledVal i.o.rm (i.o.subN / 4) (packedElem (i.o.subN / 4) i.a (i.o.subN % 4)) i.b))
def execDqbl (o : Ops) (s : State) : Out := execAlu (.dqbl o) aluDqbl s

/-- One block of `QBLK` (08 R214): lanes `32 b` to `32 b + 31`, +0 where the lane does not contribute. -/
def quantLanes (fmt : Nat) (m : BitVec 64) (a : Nat → Nat) (b : Nat) : Nat × List Nat × Nat :=
  quantBlock fmt ((List.range 32).map fun k => if m.getLsbD (32 * b + k) then fp32.decode (a (32 * b + k)) else .fin false Q.zero)

/-- QBLK (R214): Quantises the warp as two blocks of 32 lanes, and ORs QSTAT bits at completion. -/
def execQblk (o : Ops) (s : State) : Out :=
  .next (s.guarded (.qblk o) fun s =>
    let bad := s.idxBad (shLane 0x7C formsNoWide (.vec 1) (some .f32) none false false true true true) o
    let m := s.passMask o &&& ~~~bad
    let a := fun l => s.src o .f32 o.s1 l
    let q (b : Nat) : Nat × List Nat × Nat := quantLanes o.subN m a b
    let q0 := q 0
    let q1 := q 1
    let live (b : Nat) : Bool := (List.range 32).any fun k => m.getLsbD (32 * b + k)
    let st := (if live 0 then q0.2.2 else 0) ||| (if live 1 then q1.2.2 else 0)
    let v (l : Nat) : Nat :=
      let r := if l < 32 then q0 else q1
      getP 0 r.2.1 (l % 32) % 256 + 2 ^ 16 * r.1
    let sh := shLane 0x7C formsNoWide (.vec 1) (some .f32) none false false true true true
    (((s.putResults o 1 m fun l => AluOut.val (v l)).onMyTeam fun t =>
      (t.settleQ s.now 0).addQ s.cur (s.now + 12) st).parkLanes s.cur bad fun l =>
        idxRec s.ipc ((s.me.idxFault sh o l).getD 0)).advance)

/-- An earlier `QBLK` or quantising `MSTACC` of the warp that has not completed (08 R215). -/
def State.quantPending (s : State) : Bool :=
  (s.myTeam.qlater.any fun e => e.1 == s.cur && s.now ≤ e.2.1) ||
  s.tileops.any fun k =>
    k.live && k.warp == s.cur &&
    match k.kind with
    | .mstacc _ _ _ fmt _ _ _ _ _ => 1 ≤ fmt && fmt ≤ 3
    | _ => false

/-- QSRD (R215): Reads the team's QSTAT once the warp's earlier quantising operations have completed. -/
def execQsrd (o : Ops) (s : State) : Out :=
  .next (s.guarded (.qsrd o) fun s =>
    if !s.anyPass o then s.advance
    else if s.quantPending then s.stall
    else s.runAlu (shLane 0x7E formsNoWide (.gpr 1 false) none none false false true true true) o fun _ =>
      AluOut.val (s.myTeam.settleQ s.now 0).qstat.toNat)

/-- QSCLR (R215): Clears QSTAT bits under the W1C rule. -/
def execQsclr (o : Ops) (s : State) : Out :=
  .next (s.guarded (.qsclr o) fun s =>
    if !s.anyPass o then s.advance
    else (s.onMyTeam fun t => t.settleQ s.now (BitVec.ofNat 32 (s.uni o o.s1))).advance)

end Sys2Proof.Machine
end

