-- ==== Sys2Proof/Machine/LoadStore.lean ====
section
/-!
DEFINITION. Loads and stores (09 R224-R231; 05 R110, R111; 08 R221): global memory, scratch, slice memory, the per-thread stack,
constants, prefetch and cache control, tiles, scaled lines and pattern tables.
-/
namespace Sys2Proof.Machine

/-! ## Addresses and data (09 R224) -/

/-- The signed offset of an address in a lane. -/
def State.offset (s : State) (o : Ops) (l : Nat) : Int :=
  match o.form with
  | .w128i => o.imm.toNat
  | .w96i => sx 32 (o.imm.toNat % 2 ^ 32)
  | _ => sx 32 (s.src o .i32 o.s2 l)
/-- A global address in a lane. -/
def State.gAddr (s : State) (o : Ops) (l : Nat) : Nat := wrapN 64 (s.readN o o.s1 2 l + s.offset o l)
/-- A scratch or stack offset in a lane. -/
def State.sAddr (s : State) (o : Ops) (l : Nat) : Nat := wrapN 32 (s.src o .i32 o.s1 l + s.offset o l)
/-- The data of a store, read from DST. -/
def State.stData (s : State) (o : Ops) (n l : Nat) : BitVec 256 := BitVec.ofNat 256 (s.readN o o.dstSrc n l)
/-- A warp-uniform access whose index is out of bounds in a lane parks every lane of `active(w)` (09 R222). -/
def State.parkIdxUni (s : State) (sh : Shape) (o : Ops) : State :=
  s.parkAll (idxRec s.ipc ((s.me.idxFault sh o (((lanesOf (s.idxBad sh o)).head?).getD 0)).getD 0))
/-- The first register that a load writes in a lane; numbers from 1000 on name shadow registers (15 R321). -/
def State.ldReg (s : State) (o : Ops) (l : Nat) : Nat :=
  match o.kd with
  | .idx => s.me.idxOf o l o.dst.toNat
  | .vec => if s.me.hmode && o.dst.toNat < 16 then 1000 + o.dst.toNat else o.dst.toNat
  | _ => o.dst.toNat
/-- The registers a load will write, as scoreboard keys; keys from 2000 on name shadow registers. -/
def State.ldKeys (s : State) (o : Ops) (n : Nat) (m : BitVec 64) : List Nat :=
  match o.kd with
  | .scal => (List.range n).map (256 + o.dst.toNat + ·)
  | .idx => sortU ((lanesOf m).flatMap fun l => (List.range n).map (s.me.idxOf o l o.dst.toNat + ·))
  | _ => (List.range n).map fun k => if s.me.hmode && o.dst.toNat < 16 then 2000 + o.dst.toNat + k else o.dst.toNat + k

def State.helpers (s : State) : BitVec 64 := s.me.maskOf fun _ y => y.helper
/-- The scope field makes a load bypass L1 (06 R137; 09 R226). -/
def isScoped (o : Ops) : Bool := o.subN / 8 % 2 == 1 && 1 ≤ o.auxN
def isSigned (o : Ops) : Bool := o.subN % 8 == 1 || o.subN % 8 == 3

/-- The lanes that go on to their accesses: those that pass, without an index out of bounds, and for a store no helper. -/
def State.memLanes (s : State) (sh : Shape) (o : Ops) (store : Bool) : BitVec 64 :=
  let m := s.passMask o &&& ~~~s.idxBad sh o
  if store then m &&& ~~~s.helpers else m
/-- Lanes of a mask park with a class at their data address. -/
def State.parkAcc (s : State) (m : BitVec 64) (cls : Nat) (write : Bool) (n : Nat) (addr : Nat → Nat) : State :=
  s.parkLanes s.cur m fun l => accRec cls s.ipc write n (addr l)
/-- A warp-uniform access that fails parks every lane of `active(w)` (09 R222). -/
def State.parkUni (s : State) (cls : Nat) (write : Bool) (n a : Nat) : State := s.parkAcc s.act cls write n fun _ => a

def Need.plain (store : Bool) (n : Nat) : Need := ⟨store, false, false, false, none, n, false, []⟩

/-- The record of a load's operation. -/
def ldOp (s : State) (_o : Ops) (kind : OpKind) (bypass : Bool) (accs : List Acc) (dsts : List Nat) : MemOp :=
  { MemOp.idle with ctr := .ld, kind := kind, req := .load, bypass := bypass, accs := accs, pc := s.ipc, dsts := dsts }
def stOp (s : State) (kind : OpKind) (accs : List Acc) (last : Bool) : MemOp :=
  { MemOp.idle with ctr := .st, kind := kind, req := .store, accs := accs, pc := s.ipc, lastUse := last }

/-! ## Global memory -/

/-- A load from global memory (09 R226): `slr` for slice memory alone. -/
def State.loadGlobal (s : State) (sh : Shape) (o : Ops) (slr : Bool) : State :=
  let n := o.accBytes
  let bypass := slr || (isScoped o)
  if s.noRoom .ld then s.stall
  else if o.kd = .scal then
    let a := s.gAddr o 0
    if s.act = 0 then s.advance
    else if a % n ≠ 0 then (s.parkUni 6 false n a).advance
    else
      let l := ((lanesOf s.act).head?).getD 0
      (s.startOp s.cur { Need.plain false n with slr := slr, uni := some s.act }
        (ldOp s o (.load (isSigned o) true) bypass [⟨l, a, 0, n, 0, o.dst.toNat, false, false, none⟩] (s.ldKeys o o.accRegs 0))).advance
  else
    let m := s.memLanes sh o false
    let mis := s.me.maskOf fun l _ => m.getLsbD l && s.gAddr o l % n != 0
    let good := m &&& ~~~mis
    let accs := (lanesOf good).map fun l => (⟨l, s.gAddr o l, 0, n, 0, s.ldReg o l, false, false, none⟩ : Acc)
    let t := (s.parkIdx sh o).parkAcc mis 6 false n (s.gAddr o)
    (t.startOp s.cur { Need.plain false n with slr := slr }
      (ldOp s o (.load (isSigned o) false) bypass accs (s.ldKeys o o.accRegs good))).advance

/-- A store to global memory (09 R226). -/
def State.storeGlobal (s : State) (sh : Shape) (o : Ops) (slr last : Bool) : State :=
  let n := o.accBytes
  if s.noRoom .st then s.stall
  else
    let m := s.memLanes sh o true
    let mis := s.me.maskOf fun l _ => m.getLsbD l && s.gAddr o l % n != 0
    let accs := (lanesOf (m &&& ~~~mis)).map fun l => (⟨l, s.gAddr o l, 0, n, s.stData o o.accRegs l, 0, false, false, none⟩ : Acc)
    let t := (s.parkIdx sh o).parkAcc mis 6 true n (s.gAddr o)
    (t.startOp s.cur { Need.plain true n with slr := slr } (stOp s .store accs last)).advance

/-! ## Scratch -/

/-- The rounds of a scratch access (05 R111): the most distinct words in one of the 64 banks. -/
def bankRounds (swz n : Nat) (addrs : List Nat) : Nat :=
  let words := sortU (addrs.flatMap fun a => (List.range ((n + 3) / 4)).map fun k => swizzle swz (a + 4 * k) / 4)
  max 1 ((List.range 64).foldl (fun m b => max m (words.filter fun w => w % 64 == b).length) 0)
/-- The team's scratch, read as a number. -/
def Team.read (t : Team) (a n : Nat) : Nat := leNum (Memory.bytes zeroByte t.scratch a n)
def Team.write (t : Team) (a : Nat) (bs : List Byte) : Team := { t with scratch := Memory.put zeroByte t.scratch a bs }

/-- An operation whose values are known completes `n` cycles later. -/
def State.finishLater (s : State) (w : Nat) (m : MemOp) (n : Nat) (ack : Bool) : State :=
  let m := { m with live := true, warp := w, core := (s.warp w).core, left := 1, seq := s.seq }
  let (s, i) := s.bumpSeq.addMemop m
  (s.count w m.ctr (· + 1)).later n (if ack then .storeAcknowledge else .loadReply) i 1

/-- The accesses of an atomic applied to a team's scratch in lane order, with the old values (09 R238). -/
def Team.atomics (op : AOp) (ty : ATy) : List Acc → Team → Team × List (BitVec 128)
  | [], t => (t, [])
  | a :: r, t =>
    let old := t.read a.pa a.size
    let (u, vs) := Team.atomics op ty r (t.write a.pa (toBytes a.size (atomicNew op ty old a.data.toNat)))
    (u, BitVec.ofNat 128 old :: vs)
def pairUp {α : Type} (l : List α) : List (Nat × α) := (List.range l.length).zip l

/-- A scratch operation acts at its banks on the scratch of team `t` (06 R415). -/
def State.actScratch (s : State) (i t : Nat) : State :=
  let m := s.memop i
  match m.req with
  | .load => s.onMemop i fun m => { m with buf := pairUp (m.accs.map fun a => BitVec.ofNat 128 ((s.team t).read a.pa a.size)) }
  | .store => s.onTeam t fun tm => m.accs.foldl (fun tm a => tm.write a.pa (toBytes a.size a.data.toNat)) tm
  | .atomic op ty _ =>
    let (tm, olds) := (s.team t).atomics op ty m.accs
    (s.setTeam t tm).onMemop i fun m => { m with buf := pairUp olds }
/-- A scratch operation of warp `w`: it acts 2 cc after issue (06 R136, R415), and its values are ready, or it is complete, `n` cycles
after issue. -/
def State.scratchOp (s : State) (w : Nat) (m : MemOp) (n : Nat) (ack : Bool) : State :=
  (s.later 2 .requestArrival (freeSlot MemOp.live s.memops) 2 (s.warp w).team).finishLater w m n ack

/-- The lanes of a scratch access split by their checks: misaligned, beyond the allocation, good (05 R110). -/
def State.scratchLanes (s : State) (m : BitVec 64) (n : Nat) (addr : Nat → Nat) : BitVec 64 × BitVec 64 × BitVec 64 :=
  let mis := s.me.maskOf fun l _ => m.getLsbD l && addr l % n != 0
  let out := s.me.maskOf fun l _ => m.getLsbD l && !mis.getLsbD l && s.myTeam.kern.scratch < addr l + n
  (mis, out, m &&& ~~~mis &&& ~~~out)

/-- A load from scratch (09 R226; 05 R110, R111): its values are ready after 24 + 2 × (rounds − 1) cc. -/
def State.loadScratch (s : State) (sh : Shape) (o : Ops) : State :=
  let n := o.accBytes
  let sc := o.kd == .scal
  if s.noRoom .ld then s.stall
  else
    let m := if sc then (match lanesOf s.act with
      | [] => 0
      | l :: _ => 1 <<< l) else s.memLanes sh o false
    let (mis, out, good) := s.scratchLanes m n (s.sAddr o)
    let t := if sc then
        (if mis != 0 then s.parkUni 6 false n (s.sAddr o 0) else if out != 0 then s.parkUni 5 false n (s.sAddr o 0) else s)
      else ((s.parkIdx sh o).parkAcc mis 6 false n (s.sAddr o)).parkAcc out 5 false n (s.sAddr o)
    if good = 0 then t.advance
    else
      let ls := lanesOf good
      let accs := ls.map fun l => (⟨l, s.sAddr o l, s.sAddr o l, n, 0, s.ldReg o l, false, false, none⟩ : Acc)
      let k := bankRounds s.myTeam.kern.swz n (ls.map (s.sAddr o))
      (t.scratchOp s.cur (ldOp s o (.load (isSigned o) sc) false accs (s.ldKeys o o.accRegs good)) (24 + 2 * (k - 1)) false).advance

/-- A store to scratch (09 R226; 06 R136): complete 2 cc after issue. -/
def State.storeScratch (s : State) (sh : Shape) (o : Ops) : State :=
  let n := o.accBytes
  if s.noRoom .st then s.stall
  else
    let (mis, out, good) := s.scratchLanes (s.memLanes sh o true) n (s.sAddr o)
    let t := ((s.parkIdx sh o).parkAcc mis 6 true n (s.sAddr o)).parkAcc out 5 true n (s.sAddr o)
    if good = 0 then t.advance
    else
      let accs := (lanesOf good).map fun l => (⟨l, s.sAddr o l, s.sAddr o l, n, s.stData o o.accRegs l, 0, false, false, none⟩ : Acc)
      (t.scratchOp s.cur (stOp s .store accs false) 2 true).advance

/-! ## Stack -/

/-- The global address of byte `off` of the stack of lane `l` (09 R228). -/
def State.stackAddr (s : State) (l off : Nat) : Nat :=
  let t := s.myTeam
  let g := 64 * (t.num * t.kern.warps + s.me.num) + l
  (t.sb.toNat + g / 64 * 64 * t.sz + off / 4 * 256 + g % 64 * 4 + off % 4) % 2 ^ 64
/-- The parts of a stack access: its 4-byte words lie 256 bytes apart (06 R143). -/
def State.stackParts (s : State) (l off n : Nat) (data : BitVec 256) (reg : Nat) : List Acc :=
  if n ≤ 4 then [⟨l, s.stackAddr l off, 0, n, data, reg, false, false, none⟩]
  else (List.range (n / 4)).map fun k => ⟨l, s.stackAddr l (off + 4 * k), 0, 4, data >>> (32 * k), reg, false, false, none⟩

/-- The lanes of a stack access split by their checks (09 R222, R228). -/
def State.stackLanes (s : State) (m : BitVec 64) (n : Nat) (addr : Nat → Nat) : BitVec 64 × BitVec 64 × BitVec 64 :=
  let mis := s.me.maskOf fun l _ => m.getLsbD l && addr l % n != 0
  let out := s.me.maskOf fun l _ => m.getLsbD l && !mis.getLsbD l && s.myTeam.sz < addr l + n
  (mis, out, m &&& ~~~mis &&& ~~~out)

/-- A load from the stack. -/
def State.loadStack (s : State) (sh : Shape) (o : Ops) : State :=
  let n := o.accBytes
  let sc := o.kd == .scal
  if s.noRoom .ld then s.stall
  else
    let m := if sc then (match lanesOf s.act with
      | [] => 0
      | l :: _ => 1 <<< l) else s.memLanes sh o false
    let (mis, out, good) := s.stackLanes m n (s.sAddr o)
    let t := if sc then
        (if mis != 0 then s.parkUni 6 false n (s.sAddr o 0) else if out != 0 then s.parkUni 5 false n (s.sAddr o 0) else s)
      else ((s.parkIdx sh o).parkAcc mis 6 false n (s.sAddr o)).parkAcc out 5 false n (s.sAddr o)
    let accs := (lanesOf good).flatMap fun l => s.stackParts l (s.sAddr o l) n 0 (s.ldReg o l)
    (t.startOp s.cur { Need.plain false n with uni := if sc then some s.act else none }
      (ldOp s o (.load (isSigned o) sc) (isScoped o) accs (s.ldKeys o o.accRegs good))).advance

/-- A store to the stack. -/
def State.storeStack (s : State) (sh : Shape) (o : Ops) : State :=
  let n := o.accBytes
  if s.noRoom .st then s.stall
  else
    let (mis, out, good) := s.stackLanes (s.memLanes sh o true) n (s.sAddr o)
    let t := ((s.parkIdx sh o).parkAcc mis 6 true n (s.sAddr o)).parkAcc out 5 true n (s.sAddr o)
    let accs := (lanesOf good).flatMap fun l => s.stackParts l (s.sAddr o l) n (s.stData o o.accRegs l) 0
    (t.startOp s.cur (Need.plain true n) (stOp s .store accs false)).advance

/-! ## The instructions -/

/-- A memory instruction through its own shape. -/
def memExec (i : Instr) (k : State → Shape → Ops → State) (s : State) : Out :=
  .next (s.guarded i fun s =>
    match shapeOf i, opsOf i with
    | some sh, some o => k s sh o
    | _, _ => s)

/-- GLD (R226): Starts a global load: the lanes are checked and the line requests are sent. -/
def execGld (o : Ops) (s : State) : Out := memExec (.gld o) (fun s sh o => s.loadGlobal sh o false) s

/-- GST (R226): Starts a global store through the core's write-through queue. -/
def execGst (o : Ops) (s : State) : Out := memExec (.gst o) (fun s sh o => s.storeGlobal sh o false false) s

/-- SPLD (R226): Scratch load, served in bank rounds. -/
def execSpld (o : Ops) (s : State) : Out := memExec (.spld o) (fun s sh o => s.loadScratch sh o) s

/-- SPST (R226): Scratch store. -/
def execSpst (o : Ops) (s : State) : Out := memExec (.spst o) (fun s sh o => s.storeScratch sh o) s

/-- SLLD (R226): Slice-memory load. -/
def execSlld (o : Ops) (s : State) : Out := memExec (.slld o) (fun s sh o => s.loadGlobal sh o true) s

/-- SLST (R226): Slice-memory store. -/
def execSlst (o : Ops) (s : State) : Out := memExec (.slst o) (fun s sh o => s.storeGlobal sh o true false) s

/-- SKLD (R228): Per-thread stack load. -/
def execSkld (o : Ops) (s : State) : Out := memExec (.skld o) (fun s sh o => s.loadStack sh o) s

/-- SKST (R228): Per-thread stack store. -/
def execSkst (o : Ops) (s : State) : Out := memExec (.skst o) (fun s sh o => s.storeStack sh o) s

/-- GSTN (R226): Global store whose line the home slice marks first for replacement. -/
def execGstn (o : Ops) (s : State) : Out := memExec (.gstn o) (fun s sh o => s.storeGlobal sh o false true) s

/-- The address of a warp-uniform access: a scalar pair with its offset. -/
def State.uAddr (s : State) (o : Ops) : Nat := s.gAddr o 0
/-- The first lane of `active(w)`. -/
def State.firstLane (s : State) : Nat := ((lanesOf s.act).head?).getD 0

/-- CLD (R229): Warp-uniform global load from a scalar address. -/
def execCld (o : Ops) (s : State) : Out :=
  memExec (.cld o) (fun s _ o =>
    let n := o.accBytes
    let a := s.uAddr o
    let sc := o.kd == .scal
    let m := if sc then s.act else s.passMask o
    if s.noRoom .ld then s.stall
    else if s.act = 0 || !s.anyPass o then s.advance
    else if s.idxBad (shCld o) o ≠ 0 then (s.parkIdxUni (shCld o) o).advance
    else if a % n ≠ 0 then (s.parkUni 6 false n a).advance
    else if o.kd = .idx then
      -- An indexed destination names a register of its own in each lane (03 R63): one access a lane, all of one address.
      let accs := (lanesOf m).map fun l => (⟨l, a, 0, n, 0, s.ldReg o l, false, false, none⟩ : Acc)
      (s.startOp s.cur { Need.plain false n with uni := some s.act }
        (ldOp s o (.load (isSigned o) false) (isScoped o) accs (s.ldKeys o o.accRegs m))).advance
    else
      (s.startOp s.cur { Need.plain false n with uni := some s.act }
        (ldOp s o (.cld (isSigned o) sc m) (isScoped o) [⟨s.firstLane, a, 0, n, 0, s.ldReg o 0, false, false, none⟩]
          (s.ldKeys o o.accRegs m))).advance) s

/-- A prefetch (09 R229): each lane's line, with no counter, a lane that would fault dropping its access. -/
def State.prefetch (s : State) (sh : Shape) (o : Ops) (l1 : Bool) : State :=
  let m := s.memLanes sh o false
  let accs := (lanesOf m).map fun l => (⟨l, lineOf (s.gAddr o l), 0, 1, 0, 0, false, false, none⟩ : Acc)
  (s.startOp s.cur { Need.plain false 1 with quiet := true }
    { ldOp s o (.prefetch l1) (!l1) accs [] with ctr := .none }).advance

/-- PRFG_L1 (R229): Prefetches each lane's line into L1. -/
def execPrfgL1 (o : Ops) (s : State) : Out := memExec (.prfgL1 o) (fun s sh o => s.prefetch sh o true) s

/-- PRFG_L2 (R229): Prefetches each lane's line into its home slice only. -/
def execPrfgL2 (o : Ops) (s : State) : Out := memExec (.prfgL2 o) (fun s sh o => s.prefetch sh o false) s

/-- The physical address that a virtual one has now, without a lookup's effects. -/
def State.quietPhys (s : State) (w va : Nat) : Option Nat :=
  let x := s.warp w
  let asid := (s.team x.team).asid
  match s.tlbFind x.core asid va with
  | some e => some (e.phys va)
  | none =>
    match s.tlbFind (sectorUnit (sectorOf x.core)) asid va with
    | some e => some (e.phys va)
    | none => if canonical va then ((s.walkTables (s.partOf w) asid va).leaf.map fun e => e.phys va) else none

/-- CCTL_IVL (R229): Invalidates the named lines in the issuing core's L1. -/
def execCctlIvl (o : Ops) (s : State) : Out :=
  memExec (.cctlIvl o) (fun s sh o =>
    let m := s.memLanes sh o false
    (((lanesOf m).foldl (fun t l =>
      match s.quietPhys s.cur (s.readN o o.s1 2 l) with
      | some pa => t.l1Kill s.me.core (lineOf pa)
      | none => t) (s.parkIdx sh o))).advance 2) s

/-- CCTL_IVAL (R229): Invalidates every global line of the issuing core's L1. -/
def execCctlIval (o : Ops) (s : State) : Out :=
  memExec (.cctlIval o) (fun s _ o => if s.anyPass o then (s.l1Clear s.me.core).advance 8 else s.advance 8) s

/-! ## Tiles and scaled lines -/

/-- The leading dimension of a tile access (09 R230). -/
def State.tileLd (s : State) (o : Ops) : Nat := if o.form.isImm then s.uni o o.s3 else s.uni o o.s2
/-- The base of a tile access: a scalar pair, with an offset in the 96-bit form alone. -/
def State.tileBase (s : State) (o : Ops) : Nat :=
  wrapN 64 (s.uni64 o.s1 + (if o.form.isImm then sx 32 (o.imm.toNat % 2 ^ 32) else 0))
/-- The constraints of 04 R104 on a base and a leading dimension, for an element of `z2` half-bytes. -/
def tensorOk (layout z2 ld base : Nat) : Bool :=
  if layout = 2 then ld % 16 == 0 && base % (128 * z2) == 0 else base % ((z2 + 1) / 2) == 0

/-- The element accesses of a tile in the lanes of a mask (09 R230): register and data of element `j` of a lane. -/
def State.tileAccs (s : State) (o : Ops) (m : BitVec 64) (reg data : Nat → Nat → Nat) : List Acc :=
  let z := if o.subN = 0 then 4 else 2
  (lanesOf m).flatMap fun l => (List.range 4).map fun j =>
    ⟨l, (s.tileBase o + tensorOff o.auxN (2 * z) (s.tileLd o) (l / 4) (4 * (l % 4) + j)) % 2 ^ 64, 0, z, BitVec.ofNat 256 (data l j), reg l j, false, false, none⟩

/-- TLD (R230): Loads one 16 x 16 tile into the warp. -/
def execTld (o : Ops) (s : State) : Out :=
  memExec (.tld o) (fun s sh o =>
    let b32 := o.subN == 0
    let m := s.memLanes sh o false
    if s.noRoom .ld then s.stall
    else if !s.anyPass o then s.advance
    else if !tensorOk o.auxN (if b32 then 8 else 4) (s.tileLd o) (s.tileBase o) then
      (s.parkUni 6 false (if b32 then 4 else 2) (s.tileBase o)).advance
    else
      let accs := s.tileAccs o m (fun l j => if b32 then s.ldReg o l + j else 2 * s.ldReg o l + j) fun _ _ => 0
      ((s.parkIdx sh o).startOp s.cur (Need.plain false (if b32 then 4 else 2))
        (ldOp s o (if b32 then .load false false else .tld16) false accs (s.ldKeys o (if b32 then 4 else 2) m))).advance) s

/-- TST (R230): Stores one 16 x 16 tile from the warp. -/
def execTst (o : Ops) (s : State) : Out :=
  memExec (.tst o) (fun s sh o =>
    let b32 := o.subN == 0
    let n := if b32 then 4 else 2
    let m := s.memLanes sh o true
    if s.noRoom .st then s.stall
    else if s.passMask o &&& ~~~s.helpers = 0 then s.advance
    else if !tensorOk o.auxN (if b32 then 8 else 4) (s.tileLd o) (s.tileBase o) then
      (s.parkUni 6 true (if b32 then 4 else 2) (s.tileBase o)).advance
    else
      let data (l j : Nat) : Nat := s.readN o o.dstSrc n l / 2 ^ (8 * n * j) % 2 ^ (8 * n)
      ((s.parkIdx sh o).startOp s.cur (Need.plain true n) (stOp s .store (s.tileAccs o m (fun _ _ => 0) data) false)).advance) s

/-- Sixteen-byte pieces of a line access of one lane. -/
def linePieces (l va : Nat) (reg : Nat) : List Acc :=
  (List.range 8).map fun k => ⟨l, va + 16 * k, 0, 16, 0, reg, false, false, none⟩
/-- Lanes wait for the outcome of their instruction (log entry 37). -/
def State.holdLanes (s : State) (m : BitVec 64) (pc : DWord) : State :=
  if s.me.hmode then s
  else s.onMe fun x => x.mapLanes fun l y =>
    if m.getLsbD l && y.st == .running && y.failing.isNone then { y with failing := some (2 ^ 64, mkFault 0 pc) } else y

/-- QLD (R231): Loads and decodes two blocks of a scaled line. -/
def execQld (o : Ops) (s : State) : Out :=
  memExec (.qld o) (fun s sh o =>
    let a := s.uAddr o
    let m := s.passMask o
    if s.noRoom .ld then s.stall
    else if !s.anyPass o then s.advance
    else if s.idxBad sh o ≠ 0 then (s.parkIdxUni sh o).advance
    else if a % 128 ≠ 0 then (s.parkUni 6 false 128 a).advance
    else
      let t := s.startOp s.cur { Need.plain false 128 with uni := some s.act }
        (ldOp s o (.qld o.subN o.auxN m ((List.range 64).map (s.ldReg o))) false (linePieces s.firstLane a 0) (s.ldKeys o 1 m))
      let u := t.advance
      if t.memops.any fun k => k.live && k.warp == s.cur && k.seq ≥ s.seq then u.holdLanes s.act s.ipc else u) s

/-- The bytes that `QST` writes, as offset and byte (09 R231; 04 R93): header, the blocks written, the padding. -/
def qstBytes (fmt blk : Nat) (q0 q1 : Nat × List Nat × Nat) : List (Nat × Byte) :=
  let two := blk + 1 < lineBlocks fmt
  let bytes (at_ n v : Nat) : List (Nat × Byte) := (List.range n).map fun k => (at_ + k, BitVec.ofNat 8 (v / 256 ^ k))
  let block (b : Nat) (q : Nat × List Nat × Nat) : List (Nat × Byte) :=
    bytes (blockAt fmt b) (1 + blockBytes fmt) (q.1 % 256 + 256 * payloadOf fmt q.2.1)
  let last := if two then blk + 1 else blk
  bytes 0 3 (fmt + 16 * (last + 1)) ++ block blk q0 ++ (if two then block (blk + 1) q1 else []) ++
  (if last + 1 = lineBlocks fmt then bytes (blockAt fmt (last + 1)) (128 - blockAt fmt (last + 1)) 0 else [])

/-- QST (R231): Quantises two blocks and writes them into a scaled line as one event. -/
def execQst (o : Ops) (s : State) : Out :=
  memExec (.qst o) (fun s sh o =>
    let a := s.uAddr o
    let m := s.passMask o &&& ~~~s.helpers
    if s.noRoom .st then s.stall
    else if m = 0 then s.advance
    else if s.idxBad sh o &&& ~~~s.helpers ≠ 0 then (s.parkIdxUni sh o).advance
    else if a % 128 ≠ 0 then (s.parkUni 6 true 128 a).advance
    else
      let q (b : Nat) : Nat × List Nat × Nat := quantLanes o.subN m (fun l => s.readN o o.dstSrc 1 l) b
      let two := o.auxN + 1 < lineBlocks o.subN
      let bits := (q 0).2.2 ||| (if two then (q 1).2.2 else 0)
      let accs := (qstBytes o.subN o.auxN (q 0) (q 1)).map fun b =>
        (⟨s.firstLane, a + b.1, 0, 1, BitVec.ofNat 256 b.2.toNat, 0, false, false, none⟩ : Acc)
      (s.startOp s.cur { Need.plain true 128 with uni := some s.act } (stOp s (.qst bits) accs false)).advance) s

/-! ## Pattern tables (08 R221) -/

/-- The scratch offset of `LDPAT`. -/
def State.patAddr (s : State) (o : Ops) : Nat :=
  wrapN 32 (s.uni o o.s1 + (if o.form.isImm then sx 32 (o.imm.toNat % 2 ^ 32) else o.s2.val.toInt))

/-- LDPAT (R221): Starts a warp-uniform load of a 512-byte pattern table from scratch. -/
def execLdpat (o : Ops) (s : State) : Out :=
  memExec (.ldpat o) (fun s _ o =>
    let a := s.patAddr o
    if s.noRoom .ld then s.stall
    else if !s.anyPass o then s.advance
    else if a % 8 ≠ 0 then (s.parkUni 6 false 8 a).advance
    else if s.myTeam.kern.scratch < a + 512 then (s.parkUni 5 false 8 a).advance
    else
      let m := { ldOp s o (.ldpat o.auxN) false [⟨s.firstLane, a, a, 512, 0, 0, false, false, none⟩] [] with
        live := true, warp := s.cur, core := s.me.core, left := 1, seq := s.seq }
      let (t, i) := s.bumpSeq.addMemop m
      ((t.count s.cur .ld (· + 1)).later 2 .requestArrival i 3 s.me.team).advance) s

/-- PATTERN_TABLE_REPLACE (R221): The pattern table is replaced in a single cycle, 40 cc after LDPAT issues. -/
def execPatternTableReplace (s : State) : Out :=
  .next ((s.onTeam s.ev.b fun t =>
    { t with
      pats := setP [] t.pats s.ev.c s.ev.bytes
      patLoaded := t.patLoaded ||| (1 <<< s.ev.c) }).answered s.ev.a)

end Sys2Proof.Machine
end

