-- ==== Sys2Proof/Machine/Atomic.lean ====
section
/-!
DEFINITION. Atomics and reduce packets (09 R237-R239) and bank operations (09 R240; 05 R119).
-/
namespace Sys2Proof.Machine

/-- The type of an atomic by its code (09 R237). -/
def atyOf (c : Nat) : ATy :=
  match c with
  | 0 => .s32
  | 1 => .n32
  | 2 => .s64
  | 3 => .n64
  | 4 => .f32
  | 5 => .bf16x2
  | _ => .b128
/-- The operand type that an immediate takes (07 R164). -/
def ATy.ty : ATy → Ty
  | .s64 => .i64
  | .n64 => .i64
  | .f32 => .f32
  | .bf16x2 => .h2 true
  | _ => .i32
/-- The registers of a value of a type. -/
def ATy.regs (t : ATy) : Nat := t.bytes / 4

/-- The operand of an atomic in a lane: `n` registers, or an immediate of the type. -/
def State.atData (s : State) (o : Ops) (op : Operand) (ty : ATy) (n l : Nat) : Nat :=
  if op.kind = .imm then imm8 ty.ty op.val else s.readN o op n l

/-- An atomic that the host link carries (18 R384). -/
def hostAtomic (op : AOp) (ty : ATy) : Bool :=
  match op with
  | .add => ty == .s32 || ty == .n32 || ty == .s64 || ty == .n64
  | .xch => ty == .s32 || ty == .s64
  | .cas => ty != .b128
  | _ => false

/-- What an atomic, reduce packet or bank operation does: its operation and type, the operand of each lane, whether it
returns the old value, whether its address is an operand with an offset field, and whether it asks for slice memory. -/
structure AtOp where
  op : AOp
  ty : ATy
  data : Nat → Nat
  ret : Bool
  addr : Nat → Nat
  slr : Bool

/-- The lanes of an atomic: no helper takes part (09 R223). A scalar one has one lane, the first of `active(w)`. -/
def State.atLanes (s : State) (sh : Shape) (o : Ops) (a : AtOp) : BitVec 64 :=
  if a.ret && o.kd == .scal then
    (match lanesOf (s.act &&& ~~~s.helpers) with
    | [] => 0
    | l :: _ => 1 <<< l)
  else s.memLanes sh o true

/-- An atomic on global memory (09 R238, R239). -/
def State.atomicGlobal (s : State) (sh : Shape) (o : Ops) (a : AtOp) : State :=
  let n := a.ty.bytes
  let sc := a.ret && o.kd == .scal
  let c := if a.ret then Ctr.ld else Ctr.st
  if s.noRoom c then s.stall
  else
    let m := s.atLanes sh o a
    let mis := s.me.maskOf fun l _ => m.getLsbD l && a.addr l % n != 0
    let good := m &&& ~~~mis
    let t := if sc then (if mis != 0 then s.parkUni 6 true n (a.addr 0) else s)
      else (s.parkIdx sh o).parkAcc mis 6 true n a.addr
    let accs := (lanesOf good).map fun l =>
      (⟨l, a.addr l, 0, n, BitVec.ofNat 256 (a.data l), s.ldReg o l, false, false, none⟩ : Acc)
    let need : Need := ⟨true, a.slr, !hostAtomic a.op a.ty, true, if sc then some s.act else none, n, false, []⟩
    (t.startOp s.cur need { MemOp.idle with
      ctr := c
      kind := if a.ret then .atomicRet sc else .store
      req := .atomic a.op a.ty a.ret
      accs := accs
      pc := s.ipc
      dsts := if a.ret then s.ldKeys o a.ty.regs good else [] }).advance

/-- An atomic on scratch (09 R238, R239): ready or complete 28 cc after issue. -/
def State.atomicScratch (s : State) (sh : Shape) (o : Ops) (a : AtOp) : State :=
  let n := a.ty.bytes
  let sc := a.ret && o.kd == .scal
  let c := if a.ret then Ctr.ld else Ctr.st
  if s.noRoom c then s.stall
  else
    let (mis, out, good) := s.scratchLanes (s.atLanes sh o a) n a.addr
    let t := if sc then
        (if mis != 0 then s.parkUni 6 true n (a.addr 0) else if out != 0 then s.parkUni 5 true n (a.addr 0) else s)
      else ((s.parkIdx sh o).parkAcc mis 6 true n a.addr).parkAcc out 5 true n a.addr
    if good = 0 then t.advance
    else
      let ls := lanesOf good
      let accs := ls.map fun l => (⟨l, a.addr l, a.addr l, n, BitVec.ofNat 256 (a.data l), s.ldReg o l, false, false, none⟩ : Acc)
      let m : MemOp := { MemOp.idle with
        ctr := c
        kind := if a.ret then .atomicRet sc else .store
        req := .atomic a.op a.ty a.ret
        accs := accs
        pc := s.ipc
        dsts := if a.ret then s.ldKeys o a.ty.regs good else [] }
      (t.scratchOp s.cur m 28 (!a.ret)).advance

/-- An atomic with return (09 R237): the operand is SRC2, or the third source of an immediate layout (09 R224). -/
def execAtomic (i : Instr) (op : AOp) (cas : Bool) (s : State) : Out :=
  memExec i (fun s sh o =>
    let ty := atyOf (o.subN % 8)
    let b := if o.form.isImm then o.s3 else o.s2
    let off (l : Nat) : Int := if o.form.isImm then s.offset o l else 0
    let data (l : Nat) : Nat := s.atData o b ty (if cas then 2 * ty.regs else ty.regs) l
    if o.subN / 8 % 2 = 1 then
      s.atomicScratch sh o ⟨op, ty, data, true, fun l => wrapN 32 (s.src o .i32 o.s1 l + off l), false⟩
    else s.atomicGlobal sh o ⟨op, ty, data, true, fun l => wrapN 64 (s.readN o o.s1 2 l + off l), false⟩) s

/-- A reduce packet (09 R237): DST is the operand. -/
def execReduction (i : Instr) (op : AOp) (s : State) : Out :=
  memExec i (fun s sh o =>
    let ty := atyOf (o.subN % 8)
    let data (l : Nat) : Nat := s.readN o o.dstSrc ty.regs l
    if o.subN / 8 % 2 = 1 then s.atomicScratch sh o ⟨op, ty, data, false, s.sAddr o, false⟩
    else s.atomicGlobal sh o ⟨op, ty, data, false, s.gAddr o, false⟩) s

/-- AADD (R238): Atomic add that returns the old value. -/
def execAadd (o : Ops) (s : State) : Out := execAtomic (.aadd o) .add false s

/-- AMIN (R238): Atomic minimum that returns the old value. -/
def execAmin (o : Ops) (s : State) : Out := execAtomic (.amin o) .min false s

/-- AMAX (R238): Atomic maximum that returns the old value. -/
def execAmax (o : Ops) (s : State) : Out := execAtomic (.amax o) .max false s

/-- AAND (R238): Atomic AND that returns the old value. -/
def execAand (o : Ops) (s : State) : Out := execAtomic (.aand o) .and false s

/-- AOR (R238): Atomic OR that returns the old value. -/
def execAor (o : Ops) (s : State) : Out := execAtomic (.aor o) .or false s

/-- AXOR (R238): Atomic XOR that returns the old value. -/
def execAxor (o : Ops) (s : State) : Out := execAtomic (.axor o) .xor false s

/-- AXCH (R238): Atomic exchange. -/
def execAxch (o : Ops) (s : State) : Out := execAtomic (.axch o) .xch false s

/-- ACAS (R238): Atomic compare-and-swap. -/
def execAcas (o : Ops) (s : State) : Out := execAtomic (.acas o) .cas true s

/-- RDADD (R238): Reduce-add packet with no return. -/
def execRdadd (o : Ops) (s : State) : Out := execReduction (.rdadd o) .add s

/-- RDMIN (R238): Reduce-minimum packet. -/
def execRdmin (o : Ops) (s : State) : Out := execReduction (.rdmin o) .min s

/-- RDMAX (R238): Reduce-maximum packet. -/
def execRdmax (o : Ops) (s : State) : Out := execReduction (.rdmax o) .max s

/-- RDAND (R238): Reduce-AND packet. -/
def execRdand (o : Ops) (s : State) : Out := execReduction (.rdand o) .and s

/-- RDOR (R238): Reduce-OR packet. -/
def execRdor (o : Ops) (s : State) : Out := execReduction (.rdor o) .or s

/-- RDXOR (R238): Reduce-XOR packet. -/
def execRdxor (o : Ops) (s : State) : Out := execReduction (.rdxor o) .xor s

/-- The operation of a bank operation (09 R240). -/
def bankOp (k : Nat) : AOp :=
  match k with
  | 0 => .add
  | 1 => .min
  | 2 => .max
  | 3 => .and
  | 4 => .or
  | 5 => .xor
  | 6 => .xch
  | 7 => .cas
  | _ => .scl

/-- BOP (R240): Bank operation on slice memory, with no return. -/
def execBop (o : Ops) (s : State) : Out :=
  memExec (.bop o) (fun s sh o =>
    let ty := atyOf o.auxN
    let cas := o.subN == 7
    let data (l : Nat) : Nat :=
      s.readN o o.dstSrc (if cas then 2 * ty.regs else ty.regs) l +
        (if o.subN = 8 then 2 ^ 32 * s.src o .f32 o.s3 l else 0)
    s.atomicGlobal sh o ⟨bankOp o.subN, ty, data, false, s.gAddr o, true⟩) s

/-- BOPR (R240): Bank operation on slice memory that returns the old value. -/
def execBopr (o : Ops) (s : State) : Out :=
  memExec (.bopr o) (fun s sh o =>
    let ty := atyOf o.auxN
    let b := if o.form.isImm then o.s3 else o.s2
    let off (l : Nat) : Int := if o.form.isImm then s.offset o l else 0
    let data (l : Nat) : Nat := s.atData o b ty (if o.subN = 7 then 2 * ty.regs else ty.regs) l
    s.atomicGlobal sh o ⟨bankOp o.subN, ty, data, true, fun l => wrapN 64 (s.readN o o.s1 2 l + off l), true⟩) s

end Sys2Proof.Machine
end

