-- ==== Sys2Proof/Machine/Crypto.lean ====
section
/-!
DEFINITION. SHA-512 and ECDSA signatures over P-521 (01 R22; log entry 54).
-/
namespace Sys2Proof.Machine

/-! ## SHA-512 -/

/-- The largest number, grown from `r` by the bits below `n`, whose power `k` is at most `x`. -/
def rootUp (k x : Nat) : Nat → Nat → Nat
  | 0, r => r
  | n + 1, r => rootUp k x n (if (r + 2 ^ n) ^ k ≤ x then r + 2 ^ n else r)
/-- The first 64 bits of the fraction of the root `k` of a number below 2^9. -/
def rootFrac (k p : Nat) : DWord := BitVec.ofNat 64 (rootUp k (p * 2 ^ (64 * k)) 69 0)
/-- The primes below 410: there are 80. -/
def shaPrimes : List Nat := (List.range 410).filter fun p => 2 ≤ p && (List.range p).all fun d => d < 2 || p % d != 0
/-- The round constants, from cube roots, and the initial hash value, from square roots of the first 8. -/
def shaK : List DWord := shaPrimes.map (rootFrac 3)
def shaH : List DWord := (shaPrimes.take 8).map (rootFrac 2)

/-- The exclusive or of a word turned right by two amounts, and by a third or shifted by it. -/
def shaMix (shift : Bool) (a b c : Nat) (x : DWord) : DWord :=
  x.rotateRight a ^^^ x.rotateRight b ^^^ (if shift then x >>> c else x.rotateRight c)

/-- Bytes as a number, the first highest. -/
def beNum (bs : List Byte) : Nat := bs.foldl (fun n b => 256 * n + b.toNat) 0
/-- A number as `n` bytes, the highest first. -/
def beBytes (n v : Nat) : List Byte := (List.range n).map fun i => BitVec.ofNat 8 (v / 256 ^ (n - 1 - i))

/-- `n` more words of a message schedule, whose words so far are `ws`, the last first. -/
def shaExtend : Nat → List DWord → List DWord
  | 0, ws => ws
  | n + 1, ws =>
    let back (k : Nat) : DWord := getP 0 ws (k - 1)
    shaExtend n ((back 16 + shaMix true 1 8 7 (back 15) + back 7 + shaMix true 19 61 6 (back 2)) :: ws)
/-- One round on the eight working words, by the sum of its constant and word. -/
def shaRound (v : List DWord) (kw : DWord) : List DWord :=
  let x (i : Nat) : DWord := getP 0 v i
  let pick : DWord := x 6 ^^^ (x 4 &&& (x 5 ^^^ x 6))
  let most : DWord := (x 0 &&& x 1) ||| (x 2 &&& (x 0 ||| x 1))
  let t := x 7 + kw + pick + shaMix false 14 18 41 (x 4)
  (t + most + shaMix false 28 34 39 (x 0)) :: x 0 :: x 1 :: x 2 :: (x 3 + t) :: [x 4, x 5, x 6]
/-- One block of 128 bytes. -/
def shaBlock (h : List DWord) (b : List Byte) : List DWord :=
  let w := (List.range 16).map fun i => BitVec.ofNat 64 (beNum ((b.drop (8 * i)).take 8))
  let kws := List.zipWith (· + ·) shaK (shaExtend 64 w.reverse).reverse
  List.zipWith (· + ·) h (kws.foldl shaRound h)
def shaBlocks : Nat → List Byte → List DWord → List DWord
  | 0, _, h => h
  | n + 1, b, h => shaBlocks n (b.drop 128) (shaBlock h (b.take 128))
/-- The digest of 64 bytes. -/
def sha512 (m : List Byte) : List Byte :=
  let z := (128 - (m.length + 17) % 128) % 128
  let p := m ++ [0x80] ++ List.replicate z 0 ++ beBytes 16 (8 * m.length)
  (shaBlocks (p.length / 128) p shaH).flatMap fun w => beBytes 8 w.toNat

/-! ## P-521 -/

def ecP : Nat := 2 ^ 521 - 1
def ecB : Nat :=
  0x0051953EB9618E1C9A1F929A21A0B68540EEA2DA725B99B315F3B8B489918EF109E156193951EC7E937B1652C0BD3BB1BF073573DF883D2C34F1EF451FD46B503F00
def ecN : Nat :=
  0x1fffffffffffffffffffffffffffffffffffffffffffffffffffffffffffffffffa51868783bf2f966b7fcc0148f709a5d03bb5c9b8899c47aebb6fb71e91386409
def ecG : Nat × Nat :=
  (0x00C6858E06B70404E9CD9E3ECB662395B4429C648139053FB521F828AF606B4D3DBAA14B5E77EFE75928FE1DC127A2FFA8DE3348B3C1856A429BF97E7E31C2E5BD66,
   0x011839296A789A3BC0045C8A5FB42C7D1BD998F54449579B446817AFBD17273E662C97EE72995EF42640C550B9013FAD0761353C7086A272C24088BE94769FD16650)

/-- A power modulo `m`, over the bits of the exponent. -/
def powMod (m : Nat) : Nat → Nat → Nat → Nat → Nat
  | 0, _, _, r => r
  | fuel + 1, b, e, r => powMod m fuel (b * b % m) (e / 2) (if e % 2 = 1 then r * b % m else r)
/-- An inverse modulo a prime. -/
def invMod (m a : Nat) : Nat := powMod m 521 (a % m) (m - 2) 1

/-- The sum of two points; none is the point at infinity. -/
def ecAdd (a b : Option (Nat × Nat)) : Option (Nat × Nat) :=
  match a, b with
  | none, b => b
  | a, none => a
  | some (x1, y1), some (x2, y2) =>
    if x1 = x2 && (y1 + y2) % ecP = 0 then none
    else
      let l := if x1 = x2 then (3 * x1 * x1 + ecP - 3) * invMod ecP (2 * y1) % ecP
        else (y2 + ecP - y1) * invMod ecP (x2 + ecP - x1) % ecP
      let x := (l * l + 2 * ecP - x1 - x2) % ecP
      some (x, (l * (x1 + ecP - x) + ecP - y1) % ecP)
/-- A multiple of a point. -/
def ecMul : Nat → Nat → Option (Nat × Nat) → Option (Nat × Nat) → Option (Nat × Nat)
  | 0, _, _, r => r
  | fuel + 1, k, p, r => ecMul fuel (k / 2) (ecAdd p p) (if k % 2 = 1 then ecAdd r p else r)
def ecTimes (k : Nat) (p : Nat × Nat) : Option (Nat × Nat) := ecMul 521 k (some p) none

/-- A public key of 133 bytes: 0x04, *x*, *y*, a point of the curve. -/
def ecPoint (key : List Byte) : Option (Nat × Nat) :=
  let x := beNum ((key.drop 1).take 66)
  let y := beNum ((key.drop 67).take 66)
  if key.length = 133 && key.head? == some 4 && x < ecP && y < ecP && y * y % ecP = (x * x * x + (ecP - 3) * x + ecB) % ecP then some (x, y)
  else none
/-- The signature of *r* and *s*, 66 bytes each, over a digest under the private key `d` with the secret number `k`. -/
def ecdsaSign (d k : Nat) (digest : List Byte) : List Byte :=
  let r := match ecTimes k ecG with
    | some (x, _) => x % ecN
    | none => 0
  beBytes 66 r ++ beBytes 66 (invMod ecN k * (beNum digest + r * d) % ecN)
/-- A signature of *r* and *s*, 66 bytes each, over a digest verifies under a key. -/
def ecdsaOk (key digest sig : List Byte) : Bool :=
  let r := beNum (sig.take 66)
  let t := beNum ((sig.drop 66).take 66)
  match ecPoint key with
  | none => false
  | some q =>
    sig.length = 132 && 1 ≤ r && r < ecN && 1 ≤ t && t < ecN &&
    (let w := invMod ecN t
     match ecAdd (ecTimes (beNum digest * w % ecN) ecG) (ecTimes (r * w % ecN) q) with
     | some (x, _) => x % ecN = r
     | none => false)

end Sys2Proof.Machine
end

