-- ==== Sys2Proof/WellFormed.lean ====
section
/-!
DEFINITION. Well-formed instructions: the words that are legal encodings (00 R7; 07 R161 step 7), by the shapes of
Machine/Shape.lean. An event of spec/opcode_table.json has no word and is always well formed.
-/
namespace Sys2Proof

/-- A word of the hint space (07 R179): 64, 96 or 128 bits, and no bit beyond its length. -/
def Hint.wf (h : Hint) : Bool :=
  (h.form == 0 && h.rest.toNat < 2 ^ 54) || (h.form == 1 && h.rest.toNat < 2 ^ 86) || h.form == 2

/-- Whether an instruction is a legal encoding. -/
def Instr.wf (i : Instr) : Bool :=
  match shapeOf i, opsOf i with
  | some sh, some o => o.form != .slot && sh.okOps o
  | _, _ =>
    match i with
    | .hintNop h => h.wf
    | .pairedWord p q => pairLegal p q
    | _ => true

end Sys2Proof
end

