-- ==== Sys2Proof/Decode.lean ====
section
/-!
DEFINITION. Encoding and decoding of instruction words (07 R159-R175; 08 R196; 07 R178; 03 R66). A word is a natural
number, bit 0 the least significant bit of its first byte. Each layout is a list of fields, lowest first, and both
directions use the same lists. `decode` is total and rejects by name.
-/
namespace Sys2Proof

/-! ## Fields -/

/-- The number whose fields, lowest first, have the given widths and values. -/
def packFields : List (Nat × Nat) → Nat
  | [] => 0
  | (w, v) :: r => v + 2 ^ w * packFields r

/-- The fields of the given widths, lowest first. -/
def unpackFields : List Nat → Nat → List Nat
  | [], _ => []
  | w :: r, x => x % 2 ^ w :: unpackFields r (x / 2 ^ w)

def Kind.code : Kind → Nat
  | .vec => 0
  | .scal => 1
  | .imm => 2
  | .idx => 3
def Kind.ofCode (n : Nat) : Kind :=
  match n with
  | 0 => .vec
  | 1 => .scal
  | 2 => .imm
  | _ => .idx
def DKind.code : DKind → Nat
  | .vec => 0
  | .scal => 1
  | .pred => 2
  | .idx => 3
def DKind.ofCode (n : Nat) : DKind :=
  match n with
  | 0 => .vec
  | 1 => .scal
  | 2 => .pred
  | _ => .idx
def Rm.code : Rm → Nat
  | .rne => 0
  | .rtz => 1
  | .rup => 2
  | .rdn => 3
def Rm.ofCode (n : Nat) : Rm :=
  match n with
  | 0 => .rne
  | 1 => .rtz
  | 2 => .rup
  | _ => .rdn
def bit (b : Bool) : Nat := if b then 1 else 0

/-- A descriptor of its five fields, lowest first: SREG, FILL, DIR, K, KIND (07 R169). KIND none ignores the others
(03 R69), so they are not kept. -/
def Desc.ofFields (sreg fill dir k kind : Nat) : Desc :=
  if kind = 0 then Desc.off
  else ⟨BitVec.ofNat 3 kind, BitVec.ofNat 6 k, dir == 1, BitVec.ofNat 2 fill, BitVec.ofNat 6 sreg⟩

/-- The widths and values of a descriptor's fields. -/
def Desc.fields (d : Desc) : List (Nat × Nat) :=
  [(6, d.sreg.toNat), (2, d.fill.toNat), (1, bit d.dir), (6, d.k.toNat), (3, d.kind.toNat)]

/-- Bits 63:0 of the general layouts (07 R162, R168): FORM, MAJ, PN, NEG, DST, SRC1, and then bits 37:30, L, IXN, AUX,
PD, KD, K1, bits 52:51, LR1, bit 54, FTZ, RM, SUB. -/
def w64Widths : List Nat := [2, 8, 3, 1, 8, 8, 8, 1, 2, 3, 3, 2, 2, 2, 1, 1, 1, 2, 6]
/-- Bits 95:64 of the register layout (07 R169). -/
def w96rWidths : List Nat := [1, 1, 2, 8, 2, 6, 2, 1, 6, 3]
/-- Bits 127:64 of the modifier layout (07 R172). -/
def w128mWidths : List Nat := [1, 1, 8, 6, 2, 1, 6, 3, 6, 2, 1, 6, 3, 6, 2, 1, 6, 3]
/-- The branch layout (08 R196), `WAIT` (07 R178), `QFETCH` (03 R66). -/
def branchWidths : List Nat := [2, 8, 3, 1, 8, 8, 8, 2, 24]
def waitWidths : List Nat := [2, 8, 3, 1, 28, 22]
def qfetchWidths : List Nat := [2, 8, 3, 1, 50]
/-- A slot of a paired word (07 R174), lowest first: MAJ, PN, NEG, DST, SRC1, SRC2, SRC3, SUB, RM, FTZ, LR1, LR2, LR3,
K1, K2, K3, reserved. -/
def slotWidths : List Nat := [8, 3, 1, 8, 8, 8, 8, 6, 2, 1, 1, 1, 1, 2, 2, 1, 1]

/-- Bits 63:0 with FORM, MAJ, L and the operand in bits 37:30. -/
def Ops.low (o : Ops) (form maj l : Nat) (x : Operand) : List (Nat × Nat) :=
  [(2, form), (8, maj), (3, o.pn.toNat), (1, bit o.neg), (8, o.dst.toNat), (8, o.s1.val.toNat), (8, x.val.toNat), (1, l),
   (2, o.ixn.toNat), (3, o.aux.toNat), (3, o.pd.toNat), (2, o.kd.code), (2, o.s1.kind.code), (2, x.kind.code),
   (1, bit o.s1.lr), (1, bit x.lr), (1, bit o.ftz), (2, o.rm.code), (6, o.sub.toNat)]

/-- The source that MSEL names (07 R169, R171). -/
def Ops.msel (o : Ops) : Nat :=
  if o.s2.desc != Desc.off then 1 else if o.s3.desc != Desc.off then 2 else 0
def Ops.mdesc (o : Ops) : Desc :=
  if o.s2.desc != Desc.off then o.s2.desc else if o.s3.desc != Desc.off then o.s3.desc else o.s1.desc

/-- The fields of an instruction word that is neither a hint nor paired. -/
def Ops.fields (o : Ops) (maj : Nat) : List (Nat × Nat) :=
  match layOf maj o.form with
  | .branch =>
    [(2, 0), (8, maj), (3, o.pn.toNat), (1, bit o.neg), (8, o.dst.toNat), (8, o.s1.val.toNat), (8, o.s2.val.toNat), (2, 0),
     (24, o.imm.toNat)]
  | .wait => [(2, 0), (8, maj), (3, o.pn.toNat), (1, bit o.neg), (28, 0), (22, o.imm.toNat)]
  | .qfetch => [(2, 0), (8, maj), (3, o.pn.toNat), (1, bit o.neg), (50, o.imm.toNat)]
  | .normal =>
    match o.form with
    | .w64 => o.low 0 maj 0 o.s2
    | .w96r =>
      o.low 1 maj 0 o.s2 ++ [(1, 0), (1, bit o.s3.lr), (2, o.s3.kind.code), (8, o.s3.val.toNat), (2, o.msel)] ++ o.mdesc.fields
    | .w96i => o.low 1 maj 1 o.s3 ++ [(32, o.imm.toNat)]
    | .w128m =>
      o.low 2 maj 0 o.s2 ++ [(1, if o.s3.kind = .scal then 1 else 0), (1, bit o.s3.lr), (8, o.s3.val.toNat)] ++
        o.s3.desc.fields ++ o.s2.desc.fields ++ o.s1.desc.fields
    | .w128i => o.low 2 maj 1 o.s3 ++ [(64, o.imm.toNat)]
    | .slot => []

/-- The fields of a slot. -/
def Slot.fields (s : Slot) : List (Nat × Nat) :=
  let o := s.ops
  [(8, s.maj.toNat), (3, o.pn.toNat), (1, bit o.neg), (8, o.dst.toNat), (8, o.s1.val.toNat), (8, o.s2.val.toNat),
   (8, o.s3.val.toNat), (6, o.sub.toNat), (2, o.rm.code), (1, bit o.ftz), (1, bit o.s1.lr), (1, bit o.s2.lr),
   (1, bit o.s3.lr), (2, o.s1.kind.code), (2, o.s2.kind.code), (1, if o.s3.kind = .scal then 1 else 0), (1, 0)]

/-! ## Decoding -/

/-- Why a word is not an instruction: every reason raises the illegal-instruction fault (07 R161 step 7). -/
inductive Reject where
  /-- Fewer bytes than the form's length. -/
  | truncated
  /-- A reserved bit is 1. -/
  | reservedBit
  /-- The major is unassigned (07 R179). -/
  | unassignedMajor
  /-- A field holds a value its instruction does not allow (07 R177). -/
  | illegalField
  /-- The two slots may not be paired (07 R175). -/
  | illegalPair
  deriving DecidableEq, Repr

/-- Bytes of an instruction, from bits 1:0 of its first byte (07 R159). -/
def formBytes (code : Nat) : Nat := if code = 0 then 8 else if code = 1 then 12 else 16

/-- The operand of bits 37:30 and the kind and mark fields beside it. -/
def mkOperand (kind val lr : Nat) (d : Desc) : Operand := ⟨Kind.ofCode kind, BitVec.ofNat 8 val, lr == 1, d⟩

/-- The operand fields of bits 63:0 (07 R168), with the sources given. -/
def opsOfLow (f : Form) (l : List Nat) (s1 s2 s3 : Operand) (imm : Nat) : Option Ops :=
  match l with
  | [_, _, pn, neg, dst, _, _, _, ixn, aux, pd, kd, _, _, _, _, ftz, rm, sub] =>
    some ⟨f, neg == 1, BitVec.ofNat 3 pn, BitVec.ofNat 8 dst, DKind.ofCode kd, s1, s2, s3, BitVec.ofNat 6 sub, Rm.ofCode rm,
      ftz == 1, BitVec.ofNat 3 pd, BitVec.ofNat 3 aux, BitVec.ofNat 2 ixn, BitVec.ofNat 64 imm⟩
  | _ => none

/-- The first source, and the source of bits 37:30, of bits 63:0. -/
def lowSrc1 (l : List Nat) (d : Desc) : Operand :=
  match l with
  | [_, _, _, _, _, v, _, _, _, _, _, _, k, _, lr, _, _, _, _] => mkOperand k v lr d
  | _ => Operand.off
def lowSrc2 (l : List Nat) (d : Desc) : Operand :=
  match l with
  | [_, _, _, _, _, _, v, _, _, _, _, _, _, k, _, lr, _, _, _] => mkOperand k v lr d
  | _ => Operand.off

/-- The operand fields with every field zero but the predicate, DST, SRC1, SRC2 and `imm`. -/
def bareOps (pn neg dst s1 s2 imm : Nat) : Ops :=
  ⟨.w64, neg == 1, BitVec.ofNat 3 pn, BitVec.ofNat 8 dst, .vec, mkOperand 0 s1 0 Desc.off, mkOperand 0 s2 0 Desc.off,
    Operand.off, 0, .rne, false, 0, 0, 0, BitVec.ofNat 64 imm⟩

/-- The operand fields of a word, by its layout; none where a reserved bit is 1. -/
def Ops.ofWord (code maj w : Nat) : Option Ops :=
  match code with
  | 0 =>
    match layOf maj .w64 with
    | .branch =>
      match unpackFields branchWidths w with
      | [_, _, pn, neg, dst, s1, s2, 0, d] => some (bareOps pn neg dst s1 s2 d)
      | _ => none
    | .wait =>
      match unpackFields waitWidths w with
      | [_, _, pn, neg, 0, d] => some (bareOps pn neg 0 0 0 d)
      | _ => none
    | .qfetch =>
      match unpackFields qfetchWidths w with
      | [_, _, pn, neg, d] => some (bareOps pn neg 0 0 0 d)
      | _ => none
    | .normal =>
      let l := unpackFields w64Widths w
      if w / 2 ^ 38 % 2 = 0 then opsOfLow .w64 l (lowSrc1 l Desc.off) (lowSrc2 l Desc.off) Operand.off 0 else none
  | 1 =>
    let l := unpackFields w64Widths w
    if w / 2 ^ 38 % 2 = 1 then
      opsOfLow .w96i l (lowSrc1 l Desc.off) Operand.off (lowSrc2 l Desc.off) (w / 2 ^ 64 % 2 ^ 32)
    else
      match unpackFields w96rWidths (w / 2 ^ 64) with
      | [0, lr3, k3, v3, msel, sreg, fill, dir, k, kind] =>
        let d := Desc.ofFields sreg fill dir k kind
        if msel = 3 || (kind = 0 && msel != 0) then none
        else
          opsOfLow .w96r l (lowSrc1 l (if msel = 0 then d else Desc.off)) (lowSrc2 l (if msel = 1 then d else Desc.off))
            (mkOperand k3 v3 lr3 (if msel = 2 then d else Desc.off)) 0
      | _ => none
  | _ =>
    let l := unpackFields w64Widths w
    if w / 2 ^ 38 % 2 = 1 then
      opsOfLow .w128i l (lowSrc1 l Desc.off) Operand.off (lowSrc2 l Desc.off) (w / 2 ^ 64 % 2 ^ 64)
    else
      match unpackFields w128mWidths (w / 2 ^ 64) with
      | [k3, lr3, v3, g3, f3, d3, n3, c3, g2, f2, d2, n2, c2, g1, f1, d1, n1, c1] =>
        opsOfLow .w128m l (lowSrc1 l (Desc.ofFields g1 f1 d1 n1 c1)) (lowSrc2 l (Desc.ofFields g2 f2 d2 n2 c2))
          (mkOperand k3 v3 lr3 (Desc.ofFields g3 f3 d3 n3 c3)) 0
      | _ => none

/-- A slot of a paired word; none where its reserved bit is 1. -/
def Slot.ofBits (w : Nat) : Option Slot :=
  match unpackFields slotWidths w with
  | [maj, pn, neg, dst, v1, v2, v3, sub, rm, ftz, lr1, lr2, lr3, k1, k2, k3, 0] =>
    some ⟨BitVec.ofNat 8 maj, ⟨.slot, neg == 1, BitVec.ofNat 3 pn, BitVec.ofNat 8 dst, .vec, mkOperand k1 v1 lr1 Desc.off,
      mkOperand k2 v2 lr2 Desc.off, mkOperand k3 v3 lr3 Desc.off, BitVec.ofNat 6 sub, Rm.ofCode rm, ftz == 1, 0, 0, 0, 0⟩⟩
  | _ => none

/-- The instruction of a word of 64, 96 or 128 bits, or why there is none (07 R161 step 7). -/
def decodeWord (w : Nat) : Except Reject Instr :=
  let code := w % 4
  let maj := w / 4 % 256
  if code = 3 then
    if w / 2 ^ 64 % 4 ≠ 0 then .error .reservedBit
    else
      match Slot.ofBits (w / 4 % 2 ^ 62), Slot.ofBits (w / 2 ^ 66 % 2 ^ 62) with
      | some p, some q => if pairLegal p q then .ok (.pairedWord p q) else .error .illegalPair
      | _, _ => .error .reservedBit
  else if maj / 8 = 30 then
    .ok (.hintNop ⟨BitVec.ofNat 3 maj, BitVec.ofNat 2 code, BitVec.ofNat 118 (w / 2 ^ 10 % 2 ^ (8 * formBytes code - 10))⟩)
  else
    match Ops.ofWord code maj w with
    | none => .error .reservedBit
    | some o =>
      match opOf maj o with
      | none => .error .unassignedMajor
      | some i => if i.wf then .ok i else .error .illegalField

/-- Little-endian bytes as a number, and back (07 R159). -/
def leNat : List Byte → Nat
  | [] => 0
  | b :: r => b.toNat + 256 * leNat r
def leBytes : Nat → Nat → List Byte
  | 0, _ => []
  | n + 1, w => BitVec.ofNat 8 w :: leBytes n (w / 256)

/-- The instruction at the head of a byte string, and the bytes after it. Total on any bytes. -/
def decode (bs : List Byte) : Except Reject (Instr × List Byte) :=
  match bs with
  | [] => .error .truncated
  | b :: _ =>
    let n := formBytes (b.toNat % 4)
    if bs.length < n then .error .truncated
    else
      match decodeWord (leNat (bs.take n)) with
      | .ok i => .ok (i, bs.drop n)
      | .error e => .error e

/-! ## Encoding -/

/-- The form code of a word (07 R159). -/
def Form.code : Form → Nat
  | .w64 => 0
  | .w96r => 1
  | .w96i => 1
  | .w128m => 2
  | .w128i => 2
  | .slot => 3

/-- Bytes of an instruction's word; 0 for an event, which has none. -/
def Instr.bytes (i : Instr) : Nat :=
  match shapeOf i, opsOf i with
  | some _, some o => formBytes o.form.code
  | _, _ =>
    match i with
    | .hintNop h => formBytes h.form.toNat
    | .pairedWord _ _ => 16
    | _ => 0

/-- The word of an instruction; 0 for an event. -/
def encodeWord (i : Instr) : Nat :=
  match shapeOf i, opsOf i with
  | some sh, some o => packFields (o.fields sh.maj)
  | _, _ =>
    match i with
    | .hintNop h => packFields [(2, h.form.toNat), (3, h.maj.toNat), (5, 30), (118, h.rest.toNat)]
    | .pairedWord p q => packFields [(2, 3), (62, packFields p.fields), (2, 0), (62, packFields q.fields)]
    | _ => 0

/-- The bytes of a well-formed instruction. -/
def encode (i : Instr) : List Byte := leBytes i.bytes (encodeWord i)

/-- Whether an instruction has a word: every operation has, no event has one. -/
def Instr.encodable (i : Instr) : Bool := i.bytes != 0

/-- The instruction that the decoder reads where the bits of `w` below `nbits` stand and every later bit is 0. -/
def decodeTableWord (nbits w : Nat) : Option Instr :=
  match decode (leBytes 16 (w % 2 ^ nbits)) with
  | .ok (i, _) => some i
  | .error _ => none

end Sys2Proof
end

