-- ==== Sys2Proof/Machine/Traffic.lean ====
section
/-!
DEFINITION. The events of memory traffic: requests arriving at their homes, replies, acknowledgements, walks that end, and
requests sent again (06 R136, R415; 09 R227; 16 R343, R345; 17 R363). Their operand `a` names the request or walk.
-/
namespace Sys2Proof.Machine

/-- REQUEST_ARRIVAL (R415): A request arrives at its home, which in that cycle performs a store, gives a load its value or applies an atomic, reduce packet or bank operation. -/
def execRequestArrival (s : State) : Out :=
  .next (
    let i := s.ev.a
    let r := s.req i
    if s.ev.b = 2 then s.actScratch i s.ev.c
    else if s.ev.b = 3 then
      -- A pattern table is read from its scratch (08 R221).
      s.schedule (s.now + 38) (.ev .patternTableReplace ⟨i, s.ev.c, (match (s.memop i).kind with
        | .ldpat k => k
        | _ => 0), 0, Memory.bytes zeroByte (s.team s.ev.c).scratch ((s.memop i).acc 0).pa 512⟩)
    else if !r.live || r.performed then s
    else if s.ev.b = 1 && (s.memop r.op).req.writes then
      -- A payload error: the write is not performed (18 R376).
      (((s.payloadError (s.memop r.op).warp r.line).onReq i fun r => { r with performed := true }).later
        (s.pathLat r.core (s.reqPart r) r.line false false / 2) .storeAcknowledge i)
    else s.arrive i)

/-- STORE_ACKNOWLEDGE (R136): A store's acknowledgement reaches its core, and the store is complete. -/
def execStoreAcknowledge (s : State) : Out :=
  .next (if s.ev.b = 1 then s.answered s.ev.a else s.acknowledge s.ev.a)

/-- A corrected error is counted, with no change of latency (18 R396). -/
def State.corrected (s : State) (w pa : Nat) : State := s.logError 1 0 0 (s.ctxOf w) pa
/-- A line of a slice becomes poisoned (18 R376). -/
def State.poisonLine (s : State) (la : Nat) : State :=
  { s with l2 := (s.l2.filter fun x => !(x.isRefl && x.addr == la)).map fun x => if x.addr == la then { x with poison := true } else x }

/-- LOAD_REPLY (R227): A line reply returns and writes the load's destinations, lowering LD at completion. -/
def execLoadReply (s : State) : Out :=
  .next (
    let i := s.ev.a
    let r := s.req i
    let w := (s.memop r.op).warp
    match s.ev.b with
    | 1 => s.answered i
    | 3 => (s.corrected w r.line).reply i
    | 4 => ((s.poisonLine r.line).payloadError w r.line).reply i
    | 5 => (s.failLanes i s.ev.c).reply i
    | _ => s.reply i)

/-- TLB_WALK_COMPLETE (R343): A hardware walk ends and fills the TLBs, or reports the page not present. -/
def execTlbWalkComplete (s : State) : Out :=
  .next (
    if s.ev.b = 1 then s.parkDue s.ev.c
    else if s.ev.b = 2 then
      -- The translation of a handler's own fetch has failed (16 R345; 15 R324).
      (if (s.warp s.ev.c).hmode && (s.warp s.ev.c).hpc == s.ev.v then s.handlerFault s.ev.c (fetchRec s.ev.a true s.ev.v s.ev.v) else s)
    else
      let k := getP Walk.idle s.walks s.ev.a
      if !k.live then s
      else
        let s := { s with walks := setP Walk.idle s.walks s.ev.a Walk.idle }
        let s := match k.bad with
          | some (pa, lv) => s.post (.malformed pa lv)
          | none => s
        match k.leaf with
        | some e =>
          if k.barred then s
          else k.cores.foldl (fun s c => s.tlbFill { e with unit := c, from_ := s.now })
            (s.tlbFill { e with unit := sectorUnit k.sector, from_ := s.now })
        | none =>
          (List.range s.warps.length).foldl (fun s w => if k.cores.contains (s.warp w).core then s.parkDue w else s) s)

/-- A refused request of the same core that is sent in this cycle before request `i` (19 R403): one that has just left, or
one that was first sent earlier. -/
def State.resendFirst (s : State) (i : Nat) : Bool :=
  s.reqs.any (fun q => q.live && q.core == (s.req i).core && q.sent == s.now && q.seq < (s.req i).seq) ||
  s.agenda.any fun d => d.at_ ≤ s.now && match d.act with
    | .ev .refusedRequestResend x => (s.req x.a).core == (s.req i).core && (s.req x.a).seq < (s.req i).seq
    | _ => false

/-- REFUSED_REQUEST_RESEND (R363): A port resends a refused request to its new home 8 cc after the refusal arrives, one a cycle (R403). -/
def execRefusedRequestResend (s : State) : Out :=
  .next (
    let i := s.ev.a
    if !(s.req i).live || (s.req i).performed then s
    else if s.resendFirst i then s.later 1 .refusedRequestResend i
    else s.launchReq i s.now)

end Sys2Proof.Machine
end

