-- ==== Sys2Proof/Machine/Issue.lean ====
section
/-!
DEFINITION. How an instruction comes to issue: the part of a warp that issues (02 R32), instruction fetch and its faults (07
R159-R161; 06 R157), the scoreboard (08 R194), operand delay (03 R65), the order in which a quarter takes its warps (02 R53),
and what follows an issue (15 R333).
-/
namespace Sys2Proof.Machine

/-! ## Which lanes -/

/-- A thread that can issue: running, and not waiting for the outcome of its translation (16 R345). -/
def Lane.canIssue (y : Lane) : Bool := y.st == .running && y.failing.isNone
/-- The program counters of the lanes that can issue. -/
def Warp.pcs (x : Warp) : List (Nat × DWord) :=
  (List.range 64).filterMap fun l => if (x.lane l).canIssue then some (l, (x.lane l).pc) else none
/-- The better of two parts (02 R32): the larger, and the lower PC between equals. -/
def betterPart (a b : Nat × DWord) : Nat × DWord :=
  if a.1 < b.1 || (a.1 == b.1 && b.2.toNat < a.2.toNat) then b else a
/-- The PC of the largest part of a warp, and its size; size 0 when no lane can issue. -/
def Warp.bestPart (x : Warp) : Nat × DWord :=
  let ps := x.pcs
  ps.foldl (fun b p => betterPart b ((ps.filter fun q => q.2 == p.2).length, p.2)) (0, 0)
/-- `active(w)` of the next instruction, and its address (02 R32; in handler mode 15 R321). -/
def Warp.selection (x : Warp) : BitVec 64 × DWord :=
  if x.hmode then (x.maskOf fun _ y => y.st != .exited, x.hpc)
  else
    let b := x.bestPart
    (if b.1 = 0 then 0 else x.maskOf fun _ y => y.canIssue && y.pc == b.2, b.2)

/-! ## Fetch -/

/-- The address that follows an instruction of `n` bytes (07 R160). -/
def nextPc (pc : DWord) (n : Nat) : DWord :=
  let q := pc + BitVec.ofNat 64 n
  if q.toNat % 32 = 28 then q + 4 else q

/-- How a fetch ends: an instruction with its length, a wait for its translation, or lanes that park from a cycle on. -/
inductive Fetched where
  | got (s : State) (i : Instr) (n : Nat)
  | wait (s : State) (t : Nat)
  | bad (s : State) (t : Nat) (r : FaultRec)

/-- A line enters the instruction cache of a core, which holds 512 lines (01 R12): the line that has stood longest goes (log entry 10). -/
def icacheAdd (core : Nat) (x : CLine) (cs : List CLine) : List CLine :=
  let mine := cs.filter fun y => y.core == core
  x :: (cs.filter fun y => y.core != core || (mine.take 511).contains y)

/-- The line of an instruction for a core: its cached copy, or the published line at its home (06 R157). -/
def State.codeLine (s : State) (p core pa : Nat) : State × Except Nat (BitVec 1024) :=
  let la := lineOf pa
  match s.icache.find? fun x => x.core == core && x.addr == la with
  | some c => (s, .ok c.data)
  | none =>
    if !s.reachable p pa then (s, .error 0x0D)
    else if !s.published.contains la then (s, .error 0x03)
    else
      let d := match s.homeOf p pa with
        | .host a => s.farLine (2 ^ 52 + lineOf a)
        | .remote _ _ _ => s.farLine la
        | _ => s.peekLine la
      ({ s with icache := icacheAdd core ⟨core, la, d⟩ s.icache }, .ok d)

/-- Steps 6 and 7 of R161 on the bytes of a line from the PC on. -/
def decodeAt (pc : DWord) (bs : List Byte) : Except Nat (Instr × Nat) :=
  match bs with
  | [] => .error 0x02
  | b :: _ =>
    let n := formBytes (b.toNat % 4)
    if 32 < pc.toNat % 32 + n then .error 0x02
    else
      match decode bs with
      | .ok (i, _) => .ok (i, n)
      | .error _ => .error 0x01

/-- A fetch at an address for a warp (07 R161). It waits for its translation (16 R343), whose failure is known when the walk ends (16 R345). The
fetch with which a launch, a vector or a return ends is counted in the cycles of those (02 R58; 15 R320, R329; log entry 10). -/
def State.fetch (s : State) (w : Nat) (pc : DWord) : Fetched :=
  let x := s.warp w
  let p := s.partOf w
  if pc.toNat % 4 ≠ 0 then .bad s s.now (fetchRec 0x06 true pc pc)
  else if !canonical pc.toNat then .bad s s.now (fetchRec 0x05 true pc pc)
  else
    let (s, t) := s.coreLookup p x.core (s.team x.team).asid pc.toNat s.now
    match t.ent with
    | none => .bad s t.ready (fetchRec t.cls true pc pc)
    | some e =>
      if !e.ex then .bad s t.ready (fetchRec 0x05 true pc pc)
      else if s.now < t.ready && x.busyTo != s.now then .wait s t.ready
      else
        let pa := e.phys pc.toNat
        match s.codeLine p x.core pa with
        | (s, .error c) => .bad s s.now (fetchRec c true pc (if c = 0x03 then BitVec.ofNat 64 (lineOf pc.toNat) else pc))
        | (s, .ok d) =>
          let n := 128 - pa % 128
          match decodeAt pc (toBytes n (lineGet d (pa % 128) n)) with
          | .error c => .bad s s.now (fetchRec c false pc pc)
          | .ok (i, k) => .got s i k

/-! ## Scoreboard -/

/-- A key of the shadow set (15 R321). -/
def shadowKey (h : Bool) (k : Nat) : Nat := if h && k < 16 then 2000 + k else k
/-- The accumulators that a matrix instruction reads or writes (10 R265), and the cycles until a later instruction sees what it
wrote at once. -/
def accsOf : Instr → List Nat × Nat
  | .mzero o => ([o.dst.toNat], 2)
  | .mwr o => ([o.dst.toNat], 4)
  | .mcpy o => ([o.dst.toNat, o.s1.val.toNat], 4)
  | .mscl o => ([o.dst.toNat], 6)
  | .mtrn o => ([o.dst.toNat, o.s1.val.toNat], 6)
  | .mrd o => ([o.s1.val.toNat], 0)
  | .mstr o => ([o.dst.toNat], 0)
  | .mstacc o => ([o.dst.toNat], 0)
  | .mldacc o => ([o.dst.toNat], 0)
  | _ => ([], 0)
/-- The scoreboard key of an accumulator. -/
def accKey (m : Nat) : Nat := 600 + m
/-- The keys that an instruction reads or writes. -/
def keysOf (h : Bool) (i : Instr) : List Nat :=
  let ks (sh : Option Shape) (o : Ops) : List Nat :=
    match sh with
    | some sh => sh.readKeys o ++ sh.writeKeys o
    | none => []
  match i with
  | .pairedWord p q => (ks p.shape p.ops ++ ks q.shape q.ops).map (shadowKey h)
  | i =>
    match opsOf i with
    | some o => (ks (shapeOf i) o).map (shadowKey h) ++ (accsOf i).1.map accKey
    | none => []
/-- Two keys name one register: 1000 stands for every vector register. -/
def sameKey (a b : Nat) : Bool :=
  a == b || (a == 1000 && (b < 256 || 2000 ≤ b)) || (b == 1000 && (a < 256 || 2000 ≤ a))
/-- An instruction waits for a result that is not ready (02 R27; 08 R194; 09 R227). -/
def State.scoreboard (s : State) (w : Nat) (ks : List Nat) : Bool :=
  ((s.warp w).pending.any fun e => s.now < e.2 && ks.any (sameKey e.1)) ||
  s.memops.any fun m => m.live && m.warp == w && m.dsts.any fun k => ks.any (sameKey k)

/-- The cycles from issue to result (the tables of chapter 08; 02 R58; 09 R241, R245; 15 R328, R330, R331). -/
def latency (maj sub : Nat) : Nat :=
  if maj = 0x34 || maj = 0x35 || maj = 0x36 || maj = 0x4B then 4
  else if maj = 0x4C then 8
  else if (0x50 ≤ maj && maj ≤ 0x55) then 4
  else if maj = 0x5E || (0x61 ≤ maj && maj ≤ 0x6A) then 20
  else if 0x5B ≤ maj && maj ≤ 0x60 then 16
  else if maj = 0x6B || maj = 0x6C then 72
  else if (0x6D ≤ maj && maj ≤ 0x71) || (0x73 ≤ maj && maj ≤ 0x76) || maj = 0x79 || maj = 0x7D then 4
  else if maj = 0x7A then (if sub < 2 then 4 else 2)
  else if maj = 0x7C then 12
  else if maj = 0x22 || maj = 0x23 || maj = 0x24 then (if 8 ≤ sub then 28 else 14)
  else if maj = 0x20 || maj = 0x25 || maj = 0x26 || maj = 0x29 || maj = 0x2A then 6
  else if maj = 0x27 || maj = 0x28 || maj = 0x2B || maj = 0x2C then 4
  else if maj = 0xE5 || maj = 0xE6 || maj = 0xEB then 4
  else if maj = 0xDC then 8
  else if maj = 0xB5 then 24
  else if maj = 0xCE then (if 8 ≤ sub then 4 else 1)
  else if maj = 0xC6 then 6
  else if maj = 0xB9 || maj = 0xB7 || maj = 0xD0 || maj = 0xDA then 4
  else 2

/-- The instructions whose results are written although no lane passes: handle and status of `LAUNCH` (09 R248), the status of `LWAIT` (09
R250), and the scalar of `AGREE.every` (08 R218). -/
def writesAlways (maj : Nat) (o : Ops) : Bool :=
  maj == 0xB5 || maj == 0xB6 || (maj == 0x25 && o.subN == 1 && o.kd == .scal)
/-- The results of an instruction that issues, with the cycles in which they are ready (08 R194): none where no lane passes, but for
those that are written even then. -/
def State.pendingOf (s : State) (i : Instr) : List (Nat × Nat) :=
  let ks (maj : Nat) (sh : Option Shape) (o : Ops) : List (Nat × Nat) :=
    match sh with
    | some sh =>
      if s.anyPass o || (writesAlways maj o && s.act != 0) then
        (sh.writeKeys o).map fun k => (shadowKey s.me.hmode k, s.now + latency maj o.subN)
      else []
    | none => []
  match i with
  | .pairedWord p q => ks p.maj.toNat p.shape p.ops ++ ks q.maj.toNat q.shape q.ops
  | i =>
    match shapeOf i, opsOf i with
    | some sh, some o => ks sh.maj (some sh) o ++
        (if (accsOf i).2 = 0 || !s.anyPass o then [] else ((accsOf i).1.take 1).map fun m => (accKey m, s.now + (accsOf i).2))
    | _, _ => []

/-! ## Operand delay -/

/-- An instruction reads the register file before it issues (03 R65). -/
def State.slow (s : State) (i : Instr) : Bool :=
  let f (sh : Option Shape) (o : Ops) : Bool :=
    match sh with
    | some sh => s.slowOperands sh o
    | none => false
  match i with
  | .pairedWord p q => f p.shape p.ops || f q.shape q.ops
  | i =>
    match opsOf i with
    | some o => f (shapeOf i) o
    | none => false

/-! ## One try of a warp -/

/-- DBGCTL selects a warp (15 R333). -/
def State.selected (s : State) (w : Nat) : Bool :=
  let g := (getP 0 s.dbgctl (s.partOf w)).toNat / 2 ^ 32
  g == 2 ^ 32 - 1 || g == (s.team (s.warp w).team).gridId.toNat
/-- The enabled breakpoint at an address. -/
def State.breakAt (s : State) (w : Nat) (pc : DWord) : Option Nat :=
  (List.range 4).find? fun k => (getP 0 s.dbgctl (s.partOf w)).getLsbD (2 + k) && getP 0 s.bkaddr k == pc

/-- What a try of a warp comes to: an instruction to execute in a prepared state, or a state after which the step is
over. -/
inductive Try where
  | run (i : Instr) (s : State)
  | later (s : State)

/-- The warp is tried again at a later cycle. -/
def State.retryIn (s : State) (w t : Nat) : State := s.onWarp w fun x => { x with retryAt := max (s.now + 1) t }

/-- An instruction made ready to execute. -/
def State.ready (s : State) (w : Nat) (act : BitVec 64) (pc : DWord) (n : Nat) : State :=
  { s with cur := w, act := act, issued := true, ipc := pc, npc := nextPc pc n }

/-- A fetched instruction: breakpoints (15 R333), the scoreboard, the operand delay, then its execution. -/
def State.tryInstr (s : State) (w : Nat) (act : BitVec 64) (pc : DWord) (i : Instr) (n : Nat) : Try :=
  let x := s.warp w
  match (if x.hmode || x.dbgSkip || !s.selected w then none else s.breakAt w pc) with
  | some k => .run .addressBreakpoint { s.retryIn w 0 with cur := w, issued := false, ipc := pc, ev := ⟨w, k, 0, 0, []⟩ }
  | none =>
    if s.scoreboard w (keysOf x.hmode i) then .later (s.retryIn w 0)
    else
      let t := s.ready w act pc n
      if t.slow i && x.choice.isNone then
        .later ((s.onWarp w fun x => { x with choice := some (i, act, pc) }).retryIn w (s.now + 3))
      else .run i t

/-- The acquire of an earlier instruction of a warp: it is performed when the loads before it have returned (06 R138). -/
def State.tryAcquire (s : State) (w : Nat) (a : Bool × Nat × Nat) : State :=
  if s.loading w a.2.1 then s.retryIn w 0
  else ((if a.1 then s.l1Clear (s.warp w).core else s).onWarp w fun x => { x with acq := none }).retryIn w (s.now + a.2.2)

/-- A try of a warp. -/
def State.tryWarp (s : State) (w : Nat) : Try :=
  let x := s.warp w
  match x.acq with
  | some a => .later (s.tryAcquire w a)
  | none =>
  match x.choice with
  | some (i, act, pc) =>
    if s.scoreboard w (keysOf x.hmode i) then .later (s.retryIn w 0) else .run i (s.ready w act pc i.bytes)
  | none =>
    let (act, pc) := x.selection
    match s.fetch w pc with
    | .bad s t r =>
      let s := s.retryIn w 0
      .later (if x.hmode then
          (if t ≤ s.now then s.handlerFault w r else (s.retryIn w (t + 1)).later (t - s.now) .tlbWalkComplete r.cls 2 w pc)
        else
          let s := if t ≤ s.now then s else s.later (t - s.now) .tlbWalkComplete 0 1 w
          (lanesOf act).foldl (fun s l => s.failAt w l t r) s)
    | .wait s t => .later (s.retryIn w t)
    | .got s i n => s.tryInstr w act pc i n

/-! ## After the execution -/

/-- A warp that stalls loses the preference of the warp its quarter issued from last (02 R53). -/
def State.yields (s : State) (w : Nat) : State :=
  s.onQuarter (s.warp w).unit fun q => if q.last = w then { q with greed := 0 } else q

/-- What follows an execution: a stall leaves the choice as it is, an issue counts in its quarter, makes its results
pending, and under single step takes the step trap (15 R333). `was` is the warp's record of a stall before the try, `pend` the results. -/
def State.finish (i : Instr) (was : Option Stalled) (pend : List (Nat × Nat)) (s : State) : State :=
  let w := s.cur
  let x := s.warp w
  let hret := match i with
    | .hret _ => true
    | _ => false
  let step := !x.hmode && !hret && !x.ended && s.selected w && (getP 0 s.dbgctl (s.partOf w)).getLsbD 0 && !x.dbgSkip
  let slot (q : Quarter) : Quarter :=
    { q with
      last := w
      greed := if 256 ≤ q.greed || (q.last = w && q.at_ = s.now && 0 < q.greed) then q.greed + 1 else 1
      at_ := s.now + 1
      issued := q.issued + 1 }
  let waited := match was with
    | some r => r.pc == s.ipc && 1 ≤ r.phase
    | none => false
  if !s.issued then
    (·.yields w) <|
    -- An instruction that waits has taken its issue slot in its first cycle.
    (match x.stalled with
    | some r => if r.pc = s.ipc && 1 ≤ r.phase && !waited then s.onQuarter x.unit slot else s
    | none => s)
  else
    let s := if waited then s else s.onQuarter x.unit slot
    let s := s.onWarp w fun x =>
      { x with
        choice := none
        stalled := none
        portSince := none
        dbgSkip := hret && x.dbgSkip
        pending := (x.pending.filter fun e => s.now < e.2) ++ pend }
    if step then s.trap w ⟨0x11, 0x20, s.ipc, 0x20⟩ else s

/-! ## Which warp -/

/-- A warp whose instruction has issued and waits. -/
def Warp.waiting (x : Warp) : Bool :=
  match x.stalled with
  | some r => 1 ≤ r.phase
  | none => false
/-- The condition of R56 on the parked lanes of a warp. -/
def Warp.parkedReady (x : Warp) : Bool :=
  let ys := (List.range 64).map x.lane
  let ps := ys.filter fun y => y.st == .parked
  !ps.isEmpty && (ps.any (fun y => y.meet == noMeeting) ||
    ps.all fun p => ys.all fun y => y.st != .running || y.meet != p.meet)
/-- A warp that may issue in this cycle: one that comes to a boundary by `HRET` or by a delivery vectors there before it issues (15 R322). -/
def State.eligible (s : State) (w : Nat) : Bool :=
  let x := s.warp w
  x.live && !x.ended && x.retryAt ≤ s.now && (x.hmode || x.deliv.isEmpty) && !(x.busyTo == s.now && !x.hmode && x.parkedReady) && ((s.quarter x.unit).at_ ≤ s.now || x.waiting) &&
  (x.hmode || (x.traps.isEmpty && ((List.range 64).any fun l => (x.lane l).canIssue)))

/-- The age of a warp (02 R53): the cycle of its placement, or the later one in which it went to the youngest position. -/
def Quarter.age (q : Quarter) (w placed : Nat) : Nat :=
  match q.young.find? fun e => e.1 == w with
  | some e => max placed e.2
  | none => placed
/-- The place of a warp in its quarter's order (02 R36, R53): a sheaf that issues together, the warp that issued in the cycle before,
then age. -/
def State.rank (s : State) (w : Nat) : List Nat :=
  let x := s.warp w
  let q := s.quarter x.unit
  [x.unit, if x.rdv.isSome && x.rdvAt != 0 && x.rdvAt ≤ s.now then 0 else 1, if 0 < q.greed && q.last = w && q.at_ = s.now then 0 else 1,
    q.age w x.placed, x.slot]
/-- Lexicographic order. -/
def lexLt : List Nat → List Nat → Bool
  | [], _ => false
  | _, [] => false
  | a :: r, b :: t => a < b || (a == b && lexLt r t)

/-- The next warp to try in this cycle: the quarters in increasing number, and their best warps. -/
def State.nextWarp (s : State) : Option Nat :=
  ((List.range s.warps.length).filter s.eligible).foldl (fun b w =>
    match b with
    | none => some w
    | some v => if lexLt (s.rank w) (s.rank v) then some w else some v) none

end Sys2Proof.Machine
end

