-- ==== Sys2Proof/Machine/Sync.lean ====
section
/-!
DEFINITION. Fences, acquires and releases (06 R138-R142; 09 R241), the team barrier (09 R242), counters (09 R243, R245) and
publication (06 R156; 09 R244).
-/
namespace Sys2Proof.Machine

/-- A scope wider than CORE. -/
def wide (o : Ops) : Bool := 1 ≤ o.auxN

/-- The waits of an acquire: every earlier load of the warp has returned (06 R138, R141). -/
def State.acqWaits (s : State) : Bool := s.loading s.cur s.bound
/-- The waits of a release: the drain set at the scope (06 R141). -/
def State.relWaits (s : State) (wd : Bool) : Bool := wd && s.draining s.cur s.bound
/-- The invalidation of an acquire (06 R138). -/
def State.acquire (s : State) (wd : Bool) : State := if wd then s.l1Clear s.me.core else s

/-- The issue of an instruction that has taken effect and then acquires: the warp issues next `n` cc after the waits of the acquire are
satisfied, and its L1 is invalidated then (06 R138, R141). -/
def State.acquireNext (s : State) (wd : Bool) (n : Nat) : State :=
  if s.acqWaits then s.advance.onMe fun x => { x with acq := some (wd, s.bound, n) } else (s.acquire wd).advance n

/-- FENCE (R138): Orders loads and stores at a scope in both directions. -/
def execFence (o : Ops) (s : State) : Out :=
  memExec (.fence o) (fun s _ o =>
    if !s.anyPass o then s.advance
    else if s.acqWaits || s.relWaits (wide o) then s.stallAs 1 0
    else (s.acquire (wide o)).advance (if wide o then 12 else 4)) s

/-- ACQ (R138): Acquire at a scope, invalidating L1 at SECTOR or wider. -/
def execAcq (o : Ops) (s : State) : Out :=
  memExec (.acq o) (fun s _ o =>
    if !s.anyPass o then s.advance
    else if s.acqWaits then s.stallAs 1 0
    else (s.acquire (wide o)).advance (if wide o then 10 else 2)) s

/-- REL (R138): Release at a scope, waiting for the drain set. -/
def execRel (o : Ops) (s : State) : Out :=
  memExec (.rel o) (fun s _ o =>
    if !s.anyPass o then s.advance
    else if s.relWaits (wide o) then s.stallAs 1 0
    else s.advance 2) s

/-- The time of a steal request to its victim (06 R142). -/
def stealLat (a b : Nat) : Nat := if sectorOf a = sectorOf b then 40 else 80

/-- ACQ_STEAL (R142): Remote-scope promotion: drains a victim core and then acquires at DEVICE scope. Phase 20 waits for the drain of
the victim, phase 21 for the rest. -/
def execAcqSteal (o : Ops) (s : State) : Out :=
  memExec (.acqSteal o) (fun s _ o =>
    let v := s.uni o o.s1
    let far := sectorOf v ≠ sectorOf s.me.core
    if !s.anyPass o then s.advance
    else if 575 < v || s.partOfSector (sectorOf v) ≠ s.partOf s.cur then s.faultAll 0x05
    else if s.phase = 0 then (s.later (stealLat s.me.core v) .stealArrival s.cur v).stallAs 20 0
    else if s.phase = 20 then s.stallAs 20 0
    else if s.now < s.since + (if far then 260 else 180) || s.acqWaits then s.stallAs 21 0
    else (s.acquire true).advance 10) s

/-- STEAL_ARRIVAL (R142): The steal request reaches the victim core, which drains its write-through queue and invalidates its L1. The
operand `c` is 0 at the arrival, and then bounds the stores that are awaited. -/
def execStealArrival (s : State) : Out :=
  .next (
    let w := s.ev.a
    let v := s.ev.b
    let b := if s.ev.c = 0 then s.seq else s.ev.c
    if s.drainingCore v b then s.later 1 .stealArrival w v b
    else
      (s.l1Clear v).onWarp w fun x =>
        { x with stalled := x.stalled.map fun r => if r.phase = 20 then { r with phase := 21 } else r })

/-! ## Team barrier -/

/-- The warp arrives: its arrival is recorded, and the phase may complete (09 R242). -/
def State.arriveBar (s : State) : State := (s.onMe fun x => { x with arrived := true }).checkBarrier s.me.team
/-- A phase that completed in this cycle: a warp that waits acts from the next cycle (02 R414). -/
def State.phaseNow (s : State) : Bool := s.myTeam.phaseAt = s.now && s.phase != 0

/-- BARARV (R242): Arrives at the team barrier with a release. -/
def execBararv (o : Ops) (s : State) : Out :=
  memExec (.bararv o) (fun s _ _ =>
    if s.act = 0 then s.advance
    else if s.me.arrived || s.phaseNow then s.stallAs 1 0
    else s.arriveBar.advance 2) s

/-- What `BARWT` and `BAR` do once no arrival is pending: an acquire at CORE. Phase 2 waits for earlier loads. -/
def State.leaveBar (s : State) (n : Nat) : State :=
  if s.acqWaits then s.stallAs 2 0
  else
    let t := if s.phase = 0 then s.now + 2 else if s.phase = 2 then max (s.myTeam.phaseAt + n) (s.now + 2) else max (s.myTeam.phaseAt + n) (s.now + 1)
    (s.onMe fun x => { x with barAt := none }).advance (t - s.now)

/-- BARWT (R242): Waits for the pending barrier phase and acquires. -/
def execBarwt (o : Ops) (s : State) : Out :=
  memExec (.barwt o) (fun s _ _ =>
    if s.act = 0 then s.advance
    else if s.me.arrived then s.stallAs 1 0
    else s.leaveBar 2) s

/-- BAR (R242): Arrives at the team barrier and waits for the phase to complete. An arrival that this `BAR` has recorded stands
through a vector (09 R255). Phase 3 waits for an earlier arrival's phase. -/
def execBar (o : Ops) (s : State) : Out :=
  memExec (.bar o) (fun s _ _ =>
    if s.act = 0 then s.advance
    else if s.me.barAt = some s.ipc then
      (if s.me.arrived then s.stallAs 1 0
      else if s.phase = 0 then s.stallAs 1 0
      else s.leaveBar 4)
    else if s.me.arrived || s.phaseNow then s.stallAs 3 0
    else (s.onMe fun x => { x with barAt := some s.ipc }).arriveBar.stallAs 1 0) s

/-! ## Counters -/

/-- The limits of `WAIT`: LD, ST, CP and TL (07 R178). -/
def waitLimits (o : Ops) : Nat × Nat × Nat × Nat :=
  (o.imm.toNat / 2 ^ 16 % 64, o.imm.toNat / 2 ^ 10 % 64, o.imm.toNat / 2 ^ 4 % 64, o.imm.toNat % 16)

/-- WAIT (R243): Stalls until the outstanding counters fall to the given limits. -/
def execWait (o : Ops) (s : State) : Out :=
  memExec (.wait o) (fun s _ o =>
    let l := waitLimits o
    if s.me.ld ≤ l.1 && s.me.st ≤ l.2.1 && s.me.cp ≤ l.2.2.1 && s.me.tl ≤ l.2.2.2 then s.advance else s.stallAs 1 0) s

/-- CNTRD (R245): Reads the warp's counters or the team's send-discard count. -/
def execCntrd (o : Ops) (s : State) : Out :=
  memExec (.cntrd o) (fun s sh o =>
    let x := s.me
    let v := if o.subN = 0 then x.ld + 2 ^ 8 * x.st + 2 ^ 16 * x.cp + 2 ^ 24 * x.tl else s.myTeam.sendDisc
    s.putPort sh o v) s

/-! ## Publication -/

/-- Lanes fail at a cycle, and park when it comes. -/
def State.failLanesAt (s : State) (w : Nat) (m : BitVec 64) (t : Nat) (r : FaultRec) : State :=
  let s := if t ≤ s.now then s else s.later (t - s.now) .tlbWalkComplete 0 1 w
  (lanesOf m).foldl (fun s l => s.failAt w l t r) s

/-- The cores in a scope around a core; a scope wider than DEVICE holds every core of the device. -/
def inScope (scope core c : Nat) : Bool :=
  match scope with
  | 0 => c == core
  | 1 => sectorOf c == sectorOf core
  | _ => true

/-- Lines become published, and the copies of the instruction caches in a scope are invalidated (06 R156). -/
def State.publish (s : State) (core scope : Nat) (pas : List Nat) : State :=
  pas.foldl (fun s pa =>
    let la := lineOf pa
    { s.icacheDrop (inScope scope core) la (la + 128) with
      published := if s.published.contains la then s.published else la :: s.published }) s

/-- The first line of a range without a translation, among the lines before the first non-canonical address, and then that address; with
its class and the cycle in which the check is known (09 R244; 16 R345). -/
def firstBad (now : Nat) (xs : List (Nat × Xlate)) (vas : List Nat) : Option (Nat × Nat × Nat) :=
  let heads := vas.takeWhile canonical
  match heads.find? fun va => (xlateOf xs va).ent.isNone with
  | some va => some (va, (xlateOf xs va).cls, (xlateOf xs va).ready)
  | none => ((vas.find? fun va => !canonical va).map fun va => (va, 5, xs.foldl (fun m p => max m p.2.ready) now))

/-- PUBL (R156): Publishes a range of code lines and invalidates instruction-cache copies within the scope. The datum is the cycle in
which the translations are ready. -/
def execPubl (o : Ops) (s : State) : Out :=
  memExec (.publ o) (fun s _ o =>
    let a := s.uni64 o.s1
    let n := s.uni o o.s2
    let vas := (List.range n).map fun k => (a + 128 * k) % 2 ^ 64
    if s.act = 0 || n = 0 then s.advance
    else if a % 128 ≠ 0 then (s.parkUni 6 false 1 a)
    else if 4096 < n then (s.parkUni 5 false 1 a)
    else if s.phase = 0 then
      let x := s.me
      let (s, xs) := s.lookupPages (s.partOf s.cur) x.core s.myTeam.asid (sortU ((vas.takeWhile canonical).map (· / 4096)))
      match firstBad s.now xs vas with
      | some (va, cls, t) => s.failLanesAt s.cur s.act t (accRec cls s.ipc false 1 va)
      | none =>
        let t := xs.foldl (fun m p => max m p.2.ready) s.now
        if s.now < t || s.drainingCore s.me.core s.seq then s.stallAs 1 t
        else (s.publish s.me.core o.auxN (vas.filterMap (s.quietPhys s.cur))).advance 40
    else if s.now < s.datum || s.drainingCore s.me.core s.bound then s.stallAs 1 s.datum
    else (s.publish s.me.core o.auxN (vas.filterMap (s.quietPhys s.cur))).advance 40) s

end Sys2Proof.Machine
end

