-- ==== Sys2Proof/Machine/Copy.lean ====
section
/-!
DEFINITION. The buffer table and its handles (05 R112, R113; 09 R235), copies and their channels (09 R232-R234; 17 R366; 19 R400;
05 R128), and messages to receive rings (05 R129, R130; 09 R236).
-/
namespace Sys2Proof.Machine

/-! ## Handles -/

def Team.handle (t : Team) (h : Nat) : Handle := getP Handle.idle t.handles h
def Team.onHandle (t : Team) (h : Nat) (f : Handle → Handle) : Team :=
  { t with handles := setP Handle.idle t.handles h (f (t.handle h)) }
/-- The bytes of a handle's buffer. -/
def Handle.bytes (h : Handle) : Nat := 64 * (h.size + 1)
/-- A handle changes in cycle `now`: what stood before the cycle is kept (02 R414). -/
def Handle.touch (h : Handle) (now : Nat) : Handle :=
  if h.changed = now then h else { h with changed := now, before := (h.state, h.wptr) }

/-- The record of a permission fault on a handle (15 R325): it names the handle and its state. -/
def handleRec (pc : DWord) (h st : Nat) : FaultRec :=
  { mkFault 5 pc with info := BitVec.ofNat 32 (h % 64 * 256 + st) }

/-- Why a copy or command may not fill a handle (05 R113): a permission fault, or a layout mismatch. -/
def Team.fillFault (t : Team) (pc : DWord) (h layout fmt : Nat) (raw : Bool) : Option FaultRec :=
  let e := t.handle h
  if t.handles.length ≤ h then some (handleRec pc h 0)
  else if 2 ≤ e.state then some (handleRec pc h e.state)
  else if e.state = 1 && !raw && (e.layout != layout || e.fmt != fmt) then some (mkFault 0x0A pc)
  else none
/-- A copy or command to the handle issues (05 R113). -/
def Team.beginFill (t : Team) (now h layout fmt : Nat) : Team :=
  t.onHandle h fun e =>
    if e.state = 0 then { e.touch now with state := 1, layout := layout, fmt := fmt, wptr := 0, got := [] } else e

/-- The end of the delivered bytes that start at `w`, over the intervals delivered. -/
def prefixEnd (got : List (Nat × Nat)) : Nat → Nat → Nat
  | 0, w => w
  | n + 1, w =>
    match got.find? fun g => g.1 ≤ w && w < g.1 + g.2 with
    | some g => prefixEnd got n (g.1 + g.2)
    | none => w
/-- Bytes are delivered to a handle (05 R113; 09 R233): WPTR advances over the contiguous prefix, and a full buffer makes the
handle full. -/
def Handle.deliver (e : Handle) (now off n : Nat) : Handle :=
  if e.state ≠ 1 then e
  else
    let got := (off, n) :: e.got
    let w := min e.bytes (prefixEnd got got.length e.wptr)
    let e := if w = e.wptr then e else e.touch now
    { e with
      got := got.filter fun g => w < g.1 + g.2
      wptr := w
      state := if w = e.bytes then 2 else 1 }

/-- The handle of a handle instruction. -/
def State.hArg (s : State) (o : Ops) : Nat := s.uni o o.s1
/-- A handle instruction (09 R235): it executes when a lane passes, and a handle that is not the team's faults. -/
def handleExec (i : Instr) (k : State → Ops → Nat → State) (s : State) : Out :=
  memExec i (fun s _ o =>
    let h := s.hArg o
    if !s.anyPass o then s.advance
    else if s.myTeam.handles.length ≤ h then s.parkAll (handleRec s.ipc h 0)
    else k s o h) s

/-- The wait for a handle's state: 2 cc after it is reached. -/
def State.hwait (s : State) (h : Nat) (ok : Nat → Bool) : State :=
  let e := s.myTeam.handle h
  if !ok e.state then s.stallAs 1 0
  else if s.phase = 0 then s.advance 2
  else s.advance (max (s.now + 1) (e.changed + 2) - s.now)

/-- HWAIT_FULL (R235): Stalls until the handle is full or draining. -/
def execHwaitFull (o : Ops) (s : State) : Out :=
  handleExec (.hwaitFull o) (fun s _ h => s.hwait h fun st => 2 ≤ st) s

/-- HWAIT_FREE (R235): Stalls until the handle is free. -/
def execHwaitFree (o : Ops) (s : State) : Out :=
  handleExec (.hwaitFree o) (fun s _ h => s.hwait h fun st => st == 0) s

/-- HWP (R235): Reads a handle's WPTR, as at the end of the previous cycle, and acquires the bytes below it. -/
def execHwp (o : Ops) (s : State) : Out :=
  handleExec (.hwp o) (fun s o h =>
    let e := s.myTeam.handle h
    let v := if e.changed = s.now then e.before.2 else e.wptr
    match shapeOf (.hwp o) with
    | some sh => s.putPort sh o v
    | none => s) s

/-- A release of a handle from the states that allow it. -/
def State.hrel (s : State) (h : Nat) (ok : Nat → Bool) (st : Nat) : State :=
  let e := s.myTeam.handle h
  if !ok e.state then s.parkAll (handleRec s.ipc h e.state)
  else (s.onMyTeam fun t => t.onHandle h fun e => { e.touch s.now with state := st }).advance 2

/-- HREL_CLAIM (R235): Moves a handle from full to draining. -/
def execHrelClaim (o : Ops) (s : State) : Out :=
  handleExec (.hrelClaim o) (fun s _ h => s.hrel h (· == 2) 3) s

/-- HREL_FREE (R235): Moves a handle from full or draining to free. -/
def execHrelFree (o : Ops) (s : State) : Out :=
  handleExec (.hrelFree o) (fun s _ h => s.hrel h (2 ≤ ·) 0) s

/-! ## Copies -/

/-- The copy channel of a core (09 R233). -/
def channelOf (core : Nat) : Nat := 8 * sectorOf core + core % 96 / 4 / 3
/-- The first core of a channel's sector. -/
def channelCore (c : Nat) : Nat := 96 * (c / 8)
def State.lineop (s : State) (i : Nat) : LineOp := getP LineOp.idle s.lineops i
def State.onLineop (s : State) (i : Nat) (f : LineOp → LineOp) : State :=
  { s with lineops := setP LineOp.idle s.lineops i (f (s.lineop i)) }
def State.channel (s : State) (c : Nat) : Channel := getP Channel.idle s.channels c
def State.onChannel (s : State) (c : Nat) (f : Channel → Channel) : State :=
  { s with channels := setP Channel.idle s.channels c (f (s.channel c)) }

/-- The line of a place: global lines, then the 128-byte rows of a team's scratch. -/
def Place.line : Place → Nat × Nat × Nat
  | .glob pa => (0, 0, lineOf pa)
  | .scr t off _ _ => (1, t, lineOf off)
/-- A place `k` bytes on. -/
def Place.plus (p : Place) (k : Nat) : Place :=
  match p with
  | .glob pa => .glob (pa + k)
  | .scr t off h ho => .scr t (off + k) h (ho + k)

/-- What a copy moves: destination, source, bytes, whether the source page is compressible and the destination page is
not, and the cycle its translations are ready. -/
structure Move where
  dst : Place
  src : Place
  n : Nat
  expand : Bool
  early : Nat

/-- The distinct destination lines of a copy, in increasing order. -/
def insertLine (x : Nat × Nat × Nat) : List (Nat × Nat × Nat) → List (Nat × Nat × Nat)
  | [] => [x]
  | y :: r => if x = y then y :: r else if lexLt3 x y then x :: y :: r else y :: insertLine x r
where
  lexLt3 (a b : Nat × Nat × Nat) : Bool := a.2.2 < b.2.2
def linesOf (ms : List Move) : List (Nat × Nat × Nat) := ms.foldr (fun m l => insertLine m.dst.line l) []

/-- The ingress of a destination line (05 R128): the ring stop of its slice's sector, or the network interface of the core
of the scratch. -/
def State.ingressOf (s : State) (p core : Nat) (dst : Place) : Nat :=
  match dst with
  | .glob pa => (match s.homeOf p pa with
    | .slice _ sl => sl / 16
    | .remote _ sec _ => sec
    | _ => 0)
  | .scr _ _ _ _ => 6 + core

/-- A copy is handed to its channel: one line operation for each distinct destination line, in chunks of at most 16 (09
R233; 17 R366). The operation counts once on CP. -/
def State.startCopy (s : State) (w : Nat) (pc : DWord) (queue : Nat) (accs : List Acc) (ms : List Move) : State :=
  match linesOf ms with
  | [] => s
  | ls =>
    let x := s.warp w
    let c := channelOf x.core
    let m : MemOp := { MemOp.idle with
      live := true, warp := w, core := x.core, ctr := .cp, kind := .copy, req := .load, accs := accs, left := ls.length
      seq := s.seq, pc := pc }
    let order := s.seq
    let (s, op) := s.bumpSeq.addMemop m
    let s := s.count w .cp (· + 1)
    (List.range ls.length).foldl (fun s k =>
      let mine := ms.filter fun m => m.dst.line == getP (0, 0, 0) ls k
      let exp := mine.any (·.expand)
      let inChunk := min 16 (ls.length - k / 16 * 16)
      let i := freeSlot LineOp.live s.lineops
      let o : LineOp := { LineOp.idle with
        live := true
        op := op
        queue := queue
        moves := mine.map fun m => (m.dst, m.src, m.n)
        chunk := order * 2 ^ 32 + k / 16
        early := mine.foldl (fun t m => max t m.early) s.now
        ingress := match mine with
          | m :: _ => s.ingressOf (s.partOf w) x.core m.dst
          | [] => 0
        permits := if !exp then 0 else if k % 16 = 0 then 64 - 4 * (inChunk - 1) else 4
        core := x.core
        seq := order }
      ({ s with lineops := setP LineOp.idle s.lineops i o }).onChannel c fun ch =>
        { ch with queues := setP [] ch.queues queue (getP [] ch.queues queue ++ [i]) }) s

/-- The addresses of a lane of a copy, and its failed check that is not of a page: scratch alignment, scratch bounds, the
handle. -/
structure CopyLane where
  lane : Nat
  src : Nat
  dst : Nat
  extra : Option Bad

/-- A scratch address of a copy in a team (05 R110; 09 R232). -/
def scratchBad (now : Nat) (pc : DWord) (write : Bool) (n a limit : Nat) : Option Bad :=
  if a % n ≠ 0 then some ⟨2, accRec 6 pc write n a, now⟩
  else if limit < a + n then some ⟨5, accRec 5 pc write n a, now⟩
  else none
/-- A global address of a copy. -/
def globalBad (now : Nat) (pc : DWord) (write : Bool) (n a : Nat) : Option Bad :=
  if a % n ≠ 0 then some ⟨2, accRec 6 pc write n a, now⟩ else none

/-- The place of a fault that a handle gives. -/
def handleBad (now : Nat) (r : FaultRec) : Bad := ⟨rankOf r.cls, r, now⟩

/-- COPY (R232): Issues a per-lane copy; its addresses are checked at issue and the line operations are handed to the copy channel. -/
def execCopy (o : Ops) (s : State) : Out :=
  memExec (.copy o) (fun s sh o =>
    let n := 4 * 2 ^ (o.subN / 16)
    let q := o.subN / 4 % 4
    let dir := o.subN % 4
    let t := s.myTeam
    let h := o.imm.toNat % 64
    let layout := o.imm.toNat / 2 ^ 6 % 8
    let fmt := o.imm.toNat / 2 ^ 9 % 16
    let e := t.handle h
    let hbad := if dir = 0 then (t.fillFault s.ipc h layout fmt (o.imm.getLsbD 13)).map (handleBad s.now) else none
    let m := s.memLanes sh o true
    if s.noRoom .cp then s.stall
    else
      let ls := (lanesOf m).map fun l =>
        let src := if dir = 1 then s.src o .i32 o.s1 l else s.readN o o.s1 2 l
        let dst := if dir = 0 then s.src o .i32 o.dstSrc l else s.readN o o.dstSrc 2 l
        let es := if dir = 1 then scratchBad s.now s.ipc false n src t.kern.scratch else globalBad s.now s.ipc false n src
        let ed := if dir = 0 then scratchBad s.now s.ipc true n dst e.bytes else globalBad s.now s.ipc true n dst
        (⟨l, src, dst, Bad.first (Bad.first es ed) hbad⟩ : CopyLane)
      let accs := ls.flatMap fun c =>
        (if dir = 1 then [] else [(⟨c.lane, c.src, 0, n, 0, 0, false, false, none⟩ : Acc)]) ++
        (if dir = 0 then [] else [(⟨c.lane, c.dst, 0, n, 0, 1, false, false, none⟩ : Acc)])
      let c := (s.parkIdx sh o).clearWith s.cur s.ipc (Need.plain false n) (fun a => Need.plain (a.reg == 1) n)
        (fun l => ((ls.find? fun c => c.lane == l).bind (·.extra))) accs
      let find (l k : Nat) : Option Acc := c.accs.find? fun a => a.lane == l && a.reg == k
      let ready (a : Option Acc) : Nat := match a with
        | some a => (lookupN c.ready (a.va / 4096)).getD s.now
        | none => s.now
      let ms := (ls.filter fun k => c.accs.any fun a => a.lane == k.lane).map fun k =>
        let a := find k.lane 0
        let b := find k.lane 1
        let src := if dir = 1 then Place.scr s.me.team k.src none 0 else .glob ((a.map (·.pa)).getD 0)
        let dst := if dir = 0 then Place.scr s.me.team (64 * e.base + k.dst) (some h) k.dst else .glob ((b.map (·.pa)).getD 0)
        (⟨dst, src, n, ((a.map (·.cmp)).getD false) && !((b.map (·.cmp)).getD false), max (ready a) (ready b)⟩ : Move)
      let s1 := if dir = 0 && !ms.isEmpty then c.s.onMyTeam fun t => t.beginFill s.now h layout fmt else c.s
      (s1.startCopy s.cur s.ipc q c.accs ms).advance) s

/-! ### Region copies -/

/-- A tensor region record (09 R234). -/
structure Region where
  src : Nat
  dst : Nat
  handle : Nat
  rowBytes : Nat
  rows : Nat
  sstride : Nat
  dstride : Nat
  layout : Nat
  fmt : Nat
  raw : Bool
  reserved : Nat

def State.region (s : State) (k dir : Nat) : Region :=
  let r (i : Nat) : Nat := (s.me.sreg (k + i)).toNat
  { src := r 0 + 2 ^ 32 * r 1
    dst := if dir = 0 then r 2 else r 2 + 2 ^ 32 * r 3
    handle := r 3 % 64
    rowBytes := r 4 / 2 ^ 16
    rows := r 4 % 2 ^ 16
    sstride := r 5
    dstride := r 6
    layout := r 7 % 8
    fmt := r 7 / 8 % 16
    raw := (s.me.sreg (k + 7)).getLsbD 7
    reserved := r 7 / 2 ^ 8 }

/-- The last byte (plus 1) of a region side. -/
def regionEnd (base stride rows rowBytes : Nat) : Nat := base + (rows - 1) * stride + rowBytes
/-- The pages of a region side in region order. -/
def regionPages (base stride rows rowBytes : Nat) : List Nat :=
  ((List.range rows).flatMap fun i =>
    let a := (base + i * stride) % 2 ^ 64
    (List.range ((a % 4096 + rowBytes + 4095) / 4096)).map fun k => ((a / 4096 + k) * 4096) % 2 ^ 64).eraseDups
/-- The lines of a page that a region side names, from the first byte of the page. -/
def regionLines (base stride rows rowBytes page : Nat) : List Nat :=
  ((List.range 32).map (128 * ·)).filter fun k =>
    (List.range rows).any fun i =>
      let a := (base + i * stride) % 2 ^ 64
      a < page + k + 128 && page + k < a + rowBytes

/-- The fault of a region record before any page is translated (09 R234). -/
def State.regionBad (s : State) (r : Region) (dir : Nat) : Option FaultRec :=
  let t := s.myTeam
  let e := t.handle r.handle
  if r.src % 4 ≠ 0 || r.dst % 4 ≠ 0 || r.sstride % 4 ≠ 0 || r.dstride % 4 ≠ 0 then
    some (accRec 6 s.ipc (r.src % 4 == 0 && r.sstride % 4 == 0) 4 (if r.src % 4 = 0 && r.sstride % 4 = 0 then r.dst else r.src))
  else if r.rows = 0 || r.rowBytes < 4 || 32768 < r.rowBytes || r.rowBytes % 4 ≠ 0 then some (mkFault 5 s.ipc)
  else if r.reserved ≠ 0 || 4 ≤ r.layout || 7 ≤ r.fmt then some (mkFault 0x0A s.ipc)
  else if dir = 0 then
    (match t.fillFault s.ipc r.handle r.layout r.fmt r.raw with
    | some f => some f
    | none => if e.bytes < regionEnd r.dst r.dstride r.rows r.rowBytes then some (accRec 5 s.ipc true 4 r.dst) else none)
  else if dir = 1 && t.kern.scratch < regionEnd r.src r.sstride r.rows r.rowBytes then some (accRec 5 s.ipc false 4 r.src)
  else none

/-- The pieces of one row: each lies in one page of the source, one line of the destination, and is a whole number of
words (09 R234; 06 R145). -/
def rowPieces : Nat → Nat → Nat → Nat → List (Nat × Nat × Nat)
  | 0, _, _, _ => []
  | fuel + 1, s, d, n =>
    if n = 0 then []
    else
      let k := min n (min (128 - d % 128) (128 - s % 128))
      (s, d, k) :: rowPieces fuel (s + k) (d + k) (n - k)

/-- CPRG (R234): Issues a region copy from a record in scalars, translating every page at issue. -/
def execCprg (o : Ops) (s : State) : Out :=
  memExec (.cprg o) (fun s _ o =>
    let dir := o.subN % 4
    let q := o.subN / 4 % 4
    let r := s.region o.s1.val.toNat dir
    let run := (List.range 64).any fun l => s.passReal o l
    if s.noRoom .cp then s.stall
    else if !run then s.advance
    else
      match s.regionBad r dir with
      | some f => s.parkAll f
      | none =>
        let t := s.myTeam
        let e := t.handle r.handle
        -- The pages in region order, the source first: the first that fails decides the fault (09 R234).
        let pages := (if dir = 1 then [] else (regionPages r.src r.sstride r.rows r.rowBytes).map fun va => (0, va)) ++
          (if dir = 0 then [] else (regionPages r.dst r.dstride r.rows r.rowBytes).map fun va => (1, va))
        let accs := (List.range pages.length).map fun j =>
          (⟨j, (getP (0, 0) pages j).2, 0, 4, 0, (getP (0, 0) pages j).1, false, false, none⟩ : Acc)
        let need (a : Acc) : Need := { Need.plain (a.reg == 1) 4 with
          lines := if a.reg = 0 then regionLines r.src r.sstride r.rows r.rowBytes a.va else regionLines r.dst r.dstride r.rows r.rowBytes a.va }
        let c := s.clearWith s.cur s.ipc { Need.plain false 4 with uni := some s.act } need (fun _ => none) accs
        if c.accs.length < accs.length then c.s
        else
          let mixed (k : Nat) : Bool :=
            let ps := c.accs.filter fun a => a.reg == k
            ps.any fun a => ps.any fun b => a.cmp != b.cmp || a.slr != b.slr || (a.page.any (·.coh)) != (b.page.any (·.coh))
          if r.layout = 3 && (mixed 0 || mixed 1) then c.s.parkAll (mkFault 0x0F s.ipc)
          else
            let page (k va : Nat) : Acc := (c.accs.find? fun a => a.reg == k && a.va == va / 4096 * 4096).getD Acc.none_
            let ready (va : Nat) : Nat := (lookupN c.ready (va / 4096)).getD s.now
            let ms := (List.range r.rows).flatMap fun i =>
              (rowPieces (r.rowBytes / 4) ((r.src + i * r.sstride) % 2 ^ 64) (((if dir = 0 then 64 * e.base else 0) + r.dst + i * r.dstride) % 2 ^ 64)
                  r.rowBytes).map fun p =>
                let src := if dir = 1 then Place.scr s.me.team p.1 none 0 else .glob ((page 0 p.1).pa + p.1 % 4096)
                let dst := if dir = 0 then Place.scr s.me.team p.2.1 (some r.handle) (p.2.1 - 64 * e.base)
                  else .glob ((page 1 p.2.1).pa + p.2.1 % 4096)
                (⟨dst, src, p.2.2, (dir != 1 && (page 0 p.1).cmp) && !(dir != 0 && (page 1 p.2.1).cmp),
                  max (if dir = 1 then s.now else ready p.1) (if dir = 0 then s.now else ready p.2.1)⟩ : Move)
            let s1 := if dir = 0 then c.s.onMyTeam fun t => t.beginFill s.now r.handle r.layout r.fmt else c.s
            (s1.startCopy s.cur s.ipc q c.accs ms).advance) s

/-! ### Channels -/

/-- The weight of a queue (17 R366): TKSHARE index 6, 0 acting as 1. -/
def State.queueWeight (s : State) (q : Nat) : Nat := max 1 ((getP 0 s.tkshare 6).toNat / 2 ^ (4 * q) % 16)
/-- The bytes of the head chunk of a queue: 128 for each of its line operations that is still queued. -/
def State.chunkBytes (s : State) (ids : List Nat) : Nat :=
  match ids with
  | [] => 0
  | i :: _ => 128 * (ids.filter fun j => (s.lineop j).chunk == (s.lineop i).chunk).length
/-- Permits of an ingress that are reserved (05 R128). -/
def State.permitsUsed (s : State) (g : Nat) : Nat :=
  s.lineops.foldl (fun n o => if o.live && o.held && o.ingress == g then n + o.permits else n) 0
/-- The permits that the chunk of a line operation still has to reserve at an ingress. -/
def State.chunkPermits (s : State) (i g : Nat) : Nat :=
  s.lineops.foldl (fun n o => if o.live && !o.held && o.chunk == (s.lineop i).chunk && o.ingress == g then n + o.permits else n) 0
/-- The line operations of the chunk of a line operation hold their permits, or can: each at the ingress of its destination. -/
def State.permitsOk (s : State) (i : Nat) : Bool :=
  (s.lineop i).held || s.lineops.all fun o =>
    !(o.live && o.chunk == (s.lineop i).chunk && o.permits != 0) ||
      s.chunkPermits i o.ingress = 0 || s.permitsUsed o.ingress + s.chunkPermits i o.ingress ≤ 512

/-- Whether the core of a line operation has a token that no refill of this cycle gave (02 R414; 17 R368; 19 R400), and none of
its core that has waited for a token goes before it. -/
def State.tokenOk (s : State) (i : Nat) : Bool :=
  let o := s.lineop i
  !s.metered o.core ||
    (0 < getP 0 s.buckets o.core && getP 0 s.refilled o.core != s.now + 1 &&
      !s.lineops.any fun j => j.live && j.waits && j.core == o.core && (!o.waits || j.seq < o.seq))

/-- A queue whose head asks to leave in this cycle, and one whose head can. -/
def State.headAsks (s : State) (c : Channel) (q : Nat) : Bool :=
  match getP [] c.queues q with
  | [] => false
  | i :: _ => (s.lineop i).early ≤ s.now && s.tokenOk i
def State.headReady (s : State) (c : Channel) (q : Nat) : Bool :=
  s.headAsks c q && (match getP [] c.queues q with
    | [] => false
    | i :: _ => s.permitsOk i)
/-- The heads that ask and find too few permits wait one quantum of 8 cc (05 R128). -/
def State.permitWait (s : State) (c : Nat) : State :=
  (List.range 4).foldl (fun s q =>
    match getP [] (s.channel c).queues q with
    | [] => s
    | i :: _ => if s.headAsks (s.channel c) q && !s.permitsOk i then s.onLineop i fun o => { o with early := s.now + 8 } else s) s

/-- The deficit round-robin (17 R366): the queue being visited while its head chunk fits or is paid for, else the next
queue, whose visit adds to its deficit. `n` bounds the visits. -/
def State.pickQueue (s : State) : Nat → Channel → Option (Nat × Channel)
  | 0, _ => none
  | n + 1, c =>
    match c.cur with
    | some (q, paid) =>
      (match getP [] c.queues q with
      | [] => s.pickQueue n { c with cur := none, turn := (q + 1) % 4, deficits := setP 0 c.deficits q 0 }
      | i :: r =>
        let k := (s.lineop i).chunk
        let bytes := s.chunkBytes (i :: r)
        if !s.headReady c q then
          s.pickQueue n { c with
            cur := none
            turn := (q + 1) % 4
            deficits := if paid = k then setP 0 c.deficits q (getP 0 c.deficits q + bytes) else c.deficits }
        else if paid = k then some (q, c)
        else if bytes ≤ getP 0 c.deficits q then
          some (q, { c with cur := some (q, k), deficits := setP 0 c.deficits q (getP 0 c.deficits q - bytes) })
        else s.pickQueue n { c with cur := none, turn := (q + 1) % 4 })
    | none =>
      let q := c.turn
      if (getP [] c.queues q).isEmpty then s.pickQueue n { c with turn := (q + 1) % 4, deficits := setP 0 c.deficits q 0 }
      else if !s.headReady c q then s.pickQueue n { c with turn := (q + 1) % 4 }
      else
        s.pickQueue n { c with cur := some (q, 0), deficits := setP 0 c.deficits q (getP 0 c.deficits q + 2048 * s.queueWeight q) }

/-- The line operations at the heads of queues that find the bucket of their core empty (19 R400). -/
def State.tokenless (s : State) (core : Nat) : List Nat :=
  if getP 0 s.buckets core ≠ 0 then []
  else s.channels.flatMap fun c => c.queues.filterMap fun q =>
    match q with
    | [] => none
    | i :: _ => if (s.lineop i).core = core && (s.lineop i).early ≤ s.now && s.permitsOk i then some i else none

/-- A channel whose heads ask to leave in this cycle. -/
def State.channelReady (s : State) (c : Nat) : Bool :=
  let ch := s.channel c
  ch.sentAt ≤ s.now && (List.range 4).any fun q => s.headAsks ch q
/-- A channel that can send in this cycle. -/
def State.sendingChannel (s : State) : Option Nat := (List.range s.channels.length).find? s.channelReady

/-- The source lines of a line operation: distinct global lines, and whether it reads scratch. -/
def LineOp.srcLines (o : LineOp) : List Nat :=
  sortU (o.moves.filterMap fun m => match m.2.1 with
    | .glob pa => some (lineOf pa)
    | .scr _ _ _ _ => none)
def LineOp.readsScratch (o : LineOp) : Bool := o.moves.any fun m => match m.2.1 with
  | .glob _ => false
  | .scr _ _ _ _ => true

/-- The attributes SLR and CMP of the page through which a copy reaches a line. -/
def State.slrOf (s : State) (op la : Nat) : Bool := (s.memop op).accs.any fun a => a.slr && a.pa / 4096 == la / 4096
def State.cmpOf (s : State) (op la : Nat) : Bool := (s.memop op).accs.any fun a => a.cmp && a.pa / 4096 == la / 4096

/-- A line operation leaves its channel: its sources are read at their homes, or 2 cc later in scratch (09 R233; 06 R415). -/
def State.sendLineOp (s : State) (c i : Nat) : State :=
  let o := s.lineop i
  let core := channelCore c
  let p := s.partOfSector (sectorOf core)
  let s := if s.metered o.core then s.takeToken o.core s.now else s
  let s := if o.permits = 0 || o.held then s
    else { s with lineops := s.lineops.map fun k => if k.live && k.chunk == o.chunk then { k with held := true } else k }
  let ls := o.srcLines
  let s := s.onLineop i fun o =>
    { o with sent := some s.now, waits := false, ready := s.now, left := ls.length + (if o.readsScratch then 1 else 0) }
  let s := ls.foldl (fun s la =>
    let (s, wait) := s.linkWait p (sectorOf core) la s.now
    s.later (wait + s.oneWay core p la (s.slrOf o.op la) false) .copyLineDelivery i 1 la (BitVec.ofNat 64 (s.genOf p la))) s
  if o.readsScratch then s.later 2 .copyLineDelivery i 2 else s

/-- COPY_LINE_SEND (R233): A copy channel sends a line operation once deficit, permits and tokens allow. -/
def execCopyLineSend (s : State) : Out :=
  .next (
    let c := s.ev.a
    let s := s.permitWait c
    match s.pickQueue 40 (s.channel c) with
    | none => s.onChannel c fun ch => { ch with sentAt := s.now + 1 }
    | some (q, ch) =>
      match getP [] ch.queues q with
      | [] => s
      | i :: r =>
        let keep := match r with
          | j :: _ => (s.lineop j).chunk == (s.lineop i).chunk
          | [] => false
        (s.onChannel c fun _ =>
          { ch with
            queues := setP [] ch.queues q r
            sentAt := s.now + 1
            cur := if keep then ch.cur else ch.cur.map fun k => (k.1, 0) }).sendLineOp c i)

/-- A source line is read at its home (06 R415): the issuing core's earlier stores come first (06 R146). The latency of its
path, with the tier latency of a miss. -/
def State.readSource (s : State) (i la : Nat) : State :=
  let o := s.lineop i
  let core := 96 * sectorOf o.core
  let p := s.partOfSector (sectorOf o.core)
  let w := (s.memop o.op).warp
  let slr := s.slrOf o.op la
  let s := if s.cmpOf o.op la then s.markBlock la else s
  let (s, d, miss) := match s.homeOf p la with
    | .slice _ sl =>
      (match s.fetchHome sl la slr with
      | some (s, x, miss) =>
        -- A poisoned source is not delivered, and its context is killed (18 R376).
        (if x.poison then ((s.payloadError w la).onLineop i fun o => { o with moves := [] }) else s, x.data, miss)
      | none => (s, s.peekLine la, 0))
    | .host a => (s, s.farLine (2 ^ 52 + a), 0)
    | _ =>
      -- A line of another device's object as this device holds it: the use renews the tenure (06 R152).
      (match Config.remoteObject la with
      | some k =>
        let (s, d) := s.heldLine k la
        (s, d, 0)
      | none => (s, s.farLine la, 0))
  let d := s.overlay o.core la o.seq d
  s.onLineop i fun o =>
    { o with
      got := (la, d) :: o.got
      left := o.left - 1
      ready := max o.ready (s.now + (s.pathLat core p la slr false - s.oneWay core p la slr false) + miss) }

/-- The sources of a line operation in scratch are read: the bytes of its moves, one after another, kept as lines above
2^60. -/
def State.readScratchSource (s : State) (i : Nat) : State :=
  let o := s.lineop i
  let rows := o.moves.map fun m => match m.2.1 with
    | .scr t off _ _ => BitVec.ofNat 1024 ((s.team t).read off m.2.2)
    | .glob _ => 0
  s.onLineop i fun o =>
    { o with
      got := (List.range rows.length).map (fun k => (2 ^ 60 + k, getP 0 rows k)) ++ o.got
      left := o.left - 1
      ready := max o.ready (o.sent.getD s.now + 24) }

/-- The value of move `k` of a line operation, from what was read. -/
def LineOp.moveVal (o : LineOp) (k : Nat) (m : Place × Place × Nat) : Nat :=
  match m.2.1 with
  | .glob pa => lineGet ((lookupN o.got (lineOf pa)).getD 0) (pa % 128) m.2.2
  | .scr _ _ _ _ => ((lookupN o.got (2 ^ 60 + k)).getD 0).toNat % 2 ^ (8 * m.2.2)

/-- Move `k` of a line operation. -/
def LineOp.move (o : LineOp) (k : Nat) : Place × Place × Nat := getP (Place.glob 0, Place.glob 0, 0) o.moves k
/-- The moves of a line operation put into a global line. -/
def LineOp.putLine (o : LineOp) (d : BitVec 1024) : BitVec 1024 :=
  (List.range o.moves.length).foldl (fun d k =>
    let m := o.move k
    match m.1 with
    | .glob pa => linePut d (pa % 128) m.2.2 (o.moveVal k m)
    | .scr _ _ _ _ => d) d
/-- Every byte of a global line is written. -/
def LineOp.wholeLine (o : LineOp) : Bool :=
  (List.range 128).all fun b => o.moves.any fun m => match m.1 with
    | .glob pa => pa % 128 ≤ b && b < pa % 128 + m.2.2
    | .scr _ _ _ _ => false

/-- One line written at its home by an agent of the device, as one event: the line of the issuing core's L1 is dropped, with the
reflection that its sector holds, and the accesses that wait for it proceed (06 R144, R146, R147). -/
def State.deliverGlobal (s : State) (p core la : Nat) (slr cmp : Bool) (f : BitVec 1024 → BitVec 1024) (whole : Bool) : State :=
  let s := (if cmp then s.markBlock la else s).dropRefl (sectorOf core) la
  let s := match s.homeOf p la with
    | .slice _ sl =>
      (match s.fetchHome sl la slr with
      | some (s, x, _) =>
        let s := s.putHome sl (x.held s.now) (f x.data) whole
        if (lookupN s.codes (blockOf la)).isSome then s.recode la else s
      | none => s)
    | .host a => s.farPut (2 ^ 52 + a) (f (s.farLine (2 ^ 52 + a)))
    | .remote _ _ _ =>
      (match Config.remoteObject la with
      | some o =>
        let (s, d) := s.heldLine o la
        s.heldPut o la (f d)
      | none => s.farPut la (f (s.farLine la)))
    | .absent => s
  s.l1Kill core la

/-- Bytes delivered to scratch, and to the handle that owns them (05 R113). -/
def State.deliverScratch (s : State) (t off : Nat) (h : Option Nat) (hoff : Nat) (bs : List Byte) : State :=
  s.onTeam t fun tm =>
    let tm := tm.write off bs
    match h with
    | some h => tm.onHandle h fun e => e.deliver s.now hoff bs.length
    | none => tm

/-- The destination line of a line operation. -/
def LineOp.dstLine (o : LineOp) : Option Nat :=
  match o.moves with
  | (.glob pa, _, _) :: _ => some (lineOf pa)
  | _ => none

/-- A delivery to a global line waits for an older request of its own core that has not been performed there, and for a
recall of a tenure (06 R146, R152). -/
def State.deliveryWaits (s : State) (o : LineOp) : Bool :=
  match o.dstLine with
  | some la => s.reqs.any (fun r => r.live && !r.performed && r.core == o.core && r.line == la && r.seq < o.seq) ||
      !(s.conflictsAt la true).isEmpty
  | none => false

/-- The line operation is delivered (09 R233). -/
def State.deliverLineOp (s : State) (i : Nat) : State :=
  let o := s.lineop i
  let p := s.partOfSector (sectorOf o.core)
  let s := match o.dstLine with
    | some la => s.deliverGlobal p o.core la (s.slrOf o.op la) (s.cmpOf o.op la) o.putLine o.wholeLine
    | none =>
      (List.range o.moves.length).foldl (fun s k =>
        let m := o.move k
        match m.1 with
        | .scr t off h ho => s.deliverScratch t off h ho (toBytes m.2.2 (o.moveVal k m))
        | .glob _ => s) s
  let s := (s.onLineop i fun _ => LineOp.idle).answered o.op
  match o.dstLine with
  | some la => s.resumeLine la
  | none => s

/-- A request of a channel or an engine that arrives at a line: while the line's domain is being committed it waits until the end of the
scan (17 R362), and one with an old map is refused and comes again under the new one (17 R363). The answer is the cycle and the map of
its next arrival. -/
def State.refusedAt (s : State) (core la gen : Nat) : Option (Nat × Nat) :=
  let p := s.partOfSector (sectorOf core)
  let now := s.genOf p la
  match s.homeOf p la with
  | .slice d sl =>
    match s.scan.filter fun _ => s.scanning d with
    | some k => some (k.endAt, gen)
    | none =>
      if gen = now then none
      else some (s.now + (if sectorOf core = sl / 16 then 48 else 88) + s.oneWay core p la false false, now)
  | _ => none

/-- COPY_LINE_DELIVERY (R233): A copy line is delivered to scratch or to global memory, advancing WPTR and ending any recall on the line.
The operand `b` is 1 or 2 where a source of the line operation is read. -/
def execCopyLineDelivery (s : State) : Out :=
  .next (
    let i := s.ev.a
    let o := s.lineop i
    let line := if s.ev.b = 0 then o.dstLine else if s.ev.b = 1 then some s.ev.c else none
    let core := channelCore (channelOf o.core)
    let again := line.bind fun la => s.refusedAt core la s.ev.v.toNat
    if !o.live then s
    else if again.isSome then
      s.schedule (again.getD (0, 0)).1 (.ev .copyLineDelivery { s.ev with v := BitVec.ofNat 64 (again.getD (0, 0)).2 })
    else if s.ev.b = 0 then
      if s.deliveryWaits o then
        (match o.dstLine with
        | some la => s.recallAll (s.conflictsAt la true)
        | none => s).later 1 .copyLineDelivery i 0 0 s.ev.v
      else s.deliverLineOp i
    else if s.ev.b = 1 && !(s.conflictsAt s.ev.c false).isEmpty then
      (s.recallAll (s.conflictsAt s.ev.c false)).later 1 .copyLineDelivery i 1 s.ev.c s.ev.v
    else
      let s := if s.ev.b = 1 then s.readSource i s.ev.c else s.readScratchSource i
      let o := s.lineop i
      if o.left ≠ 0 then s
      else
        let p := s.partOfSector (sectorOf o.core)
        match o.dstLine with
        | some la =>
          let (s, wait) := s.linkWait p (sectorOf o.core) la o.ready
          s.schedule (o.ready + wait + s.pathLat (96 * sectorOf o.core) p la (s.slrOf o.op la) false)
            (.ev .copyLineDelivery ⟨i, 0, 0, BitVec.ofNat 64 (s.genOf p la), []⟩)
        | none => s.schedule (o.ready + 24) (.ev .copyLineDelivery ⟨i, 0, 0, 0, []⟩))

/-! ## Messages -/

def State.msg (s : State) (i : Nat) : Msg := getP Msg.idle s.msgs i
/-- The time of a message from a core to another (05 R130). -/
def State.msgLat (s : State) (a b : Nat) : Nat :=
  if sectorOf a = sectorOf b then 60
  else
    let r := s.route (sectorOf a) (sectorOf b)
    124 + 8 * (r.1 - 1) + 24 * r.2
/-- The resident team of a number in a grid of a partition (02 R44). -/
def State.teamOf (s : State) (p : Nat) (g : Word) (n : Nat) : Option Nat :=
  (List.range s.teams.length).find? fun t => (s.team t).live && (s.team t).part == p && (s.team t).gridId == g && (s.team t).num == n
/-- A team that is saved and not yet restored (05 R131). -/
def State.teamSaved (s : State) (p : Nat) (g : Word) (n : Nat) : Bool :=
  s.saves.any fun x => x.part == p && x.gridId == g && x.num == n

/-- SEND (R236): Sends one message per passing lane to a team's receive ring. -/
def execSend (o : Ops) (s : State) : Out :=
  memExec (.send o) (fun s sh o =>
    let len := o.imm.toNat / 2 ^ 16 % 64
    let tag := o.imm.toNat % 2 ^ 16
    let ls := lanesOf (s.memLanes sh o true)
    if s.noRoom .st then s.stall
    else if ls.isEmpty then s.advance
    else
      let t := s.myTeam
      let m : MemOp := { stOp s .send [] false with live := true, warp := s.cur, core := s.me.core, left := ls.length, seq := s.seq }
      let (u, op) := s.bumpSeq.addMemop m
      let u := u.count s.cur .st (· + 1)
      (ls.foldl (fun u l =>
        let dest := s.src o .i32 o.s1 l
        let i := freeSlot Msg.live u.msgs
        let msg : Msg := ⟨true, op, s.me.core, t.part, t.num, s.me.num, t.gridId, dest, tag,
          toBytes len (s.readN o o.dstSrc ((len + 3) / 4) l), none⟩
        let lat := match s.teamOf t.part t.gridId dest with
          | some d => s.msgLat s.me.core (s.team d).core
          | none => 60
        ({ u with msgs := setP Msg.idle u.msgs i msg }).later lat .messageAppend i) u).advance) s

/-- A message that must wait behind an earlier one for the same ring (05 R130). -/
def State.msgBehind (s : State) (m : Msg) (n : Nat) : Bool :=
  s.msgs.any fun k => k.live && k.part == m.part && k.gridId == m.gridId && k.dest == m.dest && match k.arrived with
    | some j => j < n
    | none => false

/-- An entry of the ring: its first word, then the payload with zeros beyond its length (05 R129). -/
def Msg.entry (m : Msg) : List Byte :=
  let first := m.core * 2 ^ 22 + m.payload.length * 2 ^ 16 + m.tag
  toBytes 4 first ++ m.payload ++ List.replicate (60 - m.payload.length) 0

/-- MESSAGE_APPEND (R130): The destination network interface writes a message entry into the ring and then increments TAIL, once the
ring has room. A message to a team that is not resident, or that has no ring, is discarded and counted. -/
def execMessageAppend (s : State) : Out :=
  .next (
    let i := s.ev.a
    let m := s.msg i
    if !m.live then s
    else
      let (s, n) := match m.arrived with
        | some n => (s, n)
        | none => (({ s with msgs := setP Msg.idle s.msgs i { m with arrived := some s.seq } }).bumpSeq, s.seq)
      let free (s : State) : State := ({ s with msgs := setP Msg.idle s.msgs i Msg.idle }).answered m.op
      if s.msgBehind m n || s.teamSaved m.part m.gridId m.dest || s.teamSaved m.part m.gridId m.sender then s.later 1 .messageAppend i
      else
        match s.teamOf m.part m.gridId m.dest with
        | none =>
          free (match s.teamOf m.part m.gridId m.sender with
          | some t => s.onTeam t fun tm => { tm with sendDisc := min (2 ^ 32 - 1) (tm.sendDisc + 1) }
          | none => s)
        | some t =>
          let tm := s.team t
          let r := tm.kern.ringOff
          let head := tm.read (r + 4) 4
          if tm.kern.ringN = 0 then
            free (match s.teamOf m.part m.gridId m.sender with
            | some u => s.onTeam u fun tm => { tm with sendDisc := min (2 ^ 32 - 1) (tm.sendDisc + 1) }
            | none => s)
          else if tm.kern.ringN ≤ (tm.ringTail + 2 ^ 32 - head) % 2 ^ 32 then s.later 1 .messageAppend i
          else
            free (s.onTeam t fun tm =>
              let tail := (tm.ringTail + 1) % 2 ^ 32
              { (tm.write (r + 64 + 64 * (tm.ringTail % tm.kern.ringN)) m.entry).write r (toBytes 4 tail) with ringTail := tail }))

end Sys2Proof.Machine
end

