-- ==== Sys2Proof/Machine/Port.lean ====
section
/-!
DEFINITION. Neighbour ports (03 R73-R80; 09 R251-R254): edges and neighbours, queues and credits, the blocking `PUSH` and `POP`, and the
port-stall trap.
-/
namespace Sys2Proof.Machine

/-! ## The port map (03 R76, R77) -/

def Kernel.mapOn (k : Kernel) : Bool := k.portmap.getLsbD 0
def Kernel.ny (k : Kernel) : Nat := if k.mapOn then k.portmap.toNat / 2 ^ 9 % 2 ^ 7 + 1 else 1
def Kernel.nz (k : Kernel) : Nat := if k.mapOn then k.portmap.toNat / 2 ^ 8 % 2 + 1 else 1
/-- The edge code of a direction: 1 open, 2 wrap, else closed. -/
def Kernel.edge (k : Kernel) (dir : Nat) : Nat := if k.mapOn then k.portmap.toNat / 2 ^ (16 + 2 * dir) % 4 else 0
/-- The port-stall timeout. -/
def Kernel.timeout (k : Kernel) : Nat :=
  let v := k.portmap.toNat / 2 ^ 48
  if v = 0 then 65536 else 256 * v

/-- The coordinates and the group of a team (03 R77). -/
def Team.y (t : Team) : Nat := t.num % t.kern.ny
def Team.z (t : Team) : Nat := t.num / t.kern.ny % t.kern.nz
def Team.base (t : Team) : Nat := t.num / (t.kern.ny * t.kern.nz) * (t.kern.ny * t.kern.nz)

/-- What lies behind a port (03 R78). -/
inductive Edge where
  | conn (w l : Nat)
  | open_
  | closed
  | retired
  deriving DecidableEq, Repr

/-- Axis latency (03 R73). -/
def portLat (dir : Nat) : Nat := if dir < 2 then 2 else if dir < 4 then 12 else 40
/-- The opposite direction. -/
def opposite (dir : Nat) : Nat := if dir % 2 = 0 then dir + 1 else dir - 1

/-- A coordinate one step on: beyond the edge, none where the edge is open, and a closed edge. -/
inductive StepTo where
  | at_ (c : Nat)
  | open_
  | closed
/-- One step along an axis of `n` positions from `c`. -/
def axisStep (edge : Nat) (wrapOk up : Bool) (n c : Nat) : StepTo :=
  if up then
    (if c + 1 < n then .at_ (c + 1) else if edge = 1 then .open_ else if edge = 2 && wrapOk then .at_ 0 else .closed)
  else
    (if 0 < c then .at_ (c - 1) else if edge = 1 then .open_ else if edge = 2 && wrapOk then .at_ (n - 1) else .closed)

/-- A warp of a team by its number, while it has not retired. -/
def State.warpOf (s : State) (t n : Nat) : Option Nat :=
  (s.team t).warps.find? fun w => (s.warp w).live && (s.warp w).team == t && (s.warp w).num == n

/-- The neighbour of lane `l` of warp `w` in a direction (03 R73, R78). -/
def State.neighbour (s : State) (w l dir : Nat) : Edge :=
  let x := s.warp w
  let t := s.team x.team
  let k := t.kern
  let up := dir % 2 == 1
  let there (t n l : Nat) : Edge := match s.warpOf t n with
    | some v => .conn v l
    | none => .retired
  if dir < 2 then
    match axisStep (k.edge dir) true up (64 * k.warps) (64 * x.num + l) with
    | .open_ => .open_
    | .closed => .closed
    | .at_ c => there x.team (c / 64) (c % 64)
  else
    let n := if dir < 4 then k.ny else k.nz
    match axisStep (k.edge dir) (n != 1) up n (if dir < 4 then t.y else t.z) with
    | .open_ => .open_
    | .closed => .closed
    | .at_ c =>
      let num := t.base + (if dir < 4 then c + k.ny * t.z else t.y + k.ny * c)
      match s.teamOf t.part t.gridId num with
      | some u => there u x.num l
      | none => .retired

/-! ## Queues -/

def Lane.queue (y : Lane) (dir : Nat) : List PortVal := getP [] y.inq dir
def Lane.onQueue (y : Lane) (dir : Nat) (f : List PortVal → List PortVal) : Lane :=
  { y with inq := setP [] y.inq dir (f (y.queue dir)) }
def Lane.credit (y : Lane) (dir : Nat) : Nat := getP 4 y.cred dir
def Lane.onCredit (y : Lane) (dir : Nat) (f : Nat → Nat) : Lane := { y with cred := setP 4 y.cred dir (f (y.credit dir)) }
/-- The oldest value that can be popped. -/
def Lane.front (y : Lane) (dir : Nat) : Option Word :=
  match y.queue dir with
  | v :: _ => if v.ready then some v.val else none
  | [] => none

def State.xfer (s : State) (i : Nat) : Xfer := getP Xfer.idle s.xfers i
def State.addXfer (s : State) (x : Xfer) : State × Nat :=
  let i := freeSlot Xfer.live s.xfers
  ({ s with xfers := setP Xfer.idle s.xfers i x }, i)
/-- The warps that a transfer was sent to still stand. -/
def State.xferDst (s : State) (x : Xfer) : List (Nat × Nat) :=
  x.dst.filterMap fun d => if (s.warp d.1).live && (s.warp d.1).placed == d.2.2 then some (d.1, d.2.1) else none

/-- Discards are counted (03 R78). -/
def Team.discard (t : Team) (now n : Nat) : Team :=
  { t with
    portDisc := t.portDisc + n
    discNow := (now, (if t.discNow.1 = now then t.discNow.2 else 0) + n) }

/-- The discards of this cycle, which are seen from the next one on (02 R414; 09 R254). -/
def Team.fresh (t : Team) (now : Nat) : Nat := if t.discNow.1 = now then t.discNow.2 else 0
/-- The port-discard count that a read gets: 32 bits, saturating (03 R78; 09 R254). -/
def Team.discards (t : Team) (now : Nat) : Nat := min (2 ^ 32 - 1) (t.portDisc - t.fresh now)

/-! ## Push and pop -/

def portDir (o : Ops) : Nat := o.subN % 8
/-- `.rel` or `.acq` at a scope wider than CORE. -/
def portOrd (o : Ops) : Bool := o.subN / 8 % 2 == 1
/-- The warp stalls at a port instruction, and its time there counts (03 R79). -/
def State.portStall (s : State) (o : Ops) : State :=
  (s.onMe fun x => { x with portSince := some (x.portSince.getD s.now) }).stallAs 0 (portDir o)
/-- A port instruction has executed in some lanes (15 R335). -/
def State.portIssued (s : State) : State := s.onMyTeam fun t => { t with portAt := s.now + 1 }
/-- The port fault (03 R78). -/
def State.portFault (s : State) (m : BitVec 64) : State := s.parkLanes s.cur m fun _ => mkFault 0x0C s.ipc

/-- PUSH (R252): Pushes a value to a neighbour port, spending a credit and completing for all lanes at once. -/
def execPush (o : Ops) (s : State) : Out :=
  memExec (.push o) (fun s sh o =>
    let dir := portDir o
    let bad := s.idxBad sh o
    let real := s.me.maskOf fun l _ => s.passReal o l && !bad.getLsbD l
    let edge (l : Nat) : Edge := s.neighbour s.cur l dir
    let closed := s.me.maskOf fun l _ => real.getLsbD l && edge l == .closed
    let good := lanesOf (real &&& ~~~closed)
    let t := (s.parkIdx sh o).portFault closed
    let short := good.any fun l => match edge l with
      | .conn _ _ => (s.me.lane l).credit dir == 0
      | _ => false
    if s.relWaits (portOrd o && wide o) || short then t.portStall o
    else
      let sent := good.filterMap fun l => match edge l with
        | .conn v j => some (v, j, (s.warp v).placed, BitVec.ofNat 32 (s.src o .i32 o.s1 l), l)
        | _ => none
      let t := sent.foldl (fun t e =>
        (t.onMe fun x => x.onLane e.2.2.2.2 fun y => y.onCredit dir (· - 1)).onWarp e.1 fun x =>
          x.onLane e.2.1 fun y => y.onQueue (opposite dir) (· ++ [⟨false, e.2.2.2.1⟩])) t
      let t := if good.length = sent.length then t else t.onMyTeam fun m => m.discard s.now (good.length - sent.length)
      let t := if good.isEmpty then t else t.portIssued
      if sent.isEmpty then t.advance
      else
        let (t, i) := t.addXfer ⟨true, sent.map fun e => (e.1, e.2.1, e.2.2.1), opposite dir⟩
        (t.later (portLat dir) .portValueArrival i).advance) s

/-- POP (R252): Pops the oldest value from a neighbour port, returning a credit, and completes for all lanes at once. A `.acq` acquires
after its values are taken (log entry 38). -/
def execPop (o : Ops) (s : State) : Out :=
  memExec (.pop o) (fun s sh o =>
    let dir := portDir o
    let bad := s.idxBad sh o
    let real := s.me.maskOf fun l _ => s.passReal o l && !bad.getLsbD l
    let edge (l : Nat) : Edge := s.neighbour s.cur l dir
    let fails := s.me.maskOf fun l y => real.getLsbD l && (edge l == .closed || (edge l == .retired && (y.queue dir).isEmpty))
    let m := real &&& ~~~fails
    let good := lanesOf m
    let t := (s.parkIdx sh o).portFault fails
    let opened (l : Nat) : Bool := edge l == .open_
    let short := good.any fun l => !opened l && ((s.me.lane l).front dir).isNone
    if short then t.portStall o
    else
      let vals := (List.range 64).map fun l => if opened l then 0 else ((s.me.lane l).front dir).getD 0
      let taken := good.filter fun l => !opened l
      let t := t.onMe fun x => x.mapLanes fun l y => if taken.contains l then y.onQueue dir (·.drop 1) else y
      let t := t.putResults o 1 m fun l => AluOut.val (getP 0 vals l).toNat
      let t := if good.isEmpty then t else t.portIssued
      let back := taken.filterMap fun l => match edge l with
        | .conn v j => some (v, j, (s.warp v).placed)
        | _ => none
      let t := if back.isEmpty then t
        else
          let (t, i) := t.addXfer ⟨true, back, opposite dir⟩
          t.later (portLat dir) .portCreditReturn i
      if portOrd o then t.acquireNext (wide o) (1 + (if wide o then 10 else 2)) else t.advance) s

/-- PORT_VALUE_ARRIVAL (R74): A pushed value becomes poppable in the neighbour's queue after the axis latency. -/
def execPortValueArrival (s : State) : Out :=
  .next (
    let x := s.xfer s.ev.a
    let ready : List PortVal → List PortVal := fun q =>
      (q.takeWhile (·.ready)) ++ (match q.dropWhile (·.ready) with
        | v :: r => { v with ready := true } :: r
        | [] => [])
    { (s.xferDst x).foldl (fun s d => s.onWarp d.1 fun w => w.onLane d.2 fun y => y.onQueue x.dir ready) s with
      xfers := setP Xfer.idle s.xfers s.ev.a Xfer.idle })

/-- PORT_CREDIT_RETURN (R74): A popped value's credit reaches the sender after the axis latency. -/
def execPortCreditReturn (s : State) : Out :=
  .next (
    let x := s.xfer s.ev.a
    { (s.xferDst x).foldl (fun s d => s.onWarp d.1 fun w => w.onLane d.2 fun y => y.onCredit x.dir fun n => min 4 (n + 1)) s with
      xfers := setP Xfer.idle s.xfers s.ev.a Xfer.idle })

/-! ## Looking at ports -/

/-- PEEK (R253): Reads the oldest port value without removing it, and whether the queue is non-empty. -/
def execPeek (o : Ops) (s : State) : Out :=
  memExec (.peek o) (fun s sh o =>
    let f (l : Nat) : AluOut :=
      let v := (s.me.lane l).front (portDir o)
      let shown := match s.neighbour s.cur l (portDir o) with
        | .open_ => none
        | .closed => none
        | _ => v
      ⟨(shown.getD 0).toNat, none, some shown.isSome⟩
    ((s.putResults o 1 (s.passMask o &&& ~~~s.idxBad sh o) f).parkLanes s.cur (s.idxBad sh o) fun l =>
      idxRec s.ipc ((s.me.idxFault sh o l).getD 0)).advance) s

/-- The `PSTAT` word of a lane (09 R253). -/
def State.portWord (s : State) (l dir : Nat) : Nat :=
  let y := s.me.lane l
  let held := ((y.queue dir).filter (·.ready)).length
  match s.neighbour s.cur l dir with
  | .conn _ _ => 16 * y.credit dir + held
  | .open_ => 256 + 16 * 4
  | .closed => 512
  | .retired => 768 + 16 * 4 + held

/-- PSTAT (R253): Reads edge kind, credits held and values queued of a port. -/
def execPstat (o : Ops) (s : State) : Out :=
  memExec (.pstat o) (fun s sh o =>
    let vals := (List.range 64).map fun l => s.portWord l (portDir o)
    ((s.putResults o 1 (s.passMask o &&& ~~~s.idxBad sh o) fun l => AluOut.val (getP 0 vals l)).parkLanes s.cur (s.idxBad sh o) fun l =>
      idxRec s.ipc ((s.me.idxFault sh o l).getD 0)).advance) s

/-- PDRD (R254): Reads the team's port-discard count. -/
def execPdrd (o : Ops) (s : State) : Out :=
  memExec (.pdrd o) (fun s sh o => s.putPort sh o (s.myTeam.discards s.now)) s

/-- PDRD_CLR (R254): Reads the team's port-discard count and sets it to zero; a discard of the same cycle counts after the clear. -/
def execPdrdClr (o : Ops) (s : State) : Out :=
  memExec (.pdrdClr o) (fun s sh o =>
    if s.anyPass o then (s.onMyTeam fun t => { t with portDisc := t.fresh s.now }).putPort sh o (s.myTeam.discards s.now)
    else s.advance) s

/-- PMAP (R254): Reads the team's coordinates in its port map. -/
def execPmap (o : Ops) (s : State) : Out :=
  memExec (.pmap o) (fun s sh o =>
    let t := s.myTeam
    s.putPort sh o (2 ^ 24 * (t.kern.nz - 1) + 2 ^ 16 * (t.kern.ny - 1) + 2 ^ 8 * t.z + t.y)) s

/-- A warp whose stall at a port instruction has reached the timeout in this cycle (03 R79). -/
def State.portTimedOut (s : State) (w : Nat) : Bool :=
  let x := s.warp w
  match x.portSince with
  | some t => x.live && !x.hmode && (s.team x.team).kern.timeout ≤ s.now + 1 - t
  | none => false

/-- PORT_STALL_TRAP (R79): A warp stalled at a port instruction for the timeout takes class 0x0B. -/
def execPortStallTrap (s : State) : Out :=
  .next (
    let w := s.ev.a
    match (s.warp w).stalled with
    | some r =>
      if s.portTimedOut w then
        (s.onWarp w fun x => { x with portSince := none, stalled := none }).trap w ⟨0x0B, 0, r.pc, BitVec.ofNat 32 r.datum⟩
      else s
    | none => s.onWarp w fun x => { x with portSince := none })

end Sys2Proof.Machine
end

