-- ==== Sys2Proof/Machine/Spawn.lean ====
section
/-!
DEFINITION. Bins and spawning (02 R49-R52; 09 R246, R247; 11 R292): records, room, thresholds, timers, and the instructions that act on
bins. A record stays in its bin until the team of its launch is placed (02 R54).
-/
namespace Sys2Proof.Machine

/-! ## Bins -/

def State.bin (s : State) (b : Nat) : Bin := getP Bin.idle s.bins b
def State.onBin (s : State) (b : Nat) (f : Bin → Bin) : State := { s with bins := setP Bin.idle s.bins b (f (s.bin b)) }
/-- The bin bound to an entry in a partition (02 R50). -/
def State.binOf (s : State) (p : Nat) (entry : DWord) : Option Nat :=
  (List.range s.bins.length).find? fun b => (s.bin b).live && (s.bin b).part == p && (s.bin b).entry == entry

/-- Records of one launch, and records for four launches (02 R49, R50). -/
def Bin.threshold (b : Bin) : Nat := if b.sheaf then 256 else 64
def Bin.capacity (b : Bin) : Nat := 4 * b.threshold
/-- The records that a bin holds: those no launch has claimed, and those of launches whose team is not placed. -/
def Bin.held (b : Bin) : Nat := b.due.foldl (fun n d => n + d.2.2.length) b.recs.length
/-- The room that arrivals of a cycle find: what a launch frees counts from the next cycle (02 R50). -/
def Bin.room (b : Bin) (now : Nat) : Nat := b.capacity - b.held - (if b.freed.1 = now then b.freed.2 else 0)
/-- The bin's records have an ASID. -/
def Bin.holds (b : Bin) : Bool := b.held != 0 || !b.waiting.isEmpty
/-- An arrival of another address space (02 R52). -/
def Bin.refuses (b : Bin) (asid : Nat) : Bool := b.holds && b.asid != asid

/-- A record with nothing in it, a `SPAWN` record, and a filler (11 R292). -/
def BinRec.blank : BinRec := ⟨.filler, [], 0, 0, 0, 0, 0, 0, 0, none⟩
def BinRec.ofWords (ws : List Word) : BinRec := { BinRec.blank with kind := .spawn, words := ws }

/-- The bin launches its first records, at most a threshold of them (02 R49, R51): its timer restarts if records remain, and its team
can be placed 160 cc later (02 R58). Causes: 0 threshold, 1 timer, 2 `BFLUSH`. -/
def State.binLaunch (s : State) (b cause : Nat) : State :=
  let x := s.bin b
  let rest := x.recs.drop x.threshold
  let s := (s.onBin b fun x =>
    { x with
      recs := rest
      due := x.due ++ [(cause, s.now + 160, x.recs.take x.threshold)]
      expires := if rest.isEmpty then none else some (s.now + x.timer) }).onPart x.part fun p => { p with dueBins := p.dueBins ++ [b] }
  if rest.isEmpty then s else s.later x.timer .binTimerExpiry b

/-- Launches while the bin holds a threshold of records. -/
def State.binSettle (s : State) (b : Nat) : Nat → State
  | 0 => s
  | n + 1 => if (s.bin b).threshold ≤ (s.bin b).recs.length then (s.binLaunch b 0).binSettle b n else s

/-- Records enter a bin that has room for them (02 R49-R52). -/
def State.binPut (s : State) (b : Nat) (recs : List BinRec) (asid prio : Nat) : State :=
  let x := s.bin b
  let first := x.recs.isEmpty
  let s := s.onBin b fun x =>
    { x with
      asid := asid
      prio := if x.held = 0 then prio else x.prio
      recs := x.recs ++ recs
      expires := if first then some (s.now + x.timer) else x.expires }
  let s := if first then s.later x.timer .binTimerExpiry b else s
  s.binSettle b 5

/-- The records of an arrival with the fillers that bring a quad group to a position that is a multiple of 4 (11 R292). -/
def Bin.padded (b : Bin) (quad : Bool) (recs : List BinRec) : List BinRec :=
  if quad then List.replicate ((4 - b.recs.length % 4) % 4) BinRec.blank ++ recs else recs
/-- An arrival can enter now. -/
def Bin.fits (b : Bin) (now : Nat) (quad : Bool) (recs : List BinRec) : Bool := (b.padded quad recs).length ≤ b.room now

/-- A bin whose first waiting arrival can enter (02 R50, R414). -/
def State.binReady (s : State) : Option Nat :=
  (List.range s.bins.length).find? fun b =>
    match (s.bin b).waiting with
    | a :: _ => (s.bin b).live && (s.bin b).fits s.now a.quad a.recs
    | [] => false

/-! ## The instructions -/

/-- The entry that a bin instruction names (09 R246). -/
def State.binEntry (s : State) (o : Ops) : DWord :=
  if o.subN = 0 then s.ipc + (BitVec.ofNat 32 o.imm.toNat).signExtend 64 else BitVec.ofNat 64 (s.uni64 o.s2)
/-- The fault on an entry without a bin, or with records of another address space (02 R50, R52). -/
def State.binFault (s : State) (o : Ops) : FaultRec := { mkFault 5 s.ipc with addr := s.binEntry o }

/-- `SPAWN` (09 R246): the records enter together 8 cc after issue, or wait for room. In phase 1 the records are on their way; in
phase 2 they wait at the bin, and `BIN_WAITING_ENTRY` completes the instruction. -/
def State.spawn (s : State) (o : Ops) : State :=
  let m := s.me.maskOf fun l _ => s.passReal o l
  let prio := s.myTeam.prio
  let asid := s.myTeam.asid
  if m = 0 then s.advance
  else
    match s.binOf (s.partOf s.cur) (s.binEntry o) with
    | none => (s.parkLanes s.cur m fun _ => s.binFault o).advance
    | some b =>
      let x := s.bin b
      let recs := (lanesOf m).map fun l => BinRec.ofWords ((List.range (o.auxN + 1)).map fun k => s.me.reg l (o.s1.val.toNat + k))
      if s.phase = 2 then s.stallAs 2 s.datum
      else if x.refuses asid then (s.parkLanes s.cur m fun _ => s.binFault o).advance
      else if s.phase = 0 || s.now < s.since + 8 then s.stallAs 1 0
      else if x.waiting.isEmpty && x.fits s.now false recs then (s.binPut b recs asid prio).advance 4
      else (s.onBin b fun x => { x with waiting := x.waiting ++ [⟨recs, false, asid, prio, none, some s.cur⟩] }).stallAs 2 s.npc.toNat

/-- SPAWN_DIRECT (R246): Appends each passing lane's record to the bin of a label entry. -/
def execSpawnDirect (o : Ops) (s : State) : Out := memExec (.spawnDirect o) (fun s _ o => s.spawn o) s

/-- SPAWN_INDIRECT (R246): Appends each passing lane's record to the bin of an entry address held in scalars. -/
def execSpawnIndirect (o : Ops) (s : State) : Out := memExec (.spawnIndirect o) (fun s _ o => s.spawn o) s

/-- The `SPAWN` of a warp that waited completes as its records enter (02 R50): the warp issues next 4 cc later. -/
def State.spawnDone (s : State) (w : Nat) : State :=
  match (s.warp w).stalled with
  | none => s
  | some r =>
    let x := s.warp w
    let t : State := { s with
      cur := w
      act := x.maskOf fun _ y => y.canIssue && y.pc == r.pc
      issued := true
      ipc := r.pc
      npc := BitVec.ofNat 64 r.datum }
    State.finish .binWaitingEntry (some r) [] (t.advance 4)

/-- BIN_TIMER_EXPIRY (R51): A bin's timer expires and the bin launches with the records it holds. -/
def execBinTimerExpiry (s : State) : Out :=
  .next (
    let x := s.bin s.ev.a
    if x.live && x.expires == some s.now && !x.recs.isEmpty then s.binLaunch s.ev.a 1 else s)

/-- BFLUSH (R247): Launches a bin with the records it holds. -/
def execBflush (o : Ops) (s : State) : Out :=
  memExec (.bflush o) (fun s _ o =>
    if !s.anyPass o then s.advance
    else
      match s.binOf (s.partOf s.cur) (s.binEntry o) with
      | none => (s.parkAll (s.binFault o)).advance
      | some b => if (s.bin b).recs.isEmpty then s.advance else (s.binLaunch b 2).advance) s

/-- BSTAT (R247): Reads the number of records that a bin holds. -/
def execBstat (o : Ops) (s : State) : Out :=
  memExec (.bstat o) (fun s sh o =>
    match s.binOf (s.partOf s.cur) (s.binEntry o) with
    | none => if s.anyPass o then (s.parkAll (s.binFault o)).advance else s.advance
    | some b => s.putPort sh o (s.bin b).held) s

end Sys2Proof.Machine
end

