-- ==== Sys2Proof/Machine/Lease.lean ====
section
/-!
DEFINITION. Leased engines (01 R19; 10 R268-R273): engine states and tokens, the lease queue of a sector, grace and revocation, the
budget (17 R370), and the lease instructions; with the end of an engine command (10 R275-R277), which a revocation brings about.
-/
namespace Sys2Proof.Machine

/-! ## Engines and tokens -/

/-- The class of engine `i` of a sector (18 R374). -/
def engClass (i : Nat) : Nat :=
  if i < 8 then 0 else if i < 12 then 1 else if i < 14 then 2 else if i < 16 then 3 else if i < 20 then 4 else if i < 22 then 5 else 6
/-- Tokens of an awake engine of a class (01 R19). -/
def classTokens : Nat → Nat
  | 2 => 6
  | 3 => 6
  | 4 => 4
  | _ => 5
/-- The wake latency from dormant (10 R269). -/
def wakeLat : Nat → Nat
  | 0 => 2200
  | 1 => 1600
  | 2 => 1200
  | 3 => 1800
  | 4 => 900
  | 5 => 1400
  | _ => 1000

def State.engine (s : State) (e : Nat) : Engine := getP Engine.idle_ s.engines e
def State.setEngine (s : State) (e : Nat) (x : Engine) : State := { s with engines := setP Engine.idle_ s.engines e x }
/-- HARVEST does not mark the engine as absent (18 R374, R375). -/
def State.engineLive (s : State) (e : Nat) : Bool := !(getP 0 s.harvest (12 + e / 64)).getLsbD (e % 64)
/-- The live engines of a class in a sector. -/
def State.classEngines (s : State) (sec cls : Nat) : List Nat :=
  ((List.range 24).filter fun i => engClass i == cls && s.engineLive (24 * sec + i)).map (24 * sec + ·)
def engTokens (e : Nat) : Nat := classTokens (engClass (e % 24))
/-- The tokens held in a sector (17 R370: INUSE). -/
def State.tokensUsed (s : State) (sec : Nat) : Nat :=
  (List.range 24).foldl (fun n i => if (s.engine (24 * sec + i)).st == .dormant then n else n + classTokens (engClass i)) 0
/-- The budget of a sector (17 R370). -/
def State.budget (s : State) (sec : Nat) : Nat := min 40 ((getP 0 s.engbudget sec).toNat % 256)

def State.lease (s : State) (l : Nat) : Lease := getP Lease.idle s.leases l
def State.onLease (s : State) (l : Nat) (f : Lease → Lease) : State := { s with leases := setP Lease.idle s.leases l (f (s.lease l)) }
def State.sector (s : State) (k : Nat) : Sector := getP Sector.idle_ s.sectors k
def State.onSector (s : State) (k : Nat) (f : Sector → Sector) : State := { s with sectors := setP Sector.idle_ s.sectors k (f (s.sector k)) }
/-- The live leases of a sector. -/
def State.leasesOf (s : State) (sec : Nat) : List Nat :=
  (List.range s.leases.length).filter fun l => (s.lease l).live && (s.lease l).sector == sec

/-- Idle engines put to sleep, lowest number first, until the tokens fit (10 R270): `use` tokens beside the candidates' own. -/
def sleepSome (budget : Nat) : Nat → List Nat → Nat × List Nat
  | use, [] => (use, [])
  | use, e :: r =>
    if use ≤ budget then (use, [])
    else
      let p := sleepSome budget (use - engTokens e) r
      (p.1, e :: p.2)

/-- How a grant of `n` engines of a class would go with the engines of `free` counted as idle (10 R270): the engines
taken, and those put to sleep. -/
def State.grantPlan (s : State) (sec cls n : Nat) (free : List Nat) : Option (List Nat × List Nat) :=
  let idle (e : Nat) : Bool := (s.engine e).st == .idle || free.contains e
  let mine := s.classEngines sec cls
  let take := ((mine.filter idle) ++ (mine.filter fun e => (s.engine e).st == .dormant)).take n
  if take.length < n then none
  else
    let fresh := (take.filter fun e => (s.engine e).st == .dormant).length
    let others := ((List.range 24).map (24 * sec + ·)).filter fun e => engClass (e % 24) != cls && idle e && s.engineLive e
    let p := sleepSome (s.budget sec) (s.tokensUsed sec + fresh * classTokens cls) others
    if p.1 ≤ s.budget sec then some (take, p.2) else none

/-! ## The end of a command (10 R275-R277) -/

def State.cmd (s : State) (c : Nat) : Cmd := getP Cmd.idle s.cmds c
def State.onCmd (s : State) (c : Nat) (f : Cmd → Cmd) : State := { s with cmds := setP Cmd.idle s.cmds c (f (s.cmd c)) }

/-- A pass ends before its last group has entered (10 R280; 11 R290, R303). -/
def State.stopPass (s : State) (c : Nat) : State :=
  match (s.cmd c).tile with
  | some a => s.onTile a fun t => { t with running := none, st := if t.resume = 0 then .opened else .classifying }
  | none => s

/-- The first command waiting at an engine. -/
def State.nextCmd (s : State) (e : Nat) : Option Nat :=
  ((List.range s.cmds.length).filter fun c => (s.cmd c).live && (s.cmd c).arrived && (s.cmd c).engine == e).foldl (fun b c =>
    match b with
    | none => some c
    | some d => if (s.cmd c).seq < (s.cmd d).seq then some c else some d) none

def ticketIdle : Ticket := ⟨0, 10, false, 0⟩
/-- A command's status becomes final and CP falls (10 R275): its owned lines are given up (06 R148), and the next command of its engine
starts a cycle later. -/
def State.finishCmd (s : State) (c word : Nat) : State :=
  let x := s.cmd c
  let first := x.arrived && s.nextCmd x.engine == some c
  let s := s.onWarp x.warp fun w => { w.lower s.now .cp with
    tickets := setP ticketIdle w.tickets x.ticket ⟨x.tseq, word, false, s.now⟩ }
  let s : State := { s with
    cmds := setP Cmd.idle s.cmds c Cmd.idle
    bins := s.bins.map fun b =>
      if b.waiting.any fun a => a.cmd == some c then { b with waiting := b.waiting.filter fun a => a.cmd != some c } else b }
  let s := x.owned.eraseDups.foldl State.resumeLine s
  match (if first then s.nextCmd x.engine else none) with
  | some d => s.later 1 .engineItemStart d
  | none => s

/-! ## Grants, grace and revocation -/

/-- A lease of a team's slot that a handle names (10 R268, R272). -/
def leaseHandle (slot cls seq : Nat) : Nat := slot + 8 * cls + 64 * seq
def Team.slotOf (t : Team) (k : Nat) : LeaseSlot := getP ⟨0, none, false⟩ t.leases k
/-- The slot whose lease a handle names, held or revoked. -/
def Team.matchSlot (t : Team) (h : Word) : Option Nat :=
  if h != 0 && (t.slotOf (h.toNat % 8)).handle == h then some (h.toNat % 8) else none
/-- The pager's place in a lease queue (16 R350): it is no warp, and its lease is of no team. -/
def pagerWarp : Nat := 2 ^ 20
/-- The lowest free lease slot. -/
def Team.freeLeaseSlot (t : Team) : Option Nat := (List.range 8).find? fun k => (t.slotOf k).handle == 0

/-- A grant (10 R269, R270). `waiter` is the warp whose `LEASE` waits for it. -/
def State.grantLease (s : State) (sec : Nat) (q : LeaseReq) (plan : List Nat × List Nat) (waiter : Bool) : State × Nat :=
  let tn := if q.warp = pagerWarp then pagerWarp else (s.warp q.warp).team
  let t := s.team tn
  let slot := t.freeLeaseSlot.getD 0
  let h := leaseHandle slot q.cls t.leaseSeq
  let l := freeSlot Lease.live s.leases
  let s := plan.2.foldl (fun s e => s.setEngine e ⟨.dormant, 0⟩) s
  let wakes := plan.1.map fun e => (e, s.now + if (s.engine e).st == .dormant then wakeLat q.cls else 40)
  let s := wakes.foldl (fun s p => (s.setEngine p.1 ⟨.waking, p.2⟩).schedule p.2 (.ev .engineWakeComplete ⟨p.1, l, 0, 0, []⟩)) s
  let rec_ : Lease := ⟨true, tn, slot, sec, q.cls, sortU plan.1, q.prio, s.now, t.leaseSeq, false, none, 0, if waiter then some q.warp else none, 0⟩
  let s : State := { s with leases := setP Lease.idle s.leases l rec_ }
  let s := if q.warp = pagerWarp then s
    else s.onTeam tn fun t =>
      { t with
        leases := setP ⟨0, none, false⟩ t.leases slot ⟨BitVec.ofNat 32 h, some l, false⟩
        leaseSeq := if t.leaseSeq = 2 ^ 26 - 1 then 1 else t.leaseSeq + 1 }
  (s.onSector sec fun k => { k with grantedAt := s.now + 1 }, h)

/-- Sublists of a given length, in order. -/
def choose {α : Type} : Nat → List α → List (List α)
  | 0, _ => [[]]
  | _ + 1, [] => []
  | n + 1, x :: r => (choose n r).map (x :: ·) ++ choose (n + 1) r
/-- Grant cycles, youngest first. -/
def insertDown (n : Nat) : List Nat → List Nat
  | [] => [n]
  | x :: r => if x < n then n :: x :: r else x :: insertDown n r
/-- The better of two sets for grace (10 R271): youngest members first. -/
def State.youngerSet (s : State) (a b : List Nat) : Bool :=
  lexLt ((b.map fun l => (s.lease l).granted).foldr insertDown []) ((a.map fun l => (s.lease l).granted).foldr insertDown [])
/-- The engines of some leases. -/
def State.enginesOf (s : State) (ls : List Nat) : List Nat := ls.flatMap fun l => (s.lease l).engines

/-- A grace period starts (10 R271). -/
def State.startGrace (s : State) (l : Nat) (origin : Origin) : State :=
  (s.onLease l fun x => { x with grace := some (s.now + 20000, origin) }).later 20000 .leaseRevoke l

/-- The set of leases of lower priority whose ending lets the head be granted (10 R271): the fewest, and of those the youngest. -/
def State.graceSet (s : State) (sec : Nat) (q : LeaseReq) : Option (List Nat) :=
  let low := (s.leasesOf sec).filter fun l => (s.lease l).prio < q.prio
  (List.range (low.length + 1)).findSome? fun k =>
    ((choose k low).filter fun ls => (s.grantPlan sec q.cls q.n (s.enginesOf ls)).isSome).foldl (fun b ls =>
      match b with
      | none => some ls
      | some m => if s.youngerSet ls m then some ls else some m) none
/-- The head cannot be granted: grace starts on the chosen set, but for leases of it that are in grace (10 R271). -/
def State.graceFor (s : State) (sec : Nat) (q : LeaseReq) : State :=
  ((s.graceSet sec q).getD []).foldl (fun s l => if (s.lease l).grace.isSome then s else s.startGrace l (.head q.warp)) s

/-- A grace period that ends without effect (10 R271). -/
def State.graceMoot (s : State) (l : Nat) : Bool :=
  let x := s.lease l
  match x.grace with
  | none => false
  | some (_, .host) => false
  | some (_, .budget) => s.tokensUsed x.sector ≤ s.budget x.sector + x.engines.foldl (fun n e => n + engTokens e) 0
  | some (_, .head o) =>
    match (s.sector x.sector).queue with
    | [] => true
    | q :: _ => q.warp != o || (s.tokensUsed x.sector ≤ s.budget x.sector && (s.grantPlan x.sector q.cls q.n []).isSome)

/-- Idle engines sleep while a sector is over its budget (17 R370). -/
def State.sleepOver (s : State) (sec : Nat) : State :=
  let idle := ((List.range 24).map (24 * sec + ·)).filter fun e => (s.engine e).st == .idle
  (sleepSome (s.budget sec) (s.tokensUsed sec) idle).2.foldl (fun s e => s.setEngine e ⟨.dormant, 0⟩) s

/-- What a sector does with its queue (10 R270, R271; 17 R370): it sleeps idle engines over its budget, ends grace periods without
effect, and grants its head or starts grace for it. Grants of one sector lie in distinct cycles. -/
def State.serveSector (s : State) (sec : Nat) : State :=
  let s := s.sleepOver sec
  let s := (s.leasesOf sec).foldl (fun s l => if s.graceMoot l then s.onLease l fun x => { x with grace := none } else s) s
  match (s.sector sec).queue with
  | [] => s
  | q :: r =>
    match (if s.tokensUsed sec ≤ s.budget sec then s.grantPlan sec q.cls q.n [] else none) with
    | some plan =>
      if (s.sector sec).grantedAt = s.now + 1 then s
      else
        let (s, h) := s.grantLease sec q plan true
        let s := s.onSector sec fun k => { k with queue := r }
        if q.warp = pagerWarp then s
        else s.onWarp q.warp fun x => { x with stalled := x.stalled.map fun t => { t with phase := 2, datum := h } }
    | none => s.graceFor sec q

/-- A sector that would act: something of its engines, leases or queue would change. -/
def State.sectorActs (s : State) (sec : Nat) : Bool :=
  let t := s.serveSector sec
  !(t.engines == s.engines && t.leases == s.leases && t.sectors == s.sectors)
/-- A sector that acts at the start of a cycle, or at its end after a request or a revocation of the cycle. -/
def State.actingSector (s : State) (late : Bool) : Option Nat :=
  (List.range 6).find? fun k => (!late || (s.sector k).touched == s.now + 1) && (!(s.sector k).queue.isEmpty || !(s.leasesOf k).isEmpty) && s.sectorActs k

/-- LEASE_GRANT (R270): The head of a sector's lease queue is granted when its engines and tokens fit, putting idle engines of other
classes to sleep; where it cannot be, grace starts, and grace that has lost its reason ends (R271). -/
def execLeaseGrant (s : State) : Out := .next (s.serveSector s.ev.a)

/-- ENGINE_WAKE_COMPLETE (R269): A waking engine becomes leased when its wake latency elapses; the lease is ready with its last engine. -/
def execEngineWakeComplete (s : State) : Out :=
  .next (
    let e := s.ev.a
    let l := s.ev.b
    if (s.engine e).st == .waking && (s.engine e).wakeAt == s.now then
      let s := s.setEngine e ⟨.leased, 0⟩
      let s := s.onLease l fun x => { x with ready := x.engines.all fun k => (s.engine k).st == .leased }
      match s.nextCmd e with
      | some c => s.later 1 .engineItemStart c
      | none => s
    else s)

/-- A lease is revoked (10 R271): its commands end `EVICTED`, its engines become idle, and its slot reads revoked. -/
def State.revokeLease (s : State) (l : Nat) : State :=
  let x := s.lease l
  let s := ((List.range s.cmds.length).filter fun c => (s.cmd c).live && (s.cmd c).lease == some l).foldl (fun s c =>
    (s.stopPass c).finishCmd c 1) s
  let s := s.freeLease l .idle
  let s := if x.team = pagerWarp then s
    else s.onTeam x.team fun t =>
      { t with leases := setP ⟨0, none, false⟩ t.leases x.slot { t.slotOf x.slot with lease := none, revoked := true } }
  s.onSector x.sector fun k => { k with touched := s.now + 1 }

/-- LEASE_REVOKE (R271): A grace period expires: the lease is revoked, its commands end EVICTED and its engines become idle. The operand `b` is
1 where the host starts a grace period under its own policy. -/
def execLeaseRevoke (s : State) : Out :=
  .next (
    let l := s.ev.a
    if s.ev.b = 1 then (if (s.lease l).live && (s.lease l).grace.isNone then s.startGrace l .host else s)
    else match (s.lease l).grace with
    | some (t, _) =>
      if t ≠ s.now then s
      else if s.graceMoot l then s.onLease l fun x => { x with grace := none }
      else s.revokeLease l
    | none => s)

/-- Every lease of a team is revoked at once (10 R271: pre-emption). -/
def State.revokeTeam (s : State) (t : Nat) : State :=
  (List.range s.leases.length).foldl (fun s l => if (s.lease l).live && (s.lease l).team == t then s.revokeLease l else s) s
/-- The leases of a team that retires end (10 R268). -/
def State.endLeases (s : State) (t : Nat) : State :=
  (List.range s.leases.length).foldl (fun s l => if (s.lease l).live && (s.lease l).team == t then s.freeLease l .idle else s) s

/-! ## The instructions -/

/-- Core and quarter of a request; the pager's come after every core's (log entry 53). -/
def State.reqUnit (s : State) (q : LeaseReq) : Nat := if q.warp = pagerWarp then pagerWarp else (s.warp q.warp).unit
/-- A request joins the lease queue of its sector (10 R270). -/
def State.reqBefore (s : State) (a b : LeaseReq) : Bool := lexLt [3 - a.prio, a.at_, s.reqUnit a] [3 - b.prio, b.at_, s.reqUnit b]
def State.insertLeaseReq (s : State) (q : LeaseReq) : List LeaseReq → List LeaseReq
  | [] => [q]
  | x :: r => if s.reqBefore q x then q :: x :: r else x :: s.insertLeaseReq q r

/-- Lease slots of a team that queued requests will take. -/
def State.queuedSlots (s : State) (t : Nat) : Nat :=
  s.sectors.foldl (fun n k => n + (k.queue.filter fun q => q.warp != pagerWarp && (s.warp q.warp).team == t).length) 0

/-- Why a `LEASE` cannot be granted or queued (10 R272): `SLOTS`, `COUNT`, `BUDGET`. -/
def State.leaseStatus (s : State) (sec cls n : Nat) : Nat :=
  let used := ((List.range 8).filter fun k => (s.myTeam.slotOf k).handle != 0).length
  if 8 ≤ used + s.queuedSlots s.me.team then 2
  else if n = 0 || (s.classEngines sec cls).length < n then 3
  else if s.budget sec < n * classTokens cls then 4
  else 0
/-- The handle and the status in the destination pair. -/
def State.putLease (s : State) (o : Ops) (h st : Nat) : State := s.onMe fun x => x.setSN o.dst.toNat 2 (h + 2 ^ 32 * st)

/-- LEASE (R272): Queues for and waits until engines of a class are leased to the team. Phase 1 waits in the queue; in phase 2 the
engines wake. -/
def execLease (o : Ops) (s : State) : Out :=
  memExec (.lease o) (fun s _ o =>
    let sec := sectorOf s.me.core
    let cls := o.subN % 8
    let n := s.uni o o.s1
    if !s.anyPass o then s.advance
    else if s.phase = 0 then
      let st := s.leaseStatus sec cls n
      if st ≠ 0 then (s.putLease o 0 st).advance 4
      else
        ((s.stallAs 1 0).onSector sec fun k =>
          { k with queue := s.insertLeaseReq ⟨s.cur, cls, n, s.myTeam.prio, s.now⟩ k.queue, touched := s.now + 1 })
    else if s.phase = 2 then
      match s.leases.findIdx? fun l => l.live && l.waiter == some s.cur && l.ready with
      | some l => ((s.onLease l fun x => { x with waiter := none }).putLease o s.datum 0).advance
      | none => s.stallAs 2 s.datum
    else s.stallAs 1 0) s

/-- LEASE_TRY (R272): Leases engines only when they can be granted in the issue cycle. -/
def execLeaseTry (o : Ops) (s : State) : Out :=
  memExec (.leaseTry o) (fun s _ o =>
    let sec := sectorOf s.me.core
    let cls := o.subN % 8
    let n := s.uni o o.s1
    if !s.anyPass o then s.advance
    else
      let st := s.leaseStatus sec cls n
      if st ≠ 0 then (s.putLease o 0 st).advance
      else
        match (if (s.sector sec).queue.isEmpty && (s.sector sec).grantedAt ≠ s.now + 1 && s.tokensUsed sec ≤ s.budget sec
            then s.grantPlan sec cls n [] else none) with
        | some plan =>
          let (t, h) := s.grantLease sec ⟨s.cur, cls, n, s.myTeam.prio, s.now⟩ plan false
          (t.putLease o h 0).advance
        | none => (s.putLease o 0 1).advance) s

/-- The end of a lease by its handle (10 R272). -/
def State.release (s : State) (o : Ops) (st : EngSt) : State :=
  let h := s.me.sreg o.s1.val.toNat
  if !s.anyPass o then s.advance
  else
    match s.myTeam.matchSlot h with
    | none => s.advance 2
    | some k =>
      match (s.myTeam.slotOf k).lease with
      | none => (s.onMyTeam fun t => t.clearSlot k).advance 2
      | some l =>
        if s.cmds.any fun c => c.live && c.lease == some l then s.stallAs 1 0
        else ((s.freeLease l st).onMyTeam fun t => t.clearSlot k).advance 2

/-- ERLS (R272): Releases a lease once its commands have completed, leaving its engines idle. -/
def execErls (o : Ops) (s : State) : Out := memExec (.erls o) (fun s _ o => s.release o .idle) s

/-- ERLS_COLD (R272): Releases a lease once its commands have completed, putting its engines to sleep. -/
def execErlsCold (o : Ops) (s : State) : Out := memExec (.erlsCold o) (fun s _ o => s.release o .dormant) s

/-- The state code of a lease slot (10 R273). -/
def State.slotState (s : State) (sl : LeaseSlot) : Nat :=
  match sl.lease with
  | some l => if (s.lease l).grace.isSome then 3 else if (s.lease l).ready then 2 else 1
  | none => if sl.revoked then 4 else 0
/-- The `ESTAT` word of a handle (10 R273). -/
def State.estatWord (s : State) (h : Word) : Nat :=
  match s.myTeam.matchSlot h with
  | none => 0
  | some k =>
    let sl := s.myTeam.slotOf k
    match sl.lease with
    | none => if sl.revoked then 2 ^ 29 * 4 + 2 ^ 22 * (h.toNat / 8 % 8) else 0
    | some l =>
      let x := s.lease l
      let infl := min 63 (s.cmds.filter fun c => c.live && c.lease == some l).length
      let g := match x.grace with
        | some (t, _) => (t - s.now + 255) / 256
        | none => 0
      2 ^ 29 * s.slotState sl + 2 ^ 25 * x.engines.length + 2 ^ 22 * x.cls + 2 ^ 16 * infl + 2 ^ 7 * g

/-- ESTAT (R273): Reads the state word of a lease. -/
def execEstat (o : Ops) (s : State) : Out :=
  memExec (.estat o) (fun s sh o =>
    if s.anyPass o then s.putPort sh o (s.estatWord (s.me.sreg o.s1.val.toNat)) else s.advance) s

end Sys2Proof.Machine
end

