-- ==== Sys2Proof/Machine/Fetch.lean ====
section
/-!
DEFINITION. How engines read (06 R415; 10 R275; 11 R300, R302): line after line through the translation and the paths of their sector,
each line once within an item. What an item does is worked out from the lines that it has read: where one is missing, the item waits for it.
-/
namespace Sys2Proof.Machine

/-- For whom an engine reads: partition, sector, address space, context, and the core whose stores older than `bound` it sees. -/
structure Agent where
  part : Nat
  sec : Nat
  asid : Nat
  ctx : Word
  core : Nat
  bound : Nat
  deriving DecidableEq, Repr

/-- The core port whose paths an engine's requests take (10 R275). -/
def Agent.port (g : Agent) : Nat := 96 * g.sec

/-! ## Lines as they stand -/

/-- The physical address of a virtual one, without a lookup's effects. -/
def State.quietVa (s : State) (g : Agent) (va : Nat) : Option Nat :=
  match s.tlbFind (sectorUnit g.sec) g.asid va with
  | some e => some (e.phys va)
  | none => if canonical va then ((s.walkTables g.part g.asid va).leaf.map fun e => e.phys va) else none
/-- A line as it stands, without effect. -/
def State.quietLine (s : State) (g : Agent) (la : Nat) : BitVec 1024 :=
  let d := match s.homeOf g.part la with
    | .host a => s.farLine (2 ^ 52 + a)
    | .remote _ _ _ => s.farLine la
    | _ => s.peekLine la
  s.overlay g.core la g.bound d

/-! ## What an item works out -/

/-- The reads of an item as it works them out: the state, whether lines are taken as they stand, whether further reads cost nothing, the
cycle that the item has reached, the lines that have been read, the first error with its class and its virtual address, and the
line that is still to be read. -/
structure Rd where
  s : State
  quiet : Bool
  free : Bool
  t : Nat
  lines : List LineRead
  err : Option (Nat × Nat)
  need : Option Nat

/-- An item at its start. -/
def Rd.begin (s : State) (x : Reading) : Rd := ⟨s, false, false, x.start, x.lines, none, none⟩
/-- An item that takes every line as it stands. -/
def Rd.silent (s : State) : Rd := ⟨s, true, true, s.now, [], none, none⟩
/-- Cycles that an item spends. -/
def Rd.spend (r : Rd) (n : Nat) : Rd := { r with t := r.t + n }
/-- Neither an error nor a line to read. -/
def Rd.ok (r : Rd) : Bool := r.err.isNone && r.need.isNone
/-- An item that fails with a class. -/
def Rd.fail (r : Rd) (cls va : Nat) : Rd := if r.ok then { r with err := some (cls, va) } else r
/-- From here on reads cost nothing: the lines have been read ahead, and their values are taken where they are needed (log entry 98). -/
def Rd.uncharged (r : Rd) : Rd := { r with free := true }

/-- The line of a virtual address. -/
def Rd.line (r : Rd) (g : Agent) (va : Nat) : Rd × BitVec 1024 :=
  let vl := lineOf va
  if !r.ok then (r, 0)
  else if !canonical va then (r.fail 5 va, 0)
  else if r.quiet then
    match r.s.quietVa g vl with
    | some pa => (r, r.s.quietLine g (lineOf pa))
    | none => (r.fail 4 vl, 0)
  else
    match r.lines.find? fun x => x.va == vl with
    | none => ({ r with need := some vl }, 0)
    | some x =>
      let r := { r with t := max r.t x.ret }
      if x.cls = 0 then (r, x.data) else (r.fail x.cls vl, 0)

/-- `n` bytes at a virtual address, as a number; the argument before bounds the lines. -/
def Rd.get (g : Agent) : Nat → Rd → Nat → Nat → Rd × Nat
  | 0, r, _, _ => (r, 0)
  | fuel + 1, r, va, n =>
    if n = 0 then (r, 0)
    else
      let k := min n (128 - va % 128)
      let (r, d) := r.line g va
      let (r, v) := if r.ok then Rd.get g fuel r ((va + k) % 2 ^ 64) (n - k) else (r, 0)
      (r, lineGet d (va % 128) k + 2 ^ (8 * k) * v)
/-- `n` bytes at a virtual address. -/
def Rd.bytes (r : Rd) (g : Agent) (va n : Nat) : Rd × Nat := Rd.get g (n / 128 + 2) r (va % 2 ^ 64) n

/-- Bytes `off` to `off + n - 1` of a record that has been read. -/
def recField (v off n : Nat) : Nat := v / 2 ^ (8 * off) % 2 ^ (8 * n)

/-- The status word of an error (10 R276): `ABSENT`, `FLAGGED`, or `FAULT` with its class. -/
def errStatus (cls : Nat) : Nat :=
  match cls with
  | 0x0D => 2
  | 0x0E => 4
  | c => 5 + 16 * c
/-- The status word of an error of a table or directory read of `THRESH`: `FAULT` with its class (11 R290). -/
def tableStatus (cls : Nat) : Nat := 5 + 16 * cls

/-- What an item comes to: it needs a line in a cycle, at its cost or at none, or it has an outcome in a cycle. -/
inductive Ran (α : Type) where
  | need (t va : Nat) (free : Bool)
  | done (t : Nat) (a : α)

/-- What follows some reads: the line that is missing, what an error gives, or the rest. -/
def Rd.orElse {α : Type} (r : Rd) (bad : Nat → Nat → α) (k : Rd → Ran α) : Ran α :=
  match r.need, r.err with
  | some va, _ => .need r.t va r.free
  | none, some (cls, va) => .done r.t (bad cls va)
  | none, none => k r

/-! ## A line on its way (06 R415) -/

/-- How a line on its way goes on: at a later cycle, or it has been read. -/
inductive AskStep where
  | later (s : State) (a : Ask) (t : Nat)
  | got (s : State) (x : LineRead)

/-- The request leaves the engine: for the reflection of its sector where it may use one (05 R116; 06 R134), else for the home. -/
def State.leaveAsk (s : State) (g : Agent) (a : Ask) : AskStep :=
  let la := lineOf a.pa
  let refl := !a.attr.slr && (s.reflection g.sec la).isSome &&
    !(s.reqs.any fun q => q.live && q.seq < g.bound && q.core == g.core && q.line == la && (s.memop q.op).req.writes)
  let (s, wait) := if refl then (s, 0) else s.linkWait g.part g.sec la s.now
  .later s { a with left := true, refl := refl, gen := s.genOf g.part la } (s.now + wait + s.oneWay g.port g.part la a.attr.slr refl)

/-- The contents of a line at its home with what a miss adds: a poisoned line kills the context (18 R376), and the reading sector is granted
a reflection (05 R116). None: the line cannot be read. -/
def State.homeRead (s : State) (g : Agent) (a : Ask) (back : Nat) : Option (State × BitVec 1024 × Nat) :=
  let la := lineOf a.pa
  let s := if a.attr.cmp then s.markBlock la else s
  match s.homeOf g.part la with
  | .slice _ sl =>
    (s.fetchHome sl la a.attr.slr).map fun (s, x, miss) =>
      let s := if x.poison then (s.logError 2 0 0 g.ctx la).killCtx g.part g.ctx else s
      (if g.sec = sl / 16 || s.noRefl x || a.attr.slr then s else s.grantBlock g.sec sl la (s.now + back + miss) x.data, x.data, miss)
  | .host k => some (s, s.farLine (2 ^ 52 + k), 0)
  | .remote _ _ _ =>
    (match Config.remoteObject la with
    | some o => let (s, d) := s.heldLine o la; some (s, d, 0)
    | none => some (s, s.farLine la, 0))
  | .absent => none

/-- The request arrives: it takes the value of the line, with the earlier stores of the issuing core (06 R146), or it waits for a scan, for a
recall, or for its way after a refusal (17 R362, R363; 06 R152). `back` is false where the value is taken at no cost. -/
def State.answerAsk (s : State) (g : Agent) (a : Ask) (back : Bool) : AskStep :=
  let la := lineOf a.pa
  let way := s.oneWay g.port g.part la a.attr.slr false
  let n := if back then s.pathLat g.port g.part la a.attr.slr false - way else 0
  let give (s : State) (d : BitVec 1024) (n : Nat) : AskStep := .got s ⟨a.va, s.now + n, 0, s.overlay g.core la g.bound d, a.attr⟩
  if a.refl then
    match s.reflection g.sec la with
    | some x => if s.isFlagged la then .got s ⟨a.va, s.now + 48, 0x0E, 0, a.attr⟩ else give (s.l2Touch x) x.data 48
    | none => .later s { a with refl := false } (s.now + way)
  else
    match s.refusedAt g.port la a.gen with
    | some (t, gen) => .later s { a with gen := gen } t
    | none =>
      if s.isFlagged la then .got s ⟨a.va, s.now + n, 0x0E, 0, a.attr⟩
      else if !(s.conflictsAt la false).isEmpty then .later (s.recallAll (s.conflictsAt la false)) a (s.now + 1)
      else
        match s.homeRead g a n with
        | some (s, d, miss) => give s d (if back then n + miss else 0)
        | none => .got s ⟨a.va, s.now + n, 0x0D, 0, a.attr⟩

/-- A line is asked for: translated by the sector's TLB and checked under R222; it leaves when its translation is ready. -/
def State.askLine (s : State) (g : Agent) (va : Nat) (free : Bool) : AskStep :=
  let (s, x) := s.sectorLookup g.part g.sec [] g.asid va s.now
  let t := if free then s.now else max s.now x.ready
  match s.checkAcc g.part (Need.plain false 1) va x with
  | .bad c home =>
    let far := match x.ent with
      | some e => s.pathLat g.port g.part (lineOf (e.phys va)) false false
      | none => 0
    .got s ⟨va, if home && !free then t + far else t, c, 0, LineAttr.none_⟩
  | .ok pa slr cmp page =>
    let a : Ask := ⟨va, pa, ⟨slr, cmp, page, s.now⟩, false, false, 0⟩
    if free then s.answerAsk g { a with left := true, gen := s.genOf g.part (lineOf pa) } false
    else if t ≤ s.now then s.leaveAsk g a
    else .later s a t

/-- How an item has gone on: it does so again in the cycle that its reads name, or it has an outcome now. -/
inductive Went (α : Type) where
  | on (s : State) (x : Reading)
  | over (s : State) (x : Reading) (a : α)

/-- An item goes on: the line under way, or else what the item needs next; `f` works out the item from its reads. -/
def State.readOn {α : Type} (s : State) (g : Agent) (x : Reading) (f : State → Reading → Ran α) : Went α :=
  let step (k : AskStep) : Went α :=
    match k with
    | .later s a t => .on s { x with ask := some a, due := t }
    | .got s l =>
      let x := { x with ask := none, lines := x.lines ++ [l] }
      match f s x with
      | .need t _ _ => .on s { x with due := max s.now t }
      | .done t a => if t ≤ s.now then .over s x a else .on s { x with due := t }
  match x.ask with
  | some a => step (if a.left then s.answerAsk g a true else s.leaveAsk g a)
  | none =>
    match f s x with
    | .need t va free => if t ≤ s.now then step (s.askLine g va free) else .on s { x with due := t }
    | .done t a => if t ≤ s.now then .over s x a else .on s { x with due := t }

end Sys2Proof.Machine
end

