-- ==== Sys2Proof/Machine/Geometry.lean ====
section
/-!
DEFINITION. The geometry of the shading path: exact vectors, decoded clusters (10 R282), clip coordinates and coverage (10 R279), ray tests
(10 R278), barycentrics, derivatives and interpolants (11 R296-R298).
-/
namespace Sys2Proof.Machine

/-! ## Exact vectors -/

structure V3 where
  x : Q
  y : Q
  z : Q
  deriving DecidableEq, Repr

def V3.sub (a b : V3) : V3 := ⟨a.x.sub b.x, a.y.sub b.y, a.z.sub b.z⟩
def V3.add (a b : V3) : V3 := ⟨a.x.add b.x, a.y.add b.y, a.z.add b.z⟩
def V3.scale (a : V3) (k : Q) : V3 := ⟨a.x.mul k, a.y.mul k, a.z.mul k⟩
def V3.dot (a b : V3) : Q := ((a.x.mul b.x).add (a.y.mul b.y)).add (a.z.mul b.z)
def V3.cross (a b : V3) : V3 :=
  ⟨(a.y.mul b.z).sub (a.z.mul b.y), (a.z.mul b.x).sub (a.x.mul b.z), (a.x.mul b.y).sub (a.y.mul b.x)⟩

/-- A finite FP32 value. -/
def fpQ (b : Nat) : Option Q :=
  match fp32.decode b with
  | .fin _ q => some q
  | _ => none
/-- A bound of a box: an infinite one lies beyond every finite value (log entry 40). -/
def fpBound (b : Nat) : Option Q :=
  match fp32.decode b with
  | .fin _ q => some q
  | .inf n => some ((Q.ofInt (if n then -1 else 1)).scale 600)
  | .nan => none
/-- Three finite FP32 values. -/
def v3Of (x y z : Nat) : Option V3 :=
  match fpQ x, fpQ y, fpQ z with
  | some a, some b, some c => some ⟨a, b, c⟩
  | _, _, _ => none
/-- A rational rounded to FP32. -/
def roundF (q : Q) : Nat := fp32.round .rne (FV.ofQ q)
/-- `r / √e` rounded to FP32. -/
def rootF (r e : Q) : Nat :=
  let v := fp32.round .rne (FV.sqrt fp32 (FV.ofQ ((r.mul r).div e)))
  if r.isNeg then v + 2 ^ 31 else v

/-! ## Decoded clusters -/

/-- The header of a decoded cluster: V, T and A (10 R282). -/
structure ClusHead where
  nv : Nat
  nt : Nat
  na : Nat
  ok : Bool
  deriving DecidableEq, Repr

def ClusHead.of (v : Nat) : ClusHead :=
  let nv := recField v 0 2
  let nt := recField v 2 2
  let na := recField v 4 2
  ⟨nv, nt, na, 1 ≤ nv && nv ≤ 256 && 1 ≤ nt && nt ≤ 256 && na ≤ 16 && recField v 6 10 == 0⟩
/-- Where the parts of a decoded cluster begin. -/
def ClusHead.triAt (h : ClusHead) : Nat := 16 + 12 * h.nv
def ClusHead.attrAt (h : ClusHead) : Nat := h.triAt + 4 * h.nt

/-- A triangle of a cluster: the words of its vertices' positions, its vertex indices, and whether these are in range. -/
structure Tri where
  idx : List Nat
  pos : List (List Nat)
  ok : Bool
  deriving DecidableEq, Repr

/-- Position words of vertex `i` in the position bytes `v`. -/
def posWords (v i : Nat) : List Nat := (List.range 3).map fun k => recField v (12 * i + 4 * k) 4
/-- Finite positions of a triangle. -/
def Tri.points (t : Tri) : Option (V3 × V3 × V3) :=
  let p (k : Nat) : Option V3 :=
    let w := getP [] t.pos k
    v3Of (getP 0 w 0) (getP 0 w 1) (getP 0 w 2)
  match p 0, p 1, p 2 with
  | some a, some b, some c => some (a, b, c)
  | _, _, _ => none

/-! ## Rays (10 R278) -/

/-- A ray: origin, direction, `tmin`, `tmax`, cone width and spread, index, and its raw 48 bytes. -/
structure Ray where
  o : Option V3
  d : Option V3
  tmin : Option Q
  tmax : Nat
  cw : Nat
  cs : Nat
  index : Word
  zero : Bool
  deriving DecidableEq, Repr

def Ray.of (v : Nat) : Ray :=
  let f (k : Nat) : Nat := recField v k 4
  ⟨v3Of (f 0) (f 4) (f 8), v3Of (f 16) (f 20) (f 24), fpBound (f 12), f 28, f 32, f 36, BitVec.ofNat 32 (f 40), f 44 == 0⟩

def Q.max (a b : Q) : Q := if a.lt b then b else a
def Q.min (a b : Q) : Q := if b.lt a then b else a

/-- One slab: the entry and the exit, or none when the ray passes beside it. -/
def slab (lo hi o d : Q) (p : Q × Q) : Option (Q × Q) :=
  if d.isZero then (if lo.le o && o.le hi then some p else none)
  else
    let near := if d.isNeg then hi else lo
    let far := if d.isNeg then lo else hi
    some (Q.max p.1 ((near.sub o).div d), Q.min p.2 ((far.sub o).div d))

/-- A box that is hit, with its entry. A condition on a value that is not a number does not hold (log entry 40). -/
def Ray.box (r : Ray) (box : List Nat) : Option Q :=
  let b (k : Nat) : Option Q := fpBound (getP 0 box k)
  match r.o, r.d, r.tmin, fpBound r.tmax, b 0, b 1, b 2, b 3, b 4, b 5 with
  | some o, some d, some t0, some t1, some x0, some y0, some z0, some x1, some y1, some z1 =>
    match (slab x0 x1 o.x d.x (t0, t1)).bind (slab y0 y1 o.y d.y) |>.bind (slab z0 z1 o.z d.z) with
    | some (te, tx) => if te.le tx then some te else none
    | none => none
  | _, _, _, _, _, _, _, _, _, _ => none

/-- Where a ray meets the plane of a triangle: `t`, `b1`, `b2` and the normal; none when the determinant is zero. -/
structure Meet where
  t : Q
  b1 : Q
  b2 : Q
  n : V3
  e1 : V3
  e2 : V3

def meetPlane (o d p0 p1 p2 : V3) : Option Meet :=
  let e1 := p1.sub p0
  let e2 := p2.sub p0
  let n := e1.cross e2
  let det := n.dot d
  if det.isZero then none
  else
    let t := (n.dot (p0.sub o)).div det
    let p := (o.add (d.scale t)).sub p0
    let nn := n.dot n
    some ⟨t, ((e2.cross n).dot p).div nn, ((n.cross e1).dot p).div nn, n, e1, e2⟩

/-- The exact `t` of a triangle that is hit. -/
def Ray.hit (r : Ray) (cull : Bool) (tri : Tri) : Option Q :=
  match r.o, r.d, r.tmin, fpBound r.tmax, tri.points with
  | some o, some d, some t0, some t1, some (p0, p1, p2) =>
    match meetPlane o d p0 p1 p2 with
    | none => none
    | some m =>
      let one := Q.ofInt 1
      if !m.b1.isNeg && !m.b2.isNeg && (m.b1.add m.b2).le one && t0.le m.t && m.t.le t1 &&
          !(cull && !(m.n.dot d).isNeg && !(m.n.dot d).isZero) then some m.t else none
  | _, _, _, _, _ => none

/-! ## What a lane receives (11 R295-R298) -/

/-- Words 1 to 7 of a lane, and the exact barycentrics; none where these are +0. -/
structure Surf where
  words : List Nat
  b1 : Q
  b2 : Q

/-- A clip coordinate by the `FFMA` chain: row `i` of the matrix words against a position (10 R279). -/
def clipCoord (m : List Nat) (p : List Nat) (i : Nat) : Nat :=
  (List.range 4).foldl (fun c j => fFma fp32 .rne (getP 0 m (4 * i + j)) (if j = 3 then 0x3F800000 else getP 0 p j) c) 0

/-- A vertex on the screen: position, `w` and `z / w`. -/
structure ScreenV where
  x : Q
  y : Q
  w : Q
  zw : Q

/-- A vertex in front of the view: none with an infinite or NaN coordinate or `w` not positive. -/
def screenV (m p : List Nat) (tw th : Nat) : Option ScreenV :=
  match fpQ (clipCoord m p 0), fpQ (clipCoord m p 1), fpQ (clipCoord m p 2), fpQ (clipCoord m p 3) with
  | some x, some y, some z, some w =>
    if w.isNeg || w.isZero then none
    else
      let one := Q.ofInt 1
      some ⟨((x.div w).add one).mul (Q.ofInt (8 * tw : Nat)), (one.sub (y.div w)).mul (Q.ofInt (8 * th : Nat)), w, z.div w⟩
  | _, _, _, _ => none

/-- Twice the signed area, and the barycentrics with their gradients at a point of the screen. -/
structure Bary where
  area : Q
  l : List Q
  e : List Q
  f : List Q

def baryAt (a b c : ScreenV) (x y : Q) : Bary :=
  let area := ((b.x.sub a.x).mul (c.y.sub a.y)).sub ((c.x.sub a.x).mul (b.y.sub a.y))
  let e1 := (c.y.sub a.y).div area
  let f1 := ((c.x.sub a.x).div area).neg
  let e2 := ((b.y.sub a.y).div area).neg
  let f2 := (b.x.sub a.x).div area
  let l1 := ((x.sub a.x).mul e1).add ((y.sub a.y).mul f1)
  let l2 := ((x.sub a.x).mul e2).add ((y.sub a.y).mul f2)
  let one := Q.ofInt 1
  ⟨area, [(one.sub l1).sub l2, l1, l2], [(e1.add e2).neg, e1, e2], [(f1.add f2).neg, f1, f2]⟩

/-- The centre of a pixel. -/
def centre (p : Nat) : Q := ⟨2 * (p : Int) + 1, 2⟩
def sum3 (l : List Q) : Q := ((getP Q.zero l 0).add (getP Q.zero l 1)).add (getP Q.zero l 2)

/-- The plane depth at a point (11 R296; 10 R279). -/
def planeDepth (a b c : ScreenV) (y : Bary) : Q :=
  sum3 [(getP Q.zero y.l 0).mul a.zw, (getP Q.zero y.l 1).mul b.zw, (getP Q.zero y.l 2).mul c.zw]

/-- A raster or helper lane (11 R296): `depth` is the stored depth of a real lane. -/
def rasterSurf (m : List Nat) (tri : Tri) (tw th px py : Nat) (depth : Option Nat) : Option Surf :=
  match screenV m (getP [] tri.pos 0) tw th, screenV m (getP [] tri.pos 1) tw th, screenV m (getP [] tri.pos 2) tw th with
  | some a, some b, some c =>
    let y := baryAt a b c (centre px) (centre py)
    if y.area.isZero then none
    else
      let divs (l : List Q) : List Q := [(getP Q.zero l 0).div a.w, (getP Q.zero l 1).div b.w, (getP Q.zero l 2).div c.w]
      let q := divs y.l
      let s := sum3 q
      if s.isNeg || s.isZero then none
      else
        let ss := s.mul s
        let d (g : List Q) (k : Nat) : Q := (((getP Q.zero g k).mul s).sub ((getP Q.zero q k).mul (sum3 g))).div ss
        let ew := divs y.e
        let fw := divs y.f
        let b1 := (getP Q.zero q 1).div s
        let b2 := (getP Q.zero q 2).div s
        some ⟨[roundF b1, roundF b2, roundF (d ew 1), roundF (d fw 1), roundF (d ew 2), roundF (d fw 2),
          depth.getD (roundF (planeDepth a b c y))], b1, b2⟩
  | _, _, _ => none

/-- A ray-hit lane (11 R297): words 1 to 6, with `t` as word 7. -/
def raySurf (o d : Option V3) (cw cs t : Nat) (tri : Tri) : Option Surf :=
  match o, d, fpQ cw, fpQ cs, tri.points with
  | some o, some d, some cw, some cs, some (p0, p1, p2) =>
    match meetPlane o d p0 p1 p2 with
    | none => none
    | some m =>
      let nn := m.n.dot m.n
      let wh := cw.add (m.t.mul cs)
      let g1 := (m.e2.cross m.n).scale ((Q.ofInt 1).div nn)
      let g2 := (m.n.cross m.e1).scale ((Q.ofInt 1).div nn)
      let ne := m.n.cross m.e1
      let ee := m.e1.dot m.e1
      let dx (g : V3) : Nat := rootF (wh.mul (g.dot m.e1)) ee
      let dy (g : V3) : Nat := rootF (wh.mul (g.dot ne)) (nn.mul ee)
      some ⟨[roundF m.b1, roundF m.b2, dx g1, dy g1, dx g2, dy g2, t], m.b1, m.b2⟩
  | _, _, _, _, _ => none

/-- An interpolant from the attribute words of the three vertices (11 R298). -/
def interpolant (u : Surf) (a0 a1 a2 : Nat) : Nat :=
  let p (c : Q) (a : Nat) : FV := (FV.ofQ c).mul (fp32.decode a)
  fp32.round .rne (((p (((Q.ofInt 1).sub u.b1).sub u.b2) a0).add .rne (p u.b1 a1)).add .rne (p u.b2 a2))

/-! ## Coverage (10 R279) -/

/-- An edge function of the directed edge from `a` to `b` at a point, with the side of the triangle positive, and whether a point on it
counts: top and left edges, with `y` growing downwards. -/
def edgeIn (a b : ScreenV) (flip : Bool) (x y : Q) : Bool :=
  let p := if flip then b else a
  let q := if flip then a else b
  let dx := q.x.sub p.x
  let dy := q.y.sub p.y
  let e := (dx.mul (y.sub p.y)).sub (dy.mul (x.sub p.x))
  if e.isZero then dy.isNeg || (dy.isZero && !dx.isNeg) else !e.isNeg

/-- The identifier's fields that name a triangle (11 R286). -/
def identOf (kind inst clus tri : Nat) : DWord := BitVec.ofNat 64 (kind * 2 ^ 62 + inst * 2 ^ 36 + clus * 2 ^ 8 + tri)

/-- The depth with which a triangle covers a pixel of the screen, none where it does not cover it or the depth is outside [0, 1]. -/
def coverDepth (a b c : ScreenV) (x y : Q) : Option Nat :=
  let t := baryAt a b c x y
  if t.area.isZero then none
  else
    let f := t.area.isNeg
    if edgeIn a b f x y && edgeIn b c f x y && edgeIn c a f x y then
      let z := roundF (planeDepth a b c t)
      match fpQ z with
      | some q => if !q.isNeg && q.le (Q.ofInt 1) then some z else none
      | none => none
    else none

/-! ## Compressed clusters (10 R282) -/

/-- The sizes of a decoded cluster and of its compressed form (10 R282), from the header of the latter. -/
structure Packed where
  nv : Nat
  nt : Nat
  na : Nat
  b : Nat
  ok : Bool
def Packed.of (v : Nat) : Packed :=
  let nv := recField v 0 2
  let nt := recField v 2 2
  let na := recField v 4 2
  let b := recField v 6 1
  ⟨nv, nt, na, b, 1 ≤ nv && nv ≤ 256 && 1 ≤ nt && nt ≤ 256 && na ≤ 16 && 1 ≤ b && b ≤ 24 && recField v 7 1 == 0 && recField v 24 8 == 0⟩
def Packed.posBytes (p : Packed) : Nat := (3 * p.nv * p.b + 7) / 8
def Packed.inBytes (p : Packed) : Nat := 32 + p.posBytes + 3 * p.nt + 4 * p.nv * p.na
def Packed.outBytes (p : Packed) : Nat := 16 + 12 * p.nv + 4 * p.nt + 4 * p.nv * p.na

/-- The bytes of a decoded cluster from its compressed form; none where an index is at or above V. -/
def Packed.decode (p : Packed) (v : Nat) : Option (List Byte) :=
  let o (k : Nat) : Nat := recField v (8 + 4 * k) 4
  let st := recField v 20 4
  let bits := v / 2 ^ 256
  let comp (i : Nat) : Nat := fFma fp32 .rne (intBits fp32 (bits / 2 ^ (p.b * i) % 2 ^ p.b : Nat)) st (o (i % 3))
  let tris := v / 2 ^ (8 * (32 + p.posBytes))
  let idx := (List.range (3 * p.nt)).map fun k => recField tris k 1
  if idx.any (p.nv ≤ ·) then none
  else
    some (toBytes 2 p.nv ++ toBytes 2 p.nt ++ toBytes 2 p.na ++ toBytes 10 0 ++
      ((List.range (3 * p.nv)).flatMap fun i => toBytes 4 (comp i)) ++
      ((List.range p.nt).flatMap fun k => toBytes 4 (recField tris (3 * k) 3)) ++
      toBytes (4 * p.nv * p.na) (tris / 2 ^ (24 * p.nt)))

end Sys2Proof.Machine
end

