-- ==== Sys2Proof/Machine/Tiles.lean ====
section
/-!
DEFINITION. Visibility tiles (05 R120-R122): opening with its pins and budget, references, and closing; and the names by which a bin record
keeps its attribute lease (11 R294, R299).
-/
namespace Sys2Proof.Machine

/-! ## Tiles -/

/-- A line pinned in its home slice (05 R120, R122). -/
def State.pin (s : State) (la : Nat) : State :=
  match s.homeAny la with
  | .slice _ sl =>
    (match s.fetchHome sl la false with
    | some (s, x, _) =>
      let s := if (s.homeCopy la).isSome then s else { s with l2 := x :: s.l2 }
      { s.revoke sl la with l2 := (s.revoke sl la).l2.map fun y => if y.addr == la && !y.isRefl then { y with pinned := true } else y }
    | none => s)
  | _ => s

/-- Open tiles of a partition, and its budget (05 R122). -/
def State.tilesOf (s : State) (p : Nat) : Nat := (s.tiles.filter fun t => t.part == p).length
def State.tileBudget (s : State) (p : Nat) : Nat := (getP 1024 s.tilebud p).toNat % 2 ^ 14
/-- A tile opens (05 R120). -/
def State.openTile (s : State) (p : Nat) (ls : List Nat) : State :=
  let t : Tile := ⟨getP 0 ls 0, ls, p, .opened, 0, 0, none⟩
  let s : State := { s with tiles := s.tiles ++ [t] }
  ls.foldl State.pin s

/-! ## Attribute leases of records -/

/-- The attribute lease that a team's handle names: 0 where it names none (11 R299). -/
def State.attrLease (s : State) (t : Nat) (h : Word) : Nat :=
  match ((s.team t).matchSlot h).bind fun k => ((s.team t).slotOf k).lease with
  | some l => if (s.lease l).cls = 1 then (s.lease l).name else 0
  | none => 0
/-- The live lease of a name. -/
def State.leaseNamed (s : State) (n : Nat) : Option Nat :=
  if n = 0 then none else (List.range s.leases.length).find? fun l => (s.lease l).live && (s.lease l).name == n
/-- The cycle from which the engines of a lease are awake. -/
def State.leaseReady (s : State) (l : Nat) : Nat :=
  (s.lease l).engines.foldl (fun t e => if (s.engine e).st == .waking then max t (s.engine e).wakeAt else t) s.now

end Sys2Proof.Machine
end

