-- ==== Sys2Proof/Machine/Shade.lean ====
section
/-!
DEFINITION. The shading path (chapter 11): material tables, the surface of a lane, and the delivery of registers to the lanes of a
warp launched from a bin.
-/
namespace Sys2Proof.Machine

/-! ## Tables (11 R287-R289) -/

/-- The header of a material table. -/
structure TabHead where
  ni : Nat
  nm : Nat
  inst : Nat
  mat : Nat
  view : Nat
  bg : Nat
  ok : Bool
  deriving DecidableEq, Repr

def TabHead.of (base v : Nat) : TabHead :=
  let ni := recField v 0 4
  let nm := recField v 4 4
  let bg := recField v 32 4
  ⟨ni, nm, recField v 8 8, recField v 16 8, recField v 24 8, bg,
    base % 64 == 0 && 1 ≤ ni && ni ≤ 2 ^ 26 && 1 ≤ nm && nm ≤ 1024 && recField v 8 8 % 128 == 0 && recField v 16 8 % 32 == 0 &&
    recField v 24 8 % 64 == 0 && (bg < nm || bg == 0xFFFFFFFF) && recField v 36 28 == 0⟩
def Rd.table (r : Rd) (g : Agent) (base : Nat) : Rd × TabHead :=
  let (r, v) := r.bytes g base 64
  (r, TabHead.of base v)

/-- The view block: W and H, and whether it keeps its limits. -/
def Rd.viewBlock (r : Rd) (g : Agent) (base : Nat) : Rd × Nat × Nat × Bool :=
  let (r, v) := r.bytes g base 64
  let w := recField v 0 2
  let h := recField v 2 2
  (r, w, h, 1 ≤ w && w ≤ 1024 && 1 ≤ h && h ≤ 1024 && recField v 4 60 == 0)

/-- An instance record: directory address, cluster count, matrix words. -/
structure InstRec where
  dir : Nat
  nc : Nat
  m : List Nat
  ok : Bool
  deriving DecidableEq, Repr
def Rd.instance_ (r : Rd) (g : Agent) (h : TabHead) (i : Nat) : Rd × InstRec :=
  let (r, v) := r.bytes g (h.inst + 128 * i) 128
  let nc := recField v 8 4
  (r, ⟨recField v 0 8, nc, (List.range 16).map fun k => recField v (16 + 4 * k) 4,
    recField v 0 8 % 16 == 0 && 1 ≤ nc && nc ≤ 2 ^ 28 && recField v 12 4 == 0 && recField v 80 48 == 0⟩)

/-- A directory entry: cluster address, material, and whether it keeps its limits. -/
def Rd.dirEntry (r : Rd) (g : Agent) (h : TabHead) (x : InstRec) (c : Nat) : Rd × Nat × Nat × Bool :=
  let (r, v) := r.bytes g (x.dir + 16 * c) 16
  let m := recField v 8 4
  (r, recField v 0 8, m, recField v 0 8 % 128 == 0 && m < h.nm && recField v 12 4 == 0)

/-- A material record. -/
structure MatRec where
  entry : DWord
  na : Nat
  list : List Nat
  ok : Bool
  deriving DecidableEq, Repr
def Rd.material (r : Rd) (g : Agent) (h : TabHead) (m : Nat) : Rd × MatRec :=
  let (r, v) := r.bytes g (h.mat + 32 * m) 32
  let na := recField v 8 1
  let ls := (List.range 16).map fun k => recField v (16 + k) 1
  (r, ⟨BitVec.ofNat 64 (recField v 0 8), na, ls.take na,
    na ≤ 16 && recField v 9 7 == 0 && (ls.take na).all (· < 16) && (ls.drop na).all (· == 0)⟩)

/-- The fields of an identifier (11 R286). -/
def idKind (i : DWord) : Nat := i.toNat / 2 ^ 62
def idInst (i : DWord) : Nat := i.toNat / 2 ^ 36 % 2 ^ 26
def idClus (i : DWord) : Nat := i.toNat / 2 ^ 8 % 2 ^ 28
def idTri (i : DWord) : Nat := i.toNat % 2 ^ 8

/-- The cluster and the material of an identifier: none where a field lies outside its limits (11 R287-R289, R298). -/
def Rd.resolve (r : Rd) (g : Agent) (h : TabHead) (ident : DWord) : Rd × Option (InstRec × Nat × Nat) :=
  if !h.ok || h.ni ≤ idInst ident then (r, none)
  else
    let (r, x) := r.instance_ g h (idInst ident)
    if !x.ok || x.nc ≤ idClus ident then (r, none)
    else
      let (r, a, m, ok) := r.dirEntry g h x (idClus ident)
      (r, if ok then some (x, a, m) else none)

/-! ## The surface of a lane (11 R296-R298) -/

/-- Where a lane looks at its triangle from: a pixel under a view block, with the stored depth of a real lane, or a ray. -/
inductive Sight where
  | raster (px py : Nat) (depth : Option Nat) (view : Nat)
  | ray (o d : Option V3) (cw cs t : Nat)

/-- A triangle of a cluster at an address: none where a field lies outside its limits. -/
def Rd.triangle (r : Rd) (g : Agent) (a k : Nat) : Rd × Option (ClusHead × Tri) :=
  let (r, v) := r.bytes g a 16
  let h := ClusHead.of v
  if !h.ok || h.nt ≤ k then (r, none)
  else
    let (r, t) := r.bytes g (a + h.triAt + 4 * k) 4
    let idx := (List.range 3).map fun j => recField t j 1
    if idx.any (h.nv ≤ ·) then (r, none)
    else
      let (r, ps) := idx.foldl (fun (q : Rd × List (List Nat)) i =>
        let (r, p) := q.1.bytes g (a + 16 + 12 * i) 12
        (r, q.2 ++ [posWords p 0])) (r, [])
      (r, some (h, ⟨idx, ps, true⟩))

/-- The interpolants of a surface: the fetches of the attribute words of its vertices, then the values. -/
def Rd.interpolants (r : Rd) (g : Agent) (a : Nat) (h : ClusHead) (t : Tri) (u : Option Surf) : List Nat → Rd × List Nat
  | [] => (r, [])
  | x :: rest =>
    let word (r : Rd) (k : Nat) : Rd × Nat := r.bytes g (a + h.attrAt + 4 * (getP 0 t.idx k * h.na + x)) 4
    let (r, v) := match u with
      | none => (r, 0)
      | some u =>
        if h.na ≤ x then (r, 0)
        else
          let (r, a0) := word r 0
          let (r, a1) := word r 1
          let (r, a2) := word r 2
          (r, interpolant u a0 a1 a2)
    let (r, vs) := r.interpolants g a h t u rest
    (r, v :: vs)

/-- Words 1 to 7 and the interpolants of a lane; none for `RANGE` (11 R298). -/
def Rd.surface (r : Rd) (g : Agent) (h : TabHead) (ident : DWord) (sight : Sight) : Rd × Option (List Nat × List Nat) :=
  let (r, found) := r.resolve g h ident
  match found with
  | none => (r, none)
  | some (x, a, m) =>
    let (r, mat) := r.material g h m
    let (r, tri) := r.triangle g a (idTri ident)
    match tri with
    | none => (r, none)
    | some (ch, t) =>
      let (r, u, w7, ok) := match sight with
        | .raster px py depth view =>
          let (r, tw, th, ok) := r.viewBlock g view
          (r, rasterSurf x.m t tw th px py depth, 0, ok)
        | .ray o d cw cs tt => (r, raySurf o d cw cs tt t, tt, true)
      if !ok || !mat.ok then (r, none)
      else
        let words := match u with
          | some u => u.words
          | none => [0, 0, 0, 0, 0, 0, w7]
        let (r, is) := r.interpolants g a ch t u mat.list
        (r, some (words, is))

/-! ## Delivery (11 R295, R299-R301) -/

/-- A lane whose record came from the thresher or from traversal. -/
def RecKind.delivered : RecKind → Bool
  | .spawn => false
  | .filler => false
  | _ => true

/-- What the delivery of a lane comes to (11 R295, R299, R300): its registers from `v0` on, and whether `p7` is set; or a fault of a
fetch, with the line. -/
inductive Delivery where
  | regs (vals : List Nat) (p7 : Bool)
  | fault (cls va : Nat)

/-- The registers that a record alone gives (11 R299). -/
def BinRec.base (b : BinRec) : List Nat :=
  [b.first.toNat, 0, 0, 0, 0, 0, 0, b.depth.toNat, b.ident.toNat % 2 ^ 32, b.ident.toNat / 2 ^ 32]
/-- The cycles of a delivery after its fetches (11 R301). -/
def deliveryCost (nregs : Nat) (vals : List Nat) : Nat := 4 + min nregs vals.length
/-- The end of a delivery whose fetches are made. -/
def Rd.delivered (r : Rd) (nregs : Nat) (vals : List Nat) (p7 : Bool) : Ran Delivery := .done (r.t + deliveryCost nregs vals) (.regs vals p7)

/-- The delivery of a record: `v0`–`v9` and the interpolants. -/
def Rd.delivery (r : Rd) (g : Agent) (nregs : Nat) (b : BinRec) : Ran Delivery :=
  let (r, h) := r.table g b.table.toNat
  r.orElse Delivery.fault fun r =>
    if idKind b.ident = 2 then
      -- A miss or a background lane (11 R295): the interpolants of the background material are +0.
      if !h.ok || h.nm ≤ h.bg then r.delivered nregs b.base true
      else
        let (r, m) := r.material g h h.bg
        r.orElse Delivery.fault fun r => r.delivered nregs (if m.ok then b.base ++ List.replicate m.na 0 else b.base) !m.ok
    else
      let (r, sight) := if b.kind = .rayHit then
          let (r, v) := r.bytes g b.ray.toNat 48
          let y := Ray.of v
          (r, Sight.ray y.o y.d y.cw y.cs b.depth.toNat)
        else (r, Sight.raster (b.first.toNat % 2 ^ 16) (b.first.toNat / 2 ^ 16) (if b.kind = .quadReal then some b.depth.toNat else none) h.view)
      let (r, u) := r.surface g h b.ident sight
      r.orElse Delivery.fault fun r =>
        match u with
        | some v => r.delivered nregs ([b.first.toNat] ++ v.1 ++ b.base.drop 8 ++ v.2) false
        | none => r.delivered nregs b.base true

/-- The registers of a delivered lane, below the allocation (11 R295, R299). -/
def Lane.deliver (y : Lane) (nregs : Nat) (vals : List Nat) (p7 : Bool) : Lane :=
  let y := (List.range (min nregs vals.length)).foldl (fun y k => y.setOwn k (BitVec.ofNat 32 (getP 0 vals k))) y
  y.setPred 7 p7

/-- The record of lane `l` of a warp launched from a bin. -/
def Warp.recOf (x : Warp) (l : Nat) : BinRec := getP BinRec.blank x.recs l
/-- For whom the attribute engine reads. -/
def State.shadeAgent (s : State) (w l : Nat) : Agent :=
  ⟨s.partOf w, (match s.leaseNamed ((s.warp w).recOf l).owner with
    | some k => (s.lease k).sector
    | none => sectorOf (s.warp w).core), (s.team (s.warp w).team).asid, s.ctxOf w, 0, 0⟩

/-- The delivery of a lane is noted. -/
def State.onDeliv (s : State) (w l : Nat) (f : Deliv → Deliv) : State :=
  s.onWarp w fun x => { x with deliv := x.deliv.map fun d => if d.lane = l then f d else d }
/-- The lanes that wait for the engines of a lease, or are served by them, as warp and lane. -/
def State.delivOf (s : State) (name : Nat) (begun : Bool) : List (Nat × Nat) :=
  (List.range s.warps.length).flatMap fun w =>
    let x := s.warp w
    if x.live then (x.deliv.filter fun d => d.due == 0 && d.read.isSome == begun && (x.recOf d.lane).owner == name).map fun d => (w, d.lane)
    else []
/-- The first lane: by the launch of its warp, then in lane order (11 R301). -/
def State.firstDeliv (s : State) : List (Nat × Nat) → Option (Nat × Nat)
  | [] => none
  | q :: r =>
    match s.firstDeliv r with
    | some m => some (if lexLt [(s.warp m.1).placed, m.1, m.2] [(s.warp q.1).placed, q.1, q.2] then m else q)
    | none => some q

/-- A warp all of whose deliveries have ended comes to its first boundary 8 cc after the last (11 R301). -/
def State.warpDelivered (s : State) (w : Nat) : State :=
  let x := s.warp w
  if x.deliv.any fun d => d.due == 0 then s
  else
    let last := x.deliv.foldl (fun (m : Nat) (d : Deliv) => max m d.due) 0
    s.schedule (max s.now (max x.placed (last + 8))) (.ev .laneDelivery ⟨w, 0, x.placed, 2, []⟩)

/-- The delivery of a lane comes to its end at cycle `t`: its registers are written, or it parks at the entry (11 R300). -/
def State.endDelivery (s : State) (w l t : Nat) (e : Delivery) : State :=
  let x := s.warp w
  let entry := (s.team x.team).kern.entry
  let s := match e with
    | .regs vals p7 =>
      (s.onWarp w fun x => x.onLane l fun y => y.deliver x.nregs vals p7).countRf w (List.range (min x.nregs vals.length))
    | .fault cls va =>
      s.onWarp w fun x => x.onLane l fun y =>
        { y with
          st := .parked
          pc := entry
          meet := noMeeting
          fault := some { mkFault cls entry with subcode := if cls = 4 then 1 else 0, addr := BitVec.ofNat 64 va, delivery := true } }
  (s.onDeliv w l fun d => { d with due := max 1 t }).warpDelivered w
/-- The lane is not delivered: it launches with what its record holds, and `p7` set (11 R299). -/
def State.undelivered (s : State) (w l : Nat) : State :=
  let vals := ((s.warp w).recOf l).base
  s.endDelivery w l (s.now + deliveryCost (s.warp w).nregs vals) (.regs vals true)

/-- The delivery of a lane goes on; a place that it leaves takes the next lane 1 cc later. -/
def State.deliverLane (s : State) (w l : Nat) : State :=
  let x := s.warp w
  match (x.deliv.find? fun d => d.lane == l && d.due == 0).bind (·.read) with
  | none => s
  | some rd =>
    if rd.due ≠ s.now then s
    else
      match s.readOn (s.shadeAgent w l) rd fun s rd => (Rd.begin s rd).delivery (s.shadeAgent w l) x.nregs (x.recOf l) with
      | .on s rd => (s.onDeliv w l fun d => { d with read := some rd }).schedule rd.due (.ev .laneDelivery ⟨w, l, x.placed, 1, []⟩)
      | .over s _ e => (s.endDelivery w l s.now e).later 1 .laneDelivery 0 0 (x.recOf l).owner

/-- The engines of a lease take their next lane: one a cycle, with 16 places an engine (10 R275; 11 R301); a waking engine is waited for. Without
the lease its lanes are not delivered (11 R299). -/
def State.serveDelivery (s : State) (name : Nat) : State :=
  let waiting := s.delivOf name false
  match s.leaseNamed name with
  | none => (waiting ++ s.delivOf name true).foldl (fun s q => s.undelivered q.1 q.2) s
  | some k =>
    match s.firstDeliv waiting with
    | none => s
    | some (w, l) =>
      let t := if (s.lease k).servedAt = s.now + 1 then s.now + 1 else s.leaseReady k
      if s.now < t then s.schedule t (.ev .laneDelivery ⟨0, 0, name, 0, []⟩)
      else if 16 * (s.lease k).engines.length ≤ (s.delivOf name true).length then s
      else
        let s := (s.onLease k fun y => { y with servedAt := s.now + 1 }).onDeliv w l fun d => { d with read := some ⟨s.now, s.now, [], none⟩ }
        (s.later 1 .laneDelivery 0 0 name).deliverLane w l

/-- The deliveries of a warp begin (11 R301). -/
def State.startDelivery (s : State) (w : Nat) : State :=
  let x := s.warp w
  ((x.deliv.map fun d => (x.recOf d.lane).owner).eraseDups).foldl (fun s n => s.later 0 .laneDelivery 0 0 n) s

/-- LANE_DELIVERY (R295): The attribute engine delivers the registers of a lane launched from a thresher or traversal record. The operand `v` is
0 where the engines of the lease named by `c` can take a lane, 1 where the delivery of a lane goes on, 2 where the deliveries of a warp are over. -/
def execLaneDelivery (s : State) : Out :=
  .next (
    let w := s.ev.a
    let x := s.warp w
    if s.ev.v = 0 then s.serveDelivery s.ev.c
    else if !x.live || x.placed ≠ s.ev.c then s
    else if s.ev.v = 1 then s.deliverLane w s.ev.b
    else if x.deliv.all fun d => d.due != 0 && d.due + 8 ≤ s.now then s.onWarp w fun x => { x with deliv := [], busyTo := max x.busyTo s.now }
    else s)

/-- A parked lane is delivered again (11 R300): its warp issues 8 cc after its deliveries have ended. -/
def State.redeliver (s : State) (w l : Nat) : State :=
  let entry := (s.team (s.warp w).team).kern.entry
  let s := s.onWarp w fun x =>
    { x.onLane l fun y => { y with st := .running, pc := entry, fault := none } with deliv := (x.deliv.filter fun d => d.lane != l) ++ [⟨l, 0, none⟩] }
  s.later 0 .laneDelivery 0 0 ((s.warp w).recOf l).owner

end Sys2Proof.Machine
end

