-- ==== Sys2Proof/Machine/Sched.lean ====
section
/-!
DEFINITION. Grids and teams: grid identifiers and the pending-launch pool (02 R44, R46; 09 R249), placement (02 R40, R47; 03 R77),
launch records and dependence tokens (17 R354-R359), device launch (09 R248-R250), retirement (02 R34, R42, R48), pre-emption requests (17
R358; 15 R334), killed contexts (18 R377), the greed limit and meeting release (02 R28, R53).
-/
namespace Sys2Proof.Machine

/-! ## Identifiers and the pool -/

/-- An identifier of a live grid or of a bound bin. -/
def State.idLive (s : State) (p : Nat) (v : Word) : Bool :=
  s.grids.any (fun g => g.st != .free && g.part == p && g.id == v) || s.bins.any fun b => b.live && b.part == p && b.gridId == v
/-- An identifier that is not live, never 0 or 0xFFFFFFFF (02 R44, R52). -/
def State.newId (s : State) (p : Nat) : State × Word :=
  let n := (s.part p).nextId
  let id (k : Nat) : Nat := (n - 1 + k) % (2 ^ 32 - 2) + 1
  let k := ((List.range (s.grids.length + s.bins.length + 1)).find? fun k => !s.idLive p (BitVec.ofNat 32 (id k))).getD 0
  (s.onPart p fun x => { x with nextId := id (k + 1) }, BitVec.ofNat 32 (id k))

def Part.entry (p : Part) (e : Nat) : PoolEnt := getP PoolEnt.idle p.pool e
/-- The lowest-numbered free entry of a pool of 8,192 (02 R46). -/
def State.poolFree (s : State) (p : Nat) : Option Nat :=
  let e := freeSlot PoolEnt.busy (s.part p).pool
  if e < 8192 then some e else none
/-- An entry is taken under its next sequence number (09 R249). -/
def State.takePool (s : State) (p e : Nat) : State :=
  s.onPart p fun x =>
    let q := x.entry e
    { x with pool := setP PoolEnt.idle x.pool e { q with busy := true, seq := q.seq % (2 ^ 19 - 1) + 1 } }
/-- The handle of an entry. -/
def State.poolHandle (s : State) (p e : Nat) : Nat := e + 2 ^ 13 * ((s.part p).entry e).seq

/-- A grid in a free slot, last in the order of launch. -/
def State.addGrid (s : State) (g : Grid) : State × Nat :=
  let i := freeSlot (fun g => g.st != .free) s.grids
  let o := (s.part g.part).order
  ((s.onPart g.part fun x => { x with order := o + 1 }).onGrid i fun _ => { g with order := o }, i)

/-! ## Completion and retirement (02 R42, R48; 17 R357) -/

/-- The queue region of a partition (17 R354). -/
def State.lqBase (s : State) (p : Nat) : Nat := (getP 0 s.lqbase p).toNat / 2 ^ 12 % 2 ^ 40 * 2 ^ 12
def State.lqSize (s : State) (p : Nat) : Nat :=
  let n := (getP 0 s.lqbase p).toNat % 16
  2 ^ ((if 9 ≤ n then 8 else n) + 4)
def State.tokenAt (s : State) (p : Nat) (i : Word) : Nat := s.lqBase p + 4096 + 4 * i.toNat

/-- The completion word, the token and the interrupt, in this order (17 R357). -/
def State.complete (s : State) (p : Nat) (comp : DWord) (sig : Word) (irq : Bool) (st : Nat) (id : Word) : State :=
  let s := if comp != 0 && comp.toNat % 8 == 0 then s.pokeNum comp.toNat 8 (st + 2 ^ 32 * id.toNat) else s
  let s := if sig.toNat < 1024 then s.pokeNum (s.tokenAt p sig) 4 ((s.peek (s.tokenAt p sig) 4 + 1) % 2 ^ 32) else s
  if irq then s.post (.msix p) else s

/-- A grid whose teams and child grids have all retired (02 R48). -/
def Grid.over (g : Grid) : Bool := g.st == .pending && g.nteams ≤ g.next && g.liveTeams == 0 && g.kids == 0 && g.saved.isEmpty

/-- Grids that are over retire, a parent after its child. -/
def State.retireGrid (s : State) (g : Nat) : Nat → State
  | 0 => s
  | fuel + 1 =>
    let x := s.grid g
    if !x.over then s
    else
      let s := if x.host then s.complete x.part x.comp x.sigtok x.irq x.status x.id else s
      let s := match x.pool with
        | some e => s.onPart x.part fun p => { p with pool := setP PoolEnt.idle p.pool e ⟨false, (p.entry e).seq, (p.entry e).seq, x.status, s.now⟩ }
        | none => s
      let s := s.onGrid g fun _ => Grid.idle
      match x.parent with
      | some q => (s.onGrid q fun y => { y with kids := y.kids - 1 }).retireGrid q fuel
      | none => s

/-- Whether a token condition holds (17 R356). -/
def State.tokenOk_ (s : State) (p : Nat) (tok val : Word) : Bool :=
  tok == 0xFFFFFFFF || val.toNat ≤ s.peek (s.tokenAt p tok) 4

/-- A physical address of an image in an address space of a partition. -/
def State.imagePhys (s : State) (p asid va : Nat) : Option Nat :=
  if canonical va then (s.walkTables p asid va).leaf.map fun e => e.phys va else none
/-- `n` bytes of an image that lie in one page. -/
def State.imageWord (s : State) (p asid va n : Nat) : Option Nat := (s.imagePhys p asid va).map fun pa => s.peek pa n

/-- A restore record whose condition holds (17 R359): an image whose VERSION is not 1 restores nothing; its record is signalled and is
entered in the error log, with an open KIND code (18 R397; log entry 39). -/
def State.beginRestore (s : State) (w : WaitRec) : State :=
  if s.imageWord w.part w.asid w.comp.toNat 4 = some 1 then
    let o := (s.part w.part).order
    s.onPart w.part fun x =>
      { x with order := o + 1, restores := x.restores ++ [⟨w.comp.toNat, w.prio, w.asid, w.sigtok, w.irq, s.now + 420, o⟩] }
  else
    (s.logError (2 + Config.versionKind.val) 0 0 0 w.comp.toNat).complete w.part 0 w.sigtok false 8 0

/-- A record whose condition holds (17 R356, R359). -/
def State.recordReady (s : State) (w : WaitRec) : State :=
  match w.kind with
  | 0 => s.complete w.part w.comp w.sigtok w.irq 0 0
  | 1 => s.onGrid w.grid fun g => { g with st := .pending, readyAt := s.now + 420 }
  | _ => s.beginRestore w
/-- The tokens of a partition are read again: every record whose condition holds goes on (17 R356). -/
def State.readTokens (s : State) (p : Nat) : State :=
  let ws := (s.part p).waits
  let s := s.onPart p fun x => { x with waits := [] }
  ws.foldl (fun s w =>
    if s.tokenOk_ p w.waittok w.waitval then s.recordReady w else s.onPart p fun x => { x with waits := x.waits ++ [w] }) s

/-- A grid that is over retires, with the ancestors that this leaves over; then the tokens are read again. -/
def State.gridOver (s : State) (g : Nat) : State :=
  if (s.grid g).over then
    let p := (s.grid g).part
    (s.retireGrid g 12).readTokens p
  else s

/-- What is kept of saved teams that do not come back is given up: tile references, waiting messages. -/
def State.dropSaves (s : State) (f : SavedTeam → Bool) : State :=
  let ws := (s.saves.filter f).flatMap (·.warps)
  let ops := ws.flatMap (·.sends)
  let s := (ws.flatMap (·.tiles)).foldl State.dropRef s
  { s with
    saves := s.saves.filter fun x => !f x
    msgs := s.msgs.map fun m => if m.live && ops.contains m.op then Msg.idle else m
    memops := ops.foldl (fun l k => setP MemOp.idle l k MemOp.idle) s.memops }

/-- A team's last warp has retired (02 R42): its resources return 40 cc later. -/
def State.teamOver (s : State) (t : Nat) : State :=
  let x := s.team t
  if !x.live || x.warps.any (fun w => (s.warp w).live && (s.warp w).team == t) then s
  else
    let s := (((s.endLeases t).dropSaves fun k => k.part == x.part && k.gridId == x.gridId && k.num == x.num).onTeam t fun x => { x with live := false }).later 40
      .teamResourcesFree t
    if x.bin.isSome then s
    else (s.onGrid x.grid fun g => { g with liveTeams := g.liveTeams - 1 }).gridOver x.grid

/-- A warp that can retire (02 R34; 08 R200). -/
def State.canRetire (s : State) (w : Nat) : Bool :=
  let x := s.warp w
  x.live && !x.hmode && x.ld == 0 && x.st == 0 && x.cp == 0 && x.tl == 0 && x.deliv.isEmpty &&
  (List.range 64).all (fun l => (x.lane l).st == .exited) && !(s.memops.any fun m => m.live && m.warp == w)

/-- WARP_RETIRE (R200): A warp whose threads have all exited retires once its counters are zero and its stores are complete. -/
def execWarpRetire (s : State) : Out :=
  .next (
    let w := s.ev.a
    if s.canRetire w then
      let t := (s.warp w).team
      (((((s.dropRefs w).breakSheaf w 3).onWarp w fun x => { x with live := false, rdv := none, stalled := none }).checkBarrier t).teamOver t)
    else s)

/-- TEAM_RESOURCES_FREE (R42): The registers, scratch, handles and slots of a retired team return to its core. -/
def execTeamResourcesFree (s : State) : Out :=
  .next (
    let t := s.ev.a
    let x := s.team t
    if x.holds && !x.live then
      { x.warps.foldl (fun s w => s.setWarp w Warp.idle) s with teams := setP Team.idle s.teams t Team.idle }
    else s)

/-! ## Placement (02 R40, R47; 03 R77) -/

/-- Warps of a team that go to quarter `q`, and the bytes of its registers there (02 R39, R40). -/
def Kernel.inQuarter (k : Kernel) (q : Nat) : Nat := (k.warps + 3 - q) / 4
def Kernel.bankBytes (k : Kernel) (q : Nat) : Nat := k.inQuarter q * ((k.regs + 16) * 256)
/-- Kernels fit a core together (02 R40). -/
def fitsCore (ks : List Kernel) : Bool :=
  let sum (f : Kernel → Nat) : Nat := ks.foldl (fun n k => n + f k) 0
  ks.length ≤ 64 && sum (·.scratch) ≤ 262144 && sum (fun k => k.bufs.length) ≤ 64 &&
  (List.range 4).all fun q => sum (fun k => k.inQuarter q) ≤ 32 && sum (fun k => k.bankBytes q) ≤ 262144
/-- The kernels of the teams that hold resources of a core. -/
def State.coreKernels (s : State) (c : Nat) : List Kernel := (s.teams.filter fun t => t.holds && t.core == c).map (·.kern)
/-- A core that can hold a team now, or could when empty. -/
def State.holdsTeam (s : State) (p c : Nat) (k : Kernel) (empty : Bool) : Bool :=
  s.coreLive c && s.partOfSector (sectorOf c) == p && fitsCore (if empty then [k] else k :: s.coreKernels c)

/-- The cores for the first `n` teams of a group (03 R77): a run of consecutive live cores of one sector, and the cores 288 above. -/
def State.groupCores (s : State) (p : Nat) (k : Kernel) (n : Nat) (empty : Bool) : Option (List Nat) :=
  if k.ny = 1 && k.nz = 1 then ((List.range 576).find? fun c => s.holdsTeam p c k empty).map fun c => [c]
  else
    let cores (c : Nat) : List Nat := (List.range n).map fun i => c + i % k.ny + 288 * (i / k.ny)
    ((List.range (if k.nz = 2 then 288 else 576)).find? fun c =>
      c % 96 + k.ny ≤ 96 && ((List.range k.ny).all fun y => s.coreLive (c + y) && s.partOfSector (sectorOf (c + y)) == p) &&
      (cores c).all fun d => s.holdsTeam p d k empty).map cores

/-- A warp as it starts (02 R26; 03 R59). -/
def Warp.start (now team num core slot retry : Nat) (k : Kernel) : Warp :=
  { Warp.idle with
    live := true
    team := team
    num := num
    core := core
    quarter := num % 4
    slot := slot
    placed := now
    nregs := k.regs
    lo := k.lo
    hi := k.hi
    lanes := List.replicate 64 { Lane.idle with st := .running, pc := k.entry }
    retryAt := retry
    busyTo := retry }

/-- The lowest number that a list does not hold. -/
def firstFree (l : List Nat) : Nat := ((List.range (l.length + 1)).find? fun k => !l.contains k).getD 0
/-- The warps of the teams that hold resources. -/
def State.heldWarps (s : State) : List Nat := s.teams.flatMap fun t => if t.holds then t.warps else []

/-- A team takes its resources on a core; its warps start at cycle `retry` (02 R40, R58). `f` finishes each warp. -/
def State.placeTeam (s : State) (core : Nat) (t : Team) (retry : Nat) (f : Nat → Warp → Warp) : State × Nat :=
  let tn := freeSlot Team.holds s.teams
  let taken := s.heldWarps
  let r := (List.range t.kern.warps).foldl (fun (a : State × List Nat) i =>
    let w := firstFree (taken ++ a.2)
    let used := ((taken ++ a.2).filter fun v => (a.1.warp v).core == core && (a.1.warp v).quarter == i % 4).map fun v => (a.1.warp v).slot
    (a.1.setWarp w (f i (Warp.start s.now tn i core (firstFree used) retry t.kern)), a.2 ++ [w])) (s, [])
  let t := { t with
    live := true
    holds := true
    core := core
    warps := r.2
    handles := t.kern.bufs.map fun b => { Handle.idle with base := b.1, size := b.2 }
    patFree := s.free + 1 }
  ({ r.1.setTeam tn t with free := s.free + 1 }, tn)

/-- The next thing that a dispatcher places: a bin's team, teams of a grid, restored teams, or a grid that can never be placed; with the cores. -/
inductive Placing where
  | bin (b : Nat) (cores : List Nat)
  | grid (g : Nat) (cores : List Nat)
  | restore (rs : List (Restore × Nat)) (cores : List Nat)
  | never (g : Nat)

/-- The teams of the group of a grid that is placed next. -/
def Grid.groupSize (g : Grid) : Nat := min (g.kern.ny * g.kern.nz) (g.nteams - g.next)
/-- A grid that waits for placement. -/
def State.gridReady (s : State) (p g : Nat) : Bool :=
  let x := s.grid g
  x.st == .pending && x.part == p && x.next < x.nteams && x.readyAt ≤ s.now && (match x.drain with
    | some (c, b) => !s.drainingCore c b
    | none => true)

/-- The grid identifier and the team number of an image. -/
def State.imageTeam (s : State) (p : Nat) (r : Restore) : Option (Word × Nat) :=
  match s.imageWord p r.asid (r.img + 8) 4, s.imageWord p r.asid (r.img + 12) 4 with
  | some g, some n => some (BitVec.ofNat 32 g, n)
  | _, _ => none
/-- What a restored team belongs to: the grid, or the bin, of its identifier. -/
def State.gridOf (s : State) (p : Nat) (id : Word) : Option Nat :=
  (List.range s.grids.length).find? fun g => (s.grid g).st == .pending && (s.grid g).part == p && (s.grid g).id == id
def State.binOfId (s : State) (p : Nat) (id : Word) : Option Nat :=
  (List.range s.bins.length).find? fun b => (s.bin b).live && (s.bin b).part == p && (s.bin b).gridId == id

/-- A kernel from its descriptor in an image (07 R187; 15 R336): shape and resources; the entry is its grid's. -/
def Kernel.ofDesc (d : List Byte) (entry : DWord) (bufs : List (Nat × Nat)) : Kernel :=
  let v := leNum d
  ⟨entry, recField v 4 4 != 0xFFFFFFFF, recField v 8 1, 8 * recField v 9 1, recField v 11 1, recField v 10 1, 1024 * recField v 12 2,
    recField v 14 1, bufs, 64 * recField v 16 2, recField v 18 2, BitVec.ofNat 64 (recField v 24 8), d⟩
/-- The kernel of an image. -/
def State.imageKernel (s : State) (p : Nat) (r : Restore) (entry : DWord) : Kernel :=
  let byte (a : Nat) : Byte := BitVec.ofNat 8 ((s.imageWord p r.asid a 1).getD 0)
  let d := (List.range 64).map fun i => byte (r.img + 64 + i)
  let n := recField (leNum d) 15 1
  Kernel.ofDesc d entry ((List.range n).map fun h =>
    let e := (s.imageWord p r.asid (r.img + 192 + 8 * h) 8).getD 0
    (e / 2 ^ 43 % 2 ^ 12, e / 2 ^ 31 % 2 ^ 12))

/-- The restores of the group of a restore, with their team numbers, once every saved team of the group has one (03 R77). -/
def State.restoreGroup (s : State) (p : Nat) (r : Restore) : Option (List (Restore × Nat)) :=
  match s.imageTeam p r with
  | none => some [(r, 0)]
  | some (id, n) =>
    match s.gridOf p id with
    | none => some [(r, n)]
    | some g =>
      let k := (s.grid g).kern
      let size := k.ny * k.nz
      let mine := (s.part p).restores.filterMap fun q =>
        match s.imageTeam p q with
        | some (i, m) => if i = id && m / size = n / size && q.readyAt ≤ s.now then some (q, m) else none
        | none => none
      if ((s.grid g).saved.filter fun m => m / size == n / size).all fun m => mine.any fun q => q.2 == m then some mine else none

/-- The teams of the group of a restore, which holds at most `size`: the last group of a grid may hold fewer (03 R77). -/
def State.groupTeams (s : State) (p : Nat) (r : Restore) (size : Nat) : Nat :=
  match s.imageTeam p r with
  | none => size
  | some (id, n) =>
    match s.gridOf p id with
    | none => size
    | some g => min size ((s.grid g).nteams - n / size * size)

/-- A grid that no empty partition can hold: it retires at once (03 R77). -/
def State.neverGrid (s : State) (p : Nat) : Option Nat :=
  (List.range s.grids.length).find? fun g =>
    let x := s.grid g
    x.st == .pending && x.part == p && x.next < x.nteams && (s.groupCores p x.kern x.groupSize true).isNone
/-- The first thing in the order of R47, when it can be placed now. -/
def State.nextPlacing (s : State) (p : Nat) : Option Placing :=
  let x := s.part p
  let grids := (List.range s.grids.length).filter (s.gridReady p)
  match s.neverGrid p with
  | some g => some (.never g)
  | none =>
    let dueBin := match x.dueBins with
      | b :: _ => (match (s.bin b).due with
        | (_, t, _) :: _ => if t ≤ s.now then some b else none
        | [] => none)
      | [] => none
    match dueBin with
    | some b => (s.groupCores p (s.bin b).kern 1 false).map (.bin b)
    | none =>
      let rest := (x.restores.filter fun r => r.readyAt ≤ s.now).filterMap fun r => (s.restoreGroup p r).map fun g => (r, g)
      let before (a b : Nat × Nat) : Bool := b.1 < a.1 || (a.1 == b.1 && a.2 < b.2)
      let bestG := grids.foldl (fun (m : Option Nat) g =>
        match m with
        | none => some g
        | some k => if before ((s.grid g).prio, (s.grid g).order) ((s.grid k).prio, (s.grid k).order) then some g else some k) none
      let bestR := rest.foldl (fun (m : Option (Restore × List (Restore × Nat))) r =>
        match m with
        | none => some r
        | some k => if before (r.1.prio, r.1.order) (k.1.prio, k.1.order) then some r else some k) none
      let placeG (g : Nat) : Option Placing := (s.groupCores p (s.grid g).kern (s.grid g).groupSize false).map (.grid g)
      let placeR (q : Restore × List (Restore × Nat)) : Option Placing :=
        let r := q.2.map (·.1)
        let k := s.imageKernel p q.1 0
        let size := max 1 (k.ny * k.nz)
        (s.groupCores p k (s.groupTeams p q.1 size) false).map fun cs => .restore q.2 (if size = 1 then r.map fun _ => getP 0 cs 0 else q.2.map fun m => getP 0 cs (m.2 % size))
      match bestG, bestR with
      | none, none => none
      | some g, none => placeG g
      | none, some q => placeR q
      | some g, some q => if before (q.1.prio, q.1.order) ((s.grid g).prio, (s.grid g).order) then placeR q else placeG g

/-- A dispatcher that places nothing (18 R378, R395). -/
def State.dispatchOff (s : State) (p : Nat) : Bool := (s.part p).halted || s.remaps.any (· != .none)
/-- A partition whose dispatcher places something in this cycle. -/
def State.placing (s : State) : Option Nat :=
  (List.range (min 6 s.parts.length)).find? fun p =>
    ((s.part p).placeAt ≤ s.now || (s.neverGrid p).isSome) && !s.dispatchOff p && (s.nextPlacing p).isSome

/-- A lane of a bin team (02 R49, R52; 11 R291, R292). -/
def BinRec.lane (b : Option BinRec) (k : Kernel) : Lane :=
  let y := { Lane.idle with st := .running, pc := k.entry }
  match b with
  | none => Lane.idle
  | some b =>
    match b.kind with
    | .filler => Lane.idle
    | .spawn => { y with v := b.words.take k.regs }
    | .quadHelper => { y with helper := true }
    | _ => y
/-- Record `i` of a list. -/
def recAt (rs : List BinRec) (i : Nat) : Option BinRec := if i < rs.length then some (getP BinRec.blank rs i) else none

/-- A bin's team is placed (02 R49, R52): the room of its records is free, and its groups' references pass to its warps (05 R121). -/
def State.placeBin (s : State) (p b : Nat) (cores : List Nat) : State :=
  let x := s.bin b
  match x.due with
  | [] => s
  | (cause, _, rs) :: rest =>
    let s := (s.onBin b fun x =>
      { x with
        due := rest
        launched := x.launched + 1
        freed := (s.now, rs.length + (if x.freed.1 = s.now then x.freed.2 else 0)) }).onPart p fun q =>
      { q with dueBins := q.dueBins.drop 1, placeAt := s.now + 8 }
    let t : Team := { Team.idle with
      part := p
      bin := some b
      gridId := x.gridId
      ctx := x.gridId
      num := x.launched % 2 ^ 24
      asid := x.asid
      prio := x.prio
      kern := x.kern }
    let args := [BitVec.ofNat 32 cause, BitVec.ofNat 32 rs.length]
    let rec_ (i l : Nat) : Option BinRec := recAt rs (64 * i + l)
    let (s, tn) := s.placeTeam (getP 0 cores 0) t s.now fun i w =>
      { w with
        s := args
        lanes := (List.range 64).map fun l => BinRec.lane (rec_ i l) x.kern
        recs := (rs.drop (64 * i)).take 64
        deliv := (List.range 64).filterMap fun l => match rec_ i l with
          | some r => if r.kind.delivered then some ⟨l, 0, none⟩ else none
          | none => none }
    let ws := (s.team tn).warps
    let tilesOf (w : Nat) : List Nat := ((s.warp w).recs.filterMap (·.tile)).eraseDups
    let s := ws.foldl (fun s w => (tilesOf w).foldl State.takeRef (s.onWarp w fun x => { x with tiles := tilesOf w })) s
    let groups := (List.range (rs.length / 4)).filterMap fun k => (getP BinRec.blank rs (4 * k)).tile
    let s := groups.foldl State.dropRef s
    -- The words of records are written to the registers (03 R68).
    let s := ws.foldl (fun s w =>
      let n := (s.warp w).recs.foldl (fun n r => if r.kind == .spawn then max n r.words.length else n) 0
      s.countRf w (List.range (min x.kern.regs n))) s
    ws.foldl State.startDelivery s

/-- A group of a grid is placed: each team starts 8 cc after the one before (02 R58; 03 R77). -/
def State.placeGrid (s : State) (p g : Nat) (cores : List Nat) : State :=
  let x := s.grid g
  let s := (List.range cores.length).foldl (fun s i =>
    let t : Team := { Team.idle with
      part := p
      grid := g
      gridId := x.id
      ctx := x.ctx
      num := x.next + i
      depth := x.depth
      nteams := x.nteams
      asid := x.asid
      prio := x.prio
      sb := x.sb
      sz := x.sz
      kern := x.kern }
    -- What its launcher had written is visible to a child: its core holds no older line (02 R48).
    let s := if x.host then s else s.l1Clear (getP 0 cores i)
    (s.placeTeam (getP 0 cores i) t (s.now + 8 * i) fun _ w => { w with s := x.args }).1) s
  (s.onGrid g fun y => { y with next := y.next + cores.length, liveTeams := y.liveTeams + cores.length }).onPart p fun q =>
    { q with placeAt := s.now + 8 * cores.length }

/-- A saved team is placed again (15 R335): its warps start in handler mode with class 0x13, subcode 1. An image of no live grid or bin
restores nothing (log entry 39). -/
def State.placeRestore (s : State) (p i : Nat) (r : Restore) (core : Nat) : State :=
  let s := (s.complete p 0 r.sigtok r.irq 0 0).onPart p fun q => { q with restores := q.restores.erase r }
  match s.imageTeam p r with
  | none => s
  | some (id, n) =>
    let start (t : Team) (entry : DWord) : State :=
      let t := { t with part := p, gridId := id, num := n, asid := r.asid, prio := r.prio, kern := s.imageKernel p r entry }
      (s.placeTeam core t (s.now + 8 * i) fun _ w =>
        { (w.mapLanes fun _ y => { y with cred := List.replicate 6 0 }) with
          hmode := true
          hpc := vectorEntry (getP 0 s.trapvec p)
          cause := ⟨0x13, 1, BitVec.ofNat 64 r.img, 1⟩ }).1
    match s.gridOf p id, s.binOfId p id with
    | some g, _ =>
      let x := s.grid g
      (start { Team.idle with grid := g, ctx := x.ctx, depth := x.depth, nteams := x.nteams } x.kern.entry).onGrid g fun y =>
        { y with liveTeams := y.liveTeams + 1, saved := y.saved.erase n }
    | none, some b => start { Team.idle with bin := some b, ctx := id } (s.bin b).kern.entry
    | none, none => s

/-- TEAM_PLACEMENT (R47): The dispatcher places the next team, bin or group on the lowest-numbered core that can hold it. -/
def execTeamPlacement (s : State) : Out :=
  .next (
    let p := s.ev.a
    match s.nextPlacing p with
    | none => s
    | some (.bin b cores) => s.placeBin p b cores
    | some (.grid g cores) => s.placeGrid p g cores
    | some (.never g) => (s.onGrid g fun x => { x with next := x.nteams, status := 5 }).gridOver g
    | some (.restore rs cores) =>
      ((List.range rs.length).foldl (fun s i =>
        let r := getP (⟨0, 0, 0, 0, false, 0, 0⟩, 0) rs i
        s.placeRestore p i r.1 (getP 0 cores i)) s).onPart p fun q => { q with placeAt := s.now + 8 * rs.length })

/-! ## Launch records (17 R354-R359) -/

/-- A doorbell (17 R354, R356): ignored before stage 3 (20 R405), beyond the ring and on a halted partition; the tokens are read again. -/
def State.doorbell (s : State) (p tail : Nat) : State :=
  let x := s.part p
  let tail := tail % 2 ^ 32
  if s.stage < 4 || x.halted || s.lqSize p < (tail + 2 ^ 32 - x.head) % 2 ^ 32 then s
  else (s.onPart p fun x => { x with bells := x.bells ++ [(tail, s.now + 200)] }).readTokens p

/-- LAUNCH_DOORBELL (R354): A write of TAIL to LQDB covers new launch records, unless it would overfill the ring. -/
def execLaunchDoorbell (s : State) : Out := .next (if s.ev.a < 6 && !s.d3hot then s.doorbell s.ev.a s.ev.v.toNat else s)

/-- The records that a doorbell covers and that are not taken. -/
def Part.ahead (x : Part) (tail : Nat) : Bool :=
  let d := (tail + 2 ^ 32 - x.head) % 2 ^ 32
  d != 0 && d < 2 ^ 31
/-- A record is taken in this cycle (17 R356). -/
def State.takesRecord (s : State) (p : Nat) : Bool :=
  let x := s.part p
  !x.halted && x.takeAt ≤ s.now && (s.poolFree p).isSome && x.bells.any fun b => x.ahead b.1 && b.2 ≤ s.now
def State.taking (s : State) : Option Nat := (List.range (min 6 s.parts.length)).find? s.takesRecord

/-- The fields of the next record (17 R355). -/
structure LaunchRec where
  kind : Nat
  template : Nat
  teams : Nat
  asid : Nat
  prio : Nat
  flags : Nat
  args : List Word
  sb : DWord
  sz : Nat
  wtok : Word
  wval : Word
  stok : Word
  comp : DWord
  zero : Bool
  deriving DecidableEq, Repr

def LaunchRec.of (v : Nat) : LaunchRec :=
  let w (off : Nat) : Word := BitVec.ofNat 32 (recField v off 4)
  ⟨recField v 0 4, recField v 4 2, recField v 8 4, recField v 12 2, recField v 14 1, recField v 15 1, (List.range 8).map fun k => w (16 + 4 * k),
    BitVec.ofNat 64 (recField v 48 8), recField v 56 4, w 64, w 68, w 72, BitVec.ofNat 64 (recField v 80 8),
    recField v 6 2 == 0 && recField v 60 4 == 0 && recField v 76 4 == 0 && recField v 88 40 == 0⟩
def State.recordAt (s : State) (p : Nat) : LaunchRec :=
  LaunchRec.of (s.peek (s.lqBase p + 8192 + 128 * ((s.part p).head % s.lqSize p)) 128)

def tokOk (t : Word) : Bool := t.toNat < 1024 || t == 0xFFFFFFFF
/-- The limits of R355; KIND 0 and KIND 2 ignore the fields that R358 and R359 name. -/
def State.recordOk (s : State) (p : Nat) (r : LaunchRec) : Bool :=
  r.kind ≤ 2 && r.zero && r.asid < 16384 && r.prio ≤ 3 && r.flags ≤ 1 && tokOk r.wtok && tokOk r.stok &&
  (r.kind == 2 || r.comp.toNat % 8 == 0) &&
  (r.kind != 1 || (r.template < (s.part p).templates.length && 1 ≤ r.teams && r.teams ≤ 2 ^ 24 && r.sb.toNat % 256 == 0 && r.sz % 4 == 0 &&
    r.sz ≤ 2 ^ 20))

/-- A record is taken: HEAD is written (17 R356). -/
def State.takeRecord (s : State) (p : Nat) : State :=
  let h := ((s.part p).head + 1) % 2 ^ 32
  let s := s.onPart p fun x => { x with head := h, takeAt := s.now + 8 }
  (s.onPart p fun x => { x with bells := x.bells.filter fun b => x.ahead b.1 }).pokeNum (s.lqBase p) 4 h

/-- The record as one that waits on its token. -/
def LaunchRec.waits (r : LaunchRec) (p grid : Nat) : WaitRec :=
  ⟨p, r.kind, r.comp, r.stok, r.flags % 2 == 1, r.wtok, r.wval, r.prio, r.asid, grid⟩
/-- A record goes on at once, or waits on its token. -/
def State.recordWaits (s : State) (w : WaitRec) : State :=
  if s.tokenOk_ w.part w.waittok w.waitval then s.recordReady w else s.onPart w.part fun x => { x with waits := x.waits ++ [w] }
/-- A record that breaks R355 completes at once (17 R356). -/
def State.recordInvalid (s : State) (p : Nat) (r : LaunchRec) : State :=
  (s.takeRecord p).complete p (if r.kind = 2 then 0 else r.comp) r.stok (r.flags % 2 == 1) 8 0

/-- LAUNCH_RECORD (R356): The dispatcher takes a KIND 1 record, which takes a pool entry and waits on its token. -/
def execLaunchRecord (s : State) : Out :=
  .next (
    let p := s.ev.a
    let r := s.recordAt p
    match s.takesRecord p && s.recordOk p r && r.kind == 1, s.poolFree p with
    | true, some e =>
      let s := (s.takeRecord p).takePool p e
      let (s, id) := s.newId p
      let g : Grid := { Grid.idle with
        st := .waiting
        part := p
        id := id
        ctx := id
        asid := r.asid
        prio := r.prio
        kern := getP Kernel.idle (s.part p).templates r.template
        nteams := r.teams
        pool := some e
        args := r.args
        sb := r.sb
        sz := r.sz
        host := true
        comp := r.comp
        sigtok := r.stok
        irq := r.flags % 2 == 1
        waittok := r.wtok
        waitval := r.wval }
      let (s, i) := s.addGrid g
      s.recordWaits (r.waits p i)
    | _, _ => if s.takesRecord p && !s.recordOk p r then s.recordInvalid p r else s)

/-- SKIP_RECORD (R359): A KIND 0 record completes when its dependence holds, placing nothing. -/
def execSkipRecord (s : State) : Out :=
  .next (
    let p := s.ev.a
    let r := s.recordAt p
    if s.takesRecord p && s.recordOk p r && r.kind == 0 then (s.takeRecord p).recordWaits (r.waits p 0) else s)

/-- RESTORE_RECORD (R359): A KIND 2 record restores the team at an image address when its dependence holds. -/
def execRestoreRecord (s : State) : Out :=
  .next (
    let p := s.ev.a
    let r := s.recordAt p
    if s.takesRecord p && s.recordOk p r && r.kind == 2 then (s.takeRecord p).recordWaits (r.waits p 0) else s)

/-- The event by which the next record of a partition is taken. -/
def State.takeEvent (s : State) (p : Nat) : Instr :=
  let r := s.recordAt p
  if !s.recordOk p r then .launchRecord else if r.kind = 0 then .skipRecord else if r.kind = 2 then .restoreRecord else .launchRecord

/-! ## Device launch (09 R248-R250) -/

/-- The team leader (02 R41): its warp and lane. -/
def State.leader (s : State) (t : Nat) : Option (Nat × Nat) :=
  (s.team t).warps.findSome? fun w =>
    if (s.warp w).live && (s.warp w).team == t then
      ((List.range 64).find? fun l => ((s.warp w).lane l).st != .exited).map fun l => (w, l)
    else none

/-- The status of a `LAUNCH` of `n` teams. -/
def State.launchStatus (s : State) (o : Ops) (n : Nat) : Nat :=
  match s.leader s.me.team with
  | some (w, l) =>
    if w ≠ s.cur || !s.passReal o l then 3
    else if n = 0 || 2 ^ 24 < n then 4
    else if s.myTeam.depth = 10 then 2
    else if (s.poolFree (s.partOf s.cur)).isNone then 1
    else 0
  | none => 3

/-- The child grid (09 R248; 02 R44, R48): placed 520 cc after issue, once the release is done. -/
def State.launchGrid (s : State) (o : Ops) (k : Kernel) (n e : Nat) : State × Nat :=
  let p := s.partOf s.cur
  let t := s.myTeam
  let s := s.takePool p e
  let (s, id) := s.newId p
  let g : Grid := { Grid.idle with
    st := .pending
    part := p
    id := id
    ctx := t.ctx
    depth := t.depth + 1
    parent := if t.bin.isSome then none else some t.grid
    asid := t.asid
    prio := t.prio
    kern := k
    nteams := n
    pool := some e
    readyAt := s.now + 520
    args := (List.range 8).map fun j => s.me.sreg (o.s3.val.toNat + j)
    drain := some (s.me.core, s.seq) }
  let (s, _) := s.addGrid g
  let s := if t.bin.isSome then s else s.onGrid t.grid fun x => { x with kids := x.kids + 1 }
  (s, s.poolHandle p e)

/-- LAUNCH (R248): Launches a child grid from the team leader, or returns a failure status. -/
def execLaunch (o : Ops) (s : State) : Out :=
  memExec (.launch o) (fun s _ o =>
    let p := s.partOf s.cur
    let n := s.uni o o.s1
    let i := o.imm.toNat % 2 ^ 16
    if s.act = 0 then s.advance
    else if (s.part p).templates.length ≤ i then s.faultAll 0x01
    else
      let st := s.launchStatus o n
      let (t, h) := match (if st = 0 then s.poolFree p else none) with
        | some e => s.launchGrid o (getP Kernel.idle (s.part p).templates i) n e
        | none => (s, 0)
      let t := t.onMe fun x =>
        { (x.mapLanes fun l y => if s.act.getLsbD l then y.setPred o.pd.toNat (st == 0) else y).setSN o.dst.toNat 2 (h + 2 ^ 32 * st) with
          busyTo := s.now + 24 }
      let t := t.advance
      if st ≠ 0 && s.selected s.cur && (getP 0 s.dbgctl p).getLsbD 1 then t.trap s.cur ⟨0x12, 0, s.ipc, BitVec.ofNat 32 st⟩ else t) s

/-- The status of a launch handle (09 R249, R250): none while the child runs. -/
def State.handleStatus (s : State) (h : Nat) : Option Nat :=
  let e := (s.part (s.partOf s.cur)).entry (h % 2 ^ 13)
  let q := h / 2 ^ 13
  if q = 0 then some 7
  else if e.busy && e.seq = q then none
  else if e.lastSeq = q then some e.lastSt
  else some 7

/-- LWAIT (R250): Waits for a child grid to retire and acquires. Phase 1 waits for the child, phase 2 for the earlier loads of the warp. -/
def execLwait (o : Ops) (s : State) : Out :=
  memExec (.lwait o) (fun s _ o =>
    let h := (s.me.sreg o.s1.val.toNat).toNat
    let last := ((s.part (s.partOf s.cur)).entry (h % 2 ^ 13)).lastAt
    if s.act = 0 then s.advance
    else
      match s.handleStatus h with
      | none => s.stallAs 1 0
      | some st =>
        if s.phase = 1 && last = s.now then s.stallAs 1 0
        else if s.acqWaits then s.stallAs (if s.phase = 0 then 2 else s.phase) 0
        else
          ((s.onMe fun x => x.setS o.dst.toNat (BitVec.ofNat 32 st)).acquire true).advance
            (if s.phase = 1 then max 1 (last + 60 - s.now) else 8)) s

/-- LPOLL (R250): Polls a child grid and acquires unless it is running. -/
def execLpoll (o : Ops) (s : State) : Out :=
  memExec (.lpoll o) (fun s _ o =>
    if !s.anyPass o then s.advance
    else
      match s.handleStatus (s.me.sreg o.s1.val.toNat).toNat with
      | none => (s.onMe fun x => x.setS o.dst.toNat 0xFFFFFFFF).advance
      | some st => (s.onMe fun x => x.setS o.dst.toNat (BitVec.ofNat 32 st)).acquireNext true 1) s

/-! ## Pre-emption (15 R334; 17 R358) -/

/-- The resident teams that a request names, with the whole port group of each (03 R77). -/
def State.preqTeams (s : State) (p : Nat) (id : Word) (n : Nat) (all : Bool) : List Nat :=
  let mine := (List.range s.teams.length).filter fun t => (s.team t).live && (s.team t).part == p && (s.team t).gridId == id
  mine.filter fun t => all || mine.any fun u => (s.team u).num == n && (s.team u).base == (s.team t).base
/-- A request (17 R358), ignored before stage 3 (20 R405): the leases of each named team are revoked, and each of its warps takes class 0x13. -/
def State.preq (s : State) (p : Nat) (v : DWord) : State :=
  if s.stage < 4 then s else (s.preqTeams p (BitVec.ofNat 32 (v.toNat / 2 ^ 32)) (v.toNat / 2 ^ 8 % 2 ^ 24) (v.getLsbD 0)).foldl (fun s t =>
    ((s.team t).warps.filter fun w => (s.warp w).live && (s.warp w).team == t).foldl (fun s w =>
      s.later 0 .preemptTrap w) (s.revokeTeam t)) s

/-- PREEMPT_REQUEST (R358): A PREQ write names resident teams, whose leases are revoked and whose warps are to take class 0x13. -/
def execPreemptRequest (s : State) : Out := .next (if s.ev.a < 6 && !s.d3hot then s.preq s.ev.a s.ev.v else s)

/-- PREEMPT_TRAP (R334): A warp of a named team takes class 0x13, subcode 0, at its next boundary outside handler mode; a request that comes in a
handler run waits (15 R323). -/
def execPreemptTrap (s : State) : Out :=
  .next (
    let w := s.ev.a
    let x := s.warp w
    if !x.live || x.ended || x.traps.any (fun t => t.cls == 0x13) then s
    else s.trap w ⟨0x13, 0, 0, 0⟩)

/-! ## Killed contexts (18 R377) -/

/-- The grids of a context that are over retire, children first. -/
def State.gridsOver (s : State) (gs : List Nat) : Nat → State
  | 0 => s
  | n + 1 =>
    match gs.find? fun g => (s.grid g).over with
    | some g => (s.gridOver g).gridsOver gs n
    | none => s

/-- A context is killed: its warps end, its leases are revoked, its tile references drop, and its grids end `KILLED`. -/
def State.killContext (s : State) (p : Nat) (ctx : Word) : State :=
  let s := s.logError 3 0 p ctx 0
  let ts := (List.range s.teams.length).filter fun t => (s.team t).live && (s.team t).part == p && (s.team t).ctx == ctx
  let s := ts.foldl (fun s t =>
    ((s.team t).warps.filter fun w => (s.warp w).live && (s.warp w).team == t).foldl (fun s w => s.endWarp w) (s.revokeTeam t)) s
  let gs := (List.range s.grids.length).filter fun g => (s.grid g).st != .free && (s.grid g).part == p && (s.grid g).ctx == ctx
  let ids := gs.map fun g => (s.grid g).id
  let s := s.dropSaves fun k => k.part == p && (k.gridId == ctx || ids.contains k.gridId)
  let s := gs.foldl (fun s g => s.onGrid g fun x => { x with st := .pending, next := x.nteams, saved := [], status := 6 }) s
  let s := s.onPart p fun x => { x with waits := x.waits.filter fun w => !(w.kind == 1 && gs.contains w.grid) }
  s.gridsOver gs (gs.length + 1)
/-- The kills that wait are carried out. -/
def State.runKills (s : State) : State :=
  s.kills.foldl (fun s k => s.killContext k.1 k.2) { s with kills := [] }

/-! ## Meeting release and the greed limit (02 R28, R53) -/

/-- A meeting value whose held threads are released: no running thread of the warp carries it. -/
def Warp.released (x : Warp) : Option DWord :=
  if x.hmode then none
  else
    ((List.range 64).map x.lane).findSome? fun y =>
      if y.st == .held && !((List.range 64).any fun k => (x.lane k).st == .running && (x.lane k).meet == y.meet) then some y.meet else none

/-- MEETING_RELEASE (R28): Every thread held at a meeting value is released together once no running thread of the warp carries it. -/
def execMeetingRelease (s : State) : Out :=
  .next (
    let w := s.ev.a
    let m := s.ev.v
    if (s.warp w).live && (s.warp w).released == some m then
      s.onWarp w fun x => x.mapLanes fun _ y => if y.st == .held && y.meet == m then { y with st := .running, meet := noMeeting } else y
    else s)

/-- A quarter whose warp has issued 256 consecutive times, or has yielded, when it chooses next. -/
def State.greedy (s : State) : Option Nat :=
  (List.range s.quarters.length).find? fun q =>
    256 ≤ (s.quarter q).greed && (List.range s.warps.length).any fun w => s.eligible w && (s.warp w).unit == q

/-- GREED_LIMIT (R53): A warp that has issued 256 consecutive times, or has yielded, goes to the youngest position when another warp is
ready; otherwise its count starts again. -/
def execGreedLimit (s : State) : Out :=
  .next (
    let u := s.ev.a
    let q := s.quarter u
    let other := (List.range s.warps.length).any fun w => s.eligible w && (s.warp w).unit == u && w != q.last
    s.onQuarter u fun q =>
      { q with greed := 0, young := if other then (q.last, s.now) :: q.young.filter fun e => e.1 != q.last else q.young })

end Sys2Proof.Machine
end

