-- ==== Sys2Proof/Machine/Engine.lean ====
section
/-!
DEFINITION. The progress of engine commands (10 R274-R277): their arrival at an engine and their tickets, the items in flight, the delivery of an
item's writes (10 R275, R279, R280; 11 R293; 06 R144-R148), and completion.
-/
namespace Sys2Proof.Machine

/-- The engine class of a command (10 R268, R278-R284). -/
def CmdKind.cls : CmdKind → Nat
  | .trace => 0
  | .attr => 1
  | .thresh => 2
  | .rast => 3
  | .gather => 4
  | .scatr => 4
  | .decode => 5
  | .coll => 6
/-- For whom a command reads. -/
def State.cmdAgent (s : State) (x : Cmd) : Agent :=
  ⟨s.partOf x.warp, (match x.lease with
    | some l => (s.lease l).sector
    | none => sectorOf x.core), x.asid, s.ctxOf x.warp, x.core, x.seq⟩
/-- Record scalars as numbers. -/
def Cmd.w (x : Cmd) (k : Nat) : Nat := (getP 0 x.words k).toNat
def Cmd.w2 (x : Cmd) (k : Nat) : Nat := x.w k + 2 ^ 32 * x.w (k + 1)

/-- Physical lines of a range of virtual addresses. -/
def State.linesAt (s : State) (g : Agent) (va n : Nat) : List Nat :=
  if n = 0 then []
  else (List.range ((va % 128 + n + 127) / 128)).filterMap fun k => (s.quietVa g ((lineOf va + 128 * k) % 2 ^ 64)).map lineOf

/-! ## Progress of a command -/

/-- The command that an event means. -/
def State.cmdIs (s : State) : Bool :=
  (s.cmd s.ev.a).live && (s.ev.v == 0 || s.ev.v == BitVec.ofNat 64 (s.cmd s.ev.a).seq)
def Cmd.tag (x : Cmd) : DWord := BitVec.ofNat 64 x.seq
/-- An event of a command at a cycle: `b` says what, and `k` names an item or an index line. -/
def State.cmdAt (s : State) (c t b : Nat) (k : Nat := 0) : State := s.schedule t (.ev .engineItemStart ⟨c, b, k, (s.cmd c).tag, []⟩)

/-- Writes that leave now, with the cycle in which each acts (06 R415): a line after the way to its home and the wait at its link, scratch after 24
cc (09 R233). -/
def State.leaveWrite (s : State) (g : Agent) (w : Write) : State × Sent :=
  match w with
  | .line _ pa q _ _ =>
    let la := lineOf pa
    let (s, wait) := s.linkWait g.part g.sec la s.now
    (s, ⟨s.now + wait + s.oneWay g.port g.part la q.slr false, s.genOf g.part la, true, some w⟩)
  | .scratch _ _ => (s, ⟨s.now + 24, 0, true, some w⟩)
  | _ => (s, ⟨s.now, 0, true, some w⟩)
/-- Some writes leave now. -/
def State.leaveAll (s : State) (c : Nat) (ws : List Write) : State × List Sent :=
  ws.foldl (fun (a : State × List Sent) w =>
    let (s, x) := a.1.leaveWrite (s.cmdAgent (s.cmd c)) w
    (s.cmdAt c x.due 1, a.2 ++ [x])) (s, [])

/-- A command whose items are all over, or that starts no more, completes 4 cc after its last write (10 R275). Elements of a `SCATR` that
still wait for others of their line are delivered first. -/
def State.settleCmd (s : State) (c : Nat) : State :=
  let x := s.cmd c
  if x.live && x.flight.isEmpty && !x.ending && (x.stopped || (x.count != 0 && x.count ≤ x.next)) then
    if x.parts.isEmpty then
      let t := max x.doneAt s.now + 4
      (s.onCmd c fun x => { x with ending := true }).schedule t (.ev .engineCommandComplete ⟨c, 0, 0, x.tag, []⟩)
    else
      let (s, outs) := s.leaveAll c x.parts
      s.onCmd c fun x => { x with parts := [], flight := [⟨x.next, Reading.idle, some outs⟩] }
  else s

/-- ENGINE_COMMAND_ARRIVAL (R275): A command reaches an engine of its lease 12 cc after issue. -/
def execEngineCommandArrival (s : State) : Out :=
  .next (
    let c := s.ev.a
    let x := s.cmd c
    if !s.cmdIs then s
    else
      match x.lease with
      | none => s
      | some l =>
        let y := s.lease l
        let e := getP 0 y.engines (y.rot % y.engines.length)
        let s := (s.onLease l fun y => { y with rot := y.rot + 1 }).onCmd c fun x => { x with arrived := true, engine := e }
        if s.nextCmd e = some c && (s.engine e).st == .leased then s.later 0 .engineItemStart c 0 0 x.tag else s)

/-- ENGINE_COMMAND_COMPLETE (R275): A command's status becomes final and CP falls. -/
def execEngineCommandComplete (s : State) : Out :=
  .next (if s.cmdIs then s.finishCmd s.ev.a (s.cmd s.ev.a).status else s)

/-- The command ends with a status: no later item starts (10 R275). -/
def State.stopCmd (s : State) (c word : Nat) : State :=
  if (s.cmd c).stopped then s else s.onCmd c fun x => { x with stopped := true, status := word }
/-- An item meets an error (10 R275): items after it that have written nothing do not go on (log entry 98). -/
def State.failItem (s : State) (c key word : Nat) : State :=
  let s := ((s.stopCmd c word).stopPass c).onCmd c fun x =>
    { x with
      flight := x.flight.filter fun it => it.key != key && (it.key < key || it.sent.isSome)
      doneAt := max x.doneAt s.now
      tile := none }
  s.settleCmd c

/-! ## Writes of an item -/

/-- The way from an engine to the home of a line and back from it. -/
def State.wayTo (s : State) (g : Agent) (pa : Nat) : Nat := s.oneWay g.port g.part (lineOf pa) false false
def State.wayBack (s : State) (g : Agent) (pa : Nat) (slr : Bool) : Nat :=
  s.pathLat g.port g.part (lineOf pa) slr false - s.oneWay g.port g.part (lineOf pa) slr false

/-- A line put over another where a mask says so. -/
def maskPut (d new : BitVec 1024) (mask : BitVec 128) : BitVec 1024 :=
  (List.range 128).foldl (fun d k => if mask.getLsbD k then linePut d k 1 (lineGet new k 1) else d) d
/-- One delivery to a line is made: the command gives it up with its last (06 R146, R148). -/
def State.giveUp (s : State) (c la : Nat) : State := (s.onCmd c fun x => { x with owned := x.owned.erase la }).resumeLine la

/-- The pages of a write's lines, translated one after another from cycle `t` on and checked under R222 (10 R275): the cycle that they have
reached, the writes with their physical addresses, and the first class that fails. -/
def State.transWrites (s : State) (g : Agent) : Nat → List Write → State × Nat × List Write × Option Nat
  | t, [] => (s, t, [], none)
  | t, .line va _ _ d mask :: r =>
    if !canonical va then (s, t, [], some 5)
    else
      let (s, x) := s.sectorLookup g.part g.sec [] g.asid va t
      let t := max t x.ready
      (match s.checkAcc g.part (Need.plain true 1) va x with
      | .bad c _ => (s, t, [], some c)
      | .ok pa slr cmp page =>
        let q : LineAttr := ⟨slr, cmp, page, s.now⟩
        let (s, t, ws, b) := s.transWrites g t r
        (s, t, .line va pa q d mask :: ws, b))
  | t, w :: r =>
    let (s, t, ws, b) := s.transWrites g t r
    (s, t, w :: ws, b)

/-- The contents of a tile that `.clr` sets (10 R279). -/
def clearedLine (k : Nat) : BitVec 1024 :=
  BitVec.ofNat 1024 (if k < 16 then (List.range 16).foldl (fun v _ => v * 2 ^ 64 + 2 ^ 63) 0
    else (List.range 32).foldl (fun v _ => v * 2 ^ 32 + 0x3F800000) 0)

/-- A pixel passes the depth test against the lines of its tile (10 R279): `f` gives line `j` of the tile. -/
def pixelPasses (f : Nat → BitVec 1024) (k : Nat) (ident : DWord) (depth : Word) : Bool :=
  let oi := lineGet (f (k / 16)) (8 * (k % 16)) 8
  let od := fp32.decode (lineGet (f (16 + k / 32)) (4 * (k % 32)) 4)
  let nd := fp32.decode depth.toNat
  nd.lt od || (nd.eq od && ident.toNat < oi)

/-- How a pixel of `RAST` goes at the home of its tile: it stalls, it waits for a recall or a scan until a cycle, or it is done. -/
inductive PixelStep where
  | stalls
  | later (s : State) (t : Nat)
  | done (s : State)

/-- A pixel reaches its tile (10 R279; 05 R120, R122; 11 R293): as one event its depth is tested and it is written. A tile that is not closed
and not open stalls it; the first write opens a closed tile, where the budget allows. -/
def State.putPixel (s : State) (c va k : Nat) (ident : DWord) (depth : Word) (test clr : Bool) : PixelStep :=
  let x := s.cmd c
  let g := s.cmdAgent x
  let ls := s.linesAt g va 3072
  let li := getP 0 ls (k / 16)
  let ld := getP 0 ls (16 + k / 32)
  let settled (s : State) : PixelStep := .done ((s.giveUp c li).giveUp c ld)
  let write (s : State) : State :=
    let s := s.deliverGlobal g.part x.core li false false (fun d => linePut d (8 * (k % 16)) 8 ident.toNat) false
    s.deliverGlobal g.part x.core ld false false (fun d => linePut d (4 * (k % 32)) 4 depth.toNat) false
  let stands (j : Nat) : BitVec 1024 := s.quietLine { g with bound := 0 } (getP 0 ls j)
  let ts := s.conflictsAt li true ++ s.conflictsAt ld true
  if ls.isEmpty then .done s
  else if !ts.isEmpty then .later (s.recallAll ts) (s.now + 1)
  else
    match s.refusedAt g.port li (s.genOf g.part li), s.tile (getP 0 ls 0) with
    | some (t, _), _ => .later s t
    | none, some t => if t.st != .opened then .stalls else settled (if test && !pixelPasses stands k ident depth then s else write s)
    | none, none =>
      if test && !pixelPasses (if clr then clearedLine else stands) k ident depth then settled s
      else if s.tileBudget g.part ≤ s.tilesOf g.part then .stalls
      else
        let s := s.openTile g.part ls
        let s := if clr then
            (List.range ls.length).foldl (fun s j => s.deliverGlobal g.part x.core (getP 0 ls j) false false (fun _ => clearedLine j) true) s
          else s
        settled (write s)

/-- The tile of a pixel no longer stalls it. -/
def State.tileFree (s : State) (g : Agent) (va : Nat) : Bool :=
  match (s.quietVa g va).bind s.tile with
  | some t => t.st == .opened
  | none => s.tilesOf g.part < s.tileBudget g.part

/-- The thresher's pass is complete (10 R280; 11 R293; 05 R120, R121). -/
def State.passDone (s : State) (c : Nat) : State :=
  match (s.cmd c).tile with
  | some a =>
    let s := (s.onTile a fun t => { t with running := none, resume := 0, st := .shading }).onCmd c fun x => { x with tile := none }
    (match s.tile a with
    | some t => if t.refs = 0 then s.closeTile a else s
    | none => s)
  | none => s

/-- The place of the first group among some writes. -/
def headKey : List Sent → Nat
  | ⟨_, _, _, some (.record _ _ _ k)⟩ :: _ => k
  | _ => 0
/-- A record or group of a command has entered its bin: a group takes its reference on the tile (05 R121), and the tile notes the group that
follows. -/
def State.entered (s : State) (c : Nat) (rest : List Sent) : State :=
  match (s.cmd c).tile with
  | some a => ((s.takeRef a).onTile a fun t => { t with resume := headKey rest }).onCmd c fun x => { x with spawned := x.spawned + 1 }
  | none => s
/-- The group that follows is spawned 2 cc later (10 R280). -/
def nextGroup (now : Nat) : List Sent → List Sent
  | x :: r => { x with due := now + 2 } :: r
  | [] => []

/-- How the arrival of records at a bin goes. -/
inductive Arrival where
  | entered (s : State)
  | waits (s : State)
  | refused
/-- Records of a command arrive at a bin (02 R49, R50, R52). -/
def State.arriveAtBin (s : State) (c b : Nat) (recs : List BinRec) (quad : Bool) : Arrival :=
  let x := s.cmd c
  let y := s.bin b
  let prio := (s.team x.team).prio
  if !y.live || y.refuses x.asid then .refused
  else if y.waiting.isEmpty && y.fits s.now quad recs then .entered (s.binPut b (y.padded quad recs) x.asid prio)
  else .waits (s.onBin b fun y => { y with waiting := y.waiting ++ [⟨recs, quad, x.asid, prio, some c, none⟩] })

/-- The writes of an item that are due: the state, what is left, and whether a record's bin has refused it. A write that arrives waits for a
scan, for its way after a refusal (17 R362, R363) and for a recall (06 R152); it is over with its acknowledgement. -/
def State.runWrites (s : State) (c : Nat) : List Sent → State × List Sent × Bool
  | [] => (s, [], false)
  | x :: r =>
    let g := s.cmdAgent (s.cmd c)
    let keep (s : State) (x : Sent) : State × List Sent × Bool :=
      let (s, l, b) := s.runWrites c r
      (s, x :: l, b)
    let at_ (s : State) (t : Nat) (x : Sent) : State × List Sent × Bool := keep (s.cmdAt c t 1) { x with due := t }
    if x.due ≠ s.now then keep s x
    else
      match x.w with
      | none => s.runWrites c r
      | some w =>
        if !x.left then
          let (s, x) := s.leaveWrite g w
          keep (s.cmdAt c x.due 1) x
        else
          match w with
          | .scratch p bs =>
            (match p with
            | .scr t off h hoff => s.deliverScratch t off h hoff bs
            | .glob _ => s).runWrites c r
          | .line _ pa q d mask =>
            let la := lineOf pa
            (match s.refusedAt g.port la x.gen with
            | some (t, gen) => at_ s t { x with gen := gen }
            | none =>
              if !(s.conflictsAt la true).isEmpty then at_ (s.recallAll (s.conflictsAt la true)) (s.now + 1) x
              else
                let s := (s.onCmd c fun y => { y with owned := y.owned.filter (· != la) }).deliverGlobal g.part (s.cmd c).core la q.slr q.cmp
                  (fun old => maskPut old d mask) (mask == BitVec.allOnes 128)
                let n := s.wayBack g pa q.slr
                if n = 0 then (s.resumeLine la).runWrites c r else at_ (s.resumeLine la) (s.now + n) { x with w := none })
          | .pixel va k ident depth test clr =>
            (match s.putPixel c va k ident depth test clr with
            | .stalls => (s, (x :: r).map fun y => { y with due := 0 }, false)
            | .later s t => (s.cmdAt c t 1, (x :: r).map fun y => { y with due := t }, false)
            | .done s =>
              if r.isEmpty then
                let n := max 1 ((s.quietVa g va).elim 0 fun pa => s.wayBack g pa false)
                (s.cmdAt c (s.now + n) 1, [{ x with due := s.now + n, w := none }], false)
              else s.runWrites c r)
          | .record b recs quad _ =>
            (match s.arriveAtBin c b recs quad with
            | .entered s =>
              let s := s.entered c r
              (if r.isEmpty then s else s.cmdAt c (s.now + 2) 1, nextGroup s.now r, false)
            | .waits s => (s, { x with due := 0 } :: r, false)
            | .refused => (s, [], true))

/-- The items in flight are what is left: a free place lets the next item start 1 cc later. -/
def State.putFlight (s : State) (c : Nat) (old : Nat) (items : List Item) : State :=
  let x := s.cmd c
  let done := items.length < old
  let s := s.onCmd c fun x =>
    { x with
      flight := items
      doneAt := if done then s.now else x.doneAt
      startAt := if done && x.blocked then max x.startAt (s.now + 1) else x.startAt
      blocked := x.blocked && !done }
  let s := if x.kind == .thresh && done && items.isEmpty && !x.stopped then s.passDone c else s
  let s := if done && x.blocked && !x.stopped then s.later 1 .engineItemStart c 0 0 x.tag else s
  s.settleCmd c

/-- The items whose writes are due, in item order. A group that its bin refuses ends the pass with `FAULT` (10 R280). -/
def State.runItems (s : State) (c : Nat) : List Item → State × List Item
  | [] => (s, [])
  | it :: r =>
    match it.sent with
    | none =>
      let (s, l) := s.runItems c r
      (s, it :: l)
    | some ws =>
      let (s, left, refused) := s.runWrites c ws
      let s := if refused then ((s.stopCmd c 0x55).stopPass c).onCmd c fun x => { x with tile := none } else s
      let (s, l) := s.runItems c r
      (s, if left.isEmpty then l else { it with sent := some left } :: l)

/-- Everything of a command that is due in this cycle. -/
def State.deliverItems (s : State) (c : Nat) : State :=
  let fl := (s.cmd c).flight
  let (s, items) := s.runItems c fl
  s.putFlight c fl.length items

/-- BIN_WAITING_ENTRY (R50): A record or quad group waiting at a full bin enters in the first cycle in which its room is free. -/
def execBinWaitingEntry (s : State) : Out :=
  .next (
    let b := s.ev.a
    let y := s.bin b
    match y.waiting with
    | [] => s
    | a :: r =>
      if !(y.live && y.fits s.now a.quad a.recs) then s
      else
        let s := (s.onBin b fun y => { y with waiting := r }).binPut b (y.padded a.quad a.recs) a.asid a.prio
        match a.warp, a.cmd with
        | some w, _ => s.spawnDone w
        | none, some c =>
          let fl := (s.cmd c).flight
          let mine (it : Item) : Bool :=
            match it.sent with
            | some (⟨0, _, _, some (.record k recs _ _)⟩ :: _) => k == b && recs == a.recs
            | _ => false
          (match fl.findIdx? mine with
          | none => s
          | some i =>
            let it := getP ⟨0, Reading.idle, none⟩ fl i
            let rest := (it.sent.getD []).drop 1
            let s := s.entered c rest
            if rest.isEmpty then s.putFlight c fl.length (fl.eraseIdx i)
            else (s.cmdAt c (s.now + 2) 1).onCmd c fun x =>
              { x with flight := setP ⟨0, Reading.idle, none⟩ fl i { it with sent := some (nextGroup s.now rest) } })
        | none, none => s)

/-- A command whose next pixel waited for a tile that it can now write (11 R293). -/
def State.rastResume (s : State) : Option Nat :=
  (List.range s.cmds.length).find? fun c =>
    let x := s.cmd c
    x.live && x.kind == .rast && x.flight.any fun it =>
      match it.sent with
      | some (⟨0, _, _, some (.pixel va _ _ _ _ _)⟩ :: _) => s.tileFree (s.cmdAgent x) va
      | _ => false

/-- RAST_STALL_RESUME (R293): A RAST write stalled on a busy tile or a full budget proceeds once a tile closes. -/
def execRastStallResume (s : State) : Out :=
  .next (
    let c := s.ev.a
    let s := s.onCmd c fun x =>
      { x with flight := x.flight.map fun it => { it with sent := it.sent.map fun l => l.map fun y => if y.due = 0 then { y with due := s.now } else y } }
    s.deliverItems c)

/-! ## Tickets (10 R277) -/

/-- The ticket slot and sequence of a ticket; none where the warp's slot has served another command since. -/
def State.ticketOf (s : State) (t : Nat) : Option Ticket :=
  let k := getP ticketIdle s.me.tickets (t % 64)
  if t / 64 ≠ 0 && k.seq == t / 64 then some k else none
/-- The command of a ticket in flight. -/
def State.cmdOf (s : State) (t : Nat) : Option Nat :=
  (List.range s.cmds.length).find? fun c => (s.cmd c).live && (s.cmd c).warp == s.cur && (s.cmd c).ticket == t % 64 && (s.cmd c).tseq == t / 64

/-- ECANC (R277): Cancels a command once its current items finish. -/
def execEcanc (o : Ops) (s : State) : Out :=
  memExec (.ecanc o) (fun s _ o =>
    let t := s.uni o o.s1
    if !s.anyPass o then s.advance
    else
      match (if (s.ticketOf t).isSome then s.cmdOf t else none) with
      | none => s.advance 2
      | some c =>
        let x := s.cmd c
        if x.lease.isNone || x.stopped || x.ending then s.advance 2
        else
          let s := s.stopCmd c 7
          -- A pass ends between its groups (10 R280), and a collective that waits for its ranks has no write under way.
          let s := if x.kind == .thresh || (x.kind == .coll && x.others.isNone) then
              let s := (s.stopPass c).onCmd c fun x => { x with flight := [], tile := none }
              { s with bins := s.bins.map fun b =>
                  if b.waiting.any fun a => a.cmd == some c then { b with waiting := b.waiting.filter fun a => a.cmd != some c } else b }
            else s
          (s.settleCmd c).advance 2) s

/-- EPOLL (R277): Reads a command's status word. -/
def execEpoll (o : Ops) (s : State) : Out :=
  memExec (.epoll o) (fun s sh o =>
    if !s.anyPass o then s.advance
    else
      s.putPort sh o (match s.ticketOf (s.uni o o.s1) with
        | some k => k.status
        | none => 10)) s

/-- EWAIT (R277): Stalls until a command's status is final, then writes it. -/
def execEwait (o : Ops) (s : State) : Out :=
  memExec (.ewait o) (fun s sh o =>
    if !s.anyPass o then s.advance
    else
      match s.ticketOf (s.uni o o.s1) with
      | none => (s.putPort sh o 10).nextIn 1
      | some k =>
        if k.busy then s.stallAs 1 0
        else (s.putPort sh o k.status).nextIn (max (s.now + 1) (k.final + 4) - s.now)) s

end Sys2Proof.Machine
end

