-- ==== Sys2Proof/Machine/Qos.lean ====
section
/-!
DEFINITION. Partitions at a context boundary (17 R352, R353), interleave domains and their commits (17 R360-R364; 18 R375, R385),
bandwidth shares (17 R367-R369), the engine budget (17 R370) and carve-outs (05 R118).
-/
namespace Sys2Proof.Machine

/-! ## Context boundaries (17 R353) -/

/-- No team is resident. -/
def State.vacant (s : State) : Bool := !(s.teams.any (·.live))
/-- No grid is taken or pending. -/
def State.noGrid (s : State) : Bool := !(s.grids.any fun g => g.st != .free)
def State.boundary (s : State) : Bool := s.vacant && s.noGrid && s.tiles.isEmpty

/-! ## Bandwidth shares (17 R367-R369) -/

/-- The requests that wait for tokens at a core's port, in issue order. -/
def State.atPort (s : State) (core : Nat) : List Nat :=
  ((List.range s.reqs.length).filter fun i => (s.req i).live && (s.req i).port && (s.req i).core == core).foldr (insertReq s) []
/-- Requests that now find a token leave in the next cycle. -/
def State.releasePort (s : State) (core : Nat) : State :=
  (s.atPort core).foldl (fun s i =>
    if !s.metered core then s.launchReq i (s.now + 1)
    else if getP 0 s.buckets core = 0 then s
    else (s.takeToken core (s.now + 1)).launchReq i (s.now + 1)) s
/-- The cores at whose ports requests wait. -/
def State.waitingPorts (s : State) : List Nat := ((s.reqs.filter fun r => r.live && r.port).map (·.core)).eraseDups
/-- Every bucket is full (17 R368). -/
def State.fillBuckets (s : State) : State :=
  let s : State := { s with buckets := (List.range 576).map fun c => (s.share (s.partOfSector (sectorOf c))).1 }
  s.waitingPorts.foldl State.releasePort s

/-- The idle state as it has reached a core by the end of the previous cycle. -/
def State.idleView (s : State) (p : Nat) : Bool :=
  let x := s.part p
  if x.idleAt = s.now + 1 then !x.idleSeen else x.idleSeen
/-- EXTRA (17 R369). -/
def State.extra (s : State) (q : Nat) : Nat :=
  let ps := (List.range 6).filter fun p => (s.share p).2 != 0 && !(s.sectorsOf p).isEmpty
  let weight (l : List Nat) : Nat := l.foldl (fun n p => n + (s.share p).2 * (s.coresOf p).length) 0
  if s.idleView q then 0
  else weight (ps.filter s.idleView) * (s.share q).2 / weight (ps.filter fun p => !s.idleView p)

/-- The last refill cycle of a core, up to now. -/
def State.periodStart (s : State) (core : Nat) : Nat := s.now - s.cycle core % 1024
/-- The four most recent whole periods of a core hold no charge, nor does the present one. -/
def State.quietCore (s : State) (core : Nat) : Bool :=
  let t := getP 0 s.lastCharge core
  t == 0 || t + 4096 ≤ s.periodStart core
/-- A metered core whose period ends in this cycle. -/
def State.refillDue (s : State) : Option Nat :=
  if (List.range 6).all fun p => (s.share p).2 == 0 then none
  else (List.range 576).find? fun c =>
    s.metered c && s.coreLive c && getP 0 s.refilled c != s.now + 1 && s.cycle c % 1024 == 0
/-- A partition whose idle state changes in this cycle. -/
def State.idleDue (s : State) : Option Nat :=
  if (List.range 6).all fun p => (s.share p).2 == 0 then none
  else (List.range 6).find? fun p =>
    (s.share p).2 != 0 && (if (s.part p).idle then (s.coresOf p).any fun c => getP 0 s.lastCharge c == s.now + 1
      else (s.coresOf p).any (fun c => getP 0 s.refilled c == s.now + 1) && (s.coresOf p).all s.quietCore)

/-- BUCKET_REFILL (R368): At every 1,024th cycle of a core, its bucket is refilled with REFILL plus EXTRA, up to BURST. -/
def execBucketRefill (s : State) : Out :=
  .next (
    let c := s.ev.a
    let p := s.partOfSector (sectorOf c)
    let q := s.share p
    if q.2 = 0 then s
    else
      let t : State := { (s.tokenless c).foldl (fun s i => s.onLineop i fun o => { o with waits := true }) s with
        buckets := setP 0 s.buckets c (min q.1 (getP 0 s.buckets c + q.2 + s.extra p))
        refilled := setP 0 s.refilled c (s.now + 1) }
      t.releasePort c)

/-- PARTITION_IDLE_CHANGE (R369): A metered partition becomes idle, or stops being idle. -/
def execPartitionIdleChange (s : State) : Out :=
  .next (
    let p := s.ev.a
    let now_ := !(s.part p).idle
    (s.onPart p fun x => { x with idle := now_ }).later 64 .idleStateArrival p (if now_ then 1 else 0))

/-- IDLE_STATE_ARRIVAL (R369): An idle-state change reaches every core 64 cc after it occurs. -/
def execIdleStateArrival (s : State) : Out :=
  .next (s.onPart s.ev.a fun x =>
    if x.idleSeen = (s.ev.b == 1) then x else { x with idleSeen := s.ev.b == 1, idleAt := s.now + 1 })

/-- TKSHARE is written (17 R366-R368). -/
def State.writeTkshare (s : State) (i : Nat) (v : DWord) : State :=
  let put (m : DWord) : State := { s with tkshare := setP 0 s.tkshare i (v &&& m) }
  if i < 6 then (put 0xFFFFFFFF).fillBuckets else if i = 6 then (put 0xFFFF).fillBuckets else s

/-- TKSHARE_WRITE (R368): A write to TKSHARE sets the bucket parameters and fills every bucket. -/
def execTkshareWrite (s : State) : Out := .next (s.writeTkshare s.ev.a s.ev.v)

/-- PARTCFG is written (17 R352, R353): a halted partition starts again (18 R378). -/
def State.writePartcfg (s : State) (v : DWord) : State :=
  if s.boundary && s.filledSlices.isEmpty then
    let t : State := { s with
      partcfg := v &&& 7
      lastCharge := []
      parts := s.parts.map fun x => { x with halted := false, idle := false, idleSeen := false } }
    t.fillBuckets
  else s

/-- PARTCFG_WRITE (R353): Sets the partitions and the L2 mode at a context boundary, and is ignored otherwise. -/
def execPartcfgWrite (s : State) : Out := .next (s.writePartcfg s.ev.v)

/-! ## The engine budget (17 R370) -/

/-- Grace starts on the youngest leases until those in grace would free enough tokens. -/
def State.graceYoungest (s : State) (sec : Nat) : List Nat → State
  | [] => s
  | l :: r =>
    let tokens (k : Nat) : Nat := (s.lease k).engines.foldl (fun n e => n + engTokens e) 0
    let freed := ((s.leasesOf sec).filter fun k => (s.lease k).grace.isSome).foldl (fun n k => n + tokens k) 0
    if s.tokensUsed sec ≤ s.budget sec + freed then s
    else if (s.lease l).grace.isSome then s.graceYoungest sec r
    else (s.startGrace l .budget).graceYoungest sec r
/-- Leases, youngest first. -/
def State.insertYoung (s : State) (l : Nat) : List Nat → List Nat
  | [] => [l]
  | k :: r => if (s.lease k).granted < (s.lease l).granted then l :: k :: r else k :: s.insertYoung l r
/-- ENGBUDGET is written. -/
def State.writeEngbudget (s : State) (sec : Nat) (v : DWord) : State :=
  if 6 ≤ sec then s
  else
    let s : State := { s with engbudget := setP 40 s.engbudget sec (v &&& 0xFF) }
    let s := s.sleepOver sec
    (s.graceYoungest sec ((s.leasesOf sec).foldr s.insertYoung [])).onSector sec fun k => { k with touched := s.now + 1 }

/-- ENGBUDGET_WRITE (R370): A write to ENGBUDGET sets a sector budget, sleeping idle engines and starting grace when tokens exceed it. -/
def execEngbudgetWrite (s : State) : Out := .next (s.writeEngbudget s.ev.a s.ev.v)

/-! ## Carve-outs (05 R118) -/

/-- HARVEST marks a slice as absent (18 R374). -/
def State.sliceLive_ (s : State) (sl : Nat) : Bool := !(getP 0 s.harvest (9 + sl / 64)).getLsbD (sl % 64)
/-- SLMCARVE is written (05 R118, R131; 18 R375; log entry 33): at a context boundary with the slice flushed and unpinned. -/
def State.writeSlmcarve (s : State) (sl : Nat) (v : DWord) : State :=
  if sl < 96 && s.sliceLive_ sl && s.boundary && !s.filledSlices.contains sl && !(s.l2.any fun x => x.slice == sl && (x.slm || x.pinned)) then
    { s with slmcarve := setP 0 s.slmcarve sl (BitVec.ofNat 64 (Nat.min 2 (v.toNat % 4))) }
  else s

/-- SLMCARVE_WRITE (R118): Sets a slice's carve-out at a context boundary with the slice flushed. -/
def execSlmcarveWrite (s : State) : Out := .next (s.writeSlmcarve s.ev.a s.ev.v)

/-! ## Interleave domains (17 R360-R364) -/

/-- The state with another committed map. -/
def State.withMap (s : State) (hash slices : List DWord) : State := { s with hashLive := hash, sliceLive := slices }
/-- The slice of a line's home. -/
def State.homeSlice (s : State) (la : Nat) : Option Nat :=
  match s.homeAny la with
  | .slice _ sl => some sl
  | _ => none
/-- The map that a commit of some domains would give. -/
def State.nextHash (s : State) (doms : BitVec 16) : List DWord :=
  (List.range 32).map fun i =>
    if doms.getLsbD (i / 2) then
      (if i % 2 = 0 then
        (getP 0 s.hashmask i &&& ~~~(0xFF#64 <<< 48)) ||| (BitVec.ofNat 64 ((s.domGen (i / 2) + 1) % 256) <<< 48)
      else getP 0 s.hashmask i)
    else getP 0 s.hashLive i
def State.nextSlices (s : State) (doms : BitVec 16) : List DWord :=
  (List.range 256).map fun i => if doms.getLsbD (i / 16) then getP 0 s.slicetab i else getP 0 s.sliceLive i

/-- A commit that is refused (17 R362; 18 R375, R385): `t` is the state with the new map. -/
def State.commitBad (s t : State) (doms : BitVec 16) : Bool :=
  let w (d : Nat) : DWord := t.window d
  let on (d : Nat) : Bool := (w d).getLsbD 63
  let base (d : Nat) : Nat := (w d).toNat % 2 ^ 12
  let limit (d : Nat) : Nat := (w d).toNat / 2 ^ 16 % 2 ^ 12
  let entries (d : Nat) : List Nat := (List.range 16).map fun e => (getP 0 t.sliceLive (16 * d + e)).toNat % 2 ^ 7
  let ds := List.range 16
  ds.any (fun d => ds.any fun e => d < e && on d && on e && base d ≤ limit d && base e ≤ limit e && base d ≤ limit e && base e ≤ limit d) ||
  ds.any (fun d => doms.getLsbD d && (entries d).any fun sl => 95 < sl || !s.sliceLive_ sl) ||
  (s.partcfg.getLsbD 2 && ds.any fun d => doms.getLsbD d && (entries d).any fun sl =>
    s.partOfSector (sl / 16) != s.partOfSector (getP 0 (entries d) 0 / 16)) ||
  ds.any (fun d => doms.getLsbD d && on d && 2048 ≤ limit d) ||
  s.l2.any fun x => !x.isRefl && (x.pinned || x.slm) && s.homeSlice x.addr != t.homeSlice x.addr

/-- The lines whose home changes (17 R362: orphans). -/
def State.orphans (s t : State) : List L2Line := s.l2.filter fun x => !x.isRefl && s.homeSlice x.addr != t.homeSlice x.addr
/-- A scan runs, or has ended in this cycle. -/
def State.scanBusy (s : State) : Bool :=
  match s.scan with
  | some k => s.now ≤ k.endAt
  | none => false
/-- A commit (17 R362): the scan's end, or none where it is refused. -/
def State.commit (s : State) (doms : BitVec 16) : State × Option Nat :=
  let hash := s.nextHash doms
  let slices := s.nextSlices doms
  let t := s.withMap hash slices
  if s.commitBad t doms then (s, none)
  else
    let dirty := (s.orphans t).filter (·.dirty)
    let most := (List.range 96).foldl (fun m sl => max m (dirty.filter fun x => x.slice == sl).length) 0
    let e := s.now + 8 + 2048 + if dirty.isEmpty then 0 else 340 + most
    (({ s with scan := some ⟨e, doms, hash, slices⟩ }).schedule e (.ev .commitScanEnd EvArg.none_), some e)

/-- HASHMASK_COMMIT (R362): A write to HASHMASK index 32 commits staged domains or is refused, and on success starts the orphan scan. -/
def execHashmaskCommit (s : State) : Out :=
  .next (if s.scanBusy then s.schedule (s.now + 1) (.ev .hashmaskCommit s.ev) else (s.commit (s.ev.v.setWidth 16)).1)

/-- COMMIT_SCAN_END (R362): The orphan scan ends: GEN increases and the core ports hold the new map. -/
def execCommitScanEnd (s : State) : Out :=
  .next (
    match s.scan with
    | none => s
    | some k =>
      if k.endAt ≠ s.now then s
      else
        let t := (s.orphans (s.withMap k.hash k.slices)).foldl State.evict s
        let old (r : Req) : Option Nat := match s.homeOf (s.reqPart r) r.line with
          | .slice d sl => if k.mask.getLsbD d then some sl else none
          | _ => none
        (s.waitingReqs fun r => (old r).isSome).foldl (fun t i => t.refuse i ((old (s.req i)).getD 0)) (t.withMap k.hash k.slices))

/-- A write to HASHMASK or SLICETAB is staged (17 R360). -/
def State.stageHash (s : State) (i : Nat) (v : DWord) : State :=
  { s with hashmask := setP 0 s.hashmask i (v &&& (if i % 2 = 0 then 0x800000000FFF0FFF else 0x7FFFFFFFF)) }
def State.stageSlice (s : State) (i : Nat) (v : DWord) : State := { s with slicetab := setP 0 s.slicetab i (v &&& 0x7F) }

end Sys2Proof.Machine
end

