-- ==== Sys2Proof/Machine/Fabric.lean ====
section
/-!
DEFINITION. Coherence objects and tenures as system software and other devices see them (06 R151-R153; 18 R387-R389), Drathes links (18
R379-R383), header errors (18 R378), and stacked memory: bank loss, gleaning and remap (18 R390-R395).
-/
namespace Sys2Proof.Machine

/-! ## Coherence objects (18 R387, R388) -/

/-- The shape of an object: base, rows, row bytes, stride. -/
structure ObjShape where
  base : Nat
  rows : Nat
  rowBytes : Nat
  stride : Nat
def State.objShape (s : State) (o base : Nat) : ObjShape :=
  ⟨base, s.objWord o 1 / 2 ^ 32, s.objWord o 1 % 2 ^ 32, s.objWord o 2⟩
/-- The limits of R387. -/
def ObjShape.ok (x : ObjShape) (self : Nat) : Bool :=
  x.base / 2 ^ 42 == self && 1 ≤ x.rows && x.rowBytes % 128 == 0 && x.stride % 128 == 0 && (x.rows == 1 || x.rowBytes ≤ x.stride)
/-- The bytes from `a` on, `w` of them, meet a row of the object. -/
def ObjShape.meets (x : ObjShape) (a w : Nat) : Bool :=
  let j := if a < x.base + x.rowBytes || x.stride = 0 then 0 else (a - x.base - x.rowBytes) / x.stride + 1
  w != 0 && x.rowBytes != 0 && j < x.rows && x.base + j * x.stride < a + w && a < x.base + j * x.stride + x.rowBytes
/-- Two objects overlap. -/
def ObjShape.overlaps (x y : ObjShape) : Bool := (List.range x.rows).any fun i => y.meets (x.base + i * x.stride) x.rowBytes

def State.objEnabled (s : State) (o : Nat) : Bool := (getP 0 s.objtab (8 * o)).getLsbD 63
/-- An object may be enabled with a base address (18 R388). -/
def State.objAllowed (s : State) (o base : Nat) : Bool :=
  let x := s.objShape o base
  x.ok s.self && !((List.range (s.objtab.length / 8 + 1)).any fun k =>
    k != o && s.objEnabled k && x.overlaps (s.objShape k (s.objWord k 0 / 2 ^ 7 % 2 ^ 45 * 2 ^ 7)))
def State.setObj (s : State) (o k : Nat) (v : DWord) : State := { s with objtab := setP 0 s.objtab (8 * o + k) v }

/-- Word 0 of an object is written with EN clear before or set (18 R388): FLAG clears with a 1, and EN is set where the shape allows it. The
base of an enabled object stays (log entry 50). -/
def State.writeObject (s : State) (o : Nat) (v : DWord) : State :=
  let old := getP 0 s.objtab (8 * o)
  let flag := old &&& ~~~v &&& (1 <<< 62)
  let base := if old.getLsbD 63 then old &&& 0xFFFFFFFFFFF80 else v &&& 0xFFFFFFFFFFF80
  let on := v.getLsbD 63 && (old.getLsbD 63 || s.objAllowed o (v.toNat / 2 ^ 7 % 2 ^ 45 * 2 ^ 7))
  s.setObj o 0 (base ||| flag ||| (if on then 1 <<< 63 else 0))
/-- The tenures of an object. -/
def State.tenuresOf (s : State) (o : Nat) : List Tenure := s.tenures.filter fun t => t.obj == o
/-- A write that clears EN: whether every tenure is gone; else they are recalled (18 R388). -/
def State.disableObject (s : State) (o : Nat) (v : DWord) : State × Bool :=
  if (s.tenuresOf o).isEmpty then
    let flag := getP 0 s.objtab (8 * o) &&& ~~~v &&& (1 <<< 62)
    (s.setObj o 0 ((v &&& 0xFFFFFFFFFFF80) ||| flag), true)
  else (s.recallAll (s.tenuresOf o), false)
/-- A write that would clear EN. -/
def State.disables (s : State) (o : Nat) (v : DWord) : Bool := s.objEnabled o && !v.getLsbD 63

/-- OBJECT_ENABLE (R388): A write that sets EN in OBJTAB enables a coherence object when its shape is valid. -/
def execObjectEnable (s : State) : Out :=
  .next (if s.ev.a < 4096 then s.writeObject s.ev.a (s.ev.v ||| (1 <<< 63)) else s)

/-- OBJECT_DISABLE (R388): A write that clears EN stalls until every tenure of the object is recalled or reverted. -/
def execObjectDisable (s : State) : Out :=
  .next (
    let v := s.ev.v &&& ~~~(1#64 <<< 63)
    if s.ev.a < 4096 && s.disables s.ev.a v then
      match s.disableObject s.ev.a v with
      | (t, true) => t
      | (t, false) => t.schedule (s.now + 1) (.ev .objectDisable s.ev)
    else s)

/-- OBJECT_FLAG_CLEAR (R388): Writing 1 to FLAG clears an object's flag. -/
def execObjectFlagClear (s : State) : Out :=
  .next (if s.ev.a < 4096 then s.setObj s.ev.a 0 (getP 0 s.objtab (8 * s.ev.a) &&& ~~~(1#64 <<< 62)) else s)

/-- Words 1 to 3 of an object that is not enabled. -/
def State.writeObjWord (s : State) (o k : Nat) (v : DWord) : State :=
  if s.objEnabled o then s else s.setObj o k (if k = 3 then v &&& 0xFFFF else v)
/-- Word 4 of an object (18 R387). -/
def State.objStatus (s : State) (o : Nat) : DWord :=
  let ts := s.tenuresOf o
  let w := ts.find? (·.write)
  BitVec.ofNat 64 (2 ^ 32 * (ts.filter fun t => !t.write).length + (match w with
    | some t => 2 ^ 31 + 2 ^ 10 * (t.dev % 2 ^ 10)
    | none => 0)) ||| (if (getP 0 s.objtab (8 * o)).getLsbD 62 then getP 0 s.objtab (8 * o + 4) &&& 0x3FF else 0)

/-! ## Tenures (06 R152, R153; 18 R389) -/

/-- *T* of an object. -/
def State.tenure (s : State) (o : Nat) : Nat := tenureTime (s.objWord o 3 % 2 ^ 16)
def State.tenureAt (s : State) (o dev : Nat) : Option Tenure := s.tenures.find? fun t => t.obj == o && t.dev == dev
def State.onTenure (s : State) (o dev : Nat) (f : Tenure → Tenure) : State :=
  { s with tenures := s.tenures.map fun t => if t.obj == o && t.dev == dev then f t else t }
def State.dropTenure (s : State) (o dev : Nat) : State :=
  { s with tenures := s.tenures.filter fun t => !(t.obj == o && t.dev == dev) }
/-- Requests that waited for a recall of an object go on (06 R152). -/
def State.resumeObject (s : State) (o : Nat) : State :=
  (((s.reqs.filter fun r => r.live && r.waits && s.inObject o r.line).map (·.line)).eraseDups).foldl State.resumeLine s

/-- TENURE_RECALL_TIMEOUT (R153): A recall unanswered for the recall bound stops renewals and starts the 2T wait. -/
def execTenureRecallTimeout (s : State) : Out :=
  .next (
    let o := s.ev.a
    let dev := s.ev.b
    match s.tenureAt o dev with
    | some t =>
      if t.recalled.map (· + recallBound dev) = some s.now && !t.noRenew then
        (s.onTenure o dev fun t => { t with noRenew := true }).later (2 * s.tenure o) .tenureRevert o dev
      else s
    | none => s)

/-- TENURE_REVERT (R153): After 2T the home reverts the holder's lines, flags the object and completes the waiting request. -/
def execTenureRevert (s : State) : Out :=
  .next (
    let o := s.ev.a
    let dev := s.ev.b
    match s.tenureAt o dev with
    | some t =>
      if t.noRenew then
        let s := ((s.dropTenure o dev).setObj o 0 (getP 0 s.objtab (8 * o) ||| (1 <<< 62))).setObj o 4 (BitVec.ofNat 64 (dev % 2 ^ 10))
        (s.logError 10 0 o 0 (s.objWord o 0 / 2 ^ 7 % 2 ^ 45 * 2 ^ 7)).resumeObject o
      else s
    | none => s)

/-- A holder asks for a tenure, for writing or not (06 R152). -/
def State.askTenure (s : State) (o dev : Nat) (write : Bool) : State :=
  let rivals := (s.tenuresOf o).filter fun t => t.dev != dev && (t.write || write)
  if !s.objEnabled o || (getP 0 s.objtab (8 * o)).getLsbD 62 then s
  else if rivals.isEmpty then
    let w := write || ((s.tenureAt o dev).map (·.write)).getD false
    let s := s.dropTenure o dev
    { s with
      tenures := ⟨o, dev, w, s.now + s.tenure o, none, false⟩ :: s.tenures
      l2 := if write then s.l2.filter fun x => !(x.isRefl && s.inObject o x.addr) else s.l2 }
  else (s.recallAll rivals).schedule (s.now + 1) (.ev .tenureRenewal s.ev)

/-- TENURE_RENEWAL (R389): A renewal message from a holder reaches the home, which restarts its count. The operand `a` names the object, `b`
the device, and `c` the message (log entry 51): 0 a renewal, 1 and 2 a request for a read and a write tenure, 3 a line written back (address
`v`), 4 the end of a recalled tenure, 5 a request for the line at `v` under its tenure. -/
def execTenureRenewal (s : State) : Out :=
  .next (
    let o := s.ev.a
    let dev := s.ev.b
    match s.ev.c with
    | 0 => s.onTenure o dev fun t => if t.noRenew then t else { t with until_ := s.now + s.tenure o }
    | 1 => s.askTenure o dev false
    | 2 => s.askTenure o dev true
    | 3 =>
      if ((s.tenureAt o dev).map (·.write)).getD false && s.inObject o (lineOf s.ev.v.toNat) then
        s.pokeBytes (lineOf s.ev.v.toNat) ((s.ev.bytes ++ List.replicate 128 (0 : Byte)).take 128)
      else s
    | 5 =>
      -- The grant of the line carries its next generation (06 R150), and its use renews the tenure (06 R152).
      let la := lineOf s.ev.v.toNat
      if (s.tenureAt o dev).any (fun t => !t.noRenew) && s.inObject o la then
        (s.countGrant la).onTenure o dev fun t => { t with until_ := s.now + s.tenure o }
      else s
    | _ => (s.dropTenure o dev).resumeObject o)

/-- TENURE_LAPSE (R389): A holder whose own count lapses drops its copies without write-back. -/
def execTenureLapse (s : State) : Out :=
  .next (
    match s.heldOf s.ev.a with
    | none => s
    | some h =>
      if s.now < h.lapse then s.schedule h.lapse (.ev .tenureLapse s.ev)
      else { s with held := s.held.filter fun x => x.obj != s.ev.a })

/-- A line of a tenure that is given up is written back where it is dirty. -/
def State.giveBack (s : State) (l : HeldLine) : State := if l.dirty then s.farPut l.addr l.data else s
/-- RECALL_AT_HOLDER (R152): A recall from a remote home reaches this device as the holder of a tenure, which writes back its dirty lines of
the object and gives up the tenure. The operand `c` is 1 for an invalidation of the one line at `v`, whose generation is `b` (06 R150):
a copy of another generation stays. -/
def execRecallAtHolder (s : State) : Out :=
  .next (
    match s.heldOf s.ev.a with
    | none => s
    | some h =>
      if s.ev.c = 1 then
        let named (l : HeldLine) : Bool := l.addr == lineOf s.ev.v.toNat && l.gen.toNat == s.ev.b
        let s := (h.lines.filter named).foldl State.giveBack s
        { s with held := s.held.map fun x => if x.obj == s.ev.a then { x with lines := x.lines.filter fun l => !named l } else x }
      else
        let s := h.lines.foldl State.giveBack s
        { s with held := s.held.filter fun x => x.obj != s.ev.a })

/-! ## Links (18 R379-R383) -/

/-- The flit of an action of a thread's request or of a copy: the line on whose way it is, whether it comes back from there, and the age
of the access. -/
def State.flitOf (s : State) (a : Act) : Option (Nat × Bool × Nat) :=
  let req (i : Nat) (back : Bool) : Option (Nat × Bool × Nat) := if (s.req i).live then some ((s.req i).line, back, (s.req i).seq) else none
  match a with
  | .ev .requestArrival x => req x.a false
  | .ev .loadReply x => req x.a true
  | .ev .storeAcknowledge x => if x.b = 1 then none else req x.a true
  | .ev .copyLineDelivery x =>
    let o := s.lineop x.a
    if !o.live then none
    else if x.b = 1 then some (x.c, false, o.seq)
    else if x.b = 0 then o.dstLine.map fun la => (la, false, o.seq)
    else none
  | _ => none
/-- A request of an engine that is on the way over a link, and arrives at cycle `t` or later, comes 640 cc later. -/
def State.delayRead (s : State) (l t : Nat) (x : Reading) : Reading :=
  if t ≤ x.due && x.ask.any fun a => a.left && !a.refl && s.linkOf (lineOf a.pa) == some l then { x with due := x.due + 640 } else x
def State.delaySent (s : State) (l t : Nat) (x : Sent) : Sent :=
  match x.w with
  | some (.line _ pa _ _ _) => if x.left && t ≤ x.due && s.linkOf (lineOf pa) == some l then { x with due := x.due + 640 } else x
  | _ => x
/-- The requests of a command, and of the deliveries of a warp, are delayed; each acts at its new cycle. -/
def State.delayCmd (s : State) (l t c : Nat) : State :=
  let s := s.onCmd c fun x =>
    { x with
      idx := x.idx.map (s.delayRead l t)
      flight := x.flight.map fun it => { it with read := s.delayRead l t it.read, sent := it.sent.map fun ws => ws.map (s.delaySent l t) } }
  let x := s.cmd c
  let s := x.idx.foldl (fun s y => match y.ask with
    | some a => s.cmdAt c y.due 5 a.va
    | none => s) s
  x.flight.foldl (fun s it => match it.sent with
    | none => if it.read.ask.isSome then s.cmdAt c it.read.due 3 it.key else s
    | some ws => ws.foldl (fun s y => if y.due = 0 then s else s.cmdAt c y.due 1) s) s
def State.delayWarp (s : State) (l t w : Nat) : State :=
  let s := s.onWarp w fun x => { x with deliv := x.deliv.map fun d => { d with read := d.read.map (s.delayRead l t) } }
  (s.warp w).deliv.foldl (fun s d => match d.read with
    | some y => if y.ask.isSome then s.schedule y.due (.ev .laneDelivery ⟨w, d.lane, (s.warp w).placed, 1, []⟩) else s
    | none => s) s
/-- FLIT_REPLAY (R379): A Drathes flit that fails its CRC is rejected and replayed: the flit of request `b` and the later ones of its direction
on link `a` are delayed, those of copies, of commands and of deliveries too. Bit 0 of the operand `c` is set where the flit comes back. -/
def execFlitReplay (s : State) : Out :=
  .next (
    let l := s.ev.a
    let r := s.req s.ev.b
    let back := s.ev.c % 2 == 1
    let late (d : Due) : Bool := (s.flitOf d.act).any fun f => s.linkOf f.1 == some l && f.2.1 == back && r.seq ≤ f.2.2
    let first := s.agenda.find? fun d => late d && (s.flitOf d.act).any fun f => f.1 == r.line && f.2.2 == r.seq
    let s := (s.agenda.filter late).foldl (fun s d => s.schedule (d.at_ + 640) d.act)
      { s with agenda := s.agenda.filter fun d => !late d }
    match first with
    | some d =>
      if back then s
      else (List.range s.warps.length).foldl (State.delayWarp · l d.at_)
        ((List.range s.cmds.length).foldl (State.delayCmd · l d.at_) s)
    | none => s)

/-- LINK_DOWN (R383): A link goes down after failed replays or a loss of training, and contexts with requests on it are killed. Bit `c` of the
operand `v` says that engine command `c` has one. -/
def execLinkDown (s : State) : Out :=
  .next (
    let l := s.ev.a % 16
    if !s.drcfg.getLsbD (16 + l) then s
    else
      let onIt (pa : Nat) : Bool := s.linkOf pa == some l
      let glob (p : Place) : Bool := match p with
        | .glob pa => onIt pa
        | .scr _ _ _ _ => false
      let ws := (s.reqs.filter fun r => r.live && onIt r.line).map (fun r => (s.memop r.op).warp) ++
        (s.lineops.filter fun o => o.live && o.sent.isSome && o.moves.any fun m => glob m.1 || glob m.2.1).map (fun o => (s.memop o.op).warp) ++
        ((List.range s.cmds.length).filter fun c => (s.cmd c).live && s.ev.v.getLsbD c).map fun c => (s.cmd c).warp
      let t := (ws.foldl (fun s w => s.killCtx (s.partOf w) (s.ctxOf w)) s).logError 5 0 l 0 0
      { t with drcfg := t.drcfg &&& ~~~(1#64 <<< (16 + l)) })

/-! ## Header errors (18 R378) -/

/-- A partition halts: its contexts are killed, and it takes no more records. -/
def State.haltPartition (s : State) (p : Nat) : State :=
  let cs := ((s.grids.filter fun g => g.st != .free && g.part == p).map (·.ctx)) ++ (s.teams.filter fun t => t.live && t.part == p).map (·.ctx)
  ((cs.foldl (fun s c => s.killCtx p c) s).onPart p fun x => { x with halted := true, bells := [] }).later 20000 .partitionHaltComplete p

/-- HEADER_ERROR (R378): A header flit that fails its CRC halts its partition, or every partition under shared L2. -/
def execHeaderError (s : State) : Out :=
  .next (
    let p := s.partOfSector (s.ev.a % 6)
    let ps := if s.npart != 0 && !s.partcfg.getLsbD 2 then (List.range 6).filter fun q => !(s.sectorsOf q).isEmpty else [p]
    ps.foldl (fun s q => if (s.part q).halted then s else s.haltPartition q) s)

/-- PARTITION_HALT_COMPLETE (R378): A halting partition logs completion within 20,000 cc: its tiles close without write-back, and the lines
of its slices are invalidated, dirty lines that are not poisoned written back. -/
def execPartitionHaltComplete (s : State) : Out :=
  .next (
    let p := s.ev.a
    if !(s.part p).halted then s
    else
      let ts := s.tiles.filter fun t => t.part == p
      let mine (sl : Nat) : Bool := s.partOfSector (sl / 16) == p
      let s : State := { s with
        tiles := s.tiles.filter fun t => t.part != p
        l2 := s.l2.filter fun x => !(ts.any fun t => t.lines.contains x.addr) }
      let ls := s.l2.filter fun x => mine x.slice && !x.slm && !x.isRefl
      let s := (ls.filter fun x => !x.poison).foldl State.writeBack s
      let s : State := { s with
        l2 := s.l2.filter fun x => !((mine x.slice && !x.slm) || (x.isRefl && ls.any fun y => y.addr == x.addr))
        filledSlices := s.filledSlices.filter fun sl => !mine sl }
      s.logError 4 0 p 0 0)

/-! ## Stacked memory (18 R390-R395) -/

/-- Column `b` of stack `k`. -/
def State.col (s : State) (k b : Nat) : Column := getP Column.whole s.columns (64 * k + b)
def State.onCol (s : State) (k b : Nat) (f : Column → Column) : State :=
  { s with columns := setP Column.whole s.columns (64 * k + b) (f (s.col k b)) }
/-- The bit of a bank in `CAPMAP`. -/
def State.bankLive (s : State) (k b l : Nat) : Bool := (getP 0 s.capmap (9 * k + l)).getLsbD b
def State.clearBank (s : State) (k b l : Nat) : State :=
  { s with capmap := setP 0 s.capmap (9 * k + l) (getP 0 s.capmap (9 * k + l) &&& ~~~(1#64 <<< b)) }

/-- BANK_LOSS (R392): A bank fails, moving its column to penumbra, unprotected or failed. The operands name the stack, the column and the
layer. -/
def execBankLoss (s : State) : Out :=
  .next (
    let k := s.ev.a % 2
    let b := s.ev.b % 64
    let l := s.ev.c % 9
    let c := s.col k b
    let at_ := 2 ^ 16 * k + 2 ^ 8 * b + l
    let dead := if c.dead.contains l then c.dead else l :: c.dead
    if !s.bankLive k b l then s.onCol k b fun c => { c with dead := dead }
    else
      let s := (s.clearBank k b l).logError 6 0 (64 * k + b) 0 at_
      match c.mode with
      | 0 =>
        if l = c.parity then s.onCol k b fun c => { c with mode := 2, lost := l, dead := dead }
        else (s.onCol k b fun c => { c with mode := 1, lost := l, glean := 0, gleanAt := s.now + 10, dead := dead }).later 10 .gleanStep k b
      | _ =>
        (s.onCol k b fun c => { c with mode := 3, failed := l :: c.failed, gleanAt := 0, dead := dead }).logError 9 0 (64 * k + b) 0 at_)

/-- GLEAN_STEP (R393): Gleaning rebuilds one position of the lost bank into layer 8 every 10 cc. -/
def execGleanStep (s : State) : Out :=
  .next (
    let k := s.ev.a % 2
    let b := s.ev.b % 64
    let c := s.col k b
    if c.mode ≠ 1 || c.gleanAt ≠ s.now then s
    else if c.glean + 1 = 786432 then
      (s.onCol k b fun c => { c with mode := 2, glean := 786432, gleanAt := 0 }).logError 7 0 (64 * k + b) 0 (2 ^ 16 * k + 2 ^ 8 * b)
    else (s.onCol k b fun c => { c with glean := c.glean + 1, gleanAt := s.now + 10 }).later 10 .gleanStep k b)

/-! ### The live map -/

/-- The healthy banks of a column in the layers that are on. -/
def State.healthy (s : State) (k b gate : Nat) : List Nat :=
  (List.range 9).filter fun l => !gate.testBit l && (Config.liveBanks (9 * k + l)).getLsbD b && !(s.col k b).dead.contains l
/-- Data banks of a column (18 R395). -/
def dataBanks (prot : Bool) (ls : List Nat) : Nat := if prot then ls.length - 1 else ls.length
/-- The live map of a stack: its part of the bank map, its columns and its capacity. -/
def State.mapStack (s : State) (k : Nat) (prot : Bool) (gate : Nat) : State :=
  let ls := (List.range 64).map fun b => s.healthy k b gate
  let cols := (List.range 64).map fun b =>
    (⟨if prot then 0 else 2, 15, 0, [], 0, (getP [] ls b).foldl max 0, (s.col k b).dead⟩ : Column)
  let s := (List.range 9).foldl (fun (s : State) l =>
    { s with capmap := setP 0 s.capmap (9 * k + l) ((List.range 64).foldl (fun (m : DWord) b =>
      if (getP [] ls b).contains l then m ||| (1 <<< b) else m) 0) }) s
  { s with
    columns := (List.range 64).foldl (fun cs b => setP Column.whole cs (64 * k + b) (getP Column.whole cols b)) s.columns
    stackMib := setP 0 s.stackMib k (96 * ls.foldl (fun n l => n + dataBanks prot l) 0) }
/-- Word 18 of `CAPMAP` under a generation. -/
def State.mapWord (s : State) (gen : Nat) : State :=
  let layers := (List.range 18).foldl (fun n i => if getP 0 s.capmap i != 0 then n + 2 ^ i else n) 0
  { s with capmap := setP 0 s.capmap 18 (BitVec.ofNat 64 (2 ^ 32 * (getP 0 s.stackMib 0 + getP 0 s.stackMib 1) + 2 ^ 24 * (gen % 256) +
      (if Config.tier2 then 2 ^ 18 else 0) + layers)) }

/-- A first-tier line of this device. -/
def State.firstTier (s : State) (a : Nat) : Bool := a / 2 ^ 42 == s.self && a % 2 ^ 42 < s.liveMib * 2 ^ 20
/-- Every cached line and reflection of a stack goes, without write-back. -/
def State.dropStack (s : State) (k : Nat) : State :=
  let there (a : Nat) : Bool := s.firstTier a && s.stackOf a == k
  { s with
    l2 := s.l2.filter fun x => !there x.addr
    l1 := s.l1.filter fun x => !there x.addr
    icache := s.icache.filter fun x => !there x.addr
    published := s.published.filter fun a => !there a }
/-- Every line of a stack is zero; the lines of stack 1 follow the capacity of stack 0 (18 R395; log entry 52). -/
def State.zeroStack (s : State) (k cap : Nat) : State :=
  let old := 2 ^ 20 * getP 0 s.stackMib 0
  let there (a : Nat) : Bool := s.firstTier a && s.stackOf a == k
  let shifts (a : Nat) : Bool := !there a && s.firstTier a && s.stackOf a == 1
  let moved (a : Nat) : Nat := if shifts a then a - old + cap else a
  { s with
    dram := (s.dram.filter fun c => shifts c.1).foldl (fun m c => Memory.put zeroByte m (moved c.1) [c.2])
      (s.dram.filter fun c => !there c.1 && !shifts c.1)
    poisoned := (s.poisoned.filter fun a => !there a).map moved }

/-- A remap of a stack goes on: its registers. -/
def State.remapSt (s : State) (k : Nat) : RemapSt := getP .none s.remaps k
def State.setRemap (s : State) (k : Nat) (r : RemapSt) : State := { s with remaps := setP .none s.remaps k r }
/-- REMAP is written (18 R395). -/
def State.writeRemap (s : State) (k : Nat) (v : DWord) : State :=
  let s : State := { s with remapReg := setP 0x200 s.remapReg k (v &&& 0x3FF) }
  let s := if v.getLsbD 62 && s.remapSt k == .waiting then s.setRemap k .none else s
  if v.getLsbD 63 && !v.getLsbD 62 && s.remapSt k == .none then s.setRemap k .waiting else s

/-- REMAP_GO (R395): Starts a remap, and dispatchers stop placing teams. -/
def execRemapGo (s : State) : Out :=
  .next (if s.ev.a < 2 then s.writeRemap s.ev.a ((s.ev.v &&& 0x3FF) ||| (1 <<< 63)) else s)

/-- REMAP_CANCEL (R395): Abandons a remap that is waiting. -/
def execRemapCancel (s : State) : Out :=
  .next (if s.ev.a < 2 then s.writeRemap s.ev.a ((getP 0x200 s.remapReg s.ev.a &&& 0x3FF) ||| (1 <<< 62)) else s)

/-- A stack whose remap can begin. -/
def State.remapReady (s : State) : Option Nat :=
  if s.vacant && s.tiles.isEmpty && !(s.grids.any fun g => g.st == .pending && g.liveTeams != 0) then
    (List.range 2).find? fun k => s.remapSt k == .waiting
  else none

/-- REMAP_RUN (R395): Once no team is resident and no tile is open, the remap invalidates, gates layers and begins zeroing. -/
def execRemapRun (s : State) : Out :=
  .next (
    let k := s.ev.a
    if s.remapReady = none || s.remapSt k != .waiting then s
    else
      let s := s.dropStack k
      let s := (List.range 64).foldl (fun s b => if (s.col k b).gleanAt = 0 then s else s.onCol k b fun c => { c with gleanAt := 0 }) s
      (s.setRemap k (.running (s.now + 7864320))).later 7864320 .remapComplete k)

/-- REMAP_COMPLETE (R395): The zeroing ends and CAPMAP, GEN, LIVEMIB and MEMSTAT are updated. -/
def execRemapComplete (s : State) : Out :=
  .next (
    let k := s.ev.a
    if s.remapSt k != .running s.now then s
    else
      let v := getP 0x200 s.remapReg k
      let t := s.mapStack k (v.getLsbD 9) (v.toNat % 2 ^ 9)
      let z := (s.dropStack k).zeroStack k (2 ^ 20 * getP 0 t.stackMib 0)
      (({ z with capmap := t.capmap, columns := t.columns, stackMib := t.stackMib }.mapWord (s.mapGen + 1)).setRemap k .none).logError
        8 0 k 0 0)

/-! ## The error log (18 R397) -/

/-- ERRLOG_CLEAR (R397): An SWR to ERRLOG index 0 clears the corrected and uncorrected counts. -/
def execErrlogClear (s : State) : Out := .next { s with errCorr := 0, errUncorr := 0 }

end Sys2Proof.Machine
end

