-- ==== Sys2Proof/Machine/Tlb.lean ====
section
/-!
DEFINITION. Invalidation of translations and mapping of pages (16 R346-R348), and flushing L2 (17 R365).
-/
namespace Sys2Proof.Machine

/-! ## TLBI -/

/-- What a `TLBI` drops (16 R346). -/
inductive Drop where
  | all
  | asid (a : Nat)
  | va (a v : Nat)
  deriving DecidableEq, Repr

/-- The TLBs of a scope around a core (16 R347). -/
def unitInScope (scope core unit : Nat) : Bool :=
  match scope with
  | 0 => unit == core
  | 1 => if unit < 576 then sectorOf unit == sectorOf core else unit - 576 == sectorOf core
  | _ => true
/-- An entry that is dropped. -/
def Drop.hits (d : Drop) (e : TlbEnt) : Bool :=
  match d with
  | .all => true
  | .asid a => !e.glob && e.asid == a
  | .va a v => a < 16384 && e.covers a v
/-- A walk whose page a `TLBI` names. -/
def Drop.hitsWalk (d : Drop) (k : Walk) : Bool :=
  match d, k.leaf with
  | .all, _ => true
  | d, some e => d.hits e
  | .asid a, none => k.asid == a
  | .va a v, none => k.asid == a && k.page == v / 4096
/-- Slice-resident lines that their mapping no longer holds: written back, and gone from the carve-out (05 R118; log entry 33). -/
def State.releaseSlm (s : State) (f : Nat → Bool) : State :=
  let ls := s.l2.filter fun x => x.slm && f x.addr
  { ls.foldl State.writeBack s with l2 := s.l2.filter fun x => !(x.slm && f x.addr) }
/-- A page of a TLB entry that the tables no longer map as slice-resident. -/
def State.unmapped (s : State) (e : TlbEnt) : Bool :=
  e.slr && !(((List.range 6).any fun p => (s.walkTables p e.asid e.va).leaf.any fun x => x.slr && x.pa == e.pa))
/-- Entries and walks of a scope go (16 R347), with the slice-resident lines of pages that are no longer mapped. -/
def State.dropTlb (s : State) (scope core : Nat) (d : Drop) : State :=
  let gone := s.tlb.filter fun e => unitInScope scope core e.unit && d.hits e && s.unmapped e
  let s := if gone.isEmpty then s else s.releaseSlm fun la => gone.any fun e => e.pa ≤ la && la < e.pa + pageBytes e.size
  { s with
    tlb := s.tlb.filter fun e => !(unitInScope scope core e.unit && d.hits e)
    walks := s.walks.map fun k =>
      if k.live && d.hitsWalk k && (unitInScope scope core (576 + k.sector) || k.cores.any (unitInScope scope core)) then { k with barred := true }
      else k }
/-- Some entry goes. -/
def State.dropsAny (s : State) (scope core : Nat) (d : Drop) : Bool := s.tlb.any fun e => unitInScope scope core e.unit && d.hits e

/-- An access of an address space went through a page whose entries are dropped. -/
def Drop.names (d : Drop) (asid va : Nat) (p : PageAttr) : Bool :=
  match d with
  | .all => true
  | .asid a => !p.glob && asid == a
  | .va a v => a < 16384 && (p.glob || asid == a) && va / pageBytes p.size == v / pageBytes p.size
/-- Reads of an engine that are under way through a dropped entry: asked for by cycle `t`, and not returned. -/
def Reading.through (x : Reading) (now t : Nat) (d : Drop) (asid : Nat) : Bool :=
  x.ask.any (fun a => a.attr.asked ≤ t && d.names asid a.va a.attr.page) ||
  x.lines.any fun l => now < l.ret && l.cls == 0 && l.attr.asked ≤ t && d.names asid l.va l.attr.page
/-- Writes of an engine that have not been performed. -/
def Sent.through (x : Sent) (t : Nat) (d : Drop) (asid : Nat) : Bool :=
  match x.w with
  | some (.line va _ q _ _) => q.asked ≤ t && d.names asid va q.page
  | _ => false
/-- Accesses in a scope that a `TLBI` still waits for (16 R347): those that were translated by the cycle `t` of the drop, or issued before
`bound`, through a dropped entry, of threads and copies, of commands and of deliveries (log entry 49). -/
def State.dropBusy (s : State) (scope core : Nat) (d : Drop) (t bound : Nat) : Bool :=
  let asid (w : Nat) : Nat := (s.team (s.warp w).team).asid
  let engines (c : Nat) : Bool := scope != 0 && unitInScope scope core c
  s.memops.any (fun m => m.live && m.seq < bound && m.left != 0 && unitInScope scope core m.core &&
    m.accs.any fun a => a.page.any (d.names (asid m.warp) a.va)) ||
  s.cmds.any (fun c => c.live && engines c.core &&
    (c.idx.any (·.through s.now t d c.asid) ||
      c.flight.any fun it => it.read.through s.now t d c.asid || (it.sent.getD []).any (·.through t d c.asid))) ||
  s.warps.any fun x => x.live && engines x.core && x.deliv.any fun y => y.read.any (·.through s.now t d (s.team x.team).asid)

/-- The cycles from the drop to completion. -/
def dropTime (scope : Nat) : Nat := if scope = 0 then 20 else if scope = 1 then 60 else 120

/-- `TLBI` (16 R347). Phase 1 waits for the drain set; in phase 2 the entries are gone, and the datum holds whether any went, the
bound of the accesses that are awaited and the cycle of the drop. -/
def State.tlbi (s : State) (o : Ops) (d : Drop) : State :=
  let scope := o.auxN
  let core := s.me.core
  if s.act = 0 then s.advance
  else if s.phase = 2 then
    let bound := s.datum / 32 % 2 ^ 64
    let t := s.datum / 2 ^ 69
    if s.now < t + dropTime scope || (s.datum % 32 != 0 && s.dropBusy scope core d t bound) then s.stallAs 2 s.datum else s.advance 0
  else if s.relWaits (1 ≤ scope) then s.stallAs 1 0
  else (s.dropTlb scope core d).stallAs 2 ((if s.dropsAny scope core d then 1 else 0) + 32 * s.seq + 2 ^ 69 * s.now)

/-- TLBI_ALL (R347): Drops every TLB entry in the scope. -/
def execTlbiAll (o : Ops) (s : State) : Out := memExec (.tlbiAll o) (fun s _ o => s.tlbi o .all) s

/-- TLBI_ASID (R347): Drops the non-global entries of one ASID. -/
def execTlbiAsid (o : Ops) (s : State) : Out := memExec (.tlbiAsid o) (fun s _ o => s.tlbi o (.asid (s.uni o o.s1))) s

/-- TLBI_VA (R347): Drops the entries whose page contains an address. -/
def execTlbiVa (o : Ops) (s : State) : Out := memExec (.tlbiVa o) (fun s _ o => s.tlbi o (.va (s.uni o o.s1) (s.uni64 o.s2))) s

/-- The published state of a range is cleared, and the instruction-cache copies in a scope are invalidated (16 R348); the codes of its
blocks start at 4 (05 R127), and it holds no slice-resident line of an earlier mapping. -/
def State.mapRange (s : State) (scope core pa n : Nat) : State :=
  let s := (s.rawBlocks pa (pa + n)).releaseSlm fun la => pa ≤ la && la < pa + n
  { s.icacheDrop (inScope scope core) pa (pa + n) with published := s.published.filter fun la => !(pa ≤ la && la < pa + n) }

/-- TLBI_MAP (R348): Clears the published state of a physical range and invalidates its instruction-cache copies. -/
def execTlbiMap (o : Ops) (s : State) : Out :=
  memExec (.tlbiMap o) (fun s _ o =>
    let pa := s.uni64 o.s1
    let k := s.uni o o.s2
    if s.act = 0 then s.advance
    else if pa % pageBytes (min k 8) ≠ 0 then s.faultAll 0x06
    else if 7 < k then s.faultAll 0x05
    else if s.phase = 2 then (if s.now < s.datum then s.stallAs 2 s.datum else s.advance 0)
    else if s.relWaits (1 ≤ o.auxN) then s.stallAs 1 0
    else (s.mapRange o.auxN s.me.core pa (pageBytes k)).stallAs 2 (s.now + 40 + (pageBytes k / 128 + 95) / 96)) s

/-! ## L2FL (17 R365) -/

/-- A line that a flush leaves untouched: pinned, in a carve-out, or a reflection. -/
def L2Line.stays (x : L2Line) : Bool := x.pinned || x.slm || x.isRefl
/-- The lines that a flush names are written back, and invalidated with their reflections; whether any was written back. -/
def State.flushLines (s : State) (inval : Bool) (f : L2Line → Bool) : State × Bool :=
  let ls := s.l2.filter fun x => !x.stays && f x
  let wb := ls.any (·.dirty)
  let s := ls.foldl State.writeBack s
  let gone (x : L2Line) : Bool := ls.any fun y => y.addr == x.addr
  (if inval then { s with l2 := s.l2.filter fun x => !(gone x || (x.isRefl && f x)) }
   else { s with l2 := s.l2.map fun x => if gone x && !x.isRefl then { x with dirty := false } else x }, wb)

/-- The largest number of lines of a range that one slice homes. -/
def State.rangeLoad (s : State) (p pa n : Nat) : Nat :=
  let hs := (List.range n).filterMap fun k => match s.homeOf p (pa + 128 * k) with
    | .slice _ sl => some sl
    | _ => none
  (List.range 96).foldl (fun m sl => max m (hs.filter (· == sl)).length) 0

/-- A flush: the wait for the drain set, then what it flushes and its time. In phase 2 the datum is the completion cycle. `k` ends it. -/
def State.flush (s : State) (inval : Bool) (f : L2Line → Bool) (time : Nat) (k : State → State) : State :=
  if s.phase = 2 then (if s.now < s.datum then s.stallAs 2 s.datum else (k s).advance 0)
  else if s.relWaits true then s.stallAs 1 0
  else
    let r := s.flushLines inval f
    r.1.stallAs 2 (s.now + 200 + time + if r.2 then 340 else 0)

/-- A range flush: its operands. -/
def State.rangeFlush (s : State) (o : Ops) (inval : Bool) : State :=
  let pa := s.uni64 o.s1
  let n := s.uni o o.s2
  if s.act = 0 then s.advance
  else if pa % 128 ≠ 0 then s.faultAll 0x06
  else if 65536 < n then s.faultAll 0x05
  else if n = 0 then (if s.relWaits true then s.stallAs 1 0 else s.advance)
  else s.flush inval (fun x => pa ≤ x.addr && x.addr < pa + 128 * n) (s.rangeLoad (s.partOf s.cur) pa n) id

/-- L2FL_WB (R365): Writes back the dirty lines of a range. -/
def execL2flWb (o : Ops) (s : State) : Out := memExec (.l2flWb o) (fun s _ o => s.rangeFlush o false) s

/-- L2FL_INV (R365): Writes back and invalidates the lines of a range. -/
def execL2flInv (o : Ops) (s : State) : Out := memExec (.l2flInv o) (fun s _ o => s.rangeFlush o true) s

/-- Slices that have been flushed whole (17 R353). -/
def State.emptied (s : State) (f : Nat → Bool) : State := { s with filledSlices := s.filledSlices.filter fun sl => !f sl }

/-- L2FL_SLICE (R365): Writes back and invalidates every line of one slice. -/
def execL2flSlice (o : Ops) (s : State) : Out :=
  memExec (.l2flSlice o) (fun s _ o =>
    let sl := s.uni o o.s1
    if s.act = 0 then s.advance
    else if 95 < sl || (s.partcfg.getLsbD 2 && s.partOfSector (sl / 16) != s.partOf s.cur) then s.faultAll 0x05
    else s.flush true (fun x => x.slice == sl) 2048 fun s => s.emptied (· == sl)) s

/-- L2FL_PART (R365): Writes back and invalidates every slice of the issuing partition. -/
def execL2flPart (o : Ops) (s : State) : Out :=
  memExec (.l2flPart o) (fun s _ _ =>
    let p := s.partOf s.cur
    let mine (sl : Nat) : Bool := s.partOfSector (sl / 16) == p
    if s.act = 0 then s.advance
    else s.flush true (fun x => mine x.slice) 2048 fun s => s.emptied mine) s

end Sys2Proof.Machine
end

