-- ==== Sys2Proof/Machine/Pager.lean ====
section
/-!
DEFINITION. The pager (16 R349, R350): doorbells of the request slots and the service of a request. When a request is served, and what its backing
holds, comes with the event.
-/
namespace Sys2Proof.Machine

/-- A slot number is written to `PAGEDB` (16 R349). -/
def State.pagerBell (s : State) (p : Nat) (v : DWord) : State :=
  if (getP 0 s.pageq p).getLsbD 0 && v.toNat < 256 then { s with pageDb := s.pageDb ++ [(p, v.toNat)] } else s

/-- PAGER_DOORBELL (R349): A write of a slot number to PAGEDB interrupts the Guluth control core. -/
def execPagerDoorbell (s : State) : Out := .next (if s.ev.a < 6 then s.pagerBell s.ev.a s.ev.v else s)

/-- The request in a slot (16 R349), as the pager takes it up; whether its subcode asks for a compressed page. -/
def State.pageReq (s : State) (p slot : Nat) : PageJob × Bool :=
  let a := (getP 0 s.pageq p).toNat / 2 ^ 12 % 2 ^ 40 * 2 ^ 12 + 32 * slot
  let w := s.peek a 4
  (⟨p, w % 2 ^ 14, s.peek (a + 8) 8, s.peek (a + 16) 8, 0, [], 0, 0, 0, 0, false, 0⟩, w / 2 ^ 24 == 1)
/-- The table of level `j` that an address indexes, from table `t` of level `n - 1` on (16 R338). -/
def State.tableAt (s : State) (va j : Nat) : Nat → Nat → Option Nat
  | 0, _ => none
  | n + 1, t =>
    if n = j then some t
    else
      let e := s.peek (t + 8 * (va / 2 ^ (12 + 6 * n) % (if n = 7 then 8 else 64))) 8
      if e % 4 = 1 then s.tableAt va j n (e / 2 ^ 9 % 2 ^ 43 * 2 ^ 9) else none
/-- The addresses of the copies of the leaf of a page (16 R339); none where no table holds them. -/
def State.leafSlots (s : State) (asid va k : Nat) : Option (List Nat) :=
  let e := s.peek (s.asidtab.toNat / 2 ^ 18 % 2 ^ 34 * 2 ^ 18 + 16 * asid) 8
  let j := k / 3
  let n := 4 ^ (k % 3)
  if !s.asidtab.getLsbD 0 || e % 2 = 0 then none
  else (s.tableAt va j 8 (e / 2 ^ 6 % 2 ^ 46 * 2 ^ 6)).map fun t =>
    let i := va / 2 ^ (12 + 6 * j) % (if j = 7 then 8 else 64) / n * n
    (List.range n).map fun c => t + 8 * (i + c)
/-- The completion word is written, and the job is over (16 R350 step 5). -/
def State.pageDone (s : State) (r : PageJob) (v : Nat) : State :=
  let s : State := { s with pageJob := none }
  match (if canonical r.comp then (s.walkTables r.part r.asid r.comp).leaf else none) with
  | some e => if e.ex then s else s.pokeNum (e.phys r.comp) 4 v
  | none => s

/-- The frame and the size code of the leaf that a job writes. -/
def PageJob.frame (r : PageJob) : Nat := r.leaf / 2 ^ 12 % 2 ^ 40 * 2 ^ 12
def PageJob.code (r : PageJob) : Nat := r.leaf / 4 % 16
/-- A job goes on in `n` cycles. -/
def State.pageOn (s : State) (r : PageJob) (n : Nat) : State := { s with pageJob := some r }.later n .pagerServe 4

/-- Compressed clusters, each filled up to a multiple of 128 bytes, decoded one after another to multiples of 128 (10 R282): the bytes, and
the cycles of the items; none where one is outside its limits (log entry 53). -/
def unpack : Nat → List Byte → Option (List Byte × Nat)
  | 0, _ => some ([], 0)
  | n + 1, bs =>
    if bs.isEmpty then some ([], 0)
    else
      let p := Packed.of (leNum (bs.take 32))
      if !p.ok then none
      else
        match p.decode (leNum (bs.take p.inBytes)), unpack n (bs.drop ((p.inBytes + 127) / 128 * 128)) with
        | some d, some r =>
          let lines := (d.length + 127) / 128
          some (d ++ List.replicate (128 * lines - d.length) 0 ++ r.1, p.nv + p.nt + lines + r.2)
        | _, _ => none
def PageJob.unpacked (r : PageJob) : Option (List Byte × Nat) := unpack r.packed.length r.packed

/-- The pager's lease. -/
def State.pagerLease (s : State) : Option Nat := s.leases.findIdx? fun l => l.live && l.team == pagerWarp
/-- The pager queues for one decode engine at priority 3 (16 R350; 10 R270). -/
def State.pagerQueues (s : State) (sec : Nat) : State :=
  if s.sectors.any fun k => k.queue.any fun q => q.warp == pagerWarp then s
  else s.onSector sec fun k => { k with queue := s.insertLeaseReq ⟨pagerWarp, 5, 1, 3, s.now⟩ k.queue, touched := s.now + 1 }
/-- Step 2 of a compressed page (16 R350): the decode lease is awaited, and with it the clusters are decoded. A sector that can never grant
it ends the request as one without backing, as clusters outside their limits do. -/
def State.pageLease (s : State) (r : PageJob) : State :=
  match r.unpacked with
  | none => s.pageDone r 1
  | some u =>
    match s.pagerLease with
    | some l => if (s.lease l).ready then s.pageOn { r with stage := 1, until_ := s.now + u.2 } u.2 else s.pageOn r 1
    | none =>
      if (s.classEngines r.sector 5).isEmpty || s.budget r.sector < classTokens 5 then s.pageDone r 1
      else (s.pagerQueues r.sector).pageOn r 1
/-- Step 3 of a page (16 R350): the next piece of the frame is mapped. -/
def State.pageMap (s : State) (r : PageJob) : State :=
  let n := pageBytes (min 7 r.code)
  (s.mapRange 2 0 (r.frame + n * r.piece) n).pageOn { r with stage := 2, piece := r.piece + 1 } (40 + (n / 128 + 95) / 96)
/-- The bytes of a page lie in its frame: it is mapped. -/
def State.pageCopied (s : State) (r : PageJob) (bytes : List Byte) : State :=
  (s.pokeBytes r.frame (bytes.take (pageBytes r.code))).pageMap r
/-- Step 4 of a page (16 R350): the leaf is written, and old translations go. -/
def State.pageLeaf (s : State) (r : PageJob) : State :=
  match s.leafSlots r.asid r.va r.code with
  | none => s.pageDone r 1
  | some ls =>
    let s := ls.foldl (fun s a => s.pokeNum a 8 (r.leaf ||| 3)) s
    let d := Drop.va r.asid r.va
    (s.dropTlb 2 0 d).pageOn { r with stage := 3, dropped := s.dropsAny 2 0 d, bound := s.seq, until_ := s.now } (dropTime 2)
/-- A job's next step (16 R350). A lease that was revoked is taken anew. -/
def State.pageStep (s : State) (r : PageJob) : State :=
  match r.stage with
  | 0 => s.pageLease r
  | 1 =>
    match s.pagerLease, r.unpacked with
    | some l, some u => (s.freeLease l .idle).pageCopied r u.1
    | _, _ => s.pageLease { r with stage := 0 }
  | 2 => if r.piece < 4 ^ (r.code - 7) then s.pageMap r else s.pageLeaf r
  | _ => if r.dropped && s.dropBusy 2 0 (.va r.asid r.va) r.until_ r.bound then s.pageOn r 1 else s.pageDone r 0

/-- The firmware meets an illegal word: it halts, posts a message, and FAIL is 0 with STAGE unchanged (20 R410). -/
def State.haltFirmware (s : State) : State := { s with fwHalted := true, fail := 0 }.post .firmwareHalt

/-- The pager takes up the first doorbell (16 R350 steps 1 and 2). -/
def State.pageTake (s : State) (e : EvArg) : State :=
  match s.pageDb with
  | [] => s
  | d :: rest =>
    let q := s.pageReq d.1 d.2
    let r : PageJob := { q.1 with leaf := e.v.toNat, packed := if q.2 then e.bytes else [], sector := e.b % 6 }
    let s : State := { s with pageDb := rest }
    if canonical r.va && (s.walkTables r.part r.asid r.va).leaf.isSome then s.pageDone r 0
    else if e.a = 1 then
      (if (s.leafSlots r.asid r.va r.code).isNone then s.pageDone r 1
       else if q.2 then s.pageLease r
       else s.pageCopied r e.bytes)
    else if e.a = 2 then (s.logError 2 0 0 0 r.frame).pageDone r 1
    else s.pageDone r 1

/-- PAGER_SERVE (R350): The pager serves one request: copies or decodes the page, maps it, invalidates and writes the completion word. The operand
`a` is 0 where no backing exists, 1 where one does, 2 where its payload is in error (18 R376), 3 where the firmware meets an illegal word
(20 R410), and 4 where the job under way goes on; `b` is the sector of the faulting warp, `v` the leaf to write and `bytes` the page, or its
compressed clusters (log entry 53). A request waits while another is served. -/
def execPagerServe (s : State) : Out :=
  .next (
    if s.fwHalted then s
    else if s.ev.a = 3 then s.haltFirmware
    else match s.pageJob with
    | some r => if s.ev.a = 4 then s.pageStep r else if s.pageDb.isEmpty then s else s.schedule (s.now + 1) (.ev .pagerServe s.ev)
    | none => if s.ev.a = 4 then s else s.pageTake s.ev)

end Sys2Proof.Machine
end

