-- ==== Sys2Proof/Machine/Sysreg.lean ====
section
/-!
DEFINITION. System registers (15 R330): their numbers, counts and fields, reading and writing them by `SRD`, `SWR` and the host's register
window (18 R384), and the clock, limit and draw of PWRCTL (20 R411).
-/
namespace Sys2Proof.Machine

/-! ## Status and power -/

/-- BOOTSTAT (20 R406). -/
def State.bootstat (s : State) : DWord :=
  BitVec.ofNat 64 (2 ^ 32 * (s.fwsvn % 2 ^ 32) + (if s.trip then 2 ^ 15 else 0) + 2 ^ 4 * (s.fail % 16) + (s.stage - 1) % 8)

/-- CLKMHZ takes a value when no team is resident; other values are ignored (20 R411). -/
def State.setClock (s : State) (mhz : Nat) : State :=
  if s.vacant && 275 ≤ mhz && mhz ≤ 1100 && mhz % 25 = 0 then
    { s with pwrctl := (s.pwrctl &&& ~~~0x7FF#64) ||| BitVec.ofNat 64 mhz }
  else s
/-- DRAWW exceeds LIMITW (20 R411). -/
def State.overLimit (s : State) : Bool := s.pwrctl.toNat / 2 ^ 48 < s.pwrctl.toNat / 2 ^ 32 % 2 ^ 16
/-- PWRCTL with another limit or draw; a draw that comes to exceed the limit is reported. -/
def State.setPower (s : State) (v : DWord) : State :=
  let t : State := { s with pwrctl := v }
  if t.overLimit && !s.overLimit then (t.post .drawOver).post (.msix 8) else t
/-- PWRCTL is written. -/
def State.writePower (s : State) (v : DWord) : State :=
  (s.setPower ((s.pwrctl &&& 0x0000FFFFFFFFFFFF) ||| (v &&& 0xFFFF000000000000))).setClock (v.toNat % 2 ^ 11)

/-- CLOCK_SET (R411): A CLKMHZ write sets the arithmetic clock when no team is resident. -/
def execClockSet (s : State) : Out := .next (s.setClock (s.ev.v.toNat % 2 ^ 11))

/-- DRAW_OVER_LIMIT (R411): When DRAWW exceeds LIMITW, the device posts a mailbox message and raises vector 8. The operand `a` is the draw that
is measured. -/
def execDrawOverLimit (s : State) : Out :=
  .next (s.setPower ((s.pwrctl &&& 0xFFFF0000FFFFFFFF) ||| (BitVec.ofNat 64 (s.ev.a % 2 ^ 16) <<< 32)))

/-! ## Reading -/

/-- A word of the error log (18 R397). -/
def State.errWord (s : State) (i : Nat) : DWord :=
  if i = 0 then BitVec.ofNat 64 (2 ^ 32 * s.errCorr + 2 ^ 16 * s.errUncorr + 2 ^ 8 * s.errHead)
  else
    let e := getP ⟨0, 0, 0, 0, 0⟩ s.errlog ((i - 1) / 4)
    match (i - 1) % 4 with
    | 0 => BitVec.ofNat 64 (e.kind % 2 ^ 8 + 2 ^ 8 * (e.cls % 2 ^ 8) + 2 ^ 16 * (e.unit % 2 ^ 16) + 2 ^ 32 * e.ctx.toNat)
    | 1 => BitVec.ofNat 64 e.addr
    | _ => 0
/-- MEMSTAT of a column (18 R391). -/
def State.memstat (s : State) (i : Nat) : DWord :=
  let c := getP Column.whole s.columns i
  BitVec.ofNat 64 (c.mode % 4 + 2 ^ 4 * (c.lost % 16) + 2 ^ 8 * (c.glean % 2 ^ 20))

/-- The number of indices of a register (15 R330). -/
def regCount (num : Nat) : Nat :=
  match num with
  | 0x02 => 4
  | 0x04 => 1
  | 0x07 => 1
  | 0x20 => 64
  | 0x21 => 96
  | 0x23 => 33
  | 0x24 => 256
  | 0x25 => 7
  | 0x27 => 15
  | 0x28 => 1
  | 0x29 => 1024
  | 0x2A => 1
  | 0x2B => 32768
  | 0x2C => 128
  | 0x2D => 2
  | 0x2E => 257
  | 0x2F => 1
  | 0x30 => 1
  | _ => 6

/-- The value of a system register: zero beyond its count, and for a write-only one (00 R6; 15 R330). -/
def State.readReg (s : State) (num i : Nat) : DWord :=
  if regCount num ≤ i then 0
  else
    match num with
    | 0x00 => getP 0 s.trapvec i
    | 0x01 => getP 0 s.dbgctl i
    | 0x02 => getP 0 s.bkaddr i
    | 0x03 => getP 0 s.hfcount i
    | 0x04 => s.asidtab
    | 0x05 => getP 0 s.pageq i
    | 0x07 => s.partcfg
    | 0x08 => getP 0 s.lqbase i
    | 0x20 => getP 0 s.capmap i
    | 0x21 => getP 0 s.slmcarve i
    | 0x22 => getP 0 s.tilebud i
    | 0x23 =>
      if i = 32 then 0
      else getP 0 s.hashmask i ||| (if i % 2 = 0 then BitVec.ofNat 64 (2 ^ 48 * s.domGen (i / 2)) else 0)
    | 0x24 => getP 0 s.slicetab i
    | 0x25 => getP 0 s.tkshare i
    | 0x26 => getP 0 s.engbudget i ||| BitVec.ofNat 64 (2 ^ 8 * (s.tokensUsed i % 2 ^ 8))
    | 0x27 => getP 0 s.harvest i
    | 0x28 => s.drcfg
    | 0x29 => getP 0 s.drroute i
    | 0x2A => s.hostwin
    | 0x2B => if i % 8 = 4 then s.objStatus (i / 8) else if 4 < i % 8 then 0 else getP 0 s.objtab i
    | 0x2C => s.memstat i
    | 0x2D => getP 0x200 s.remapReg i ||| (if s.remapSt i != .none then 1 <<< 61 else 0)
    | 0x2E => s.errWord i
    | 0x2F => s.bootstat
    | 0x30 => s.pwrctl
    | _ => 0

/-! ## Writing -/

/-- A system register is written, outside the commit word and the disabling of an object, which `SWR` waits for; a read-only register and an
index beyond the count ignore the write (15 R330). -/
def State.writeReg (s : State) (num i : Nat) (v : DWord) : State :=
  if regCount num ≤ i then s
  else
    match num with
    | 0x00 => { s with trapvec := setP 0 s.trapvec i (v &&& 0x01FFFFFFFFFFFFFC) }
    | 0x01 => { s with dbgctl := setP 0 s.dbgctl i (v &&& 0xFFFFFFFF0000003F) }
    | 0x02 => { s with bkaddr := setP 0 s.bkaddr i v }
    | 0x04 => { s with asidtab := v &&& 0x000FFFFFFFFC0001 }
    | 0x05 => { s with pageq := setP 0 s.pageq i (v &&& 0x000FFFFFFFFFF001) }
    | 0x06 => s.pagerBell i v
    | 0x07 => s.writePartcfg v
    | 0x08 => { s with lqbase := setP 0 s.lqbase i (v &&& 0x000FFFFFFFFFF00F) }
    | 0x09 => s.doorbell i v.toNat
    | 0x0A => s.preq i v
    | 0x21 => s.writeSlmcarve i v
    | 0x22 => if 1 ≤ v.toNat && v.toNat ≤ 8192 then { s with tilebud := setP 1024 s.tilebud i v } else s
    | 0x23 => s.stageHash i v
    | 0x24 => s.stageSlice i v
    | 0x25 => s.writeTkshare i v
    | 0x26 => s.writeEngbudget i v
    | 0x28 => { s with drcfg := (v &&& 0x0000FFFF000003FF) ||| (s.drcfg &&& 0x00000000FFFF0000) }
    | 0x29 => { s with drroute := setP 0 s.drroute i (v &&& 0x00000000800FFFFF) }
    | 0x2A => { s with hostwin := v &&& 0xFFFFFFFFFFFFF001 }
    | 0x2B => if i % 8 = 0 then s.writeObject (i / 8) v else if i % 8 < 4 then s.writeObjWord (i / 8) (i % 8) v else s
    | 0x2D => s.writeRemap i v
    | 0x2E => if i = 0 then { s with errCorr := 0, errUncorr := 0 } else s
    | 0x30 => s.writePower v
    | _ => s

/-- A write through the register window of the host link (18 R384): a commit or a disabling goes on as an event. No register can be reached in
D3hot. -/
def State.hostWrite (s : State) (num i : Nat) (v : DWord) : State :=
  if s.d3hot then s
  else if num = 0x23 && i = 32 then s.later 0 .hashmaskCommit 0 0 0 v
  else if num = 0x2B && i % 8 = 0 && i < 32768 && s.disables (i / 8) v then s.later 0 .objectDisable (i / 8) 0 0 v
  else s.writeReg num i v

/-! ## SRD, SWR (15 R330) -/

/-- The number and the index that an instruction names. -/
def State.regNamed (s : State) (o : Ops) : Nat × Nat :=
  (o.imm.toNat % 2 ^ 12, o.imm.toNat / 2 ^ 12 % 2 ^ 16 + if o.subN = 1 then (s.me.sreg o.s3.val.toNat).toNat else 0)

/-- SRD (R330): Reads a system register. -/
def execSrd (o : Ops) (s : State) : Out :=
  memExec (.srd o) (fun s _ o =>
    let r := s.regNamed o
    (s.putUniform o 2 (s.passMask o) (s.readReg r.1 r.2).toNat).advance) s

/-- The commit of interleave domains by `SWR` (17 R362): it waits for a scan that runs (phase 1), then for its own (phase 2, whose datum is the
scan's end). A refused commit costs 8 cc. -/
def State.swrCommit (s : State) (v : DWord) : State :=
  if s.phase = 2 then (if s.now < s.datum then s.stallAs 2 s.datum else s.advance 8)
  else if s.scanBusy then s.stallAs 1 0
  else
    match s.commit (v.setWidth 16) with
    | (t, some e) => t.stallAs 2 e
    | (t, none) => t.advance 8
/-- The disabling of an object by `SWR` (18 R388): it waits until every tenure is gone. -/
def State.swrDisable (s : State) (ob : Nat) (v : DWord) : State :=
  match s.disableObject ob v with
  | (t, true) => t.advance 8
  | (t, false) => t.stallAs 1 0

/-- SWR (R330): Writes a system register that has no behaviour of its own. -/
def execSwr (o : Ops) (s : State) : Out :=
  memExec (.swr o) (fun s _ o =>
    let r := s.regNamed o
    let v := BitVec.ofNat 64 (s.uni64 o.s1)
    if s.act = 0 then s.advance
    else if r.1 = 0x23 && r.2 = 32 then s.swrCommit v
    else if r.1 = 0x2B && r.2 % 8 = 0 && r.2 < 32768 && s.disables (r.2 / 8) v then s.swrDisable (r.2 / 8) v
    else (s.writeReg r.1 r.2 v).advance 8) s

end Sys2Proof.Machine
end

