-- ==== Sys2Proof/Machine/Boot.lean ====
section
/-!
DEFINITION. Bring-up (20 R405), firmware verification and identity (20 R407-R409), power states and the over-temperature trip (20 R411, R412) and the
management mailbox (20 R413), but for `LOADMOD`.
-/
namespace Sys2Proof.Machine

/-! ## Stages (20 R405) -/

/-- The window of the first domains: domain 0 over the live first tier, domain 1 over the second tier. -/
def State.firstWindow (s : State) (d : Nat) : DWord :=
  match d with
  | 0 => BitVec.ofNat 64 (2 ^ 63 + 2 ^ 16 * ((s.liveMib + 1023) / 1024 - 1))
  | _ => BitVec.ofNat 64 (2 ^ 63 + 2 ^ 16 * 1071 + 1024)
/-- The map that bring-up sets: on VU46-M two domains, else one. -/
def State.firstMap (s : State) : State :=
  let ds := if Config.tier2 then 2 else 1
  let hash := (List.range 32).map fun i =>
    if ds ≤ i / 2 then (0 : DWord) else if i % 2 = 0 then s.firstWindow (i / 2) else 0x7FFFFFFFF
  let slices := (List.range 256).map fun i => if ds ≤ i / 16 then (0 : DWord) else BitVec.ofNat 64 (i % 16)
  { s with hashmask := hash, slicetab := slices, hashLive := hash, sliceLive := slices }
/-- HARVEST from fuses and training (18 R374). -/
def fuses : List DWord :=
  (List.range 15).map fun i => Config.harvest i &&& (if i = 10 then 0x00000000FFFFFFFF else if i = 11 then 0x00000000FFFF003F else ~~~0)
/-- Memory is trained and zeroed, and the first map stands. -/
def State.trainMemory (s : State) : State :=
  ({ ((s.mapStack 0 true 0).mapStack 1 true 0).mapWord 0 with harvest := fuses, dram := [], poisoned := [] }).firstMap
/-- The links of LINKEN that training does not find absent (18 R374, R380). -/
def State.trainLinks (s : State) : State :=
  let up := (s.drcfg >>> 32) &&& ~~~(getP 0 s.harvest 11 >>> 16) &&& 0xFFFF
  { s with drcfg := (s.drcfg &&& ~~~0xFFFF0000#64) ||| (up <<< 16) }

/-- STAGE_COMPLETE (R405): A bring-up stage completes, or fails and stops the sequence. The operand `a` is the stage, and `b` the code of its failure, 0
for none; stage 0 ends only once firmware runs. -/
def execStageComplete (s : State) : Out :=
  .next (
    if s.ev.a ≠ s.stage || 4 ≤ s.stage || s.fail ≠ 0 || s.d3hot || s.fwHalted then s
    else if s.ev.b % 16 ≠ 0 then { s with fail := s.ev.b % 16 }
    else
      match s.ev.a with
      | 0 => if s.measurement.isEmpty then s else { s with stage := 1 }
      | 1 => { s.trainMemory with stage := 2 }
      | 2 => { s.trainLinks with stage := 3 }
      | _ => { s with stage := 4 })

/-- What reaches the device from outside: a reset leaves it to come. -/
def Act.isInput (a : Act) : Bool :=
  match a with
  | .hostReg _ _ _ => true
  | .hostMem _ _ => true
  | .firmware _ => true
  | .ev i _ =>
    match i with
    | .launchDoorbell => true
    | .preemptRequest => true
    | .pagerServe => true
    | .headerError => true
    | .flitReplay => true
    | .linkDown => true
    | .bankLoss => true
    | .tenureRenewal => true
    | .recallAtHolder => true
    | .drawOverLimit => true
    | .clockSet => true
    | .d3hotEntry => true
    | .d0Entry => true
    | .overTemperatureTrip => true
    | .reset => true
    | .stageComplete => true
    | .loadfw => true
    | .status => true
    | .idcert => true
    | .attest => true
    | .loadmod => true
    | .readlog => true
    | .mailboxBadcmd => true
    | _ => false

/-- RESET (R405): A reset starts the staged bring-up at stage 0. The cycle count, the counters of the model, the memories outside the device, what was
posted, the inputs to come and the banks that have failed for good stay. -/
def execReset (s : State) : Out :=
  .next { State.reset with
    now := s.now
    resetAt := s.now
    ph := s.ph
    free := s.free
    seq := s.seq
    remote := s.remote
    posts := s.posts
    agenda := s.agenda.filter fun d => d.act.isInput
    columns := s.columns.map fun c => { Column.whole with dead := c.dead } }

/-! ## Power states (20 R411, R412) -/

/-- D3HOT_ENTRY (R411): A PowerState write of D3hot enters D3hot only when idle, and is otherwise ignored and reported. -/
def execD3hotEntry (s : State) : Out := .next (if s.vacant && s.noGrid then { s with d3hot := true } else s.post .d3Refused)

/-- D0_ENTRY (R411): A write of D0 to the PowerState field brings the device out of D3hot, with memory contents and stage kept. -/
def execD0Entry (s : State) : Out := .next { s with d3hot := false }

/-- OVER_TEMPERATURE_TRIP (R412): At the trip temperature every clock stops except the Guluth clock, TRIP is set and a message is posted. -/
def execOverTemperatureTrip (s : State) : Out := .next (if s.trip then s else { s.post .trip with trip := true })

/-! ## The mailbox (20 R413) -/

/-- Free bytes. -/
def State.freeBytes (s : State) (n : Nat) : List Byte := (List.range n).map fun i => Config.freeByte (1 + s.free) i
/-- A response, and vector 8. After a trip what it would read is undefined (20 R412). -/
def State.respond (s : State) (status : Nat) (payload : List Byte) : State :=
  let s' := (s.post (.response status (if s.trip then s.freeBytes payload.length else payload))).post (.msix 8)
  if s.trip then { s' with free := s.free + 1 } else s'
/-- A request by the mailbox: none is served in D3hot or while the firmware is halted (log entry 123); `ok` is the stage that it needs, `len` the length of its payload. -/
def State.serve (s : State) (len ok : Bool) (k : State → State) : State :=
  if s.d3hot || s.fwHalted then s else if !ok then s.respond 1 [] else if !len then s.respond 2 [] else k s

/-- The parts of a firmware image (20 R407): header and body, key, signature. -/
def imageParts (m : List Byte) : List Byte × List Byte × List Byte :=
  let n := m.length - 265
  (m.take n, (m.drop n).take 133, m.drop (n + 133))
/-- The failure that the boot ROM finds in an image, 0 for none. -/
def imageFail (m : List Byte) : Nat :=
  let (body, key, sig) := imageParts m
  if sha512 key != Config.keyDigest then 1
  else if !ecdsaOk key (sha512 body) sig then 1
  else if Config.imageSvn body < Config.minSvn then 2
  else 0

/-- LOADFW (R407): Mailbox command that loads and verifies a firmware image. -/
def execLoadfw (s : State) : Out :=
  .next (s.serve (265 ≤ s.ev.bytes.length) (s.stage ≤ 1) fun s =>
    if !s.measurement.isEmpty then s.respond 3 []
    else
      let f := imageFail s.ev.bytes
      let body := (imageParts s.ev.bytes).1
      let t : State := if f = 0 then { s with fail := 0, measurement := sha512 body, fwsvn := Config.imageSvn body } else { s with fail := f }
      t.respond 0 [])

/-- STATUS (R413): Mailbox command that returns status. -/
def execStatus (s : State) : Out := .next (s.serve s.ev.bytes.isEmpty true fun s => s.respond 0 (Config.statusPayload s.bootstat))

/-- An ECDSA signature over the SHA-512 digest of bytes under a private key (01 R22). -/
def signed (key : Nat) (m : List Byte) : List Byte :=
  let z := sha512 m
  ecdsaSign (1 + key % (ecN - 1)) (1 + Config.signNonce z % (ecN - 1)) z
/-- The certificate of the identity key: what it certifies, and the maker's signature (20 R408; log entry 30). -/
def certificate : List Byte := Config.certified ++ signed Config.makerKey Config.certified

/-- IDCERT (R408): Mailbox command that returns the identity certificate. -/
def execIdcert (s : State) : Out := .next (s.serve s.ev.bytes.isEmpty (1 ≤ s.stage) fun s => s.respond 0 certificate)

/-- What `ATTEST` signs (20 R409). -/
def State.attestation (s : State) (nonce : List Byte) : List Byte :=
  nonce ++ s.measurement ++ toBytes 4 s.fwsvn ++ toBytes 8 s.partcfg.toNat ++
    sha512 ((List.range 15).flatMap fun i => toBytes 8 (getP 0 s.harvest i).toNat)
/-- ATTEST (R409): Mailbox command that returns a signed attestation over a nonce. -/
def execAttest (s : State) : Out :=
  .next (s.serve (s.ev.bytes.length == 64) (1 ≤ s.stage) fun s =>
    let a := s.attestation s.ev.bytes
    s.respond 0 (a ++ signed Config.identityKey a))

/-- READLOG (R397): Mailbox command that returns the error log. -/
def execReadlog (s : State) : Out :=
  .next (s.serve s.ev.bytes.isEmpty true fun s => s.respond 0 (Config.logPayload ((List.range 257).map s.errWord)))

/-- MAILBOX_BADCMD (R413): A mailbox request with an unknown command code or a bad length is answered with status BADCMD. -/
def execMailboxBadcmd (s : State) : Out := .next (s.serve false true id)

end Sys2Proof.Machine
end

