-- ==== Sys2Proof/Machine/Commands.lean ====
section
/-!
DEFINITION. The engine commands and their items (10 R278-R284; 11 R286-R298): traversal, attributes, rasterisation, the thresher, decoding,
gather and scatter, and the collective.
-/
namespace Sys2Proof.Machine

/-- The outcome of an item that it has worked out: its writes, a wait for the other ranks of a collective, or a status word. -/
inductive ItemEnd where
  | run (ws : List Write)
  | wait
  | bad (word : Nat)

/-- `RANGE` (10 R276). -/
def rangeWord : Nat := 9
/-- What follows the reads of an item: an error ends the command with its status word (10 R276), or with `FAULT` and its class (11 R290). -/
def Rd.andThen (r : Rd) (k : Rd → Ran ItemEnd) : Ran ItemEnd := r.orElse (fun cls _ => .bad (errStatus cls)) k
def Rd.andTable (r : Rd) (k : Rd → Ran ItemEnd) : Ran ItemEnd := r.orElse (fun cls _ => .bad (tableStatus cls)) k
def Rd.range (r : Rd) : Ran ItemEnd := .done r.t (.bad rangeWord)
def Rd.send (r : Rd) (ws : List Write) : Ran ItemEnd := .done r.t (.run ws)

/-- The writes of a range of bytes, a line at a time. -/
def linesFor : Nat → Nat → List Byte → List Write
  | 0, _, _ => []
  | fuel + 1, va, bs =>
    if bs.isEmpty then []
    else
      let o := va % 128
      let k := min (128 - o) bs.length
      .line va 0 LineAttr.none_ (linePut 0 o k (leNum (bs.take k))) (((BitVec.allOnes 128) >>> (128 - k)) <<< o) ::
        linesFor fuel ((va + k) % 2 ^ 64) (bs.drop k)
def storeOf (va : Nat) (bs : List Byte) : List Write := linesFor (bs.length / 128 + 2) va bs

/-- A bin of a material (11 R289): none where its entry is not bound. -/
def Rd.binFor (r : Rd) (g : Agent) (h : TabHead) (m : Nat) : Rd × Option Nat × Bool :=
  let (r, x) := r.material g h m
  (r, r.s.binOf g.part x.entry, x.ok)

/-! ## Traversal (10 R278; 11 R294) -/

/-- A hit: its exact `t` and its identifier. -/
structure RayHit where
  t : Q
  ident : DWord

/-- The nearer of two hits, and the smaller identifier of equals. -/
def RayHit.better (a : RayHit) (b : Option RayHit) : Bool :=
  match b with
  | none => true
  | some b => a.t.lt b.t || (a.t.eq b.t && a.ident.toNat < b.ident.toNat)

/-- The triangles of a cluster, in triangle order; with `any` the first hit ends the search. The flag is false for `RANGE`. -/
def testTris (ray : Ray) (cull any : Bool) (inst clus : Nat) (h : ClusHead) (pos tris : Nat) :
    Nat → Nat → Rd → Option RayHit → Rd × Option RayHit × Bool
  | 0, _, r, b => (r, b, true)
  | n + 1, k, r, b =>
    let idx := (List.range 3).map fun j => recField tris (4 * k + j) 1
    if idx.any (h.nv ≤ ·) then (r, b, false)
    else
      let r := r.spend 8
      let tri : Tri := ⟨idx, idx.map (posWords pos), true⟩
      match ray.hit cull tri with
      | none => testTris ray cull any inst clus h pos tris n (k + 1) r b
      | some t =>
        let x : RayHit := ⟨t, identOf 1 inst clus k⟩
        if any then (r, some x, true)
        else testTris ray cull any inst clus h pos tris n (k + 1) r (if x.better b then some x else b)

/-- A decoded cluster: header, positions and triangles (10 R282). -/
def Rd.cluster (r : Rd) (g : Agent) (a : Nat) : Rd × ClusHead × Nat × Nat :=
  let (r, v) := r.bytes g a 16
  let h := ClusHead.of v
  if !h.ok then (r, h, 0, 0)
  else
    let (r, p) := r.bytes g (a + 16) (12 * h.nv)
    let (r, t) := r.bytes g (a + h.triAt) (4 * h.nt)
    (r, h, p, t)

/-- A leaf record: instance, cluster number, cluster address, and whether it keeps its limits (10 R278). -/
def leafOf (v : Nat) : Nat × Nat × Nat × Bool :=
  (recField v 0 4, recField v 4 4, recField v 8 8, recField v 0 4 < 2 ^ 26 && recField v 4 4 < 2 ^ 28 && recField v 8 8 % 128 == 0)

/-- A child that is hit, in its place among those before it: increasing entry, ties to the lower slot. -/
def insertChild (x : Q × Nat) : List (Q × Nat) → List (Q × Nat)
  | [] => [x]
  | y :: r => if x.1.lt y.1 then x :: y :: r else y :: insertChild x r
/-- The pointers of the children of a node that the ray hits, in visit order. -/
def Ray.children (ray : Ray) (node : Nat) : List Nat :=
  ((List.range 4).foldl (fun l k =>
    let e := recField node (32 * k) 32
    let p := recField e 24 8
    if p % 4 = 0 then l
    else
      match ray.box ((List.range 6).map fun j => recField e (4 * j) 4) with
      | some te => insertChild (te, p) l
      | none => l) []).map (·.2)

/-- The traversal: pointers still to visit. It does not end where the nodes form a ring: `none`. -/
def Rd.visit (g : Agent) (ray : Ray) (cull any : Bool) : Nat → List Nat → Rd → Option RayHit → Option (Rd × Option RayHit × Bool)
  | 0, _, _, _ => none
  | _ + 1, [], r, b => some (r, b, true)
  | n + 1, p :: rest, r, b =>
    if !r.ok then some (r, b, true)
    else
      match p % 4 with
      | 1 =>
        let (r, v) := (r.spend 4).bytes g (p / 128 * 128) 128
        if !r.ok then some (r, b, true) else Rd.visit g ray cull any n (ray.children v ++ rest) r b
      | 2 =>
        let (r, v) := r.bytes g (p / 16 * 16) 16
        let (inst, clus, a, ok) := leafOf v
        if !r.ok then some (r, b, true)
        else if !ok then some (r, b, false)
        else
          let (r, h, pos, tris) := r.cluster g a
          if !r.ok then some (r, b, true)
          else if !h.ok then some (r, b, false)
          else
            let (r, b, ok) := testTris ray cull any inst clus h pos tris h.nt 0 r b
            if !ok || (any && b.isSome) then some (r, b, ok) else Rd.visit g ray cull any n rest r b
      | _ => some (r, b, false)

/-- One ray (10 R278; 11 R294). -/
def State.traceItem (s : State) (x : Cmd) (rd : Reading) (j : Nat) : Ran ItemEnd :=
  let g := s.cmdAgent x
  let ra := (x.w2 0 + 48 * j) % 2 ^ 64
  let (r, v) := (Rd.begin s rd).bytes g ra 48
  r.andThen fun r =>
    let ray := Ray.of v
    if !ray.zero then r.range
    else
      match r.visit g ray (x.sub.testBit 1) (x.sub.testBit 0) (2 ^ 40) [x.w2 4 + 1] none with
      | none => .done r.t .wait
      | some (r, best, ok) =>
        r.andThen fun r =>
          if !ok then r.range
          else
            let (r, h) := r.uncharged.table g (x.w2 6)
            let rec_ (kind : RecKind) (ident : DWord) (depth : Nat) : BinRec :=
              { BinRec.blank with
                kind := kind, ident := ident, first := ray.index, depth := BitVec.ofNat 32 depth, ray := BitVec.ofNat 64 ra
                table := BitVec.ofNat 64 (x.w2 6), lease := getP 0 x.words 3, owner := s.attrLease x.team (getP 0 x.words 3) }
            let spawn (r : Rd) (m : Nat) (b : BinRec) : Ran ItemEnd :=
              let (r, bin, ok) := r.binFor g h m
              r.andThen fun r =>
                match bin with
                | some k => if ok then (r.spend 8).send [.record k [b] false 0] else r.range
                | none => r.range
            r.andThen fun r =>
              if !h.ok then r.range
              else
                match best with
                | none => if h.bg = 0xFFFFFFFF then r.send [] else spawn r h.bg (rec_ .rayMiss 0x8000000000000000 ray.tmax)
                | some b =>
                  let (r, f) := r.resolve g h b.ident
                  r.andThen fun r =>
                    match f with
                    | none => r.range
                    | some (_, _, m) => spawn r m (rec_ .rayHit b.ident (roundF b.t))

/-! ## Rasterisation (10 R279) -/

/-- A point of the screen lies in a triangle. -/
def covers (a b c : ScreenV) (flip : Bool) (x y : Q) : Bool := edgeIn a b flip x y && edgeIn b c flip x y && edgeIn c a flip x y

def Q.floorIn (q : Q) (hi : Nat) : Nat := Nat.min hi q.floor.toNat
/-- The pixels that a triangle covers on a screen of `w` by `h` pixels. -/
def coveredPixels (a b c : ScreenV) (w h : Nat) : List (Nat × Nat) :=
  let f := (baryAt a b c Q.zero Q.zero).area.isNeg
  let lo (p q r : Q) (n : Nat) : Nat := (Q.min p (Q.min q r)).floorIn n
  let hi (p q r : Q) (n : Nat) : Nat := let m := Q.max p (Q.max q r); if m.isNeg then 0 else min n (m.floor.toNat + 1)
  let x0 := lo a.x b.x c.x w
  let y0 := lo a.y b.y c.y h
  (List.range (hi a.y b.y c.y h - y0)).flatMap fun dy =>
    (List.range (hi a.x b.x c.x w - x0)).filterMap fun dx =>
      if covers a b c f (centre (x0 + dx)) (centre (y0 + dy)) then some (x0 + dx, y0 + dy) else none

/-- The pixels of one triangle: all that it covers are counted, those with a depth are written. -/
def rasterTri (m : List Nat) (pos : Nat) (idx : List Nat) (w h : Nat) (cull : Bool) : List ((Nat × Nat) × Option Nat) :=
  let v (k : Nat) : Option ScreenV := screenV m (posWords pos (getP 0 idx k)) w h
  match v 0, v 1, v 2 with
  | some a, some b, some c =>
    let area := (baryAt a b c Q.zero Q.zero).area
    if area.isZero || (cull && (area.isNeg != Config.backPositive)) then []
    else (coveredPixels a b c (16 * w) (16 * h)).map fun p => (p, coverDepth a b c (centre p.1) (centre p.2))
  | _, _, _ => []

/-- The pixels that a cluster writes (10 R279), with its cost. -/
def Rd.rastWrites (r : Rd) (g : Agent) (x : Cmd) (j : Nat) : Rd × Option (Nat × List Write) :=
  let w := x.w 3 % 2 ^ 16
  let h := x.w 3 / 2 ^ 16
  let (r, v) := r.bytes g (x.w2 0 + 16 * j) 16
  let (inst, clus, a, ok) := leafOf v
  if !r.ok || !ok then (r, none)
  else
    let (r, mv) := r.bytes g (x.w2 6) 64
    let m := (List.range 16).map fun k => recField mv (4 * k) 4
    let (r, ch, pos, tris) := r.cluster g a
    let idx (k : Nat) : List Nat := (List.range 3).map fun i => recField tris (4 * k + i) 1
    if !r.ok || !ch.ok || (List.range ch.nt).any (fun k => (idx k).any (ch.nv ≤ ·)) then (r, none)
    else
      let ps := (List.range ch.nt).flatMap fun k =>
        (rasterTri m pos (idx k) w h (x.sub.testBit 2)).map fun p => (k, p)
      (r, some (4 * ch.nv + 2 * ch.nt + ps.length, ps.filterMap fun p => p.2.2.map fun z =>
        let px := p.2.1.1
        let py := p.2.1.2
        Write.pixel ((x.w2 4 + 3072 * (py / 16 * w + px / 16)) % 2 ^ 64) (16 * (py % 16) + px % 16) (identOf 0 inst clus p.1)
          (BitVec.ofNat 32 z) (!x.sub.testBit 0) (x.sub.testBit 3)))
/-- One cluster (10 R279). -/
def State.rastItem (s : State) (x : Cmd) (rd : Reading) (j : Nat) : Ran ItemEnd :=
  let (r, ws) := (Rd.begin s rd).rastWrites (s.cmdAgent x) x j
  r.andThen fun r =>
    match ws with
    | none => r.range
    | some (n, ws) => (r.spend n).send ws

/-! ## The thresher (10 R280; 11 R290-R293) -/

/-- The material of a pixel: `some none` where it is dropped; none for `RANGE`. -/
def Rd.pixelMaterial (r : Rd) (g : Agent) (h : TabHead) (ident : DWord) : Rd × Option (Option Nat) :=
  match idKind ident with
  | 0 =>
    let (r, f) := r.resolve g h ident
    (r, f.map fun p => some p.2.2)
  | 2 => (r, some (if h.bg = 0xFFFFFFFF then none else some h.bg))
  | _ => (r, none)

/-- The materials of the pixels of a tile, in pixel order. -/
def Rd.tileMaterials (g : Agent) (h : TabHead) : List DWord → Rd → Rd × Option (List (Option Nat))
  | [], r => (r, some [])
  | i :: rest, r =>
    if !r.ok then (r, some [])
    else
      let (r, m) := r.pixelMaterial g h i
      match m with
      | none => (r, none)
      | some m =>
        let (r, ms) := Rd.tileMaterials g h rest r
        (r, ms.map (m :: ·))

/-- The bins of some materials: none where one is not bound. -/
def Rd.binsFor (g : Agent) (h : TabHead) : List Nat → Rd → Rd × Option (List (Nat × Nat)) × Bool
  | [], r => (r, some [], true)
  | m :: rest, r =>
    let (r, b, ok) := r.binFor g h m
    let (r, bs, ok2) := Rd.binsFor g h rest r
    (r, (match b, bs with
      | some b, some bs => some ((m, b) :: bs)
      | _, _ => none), ok && ok2)

/-- The four records of a quad group (11 R291): `f` gives each pixel of the quad its identifier, depth and material, by position. The depth
that the record of a helper holds is a free value (log entry 45), but for a background identifier, whose lanes take the stored depth (11 R295). -/
def quadRecords (x : Cmd) (owner : Nat) (fd : Word) (tile : Nat) (px py m : Nat) (f : Nat → DWord × Word × Option Nat) : List BinRec :=
  (List.range 4).map fun j =>
    let real (k : Nat) : Bool := (f k).2.2 == some m
    let lender := if real j then j else if real (j ^^^ 1) then j ^^^ 1 else if real (j ^^^ 2) then j ^^^ 2 else j ^^^ 3
    { BinRec.blank with
      kind := if real j then .quadReal else .quadHelper
      ident := (f lender).1
      first := BitVec.ofNat 32 (px + j % 2 + 2 ^ 16 * (py + j / 2))
      depth := if real j || idKind (f lender).1 == 2 then (f j).2.1 else fd
      table := BitVec.ofNat 64 (x.w2 4), lease := getP 0 x.words 3, owner := owner, tile := some tile }

/-- The tile that a `THRESH` names and may take, by its physical address (10 R280). -/
def State.threshTile (s : State) (x : Cmd) : Option Nat :=
  match (s.quietVa (s.cmdAgent x) (x.w2 0)).bind s.tile with
  | some t => if x.w2 0 % 128 = 0 && (t.st == .opened || (t.st == .classifying && t.running.isNone)) then some t.addr else none
  | none => none
/-- The pass begins: its tile is classifying (05 R120; 10 R280). -/
def State.beginPass (s : State) (c : Nat) : State :=
  match s.threshTile (s.cmd c) with
  | some a =>
    (({ s with free := s.free + 1 }.onTile a fun t => { t with st := .classifying, running := some c }).onCmd c fun x => { x with tile := some a })
  | none => s
/-- The quad groups of a tile that are still to be spawned, from its contents and its materials (11 R291, R293). -/
def State.quadGroups (s : State) (x : Cmd) (a v : Nat) (ms : List (Option Nat)) (bins : List (Nat × Nat)) : List Write :=
  let ident (p : Nat) : DWord := BitVec.ofNat 64 (recField v (8 * p) 8)
  let owner := s.attrLease x.team (getP 0 x.words 3)
  (List.range 64).flatMap fun q =>
    let at_ (j : Nat) : Nat := 16 * (2 * (q / 8) + j / 2) + 2 * (q % 8) + j % 2
    (sortU ((List.range 4).filterMap fun j => getP none ms (at_ j))).filterMap fun m =>
      let key := 1 + 1024 * q + m
      if key < ((s.tile a).map (·.resume)).getD 0 then none
      else some (Write.record ((lookupN bins m).getD 0)
        (quadRecords x owner (Config.freeWord (s.free - 1)) a (16 * (x.w 2 % 2 ^ 16) + 2 * (q % 8)) (16 * (x.w 2 / 2 ^ 16) + 2 * (q / 8)) m fun j =>
          (ident (at_ j), BitVec.ofNat 32 (recField v (2048 + 4 * at_ j) 4), getP none ms (at_ j))) true key)
/-- The pass over a tile (10 R280; 11 R290, R291): without a tile that it may take, an address that cannot be read gives its own status. -/
def State.threshItem (s : State) (x : Cmd) (rd : Reading) : Ran ItemEnd :=
  let g := s.cmdAgent x
  match x.tile with
  | none => ((Rd.begin s rd).uncharged.line g (x.w2 0)).1.andThen Rd.range
  | some a =>
    let (r, v) := (Rd.begin s rd).bytes g (x.w2 0) 3072
    r.andThen fun r =>
      let (r, h) := (r.spend 256).uncharged.table g (x.w2 4)
      r.andTable fun r =>
        if !h.ok then r.range
        else
          let (r, _, _, vok) := r.viewBlock g h.view
          r.andTable fun r =>
            let (r, ms) := Rd.tileMaterials g h ((List.range 256).map fun p => BitVec.ofNat 64 (recField v (8 * p) 8)) r
            r.andTable fun r =>
              match (if vok then ms else none) with
              | none => r.range
              | some ms =>
                let (r, bins, ok) := Rd.binsFor g h (sortU (ms.filterMap id)) r
                r.andTable fun r =>
                  if !ok then r.range
                  else
                    match bins with
                    | none => .done r.t (.bad 0x55)
                    | some bins =>
                      let groups := s.quadGroups x a v ms bins
                      (r.spend (if groups.isEmpty then 0 else 2)).send groups

/-! ## Attributes (10 R281) -/

/-- One item of attributes. -/
def State.attrItem (s : State) (x : Cmd) (rd : Reading) (j : Nat) : Ran ItemEnd :=
  let g := s.cmdAgent x
  let (r, v) := (Rd.begin s rd).bytes g (x.w2 0 + 64 * j) 64
  r.andThen fun r =>
    let ident := BitVec.ofNat 64 (recField v 0 8)
    let p := recField v 8 4
    let z := recField v 12 4
    let (r, h) := r.table g (x.w2 3)
    let f (k : Nat) : Nat := recField v k 4
    let done (r : Rd) (w : List Nat) : Ran ItemEnd :=
      let words := (List.range 32).map fun k => getP 0 w k
      let off := x.w 7 + 128 * j
      let hd := (s.team x.team).handle (x.handle.getD 0)
      (r.spend 36).send [.scratch (.scr x.team (64 * hd.base + off) x.handle off) (words.flatMap fun w => toBytes 4 w)]
    let base := [p, 0, 0, 0, 0, 0, 0, z, ident.toNat % 2 ^ 32, ident.toNat / 2 ^ 32]
    if !h.ok || recField v 48 16 != 0 || idKind ident = 3 then r.andThen Rd.range
    else if idKind ident = 2 then r.andThen fun r => done r base
    else
      let sight := if idKind ident = 0 then Sight.raster (p % 2 ^ 16) (p / 2 ^ 16) (some z) (x.w2 5)
        else Sight.ray (v3Of (f 16) (f 20) (f 24)) (v3Of (f 28) (f 32) (f 36)) (f 40) (f 44) z
      let (r, u) := r.surface g h ident sight
      r.andThen fun r =>
        match u with
        | none => r.range
        | some w => done r ([p] ++ w.1 ++ base.drop 8 ++ w.2)

/-! ## Decoding (10 R282) -/

/-- One pair of a `DECODE`. -/
def State.decodeItem (s : State) (x : Cmd) (rd : Reading) (j : Nat) : Ran ItemEnd :=
  let g := s.cmdAgent x
  let (r, v) := (Rd.begin s rd).bytes g (x.w2 0 + 16 * j) 16
  r.andThen fun r =>
    let src := recField v 0 8
    let dst := recField v 8 8
    if src % 128 ≠ 0 || dst % 128 ≠ 0 then .done r.t (.bad (errStatus 6))
    else
      let (r, hv) := r.bytes g src 32
      let p := Packed.of hv
      r.andThen fun r =>
        if !p.ok then r.range
        else
          let (r, v) := r.bytes g src p.inBytes
          r.andThen fun r =>
            match p.decode v with
            | none => r.range
            | some bs =>
              let ws := storeOf dst bs
              (r.spend (p.nv + p.nt + ws.length)).send ws

/-! ## Gather and scatter (10 R283) -/

/-- The virtual address of an index line. -/
def Reading.indexVa (x : Reading) : Nat :=
  match x.ask, x.lines with
  | some a, _ => a.va
  | none, l :: _ => l.va
  | none, [] => 0
/-- An index line goes on; the element that waits for it starts no earlier than it returns. -/
def State.goIndex (s : State) (c : Nat) (g : Agent) (va : Nat) (rd : Reading) : State × Reading :=
  match s.readOn g rd fun _ rd => match rd.lines with
    | [] => Ran.need rd.due va false
    | l :: _ => .done l.ret () with
  | .on s rd => (s.cmdAt c rd.due (if rd.ask.isSome then 5 else 0) va, rd)
  | .over s rd _ => (s.cmdAt c s.now 0, rd)
/-- Index lines are asked for in order, up to 8 beyond the one in use. -/
def State.indexAhead (s : State) (c : Nat) (x : Cmd) (g : Agent) (have_ : List Reading) : Nat → Nat → State × List Reading
  | 0, _ => (s, [])
  | n + 1, la =>
    if x.w2 0 + 4 * x.w 2 ≤ la then (s, [])
    else
      let (s, rd) := match have_.find? fun e => e.indexVa == la with
        | some e => (s, e)
        | none => s.goIndex c g la ⟨s.now, s.now, [], none⟩
      let (s, l) := s.indexAhead c x g have_ n (la + 128)
      (s, rd :: l)
/-- An index line that was under way goes on. -/
def State.indexGoes (s : State) (c va : Nat) : State :=
  let x := s.cmd c
  match x.idx.find? fun e => e.indexVa == va with
  | none => s
  | some rd =>
    if rd.ask.isNone || rd.due ≠ s.now then s
    else
      let (s, rd) := s.goIndex c (s.cmdAgent x) va rd
      s.onCmd c fun x => { x with idx := x.idx.map fun e => if e.indexVa = va then rd else e }

/-- One element of a `GATHER` or a `SCATR`; its index line has returned. -/
def State.elementItem (s : State) (x : Cmd) (rd : Reading) (j : Nat) : Ran ItemEnd :=
  let g := s.cmdAgent x
  let (r, i) := (Rd.begin s rd).bytes g (x.w2 0 + 4 * j) 4
  r.andThen fun r =>
    let z := 4 * 2 ^ (x.sub % 4)
    let a := (x.w2 4 + i * x.w 6) % 2 ^ 64
    let off := x.w 7 + j * z
    let hd := (s.team x.team).handle (x.handle.getD 0)
    if x.kind == .gather then
      let (r, v) := if i < x.w 3 then r.bytes g a z else (r, 0)
      r.andThen fun r => r.send [.scratch (.scr x.team (64 * hd.base + off) x.handle off) (toBytes z v)]
    else if i < x.w 3 then
      let v := (s.team x.team).read (64 * hd.base + off) z
      (r.spend 24).send (storeOf a (toBytes z v))
    else r.send []

/-! ## The collective (10 R284; 18 R386) -/

/-- One step of the combination (10 R284; 09 R238): operation and type by the codes of SUB. -/
def collStep (op ty a b : Nat) : Nat :=
  match op with
  | 0 => atomicNew .add (if ty = 0 then .f32 else if ty = 1 then .s32 else .bf16x2) a b
  | k =>
    match ty with
    | 0 => minMax .f32 (k == 2) a b
    | 1 => minMax .s32 (k == 2) a b
    | _ =>
      let f (a b : Nat) : Nat := if k = 1 then fMinNan bf16 a b else fMaxNan bf16 a b
      f (a % 2 ^ 16) (b % 2 ^ 16) + 2 ^ 16 * f (a / 2 ^ 16) (b / 2 ^ 16)

/-- The group table of a `COLL`: its ranks' device numbers and its identifier; none outside its limits. -/
def Rd.group (r : Rd) (g : Agent) (x : Cmd) : Rd × Option (List Nat × Nat) :=
  let (r, v) := r.bytes g (x.w2 5) 8
  let p := recField v 0 4
  if p < 2 || 640 < p || p ≤ x.w 7 % 2 ^ 16 then (r, none)
  else
    let (r, d) := r.bytes g (x.w2 5 + 8) (4 * p)
    (r, some ((List.range p).map fun k => recField d (4 * k) 4, recField v 4 4))

/-- The combination of the ranks' sources, word by word; `others` holds those of the other ranks in rank order (log entry 44). -/
def Cmd.combine (x : Cmd) (ranks mine : Nat) (others : List Byte) : List Byte :=
  let n := 4 * x.w 4
  let own := x.w 7 % 2 ^ 16
  let src (k : Nat) : Nat := if k = own then mine else leNum ((others.drop (n * (if k < own then k else k - 1))).take n)
  (List.range (x.w 4)).flatMap fun i => toBytes 4
    ((List.range (ranks - 1)).foldl (fun v k => collStep (x.sub % 8) (x.sub / 8) v (recField (src (k + 1)) (4 * i) 4)) (recField (src 0) (4 * i) 4))

/-- A `COLL` reads its source and waits for the other ranks; when their data have come it combines them. -/
def State.collItem (s : State) (x : Cmd) (rd : Reading) : Ran ItemEnd :=
  let g := s.cmdAgent x
  let (r, ranks) := (Rd.begin s rd).group g x
  r.andThen fun r =>
    match ranks with
    | none => r.range
    | some (ds, _) =>
      if ds.any (640 ≤ ·) then .done r.t (.bad 2)
      else
        let (r, mine) := r.bytes g (x.w2 0) (4 * x.w 4)
        r.andThen fun r =>
          match x.others with
          | none => .done r.t .wait
          | some bs => r.send (storeOf (x.w2 2) (x.combine ds.length mine bs))

/-- The group of a `COLL` as its table stands: the rank count and the identifier. -/
def State.collGroup (s : State) (x : Cmd) : Option (Nat × Nat) :=
  (((Rd.silent s).group (s.cmdAgent x) x).2).map fun g => (g.1.length, g.2)
/-- Every other rank has issued a matching command: of the same group identifier and count (10 R284). -/
def State.ranksIn (s : State) (x : Cmd) : Bool :=
  match s.collGroup x with
  | none => false
  | some (p, id) => (List.range p).all fun k => k == x.w 7 % 2 ^ 16 || x.others.isSome || x.ranks.contains (k, id, x.w 4)

/-- COLL_TIMEOUT (R284): A COLL ends with TIMEOUT when a rank has not joined before its timeout. -/
def execCollTimeout (s : State) : Out :=
  .next (
    let c := s.ev.a
    let x := s.cmd c
    if s.cmdIs && x.kind == .coll && !x.stopped && !x.ending && !s.ranksIn x then
      ((s.stopCmd c 8).onCmd c fun x => { x with flight := [] }).settleCmd c
    else s)

/-! ## Records and item starts -/

/-- The number of items of a command; none where a record field lies outside its limits (10 R278-R284). -/
def State.cmdCount (s : State) (x : Cmd) : Option Nat :=
  let within (n hi : Nat) : Bool := 1 ≤ n && n ≤ hi
  let bytes := ((s.team x.team).handle (x.handle.getD 0)).bytes
  let ok (b : Bool) (n : Nat) : Option Nat := if b then some n else none
  match x.kind with
  | .trace => ok (x.w2 0 % 16 == 0 && within (x.w 2) (2 ^ 24) && x.w2 4 % 128 == 0 && x.w2 6 % 64 == 0) (x.w 2)
  | .rast =>
    ok (x.w2 0 % 16 == 0 && within (x.w 2) (2 ^ 24) && within (x.w 3 % 2 ^ 16) 1024 && within (x.w 3 / 2 ^ 16) 1024 &&
      x.w2 4 % 128 == 0 && x.w2 6 % 64 == 0) (x.w 2)
  | .thresh => ok (x.w 6 == 0 && x.w 7 == 0) 1
  | .attr => ok (x.w2 0 % 64 == 0 && within (x.w 2) (2 ^ 20) && x.w 7 % 128 == 0 && x.w 7 + 128 * x.w 2 ≤ bytes) (x.w 2)
  | .decode => ok (within (x.w 2) 65536 && x.w2 0 % 16 == 0 && x.w 3 == 0 && x.w 4 == 0 && x.w 5 == 0 && x.w 6 == 0 && x.w 7 == 0) (x.w 2)
  | .coll => ok (within (x.w 4) (2 ^ 26) && x.w2 0 % 4 == 0 && x.w2 2 % 4 == 0 && x.w2 5 % 4 == 0) 1
  | _ =>
    let z := 4 * 2 ^ (x.sub % 4)
    ok (within (x.w 2) (2 ^ 20) && x.w2 0 % 4 == 0 && x.w2 4 % z == 0 && x.w 6 % z == 0 && x.w 7 % z == 0 &&
      x.w 7 + x.w 2 * z ≤ bytes) (x.w 2)

/-- Item `j` of a command, worked out from its reads. -/
def State.item (s : State) (x : Cmd) (rd : Reading) (j : Nat) : Ran ItemEnd :=
  match x.kind with
  | .trace => s.traceItem x rd j
  | .rast => s.rastItem x rd j
  | .thresh => s.threshItem x rd
  | .attr => s.attrItem x rd j
  | .decode => s.decodeItem x rd j
  | .coll => s.collItem x rd
  | _ => s.elementItem x rd j
/-- The address that no line has: an entry for it in an item's reads is the failure of its writes. -/
def failedVa : Nat := 2 ^ 64
/-- An item of a command, or the failure that the translation of its writes has met. -/
def State.itemRun (s : State) (c : Nat) (rd : Reading) (j : Nat) : Ran ItemEnd :=
  match rd.lines.find? fun l => l.va == failedVa with
  | some l => .done l.ret (.bad (errStatus l.cls))
  | none => s.item (s.cmd c) rd j

def State.onItem (s : State) (c key : Nat) (f : Item → Item) : State :=
  s.onCmd c fun x => { x with flight := x.flight.map fun it => if it.key = key then f it else it }

/-- An element of a `SCATR` joins the others of its line; the last one takes them along as one delivery (06 R144, R146). -/
def State.mergePart (s : State) (c : Nat) (w : Write) : State × List Write :=
  match w with
  | .line va pa q d mask =>
    let la := lineOf pa
    let x := s.cmd c
    let mine : Write → Bool := fun p => match p with
      | .line _ k _ _ _ => lineOf k == la
      | _ => false
    let w := match x.parts.find? mine with
      | some (.line _ _ _ e m) => Write.line va pa q (maskPut e d mask) (m ||| mask)
      | _ => w
    let owned := x.owned.erase la
    let parts := x.parts.filter fun p => !mine p
    if owned.contains la then (s.onCmd c fun x => { x with owned := owned, parts := parts ++ [w] }, [])
    else (s.onCmd c fun x => { x with parts := parts }, [w])
  | w => (s, [w])

/-- The item has worked out its writes: their pages are translated, and they leave when the last translation is ready. -/
def State.sendItem (s : State) (c key : Nat) (rd : Reading) (ws : List Write) : State :=
  let g := s.cmdAgent (s.cmd c)
  let (s, t, ws, bad) := s.transWrites g s.now ws
  match bad with
  | some cls =>
    if t ≤ s.now then s.failItem c key (errStatus cls)
    else (s.onItem c key fun it => { it with read := { rd with lines := rd.lines ++ [⟨failedVa, t, cls, 0, LineAttr.none_⟩], due := t } }).cmdAt c t 3 key
  | none =>
    let (s, ws) := if (s.cmd c).kind == .scatr then ws.foldl (fun (a : State × List Write) w =>
        let (s, l) := a.1.mergePart c w
        (s, a.2 ++ l)) (s, [])
      else (s, ws)
    let (s, outs) := match ws with
      -- The groups of a pass enter one after another; the pixels of a cluster act together, in order (log entry 98).
      | .record _ _ _ _ :: _ => (s.cmdAt c s.now 1, nextGroup (s.now - 2) (ws.map fun w => ⟨0, 0, true, some w⟩))
      | .pixel _ _ _ _ _ _ :: _ =>
        let n := ws.foldl (fun (n : Nat) (w : Write) => match w with
          | .pixel va _ _ _ _ _ => max n ((s.quietVa g va).elim 0 (s.wayTo g))
          | _ => n) 0
        (s.cmdAt c (s.now + n) 1, ws.map fun w => ⟨s.now + n, 0, true, some w⟩)
      | ws => if t ≤ s.now then s.leaveAll c ws else (s.cmdAt c t 1, ws.map fun w => ⟨t, 0, false, some w⟩)
    let x := s.cmd c
    let flight := x.flight.map fun (it : Item) => if it.key = key then { it with sent := some outs } else it
    s.putFlight c flight.length (flight.filter fun it => !(it.key == key && outs.isEmpty))

/-- The first item of a `SCATR` that has written nothing: the writes keep their order (10 R283). -/
def Cmd.firstUnsent (x : Cmd) : Option Nat := (x.flight.find? fun it => it.sent.isNone).map (·.key)

/-- An item goes on. -/
def State.goItem (s : State) (c key : Nat) : State :=
  let x := s.cmd c
  match x.flight.find? fun it => it.key == key && it.sent.isNone with
  | none => s
  | some it =>
    if it.read.due ≠ s.now then s
    else
      match s.readOn (s.cmdAgent x) it.read fun s rd => s.itemRun c rd key with
      | .on s rd => (s.onItem c key fun it => { it with read := rd }).cmdAt c rd.due 3 key
      | .over s rd e =>
        let s := s.onItem c key fun it => { it with read := rd }
        match e with
        | .wait => s
        | .bad word => s.failItem c key word
        | .run ws =>
          if x.kind == .scatr then
            if (s.cmd c).firstUnsent ≠ some key then s
            else
              let s := s.sendItem c key rd ws
              match (s.cmd c).firstUnsent with
              -- The next item may have waited for this one.
              | some k =>
                if ((s.cmd c).flight.find? fun it => it.key == k).any fun it => it.read.ask.isNone && it.read.due < s.now then
                  (s.onItem c k fun it => { it with read := { it.read with due := s.now } }).cmdAt c s.now 3 k
                else s
              | none => s
          else s.sendItem c key rd ws

/-- An item is in flight, and the next one starts 1 cc later where a place is free (10 R275). -/
def State.itemGoes (s : State) (c : Nat) (rd : Reading) : State :=
  let j := (s.cmd c).next
  let s := s.onCmd c fun x => { x with next := j + 1, startAt := s.now + 1, flight := x.flight ++ [⟨j, rd, none⟩] }
  let y := s.cmd c
  let s := if y.count ≤ y.next then s
    else if y.flight.length < 16 then s.later 1 .engineItemStart c 0 0 y.tag
    else s.onCmd c fun x => { x with blocked := true }
  s.goItem c j

/-- The start of the next item of the command that an engine serves (10 R275). An element starts when its index line has returned. -/
def State.startItem (s : State) (c : Nat) : State :=
  let x := s.cmd c
  if !x.live || !x.arrived || x.ending || s.now < x.startAt || (s.engine x.engine).st != .leased || s.nextCmd x.engine != some c then s
  else if x.stopped then s.settleCmd c
  else
    match (if x.count = 0 then s.cmdCount x else some x.count) with
    | none => ((s.stopCmd c rangeWord).onCmd c fun x => { x with doneAt := s.now }).settleCmd c
    | some n =>
      if n ≤ x.next then s
      else if 16 ≤ x.flight.length then s.onCmd c fun x => { x with blocked := true }
      else
        let s := s.onCmd c fun x => { x with count := n }
        let rd : Reading := ⟨s.now, s.now, [], none⟩
        if x.kind == .thresh then (s.beginPass c).itemGoes c rd
        else if x.kind == .gather || x.kind == .scatr then
          let la := lineOf (x.w2 0 + 4 * x.next)
          let (s, idx) := s.indexAhead c x (s.cmdAgent x) x.idx 9 la
          let s := s.onCmd c fun x => { x with idx := idx }
          match (idx.head?).bind (·.lines.head?) with
          | some l => if l.ret ≤ s.now then s.itemGoes c { rd with lines := [l] } else s
          | none => s
        else s.itemGoes c rd

/-- What the other ranks of a collective bring (10 R284): a matching command of rank `k`, with its group identifier and count, or their data. -/
def State.rankIn (s : State) (c k : Nat) (bs : List Byte) : State :=
  s.onCmd c fun x => { x with ranks := (k, leNum (bs.take 4), leNum (bs.drop 4)) :: x.ranks }
def State.collJoin (s : State) (c id : Nat) (bs : List Byte) : State :=
  let x := s.cmd c
  if x.others.isSome || s.collGroup x != some (1 + bs.length / (4 * x.w 4), id) || bs.length % (4 * x.w 4) ≠ 0 then s
  else
    let s := s.onCmd c fun x => { x with others := some bs }
    match x.flight.find? fun it => it.sent.isNone with
    | some it =>
      -- The item waits for the data, or has not come to its wait.
      if it.read.ask.isNone && it.read.due < s.now then
        (s.onItem c it.key fun it => { it with read := { it.read with due := s.now } }).goItem c it.key
      else s
    | none => s

/-- ENGINE_ITEM_START (R275): An engine starts the next item of a command when a slot is free. The operand `b` is 1 where writes of items are
due, 3 where item `c` goes on and 5 where the index line at `c` does; for a collective it is 7 where rank `c` has issued a matching command,
and 2 where the data of the other ranks of group `c` have come. -/
def execEngineItemStart (s : State) : Out :=
  .next (
    let c := s.ev.a
    let x := s.cmd c
    let coll := x.kind == .coll && !x.stopped && !x.ending
    if !s.cmdIs then s
    else
      match s.ev.b with
      | 0 => s.startItem c
      | 1 => s.deliverItems c
      | 2 => if coll then s.collJoin c s.ev.c s.ev.bytes else s
      | 3 => s.goItem c s.ev.c
      | 5 => s.indexGoes c s.ev.c
      | 7 => if coll then s.rankIn c s.ev.c s.ev.bytes else s
      | _ => s)

/-! ## Issue -/

/-- The global destination lines of a command, which it owns from its issue, as its record stands (06 R146): once for each delivery to come. -/
def State.destLines (s : State) (g : Agent) (x : Cmd) : List Nat :=
  let r := Rd.silent s
  match x.kind with
  | .coll => s.linesAt g (x.w2 2) (4 * x.w 4)
  | .decode =>
    ((List.range (min (x.w 2) 65536)).flatMap fun j =>
      let v := (r.bytes g (x.w2 0 + 16 * j) 16).2
      let p := Packed.of (r.bytes g (recField v 0 8) 32).2
      if p.ok then s.linesAt g (recField v 8 8) p.outBytes else []).eraseDups
  | .scatr =>
    (List.range (min (x.w 2) (2 ^ 20))).flatMap fun j =>
      let i := (r.bytes g (x.w2 0 + 4 * j) 4).2
      if i < x.w 3 then s.linesAt g ((x.w2 4 + i * x.w 6) % 2 ^ 64) (4 * 2 ^ (x.sub % 4)) else []
  | .rast =>
    (List.range (min (x.w 2) (2 ^ 24))).flatMap fun j =>
      match (r.rastWrites g x j).2 with
      | none => []
      | some (_, ws) => ws.flatMap fun w => match w with
        | .pixel va k _ _ _ _ => s.linesAt g ((va + 128 * (k / 16)) % 2 ^ 64) 8 ++ s.linesAt g ((va + 2048 + 128 * (k / 32)) % 2 ^ 64) 4
        | _ => []
  | _ => []

/-- The fault of a command on its handle (05 R113; 10 R283). -/
def State.cmdFault (s : State) (kind : CmdKind) (h : Nat) : Option FaultRec :=
  let t := s.myTeam
  let st := (t.handle h).state
  let stop (b : Bool) : Option FaultRec := if t.handles.length ≤ h then some (handleRec s.ipc h 0) else if b then some (handleRec s.ipc h st) else none
  match kind with
  | .attr => stop (2 ≤ st)
  | .gather => stop (2 ≤ st)
  | .scatr => stop (st < 2)
  | _ => none
/-- A layout or format that a command may not use (10 R276, R281; 05 R113). -/
def State.cmdMismatch (s : State) (kind : CmdKind) (h layout fmt : Nat) (raw : Bool) : Bool :=
  let e := s.myTeam.handle h
  let differs := e.layout != layout || e.fmt != fmt
  !raw && match kind with
    | .attr => layout != 0 || fmt != 0 || (e.state == 1 && differs)
    | .gather => e.state == 1 && differs
    | .scatr => differs
    | _ => false

/-- What a lease handle is good for: a live lease of the class, or the status that the command ends with (10 R275). -/
def State.cmdLease (s : State) (h : Word) (cls : Nat) : Except Nat Nat :=
  match s.myTeam.matchSlot h with
  | none => .error 6
  | some k =>
    let sl := s.myTeam.slotOf k
    if h.toNat / 8 % 8 ≠ cls then .error 6
    else
      match sl.lease with
      | some l => .ok l
      | none => .error (if sl.revoked then 1 else 6)

/-- The issue of an engine command (10 R274, R275): its record is read, its ticket is written, and it reaches an engine 12 cc later. -/
def State.command (s : State) (kind : CmdKind) (o : Ops) : State :=
  let h := o.imm.toNat % 64
  let layout := o.imm.toNat / 2 ^ 7 % 8
  let fmt := o.imm.toNat / 2 ^ 10 % 16
  let raw := o.imm.getLsbD 14
  if s.noRoom .cp then s.stall
  else if !s.anyPassReal o then s.advance
  else
    match s.cmdFault kind h with
    | some r => (s.parkAll r).advance
    | none =>
      let bad := s.cmdMismatch kind h layout fmt raw
      let slot := ((List.range 64).find? fun k => !(getP ticketIdle s.me.tickets k).busy).getD 0
      let tseq := 1 + s.seq % (2 ^ 26 - 1)
      let words := (List.range 8).map fun k => s.me.sreg (o.s1.val.toNat + k)
      let ls := s.cmdLease (s.me.sreg o.s3.val.toNat) kind.cls
      let c := freeSlot Cmd.live s.cmds
      let x : Cmd := { Cmd.idle with
        live := true, kind := kind, sub := o.subN, warp := s.cur, team := s.me.team, core := s.me.core, asid := s.myTeam.asid
        lease := ls.toOption, ticket := slot, tseq := tseq, words := words, raw := raw, fmt := fmt, layout := layout
        handle := match kind with
          | .attr => some h
          | .gather => some h
          | .scatr => some h
          | _ => none
        seq := s.seq
        status := match ls with
          | .error e => e
          | .ok _ => if bad then 3 else 0
        stopped := bad }
      let x := { x with owned := if bad || x.lease.isNone then [] else s.destLines (s.cmdAgent x) x }
      let t : State := { s with cmds := setP Cmd.idle s.cmds c x }
      let t := t.onMe fun y =>
        { y.setS o.dst.toNat (BitVec.ofNat 32 (slot + 64 * tseq)) with
          tickets := setP ticketIdle y.tickets slot ⟨tseq, 15, true, 0⟩
          cp := y.cp + 1 }
      let t := if bad || kind == .scatr then t
        else match x.handle with
          | some h => t.onMyTeam fun m => m.beginFill s.now h layout fmt
          | none => t
      let v := BitVec.ofNat 64 s.seq
      let t := if x.lease.isNone then t.later 16 .engineCommandComplete c 0 0 v
        else
          let t := t.later 12 .engineCommandArrival c 0 0 v
          if kind == .coll then
            let n := x.w 7 / 2 ^ 16
            t.later (4096 * (if n = 0 then 65536 else n)) .collTimeout c 0 0 v
          else t
      t.bumpSeq.advance

/-! ## The instructions -/

/-- TRACE (R278): Issues a traversal of rays whose hits and misses are spawned into bins. -/
def execTrace (o : Ops) (s : State) : Out := memExec (.trace o) (fun s _ o => s.command .trace o) s

/-- ATTR (R281): Issues attribute computation for listed items into a buffer handle. -/
def execAttr (o : Ops) (s : State) : Out := memExec (.attr o) (fun s _ o => s.command .attr o) s

/-- RAST (R279): Issues rasterisation of a cluster list into visibility tiles. -/
def execRast (o : Ops) (s : State) : Out := memExec (.rast o) (fun s _ o => s.command .rast o) s

/-- THRESH (R280): Issues the classification and spawning of one visibility tile. -/
def execThresh (o : Ops) (s : State) : Out := memExec (.thresh o) (fun s _ o => s.command .thresh o) s

/-- DECODE (R282): Issues decompression of geometry clusters. -/
def execDecode (o : Ops) (s : State) : Out := memExec (.decode o) (fun s _ o => s.command .decode o) s

/-- GATHER (R283): Issues an indexed gather into a buffer handle. -/
def execGather (o : Ops) (s : State) : Out := memExec (.gather o) (fun s _ o => s.command .gather o) s

/-- SCATR (R283): Issues an indexed scatter from a buffer handle. -/
def execScatr (o : Ops) (s : State) : Out := memExec (.scatr o) (fun s _ o => s.command .scatr o) s

/-- COLL (R284): Issues a combination of one buffer across the devices of a group. -/
def execColl (o : Ops) (s : State) : Out := memExec (.coll o) (fun s _ o => s.command .coll o) s

end Sys2Proof.Machine
end

