-- ==== Sys2Proof/Machine/Control.lean ====
section
/-!
DEFINITION. Control flow (08 R196-R200) and `QFETCH` (03 R66). A target is not checked when it is set; it faults at its fetch
(08 R198).
-/
namespace Sys2Proof.Machine

/-- The target of a branch: the instruction's own address plus 4 × DISP24, or plus IMM32 (08 R196). -/
def State.branchTarget (s : State) (o : Ops) : DWord :=
  if o.form == .w64 then s.ipc + (BitVec.ofNat 24 o.imm.toNat).signExtend 64 * 4
  else s.ipc + (BitVec.ofNat 32 o.imm.toNat).signExtend 64

/-- The lanes of `active(w)` with a property branch to a target; the warp issues again 4 cc later when a PC is set and
1 cc later otherwise (08 R200). -/
def State.branchTo (s : State) (p : Nat → Bool) (t : Nat → DWord) : State :=
  (s.moveTo fun l => if p l then some (t l) else none).nextIn (if (lanesOf s.act).any p then 4 else 1)

/-- The 64-bit source of a register branch in each lane, with the lanes that an index out of bounds parks (03 R63). -/
def State.jumpArgs (s : State) (o : Ops) : BitVec 64 × List DWord :=
  (s.idxBad (shJump 0x03 o true) o, (List.range 64).map fun l => BitVec.ofNat 64 (s.src o .i64 o.s1 l))

/-- Lanes park for an index of a 64-bit source out of bounds. -/
def State.parkJump (s t : State) (o : Ops) (bad : BitVec 64) : State :=
  t.parkLanes s.cur bad fun l => idxRec s.ipc ((s.me.idxFault (shJump 0x03 o true) o l).getD 0)

/-- `BRX` and `RET`: PC := `a` in each passing lane. -/
def State.branchReg (s : State) (o : Ops) : State :=
  let (bad, t) := s.jumpArgs o
  let p := (List.range 64).map fun l => s.pass o l && !bad.getLsbD l
  (s.parkJump s o bad).branchTo (getP false p) (getP 0 t)

/-- NOP (R197): Does nothing; the warp issues again 1 cc later. -/
def execNop (o : Ops) (s : State) : Out :=
  .next (s.guarded (.nop o) fun s =>
    s.advance)

/-- HINT_NOP (R179): A hint-space major 0xF0 to 0xF7 executes as NOP, with every field above bit 9 ignored. -/
def execHintNop (_h : Hint) (s : State) : Out := .next s.advance

/-- BRA (R197): Sets the PC of each passing lane to the target, which splits active(w) into the lanes that branch and the lanes that advance. -/
def execBra (o : Ops) (s : State) : Out :=
  .next (s.guarded (.bra o) fun s =>
    let m := s.passMask o
    s.branchTo (fun l => m.getLsbD l) fun _ => s.branchTarget o)

/-- BRX (R197): Sets the PC of each passing lane to a 64-bit source value. -/
def execBrx (o : Ops) (s : State) : Out :=
  .next (s.guarded (.brx o) fun s =>
    s.branchReg o)

/-- BRALL (R197): Branches every lane of active(w) only when every lane passes its predicate test. -/
def execBrall (o : Ops) (s : State) : Out :=
  .next (s.guarded (.brall o) fun s =>
    let all := (lanesOf s.act).all (s.pass o)
    s.branchTo (fun _ => all) fun _ => s.branchTarget o)

/-- BRANY (R197): Branches every lane of active(w) when any lane passes its predicate test. -/
def execBrany (o : Ops) (s : State) : Out :=
  .next (s.guarded (.brany o) fun s =>
    let any := s.anyPass o
    s.branchTo (fun _ => any) fun _ => s.branchTarget o)

/-- CALL (R197): Saves the next address in a vector pair and branches to a label. -/
def execCall (o : Ops) (s : State) : Out :=
  .next (s.guarded (.call o) fun s =>
    let m := s.passMask o
    (s.putResults o 2 m fun _ => AluOut.val s.npc.toNat).branchTo (fun l => m.getLsbD l) fun _ => s.branchTarget o)

/-- CALLX (R197): Saves the next address in a vector pair and branches to a register address. -/
def execCallx (o : Ops) (s : State) : Out :=
  .next (s.guarded (.callx o) fun s =>
    let (bad, t) := s.jumpArgs o
    let m := s.passMask o &&& ~~~bad
    (s.parkJump (s.putResults o 2 m fun _ => AluOut.val s.npc.toNat) o bad).branchTo (fun l => m.getLsbD l) (getP 0 t))

/-- RET (R197): Sets the PC to a 64-bit source value. -/
def execRet (o : Ops) (s : State) : Out :=
  .next (s.guarded (.ret o) fun s =>
    s.branchReg o)

/-- MEET (R197): Sets the meeting register of each passing lane to a label. -/
def execMeet (o : Ops) (s : State) : Out :=
  .next (s.guarded (.meet o) fun s =>
    let m := s.passMask o
    (s.onMe fun x => x.mapLanes fun l y => if m.getLsbD l then { y with meet := s.branchTarget o } else y).advance)

/-- MEETX (R197): Sets the meeting register from a register value; the no-meeting value clears it. -/
def execMeetx (o : Ops) (s : State) : Out :=
  .next (s.guarded (.meetx o) fun s =>
    let (bad, t) := s.jumpArgs o
    let m := s.passMask o &&& ~~~bad
    (s.parkJump (s.onMe fun x => x.mapLanes fun l y => if m.getLsbD l then { y with meet := getP 0 t l } else y) o bad).advance)

/-- EXIT (R197): Each passing thread exits. -/
def execExitT (o : Ops) (s : State) : Out :=
  .next (s.guarded (.exitT o) fun s =>
    let m := s.passMask o
    (s.onMe fun x => x.mapLanes fun l y => if m.getLsbD l then { y with st := .exited } else y).advance)

/-- YIELD (R197): Treats the warp as having reached the greed limit when any lane passes. -/
def execYield (o : Ops) (s : State) : Out :=
  .next (s.guarded (.yield o) fun s =>
    if s.anyPass o then (s.onQuarter s.me.unit fun q => { q with greed := 256 }).advance else s.advance)

/-- The index register of `LOOP` after its decrement (08 R197). -/
def Lane.loopX (y : Lane) (o : Ops) : BitVec 16 := getP 0 y.x (o.dst.toNat - 8) - 1

/-- LOOP (R197): Decrements an index register and branches while its new value is not zero. -/
def execLoop (o : Ops) (s : State) : Out :=
  .next (s.guarded (.loop o) fun s =>
    let m := s.passMask o
    let go := (List.range 64).map fun l => m.getLsbD l && (s.me.lane l).loopX o != 0
    (s.onMe fun x => x.mapLanes fun l y => if m.getLsbD l then y.setX (o.dst.toNat - 8) (y.loopX o) else y).branchTo
      (getP false go) fun _ => s.branchTarget o)

/-- The table size of `JTAB` (08 R196): *n* − 1 in SRC2, or in the third-source immediate. -/
def jtabSize (o : Ops) : Nat := (if o.form == .w64 then o.s2.val.toNat else o.s3.val.toNat) + 1
/-- The shape of its index operand. -/
def shJtab (o : Ops) : Shape := shBr 0x0E o true true true

/-- JTAB (R198): Branches to entry a of an 8-byte jump table when a lies in range, and parks passing lanes when the target is misaligned. -/
def execJtab (o : Ops) (s : State) : Out :=
  .next (s.guarded (.jtab o) fun s =>
    let bad := s.idxBad (shJtab o) o
    let a := (List.range 64).map fun l => s.src o .i32 o.s1 l
    let sel := s.me.maskOf fun l _ => s.pass o l && !bad.getLsbD l && getP 0 a l < jtabSize o
    let s1 := s.parkLanes s.cur bad fun l => idxRec s.ipc ((s.me.idxFault (shJtab o) o l).getD 0)
    if (s.branchTarget o).toNat % 8 = 0 then
      s1.branchTo (fun l => sel.getLsbD l) fun l => s.branchTarget o + BitVec.ofNat 64 (8 * getP 0 a l)
    else (s1.parkLanes s.cur sel fun _ => { mkFault 0x06 s.ipc with addr := s.branchTarget o }).advance)

/-- The operand of `SLEEP` in a lane (08 R197), and its shape. -/
def State.sleepArg (s : State) (o : Ops) (l : Nat) : Nat := if o.form == .w96i then o.imm.toNat % 2 ^ 32 else s.src o .i32 o.s1 l
def shSleep : Shape := shRaw 0x0F [.w64, .w96i] false true

/-- SLEEP (R197): Stalls the warp for the largest requested number of cycles. -/
def execSleep (o : Ops) (s : State) : Out :=
  .next (s.guarded (.sleep o) fun s =>
    let bad := s.idxBad shSleep o
    let m := s.passMask o &&& ~~~bad
    let b := (lanesOf m).foldl (fun n l => max n (s.sleepArg o l)) 0
    (s.parkLanes s.cur bad fun l => idxRec s.ipc ((s.me.idxFault shSleep o l).getD 0)).advance (max 1 b))

/-- DEMOTE (R199): Makes each passing lane a helper lane until the thread exits. -/
def execDemote (o : Ops) (s : State) : Out :=
  .next (s.guarded (.demote o) fun s =>
    let m := s.passMask o
    (s.onMe fun x => x.mapLanes fun l y => if m.getLsbD l then { y with helper := true } else y).advance)

/-- The registers that `QFETCH` names (03 R66). -/
def qfetchRegs (o : Ops) : List Nat :=
  (List.range 4).filterMap fun k =>
    if o.imm.toNat / 2 ^ (32 + k) % 2 = 1 then some (o.imm.toNat / 2 ^ (8 * k) % 256) else none

/-- One register into the operand queue: kept where it stands, else allocated, the oldest of eight entries giving way. -/
def queueAdd (now : Nat) (q : List (Nat × Nat)) (r : Nat) : List (Nat × Nat) :=
  if q.any fun e => e.1 == r then q
  else (if q.length < 8 then q else q.drop 1) ++ [(r, now + 3)]

/-- QFETCH (R66): Allocates operand-queue entries for one to four vector registers. -/
def execQfetch (o : Ops) (s : State) : Out :=
  .next (s.guarded (.qfetch o) fun s =>
    if s.me.hmode then s.advance
    else if (qfetchRegs o).all (· < s.me.nregs) then
      (s.onMe fun x => { x with oq := (qfetchRegs o).foldl (queueAdd s.now) x.oq }).advance
    else s.faultAll 0x01)

end Sys2Proof.Machine
end

