-- ==== Sys2Proof/Machine/Matrix.lean ====
section
/-!
DEFINITION. The matrix arrays (10 R256-R267; 04 R93-R99, R105): the sheaf rendezvous (02 R36, R37), loading weights, streaming
activations, moving accumulators, and the tile operations in the order of their quarters with the accumulators they own.
-/
namespace Sys2Proof.Machine

/-! ## The sheaf -/

/-- The warps of a warp's sheaf that have neither retired nor been ended, itself among them. -/
def State.sheaf (s : State) (w : Nat) : List Nat :=
  (List.range s.warps.length).filter fun v => (v == w || s.sameSheaf v w) && (s.warp v).live && !(s.warp v).ended
/-- The state as warp `q` of the running warp's sheaf sees it, all its lanes active. -/
def State.mate (s : State) (q : Nat) : State :=
  { s with cur := ((s.sheaf s.cur).find? fun v => (s.warp v).num % 4 == q).getD s.cur, act := BitVec.allOnes 64 }

/-- Why the arrival of a warp at a sheaf-collective instruction is an illegal convergence, by the rows of 02 R37. -/
def State.badArrival (s : State) : Option Nat :=
  let ms := s.sheaf s.cur
  if (lanesOf s.act).length < 64 then some 1
  else if ms.length < 4 then some 4
  else if ms.any fun v => v != s.cur && (s.warp v).rdv.isSome && (s.warp v).rdv != some s.ipc then some 2
  else none

/-- The sheaf rendezvous (02 R36): the instruction issues in all four quarters in the cycle after the last warp arrives. -/
def State.collective (s : State) (k : State → State) : State :=
  if s.noRoom .tl then s.stall
  else if s.me.rdv = some s.ipc then
    (if s.me.rdvAt ≠ 0 && s.me.rdvAt ≤ s.now then k (s.onMe fun x => { x with rdv := none, rdvAt := 0 }) else s.stall)
  else
    match s.badArrival with
    | some c => (s.stall.breakSheaf s.cur c).trap s.cur ⟨0x08, 0, s.ipc, BitVec.ofNat 32 c⟩
    | none =>
      let t := s.onMe fun x => { x with rdv := some s.ipc, rdvAt := 0 }
      let ms := t.sheaf s.cur
      (if ms.all fun v => (t.warp v).rdv == some s.ipc then
        ms.foldl (fun t v => t.onWarp v fun x => { x with rdvAt := s.now + 1 }) t
      else t).stall

/-! ## Tile operations -/

def State.tileop (s : State) (i : Nat) : TileOp := getP TileOp.idle s.tileops i
def State.onTileop (s : State) (i : Nat) (f : TileOp → TileOp) : State :=
  { s with tileops := setP TileOp.idle s.tileops i (f (s.tileop i)) }
/-- The accumulator that an operation reads or writes, and thus owns (10 R259). -/
def TileKind.acc : TileKind → Option Nat
  | .mldw _ => none
  | .mwst _ => none
  | .mstr m _ _ _ _ _ _ => some m
  | .mstacc m _ _ _ _ _ _ _ _ => some m
  | .mldacc m => some m
def TileKind.isMstr : TileKind → Bool
  | .mstr _ _ _ _ _ _ _ => true
  | _ => false
def TileKind.isMstacc : TileKind → Bool
  | .mstacc _ _ _ _ _ _ _ _ _ => true
  | _ => false
def TileKind.isMldacc : TileKind → Bool
  | .mldacc _ => true
  | _ => false
/-- The operations that occupy the array (10 R260). -/
def TileKind.onArray (k : TileKind) : Bool := !k.isMstacc && !k.isMldacc
def TileOp.owns (k : TileOp) (w m : Nat) : Bool := k.live && k.warp == w && k.kind.acc == some m

/-- The live tile operation of a warp that owns one of the accumulators, the oldest first, with the lowest it owns. -/
def State.busyAcc (s : State) (ms : List Nat) : Option (TileOp × Nat) :=
  let ks := s.tileops.filter fun k => ms.any fun m => k.owns s.cur m
  (ks.foldl (fun (b : Option TileOp) k => match b with
    | none => some k
    | some j => if k.seq < j.seq then some k else some j) none).map fun k => (k, (k.kind.acc).getD 0)

/-- A tile operation issues: it enters its quarter's order and counts on TL. -/
def State.addTile (s : State) (kind : TileKind) (at_ : Nat) (memop : Option Nat) (ready : List (Nat × Nat)) : State :=
  let i := freeSlot TileOp.live s.tileops
  let k : TileOp := ⟨true, s.cur, s.me.unit, kind, s.ipc, at_, false, false, 0, s.seq, memop, ready⟩
  (({ s with tileops := setP TileOp.idle s.tileops i k }).count s.cur .tl (· + 1)).bumpSeq

/-- The earlier operations of an operation's warp on its accumulator that are not complete. -/
def State.tilesBefore (s : State) (k : TileOp) : List TileOp :=
  s.tileops.filter fun j => j.live && j.warp == k.warp && j.seq < k.seq && k.kind.acc.isSome && j.kind.acc == k.kind.acc

/-- Every earlier reader of the accumulator has read it, at least 1 cc ago (10 R260). -/
def State.readersDone (s : State) (k : TileOp) : Bool :=
  (s.tilesBefore k).all fun j => j.kind.isMldacc || (j.started && j.doneAt + 1 ≤ s.now)

/-- An operation on the array can start in this cycle, or its array begins to reload its slot. -/
def State.arrayReady (s : State) (k : TileOp) : Bool :=
  k.live && !k.started && k.kind.onArray && k.issued ≤ s.now && (s.quarter k.quarter).arrayFree ≤ s.now &&
  !(s.tileops.any fun j => j.live && !j.started && j.kind.onArray && j.quarter == k.quarter && j.seq < k.seq) &&
  (!k.kind.isMstr || (s.tilesBefore k).all fun j =>
    j.kind.isMstr || (j.kind.isMstacc && j.started && j.doneAt + 1 ≤ s.now))
/-- An operation that starts in this cycle (10 R260). -/
def State.tileReady (s : State) (k : TileOp) : Bool :=
  s.arrayReady k ||
  (k.live && !k.started && k.kind.isMstacc && k.issued ≤ s.now && (s.tilesBefore k).all fun j => j.kind.isMstacc)
/-- ... by its place in the table, the oldest first. -/
def State.startingTile (s : State) : Option Nat := (List.range s.tileops.length).find? fun i => s.tileReady (s.tileop i)
/-- A load whose lines have come and that waited for the hazard cycle. -/
def State.loadedTile (s : State) : Option Nat :=
  (List.range s.tileops.length).find? fun i =>
    let k := s.tileop i
    k.live && k.kind.isMldacc && k.readDone && s.readersDone k && !((s.tilesBefore k).any fun j => j.kind.isMldacc)

/-! ## Weights -/

/-- Stored rows of a weight tile (10 R257). -/
def storedK (fmt : Nat) : Nat := if fmt = 1 then 64 else if fmt = 2 || fmt = 3 then 32 else 16
/-- The logical K of a slot. -/
def WSlot.logicalK (ws : WSlot) : Nat := storedK ws.fmt * (if ws.sparse then 2 else 1)
/-- The code of +0 in a format. -/
def zeroCode (fmt : Nat) : Nat := elemEnc fmt (.fin false Q.zero)

/-- The warp, lane and element of a lane that supply stored weight (k, n) (10 R262). -/
def weightRole (fmt k n : Nat) : Nat × Nat × Nat :=
  let ks := storedK fmt
  (k / (ks / 4), 16 * (k % (ks / 4) / (ks / 16)) + n, k % (ks / 16))

/-- The weight tile that the registers of the sheaf hold (10 R262). -/
def State.weightsOf (s : State) (o : Ops) : WSlot :=
  let fmt := o.subN % 16
  let sp := o.subN / 16 = 1
  let at_ (k n : Nat) : Nat × Nat :=
    let r := weightRole fmt k n
    let t := s.mate r.1
    ((if t.pass o r.2.1 then packedElem fmt (t.readN o o.s1 1 r.2.1) r.2.2 else zeroCode fmt), t.src o .i32 o.s2 r.2.1 % 256)
  let es := (List.range (storedK fmt)).flatMap fun k => (List.range 16).map fun n => at_ k n
  ⟨fmt, sp, storedK fmt, es.map (·.1), es.map (·.2),
    if sp then (List.range (storedK fmt)).map fun l => (s.mate 0).me.reg l o.dst.toNat else []⟩

/-- Bytes of one tile of a format in scratch (10 R263; 04 R105). -/
def tileLines (fmt : Nat) : Nat := (8 + lineBlocks fmt - 1) / lineBlocks fmt
def tileBytes (fmt : Nat) : Nat := if fmt = 4 || fmt = 5 then 512 else 128 * tileLines fmt

/-- Code and scale of element (r, c) of a tile image in a format, bytes as a number; a block that its line's header does not
have reads as +0, unless the line is read raw (04 R95, R105). -/
def tileElem (fmt : Nat) (raw : Bool) (img r c : Nat) : Nat × Nat :=
  if fmt = 4 || fmt = 5 then (img / 2 ^ (16 * (16 * r + c)) % 2 ^ 16, 0x7F)
  else
    let j := r / 2
    let line := img / 2 ^ (1024 * (j / lineBlocks fmt)) % 2 ^ 1024
    let b := j % lineBlocks fmt
    let blk := line / 2 ^ (8 * blockAt fmt b)
    ((if !raw && presentBlocks fmt line ≤ b then zeroCode fmt else payloadElem fmt (blk / 256) (r % 2 * 16 + c)), blk % 256)
/-- The lines of some tiles whose header does not hold the format (04 R95). -/
def tileHeaderBad (fmt n img : Nat) : Bool :=
  !(fmt == 4 || fmt == 5) && (List.range (n * tileLines fmt)).any fun k => img / 2 ^ (1024 * k) % 16 != fmt

/-- The weight tile of `MWST` from the bytes of its buffer (10 R263). -/
def State.weightsIn (s : State) (o : Ops) (fmt : Nat) (sp raw : Bool) (img : Nat) : WSlot :=
  let ks := storedK fmt
  let at_ (k n : Nat) : Nat × Nat :=
    let r := weightRole fmt k n
    let e := tileElem fmt raw (img / 2 ^ (8 * (tileBytes fmt * (k / 16)))) (k % 16) n
    ((if (s.mate r.1).pass o r.2.1 then e.1 else zeroCode fmt), e.2)
  let es := (List.range ks).flatMap fun k => (List.range 16).map fun n => at_ k n
  ⟨fmt, sp, ks, es.map (·.1), es.map (·.2),
    if sp then (List.range ks).map fun k => BitVec.ofNat 32 (img / 2 ^ (8 * (tileBytes fmt * (ks / 16)) + 32 * k)) else []⟩

/-- MLDW (R262): Sheaf-collective load of a weight tile from registers. -/
def execMldw (o : Ops) (s : State) : Out :=
  memExec (.mldw o) (fun s _ o => s.collective fun s => (s.addTile (.mldw (s.weightsOf o)) s.now none []).advance) s

/-- MWST (R263): Sheaf-collective load of a weight tile from a scratch buffer handle. -/
def execMwst (o : Ops) (s : State) : Out :=
  memExec (.mwst o) (fun s _ o => s.collective fun s =>
    let fmt := o.subN % 16
    let sp := o.subN / 16 % 2 = 1
    let raw := o.subN / 32 = 1
    let h := o.dst.toNat
    let t := s.myTeam
    let e := t.handle h
    let off := if o.form.isImm then o.imm.toNat % 2 ^ 32 else (s.mate 0).uni o o.s2
    let tiles := storedK fmt / 16
    let n := tiles * tileBytes fmt + (if sp then 64 * tiles else 0)
    let wide := fmt = 4 || fmt = 5
    if t.handles.length ≤ h then (s.parkAll (handleRec s.ipc h 0)).advance
    else if e.state < 2 then (s.parkAll (handleRec s.ipc h e.state)).advance
    else if off % (if wide then 512 else 128) ≠ 0 then (s.parkAll (accRec 6 s.ipc false 4 off)).advance
    else if e.bytes < off + n then (s.parkAll (accRec 5 s.ipc false 4 off)).advance
    else
      let img := t.read (64 * e.base + off) n
      if !raw && (e.layout != (if wide then 2 else 3) || e.fmt != fmt || tileHeaderBad fmt tiles img) then
        (s.parkAll (mkFault 0x0A s.ipc)).advance
      else
        let a := 64 * e.base + off
        (s.addTile (.mwst (s.weightsIn o fmt sp raw img)) (s.now + 24 + ((a + n - 1) / 128 - a / 128 + 1)) none []).advance) s

/-! ## Activations -/

/-- The format and sparsity that the sheaf's earlier weight operations leave (10 R264). -/
def State.weightsAhead (s : State) : WSlot :=
  ((s.tileops.foldl (fun (b : Option (Nat × WSlot)) k =>
    let take (ws : WSlot) : Option (Nat × WSlot) :=
      match b with
      | some (q, v) => if q < k.seq then some (k.seq, ws) else some (q, v)
      | none => some (k.seq, ws)
    if !(k.live && k.warp == s.cur) then b
    else
      match k.kind with
      | .mldw ws => take ws
      | .mwst ws => take ws
      | _ => b) none).map (·.2)).getD s.me.ws

/-- MSTR (R264): Sheaf-collective: streams activation rows through the array into an accumulator. -/
def execMstr (o : Ops) (s : State) : Out :=
  memExec (.mstr o) (fun s _ o => s.collective fun s =>
    let fmt := o.subN % 16
    let kl := 16 * 2 ^ (o.subN / 16)
    let sc := if o.form.isImm then o.s3 else o.s2
    let rows := if o.form.isImm then o.imm.toNat % 32 else 16
    let cols := if o.form.isImm then o.imm.toNat / 2 ^ 8 % 32 else 16
    if s.weightsAhead.logicalK ≠ kl then (s.parkAll (mkFault 0x0A s.ipc)).advance
    else
      let epr := if fmt = 3 then 8 else if fmt = 1 || fmt = 2 then 4 else 2
      let elem (r p : Nat) : Nat :=
        let l := 4 * r + p / (kl / 4)
        let i := p % (kl / 4)
        if s.pass o l then packedElem fmt (s.me.reg l (o.s1.val.toNat + i / epr)).toNat (i % epr) else zeroCode fmt
      let acts := (List.range 16).map fun r => (List.range kl).map (elem r)
      let scales := (List.range 16).map fun r => (List.range 4).map fun j => s.src o .i32 sc (4 * r + j) % 256
      (s.addTile (.mstr o.dst.toNat fmt kl rows cols acts scales) s.now none []).advance) s

/-- The activations that a group's two weights act on (04 R98). -/
def sparsePair (code : Nat) : Option (Nat × Nat) :=
  match code with
  | 0 => some (0, 1)
  | 1 => some (0, 2)
  | 2 => some (0, 3)
  | 3 => some (1, 2)
  | 4 => some (1, 3)
  | 5 => some (2, 3)
  | 6 => some (0, 0)
  | 7 => some (1, 1)
  | 8 => some (2, 2)
  | 9 => some (3, 3)
  | _ => none

/-- The four products of group `g` of row `r` and column `n` (10 R264; 04 R98, R99). -/
def groupProducts (ws : WSlot) (fmt kl : Nat) (acts scales : List (List Nat)) (r n g : Nat) : List FV :=
  let a (p : Nat) : Nat := getP 0 (getP [] acts r) p
  let sa (p : Nat) : Nat := getP 0 (getP [] scales r) (p / (kl / 4))
  let w (k : Nat) : Nat := getP 0 ws.wts (16 * k + n)
  let sw (k : Nat) : Nat := getP 0 ws.scales (16 * k + n)
  let prod (p k : Nat) : FV := mprod fmt (a p) (sa p) ws.fmt (w k) (sw k)
  let z := FV.fin false Q.zero
  if ws.sparse then
    match sparsePair ((getP 0 ws.mdata (16 * (g / 8) + n)).toNat / 2 ^ (4 * (g % 8)) % 16) with
    | some (i, j) => [prod (4 * g + i) (2 * g), prod (4 * g + j) (2 * g + 1), z, z]
    | none => [z, z, z, z]
  else (List.range 4).map fun i => prod (4 * g + i) (4 * g + i)

/-- The accumulator after a stream of activations (10 R264). -/
def mstrResult (ws : WSlot) (fmt kl : Nat) (acts scales : List (List Nat)) (acc : Nat) (r n : Nat) : Nat :=
  (List.range (kl / 4)).foldl (fun c g => accAdd c (groupSum (groupProducts ws fmt kl acts scales r n g))) acc

/-! ## Immediate accumulator instructions -/

/-- An instruction that acts at once on accumulators it names: with one of them owned it takes the accumulator-busy trap, and
in handler mode it waits (10 R259). -/
def State.immediate (s : State) (o : Ops) (ms : List Nat) (k : State → State) : State :=
  if !s.anyPass o then s.advance
  else
    match s.busyAcc ms with
    | some (j, m) => if s.me.hmode then s.stall else s.stall.trap s.cur ⟨0x09, 0, j.pc, BitVec.ofNat 32 m⟩
    | none => (k s).advance

/-- MZERO (R265): Sets every element of an accumulator to +0, with the accumulator-busy trap when owned. -/
def execMzero (o : Ops) (s : State) : Out :=
  memExec (.mzero o) (fun s _ o => s.immediate o [o.dst.toNat] fun s =>
    s.onMe fun x => x.setAcc o.dst.toNat fun _ _ => 0) s

/-- MRD (R265): Reads an accumulator into vector registers. -/
def execMrd (o : Ops) (s : State) : Out :=
  memExec (.mrd o) (fun s _ o => s.immediate o [o.s1.val.toNat] fun s =>
    s.putResults o 4 (s.passMask o) fun l =>
      AluOut.val ((List.range 4).foldr (fun j v => (s.me.acc o.s1.val.toNat (l / 4) (4 * (l % 4) + j)).toNat + 2 ^ 32 * v) 0)) s

/-- MWR (R265): Writes an accumulator from vector registers. -/
def execMwr (o : Ops) (s : State) : Out :=
  memExec (.mwr o) (fun s _ o => s.immediate o [o.dst.toNat] fun s =>
    s.onMe fun x => x.setAcc o.dst.toNat fun r c =>
      let l := 4 * r + c / 4
      if s.pass o l then s.me.reg l (o.s1.val.toNat + c % 4) else s.me.acc o.dst.toNat r c) s

/-- MCPY (R265): Copies one accumulator to another. -/
def execMcpy (o : Ops) (s : State) : Out :=
  memExec (.mcpy o) (fun s _ o => s.immediate o [o.dst.toNat, o.s1.val.toNat] fun s =>
    s.onMe fun x => x.setAcc o.dst.toNat (s.me.acc o.s1.val.toNat)) s

/-- MSCL (R265): Scales an accumulator by a scalar. -/
def execMscl (o : Ops) (s : State) : Out :=
  memExec (.mscl o) (fun s _ o => s.immediate o [o.dst.toNat] fun s =>
    let fl := fp32.flush o.ftz
    let k := fl (s.src o .f32 o.s1 0)
    s.onMe fun x => x.setAcc o.dst.toNat fun r c =>
      BitVec.ofNat 32 (fl (fMul fp32 o.rm (fl (s.me.acc o.dst.toNat r c).toNat) k))) s

/-- MTRN (R265): Transposes an accumulator. -/
def execMtrn (o : Ops) (s : State) : Out :=
  memExec (.mtrn o) (fun s _ o => s.immediate o [o.dst.toNat, o.s1.val.toNat] fun s =>
    s.onMe fun x => x.setAcc o.dst.toNat fun r c => s.me.acc o.s1.val.toNat c r) s

/-- MSYN (R265): Stalls until no named accumulator is owned. -/
def execMsyn (o : Ops) (s : State) : Out :=
  memExec (.msyn o) (fun s _ o =>
    if !s.anyPass o then s.advance
    else if (s.busyAcc ((List.range 8).filter fun m => o.s1.val.getLsbD m)).isSome then s.stallAs 1 0
    else s.advance) s

/-! ## Storing and loading tiles -/

/-- A tile access in memory (10 R266, R267): bytes of an element, the leading dimension, and the accesses of the whole tile from
a base. -/
structure TileAt where
  fmt : Nat
  layout : Nat
  ld : Nat

/-- Bytes of an element that is not in a block. -/
def TileAt.z (t : TileAt) : Nat := if t.fmt = 0 then 4 else 2
def tileAt (s : State) (o : Ops) : TileAt :=
  ⟨o.subN % 16, o.auxN, if 2 ≤ o.auxN then 0 else s.uni o o.s3⟩
/-- The element or 16-byte piece of a place in the tile, with its offset: an element `16 r + c`, or a piece of a scaled line. -/
def TileAt.parts (t : TileAt) : List (Nat × Nat × Nat) :=
  if t.layout = 3 then (List.range (8 * tileLines t.fmt)).map fun k => (k, 16 * k, 16)
  else (List.range 256).map fun k => (k, tensorOff t.layout (2 * t.z) t.ld (k / 16) (k % 16), t.z)
/-- The bytes that a tile spans. -/
def TileAt.span (t : TileAt) : Nat := t.parts.foldl (fun n p => max n (p.2.1 + p.2.2)) 0
/-- The alignment of a tile (04 R104). -/
def TileAt.aligned (t : TileAt) (base : Nat) : Bool :=
  base % (if t.layout = 3 then 128 else if t.layout = 2 then 256 * t.z else t.z) == 0
/-- The accesses of a tile at a base, `reg` naming the place in the tile. -/
def TileAt.accs (t : TileAt) (l base : Nat) (pa : Nat) : List Acc :=
  t.parts.map fun p => ⟨l, (base + p.2.1) % 2 ^ 64, pa + p.2.1, p.2.2, 0, p.1, false, false, none⟩

/-- The lines of a quantised tile as bytes, and the QSTAT bits (04 R93, R96, R105). -/
def scaledImage (fmt : Nat) (v : Nat → FV) : List Byte × Nat :=
  let qs := (List.range 8).map fun j => quantBlock fmt ((List.range 32).map fun k => v (32 * j + k))
  let nl := tileLines fmt
  let line (k : Nat) : List Byte :=
    let here := min (lineBlocks fmt) (8 - k * lineBlocks fmt)
    let v := (List.range here).foldr (fun b n =>
      let q := getP (0, [], 0) qs (k * lineBlocks fmt + b)
      q.1 % 256 + 256 * payloadOf fmt q.2.1 + 2 ^ (8 * (1 + blockBytes fmt)) * n) 0
    toBytes 128 (fmt + 16 * here + 2 ^ 24 * v)
  ((List.range nl).flatMap line, qs.foldl (fun b q => b ||| q.2.2) 0)

/-- MSTACC (R266): Stores an accumulator to global memory or scratch, converting and quantising. -/
def execMstacc (o : Ops) (s : State) : Out :=
  memExec (.mstacc o) (fun s _ o =>
    let t := tileAt s o
    let raw := o.subN / 16 % 2 = 1
    let tm := s.myTeam
    let kind (dst : Place) (h : Option Nat) : TileKind :=
      .mstacc o.dst.toNat s.me.team t.layout t.fmt o.rm o.ftz t.ld dst h
    let m : MemOp := { MemOp.idle with
      live := true, warp := s.cur, core := s.me.core, ctr := .none, kind := .mstacc 0, req := .store, seq := s.seq, pc := s.ipc
      uni := some s.act, handler := s.me.hmode }
    if s.noRoom .tl then s.stall
    else if !s.anyPassReal o then s.advance
    else if o.subN / 32 = 1 then
      let h := o.imm.toNat % 64
      let e := tm.handle h
      let off := s.uni o o.s1
      let f := tm.fillFault s.ipc h t.layout t.fmt raw
      if !t.aligned off then (s.parkAll (accRec 6 s.ipc true t.z off)).advance
      else
        match f with
        | some r =>
          (if r.cls = 0x0A && e.bytes < off + t.span then s.parkAll (accRec 5 s.ipc true t.z off) else s.parkAll r).advance
        | none =>
          if e.bytes < off + t.span then (s.parkAll (accRec 5 s.ipc true t.z off)).advance
          else
            let (s1, i) := (s.onMyTeam fun u => u.beginFill s.now h t.layout t.fmt).addMemop
              { m with accs := t.accs s.firstLane off (64 * e.base + off) }
            (s1.addTile (kind (.scr s.me.team (64 * e.base + off) (some h) off) (some h)) (s.now + 1) (some i) []).advance
    else
      let base := wrapN 64 (s.uni64 o.s1 + sx 32 (o.imm.toNat % 2 ^ 32))
      if !t.aligned base then (s.parkAll (accRec 6 s.ipc true t.z base)).advance
      else
        let c := s.clearWith s.cur s.ipc { Need.plain true t.z with uni := some s.act } (fun _ => Need.plain true t.z) (fun _ => none)
          (t.accs s.firstLane base 0)
        if c.accs.isEmpty then c.s.advance
        else
          let (s1, i) := c.s.addMemop { m with accs := c.accs }
          (s1.addTile (kind (.glob base) none) (s.now + 1) (some i) c.ready).advance) s

/-- MLDACC (R267): Loads an accumulator from global memory or scratch. -/
def execMldacc (o : Ops) (s : State) : Out :=
  memExec (.mldacc o) (fun s _ o =>
    let t := tileAt s o
    let raw := o.subN / 16 % 2 = 1
    let tm := s.myTeam
    let m : MemOp := { MemOp.idle with
      live := true, warp := s.cur, core := s.me.core, ctr := .none, kind := .mldacc o.dst.toNat t.fmt, req := .load, seq := s.seq
      pc := s.ipc, uni := some s.act, handler := s.me.hmode }
    if s.noRoom .tl then s.stall
    else if !s.anyPass o then s.advance
    else if o.subN / 32 = 1 then
      let h := o.imm.toNat % 64
      let e := tm.handle h
      let off := s.uni o o.s1
      if !t.aligned off then (s.parkAll (accRec 6 s.ipc false t.z off)).advance
      else if tm.handles.length ≤ h then (s.parkAll (handleRec s.ipc h 0)).advance
      else if e.state < 2 then (s.parkAll (handleRec s.ipc h e.state)).advance
      else if e.bytes < off + t.span then (s.parkAll (accRec 5 s.ipc false t.z off)).advance
      else if !raw && (e.layout != t.layout || e.fmt != t.fmt) then (s.parkAll (mkFault 0x0A s.ipc)).advance
      else
        let accs := t.accs s.firstLane off (64 * e.base + off)
        let k := bankRounds tm.kern.swz t.z (accs.map (·.pa))
        let (s1, i) := s.addMemop { m with accs := accs, left := 1 }
        (((s1.addTile (.mldacc o.dst.toNat) s.now (some i) []).later 2 .requestArrival i 2 s.me.team).later (24 + 2 * (k - 1)) .loadReply i 1).advance
    else
      let base := wrapN 64 (s.uni64 o.s1 + sx 32 (o.imm.toNat % 2 ^ 32))
      if !t.aligned base then (s.parkAll (accRec 6 s.ipc false t.z base)).advance
      else
        let c := s.clearWith s.cur s.ipc { Need.plain false t.z with uni := some s.act } (fun _ => Need.plain false t.z) (fun _ => none)
          (t.accs s.firstLane base 0)
        if c.accs.isEmpty then c.s.advance
        else
          let lines := sortU (c.accs.map fun a => lineOf a.va)
          let (s1, i) := c.s.addMemop { m with accs := c.accs, left := lines.length }
          ((s1.addTile (.mldacc o.dst.toNat) s.now (some i) []).sendLines i (c.slots.filter fun q => lines.contains q.1)).advance) s

/-! ## Starting and completing -/

/-- Rotates a list. -/
def rotateList {α : Type} (n : Nat) (l : List α) : List α := l.drop n ++ l.take n

/-- `MSTACC` reads its accumulator: the data of its accesses and its QSTAT bits (10 R266). Elements that a small leading
dimension lays over one another are written in an order the spec leaves open (log entry 42). -/
def State.readTile (s : State) (k : TileOp) (op : Nat) : State :=
  match k.kind with
  | .mstacc m _ layout fmt rm ftz ld _ _ =>
    let x := s.warp k.warp
    let v (e : Nat) : Nat := (x.acc m (e / 16) (e % 16)).toNat
    if layout = 3 then
      let img := scaledImage fmt fun e => fp32.decode (v e)
      s.onMemop op fun q =>
        { q with
          kind := .mstacc img.2
          accs := q.accs.map fun a => { a with data := BitVec.ofNat 256 (leNum ((img.1.drop (16 * a.reg)).take 16)) } }
    else
      let f := if fmt = 4 then bf16 else fp16
      let conv (e : Nat) : Nat := if fmt = 0 then v e else f.flush ftz (f.round rm (fp32.decode (fp32.flush ftz (v e))))
      let n := if layout ≤ 1 && ld < 16 then (Config.freeWord s.free).toNat % 256 else 0
      let s : State := if layout ≤ 1 && ld < 16 then { s with free := s.free + 1 } else s
      s.onMemop op fun q =>
        { q with accs := rotateList n (q.accs.map fun a => { a with data := BitVec.ofNat 256 (conv a.reg) }) }
  | _ => s

/-- The lines of `MSTACC` are sent: to memory, or delivered to scratch 24 cc after each is sent (10 R266). -/
def State.storeTile (s : State) (i op : Nat) (k : TileOp) (t0 : Nat) : State :=
  let m := s.memop op
  match k.kind with
  | .mstacc _ _ _ _ _ _ _ (.scr _ _ _ _) _ =>
    let rows := sortU (m.accs.map fun a => lineOf a.pa)
    ((List.range rows.length).foldl (fun s j =>
      s.later (t0 + j + 24 - s.now) .tileOpComplete i 1 (getP 0 rows j)) (s.onMemop op fun q => { q with left := rows.length }))
  | _ =>
    let lines := sortU (m.accs.map fun a => lineOf a.va)
    ((s.onMemop op fun q => { q with left := lines.length }).ownStore m.core m.accs).sendLines op (sendSlots k.ready (max t0 (s.sendFrom m.core true)) lines)

/-- The array takes a weight slot (10 R256). -/
def State.latch (s : State) (k : TileOp) : State :=
  (s.onQuarter k.quarter fun q => { q with latched := some k.warp }).onWarp k.warp fun x => { x with latched := true }
def State.loadSlot (s : State) (i : Nat) (k : TileOp) (ws : WSlot) : State :=
  ((((s.onWarp k.warp fun x => { x with ws := ws }).latch k).onQuarter k.quarter fun q => { q with arrayFree := s.now + 20 }).onTileop i
    fun k => { k with started := true, doneAt := s.now }).later 20 .tileOpComplete i

/-- TILE_OP_START (R260): A queued tile operation starts on the array once its order, hazard and array-free conditions hold. -/
def execTileOpStart (s : State) : Out :=
  .next (
    let i := s.ev.a
    let k := s.tileop i
    if !s.tileReady k then s
    else
      match k.kind with
      | .mldw ws => s.loadSlot i k ws
      | .mwst ws => s.loadSlot i k ws
      | .mstr m fmt kl rows cols acts scales =>
        let q := s.quarter k.quarter
        let x := s.warp k.warp
        if !(q.latched == some k.warp && x.latched) then
          (s.latch k).onQuarter k.quarter fun q => { q with arrayFree := s.now + 20 }
        else
          let y := x.setAcc m fun r c =>
            if r < rows && c < cols then BitVec.ofNat 32 (mstrResult x.ws fmt kl acts scales (x.acc m r c).toNat r c) else x.acc m r c
          (((s.setWarp k.warp y).onQuarter k.quarter fun q => { q with arrayFree := s.now + 16 }).onTileop i
            fun k => { k with started := true, doneAt := s.now }).later 22 .tileOpComplete i
      | .mstacc _ _ layout _ _ _ _ _ _ =>
        match k.memop with
        | some op =>
          (((s.onTileop i fun k => { k with started := true, doneAt := s.now }).readTile k op).storeTile i op k
            (s.now + (if layout = 3 then 10 else 2)))
        | none => s
      | .mldacc _ => s)

/-- A tile operation leaves TL and owns nothing any more. -/
def State.closeTileOp (s : State) (i : Nat) : State :=
  let k := s.tileop i
  let s := match k.memop with
    | some op => s.onMemop op fun _ => MemOp.idle
    | none => s
  (s.onWarp k.warp fun x => x.lower s.now .tl).onTileop i fun _ => TileOp.idle
/-- The accumulator of a load is written (10 R267), unless its lanes parked. -/
def State.fillTile (s : State) (i : Nat) : State :=
  let k := s.tileop i
  match k.memop, k.kind with
  | some op, .mldacc m =>
    let q := s.memop op
    let fmt := match q.kind with
      | .mldacc _ f => f
      | _ => 0
    let conv (v : Nat) : Nat := if fmt = 0 then v else fp32.round .rne ((if fmt = 4 then bf16 else fp16).decode v)
    let s := if q.accs.any fun a => a.size == 0 then s
      else s.onWarp k.warp fun x => x.setAcc m fun r c => BitVec.ofNat 32 (conv (q.val (16 * r + c)))
    s.closeTileOp i
  | _, _ => s

/-- A line of `MSTACC` reaches scratch: it is stored and delivered for the handle's WPTR (10 R266). -/
def State.tileRow (s : State) (i la : Nat) : State :=
  let k := s.tileop i
  match k.memop, k.kind with
  | some op, .mstacc _ tm _ _ _ _ _ (.scr _ a _ off) (some h) =>
    let q := s.memop op
    let mine := q.accs.filter fun c => lineOf c.pa == la
    let s := s.onTeam tm fun t => mine.foldl (fun t c =>
      (t.write c.pa (toBytes c.size c.data.toNat)).onHandle h fun e => e.deliver s.now (c.pa - a + off) c.size) t
    (s.onMemop op fun q => { q with left := q.left - 1 })
  | _, _ => s
/-- `MSTACC` completes: QSTAT takes its bits. -/
def State.storedTile (s : State) (i : Nat) : State :=
  let k := s.tileop i
  match k.memop, k.kind with
  | some op, .mstacc _ tm _ fmt _ _ _ _ _ =>
    let bits := match (s.memop op).kind with
      | .mstacc b => b
      | _ => 0
    (if 1 ≤ fmt && fmt ≤ 3 then s.onTeam tm fun t => (t.settleQ s.now 0).addQ k.warp s.now bits else s).closeTileOp i
  | _, _ => s

/-- TILE_OP_COMPLETE (R260): A tile operation completes, frees its accumulators and lowers TL. -/
def execTileOpComplete (s : State) : Out :=
  .next (
    let byOp := ((s.tileops.findIdx? fun k => k.live && k.memop == some s.ev.a)).getD s.tileops.length
    match s.ev.b with
    | 0 => s.closeTileOp s.ev.a
    | 1 =>
      let t := s.tileRow s.ev.a s.ev.c
      (match (s.tileop s.ev.a).memop with
      | some op => if (t.memop op).left = 0 then t.storedTile s.ev.a else t
      | none => t)
    | 2 => s.storedTile byOp
    | 3 =>
      let t := s.onTileop byOp fun k => { k with readDone := true }
      if t.loadedTile = some byOp then t.fillTile byOp else t
    | _ => if s.loadedTile = some s.ev.a then s.fillTile s.ev.a else s)

end Sys2Proof.Machine
end

