-- ==== Sys2Proof/Machine/Handler.lean ====
section
/-!
DEFINITION. Traps, the handler instructions and breakpoints (02 R56; 15 R320-R333). Taking the vector and returning from it are in
Machine/Ops.lean.
-/
namespace Sys2Proof.Machine

/-! ## The vector (02 R54-R56; 15 R326) -/

/-- A warp is at an instruction boundary: nothing of an instruction is under way in it (09 R255; 16 R345). -/
def State.atBoundary (s : State) (w : Nat) : Bool :=
  let x := s.warp w
  x.live && !x.ended && x.busyTo ≤ s.now && x.deliv.isEmpty && (x.choice.isNone || x.stalled.isSome) &&
  (List.range 64).all (fun l => (x.lane l).failing.isNone) && (List.range 64).any fun l => (x.lane l).st != .exited
/-- A vector is due (02 R56; 15 R326). -/
def State.vectorDue (s : State) (w : Nat) : Bool :=
  s.atBoundary w && !(s.warp w).hmode && (!(s.warp w).traps.isEmpty || (s.warp w).parkedReady)

/-- HANDLER_VECTOR (R56): A warp vectors to the privileged handler at an instruction boundary. -/
def execHandlerVector (s : State) : Out :=
  .next (if s.vectorDue s.ev.a then s.takeVector s.ev.a else s)

/-- ADDRESS_BREAKPOINT (R333): A selected warp about to issue at an enabled breakpoint address takes class 0x11, subcode 0x10 + k. -/
def execAddressBreakpoint (s : State) : Out :=
  .next (s.trap s.ev.a ⟨0x11, 0x10 + s.ev.b, s.ipc, BitVec.ofNat 32 (0x10 + s.ev.b)⟩)

/-- `BRKPT` and `TRAP`: the lanes advance and the warp takes class 0x11 (15 R332); in handler mode it is a handler fault. -/
def State.debugTrap (s : State) (sub : Nat) : State :=
  let t : Trap := ⟨0x11, sub, s.ipc, BitVec.ofNat 32 sub⟩
  if s.act = 0 then s.advance
  else if s.me.hmode then s.trap s.cur t
  else s.advance.trap s.cur t

/-- TRAP (R332): Takes warp trap class 0x11 with subcode 0x80 + n once the lanes have advanced. -/
def execTrap (o : Ops) (s : State) : Out := memExec (.trap o) (fun s _ o => s.debugTrap (0x80 + o.s2.val.toNat % 128)) s

/-- BRKPT (R332): Takes warp trap class 0x11, subcode 0, once the lanes have advanced. -/
def execBrkpt (o : Ops) (s : State) : Out := memExec (.brkpt o) (fun s _ _ => s.debugTrap 0) s

/-! ## Records and cause (15 R325, R326, R328) -/

/-- A fault record as eight words. -/
def FaultRec.words (r : FaultRec) : List Word :=
  let b (x : Bool) (n : Nat) : Nat := if x then 2 ^ n else 0
  [BitVec.ofNat 32 (r.cls % 256 + 2 ^ 8 * (r.subcode % 256) + b r.slot 16 + b r.write 17 + 2 ^ 18 * (r.size % 8) + b r.fetch 21), r.info,
    r.pc.setWidth 32, (r.pc >>> 32).setWidth 32, r.addr.setWidth 32, (r.addr >>> 32).setWidth 32, 0, 0]
/-- A fault record from its words; none where word 0 names no class. -/
def FaultRec.ofWords (ws : List Word) (delivery : Bool) : Option FaultRec :=
  let a := (getP 0 ws 0).toNat
  let d (k : Nat) : DWord := (getP 0 ws k).setWidth 64 ||| ((getP 0 ws (k + 1)).setWidth 64 <<< 32)
  if a % 256 = 0 then none
  else some ⟨a % 256, a / 2 ^ 8 % 256, a.testBit 16, a.testBit 17, a / 2 ^ 18 % 8, a.testBit 21, getP 0 ws 1, d 2, d 4, delivery⟩
/-- Word `k` of a lane's record; zero without one. -/
def Lane.recordWord (y : Lane) (k : Nat) : Word :=
  match y.fault with
  | some r => getP 0 r.words k
  | none => 0

/-- HFRD (R328): Reads word k of each lane's fault record into a vector. -/
def execHfrd (o : Ops) (s : State) : Out :=
  memExec (.hfrd o) (fun s _ o => (s.putResults o 1 (s.passMask o) fun l => AluOut.val ((s.me.lane l).recordWord (o.subN % 8)).toNat).advance) s

/-- The value of `HSRD` (15 R328). -/
def Warp.status (x : Warp) (sel : Nat) : Nat :=
  let st (q : LaneSt) : Nat := (x.maskOf fun _ y => y.st == q).toNat
  match sel with
  | 0 => x.cause.cls % 256 + 2 ^ 8 * (x.cause.subcode % 256) + (if st .parked = 0 then 0 else 2 ^ 16)
  | 1 => st .parked
  | 2 => st .held
  | 3 => st .exited
  | 4 => x.cause.addr.toNat
  | 5 => x.cause.word.toNat
  | _ => (x.maskOf fun _ y => y.helper).toNat

/-- HSRD (R328): Reads the warp's handler status value sel. -/
def execHsrd (o : Ops) (s : State) : Out :=
  memExec (.hsrd o) (fun s _ o =>
    if o.subN % 8 = 7 then s.handlerFault s.cur (mkFault 0x01 s.ipc)
    else (s.putUniform o 2 (s.passMask o) (s.me.status (o.subN % 8))).advance) s

/-! ## Thread states (15 R329) -/

/-- Lanes of a mask run again at their faulting instruction; lanes of a delivery are delivered again. -/
def State.replay (s : State) (m : BitVec 64) : State :=
  let ls := (lanesOf m).filter fun l => (s.me.lane l).st == .parked
  let given (l : Nat) : Bool := ((s.me.lane l).fault.map (·.delivery)).getD false
  (ls.foldl (fun (t : State) l =>
    if given l then t.redeliver s.cur l else t.onMe fun x => x.onLane l fun y => { y with st := .running, fault := none }) s).advance 2

/-- HRPL (R329): Makes each parked lane in a mask running at its faulting instruction. -/
def execHrpl (o : Ops) (s : State) : Out := memExec (.hrpl o) (fun s _ o => s.replay (BitVec.ofNat 64 (s.uni64 o.s1))) s

/-- HRPL_ALL (R329): Makes every parked lane running at its faulting instruction. -/
def execHrplAll (o : Ops) (s : State) : Out := memExec (.hrplAll o) (fun s _ _ => s.replay (~~~0)) s

/-- The bytes of the instruction at an address as the warp would fetch it, from bits 1:0 of its first byte (07 R159); none where the
address has no translation (log entry 47). -/
def State.lengthAt (s : State) (w : Nat) (pc : DWord) : Option Nat :=
  let p := s.partOf w
  let x := s.warp w
  match (if canonical pc.toNat then (s.walkTables p (s.team x.team).asid pc.toNat).leaf else none) with
  | none => none
  | some e =>
    let pa := e.phys pc.toNat
    let b := match s.icache.find? fun c => c.core == x.core && c.addr == lineOf pa with
      | some c => lineGet c.data (pa % 128) 1
      | none => s.peek pa 1
    some (formBytes (b % 4))

/-- Lanes of a mask run again at an address of their own. -/
def State.runAt (s : State) (m : BitVec 64) (f : Nat → DWord) : State :=
  (s.onMe fun x => x.mapLanes fun l y =>
    if m.getLsbD l && y.st == .parked then Lane.settle { y with st := .running, fault := none, pc := f l } else y).advance 2

/-- HEMU (R329): Makes each parked lane in a mask running at the address after its faulting instruction. -/
def execHemu (o : Ops) (s : State) : Out :=
  memExec (.hemu o) (fun s _ o =>
    let m := BitVec.ofNat 64 (s.uni64 o.s1)
    let ls := (lanesOf m).filter fun l => (s.me.lane l).st == .parked
    let blind (l : Nat) : Bool := ((s.me.lane l).fault.map (·.fetch)).getD false
    let len (l : Nat) : Option Nat := s.lengthAt s.cur (s.me.lane l).pc
    if ls.any fun l => blind l || (len l).isNone then s.handlerFault s.cur (mkFault 0 s.ipc)
    else s.runAt m fun l => nextPc (s.me.lane l).pc ((len l).getD 8)) s

/-- HEMU_TO (R329): Makes each parked lane in a mask running at a given address. -/
def execHemuTo (o : Ops) (s : State) : Out :=
  memExec (.hemuTo o) (fun s _ o =>
    s.runAt (BitVec.ofNat 64 (s.uni64 o.s1)) fun l => BitVec.ofNat 64 (s.src o .i64 o.s2 l)) s

/-- HEND (R329): Every thread of the warp exits and its records are discarded. -/
def execHend (o : Ops) (s : State) : Out := memExec (.hend o) (fun s _ _ => s.endWarp s.cur) s

/-- HRET (R329): Leaves handler mode; the next program issue follows 24 cc later. -/
def execHret (o : Ops) (s : State) : Out := memExec (.hret o) (fun s _ _ => s.returnVector s.cur) s

/-! ## Caches and counters (15 R331) -/

/-- ICINV (R331): Invalidates the issuing core's instruction cache. -/
def execIcinv (o : Ops) (s : State) : Out :=
  memExec (.icinv o) (fun s _ _ => (s.icacheDrop (· == s.me.core) 0 (2 ^ 52)).advance 64) s

/-- The counters of `PMRD`; each restarts with a reset. -/
def State.counter (s : State) (sel : Nat) : Nat :=
  let q := s.quarter s.me.unit
  match sel with
  | 0 => q.rfcomp.toNat
  | 1 => q.issued.toNat
  | _ => (s.now - s.resetAt + 2 ^ 32 - q.issued.toNat) % 2 ^ 32

/-- PMRD (R331): Reads a counter of the issuing quarter. -/
def execPmrd (o : Ops) (s : State) : Out :=
  memExec (.pmrd o) (fun s sh o => s.putPort sh o (s.counter o.subN)) s

end Sys2Proof.Machine
end

