-- ==== Sys2Proof/Machine/Pred.lean ====
section
/-!
DEFINITION. Predicate instructions (08 R201, R202).
-/
namespace Sys2Proof.Machine

/-- A predicate instruction: each passing lane through `f` (08 R202). -/
def execPred (i : Instr) (o : Ops) (f : State → Nat → Lane → Lane) (s : State) : Out :=
  .next (s.guarded i fun s => (s.setMe (s.me.mapLanes fun l y => if s.pass o l then f s l y else y)).advance)

/-- PSET (R202): Sets a predicate to whether a 32-bit source is non-zero. -/
def execPset (o : Ops) (s : State) : Out := execPred (.pset o) o (fun s l y => y.setPred o.dst.toNat (s.src o .i32 o.s1 l != 0)) s

/-- PAND (R202): Writes the AND of two predicates. -/
def execPand (o : Ops) (s : State) : Out := execPred (.pand o) o (fun _ _ y => y.setPred o.dst.toNat (y.predOp o.s1.val && y.predOp o.s2.val)) s

/-- POR (R202): Writes the OR of two predicates. -/
def execPor (o : Ops) (s : State) : Out := execPred (.por o) o (fun _ _ y => y.setPred o.dst.toNat (y.predOp o.s1.val || y.predOp o.s2.val)) s

/-- PXOR (R202): Writes the XOR of two predicates. -/
def execPxor (o : Ops) (s : State) : Out := execPred (.pxor o) o (fun _ _ y => y.setPred o.dst.toNat (y.predOp o.s1.val != y.predOp o.s2.val)) s

/-- PNOT (R202): Writes the complement of a predicate. -/
def execPnot (o : Ops) (s : State) : Out := execPred (.pnot o) o (fun _ _ y => y.setPred o.dst.toNat (!y.predOp o.s1.val)) s

/-- PLD (R202): Loads p1 to p7 from bits 7:1 of a source. -/
def execPld (o : Ops) (s : State) : Out := execPred (.pld o) o (fun s l y => { y with preds := BitVec.ofNat 8 (s.src o .i32 o.s1 l) &&& 0xFE }) s

/-- The word of `PST`: bits 7:1 from `p7`-`p1`, bit 0 set, bit 8 the helper status (08 R202). -/
def Lane.pstWord (y : Lane) : Nat := (y.preds.toNat / 2) * 2 + 1 + (if y.helper then 2 ^ 8 else 0)

/-- PST (R202): Stores the predicates and the helper status of each lane into a vector register. -/
def execPst (o : Ops) (s : State) : Out :=
  .next (s.guarded (.pst o) fun s =>
    (s.putResults o 1 (s.passMask o) fun l => AluOut.val (s.me.lane l).pstWord).advance)

/-- PSEL (R202): Selects between two predicates under a third. -/
def execPsel (o : Ops) (s : State) : Out := execPred (.psel o) o (fun _ _ y => y.setPred o.dst.toNat (if y.pred o.auxN then y.predOp o.s1.val else y.predOp o.s2.val)) s

end Sys2Proof.Machine
end

