-- ==== Sys2Proof/Machine/Image.lean ====
section
/-!
DEFINITION. The context image of a team (15 R336), and its save and restore: `CTXSV` and `CTXLD` (15 R335).
-/
namespace Sys2Proof.Machine

/-! ## Writing the image -/

/-- A buffer-table entry as a word (05 R112), and back. -/
def Handle.word (h : Handle) : Nat :=
  2 ^ 62 * (h.state % 4) + 2 ^ 59 * (h.layout % 8) + 2 ^ 55 * (h.fmt % 16) + 2 ^ 43 * (h.base % 2 ^ 12) + 2 ^ 31 * (h.size % 2 ^ 12) +
    2 ^ 12 * (h.wptr % 2 ^ 19)
def Handle.ofWord (v : Nat) : Handle :=
  { Handle.idle with
    state := v / 2 ^ 62 % 4
    layout := v / 2 ^ 59 % 8
    fmt := v / 2 ^ 55 % 16
    base := v / 2 ^ 43 % 2 ^ 12
    size := v / 2 ^ 31 % 2 ^ 12
    wptr := v / 2 ^ 12 % 2 ^ 19 }

/-- `n` items of `f`, one after another. -/
def bytesOf (n : Nat) (f : Nat → List Byte) : List Byte := (List.range n).flatMap f
/-- Zeros up to a length, and up to a multiple of 256. -/
def padTo (n : Nat) (bs : List Byte) : List Byte := bs ++ List.replicate (n - bs.length) 0
def up256 (n : Nat) : Nat := (n + 255) / 256 * 256
def pad256 (bs : List Byte) : List Byte := padTo (up256 bs.length) bs

/-- The code of a thread state in an image (15 R336). -/
def LaneSt.code : LaneSt → Nat
  | .running => 0
  | .held => 1
  | .parked => 2
  | .exited => 3
def LaneSt.ofCode : Nat → LaneSt
  | 0 => .running
  | 1 => .held
  | 2 => .parked
  | _ => .exited

/-- Bytes of a weight element in an image (log entry 48). -/
def weightBytes (fmt : Nat) : Nat := if fmt = 4 || fmt = 5 then 2 else 1
/-- The weight slot of an image (15 R336; log entry 48). -/
def WSlot.image (ws : WSlot) : List Byte :=
  padTo 64 [BitVec.ofNat 8 ws.fmt, if ws.sparse then 1 else 0, BitVec.ofNat 8 ws.rows] ++
    padTo 1024 (ws.wts.flatMap (toBytes (weightBytes ws.fmt))) ++
    padTo 1024 (ws.scales.map (BitVec.ofNat 8)) ++ padTo 256 (ws.mdata.flatMap fun w => toBytes 4 w.toNat) ++ List.replicate 192 (0 : Byte)

/-- The port queues of a lane in a direction (15 R336): four values, HELD, CRED. -/
def Lane.portImage (y : Lane) (dir : Nat) : List Byte :=
  let q := (y.queue dir).map (·.val)
  bytesOf 4 (fun k => toBytes 4 (getP 0 q k).toNat) ++ [BitVec.ofNat 8 q.length, BitVec.ofNat 8 (y.credit dir), 0, 0]

/-- The block code of a warp's own register. -/
def Warp.regCode (x : Warp) (r : Nat) : Nat := blockCode (x.column r)
/-- A warp's section; a warp that has retired is written with every thread exited. -/
def State.warpImage (s : State) (w : Nat) : List Byte :=
  let x := s.warp w
  let ln (f : Lane → List Byte) : List Byte := bytesOf 64 fun l => f (x.lane l)
  pad256 (
    ln (fun y => toBytes 8 y.pc.toNat) ++ ln (fun y => toBytes 8 y.meet.toNat) ++
    ln (fun y => [BitVec.ofNat 8 ((if x.live then y.st.code else 3) + if y.helper then 4 else 0)]) ++
    ln (fun y => [BitVec.ofNat 8 (y.pstWord % 256)]) ++ ln (fun y => bytesOf 4 fun k => toBytes 2 (getP 0 y.x k).toNat) ++
    bytesOf 64 (fun k => toBytes 4 (x.sreg k).toNat) ++ toBytes 4 (x.ld + 2 ^ 8 * x.st + 2 ^ 16 * x.cp + 2 ^ 24 * x.tl) ++
    toBytes 2 (x.hi + 2 ^ 8 * x.lo) ++ List.replicate 122 (0 : Byte) ++
    ln (fun y => bytesOf 8 fun k => toBytes 4 (y.recordWord k).toNat) ++
    bytesOf 8 (fun m => bytesOf 256 fun k => toBytes 4 (x.acc m (k / 16) (k % 16)).toNat) ++ x.ws.image ++
    bytesOf 6 (fun d => ln fun y => y.portImage d) ++
    bytesOf 64 (fun k => match x.tickets[k]? with
      | some t => toBytes 4 t.seq ++ toBytes 4 t.status
      | none => List.replicate 8 0) ++
    bytesOf 256 (fun r => [if r < x.nregs then BitVec.ofNat 8 (x.regCode r) else 0xFF]) ++
    bytesOf x.nregs (fun r => regBlock (x.regCode r) (x.column r)))

/-- The image of a team (15 R336), with its size in place. -/
def State.teamImage (s : State) (t : Nat) : List Byte :=
  let x := s.team t
  let arrived := (List.range x.warps.length).foldl (fun (m : Nat) i => if (s.warp (getP 0 x.warps i)).arrived then m + 2 ^ i else m) 0
  let pat (k : Nat) : List Byte :=
    if x.patLoaded.getLsbD k then padTo 512 (getP [] x.pats k) else (List.range 512).map fun i => Config.freeByte x.patFree (512 * k + i)
  let body := padTo 64 (x.kern.desc.take 64) ++
    bytesOf 8 (fun k => toBytes 4 (x.slotOf k).handle.toNat ++ toBytes 4 (s.slotState (x.slotOf k))) ++
    bytesOf 64 (fun h => if h < x.handles.length then toBytes 8 (x.handle h).word else List.replicate 8 0) ++
    bytesOf 8 pat ++ Memory.bytes zeroByte x.scratch 0 x.kern.scratch
  let start := up256 (128 - 64 + body.length)
  let body := padTo (start - 64) body ++ x.warps.flatMap s.warpImage
  toBytes 4 1 ++ toBytes 4 (64 + body.length) ++ toBytes 4 x.gridId.toNat ++ toBytes 4 x.num ++ toBytes 1 x.depth ++ toBytes 1 x.phase ++
    toBytes 2 arrived ++ toBytes 4 (x.settleQ s.now 0).qstat.toNat ++ toBytes 4 (min (2 ^ 32 - 1) x.portDisc) ++ toBytes 4 x.sendDisc ++ toBytes 8 x.sb.toNat ++ toBytes 4 x.sz ++
    toBytes 4 x.patLoaded.toNat ++ List.replicate 16 (0 : Byte) ++ body

/-- The physical pages of an image, or the first fault: class and address. The tables are read as they stand (log entry 46). -/
def State.imagePages (s : State) (w : Nat) (write : Bool) (a : Nat) : Nat → Except (Nat × Nat) (List Nat)
  | 0 => .ok []
  | n + 1 =>
    let p := s.partOf w
    if !canonical a then .error (5, a)
    else
      let r := s.walkTables p (s.team (s.warp w).team).asid a
      match s.checkAcc p ⟨write, false, false, false, none, 4, false, []⟩ a ⟨s.now, r.leaf, r.cls⟩ with
      | .bad c _ => .error (c, a)
      | .ok pa _ _ _ => (s.imagePages w write (a + 4096) n).map (pa :: ·)

/-- Bytes into pages. -/
def State.pokePages (s : State) : List Nat → List Byte → State
  | [], _ => s
  | pa :: r, bs => (s.pokeBytes pa (bs.take 4096)).pokePages r (bs.drop 4096)

/-! ## Saving (15 R335) -/

/-- A warp of a team that takes part in a team-collective instruction. -/
def State.collectiveWarps (s : State) (t : Nat) : List Nat :=
  (s.team t).warps.filter fun w =>
    let x := s.warp w
    x.live && x.team == t && !x.ended && (List.range 64).any fun l => (x.lane l).st != .exited
/-- Every warp of the team waits at the same instruction with the same address (15 R335): phase 10 is that of `CTXSV` alone, 11 that of
`CTXLD`. -/
def State.allAt (s : State) (t phase a : Nat) : Bool :=
  (s.collectiveWarps t).all fun w => match (s.warp w).stalled with
    | some r => r.phase == phase && r.datum == a
    | none => false

/-- The resident teams of a team's port group (03 R77). -/
def State.groupOf (s : State) (t : Nat) : List Nat :=
  (List.range s.teams.length).filter fun u =>
    (s.team u).live && (s.team u).gridId == (s.team t).gridId && (s.team u).part == (s.team t).part && (s.team u).base == (s.team t).base
/-- The work of a warp that a save waits for: everything but messages that wait (05 R130). -/
def State.warpBusy (s : State) (w : Nat) : Bool :=
  !(s.warp w).deliv.isEmpty || s.memops.any (fun m => m.live && m.warp == w && m.kind != .send) || s.cmds.any (fun c => c.live && c.warp == w) ||
  s.tileops.any fun k => k.live && k.warp == w
/-- A port group is at rest: its warps are away from their programs, and 40 cc have passed since its last port issue. -/
def State.groupQuiet (s : State) (t : Nat) : Bool :=
  !(s.team t).kern.mapOn || (s.groupOf t).all fun u =>
    (s.team u).portAt + 39 ≤ s.now &&
    (s.collectiveWarps u).all (fun w => (s.warp w).hmode && (s.warp w).cause.cls == 0x13) &&
    !(s.xfers.any fun x => x.live && x.dst.any fun d => (s.team u).warps.contains d.1)
/-- Everything that a save waits for has happened. -/
def State.saveReady (s : State) (t : Nat) : Bool :=
  !((s.team t).warps.any fun w => (s.warp w).live && (s.warp w).team == t && s.warpBusy w) && s.groupQuiet t

/-- The waiting messages of a warp. -/
def State.waitingSends (s : State) (w : Nat) : List Nat :=
  (List.range s.memops.length).filter fun i => (s.memop i).live && (s.memop i).warp == w
/-- A warp that no slot holds: the owner of the messages of a saved warp. -/
def noWarp : Nat := 2 ^ 32

/-- A team is descheduled (15 R335): what its image does not hold is kept; its resources return 40 cc later. -/
def State.deschedule (s : State) (t : Nat) : State :=
  let x := s.team t
  let keep (w : Nat) : SavedWarp :=
    let y := s.warp w
    ⟨y.tiles, y.recs, y.maskOf fun _ l => l.st == .parked && ((l.fault.map (·.delivery)).getD false), s.waitingSends w, y.barAt⟩
  let k : SavedTeam := ⟨x.part, x.gridId, x.num, x.warps.map keep, x.ringTail, x.leaseSeq⟩
  let s : State := { s with
    saves := s.saves ++ [k]
    memops := s.memops.map fun m => if m.live && x.warps.contains m.warp then { m with warp := noWarp } else m }
  let s := x.warps.foldl (fun s w => s.onWarp w fun y => { y with live := false, tiles := [], recs := [], stalled := none }) s
  let s := (((s.endLeases t).onTeam t fun y => { y with live := false })).later 40 .teamResourcesFree t
  if x.bin.isSome then s
  else s.onGrid x.grid fun g => { g with liveTeams := g.liveTeams - 1, saved := g.saved ++ [x.num] }

/-- The record of a fault on an image. -/
def imageRec (pc : DWord) (write : Bool) (c : Nat × Nat) : FaultRec := accRec c.1 pc write 4 c.2

/-- `CTXSV` and `CTXLD`: the checks, the wait for the other warps of the team, then `k` on the team and the address. -/
def State.teamCollective (s : State) (o : Ops) (phase : Nat) (k : State → Nat → Nat → State) : State :=
  let a := s.uni64 o.s1
  if s.me.cause.cls ≠ 0x13 then s.handlerFault s.cur (mkFault 0 s.ipc)
  else if a % 4096 ≠ 0 then s.handlerFault s.cur { mkFault 6 s.ipc with addr := BitVec.ofNat 64 a }
  else if s.phase ≠ phase || !s.allAt s.me.team phase a then s.stallAs phase a
  else k s s.me.team a

/-- CTXSV (R335): Team-collective save of the team's image, then descheduling. Phase 10 waits for the team and for its work to drain. -/
def execCtxsv (o : Ops) (s : State) : Out :=
  memExec (.ctxsv o) (fun s _ o =>
    s.teamCollective o 10 fun s t a =>
      if !s.saveReady t then s.stallAs 10 a
      else
        let bs := s.teamImage t
        match s.imagePages s.cur true a ((bs.length + 4095) / 4096) with
        | .error c => s.handlerFault s.cur (imageRec s.ipc true c)
        | .ok ps => (s.pokePages ps bs).deschedule t) s

/-! ## Restoring (15 R335) -/

/-- A read of an image: `n` bytes at an offset, through its pages. -/
def State.imageGet (s : State) (ps : List Nat) (off n : Nat) : Nat :=
  leNum ((List.range n).map fun i => s.peekByte (getP 0 ps ((off + i) / 4096) + (off + i) % 4096))

/-- The sectors of a register's block by its code in an image: a reserved code is raw. -/
def imageSectors (c : Nat) : Nat := codeSectors (min c 4)
/-- The offsets of the warp sections. -/
def State.imageStarts (s : State) (ps : List Nat) (nregs : Nat) : Nat → Nat → List Nat
  | 0, _ => []
  | n + 1, at_ =>
    let sectors := (List.range nregs).foldl (fun (k : Nat) r => k + imageSectors (s.imageGet ps (at_ + 23040 + r) 1)) 0
    at_ :: s.imageStarts ps nregs n (at_ + up256 (23296 + 32 * sectors))
/-- The registers of a section, each as 64 words. -/
def State.imageRegs (s : State) (ps : List Nat) (at_ : Nat) : Nat → Nat → List (List Word)
  | 0, _ => []
  | n + 1, off =>
    let c := s.imageGet ps at_ 1
    blockWords c (s.imageGet ps off (32 * imageSectors c)) :: s.imageRegs ps (at_ + 1) n (off + 32 * imageSectors c)

/-- The weight slot of an image. -/
def State.imageSlot (s : State) (ps : List Nat) (at_ : Nat) : WSlot :=
  let fmt := s.imageGet ps at_ 1
  let sp := s.imageGet ps (at_ + 1) 1 % 2 = 1
  let rows := s.imageGet ps (at_ + 2) 1
  let n := min 1024 (16 * rows)
  let b := weightBytes fmt
  ⟨fmt, sp, rows, (List.range (min n (1024 / b))).map fun k => s.imageGet ps (at_ + 64 + b * k) b,
    (List.range n).map fun k => s.imageGet ps (at_ + 1088 + k) 1,
    if sp then (List.range (min rows 64)).map fun k => BitVec.ofNat 32 (s.imageGet ps (at_ + 2112 + 4 * k) 4) else []⟩

/-- One lane of a section. Port values and credits that have come since the placement stand (log entry 46). -/
def State.imageLane (s : State) (ps : List Nat) (at_ : Nat) (regs : List (List Word)) (k : SavedWarp) (l : Nat) (y : Lane) : Lane :=
  let g (off n : Nat) : Nat := s.imageGet ps (at_ + off) n
  let b := g (1024 + l) 1
  let port (d i n : Nat) : Nat := g (14848 + 20 * (64 * d + l) + i) n
  { y with
    st := LaneSt.ofCode (b % 4)
    pc := BitVec.ofNat 64 (g (8 * l) 8)
    meet := BitVec.ofNat 64 (g (512 + 8 * l) 8)
    helper := b / 4 % 2 == 1
    preds := BitVec.ofNat 8 (g (1088 + l) 1) &&& 0xFE
    x := (List.range 4).map fun i => BitVec.ofNat 16 (g (1152 + 8 * l + 2 * i) 2)
    v := regs.map fun r => getP 0 r l
    shadow := []
    fault := if b % 4 = 2 then
        FaultRec.ofWords ((List.range 8).map fun i => BitVec.ofNat 32 (g (2048 + 32 * l + 4 * i) 4)) (k.deliv.getLsbD l)
      else none
    inq := (List.range 6).map fun d =>
      ((List.range (min 4 (port d 16 1))).map fun i => (⟨true, BitVec.ofNat 32 (port d (4 * i) 4)⟩ : PortVal)) ++ y.queue d
    cred := (List.range 6).map fun d => min 4 (port d 17 1 + y.credit d)
    failing := none }

/-- One warp of a section; a warp whose threads have all exited is over. -/
def State.imageWarp (s : State) (ps : List Nat) (at_ : Nat) (arrived : Bool) (k : SavedWarp) (w : Nat) : Warp :=
  let x := s.warp w
  let g (off n : Nat) : Nat := s.imageGet ps (at_ + off) n
  let regs := s.imageRegs ps (at_ + 23040) x.nregs (at_ + 23296)
  let lanes := (List.range 64).map fun l => s.imageLane ps at_ regs k l (x.lane l)
  let gone := lanes.all fun y => y.st == .exited
  { x with
    lo := g 1925 1
    hi := g 1924 1
    lanes := lanes
    s := (List.range 64).map fun i => BitVec.ofNat 32 (g (1664 + 4 * i) 4)
    m := (List.range 8).map fun m => (List.range 256).map fun i => BitVec.ofNat 32 (g (4096 + 1024 * m + 4 * i) 4)
    ws := s.imageSlot ps (at_ + 12288)
    latched := false
    oq := []
    ld := 0
    st := k.sends.length
    cp := 0
    tl := 0
    arrived := arrived
    barAt := k.barAt
    tickets := (List.range 64).map fun i => ⟨g (22528 + 8 * i) 4, g (22532 + 8 * i) 4, false, 0⟩
    tiles := k.tiles
    recs := k.recs
    hmode := !gone && x.hmode
    ended := gone
    stalled := if gone then none else x.stalled.map fun r => { r with phase := 12 } }

/-- The team from its image (15 R336). -/
def State.imageBuild (s : State) (ps : List Nat) (tn : Nat) : State :=
  let t := s.team tn
  let g (off n : Nat) : Nat := s.imageGet ps off n
  let kept := (s.saves.find? fun k => k.gridId == t.gridId && k.num == t.num && k.part == t.part)
  let scratch := bytesOf t.kern.scratch fun i => [BitVec.ofNat 8 (g (4800 + i) 1)]
  let starts := s.imageStarts ps t.kern.regs t.warps.length (up256 (4800 + t.kern.scratch))
  let mine (i : Nat) : SavedWarp := match kept with
    | some k => getP SavedWarp.none_ k.warps i
    | none => SavedWarp.none_
  let team : Team := { t with
    phase := g 17 1
    qstat := BitVec.ofNat 32 (g 20 4)
    portDisc := g 24 4
    sendDisc := g 28 4
    sb := BitVec.ofNat 64 (g 32 8)
    sz := g 40 4
    patLoaded := BitVec.ofNat 8 (g 44 1)
    leases := (List.range 8).map fun k => ⟨BitVec.ofNat 32 (g (128 + 8 * k) 4), none, g (132 + 8 * k) 4 != 0⟩
    handles := (List.range t.handles.length).map fun h => Handle.ofWord (g (192 + 8 * h) 8)
    pats := (List.range 8).map fun k => bytesOf 512 fun i => [BitVec.ofNat 8 (g (704 + 512 * k + i) 1)]
    scratch := Memory.put zeroByte [] 0 scratch
    ringTail := match kept with
      | some k => k.ringTail
      | none => leNum ((scratch.drop t.kern.ringOff).take 4)
    leaseSeq := match kept with
      | some k => k.leaseSeq
      | none => t.leaseSeq }
  let ws := (List.range t.warps.length).map fun i =>
    (getP 0 t.warps i, mine i, s.imageWarp ps (getP 0 starts i) (Nat.testBit (g 18 2) i) (mine i) (getP 0 t.warps i))
  let s := ws.foldl (fun s e =>
    let s := (s.setWarp e.1 e.2.2).countRf e.1 (List.range e.2.2.nregs)
    e.2.1.sends.foldl (fun s m => s.onMemop m fun y => { y with warp := e.1 }) s) (s.setTeam tn team)
  { s with saves := s.saves.filter fun k => !(k.gridId == t.gridId && k.num == t.num && k.part == t.part) }

/-- CTXLD (R335): Team-collective rebuild of the team's state from its image. Phase 11 waits for the team; in phase 12 the state is
rebuilt. -/
def execCtxld (o : Ops) (s : State) : Out :=
  memExec (.ctxld o) (fun s _ o =>
    if s.phase = 12 then s.advance
    else
      s.teamCollective o 11 fun s t a =>
        match (s.imagePages s.cur false a 1).toOption.map fun ps => s.imageGet ps 4 4 with
        | some n =>
          (match s.imagePages s.cur false a (min 1024 ((max n 4800 + 4095) / 4096)) with
          | .error c => s.handlerFault s.cur (imageRec s.ipc false c)
          | .ok ps =>
            let s := ((s.imageBuild ps t).l1Clear s.me.core).icacheDrop (· == s.me.core) 0 (2 ^ 52)
            if s.me.ended then s else s.advance)
        | none => s.handlerFault s.cur (imageRec s.ipc false (match s.imagePages s.cur false a 1 with
          | .error c => c
          | .ok _ => (4, a)))) s

end Sys2Proof.Machine
end

