-- ==== Sys2Proof/Machine/Int.lean ====
section
/-!
DEFINITION. Integer, move and address instructions (08 R203-R206). Each is a function of the operand values in one lane,
run by `execAlu`. A one-lane function sees its sources as patterns.
-/
namespace Sys2Proof.Machine

/-- `BFX` (08 R204): *len* bits of `a` from *pos*, zero- or sign-extended; above bit 31 of `a` stand zeros or copies of
bit 31. -/
def bitField (a ctl : Nat) (signed : Bool) : Nat :=
  let pos := ctl % 32
  let len := min (ctl / 2 ^ 8 % 64) 32
  if len = 0 then 0
  else if signed then wrapN 32 (sx len (wrapN 64 ((sx 32 a).fdiv (2 ^ pos : Nat))))
  else a / 2 ^ pos % 2 ^ len

/-- `BFI` (08 R204). -/
def bitInsert (a ctl b : Nat) : Nat :=
  let pos := ctl % 32
  let len := min (ctl / 2 ^ 8 % 64) 32
  let m := (2 ^ len - 1) * 2 ^ pos % 2 ^ 32
  (a &&& (2 ^ 32 - 1 - m)) ||| (b * 2 ^ pos % 2 ^ 32 &&& m)

/-- IADD (R203): Integer add with wrap, with the unsigned carry out in PD. -/
def aluIadd (i : AluIn) : AluOut := .flag (wrapN 32 (i.a + i.b)) (carryOf 32 i.a i.b)
def execIadd (o : Ops) (s : State) : Out := execAlu (.iadd o) aluIadd s

/-- ISUB (R203): Integer subtract with wrap, with the unsigned borrow in PD. -/
def aluIsub (i : AluIn) : AluOut := .flag (wrapN 32 (i.a - i.b : Int)) (borrowOf i.a i.b)
def execIsub (o : Ops) (s : State) : Out := execAlu (.isub o) aluIsub s

/-- INEG (R203): Integer negation with wrap. -/
def aluIneg (i : AluIn) : AluOut := .val (wrapN 32 (-(i.a : Int)))
def execIneg (o : Ops) (s : State) : Out := execAlu (.ineg o) aluIneg s

/-- IABS (R203): Integer absolute value with wrap. -/
def aluIabs (i : AluIn) : AluOut := .val (wrapN 32 (sx 32 i.a).natAbs)
def execIabs (o : Ops) (s : State) : Out := execAlu (.iabs o) aluIabs s

/-- IMUL (R203): Low 32 bits of a product. -/
def aluImul (i : AluIn) : AluOut := .val (wrapN 32 (i.a * i.b))
def execImul (o : Ops) (s : State) : Out := execAlu (.imul o) aluImul s

/-- IMULH (R203): High 32 bits of a signed or unsigned product. -/
def aluImulh (i : AluIn) : AluOut := .val (wrapN 32 ((asInt (i.o.subN == 1) i.a * asInt (i.o.subN == 1) i.b).fdiv (2 ^ 32 : Nat)))
def execImulh (o : Ops) (s : State) : Out := execAlu (.imulh o) aluImulh s

/-- IMAD (R203): Integer multiply-add with wrap. -/
def aluImad (i : AluIn) : AluOut := .val (wrapN 32 (i.a * i.b + i.c))
def execImad (o : Ops) (s : State) : Out := execAlu (.imad o) aluImad s

/-- IADDS (R203): Saturating integer add, with saturation reported in PD. -/
def aluIadds (i : AluIn) : AluOut :=
  let r := satOf (i.o.subN == 1) (asInt (i.o.subN == 1) i.a + asInt (i.o.subN == 1) i.b)
  .flag r.1 r.2
def execIadds (o : Ops) (s : State) : Out := execAlu (.iadds o) aluIadds s

/-- ISUBS (R203): Saturating integer subtract, with saturation reported in PD. -/
def aluIsubs (i : AluIn) : AluOut :=
  let r := satOf (i.o.subN == 1) (asInt (i.o.subN == 1) i.a - asInt (i.o.subN == 1) i.b)
  .flag r.1 r.2
def execIsubs (o : Ops) (s : State) : Out := execAlu (.isubs o) aluIsubs s

/-- IMIN (R203): Signed or unsigned minimum. -/
def aluImin (i : AluIn) : AluOut := .val (if asInt (i.o.subN == 1) i.b < asInt (i.o.subN == 1) i.a then i.b else i.a)
def execImin (o : Ops) (s : State) : Out := execAlu (.imin o) aluImin s

/-- IMAX (R203): Signed or unsigned maximum. -/
def aluImax (i : AluIn) : AluOut := .val (if asInt (i.o.subN == 1) i.a < asInt (i.o.subN == 1) i.b then i.b else i.a)
def execImax (o : Ops) (s : State) : Out := execAlu (.imax o) aluImax s

/-- AND (R203): Bitwise AND. -/
def aluAndB (i : AluIn) : AluOut := .val (i.a &&& i.b)
def execAndB (o : Ops) (s : State) : Out := execAlu (.andB o) aluAndB s

/-- OR (R203): Bitwise OR. -/
def aluOrB (i : AluIn) : AluOut := .val (i.a ||| i.b)
def execOrB (o : Ops) (s : State) : Out := execAlu (.orB o) aluOrB s

/-- XOR (R203): Bitwise XOR. -/
def aluXorB (i : AluIn) : AluOut := .val (i.a ^^^ i.b)
def execXorB (o : Ops) (s : State) : Out := execAlu (.xorB o) aluXorB s

/-- NOT (R203): Bitwise complement. -/
def aluNotB (i : AluIn) : AluOut := .val (2 ^ 32 - 1 - i.a)
def execNotB (o : Ops) (s : State) : Out := execAlu (.notB o) aluNotB s

/-- SHL (R203): Shift left; 0 when the shift is 32 or more. -/
def aluShl (i : AluIn) : AluOut := .val (if i.b < 32 then i.a * 2 ^ i.b % 2 ^ 32 else 0)
def execShl (o : Ops) (s : State) : Out := execAlu (.shl o) aluShl s

/-- SHR (R203): Logical shift right; 0 when the shift is 32 or more. -/
def aluShr (i : AluIn) : AluOut := .val (if i.b < 32 then i.a / 2 ^ i.b else 0)
def execShr (o : Ops) (s : State) : Out := execAlu (.shr o) aluShr s

/-- SAR (R203): Arithmetic shift right; all sign bits when the shift is 32 or more. -/
def aluSar (i : AluIn) : AluOut := .val (wrapN 32 ((sx 32 i.a).fdiv (2 ^ min i.b 32 : Nat)))
def execSar (o : Ops) (s : State) : Out := execAlu (.sar o) aluSar s

/-- ROL (R203): Rotate left by b mod 32. -/
def aluRol (i : AluIn) : AluOut :=
  let k := i.b % 32
  .val (i.a * 2 ^ k % 2 ^ 32 + i.a / 2 ^ (32 - k))
def execRol (o : Ops) (s : State) : Out := execAlu (.rol o) aluRol s

/-- ROR (R203): Rotate right by b mod 32. -/
def aluRor (i : AluIn) : AluOut :=
  let k := i.b % 32
  .val (i.a / 2 ^ k + i.a % 2 ^ k * 2 ^ (32 - k))
def execRor (o : Ops) (s : State) : Out := execAlu (.ror o) aluRor s

/-- BFX (R204): Extracts a bit field, zero- or sign-extended. -/
def aluBfx (i : AluIn) : AluOut := .val (bitField i.a i.b (i.o.subN == 1))
def execBfx (o : Ops) (s : State) : Out := execAlu (.bfx o) aluBfx s

/-- BFI (R204): Inserts a bit field. -/
def aluBfi (i : AluIn) : AluOut := .val (bitInsert i.a i.b i.c)
def execBfi (o : Ops) (s : State) : Out := execAlu (.bfi o) aluBfi s

/-- POPC (R203): Counts the 1 bits of a source. -/
def aluPopc (i : AluIn) : AluOut := .val ((List.range 32).filter fun k => i.a.testBit k).length
def execPopc (o : Ops) (s : State) : Out := execAlu (.popc o) aluPopc s

/-- CLZ (R203): Counts leading zeros; 32 for zero. -/
def aluClz (i : AluIn) : AluOut := .val (if i.a = 0 then 32 else 31 - i.a.log2)
def execClz (o : Ops) (s : State) : Out := execAlu (.clz o) aluClz s

/-- BREV (R203): Reverses the bits of a source. -/
def aluBrev (i : AluIn) : AluOut := .val ((List.range 32).foldl (fun n k => n + if i.a.testBit (31 - k) then 2 ^ k else 0) 0)
def execBrev (o : Ops) (s : State) : Out := execAlu (.brev o) aluBrev s

/-- ICMP (R205): Integer compare that writes a predicate and, optionally, its complement. -/
def aluIcmp (i : AluIn) : AluOut := .cmp (icmpCond i.o.subN i.a i.b)
def execIcmp (o : Ops) (s : State) : Out := execAlu (.icmp o) aluIcmp s

/-- ISEL (R203): Selects between two sources under a predicate. -/
def aluIsel (i : AluIn) : AluOut := .val (if i.lane.pred i.o.subN then i.a else i.b)
def execIsel (o : Ops) (s : State) : Out := execAlu (.isel o) aluIsel s

/-- IADD64 (R206): 64-bit add over register pairs, with the carry out in PD. -/
def aluIadd64 (i : AluIn) : AluOut := .flag (wrapN 64 (i.a + i.b)) (carryOf 64 i.a i.b)
def execIadd64 (o : Ops) (s : State) : Out := execAlu (.iadd64 o) aluIadd64 s

/-- IMUL64 (R206): Low 64 bits of a 64-bit product. -/
def aluImul64 (i : AluIn) : AluOut := .val (wrapN 64 (i.a * i.b))
def execImul64 (o : Ops) (s : State) : Out := execAlu (.imul64 o) aluImul64 s

/-- LEA (R206): Adds a shifted, extended 32-bit offset to a 64-bit base. -/
def aluLea (i : AluIn) : AluOut :=
  let b := if i.o.subN / 8 = 1 then sx 32 i.b else (i.b : Int)
  .val (wrapN 64 (i.a + b * (2 ^ (i.o.subN % 8) : Nat)))
def execLea (o : Ops) (s : State) : Out := execAlu (.lea o) aluLea s

/-- MOV (R206): Moves a 32-bit value, a pair or an index register. -/
def aluMov (i : AluIn) : AluOut := .val (if i.o.subN = 2 then (getP 0 i.lane.x (i.o.s1.val.toNat % 4)).toNat else i.a)
def execMov (o : Ops) (s : State) : Out := execAlu (.mov o) aluMov s

/-- MOVI (R206): Moves an immediate into a register or an even pair. -/
def aluMovi (i : AluIn) : AluOut := .val i.b
def execMovi (o : Ops) (s : State) : Out := execAlu (.movi o) aluMovi s

end Sys2Proof.Machine
end

