-- ==== Sys2Proof/Machine/Lane.lean ====
section
/-!
DEFINITION. Lane operations (08 R216-R220): permutation by pattern tables, reductions and scans in fixed order, agreement,
matching and lane moves. A parked, held, exited or inactive lane never contributes.
-/
namespace Sys2Proof.Machine

/-- The lanes that contribute to a lane operation (08 R216). -/
def State.contrib (s : State) (sh : Shape) (o : Ops) : BitVec 64 := s.passMask o &&& ~~~s.idxBad sh o

/-- The result of a lane operation written as UD says (08 R216): a vector or a predicate in the contributing lanes, a
scalar when at least one lane contributes, or for `always` whenever the instruction executes. -/
def State.putLaneOp (s : State) (sh : Shape) (o : Ops) (n : Nat) (m : BitVec 64) (always : Bool) (f : Nat → Nat) : State :=
  let bad := s.idxBad sh o
  let x := s.me
  let t : State :=
    match o.kd with
    | .scal => if m != 0 || (always && s.act != 0) then s.setMe (x.setSN o.dst.toNat n (f 0)) else s
    | .pred => s.setMe (x.mapLanes fun l y => if m.getLsbD l then y.setPred o.dst.toNat (f l != 0) else y)
    | _ => s.putResults o n m fun l => AluOut.val (f l)
  (t.parkLanes s.cur bad fun l => idxRec s.ipc ((x.idxFault sh o l).getD 0)).advance

/-- A lane operation of `n` result registers from the contributing lanes. -/
def State.runLane (s : State) (sh : Shape) (o : Ops) (n : Nat) (always : Bool) (f : State → Shape → Ops → BitVec 64 → Nat → Nat) : State :=
  let m := s.contrib sh o
  let g := f s sh o m
  let vals := (List.range 64).map fun l => if m.getLsbD l || o.kd == .scal then g l else 0
  s.putLaneOp sh o n m always fun l => getP 0 vals l
/-- Run a lane operation. -/
def execLane (i : Instr) (n : Nat) (always : Bool) (f : State → Shape → Ops → BitVec 64 → Nat → Nat) (s : State) : Out :=
  .next (s.guarded i fun s =>
    match shapeOf i, opsOf i with
    | some sh, some o => s.runLane sh o n always f
    | _, _ => s)

/-- The operations of `REDUCE` and `SCAN` with their identities (08 R217). -/
def reduceOp (sub : Nat) (rm : Rm) (ftz : Bool) (x y : Nat) : Nat :=
  let fl := fp32.flush ftz
  match sub with
  | 0 => (x + y) % 2 ^ 32
  | 1 => if sx 32 y < sx 32 x then y else x
  | 2 => if sx 32 x < sx 32 y then y else x
  | 3 => min x y
  | 4 => max x y
  | 5 => x &&& y
  | 6 => x ||| y
  | 7 => x ^^^ y
  | 8 => fl (fAdd fp32 rm (fl x) (fl y))
  | 9 => fl (fMin fp32 (fl x) (fl y))
  | _ => fl (fMax fp32 (fl x) (fl y))
def reduceId (sub : Nat) : Nat :=
  match sub with
  | 1 => 0x7FFFFFFF
  | 2 => 0x80000000
  | 3 => 0xFFFFFFFF
  | 5 => 0xFFFFFFFF
  | 8 => 0x80000000
  | 9 => 0x7F800000
  | 10 => 0xFF800000
  | _ => 0

/-- A floating-point result of a scan, lane 0's included, which no operation has combined: the canonical NaN for a NaN, and flushed under FTZ (04
R83, R84). -/
def scanOut (sub : Nat) (ftz : Bool) (v : Nat) : Nat :=
  if sub < 8 then v else if fp32.isNan v then fp32.canonNan else fp32.flush ftz v
/-- The values that enter a reduction: the identity where a lane does not contribute. -/
def State.reduceIn (s : State) (o : Ops) (m : BitVec 64) : List Nat :=
  (List.range 64).map fun l => if m.getLsbD l then s.src o (foldTy o.subN) o.s1 l else reduceId o.subN

/-- The number of lanes of a mask with a property, the mask of those lanes, and the lowest lane. -/
def countLanes (m : BitVec 64) (p : Nat → Bool) : Nat := ((lanesOf m).filter p).length
def maskLanes (m : BitVec 64) (p : Nat → Bool) : Nat :=
  (lanesOf m).foldl (fun n l => n + if p l then 2 ^ l else 0) 0

/-- Selector `b` of a `PERM` lane and the byte it gives (08 R220; 03 R72). -/
def permByte (tbl : List Byte) (a : Nat → Nat) (l b : Nat) : Nat :=
  let sel := (getP 0 tbl (8 * l + 2 * b)).toNat + 256 * (getP 0 tbl (8 * l + 2 * b + 1)).toNat
  let src := a (sel / 2 ^ 10) / 2 ^ (8 * (sel % 4)) % 256
  match sel / 2 ^ 8 % 4 with
  | 0 => src
  | 1 => signExtend4 (src % 16)
  | 2 => signExtend4 (src / 16)
  | _ => 0

/-- A pattern table of a team (03 R72; 08 R220): what its storage held where none has been loaded. -/
def Team.pattern (t : Team) (k : Nat) : List Byte :=
  if t.patLoaded.getLsbD k then getP [] t.pats k else (List.range 512).map fun i => Config.freeByte t.patFree (512 * k + i)

/-- PERM (R220): Permutes bytes across lanes through a team pattern table. It stalls while an `LDPAT` of its warp is replacing that
table, and is ready from the cycle after the replacement (02 R414; 08 R221): the datum is the last cycle in which it waited. -/
def execPerm (o : Ops) (s : State) : Out :=
  .next (s.guarded (.perm o) fun s =>
    match shapeOf (.perm o), opsOf (.perm o) with
    | some sh, some o =>
      if s.memops.any (fun k => k.live && k.warp == s.cur && k.kind == .ldpat o.auxN) then s.stallAs 0 s.now
      else if s.tried.any (fun r => r.datum + 1 == s.now) then s.stall
      else
        let tbl := s.myTeam.pattern o.auxN
        s.runLane sh o 1 false fun s _ o _ l =>
          let a := fun j => s.src o .i32 o.s1 j
          permByte tbl a l 0 + 2 ^ 8 * permByte tbl a l 1 + 2 ^ 16 * permByte tbl a l 2 + 2 ^ 24 * permByte tbl a l 3
    | _, _ => s)

/-- REDUCE (R217): Combines the contributing lanes in the fixed butterfly order. -/
def execReduce (o : Ops) (s : State) : Out :=
  execLane (.reduce o) 1 false (fun s _ o m =>
    let r := treeReduce (reduceOp o.subN o.rm o.ftz) (s.reduceIn o m)
    fun _ => r) s

/-- SCAN (R217): Computes an inclusive prefix over the lanes in the fixed tree order. -/
def execScan (o : Ops) (s : State) : Out :=
  execLane (.scan o) 1 false (fun s _ o m =>
    let r := treeScan (reduceOp o.subN o.rm o.ftz) (s.reduceIn o m)
    fun l => scanOut o.subN o.ftz (getP 0 r l)) s

/-- SCANX (R217): Computes an exclusive prefix over the lanes. -/
def execScanx (o : Ops) (s : State) : Out :=
  execLane (.scanx o) 1 false (fun s _ o m =>
    let r := treeScan (reduceOp o.subN o.rm o.ftz) (s.reduceIn o m)
    fun l => if l = 0 then reduceId o.subN else scanOut o.subN o.ftz (getP 0 r (l - 1))) s

/-- AGREE_SOME (R218): Reports whether a predicate is true in at least one contributing lane. -/
def execAgreeSome (o : Ops) (s : State) : Out :=
  execLane (.agreeSome o) 1 false (fun s _ o m =>
    let r := if (lanesOf m).any (fun l => (s.me.lane l).pred o.auxN) then 1 else 0
    fun _ => r) s

/-- AGREE_EVERY (R218): Reports whether a predicate is true in every contributing lane. -/
def execAgreeEvery (o : Ops) (s : State) : Out :=
  execLane (.agreeEvery o) 1 true (fun s _ o m =>
    let r := if (lanesOf m).all (fun l => (s.me.lane l).pred o.auxN) then 1 else 0
    fun _ => r) s

/-- AGREE_MASK (R218): Writes a 64-bit mask of the contributing lanes in which a predicate is true. -/
def execAgreeMask (o : Ops) (s : State) : Out :=
  execLane (.agreeMask o) 2 false (fun s _ o m =>
    let r := maskLanes m fun l => (s.me.lane l).pred o.auxN
    fun _ => r) s

/-- MATCH (R218): Writes, in each lane, a mask of the contributing lanes whose value equals its own. -/
def execMatchL (o : Ops) (s : State) : Out :=
  execLane (.matchL o) 2 false (fun s _ o m =>
    let t : Ty := if o.subN = 1 then .i64 else .i32
    let a := (List.range 64).map fun l => s.src o t o.s1 l
    fun l => maskLanes m fun j => getP 0 a j == getP 0 a l) s

/-- FIRST (R218): Returns the value of the lowest-numbered contributing lane. -/
def execFirstL (o : Ops) (s : State) : Out :=
  execLane (.firstL o) 1 false (fun s _ o m =>
    let r := match lanesOf m with
      | l :: _ => s.src o .i32 o.s1 l
      | [] => 0
    fun _ => r) s

/-- POPL (R218): Counts the contributing lanes in which a predicate is true. -/
def execPopl (o : Ops) (s : State) : Out :=
  execLane (.popl o) 1 false (fun s _ o m =>
    let r := countLanes m fun l => (s.me.lane l).pred o.auxN
    fun _ => r) s

/-- RDLN (R219): Reads one lane's value into a scalar. -/
def execRdln (o : Ops) (s : State) : Out :=
  execLane (.rdln o) 1 false (fun s _ o _ =>
    let r := s.src o .i32 o.s1 (s.src2 o .i32 0 % 64)
    fun _ => r) s

/-- WRLN (R219): Writes a scalar value into one lane, when that lane contributes. -/
def execWrln (o : Ops) (s : State) : Out :=
  .next (s.guarded (.wrln o) fun s =>
    match shapeOf (.wrln o) with
    | some sh =>
      let k := s.src2 o .i32 0 % 64
      let m := s.contrib sh o &&& (1#64 <<< k)
      s.putLaneOp sh o 1 m false fun _ => s.src o .i32 o.s1 0
    | none => s)

/-- SHFL (R219): Reads a source from the lane that each lane names. -/
def aluShfl (i : AluIn) : AluOut :=
  .val (i.at_ (i.b % 64))
def execShfl (o : Ops) (s : State) : Out := execAlu (.shfl o) aluShfl s

/-- BCAST (R219): Broadcasts one lane's value to every lane. -/
def aluBcast (i : AluIn) : AluOut :=
  .val (i.at_ (i.b % 64))
def execBcast (o : Ops) (s : State) : Out := execAlu (.bcast o) aluBcast s

/-- The modifier of `LMOV` (08 R219): KIND in SUB, and K, DIR and FILL in the immediate. -/
def lmovDesc (o : Ops) : Desc :=
  let v := o.s2.val.toNat
  ⟨BitVec.ofNat 3 o.subN, BitVec.ofNat 6 v, v / 64 % 2 == 1, BitVec.ofNat 2 (v / 128), 0⟩

/-- LMOV (R219): Moves a value across lanes through a modifier held in SUB and SRC2. -/
def aluLmov (i : AluIn) : AluOut :=
  .val (i.via (lmovDesc i.o))
def execLmov (o : Ops) (s : State) : Out := execAlu (.lmov o) aluLmov s

end Sys2Proof.Machine
end

