-- ==== Sys2Proof/Machine/Module.lean ====
section
/-!
DEFINITION. The finaliser (07 R183-R191): a Snisyn module is read, encoded in the smallest layouts, laid out, resolved, placed and bound, or rejected
whole with a status. Where the modules of a load go, and how the operands of an instruction that the assembly writes as suffixes stand in a
record, are in log entry 56.
-/
namespace Sys2Proof.Machine

/-! ## The container (07 R186) -/

/-- `n` bytes of a module from offset `a`, as a number. -/
def modNum (m : List Byte) (a n : Nat) : Nat := leNum ((m.drop a).take n)
/-- A section: kind, offset, size. -/
structure Sect where
  kind : Nat
  off : Nat
  size : Nat
/-- A symbol: the kind of its section, and its offset there. -/
structure Sym where
  kind : Nat
  off : Nat
/-- A module whose header, section table and symbols are sound. -/
structure Module where
  bytes : List Byte
  sects : List Sect
  syms : List Sym

def Module.sect (m : Module) (kind : Nat) : Sect := (m.sects.find? fun x => x.kind == kind).getD ⟨kind, 0, 0⟩
/-- The bytes of a section. -/
def Module.data (m : Module) (kind : Nat) : List Byte := (m.bytes.drop (m.sect kind).off).take (m.sect kind).size
/-- A power of two. -/
def isPow2 (n : Nat) : Bool := n != 0 && 2 ^ n.log2 == n

/-- The header and the tables; the status of a failure: FORMAT 1, VERSION 2. -/
def readModule (m : List Byte) : Except Nat Module :=
  let ns := modNum m 8 4
  let so := modNum m 12 4
  let ny := modNum m 16 4
  let yo := modNum m 20 4
  if m.length < 32 || modNum m 0 4 ≠ 0x59534E53 then .error 1
  else if modNum m 4 2 ≠ 3 then .error 2
  else if modNum m 6 2 ≠ 0 || modNum m 24 8 ≠ 0 || m.length < so + 16 * ns || m.length < yo + 16 * ny then .error 1
  else
    let sects := (List.range ns).map fun i => (⟨modNum m (so + 16 * i) 4, modNum m (so + 16 * i + 4) 4, modNum m (so + 16 * i + 8) 4⟩ : Sect)
    let kinds := sects.map (·.kind)
    let symOk (i : Nat) : Bool :=
      let k := modNum m (yo + 16 * i + 4) 4
      k < ns && modNum m (yo + 16 * i + 8) 8 ≤ (getP ⟨0, 0, 0⟩ sects k).size
    if sects.any (fun x => x.kind < 1 || 7 < x.kind || m.length < x.off + x.size) || kinds.eraseDups.length ≠ kinds.length ||
        !((List.range ns).all fun i => isPow2 (modNum m (so + 16 * i + 12) 4)) || !((List.range ny).all symOk) then .error 1
    else
      .ok ⟨m, sects, (List.range ny).map fun i =>
        ⟨(getP ⟨0, 0, 0⟩ sects (modNum m (yo + 16 * i + 4) 4)).kind, modNum m (yo + 16 * i + 8) 8⟩⟩

/-! ## Records (07 R188) -/

inductive ArgKind where
  | vec | scal | pred | xreg | vidx | imm | wide | code
  deriving DecidableEq

/-- An operand of a record: `n` is the register, the value or the symbol; for an indexed vector, 256 × the index register + the immediate. -/
structure Arg where
  kind : ArgKind
  n : Nat
  lr : Bool := false
  desc : Desc := Desc.off

/-- A lane modifier (07 R169 field order), with a width-relative K. An offset of `rot` is reduced mod 64, and `mir` has none; any other kind
takes 0 to 63 (03 R70). -/
def modifierOf (w : Nat) : Option Desc :=
  let k := if w.testBit 18 then 64 / 2 ^ (w / 2 ^ 19 % 8) else w / 2 ^ 9 % 64
  let kind := w / 2 ^ 15 % 8
  if 2 ^ 22 ≤ w || (64 ≤ k && kind != 2 && kind != 5) || (w.testBit 18 && 6 < w / 2 ^ 19 % 8) then none
  else some (Desc.ofFields (w % 64) (w / 2 ^ 6 % 4) (w / 2 ^ 8 % 2) (k % 64) kind)

/-- The operands of operand words; `acc` holds those read, the last first. The status of a failure: FORMAT 1, ENCODING 3. -/
def readArgs : Nat → List Nat → List Arg → Except Nat (List Arg)
  | _, [], acc => .ok acc.reverse
  | 0, _, _ => .error 1
  | fuel + 1, w :: r, acc =>
    let n := w % 2 ^ 28
    let one (ok : Bool) (a : Arg) : Except Nat (List Arg) := if ok then readArgs fuel r (a :: acc) else .error 3
    match w / 2 ^ 28 with
    | 0 => one (n < 256) ⟨.vec, n, false, Desc.off⟩
    | 1 => one (n < 64) ⟨.scal, n, false, Desc.off⟩
    | 2 => one (n ≤ 8) ⟨.scal, 64 + n, false, Desc.off⟩
    | 3 => one (n < 8) ⟨.pred, n, false, Desc.off⟩
    | 4 => one (n < 4) ⟨.xreg, n, false, Desc.off⟩
    | 5 => one (n < 1024) ⟨.vidx, n, false, Desc.off⟩
    | 6 =>
      match r with
      | v :: r => if n = 0 then readArgs fuel r (⟨.imm, v, false, Desc.off⟩ :: acc) else .error 3
      | [] => .error 1
    | 7 =>
      match r with
      | l :: h :: r => if n = 0 then readArgs fuel r (⟨.wide, l + 2 ^ 32 * h, false, Desc.off⟩ :: acc) else .error 3
      | _ => .error 1
    | 8 => one (n < 16 && n % 8 ≤ 6) ⟨.imm, if n < 8 then 64 / 2 ^ (n % 8) else 2 ^ 32 - 64 / 2 ^ (n % 8), false, Desc.off⟩
    | 9 => one (n < 2 ^ 24) ⟨.code, n, false, Desc.off⟩
    | 10 =>
      match acc, modifierOf n with
      | a :: acc, some d => if (a.kind == .vec || a.kind == .vidx) && a.desc == Desc.off then readArgs fuel r ({ a with desc := d } :: acc) else .error 3
      | _, _ => .error 3
    | 11 =>
      match acc with
      | a :: acc => if n = 0 && (a.kind == .vec || a.kind == .vidx) && !a.lr then readArgs fuel r ({ a with lr := true } :: acc) else .error 3
      | [] => .error 3
    | _ => .error 3

/-- A record: its offset in the code section, its header word, its operands. -/
structure Rec where
  off : Nat
  hdr : Nat
  args : List Arg
def Rec.maj (x : Rec) : Nat := x.hdr % 2 ^ 8
def Rec.force (x : Rec) : Nat := x.hdr / 2 ^ 8 % 4
def Rec.pairNext (x : Rec) : Bool := x.hdr.testBit 10
def Rec.sub (x : Rec) : Nat := x.hdr / 2 ^ 22 % 64
def Rec.aux (x : Rec) : Nat := x.hdr / 2 ^ 16 % 8
/-- The fields that the header word holds. -/
def Rec.base (x : Rec) (f : Form) : Ops :=
  ⟨f, x.hdr.testBit 15, BitVec.ofNat 3 (x.hdr / 2 ^ 12), 0, .vec, Operand.off, Operand.off, Operand.off, BitVec.ofNat 6 x.sub,
    Rm.ofCode (x.hdr / 2 ^ 20 % 4), x.hdr.testBit 19, 0, BitVec.ofNat 3 x.aux, 0, 0⟩
/-- A header word that is legal by itself. -/
def Rec.hdrOk (x : Rec) : Bool :=
  !x.hdr.testBit 11 && x.force != 3 && (x.maj / 8 == 30 || x.maj == 0xF8 || x.maj == 0xF9 || (opOf x.maj (x.base .w64)).isSome)

/-- The records of a code section, given as its words. -/
def readRecs : Nat → Nat → List Nat → List Rec → Except Nat (List Rec)
  | _, _, [], acc => .ok acc.reverse
  | 0, _, _, _ => .error 1
  | fuel + 1, off, h :: r, acc =>
    let n := h / 2 ^ 28
    if r.length < n then .error 1
    else
      match readArgs 16 (r.take n) [] with
      | .error e => .error e
      | .ok as =>
        let x : Rec := ⟨off, h, as⟩
        if x.hdrOk then readRecs fuel (off + 4 + 4 * n) (r.drop n) (x :: acc) else .error 3

/-! ## Operands and fields -/

/-- What an operand of an assembly form fills: the destination, a predicate destination, the second destination predicate, sources, a branch target,
an offset, the operand of an atomic, bits of the immediate, the table length of `JTAB`, an operand that SUB or AUX repeats, or `WAIT` and `QFETCH`
whole. -/
inductive Sl where
  | d | dp | pd | a | b | c | pa | pb | tgt | off | offA | x | sl | n8 | raw | kern | wait | qf
  | im (lo w : Nat)
  | chk (v : Nat)

/-- The operands of the instructions whose shapes are special, by major, SUB and AUX, in the order of their assembly forms. -/
def slotsOf (maj sub aux : Nat) : List Sl :=
  match maj with
  | 0x02 => [.tgt]
  | 0x03 => [.a]
  | 0x04 => [.tgt]
  | 0x05 => [.tgt]
  | 0x06 => [.d, .tgt]
  | 0x07 => [.d, .a]
  | 0x08 => [.a]
  | 0x09 => [.tgt]
  | 0x0A => [.a]
  | 0x0D => [.d, .tgt]
  | 0x0E => [.a, .n8, .tgt]
  | 0x0F => [.sl]
  | 0x11 => [.dp, .a]
  | 0x12 => [.dp, .pa, .pb]
  | 0x13 => [.dp, .pa, .pb]
  | 0x14 => [.dp, .pa, .pb]
  | 0x15 => [.dp, .pa]
  | 0x16 => [.a]
  | 0x17 => [.d]
  | 0x18 => [.dp, .pa, .pb, .chk aux]
  | 0x21 => [.chk aux, .a, .off]
  | 0x2E => [.qf]
  | 0x81 => [.a, .off, .d]
  | 0x83 => [.a, .off, .d]
  | 0x85 => [.a, .off, .d]
  | 0x87 => [.a, .off, .d]
  | 0x89 => [.a, .off]
  | 0x8A => [.d, .a, .offA, .x]
  | 0x8B => [.a, .offA, .x, .d]
  | 0x8C => [.d, .a, .off, .chk aux]
  | 0x8D => [.a, .off, .d, .chk aux]
  | 0x8E => [.a, .off, .d]
  | 0x8F => if sub = 0 then [.a] else []
  | 0x90 => if sub % 4 = 0 then [.raw, .d, .a] else [.d, .a]
  | 0x93 => [.d, .a]
  | 0x95 => [.d, .a, .im 0 16, .im 16 6]
  | 0xA4 => if sub = 8 then [.a, .off, .d, .c] else [.a, .off, .d]
  | 0xA5 => [.d, .a, .offA, .x]
  | 0xA9 => [.a]
  | 0xAD => [.wait]
  | 0xAE => [.a, .b]
  | 0xAF => [.d, .chk sub]
  | 0xB4 => if sub = 0 then [.tgt, .a, .chk (aux + 1)] else [.b, .a, .chk (aux + 1)]
  | 0xB5 => [.d, .pd, .kern, .a, .c]
  | 0xB6 => [.d, .a]
  | 0xB7 => [.d, .a]
  | 0xB8 => if sub = 0 then [.tgt] else [.b]
  | 0xB9 => if sub = 0 then [.d, .tgt] else [.d, .b]
  | 0xBC => [.a]
  | 0xBE => [.d, .pd]
  | 0xC2 => [.d]
  | 0xC3 => if sub / 16 % 2 = 1 then [.a, .b, .d] else [.a, .b]
  | 0xC4 => [.d, .a, .x, .im 0 5, .im 8 5]
  | 0xC5 => if sub / 32 = 1 then [.d, .a, .im 0 6, .c] else [.d, .a, .off, .c]
  | 0xC6 => [.d, .a]
  | 0xC7 => [.d, .a]
  | 0xC8 => if sub / 32 = 1 then [.d, .a, .im 0 6, .c] else [.d, .a, .off, .c]
  | 0xC9 => [.d, .a]
  | 0xCA => [.d, .a]
  | 0xCB => [.d, .a]
  | 0xCC => [.d, .off]
  | 0xCD => [.a]
  | 0xCE => [.d, .a]
  | 0xCF => [.a]
  | 0xD0 => [.d, .a]
  | 0xD9 => [.a]
  | 0xDA => [.d, .a]
  | 0xDB => [.d, .a]
  | 0xDC => if sub = 1 then [.d, .raw, .c] else [.d, .raw]
  | 0xDD => if sub = 1 then [.raw, .c, .a] else [.raw, .a]
  | 0xDE => if sub = 0 then [] else if sub = 1 then [.a] else [.a, .b]
  | 0xDF => [.b]
  | 0xE2 => if sub = 0 then [.a] else []
  | 0xE3 => if sub = 0 then [.a] else [.a, .b]
  | 0xE5 => [.d, .chk sub]
  | 0xE6 => [.d, .chk sub]
  | 0xE7 => [.a]
  | 0xE8 => [.a]
  | 0xEA => if sub < 2 then [.a, .b] else if sub = 2 then [.a] else []
  | 0xEB => [.d, .chk sub]
  | _ =>
    if 0x80 ≤ maj && maj ≤ 0x88 then [.d, .a, .off]
    else if 0x91 ≤ maj && maj ≤ 0x94 then [.a]
    else if 0x96 ≤ maj && maj ≤ 0x9D then [.d, .a, .offA, .x]
    else if 0x9E ≤ maj && maj ≤ 0xA3 then [.a, .off, .d]
    else if 0xBD ≤ maj && maj ≤ 0xC1 then [.d]
    else if 0xD1 ≤ maj && maj ≤ 0xD8 then [.d, .a, .c, .raw]
    else []
/-- The operands of an instruction: those of its shape where that is general (08 R192). -/
def slotsFor (sh : Shape) (sub aux : Nat) : List Sl :=
  if sh.special then slotsOf sh.maj sub aux
  else
    (match sh.d with
    | .off => []
    | _ => [.d]) ++ (if sh.pd then [.pd] else []) ++ (if sh.s1.isSome then [.a] else []) ++ (if sh.s2.isSome then [.b] else []) ++
    (if sh.s3.isSome then [.c] else []) ++
    (if sh.maj = 0x4A || sh.maj = 0x59 then [.chk (sub % 8)] else if sh.maj = 0x78 then [.chk (sub % 4)]
     else if sh.maj = 0x20 || sh.maj = 0x25 || sh.maj = 0x2A then [.chk aux] else [])

/-- Where code addresses lead: the address of a symbol, the address of the instruction, and the template of a kernel's name symbol or descriptor. -/
structure Places where
  sym : Nat → Option Nat
  pc : Nat
  kern : Nat → Bool → Option Nat

/-- The value of an immediate operand as a source of a type. -/
def Arg.val (p : Places) (t : Ty) (g : Arg) : Option Nat :=
  match g.kind with
  | .imm => some (imm32 t g.n)
  | .wide => some (imm64 t g.n)
  | .code => (p.sym g.n).map (imm64 t)
  | _ => none
/-- A small immediate with the value of an operand. -/
def imm8For (t : Ty) (v : Nat) : Option (BitVec 8) := ((List.range 256).map (BitVec.ofNat 8)).find? fun k => imm8 t k == v
/-- A source field of an operand (07 R164). -/
def Arg.source (p : Places) (t : Ty) (g : Arg) : Option Operand :=
  match g.kind with
  | .vec => some ⟨.vec, BitVec.ofNat 8 g.n, g.lr, g.desc⟩
  | .scal => some ⟨.scal, BitVec.ofNat 8 g.n, false, Desc.off⟩
  | .vidx => some ⟨.idx, BitVec.ofNat 8 g.n, g.lr, g.desc⟩
  | .xreg => some ⟨.imm, BitVec.ofNat 8 g.n, false, Desc.off⟩
  | .pred => none
  | _ => (g.val p t).bind fun v => (imm8For t v).map fun k => ⟨.imm, k, false, Desc.off⟩
/-- The immediate field of a layout with the value of an operand (07 R170, R173). -/
def Arg.immField (p : Places) (f : Form) (t : Ty) (g : Arg) : Option Nat :=
  (g.val p t).bind fun v =>
    if f = .w128i then
      some (match t with
        | .i32 => wrapN 64 (sx 32 v)
        | .h2 _ => v % 2 ^ 16
        | _ => v)
    else
      let n := match t with
        | .f64 => fp32.round .rne (fp64.decode v)
        | .h2 _ => v % 2 ^ 16
        | _ => v % 2 ^ 32
      if imm32 t n = v then some n else none

def immOf (o : Ops) (n : Nat) : Ops := { o with imm := o.imm + BitVec.ofNat 64 n }
def dstOf (o : Ops) (k : DKind) (n : Nat) : Ops := { o with kd := k, dst := BitVec.ofNat 8 n }

/-- An operand as a destination, or as a register that DST holds. -/
def putDst (o : Ops) (maj : Nat) (g : Arg) : Option Ops :=
  match g.kind with
  | .vec => some (dstOf o .vec g.n)
  | .scal => some (dstOf o .scal g.n)
  | .pred => some (dstOf o .pred g.n)
  | .xreg => some (dstOf o (if maj = 0x0D && o.form == .w64 then .vec else .pred) (8 + g.n))
  | .vidx => some (dstOf o .idx g.n)
  | .imm => if (maj = 0xCC || maj = 0x90) && g.n < 64 then some (dstOf o .vec g.n) else none
  | _ => none
/-- A displacement to a symbol, as a branch holds it: in units of 4 bytes in the 64-bit form (08 R196). -/
def Places.disp (p : Places) (o : Ops) (n : Nat) : Option Nat :=
  (p.sym n).bind fun t =>
    let d : Int := (t : Int) - p.pc
    if o.form == .w64 then (if -(2 ^ 25 : Int) ≤ d && d < 2 ^ 25 then some (wrapN 24 (d / 4)) else none)
    else if -(2 ^ 31 : Int) ≤ d && d < 2 ^ 31 then some (wrapN 32 d) else none

/-- The fields that one operand fills, for the instruction's source types. -/
def fillSlot (p : Places) (sh : Shape) (o : Ops) (s : Sl) (g : Arg) : Option Ops :=
  let t1 := sh.s1.getD .i32
  let t2 := sh.s2.getD .i32
  let isImm := o.form.isImm
  match s with
  | .d => putDst o sh.maj g
  | .dp => if g.kind == .pred then some (dstOf o .vec g.n) else none
  | .pd => if g.kind == .pred then some { o with pd := BitVec.ofNat 3 g.n } else none
  | .a =>
    if sh.maj = 0x2D then
      if g.desc.kind.toNat ≠ o.subN then none
      else
        (({ g with desc := Desc.off } : Arg).source p t1).map fun x => { o with
          s1 := x
          s2 := ⟨.imm, BitVec.ofNat 8 (g.desc.k.toNat + (if g.desc.dir then 64 else 0) + 128 * (g.desc.fill.toNat % 2)), false, Desc.off⟩ }
    else if g.kind == .xreg && !(sh.maj = 0x4E && o.subN = 2) then none
    else (g.source p t1).map fun x => { o with s1 := x }
  | .b =>
    if isImm then (g.immField p o.form t2).map (immOf o) else (g.source p t2).map fun x => { o with s2 := x }
  | .c => (g.source p (sh.s3.getD .i32)).map fun x => { o with s3 := x }
  | .pa => if g.kind == .pred then some { o with s1 := ⟨.vec, BitVec.ofNat 8 g.n, false, Desc.off⟩ } else none
  | .pb => if g.kind == .pred then some { o with s2 := ⟨.vec, BitVec.ofNat 8 g.n, false, Desc.off⟩ } else none
  | .tgt => if g.kind == .code then (p.disp o g.n).map (immOf o) else none
  | .off =>
    if isImm then (g.immField p o.form (if o.form == .w128i then .i64 else .i32)).map (immOf o)
    else (g.source p .i32).map fun x => { o with s2 := x }
  | .offA =>
    match g.kind with
    | .imm => if isImm then (g.immField p o.form .i32).map (immOf o) else if g.n = 0 then some o else none
    | _ => none
  | .x => (g.source p .i32).map fun x => if isImm then { o with s3 := x } else { o with s2 := x }
  | .sl => if isImm then (g.immField p o.form .i32).map (immOf o) else (g.source p .i32).map fun x => { o with s1 := x }
  | .n8 =>
    if g.kind == .imm && 1 ≤ g.n && g.n ≤ 256 then
      some (if isImm then { o with s3 := ⟨.imm, BitVec.ofNat 8 (g.n - 1), false, Desc.off⟩ }
        else { o with s2 := ⟨.vec, BitVec.ofNat 8 (g.n - 1), false, Desc.off⟩ })
    else none
  | .raw => if g.kind == .imm then some (immOf o g.n) else none
  | .kern =>
    match g.kind with
    | .code => (p.kern g.n true).map (immOf o)
    | .imm => (p.kern g.n false).map (immOf o)
    | _ => none
  | .im lo w => if g.kind == .imm && g.n < 2 ^ w then some (immOf o (2 ^ lo * g.n)) else none
  | .chk v => if (g.kind == .pred || g.kind == .imm) && g.n = v then some o else none
  | .wait => none
  | .qf => none

/-- What stands where an operand that the form may omit is not written. -/
def omitSlot (o : Ops) (s : Sl) : Option Ops :=
  match s with
  | .pd => some o
  | .off => some (if o.form.isImm then o else { o with s2 := ⟨.imm, 0, false, Desc.off⟩ })
  | .offA => some o
  | .chk _ => some o
  | .c => some o
  | .im _ _ => if o.form.isImm then none else some o
  | .raw => some o
  | _ => none

/-- The fields of an instruction from its operands, each slot filled or left out. -/
def fillAll (p : Places) (sh : Shape) : List Sl → List Arg → Ops → Option Ops
  | [], [], o => some o
  | [], _ :: _, _ => none
  | s :: r, [], o => (omitSlot o s).bind (fillAll p sh r [])
  | s :: r, g :: gs, o => ((fillSlot p sh o s g).bind (fillAll p sh r gs)).or ((omitSlot o s).bind (fillAll p sh r (g :: gs)))

/-- The index register that the indexed operands share (07 R165); none where they differ. -/
def indexOf (as : List Arg) : Option Nat :=
  let xs := (as.filter fun g => g.kind == .vidx).map fun g => g.n / 256
  if xs.all (· == getP 0 xs 0) then some (getP 0 xs 0) else none

/-- The limits of `WAIT` and the registers of `QFETCH` (07 R178; 03 R66). -/
def waitImm (as : List Arg) : Option Nat :=
  match as with
  | [l, s, c, t] =>
    if as.all (fun g => g.kind == .imm) && l.n < 64 && s.n < 64 && c.n < 64 && t.n < 16 then some (t.n + 2 ^ 4 * c.n + 2 ^ 10 * s.n + 2 ^ 16 * l.n)
    else none
  | _ => none
def qfetchImm (as : List Arg) : Option Nat :=
  if 1 ≤ as.length && as.length ≤ 4 && as.all (fun g => g.kind == .vec) then
    some (as.foldr (fun g n => g.n + 2 ^ 8 * n) 0 + 2 ^ 32 * (2 ^ as.length - 1))
  else none

/-- A record in a form, when its major has it and it holds the operands. -/
def Rec.inForm (p : Places) (x : Rec) (f : Form) : Option Ops :=
  (indexOf x.args).bind fun ix =>
    let o := { x.base f with ixn := BitVec.ofNat 2 ix }
    match (opOf x.maj o).bind shapeOf with
    | none => none
    | some sh =>
      (match x.maj with
      | 0xAD => (waitImm x.args).map (immOf o)
      | 0x2E => (qfetchImm x.args).map (immOf o)
      | _ => fillAll p sh (slotsFor sh x.sub x.aux) x.args o).filter fun o =>
        match (opOf x.maj o).bind shapeOf with
        | some sh => sh.okOps o
        | none => false
/-- The layouts in the order of R183, under FORCE. -/
def Rec.forms (x : Rec) : List Form :=
  match x.force with
  | 1 => [.w96r, .w96i]
  | 2 => [.w128m, .w128i]
  | _ => [.w64, .w96r, .w96i, .w128m, .w128i]
/-- A record of the hint space: a word of the length that FORCE says, with the header's fields where the layouts have them; there is no field
for an operand (07 R179, R188; log entry 56). -/
def Rec.hint (x : Rec) : Option Instr :=
  if x.args.isEmpty then
    some (.hintNop ⟨BitVec.ofNat 3 x.maj, BitVec.ofNat 2 x.force, BitVec.ofNat 118 (x.hdr / 2 ^ 12 % 2 ^ 4 + 2 ^ 31 * x.aux +
      2 ^ 45 * (x.hdr / 2 ^ 19 % 2 ^ 3) + 2 ^ 48 * x.sub)⟩)
  else none
/-- A record as an instruction (07 R183). -/
def Rec.instr (p : Places) (x : Rec) : Option Instr :=
  if x.maj / 8 = 30 then x.hint
  else (x.forms.findSome? (x.inForm p)).bind (opOf x.maj)
/-- A record as a slot of a paired word. -/
def Rec.slot (p : Places) (x : Rec) : Option Slot := (x.inForm p .slot).map fun o => ⟨BitVec.ofNat 8 x.maj, o⟩

/-! ## Items and their places (07 R184, R189) -/

/-- What stands in the native code: an instruction of one record, a pair of two, or the place of a join. -/
inductive CodeUnit where
  | one (x : Rec)
  | two (x y : Rec)
  | mark (off : Nat)
def CodeUnit.off : CodeUnit → Nat
  | .one x => x.off
  | .two x _ => x.off
  | .mark o => o

/-- A `MEET` to the symbol of an operand, at the offset of a record. -/
def meetRec (off sym : Nat) : Rec := ⟨off, 0x09, [⟨.code, sym, false, Desc.off⟩]⟩
/-- Regions become `MEET` (07 R189 step 2), and pairs are joined. `regions` holds the joins of the open regions, the innermost first. -/
def readUnits : Nat → List Rec → List Nat → Except Nat (List CodeUnit)
  | _, [], regions => if regions.isEmpty then .ok [] else .error 1
  | 0, _, _ => .error 1
  | fuel + 1, x :: r, regions =>
    if x.maj = 0xF8 then
      match x.args with
      | [g] => if g.kind == .code && !x.pairNext then (readUnits fuel r (g.n :: regions)).map (.one (meetRec x.off g.n) :: ·) else .error 3
      | _ => .error 3
    else if x.maj = 0xF9 then
      if !x.args.isEmpty || x.pairNext then .error 3
      else
        match regions with
        | [] => .error 1
        | _ :: [] => (readUnits fuel r []).map (.mark x.off :: ·)
        | _ :: j :: rs => (readUnits fuel r (j :: rs)).map (.one (meetRec x.off j) :: ·)
    else if x.pairNext then
      match r with
      | y :: r => if y.pairNext || y.maj = 0xF8 || y.maj = 0xF9 then .error 6 else (readUnits fuel r regions).map (.two x y :: ·)
      | [] => .error 6
    else (readUnits fuel r regions).map (.one x :: ·)

/-- The instruction of a unit; the status of a failure. -/
def CodeUnit.instr (p : Places) (u : CodeUnit) : Except Nat (Option Instr) :=
  match u with
  | .mark _ => .ok none
  | .one x =>
    match x.instr p with
    | some i => .ok (some i)
    | none => .error 3
  | .two x y =>
    if pairClass x.maj = 0 || pairClass y.maj = 0 then .error 6
    else
      match x.slot p, y.slot p with
      | some s, some t => if pairLegal s t then .ok (some (.pairedWord s t)) else .error 6
      | _, _ => .error 3

/-- The `NOP`s that fill a packet (07 R184). -/
def padding (room : Nat) : List Byte :=
  if room = 8 then toBytes 8 4
  else if room = 12 then toBytes 12 (encodeWord (.nop ⟨.w96i, false, 0, 0, .vec, Operand.off, Operand.off, Operand.off, 0, .rne, false, 0, 0, 0, 0⟩))
  else List.replicate room 0
/-- The bytes of padding before an instruction of `n` bytes at an offset. -/
def padBefore (at_ n : Nat) : Nat := if 32 < at_ % 32 + n then 32 - at_ % 32 else 0

/-- Native code as far as it is laid out: its bytes, and the native offset of each record. -/
structure Code where
  bytes : List Byte
  map : List (Nat × Nat)
/-- Units laid out one after another. A join that places nothing is at the next instruction. -/
def layOut (p : Nat → Places) : List CodeUnit → List Nat → Code → Except Nat Code
  | [], marks, c => .ok { c with map := c.map ++ marks.map fun o => (o, c.bytes.length) }
  | u :: r, marks, c =>
    let at_ := c.bytes.length
    match u.instr (p at_) with
    | .error e => .error e
    | .ok none => layOut p r (u.off :: marks) c
    | .ok (some i) =>
      let pad := padBefore at_ i.bytes
      -- An instruction that padding moves is encoded again at its own address, which may take a larger layout.
      let n := match u.instr (p (at_ + pad)) with
        | .ok (some j) => max i.bytes j.bytes
        | _ => i.bytes
      let pad := padBefore at_ n
      match u.instr (p (at_ + pad)) with
      | .ok (some j) =>
        if j.bytes ≠ n then .error 3
        else layOut p r [] ⟨c.bytes ++ padding pad ++ encode j, c.map ++ (u.off :: marks).map fun o => (o, at_ + pad)⟩
      | .ok none => .error 3
      | .error e => .error e

/-! ## Kernels and bins (07 R187) -/

/-- A kernel descriptor with its 64 bytes. -/
structure KDesc where
  bytes : List Byte
def KDesc.f (k : KDesc) (a n : Nat) : Nat := modNum k.bytes a n
def KDesc.hasEntry (k : KDesc) : Bool := k.f 4 4 != 0xFFFFFFFF
def Module.kernels (m : Module) : List KDesc :=
  (List.range ((m.sect 4).size / 64)).map fun i => ⟨((m.data 4).drop (64 * i)).take 64⟩
/-- The buffer records of a kernel (BASE and SIZE), and its bin records (entry, timer, flags). -/
def Module.bufsOf (m : Module) (k : KDesc) : List (Nat × Nat) :=
  (List.range (k.f 15 1)).map fun i => (modNum (m.data 5) (8 * (k.f 32 4 + i)) 4, modNum (m.data 5) (8 * (k.f 32 4 + i) + 4) 4)
def Module.binsOf (m : Module) (k : KDesc) : List (Nat × Nat × Nat) :=
  (List.range (k.f 40 2)).map fun i =>
    let a := 16 * (k.f 36 4 + i)
    (modNum (m.data 6) a 4, modNum (m.data 6) (a + 4) 4, modNum (m.data 6) (a + 8) 4)
/-- The entries of a kernel, as code offsets. -/
def Module.entries (m : Module) (k : KDesc) : List Nat :=
  (if k.hasEntry then [k.f 4 4] else []) ++ (m.binsOf k).map (·.1)
/-- The records of a kernel: from its first entry to the first entry of another kernel beyond it (log entry 56). -/
def Module.codeOf (m : Module) (recs : List Rec) (k : KDesc) : List Rec :=
  let es := m.entries k
  let lo := es.foldl min (2 ^ 32)
  let firsts := m.kernels.map fun q => (m.entries q).foldl min (2 ^ 32)
  let hi := (firsts.filter (lo < ·)).foldl min (2 ^ 32)
  recs.filter fun x => lo ≤ x.off && x.off < hi

/-- The structure of a descriptor: FORMAT. -/
def Module.kdescOk (m : Module) (recs : List Rec) (k : KDesc) : Bool :=
  let start (o : Nat) : Bool := recs.any fun x => x.off == o
  k.f 0 4 < m.syms.length && k.f 20 4 == 0 && (List.range 22).all (fun i => k.f (42 + i) 1 == 0) &&
  8 * (k.f 32 4 + k.f 15 1) ≤ (m.sect 5).size && 16 * (k.f 36 4 + k.f 40 2) ≤ (m.sect 6).size &&
  (m.entries k).all start && (m.binsOf k).all (fun b => b.2.2 < 2) &&
  (List.range (k.f 40 2)).all fun i => modNum (m.data 6) (16 * (k.f 36 4 + i) + 12) 4 == 0
/-- An edge that wraps on an axis of extent 1 (07 R185; 03 R76). -/
def badWrap (w : Nat) : Bool :=
  let edge (d : Nat) : Nat := w / 2 ^ (16 + 2 * d) % 4
  (w / 2 ^ 9 % 2 ^ 7 == 0 && (edge 2 == 2 || edge 3 == 2)) || (w / 2 ^ 8 % 2 == 0 && (edge 4 == 2 || edge 5 == 2))
/-- The vector registers that a record names lie within the allocation, every register of a pair or group (03 R60; 07 R185). -/
def Rec.regsOk (p : Places) (regs : Nat) (x : Rec) : Bool :=
  x.args.all (fun g => g.kind != .vec || g.n < regs) &&
  match (x.forms.findSome? (x.inForm p)).or (x.inForm p .slot) with
  | none => true
  | some o =>
    match (opOf x.maj o).bind shapeOf with
    | none => true
    | some sh => (sh.spans o).all fun q => q.2 == 0 || q.1.kind != .vec || q.1.val.toNat + q.2 ≤ regs
/-- The limits of a kernel: LIMIT (07 R190). -/
def Module.limitsOk (m : Module) (p : Places) (recs : List Rec) (k : KDesc) : Bool :=
  let regs := 8 * k.f 9 1
  let kib := k.f 12 2
  let ring := k.f 18 2
  let map := k.f 24 8
  let code := m.codeOf recs k
  let coll := code.any fun x => x.maj == 0xC3 || x.maj == 0xC4 || x.maj == 0xCC
  1 ≤ k.f 8 1 && k.f 8 1 ≤ 16 && 1 ≤ k.f 9 1 && k.f 9 1 ≤ 32 && k.f 11 1 ≤ k.f 10 1 && k.f 10 1 < regs && kib ≤ 256 && k.f 14 1 < 4 &&
  k.f 15 1 ≤ 64 && (m.bufsOf k).all (fun b => b.1 + b.2 + 1 ≤ 16 * kib) &&
  (ring == 0 || (isPow2 ring && 4 ≤ ring && ring ≤ 1024 && 64 * k.f 16 2 + 64 + 64 * ring ≤ 1024 * kib)) &&
  (map % 2 == 0 || (map / 2 ^ 9 % 2 ^ 7 < 96 && !badWrap map)) &&
  (m.binsOf k).all (fun b => 64 ≤ b.2.1 && b.2.1 ≤ 1048576) &&
  code.all (Rec.regsOk p regs) &&
  (!coll || ((!k.hasEntry || k.f 8 1 % 4 == 0) && (m.binsOf k).all fun b => b.2.2 == 1))

/-- The template index of a kernel (07 R189 step 6), by the symbol of its name or by the place of its descriptor. -/
def Module.template (m : Module) (n : Nat) (byName : Bool) : Option Nat :=
  let ks := m.kernels
  ((List.range ks.length).find? fun i =>
    let k := getP ⟨[]⟩ ks i
    k.hasEntry && (if byName then k.f 0 4 == n else i == n)).map fun i => ((ks.take i).filter (·.hasEntry)).length

/-! ## Loading (07 R189, R190) -/

/-- Where a module goes: the code's physical and virtual address, and the physical address of data and constants, which follow the code's pages in
virtual memory. -/
structure Site where
  code : Nat
  va : Nat
  data : Nat
/-- A size rounded up. -/
def roundUp (n k : Nat) : Nat := (n + k - 1) / k * k
/-- The address of a symbol: in the code through the map of the records, in data and constants after the code. -/
def Module.symAt (m : Module) (site : Site) (size : Nat) (map : List (Nat × Nat)) (n : Nat) : Option Nat :=
  let y := getP ⟨0, 0⟩ m.syms n
  let d := site.va + roundUp size 4096
  if m.syms.length ≤ n then none
  else
    match y.kind with
    | 1 => if y.off = (m.sect 1).size then some (site.va + size) else (lookupN map y.off).map (site.va + ·)
    | 2 => some (d + y.off)
    | 3 => some (d + roundUp (m.sect 2).size 4096 + y.off)
    | _ => none
/-- The places of a first layout: every code address is at the instruction. -/
def Module.here (m : Module) (site : Site) (o : Nat) : Places :=
  ⟨fun n => if n < m.syms.length then some (site.va + o) else none, site.va + o, m.template⟩
/-- Code laid out again with the places it has, until they stay (07 R183, R189): a branch that its target has left takes the larger layout. -/
def Module.settle (m : Module) (site : Site) (us : List CodeUnit) : Nat → Code → Except Nat Code
  | 0, _ => .error 3
  | fuel + 1, c =>
    match layOut (fun o => ⟨m.symAt site c.bytes.length c.map, site.va + o, m.template⟩) us [] ⟨[], []⟩ with
    | .error e => .error e
    | .ok d => if d.map == c.map && d.bytes.length = c.bytes.length then .ok d else m.settle site us fuel d
/-- Native code. -/
def Module.native (m : Module) (site : Site) (us : List CodeUnit) : Except Nat Code :=
  match layOut (m.here site) us [] ⟨[], []⟩ with
  | .error e => .error e
  | .ok c => m.settle site us (us.length + 2) c

/-- What a load gives: native code, launch templates, and bins with their kernels. -/
structure Loaded where
  code : List Byte
  templates : List Kernel
  bins : List (Nat × Bool × Kernel)

/-- The kernel of a bin entry: one warp, or a sheaf of four, without a port map (02 R49, R52). -/
def binKernel (k : Kernel) (entry : DWord) (sheaf : Bool) : Kernel :=
  let n := if sheaf then 4 else 1
  { k with
    entry := entry
    warps := n
    portmap := 0
    desc := k.desc.take 8 ++ [BitVec.ofNat 8 n] ++ (k.desc.drop 9).take 15 ++ List.replicate 8 0 ++ k.desc.drop 32 }
/-- The finaliser: a module finalised for its place, or the status of its rejection (07 R190). -/
def finalise (bytes : List Byte) (site : Site) (boundBins : Nat) : Except Nat (Module × Loaded) :=
  match readModule bytes with
  | .error e => .error e
  | .ok m =>
    if (m.sect 1).size % 4 ≠ 0 || (m.sect 4).size % 64 ≠ 0 || (m.sect 5).size % 8 ≠ 0 || (m.sect 6).size % 16 ≠ 0 then .error 1
    else
      let ws := (List.range ((m.sect 1).size / 4)).map fun i => modNum (m.data 1) (4 * i) 4
      match readRecs (ws.length + 1) 0 ws [] with
      | .error e => .error e
      | .ok recs =>
        if !(m.kernels.all (m.kdescOk recs)) then .error 1
        else
          match readUnits (recs.length + 1) recs [] with
          | .error e => .error e
          | .ok us =>
            match m.native site us with
            | .error e => .error e
            | .ok c =>
              let at_ (o : Nat) : DWord := BitVec.ofNat 64 (site.va + (lookupN c.map o).getD 0)
              let kern (k : KDesc) : Kernel := Kernel.ofDesc k.bytes (if k.hasEntry then at_ (k.f 4 4) else 0) (m.bufsOf k)
              let bins := m.kernels.flatMap fun k => (m.binsOf k).map fun b => (b.2.1, b.2.2 == 1, binKernel (kern k) (at_ b.1) (b.2.2 == 1))
              if !(m.kernels.all (m.limitsOk (m.here site 0) recs)) then .error 4
              else if 1024 < boundBins + bins.length then .error 5
              else .ok (m, ⟨c.bytes, (m.kernels.filter (·.hasEntry)).map kern, bins⟩)

/-- One bin bound (02 R50, R52). -/
def State.bindBin (s : State) (p : Nat) (b : Nat × Bool × Kernel) : State :=
  let r := s.newId p
  let i := freeSlot Bin.live r.1.bins
  { r.1 with bins := setP Bin.idle r.1.bins i { Bin.idle with
      live := true
      part := p
      entry := b.2.2.entry
      sheaf := b.2.1
      timer := b.1
      gridId := r.2
      kern := b.2.2 } }
/-- A module takes its place in a partition (07 R189 steps 5 and 6): its bytes are written, its code is published (06 R156), its bins are bound and
its templates stand from index 0. -/
def State.placeModule (s : State) (p : Nat) (site : Site) (m : Module) (l : Loaded) : State :=
  let s := ((s.pokeBytes site.code l.code).pokeBytes site.data (m.data 2)).pokeBytes (site.data + roundUp (m.sect 2).size 4096) (m.data 3)
  let lines := (List.range ((l.code.length + 127) / 128)).map fun i => lineOf site.code + 128 * i
  let s : State := { s with published := lines ++ s.published.filter fun a => !lines.contains a }
  (l.bins.foldl (fun s b => s.bindBin p b) s).onPart p fun x => { x with templates := l.templates }

/-- LOADMOD (R190): Mailbox command that finalises and loads a Snisyn module. The operand `a` is the partition, `b` and `v` the physical and the virtual
address of the code, and `c` the physical address of data and constants, each on a page of its own (log entry 56). -/
def execLoadmod (s : State) : Out :=
  .next (s.serve true (2 ≤ s.stage) fun s =>
    let p := s.ev.a % 6
    let site : Site := ⟨s.ev.b / 4096 * 4096, s.ev.v.toNat / 4096 * 4096, s.ev.c / 4096 * 4096⟩
    match finalise s.ev.bytes site (s.bins.filter fun b => b.live && b.part == p).length with
    | .error e => s.respond 0 (toBytes 4 e)
    | .ok (m, l) => (s.placeModule p site m l).respond 0 (toBytes 4 0))

end Sys2Proof.Machine
end

