-- ==== Sys2Proof/Machine/Pair.lean ====
section
/-!
DEFINITION. Paired words (07 R174-R176): two slots that issue together and read all their sources before either writes.
-/
namespace Sys2Proof.Machine

/-- The lane function of each pairable major (07 R175). -/
def slotFn (maj : Nat) : AluIn → AluOut :=
  match maj with
  | 0x30 => aluIadd
  | 0x31 => aluIsub
  | 0x32 => aluIneg
  | 0x33 => aluIabs
  | 0x34 => aluImul
  | 0x35 => aluImulh
  | 0x36 => aluImad
  | 0x37 => aluIadds
  | 0x38 => aluIsubs
  | 0x39 => aluImin
  | 0x3A => aluImax
  | 0x3B => aluAndB
  | 0x3C => aluOrB
  | 0x3D => aluXorB
  | 0x3E => aluNotB
  | 0x3F => aluShl
  | 0x40 => aluShr
  | 0x41 => aluSar
  | 0x42 => aluRol
  | 0x43 => aluRor
  | 0x44 => aluBfx
  | 0x45 => aluBfi
  | 0x46 => aluPopc
  | 0x47 => aluClz
  | 0x48 => aluBrev
  | 0x4A => aluIsel
  | 0x4D => aluLea
  | 0x4E => aluMov
  | 0x50 => aluFadd
  | 0x51 => aluFsub
  | 0x52 => aluFmul
  | 0x53 => aluFfma
  | 0x54 => aluFmin
  | 0x55 => aluFmax
  | 0x56 => aluFabs
  | 0x57 => aluFneg
  | 0x59 => aluFsel
  | 0x6D => aluHadd2
  | 0x6E => aluHmul2
  | 0x6F => aluHfma2
  | 0x70 => aluHmin2
  | 0x71 => aluHmax2
  | 0x74 => aluF2f
  | 0x75 => aluF2i
  | 0x76 => aluI2f
  | 0x77 => aluI2i
  | 0x27 => aluShfl
  | 0x28 => aluBcast
  | 0x2D => aluLmov
  | _ => fun _ => AluOut.val 0

/-- The results of a slot in every lane, from the state before the word. -/
def State.slotVals (s : State) (sh : Shape) (p : Slot) : List AluOut :=
  (List.range 64).map fun l =>
    if s.pass p.ops l then slotFn p.maj.toNat (s.aluIn sh p.ops l) else AluOut.val 0

/-- PAIRED_WORD (R176): Issues two slots in one cycle, each slot reading its sources before either writes. No slot can fault in a single lane: a slot has no
indexed operand (07 R174); a register beyond the allocation (03 R60) is a fault of the first slot that names one (15 R325). -/
def execPairedWord (p q : Slot) (s : State) : Out :=
  .next (match p.shape, q.shape with
    | some a, some b =>
      if !s.me.regsOk a p.ops || !s.me.regsOk b q.ops then
        s.parkAll { mkFault 0x01 s.ipc with addr := s.ipc, slot := s.me.regsOk a p.ops }
      else
        let u := s.slotVals a p
        let v := s.slotVals b q
        let m := s.passMask q.ops
        (((((s.putResults p.ops a.dstRegs (s.passMask p.ops) (getP (AluOut.val 0) u)).putResults q.ops b.dstRegs m
          (getP (AluOut.val 0) v))).releaseMarks (s.markRegs a p.ops)).releaseMarks (s.markRegs b q.ops)).advance
    | _, _ => s)

end Sys2Proof.Machine
end

