-- ==== Sys2Proof/Machine/Dispatch.lean ====
section
/-!
DEFINITION. The instruction set and the events, one arm for each constructor of `Instr`.
-/
namespace Sys2Proof.Machine

def exec (i : Instr) (s : State) : Host.Outcome State Fault Refusal :=
  match i with
  | .nop o => Sys2Proof.Machine.execNop o s
  | .hintNop h => Sys2Proof.Machine.execHintNop h s
  | .bra o => Sys2Proof.Machine.execBra o s
  | .brx o => Sys2Proof.Machine.execBrx o s
  | .brall o => Sys2Proof.Machine.execBrall o s
  | .brany o => Sys2Proof.Machine.execBrany o s
  | .call o => Sys2Proof.Machine.execCall o s
  | .callx o => Sys2Proof.Machine.execCallx o s
  | .ret o => Sys2Proof.Machine.execRet o s
  | .meet o => Sys2Proof.Machine.execMeet o s
  | .meetx o => Sys2Proof.Machine.execMeetx o s
  | .exitT o => Sys2Proof.Machine.execExitT o s
  | .yield o => Sys2Proof.Machine.execYield o s
  | .loop o => Sys2Proof.Machine.execLoop o s
  | .jtab o => Sys2Proof.Machine.execJtab o s
  | .sleep o => Sys2Proof.Machine.execSleep o s
  | .demote o => Sys2Proof.Machine.execDemote o s
  | .pset o => Sys2Proof.Machine.execPset o s
  | .pand o => Sys2Proof.Machine.execPand o s
  | .por o => Sys2Proof.Machine.execPor o s
  | .pxor o => Sys2Proof.Machine.execPxor o s
  | .pnot o => Sys2Proof.Machine.execPnot o s
  | .pld o => Sys2Proof.Machine.execPld o s
  | .pst o => Sys2Proof.Machine.execPst o s
  | .psel o => Sys2Proof.Machine.execPsel o s
  | .perm o => Sys2Proof.Machine.execPerm o s
  | .ldpat o => Sys2Proof.Machine.execLdpat o s
  | .patternTableReplace => Sys2Proof.Machine.execPatternTableReplace s
  | .reduce o => Sys2Proof.Machine.execReduce o s
  | .scan o => Sys2Proof.Machine.execScan o s
  | .scanx o => Sys2Proof.Machine.execScanx o s
  | .agreeSome o => Sys2Proof.Machine.execAgreeSome o s
  | .agreeEvery o => Sys2Proof.Machine.execAgreeEvery o s
  | .agreeMask o => Sys2Proof.Machine.execAgreeMask o s
  | .matchL o => Sys2Proof.Machine.execMatchL o s
  | .shfl o => Sys2Proof.Machine.execShfl o s
  | .bcast o => Sys2Proof.Machine.execBcast o s
  | .firstL o => Sys2Proof.Machine.execFirstL o s
  | .popl o => Sys2Proof.Machine.execPopl o s
  | .rdln o => Sys2Proof.Machine.execRdln o s
  | .wrln o => Sys2Proof.Machine.execWrln o s
  | .lmov o => Sys2Proof.Machine.execLmov o s
  | .qfetch o => Sys2Proof.Machine.execQfetch o s
  | .iadd o => Sys2Proof.Machine.execIadd o s
  | .isub o => Sys2Proof.Machine.execIsub o s
  | .ineg o => Sys2Proof.Machine.execIneg o s
  | .iabs o => Sys2Proof.Machine.execIabs o s
  | .imul o => Sys2Proof.Machine.execImul o s
  | .imulh o => Sys2Proof.Machine.execImulh o s
  | .imad o => Sys2Proof.Machine.execImad o s
  | .iadds o => Sys2Proof.Machine.execIadds o s
  | .isubs o => Sys2Proof.Machine.execIsubs o s
  | .imin o => Sys2Proof.Machine.execImin o s
  | .imax o => Sys2Proof.Machine.execImax o s
  | .andB o => Sys2Proof.Machine.execAndB o s
  | .orB o => Sys2Proof.Machine.execOrB o s
  | .xorB o => Sys2Proof.Machine.execXorB o s
  | .notB o => Sys2Proof.Machine.execNotB o s
  | .shl o => Sys2Proof.Machine.execShl o s
  | .shr o => Sys2Proof.Machine.execShr o s
  | .sar o => Sys2Proof.Machine.execSar o s
  | .rol o => Sys2Proof.Machine.execRol o s
  | .ror o => Sys2Proof.Machine.execRor o s
  | .bfx o => Sys2Proof.Machine.execBfx o s
  | .bfi o => Sys2Proof.Machine.execBfi o s
  | .popc o => Sys2Proof.Machine.execPopc o s
  | .clz o => Sys2Proof.Machine.execClz o s
  | .brev o => Sys2Proof.Machine.execBrev o s
  | .icmp o => Sys2Proof.Machine.execIcmp o s
  | .isel o => Sys2Proof.Machine.execIsel o s
  | .iadd64 o => Sys2Proof.Machine.execIadd64 o s
  | .imul64 o => Sys2Proof.Machine.execImul64 o s
  | .lea o => Sys2Proof.Machine.execLea o s
  | .mov o => Sys2Proof.Machine.execMov o s
  | .movi o => Sys2Proof.Machine.execMovi o s
  | .fadd o => Sys2Proof.Machine.execFadd o s
  | .fsub o => Sys2Proof.Machine.execFsub o s
  | .fmul o => Sys2Proof.Machine.execFmul o s
  | .ffma o => Sys2Proof.Machine.execFfma o s
  | .fmin o => Sys2Proof.Machine.execFmin o s
  | .fmax o => Sys2Proof.Machine.execFmax o s
  | .fabs o => Sys2Proof.Machine.execFabs o s
  | .fneg o => Sys2Proof.Machine.execFneg o s
  | .fcmp o => Sys2Proof.Machine.execFcmp o s
  | .fsel o => Sys2Proof.Machine.execFsel o s
  | .fcls o => Sys2Proof.Machine.execFcls o s
  | .frcp o => Sys2Proof.Machine.execFrcp o s
  | .frsq o => Sys2Proof.Machine.execFrsq o s
  | .fsqrt o => Sys2Proof.Machine.execFsqrt o s
  | .fdiv o => Sys2Proof.Machine.execFdiv o s
  | .fexp2 o => Sys2Proof.Machine.execFexp2 o s
  | .flog2 o => Sys2Proof.Machine.execFlog2 o s
  | .fsin o => Sys2Proof.Machine.execFsin o s
  | .fcos o => Sys2Proof.Machine.execFcos o s
  | .ftanh o => Sys2Proof.Machine.execFtanh o s
  | .dadd o => Sys2Proof.Machine.execDadd o s
  | .dsub o => Sys2Proof.Machine.execDsub o s
  | .dmul o => Sys2Proof.Machine.execDmul o s
  | .dfma o => Sys2Proof.Machine.execDfma o s
  | .dmin o => Sys2Proof.Machine.execDmin o s
  | .dmax o => Sys2Proof.Machine.execDmax o s
  | .dcmp o => Sys2Proof.Machine.execDcmp o s
  | .ddiv o => Sys2Proof.Machine.execDdiv o s
  | .dsqrt o => Sys2Proof.Machine.execDsqrt o s
  | .hadd2 o => Sys2Proof.Machine.execHadd2 o s
  | .hmul2 o => Sys2Proof.Machine.execHmul2 o s
  | .hfma2 o => Sys2Proof.Machine.execHfma2 o s
  | .hmin2 o => Sys2Proof.Machine.execHmin2 o s
  | .hmax2 o => Sys2Proof.Machine.execHmax2 o s
  | .hcmp2 o => Sys2Proof.Machine.execHcmp2 o s
  | .fdot2 o => Sys2Proof.Machine.execFdot2 o s
  | .f2f o => Sys2Proof.Machine.execF2f o s
  | .f2i o => Sys2Proof.Machine.execF2i o s
  | .i2f o => Sys2Proof.Machine.execI2f o s
  | .i2i o => Sys2Proof.Machine.execI2i o s
  | .ln2f o => Sys2Proof.Machine.execLn2f o s
  | .f2ln o => Sys2Proof.Machine.execF2ln o s
  | .pack o => Sys2Proof.Machine.execPack o s
  | .unpk o => Sys2Proof.Machine.execUnpk o s
  | .qblk o => Sys2Proof.Machine.execQblk o s
  | .dqbl o => Sys2Proof.Machine.execDqbl o s
  | .qsrd o => Sys2Proof.Machine.execQsrd o s
  | .qsclr o => Sys2Proof.Machine.execQsclr o s
  | .gld o => Sys2Proof.Machine.execGld o s
  | .gst o => Sys2Proof.Machine.execGst o s
  | .spld o => Sys2Proof.Machine.execSpld o s
  | .spst o => Sys2Proof.Machine.execSpst o s
  | .slld o => Sys2Proof.Machine.execSlld o s
  | .slst o => Sys2Proof.Machine.execSlst o s
  | .skld o => Sys2Proof.Machine.execSkld o s
  | .skst o => Sys2Proof.Machine.execSkst o s
  | .gstn o => Sys2Proof.Machine.execGstn o s
  | .cld o => Sys2Proof.Machine.execCld o s
  | .prfgL1 o => Sys2Proof.Machine.execPrfgL1 o s
  | .prfgL2 o => Sys2Proof.Machine.execPrfgL2 o s
  | .cctlIvl o => Sys2Proof.Machine.execCctlIvl o s
  | .cctlIval o => Sys2Proof.Machine.execCctlIval o s
  | .tld o => Sys2Proof.Machine.execTld o s
  | .tst o => Sys2Proof.Machine.execTst o s
  | .qld o => Sys2Proof.Machine.execQld o s
  | .qst o => Sys2Proof.Machine.execQst o s
  | .copy o => Sys2Proof.Machine.execCopy o s
  | .cprg o => Sys2Proof.Machine.execCprg o s
  | .copyLineSend => Sys2Proof.Machine.execCopyLineSend s
  | .copyLineDelivery => Sys2Proof.Machine.execCopyLineDelivery s
  | .hwaitFull o => Sys2Proof.Machine.execHwaitFull o s
  | .hwaitFree o => Sys2Proof.Machine.execHwaitFree o s
  | .hwp o => Sys2Proof.Machine.execHwp o s
  | .hrelClaim o => Sys2Proof.Machine.execHrelClaim o s
  | .hrelFree o => Sys2Proof.Machine.execHrelFree o s
  | .send o => Sys2Proof.Machine.execSend o s
  | .messageAppend => Sys2Proof.Machine.execMessageAppend s
  | .aadd o => Sys2Proof.Machine.execAadd o s
  | .amin o => Sys2Proof.Machine.execAmin o s
  | .amax o => Sys2Proof.Machine.execAmax o s
  | .aand o => Sys2Proof.Machine.execAand o s
  | .aor o => Sys2Proof.Machine.execAor o s
  | .axor o => Sys2Proof.Machine.execAxor o s
  | .axch o => Sys2Proof.Machine.execAxch o s
  | .acas o => Sys2Proof.Machine.execAcas o s
  | .rdadd o => Sys2Proof.Machine.execRdadd o s
  | .rdmin o => Sys2Proof.Machine.execRdmin o s
  | .rdmax o => Sys2Proof.Machine.execRdmax o s
  | .rdand o => Sys2Proof.Machine.execRdand o s
  | .rdor o => Sys2Proof.Machine.execRdor o s
  | .rdxor o => Sys2Proof.Machine.execRdxor o s
  | .bop o => Sys2Proof.Machine.execBop o s
  | .bopr o => Sys2Proof.Machine.execBopr o s
  | .requestArrival => Sys2Proof.Machine.execRequestArrival s
  | .storeAcknowledge => Sys2Proof.Machine.execStoreAcknowledge s
  | .loadReply => Sys2Proof.Machine.execLoadReply s
  | .fence o => Sys2Proof.Machine.execFence o s
  | .acq o => Sys2Proof.Machine.execAcq o s
  | .rel o => Sys2Proof.Machine.execRel o s
  | .acqSteal o => Sys2Proof.Machine.execAcqSteal o s
  | .stealArrival => Sys2Proof.Machine.execStealArrival s
  | .bar o => Sys2Proof.Machine.execBar o s
  | .bararv o => Sys2Proof.Machine.execBararv o s
  | .barwt o => Sys2Proof.Machine.execBarwt o s
  | .wait o => Sys2Proof.Machine.execWait o s
  | .publ o => Sys2Proof.Machine.execPubl o s
  | .cntrd o => Sys2Proof.Machine.execCntrd o s
  | .spawnDirect o => Sys2Proof.Machine.execSpawnDirect o s
  | .spawnIndirect o => Sys2Proof.Machine.execSpawnIndirect o s
  | .binTimerExpiry => Sys2Proof.Machine.execBinTimerExpiry s
  | .binWaitingEntry => Sys2Proof.Machine.execBinWaitingEntry s
  | .bflush o => Sys2Proof.Machine.execBflush o s
  | .bstat o => Sys2Proof.Machine.execBstat o s
  | .launch o => Sys2Proof.Machine.execLaunch o s
  | .lwait o => Sys2Proof.Machine.execLwait o s
  | .lpoll o => Sys2Proof.Machine.execLpoll o s
  | .push o => Sys2Proof.Machine.execPush o s
  | .pop o => Sys2Proof.Machine.execPop o s
  | .peek o => Sys2Proof.Machine.execPeek o s
  | .pstat o => Sys2Proof.Machine.execPstat o s
  | .pdrd o => Sys2Proof.Machine.execPdrd o s
  | .pdrdClr o => Sys2Proof.Machine.execPdrdClr o s
  | .pmap o => Sys2Proof.Machine.execPmap o s
  | .portValueArrival => Sys2Proof.Machine.execPortValueArrival s
  | .portCreditReturn => Sys2Proof.Machine.execPortCreditReturn s
  | .portStallTrap => Sys2Proof.Machine.execPortStallTrap s
  | .mzero o => Sys2Proof.Machine.execMzero o s
  | .mldw o => Sys2Proof.Machine.execMldw o s
  | .mwst o => Sys2Proof.Machine.execMwst o s
  | .mstr o => Sys2Proof.Machine.execMstr o s
  | .mstacc o => Sys2Proof.Machine.execMstacc o s
  | .mldacc o => Sys2Proof.Machine.execMldacc o s
  | .mrd o => Sys2Proof.Machine.execMrd o s
  | .mwr o => Sys2Proof.Machine.execMwr o s
  | .mcpy o => Sys2Proof.Machine.execMcpy o s
  | .mscl o => Sys2Proof.Machine.execMscl o s
  | .mtrn o => Sys2Proof.Machine.execMtrn o s
  | .msyn o => Sys2Proof.Machine.execMsyn o s
  | .tileOpStart => Sys2Proof.Machine.execTileOpStart s
  | .tileOpComplete => Sys2Proof.Machine.execTileOpComplete s
  | .lease o => Sys2Proof.Machine.execLease o s
  | .leaseTry o => Sys2Proof.Machine.execLeaseTry o s
  | .erls o => Sys2Proof.Machine.execErls o s
  | .erlsCold o => Sys2Proof.Machine.execErlsCold o s
  | .estat o => Sys2Proof.Machine.execEstat o s
  | .leaseGrant => Sys2Proof.Machine.execLeaseGrant s
  | .engineWakeComplete => Sys2Proof.Machine.execEngineWakeComplete s
  | .leaseRevoke => Sys2Proof.Machine.execLeaseRevoke s
  | .trace o => Sys2Proof.Machine.execTrace o s
  | .attr o => Sys2Proof.Machine.execAttr o s
  | .rast o => Sys2Proof.Machine.execRast o s
  | .thresh o => Sys2Proof.Machine.execThresh o s
  | .decode o => Sys2Proof.Machine.execDecode o s
  | .gather o => Sys2Proof.Machine.execGather o s
  | .scatr o => Sys2Proof.Machine.execScatr o s
  | .coll o => Sys2Proof.Machine.execColl o s
  | .engineCommandArrival => Sys2Proof.Machine.execEngineCommandArrival s
  | .engineItemStart => Sys2Proof.Machine.execEngineItemStart s
  | .engineCommandComplete => Sys2Proof.Machine.execEngineCommandComplete s
  | .rastStallResume => Sys2Proof.Machine.execRastStallResume s
  | .collTimeout => Sys2Proof.Machine.execCollTimeout s
  | .ecanc o => Sys2Proof.Machine.execEcanc o s
  | .epoll o => Sys2Proof.Machine.execEpoll o s
  | .ewait o => Sys2Proof.Machine.execEwait o s
  | .laneDelivery => Sys2Proof.Machine.execLaneDelivery s
  | .srd o => Sys2Proof.Machine.execSrd o s
  | .swr o => Sys2Proof.Machine.execSwr o s
  | .tlbiAll o => Sys2Proof.Machine.execTlbiAll o s
  | .tlbiAsid o => Sys2Proof.Machine.execTlbiAsid o s
  | .tlbiVa o => Sys2Proof.Machine.execTlbiVa o s
  | .tlbiMap o => Sys2Proof.Machine.execTlbiMap o s
  | .tlbWalkComplete => Sys2Proof.Machine.execTlbWalkComplete s
  | .trap o => Sys2Proof.Machine.execTrap o s
  | .brkpt o => Sys2Proof.Machine.execBrkpt o s
  | .addressBreakpoint => Sys2Proof.Machine.execAddressBreakpoint s
  | .hret o => Sys2Proof.Machine.execHret o s
  | .hrpl o => Sys2Proof.Machine.execHrpl o s
  | .hrplAll o => Sys2Proof.Machine.execHrplAll o s
  | .hemu o => Sys2Proof.Machine.execHemu o s
  | .hemuTo o => Sys2Proof.Machine.execHemuTo o s
  | .hend o => Sys2Proof.Machine.execHend o s
  | .hfrd o => Sys2Proof.Machine.execHfrd o s
  | .hsrd o => Sys2Proof.Machine.execHsrd o s
  | .ctxsv o => Sys2Proof.Machine.execCtxsv o s
  | .ctxld o => Sys2Proof.Machine.execCtxld o s
  | .icinv o => Sys2Proof.Machine.execIcinv o s
  | .pmrd o => Sys2Proof.Machine.execPmrd o s
  | .l2flWb o => Sys2Proof.Machine.execL2flWb o s
  | .l2flInv o => Sys2Proof.Machine.execL2flInv o s
  | .l2flSlice o => Sys2Proof.Machine.execL2flSlice o s
  | .l2flPart o => Sys2Proof.Machine.execL2flPart o s
  | .pairedWord p q => Sys2Proof.Machine.execPairedWord p q s
  | .meetingRelease => Sys2Proof.Machine.execMeetingRelease s
  | .greedLimit => Sys2Proof.Machine.execGreedLimit s
  | .handlerVector => Sys2Proof.Machine.execHandlerVector s
  | .warpRetire => Sys2Proof.Machine.execWarpRetire s
  | .teamResourcesFree => Sys2Proof.Machine.execTeamResourcesFree s
  | .teamPlacement => Sys2Proof.Machine.execTeamPlacement s
  | .launchDoorbell => Sys2Proof.Machine.execLaunchDoorbell s
  | .launchRecord => Sys2Proof.Machine.execLaunchRecord s
  | .skipRecord => Sys2Proof.Machine.execSkipRecord s
  | .restoreRecord => Sys2Proof.Machine.execRestoreRecord s
  | .preemptRequest => Sys2Proof.Machine.execPreemptRequest s
  | .preemptTrap => Sys2Proof.Machine.execPreemptTrap s
  | .partcfgWrite => Sys2Proof.Machine.execPartcfgWrite s
  | .hashmaskCommit => Sys2Proof.Machine.execHashmaskCommit s
  | .commitScanEnd => Sys2Proof.Machine.execCommitScanEnd s
  | .refusedRequestResend => Sys2Proof.Machine.execRefusedRequestResend s
  | .tkshareWrite => Sys2Proof.Machine.execTkshareWrite s
  | .bucketRefill => Sys2Proof.Machine.execBucketRefill s
  | .partitionIdleChange => Sys2Proof.Machine.execPartitionIdleChange s
  | .idleStateArrival => Sys2Proof.Machine.execIdleStateArrival s
  | .engbudgetWrite => Sys2Proof.Machine.execEngbudgetWrite s
  | .slmcarveWrite => Sys2Proof.Machine.execSlmcarveWrite s
  | .pagerDoorbell => Sys2Proof.Machine.execPagerDoorbell s
  | .pagerServe => Sys2Proof.Machine.execPagerServe s
  | .remapGo => Sys2Proof.Machine.execRemapGo s
  | .remapCancel => Sys2Proof.Machine.execRemapCancel s
  | .remapRun => Sys2Proof.Machine.execRemapRun s
  | .remapComplete => Sys2Proof.Machine.execRemapComplete s
  | .objectEnable => Sys2Proof.Machine.execObjectEnable s
  | .objectDisable => Sys2Proof.Machine.execObjectDisable s
  | .objectFlagClear => Sys2Proof.Machine.execObjectFlagClear s
  | .tenureRecallTimeout => Sys2Proof.Machine.execTenureRecallTimeout s
  | .tenureRevert => Sys2Proof.Machine.execTenureRevert s
  | .tenureRenewal => Sys2Proof.Machine.execTenureRenewal s
  | .tenureLapse => Sys2Proof.Machine.execTenureLapse s
  | .flitReplay => Sys2Proof.Machine.execFlitReplay s
  | .linkDown => Sys2Proof.Machine.execLinkDown s
  | .headerError => Sys2Proof.Machine.execHeaderError s
  | .partitionHaltComplete => Sys2Proof.Machine.execPartitionHaltComplete s
  | .bankLoss => Sys2Proof.Machine.execBankLoss s
  | .gleanStep => Sys2Proof.Machine.execGleanStep s
  | .errlogClear => Sys2Proof.Machine.execErrlogClear s
  | .clockSet => Sys2Proof.Machine.execClockSet s
  | .d3hotEntry => Sys2Proof.Machine.execD3hotEntry s
  | .drawOverLimit => Sys2Proof.Machine.execDrawOverLimit s
  | .overTemperatureTrip => Sys2Proof.Machine.execOverTemperatureTrip s
  | .reset => Sys2Proof.Machine.execReset s
  | .stageComplete => Sys2Proof.Machine.execStageComplete s
  | .loadfw => Sys2Proof.Machine.execLoadfw s
  | .status => Sys2Proof.Machine.execStatus s
  | .idcert => Sys2Proof.Machine.execIdcert s
  | .attest => Sys2Proof.Machine.execAttest s
  | .loadmod => Sys2Proof.Machine.execLoadmod s
  | .readlog => Sys2Proof.Machine.execReadlog s
  | .recallAtHolder => Sys2Proof.Machine.execRecallAtHolder s
  | .d0Entry => Sys2Proof.Machine.execD0Entry s
  | .mailboxBadcmd => Sys2Proof.Machine.execMailboxBadcmd s

end Sys2Proof.Machine
end

