-- ==== Sys2Proof/Machine/Plan.lean ====
section
/-!
DEFINITION. What the machine does next (02 R414; 95): in each cycle first the units that wait on events of earlier cycles, then the
arrivals and completions that are due, then the issues of the quarters, then what the cycle's end decides.
-/
namespace Sys2Proof.Machine

/-- The next action. -/
inductive Action where
  | act (a : Act)
  | warp (w : Nat)
  | tick

/-- The place of an action in the order of the agenda: the request that arrives at a line, with its warp. -/
def State.arrivalOf (s : State) (d : Due) : Option (Nat × Nat) :=
  match d.act with
  | .ev .requestArrival x => some ((s.req x.a).line, (s.memop (s.req x.a).op).warp)
  | _ => none
/-- The due actions that may be taken before the first one: arrivals at one line from different warps in one cycle, whose
order the spec leaves open (06 R149; log entry 1). -/
def rivals (s : State) (la : Nat) : List Nat → Nat → List Due → List Nat
  | _, _, [] => []
  | warps, k, d :: r =>
    if s.now < d.at_ then []
    else
      match s.arrivalOf d with
      | some (l, w) => if l = la && !warps.contains w then k :: rivals s la (w :: warps) (k + 1) r else rivals s la warps (k + 1) r
      | none => rivals s la warps (k + 1) r
/-- The list without its `k`-th entry. -/
def dropAt {α : Type} : Nat → List α → List α
  | _, [] => []
  | 0, _ :: r => r
  | k + 1, x :: r => x :: dropAt k r
/-- A trip that is due: it wins over everything else in its cycle (20 R412). -/
def Due.isTrip (d : Due) : Bool :=
  match d.act with
  | .ev .overTemperatureTrip _ => true
  | _ => false
def State.tripDue (s : State) : Option Nat := s.agenda.findIdx? fun d => d.at_ ≤ s.now && d.isTrip
/-- The place in the agenda of the due action that is taken, and the free values used. -/
def State.duePlace (s : State) (d : Due) : Nat × Nat :=
  match s.tripDue with
  | some k => (k, 0)
  | none =>
    match s.arrivalOf d with
    | none => (0, 0)
    | some (la, _) =>
      match rivals s la [] 0 s.agenda with
      | k :: j :: ks => (getP k (k :: j :: ks) ((Config.freeWord s.free).toNat % (ks.length + 2)), 1)
      | _ => (0, 0)
/-- The due action that is taken, and the state without it. -/
def State.takeDue (s : State) : Option (Act × State) :=
  match s.agenda with
  | [] => none
  | d :: _ =>
    if s.now < d.at_ then none
    else
      let n := s.duePlace d
      some ((getP d s.agenda n.1).act, { s with agenda := dropAt n.1 s.agenda, free := s.free + n.2 })

/-- An event of the table with operands. -/
def event (i : Instr) (a : Nat := 0) (b : Nat := 0) (c : Nat := 0) (v : DWord := 0) : Option Act := some (.ev i ⟨a, b, c, v, []⟩)

/-- The first warp with a property. -/
def State.findWarp (s : State) (p : Nat → Warp → Bool) : Option Nat :=
  (List.range s.warps.length).find? fun w => (s.warp w).live && p w (s.warp w)

/-- The first of some choices. -/
def firstOf {α : Type} : List (Option α) → Option α
  | [] => none
  | some a :: _ => some a
  | none :: r => firstOf r

/-- What waiting units do at the start of a cycle, on events of earlier cycles (02 R414). -/
def State.atStart (s : State) : Option Act :=
  firstOf [
    s.binReady.bind fun b => event .binWaitingEntry b,
    (s.actingSector false).bind fun k => event .leaseGrant k,
    s.taking.bind fun p => event (s.takeEvent p) p,
    s.placing.bind fun p => event .teamPlacement p,
    s.loadedTile.bind fun i => event .tileOpComplete i 4,
    s.rastResume.bind fun c => event .rastStallResume c,
    s.remapReady.bind fun k => event .remapRun k,
    s.greedy.bind fun q => event .greedLimit q]

/-- What the cycle's end decides. -/
def State.atEnd (s : State) : Option Act :=
  firstOf [
    s.sendingChannel.bind fun c => event .copyLineSend c,
    (s.actingSector true).bind fun k => event .leaseGrant k,
    s.startingTile.bind fun i => event .tileOpStart i,
    (s.findWarp fun w _ => s.portTimedOut w).bind fun w => event .portStallTrap w,
    (s.findWarp fun w _ => s.vectorDue w).bind fun w => event .handlerVector w,
    (s.findWarp fun _ x => x.released.isSome).bind fun w => event .meetingRelease w 0 0 ((s.warp w).released.getD 0),
    (s.findWarp fun w _ => s.canRetire w).bind fun w => event .warpRetire w,
    s.refillDue.bind fun c => event .bucketRefill c,
    s.idleDue.bind fun p => event .partitionIdleChange p]

/-- The next action, and the state in which it is taken. -/
def State.plan (s : State) : Action × State :=
  match (if s.ph = 0 then s.atStart else none) with
  | some a => (.act a, s)
  | none =>
    match (if s.ph ≤ 1 then s.takeDue else none) with
    | some (a, t) => (.act a, { t with ph := 1 })
    | none =>
      match (if s.ph ≤ 2 then s.nextWarp else none) with
      | some w => (.warp w, { s with ph := 2 })
      | none =>
        match s.atEnd with
        | some a => (.act a, { s with ph := 3 })
        | none => (.tick, s)

/-- A cycle is over: the kills that it brought are carried out in the next (18 R376, R377). -/
def State.tick (s : State) : State :=
  ({ s with now := s.now + 1, ph := 0, queues := s.queues.filter fun q => s.now + 1 < q.until_ }).runKills

/-! ## Around an execution -/

/-- The outcome of an execution, followed by what an issue leaves. -/
def after (f : State → State) (o : Out) : Out :=
  match o with
  | .next s => .next (f s)
  | .fault r => .fault r
  | .refused r => .refused r

/-- A byte that the host writes: below 2^52 through BAR2 into the device's own span (18 R384), from there on in its own memory. -/
def State.hostByte (s : State) (pa : Nat) (b : Byte) : State :=
  if 2 ^ 52 ≤ pa then { s.unpublish (lineOf pa) with remote := Memory.put farByte s.remote pa [b] }
  else if pa < 2 ^ 38 && !s.d3hot then s.pokeBytes (2 ^ 42 * s.self + pa) [b]
  else s
/-- What the device still does after the trip (20 R412): the Guluth control core answers the mailbox, and a reset is taken; every other action is
lost. -/
def Act.survives (a : Act) : Bool :=
  match a with
  | .hostMem pa _ => 2 ^ 52 ≤ pa
  | .ev i _ =>
    match i with
    | .reset => true
    | .loadfw => true
    | .status => true
    | .idcert => true
    | .attest => true
    | .readlog => true
    | .mailboxBadcmd => true
    | _ => false
  | _ => false
end Sys2Proof.Machine
end

