-- ==== Sys2Proof/Machine/Guluth.lean ====
section
/-!
DEFINITION. The Guluth control core (20 R410): the words of its firmware. Which words the firmware comes to is an input; the core's registers start at
zero, its data addresses are physical, and an access is complete at once (log entry 120).
-/
namespace Sys2Proof.Machine

/-- What the Guluth control core does with a major (20 R410). -/
inductive GulKind where
  | scalar
  | memory
  | order
  | system
  | lease
  | illegal
  deriving DecidableEq, Repr

/-- The instructions of the core, by major (20 R410; 07 R179). -/
def gulKind (maj : Nat) : GulKind :=
  if maj == 0x21 || maj == 0x2E || maj == 0x09 || maj == 0x0A || maj == 0x0C || maj == 0x0F || maj == 0x10 then .illegal
  else if 0x01 ≤ maj && maj ≤ 0x4F then .scalar
  else if maj == 0x80 || maj == 0x81 || maj == 0x88 || (0x96 ≤ maj && maj ≤ 0x9D) then .memory
  else if 0xA6 ≤ maj && maj ≤ 0xA8 then .order
  else if maj == 0xDC || maj == 0xDD || maj == 0xDE || maj == 0xEA then .system
  else if maj == 0xCE || maj == 0xCF || maj == 0xD5 || maj == 0xDA || maj == 0xDB then .lease
  else .illegal
/-- Every operand that the instruction uses is a scalar, an immediate or a special register, and it writes no vector register. -/
def scalarWord (sh : Shape) (o : Ops) : Bool :=
  (sh.sources o).all (fun p => p.1.kind == .scal || p.1.kind == .imm) && (sh.writeKeys o).all fun k => 256 ≤ k && k < 1000

/-- The state in which the core executes a word: it stands behind the warps, as a warp of one thread. -/
def State.asGuluth (s : State) (sys : Bool) (n : Nat) : State :=
  let x := s.gul
  let pc := (x.lane 0).pc
  { s with
    warps := s.warps ++ [{ x with hmode := sys, hpc := pc }]
    cur := s.warps.length
    act := 1
    issued := true
    ipc := pc
    npc := nextPc pc n }
/-- The state after a word: the core is taken from behind the warps again. -/
def State.fromGuluth (s t : State) : State :=
  let n := s.warps.length
  let x := t.warp n
  let x := { (if x.hmode then x.onLane 0 fun y => { y with pc := x.hpc } else x) with
    hmode := false
    stalled := if t.issued then none else x.stalled }
  { t with warps := t.warps.take n, gul := x, cur := s.cur, act := s.act, issued := s.issued, ipc := s.ipc, npc := s.npc }

/-- An atomic of the core, by major. -/
def gulAtomic (maj : Nat) : AOp := getP .cas [.add, .min, .max, .and, .or, .xor, .xch] (maj - 0x96)
/-- A load, a store or an atomic of the core at a physical address; a misaligned one is an illegal word. -/
def State.gulMemory (s : State) (maj : Nat) (o : Ops) : Option State :=
  let a := s.gAddr o 0
  let pa := a % 2 ^ 52
  let d := o.dst.toNat
  if maj = 0x80 || maj = 0x88 then
    let n := o.accBytes
    if a % n ≠ 0 then none else some (s.onMe fun x => x.setSN d o.accRegs (extendTo (isSigned o) n (s.peek pa n))).advance
  else if maj = 0x81 then
    if a % o.accBytes ≠ 0 then none else some (s.pokeNum pa o.accBytes (s.stData o o.accRegs 0).toNat).advance
  else
    let ty := atyOf (o.subN % 8)
    let op := gulAtomic maj
    let b := if o.form.isImm then o.s3 else o.s2
    let off : Int := if o.form.isImm then s.offset o 0 else 0
    let a := wrapN 64 (s.readN o o.s1 2 0 + off)
    let pa := a % 2 ^ 52
    let n := ty.bytes
    let old := s.peek pa n
    if o.subN / 8 % 2 = 1 || a % n ≠ 0 then none
    else
      let t := s.pokeNum pa n (atomicNew op ty old (s.atData o b ty (if op == .cas then 2 * ty.regs else ty.regs) 0))
      some (t.onMe fun x => x.setSN d ty.regs old).advance

/-- The outcome of a word of the core: none where it is illegal for it. -/
def State.gulRun (s : State) (i : Instr) : Option Out :=
  match shapeOf i, opsOf i with
  | some sh, some o =>
    let sys := gulKind sh.maj == .system
    let t := s.asGuluth sys i.bytes
    if !scalarWord sh o then none
    else match gulKind sh.maj with
    | .illegal => none
    | .memory => (t.gulMemory sh.maj o).map fun u => .next (s.fromGuluth u)
    | .order => some (.next (s.fromGuluth t.advance))
    | .lease => some (.next (s.fromGuluth t.advance))
    | _ => some (after s.fromGuluth (exec i t))
  | _, _ => none

/-- The firmware comes to a word: one that the core does not execute, or that faults in it, halts the firmware (20 R410); one that waits is
tried again in the next cycle. A core whose thread has ended, or whose firmware is
not loaded or is halted, does nothing. -/
def runFirmware (bs : List Byte) (s : State) : Out :=
  if s.fwHalted || s.d3hot || s.measurement.isEmpty || (s.gul.lane 0).st == .exited then .next s
  else
    match decode bs with
    | .error _ => .next s.haltFirmware
    | .ok (i, _) =>
      match s.gulRun i with
      | none => .next s.haltFirmware
      | some out =>
        after (fun t =>
          if t.gul.ended || (t.gul.lane 0).st == .parked then s.haltFirmware
          else if t.gul.stalled.isSome then t.schedule (s.now + 1) (.firmware bs)
          else t) out

end Sys2Proof.Machine
end

