-- ==== Sys2Proof/Machine/Step.lean ====
section
/-!
DEFINITION. One step of the package: the next action of `State.plan`, executed.
-/
namespace Sys2Proof.Machine

/-- An action of the agenda or of a unit. -/
def runAct (a : Act) (s : State) : Out :=
  match a with
  | .ev i x => exec i { s with ev := x }
  | .hostReg num idx v => .next (s.hostWrite num idx v)
  | .hostMem pa b => .next (s.hostByte pa b)
  | .firmware bs => runFirmware bs s

/-- A try of a warp. -/
def runTry (w : Nat) (s : State) : Out :=
  match s.tryWarp w with
  | .later t => .next (t.yields w)
  | .run i t => after (State.finish i (s.warp w).stalled (t.pendingOf i)) (exec i t)

/-- A step of the halted device. -/
def haltedStep (s : State) : Out :=
  if s.agenda.isEmpty then .fault .overTemperature
  else
    match s.takeDue with
    | some (a, t) => if a.survives then runAct a t else .next t
    | none => .next { s with now := s.now + 1 }

/-- One step of the package. -/
def step (s : State) : Host.Outcome State Fault Refusal :=
  if s.trip then haltedStep s
  else
    match s.plan with
    | (.act a, t) => runAct a t
    | (.warp w, t) => runTry w t
    | (.tick, t) => .next t.tick

/-! ## A word where the next fetch reads it -/

/-- The vector registers that an instruction reads (none: an indexed one). -/
def readsOf (i : Instr) : List (Option Nat) :=
  match i with
  | .pairedWord p q => (p.shape.map fun sh => sh.vsrcs p.ops).getD [] ++ (q.shape.map fun sh => sh.vsrcs q.ops).getD []
  | i =>
    match shapeOf i, opsOf i with
    | some sh, some o => sh.vsrcs o
    | _, _ => []
/-- The state in which the next step fetches and runs the instruction of a word: one team of one warp, its 64 threads at address 0, its page
in the TLB and its line in the instruction cache of core 0. The vector sources are in the operand queue; an instruction with an indexed one has had
its operand delay (log entry 57). -/
def State.withFetchWord (s : State) (nbits w : Nat) : State :=
  let k : Kernel := { Kernel.idle with hasEntry := true, regs := 256, hi := 255 }
  let reads := match decodeTableWord nbits w with
    | some i => readsOf i
    | none => []
  let x := { Warp.start s.now 0 0 0 0 0 k with
    oq := reads.filterMap fun r => r.map fun n => (n, 0)
    choice := if reads.contains none then (decodeTableWord nbits w).map fun i => (i, BitVec.allOnes 64, 0) else none }
  { s with
    ph := 2
    trip := false
    stage := 4
    warps := [x]
    teams := [{ Team.idle with live := true, holds := true, warps := [0], kern := k }]
    quarters := []
    memops := []
    dbgctl := []
    tlb := [⟨0, 0, false, 0, 0, 0, true, false, false, false, 0⟩]
    icache := [⟨0, 0, BitVec.ofNat 1024 (w % 2 ^ nbits)⟩] }

end Sys2Proof.Machine
end

