-- ==== Sys2Proof/Safety/Effects.lean ====
section
/-!
DEFINITION. The terms in which the statements say what an instruction does to the warp it runs in and what it leaves
unchanged.
-/
namespace Sys2Proof.Machine

/-- The first register of a destination group in a lane (03 R60, R63). -/
def State.dstBase (s : State) (o : Ops) (l : Nat) : Nat :=
  match o.kd with
  | .idx => s.me.idxOf o l o.dst.toNat
  | _ => o.dst.toNat

/-- Register `k` of the warp's own file stands in the destination group of `n` registers in lane `l`; in handler mode the
fields 0-15 of a plain vector destination name the shadow set instead (15 R321). -/
def State.ownDst (s : State) (o : Ops) (n l k : Nat) : Prop :=
  (o.kd = .vec ∧ ¬(s.me.hmode = true ∧ k < 16) ∨ o.kd = .idx) ∧ s.dstBase o l ≤ k ∧ k < s.dstBase o l + n
/-- Register `k` of the shadow set stands in the destination group. -/
def State.shadowDst (s : State) (o : Ops) (n k : Nat) : Prop :=
  o.kd = .vec ∧ s.me.hmode = true ∧ k < 16 ∧ o.dst.toNat ≤ k ∧ k < o.dst.toNat + n

/-- Register `j` of a group whose value is `v` (03 R60). -/
def groupWord (v j : Nat) : Word := BitVec.ofNat 32 (v / 2 ^ (32 * j))

/-- Lane `l` moves on with the warp: it is in `active(w)`, runs, and no fault of it is to come. -/
def State.moves (s : State) (l : Nat) : Prop :=
  s.me.hmode = false ∧ s.act.getLsbD l = true ∧ (s.me.lane l).st = .running ∧ (s.me.lane l).failing = none

/-- The address a lane goes to: its target, or the address that follows (08 R197). -/
def State.goes (s : State) (f : Nat → Option DWord) (l : Nat) : DWord := (f l).getD s.npc

/-- In handler mode, where the warp has one PC, the lanes of `active(w)` agree on it (15 R321). -/
def State.agrees (s : State) (f : Nat → Option DWord) : Prop :=
  s.me.hmode = true → ∀ j < 64, ∀ l < 64, s.act.getLsbD j = true → s.act.getLsbD l = true → s.goes f j = s.goes f l

/-- Where the lanes of a warp stand once an instruction with the targets `f` is over: each lane that moves is at its target or at
the next address, and held if that is its meeting register (02 R28); in handler mode the warp's one PC moves (15 R321). -/
structure PcTo (s t : State) (f : Nat → Option DWord) : Prop where
  moved : ∀ l < 64, s.moves l → (t.me.lane l).pc = s.goes f l
  held : ∀ l < 64, s.moves l → (t.me.lane l).st = if s.goes f l = (s.me.lane l).meet then .held else .running
  still : ∀ l < 64, ¬ s.moves l → (t.me.lane l).pc = (s.me.lane l).pc ∧ (t.me.lane l).st = (s.me.lane l).st
  handler : (s.me.hmode = false → t.me.hpc = s.me.hpc) ∧
    (s.me.hmode = true → ∀ l < 64, s.act.getLsbD l = true → t.me.hpc = s.goes f l) ∧
    (s.me.hmode = true → s.act = 0 → t.me.hpc = s.npc)

/-- What a register instruction does (08 R192, R193): `m` are the lanes that write, `r` their results, `n` the registers of the
destination group, `f` the targets of its lanes, `k` the cycles to the warp's next issue. Everything that is not named keeps its
value. -/
structure RegEffect (s t : State) (o : Ops) (n : Nat) (m : Nat → Bool) (r : Nat → AluOut)
    (f : Nat → Option DWord := fun _ => none) (k : Nat := 1) : Prop where
  own : ∀ l < 64, ∀ k,
    (m l = true ∧ s.ownDst o n l k → getP 0 (t.me.lane l).v k = groupWord (r l).d (k - s.dstBase o l)) ∧
    (¬(m l = true ∧ s.ownDst o n l k) → getP 0 (t.me.lane l).v k = getP 0 (s.me.lane l).v k)
  shadow : ∀ l < 64, ∀ k,
    (m l = true ∧ s.shadowDst o n k → getP 0 (t.me.lane l).shadow k = groupWord (r l).d (k - o.dst.toNat)) ∧
    (¬(m l = true ∧ s.shadowDst o n k) → getP 0 (t.me.lane l).shadow k = getP 0 (s.me.lane l).shadow k)
  scalar : ∀ k,
    (o.kd = .scal ∧ s.act ≠ 0 ∧ o.dst.toNat ≤ k ∧ k < o.dst.toNat + n → t.me.sreg k = groupWord (r 0).d (k - o.dst.toNat)) ∧
    (¬(o.kd = .scal ∧ s.act ≠ 0 ∧ o.dst.toNat ≤ k ∧ k < o.dst.toNat + n) → t.me.sreg k = s.me.sreg k)
  index : ∀ l < 64, ∀ k,
    (m l = true ∧ o.kd = .pred ∧ (r l).dp = none ∧ k = o.dst.toNat - 8 → getP 0 (t.me.lane l).x k = BitVec.ofNat 16 (r l).d) ∧
    (¬(m l = true ∧ o.kd = .pred ∧ (r l).dp = none ∧ k = o.dst.toNat - 8) →
      getP 0 (t.me.lane l).x k = getP 0 (s.me.lane l).x k)
  pred : ∀ l < 64, ∀ k < 8, k ≠ 0 → let w := if o.kd = .scal then s.act.getLsbD l else m l; let q := if o.kd = .scal then r 0 else r l
    ((w = true ∧ o.pd.toNat = k ∧ clash o q = false) → ∀ b, q.pd = some b → (t.me.lane l).pred k = b) ∧
    ((w = true ∧ o.dst.toNat = k ∧ ¬(o.pd.toNat = k ∧ q.pd.isSome = true)) → ∀ b, q.dp = some b → (t.me.lane l).pred k = b) ∧
    (¬(w = true ∧ ((o.pd.toNat = k ∧ q.pd.isSome = true) ∨ (o.dst.toNat = k ∧ q.dp.isSome = true))) →
      (t.me.lane l).pred k = (s.me.lane l).pred k)
  pc : PcTo s t f
  lane : ∀ l < 64, t.me.lane l =
    { s.me.lane l with
      v := (t.me.lane l).v, shadow := (t.me.lane l).shadow, x := (t.me.lane l).x, preds := (t.me.lane l).preds
      pc := (t.me.lane l).pc, st := (t.me.lane l).st }
  queue : ∀ e ∈ t.me.oq, e ∈ s.me.oq
  warp : t.me = { s.me with lanes := t.me.lanes, s := t.me.s, oq := t.me.oq, hpc := t.me.hpc, retryAt := s.now + k }
  warps : ∀ w, w ≠ s.cur → t.warp w = s.warp w
  unit : ∀ q, t.quarter q =
    { s.quarter q with rfcomp := (t.quarter q).rfcomp, unitFree := (t.quarter q).unitFree, fp64Free := (t.quarter q).fp64Free }
  units : ∀ q, q ≠ s.me.unit → t.quarter q = s.quarter q
  rest : t = { s with warps := t.warps, quarters := t.quarters, free := t.free, issued := true }

/-- What an instruction does that changes lanes by `g` and then moves on with the targets `f`, `k` cycles to the next issue: nothing
else changes. -/
structure LaneEffect (s t : State) (g : Nat → Lane → Lane) (f : Nat → Option DWord := fun _ => none) (k : Nat := 1) : Prop where
  lane : ∀ l < 64, t.me.lane l = { g l (s.me.lane l) with pc := (t.me.lane l).pc, st := (t.me.lane l).st }
  pc : PcTo (s.setMe (s.me.mapLanes g)) t f
  queue : ∀ e ∈ t.me.oq, e ∈ s.me.oq
  warp : t.me = { s.me with lanes := t.me.lanes, oq := t.me.oq, hpc := t.me.hpc, retryAt := s.now + k }
  warps : ∀ w, w ≠ s.cur → t.warp w = s.warp w
  rest : t = { s with warps := t.warps, issued := true }

/-- The running instruction may execute: it is a legal word, its registers lie in the allocation (03 R60), it is not privileged
outside handler mode (07 R180) and not barred in it (15 R321). -/
def State.mayRun (s : State) (i : Instr) (sh : Shape) (o : Ops) : Prop :=
  i.wf = true ∧ shapeOf i = some sh ∧ opsOf i = some o ∧ s.me.regsOk sh o = true ∧
    (privileged sh.maj o = true → s.me.hmode = true) ∧ (barred sh.maj = true → s.me.hmode = false)

end Sys2Proof.Machine
end

