-- ==== Sys2Proof/Certificates/Slice0/Obligations.lean ====
section
/-!
DEFINITION. The statements for the provers. Each names the rule of spec/ it formalises; what it says of an instruction is said of
every form the spec gives it, with what the instruction leaves unchanged.
-/
/-! ## Register instructions -/

namespace Sys2Proof.Claims
open Sys2Proof Sys2Proof.Machine

/-- An instruction of the table with what it computes in one lane, by the rule that gives it. -/
abbrev RegRow := (Ops → Instr) × (AluIn → AluOut)

/-- A register instruction does what its rule says: wherever it may run and no indexed operand breaks its bound, it completes; its
results stand in DST (and PD) in the lanes with `pass(l)`, and everything else keeps its value. -/
def RegisterRule (p : RegRow) : Prop :=
  ∀ (o : Ops) (s : State) (sh : Shape), s.mayRun (p.1 o) sh o → s.idxBad sh o = 0 →
    ∃ t, exec (p.1 o) s = .next t ∧ RegEffect s t o sh.dstRegs (s.pass o) fun l => p.2 (s.aluIn sh o l)

/-- The same for an instruction of a function unit of the quarter, where that unit is free (08 R194). -/
def UnitRule (fp64 : Bool) (p : RegRow) : Prop :=
  ∀ (o : Ops) (s : State) (sh : Shape), s.mayRun (p.1 o) sh o → s.idxBad sh o = 0 → s.unitBusy fp64 = false →
    ∃ t, exec (p.1 o) s = .next t ∧ RegEffect s t o sh.dstRegs (s.pass o) fun l => p.2 (s.aluIn sh o l)

/-- The sources as 32-bit and 64-bit patterns. -/
def A (i : AluIn) : BitVec 32 := BitVec.ofNat 32 i.a
def B (i : AluIn) : BitVec 32 := BitVec.ofNat 32 i.b
def C (i : AluIn) : BitVec 32 := BitVec.ofNat 32 i.c
def A64 (i : AluIn) : BitVec 64 := BitVec.ofNat 64 i.a
def B64 (i : AluIn) : BitVec 64 := BitVec.ofNat 64 i.b
/-- A 32-bit result, and one with a value for PD. -/
def put {n : Nat} (d : BitVec n) : AluOut := ⟨d.toNat, none, none⟩
def putFlag {n : Nat} (d : BitVec n) (f : Bool) : AluOut := ⟨d.toNat, none, some f⟩
/-- An exact signed result saturated to `lo` … `hi`, with whether it saturated. -/
def saturate (lo hi x : Int) : AluOut := putFlag (BitVec.ofInt 32 (max lo (min hi x))) (decide (x < lo ∨ hi < x))
/-- SUB 1: unsigned. -/
def nat (i : AluIn) : Bool := i.o.subN == 1

/-- Arithmetic (08 R203). -/
def arithmetic : List RegRow := [
  (.iadd, fun i => putFlag (A i + B i) (decide (2 ^ 32 ≤ i.a + i.b))),
  (.isub, fun i => putFlag (A i - B i) (decide (i.a < i.b))),
  (.ineg, fun i => put (-A i)),
  (.iabs, fun i => put (if (A i).msb then -A i else A i)),
  (.imul, fun i => put (A i * B i)),
  (.imulh, fun i => put ((if nat i then (A i).setWidth 64 * (B i).setWidth 64 else (A i).signExtend 64 * (B i).signExtend 64).extractLsb' 32 32)),
  (.imad, fun i => put (A i * B i + C i)),
  (.iadds, fun i => if nat i then saturate 0 (2 ^ 32 - 1) (i.a + i.b) else saturate (-2 ^ 31) (2 ^ 31 - 1) ((A i).toInt + (B i).toInt)),
  (.isubs, fun i => if nat i then saturate 0 (2 ^ 32 - 1) (i.a - i.b) else saturate (-2 ^ 31) (2 ^ 31 - 1) ((A i).toInt - (B i).toInt)),
  (.imin, fun i => put (if (if nat i then decide (i.b < i.a) else decide ((B i).toInt < (A i).toInt)) then B i else A i)),
  (.imax, fun i => put (if (if nat i then decide (i.a < i.b) else decide ((A i).toInt < (B i).toInt)) then B i else A i)),
  (.isel, fun i => put (if i.lane.pred i.o.subN then A i else B i))]

/-- Logic and shifts (08 R203). -/
def logic : List RegRow := [
  (.andB, fun i => put (A i &&& B i)),
  (.orB, fun i => put (A i ||| B i)),
  (.xorB, fun i => put (A i ^^^ B i)),
  (.notB, fun i => put (~~~A i)),
  (.shl, fun i => put (if i.b < 32 then A i <<< i.b else 0)),
  (.shr, fun i => put (if i.b < 32 then A i >>> i.b else 0)),
  (.sar, fun i => put (if i.b < 32 then (A i).sshiftRight i.b else if (A i).msb then BitVec.allOnes 32 else 0)),
  (.rol, fun i => put ((A i).rotateLeft (i.b % 32))),
  (.ror, fun i => put ((A i).rotateRight (i.b % 32))),
  (.popc, fun i => ⟨(List.range 32).countP i.a.testBit, none, none⟩),
  (.clz, fun i => ⟨(List.range 32).findIdx fun k => i.a.testBit (31 - k), none, none⟩),
  (.brev, fun i => put (A i).reverse)]

/-- *pos* and *len* of a control word (08 R204). -/
def pos (ctl : Nat) : Nat := ctl % 32
def len (ctl : Nat) : Nat := min (ctl / 2 ^ 8 % 64) 32
/-- Bit fields (08 R204). -/
def fields : List RegRow := [
  (.bfx, fun i =>
    let n := 32 - len i.b
    put (if len i.b = 0 then 0 else if i.o.subN = 1 then (((A i).sshiftRight (pos i.b)) <<< n).sshiftRight n else (A i >>> pos i.b) <<< n >>> n)),
  (.bfi, fun i =>
    let m := (BitVec.allOnes 32 >>> (32 - len i.b)) <<< pos i.b
    put ((A i &&& ~~~m) ||| ((C i <<< pos i.b) &&& m)))]

/-- 64-bit, move and address instructions (08 R206). -/
def wideMoves : List RegRow := [
  (.iadd64, fun i => putFlag (A64 i + B64 i) (decide (2 ^ 64 ≤ i.a + i.b))),
  (.imul64, fun i => put (A64 i * B64 i)),
  (.lea, fun i => put (A64 i + ((if i.o.subN / 8 = 1 then (B i).signExtend 64 else (B i).setWidth 64) <<< (i.o.subN % 8)))),
  (.mov, fun i =>
    if i.o.subN = 2 then put (getP 0 i.lane.x i.o.s1.val.toNat) else if i.o.subN = 1 then put (A64 i) else put (A i)),
  (.movi, fun i =>
    match i.o.form with
    | .w128i => if i.o.subN = 1 then put i.o.imm else put (i.o.imm.setWidth 32)
    | .w96i => if i.o.subN = 1 then put ((i.o.imm.setWidth 32).signExtend 64) else put (i.o.imm.setWidth 32)
    | _ => if i.o.subN = 1 then put (i.o.s2.val.signExtend 64) else put (i.o.s2.val.signExtend 32))]

/-- A compare: the condition to DST, its complement to PD (08 R205). -/
def compare (b : Bool) : AluOut := ⟨0, some b, some (!b)⟩
/-- The integer conditions (08 R205). -/
def condition (c : Nat) (x y : Int) : Bool :=
  match c with
  | 0 => decide (x = y)
  | 1 => decide (x ≠ y)
  | 2 => decide (x < y)
  | 3 => decide (x ≤ y)
  | 4 => decide (x > y)
  | _ => decide (x ≥ y)
def compares : List RegRow := [
  (.icmp, fun i => compare (if i.o.subN / 8 = 1 then condition (i.o.subN % 8) i.a i.b else condition (i.o.subN % 8) (A i).toInt (B i).toInt))]

/-- An instruction's word has this major, and its results are ready this many cycles after it issues, in the registers and predicates that
it writes; with no lane passing it has none (07 R179; 08 R194). -/
def Timed (f : Ops → Instr) (maj : Nat) (lat : Nat → Nat) : Prop :=
  ∀ (o : Ops) (s : State) (sh : Shape), (f o).wf = true → shapeOf (f o) = some sh →
    encodeWord (f o) / 4 % 256 = maj ∧
    (s.anyPass o = true → s.pendingOf (f o) = (sh.writeKeys o).map fun k => (shadowKey s.me.hmode k, s.now + lat o.sub.toNat)) ∧
    (s.anyPass o = false → s.pendingOf (f o) = [])
/-- A word whose fetch ends in the illegal-instruction fault (07 R161, step 7). -/
def illegal (w : Nat) : Prop :=
  ∀ (pc : DWord) (r : List Byte), pc.toNat % 32 + formBytes (w % 4) ≤ 32 →
    decodeAt pc (leBytes (formBytes (w % 4)) w ++ r) = .error 0x01
/-- A word of one of the forms that are not paired, with this major. -/
def single (maj w : Nat) : Prop := w % 4 ≠ 3 ∧ w / 4 % 256 = maj
/-- Fields of a word (07 R162, R168). -/
def wDst (w : Nat) : Nat := w / 2 ^ 14 % 256
def wSrc2 (w : Nat) : Nat := w / 2 ^ 30 % 256
def wKd (w : Nat) : Nat := w / 2 ^ 47 % 4
def wK2 (w : Nat) : Nat := w / 2 ^ 51 % 4
def wFtz (w : Nat) : Nat := w / 2 ^ 55 % 2
def wRm (w : Nat) : Nat := w / 2 ^ 56 % 4
def wSub (w : Nat) : Nat := w / 2 ^ 58 % 64
/-- A sub-opcode that is not listed is illegal, in a word and in a slot of a paired word. -/
def SubsListed (maj : Nat) (ok : Nat → Bool) : Prop :=
  (∀ w, single maj w → ok (wSub w) = false → illegal w) ∧
  (∀ p q : Slot, p.maj.toNat = maj → ok p.ops.sub.toNat = false → pairLegal p q = false ∧ pairLegal q p = false)
/-- A major that no slot of a paired word may hold (07 R175). -/
def Unpairable (maj : Nat) : Prop := ∀ p q : Slot, p.maj.toNat = maj → pairLegal p q = false ∧ pairLegal q p = false

/-- The 32-bit integer instructions with their majors, latencies and sub-opcodes (08 R203). -/
def integerWords : List ((Ops → Instr) × Nat × Nat × Nat) := [
  (.iadd, 0x30, 2, 0), (.isub, 0x31, 2, 0), (.ineg, 0x32, 2, 0), (.iabs, 0x33, 2, 0), (.imul, 0x34, 4, 0), (.imulh, 0x35, 4, 1),
  (.imad, 0x36, 4, 0), (.iadds, 0x37, 2, 1), (.isubs, 0x38, 2, 1), (.imin, 0x39, 2, 1), (.imax, 0x3A, 2, 1), (.andB, 0x3B, 2, 0),
  (.orB, 0x3C, 2, 0), (.xorB, 0x3D, 2, 0), (.notB, 0x3E, 2, 0), (.shl, 0x3F, 2, 0), (.shr, 0x40, 2, 0), (.sar, 0x41, 2, 0),
  (.rol, 0x42, 2, 0), (.ror, 0x43, 2, 0), (.popc, 0x46, 2, 0), (.clz, 0x47, 2, 0), (.brev, 0x48, 2, 0), (.isel, 0x4A, 2, 7)]
/-- The FP32 instructions with their majors, latencies and sub-opcodes, and whether they round and take FTZ (08 R207, R208). -/
def floatWords : List ((Ops → Instr) × Nat × Nat × Nat × Bool × Bool) := [
  (.fadd, 0x50, 4, 0, true, true), (.fsub, 0x51, 4, 0, true, true), (.fmul, 0x52, 4, 0, true, true), (.ffma, 0x53, 4, 0, true, true),
  (.fmin, 0x54, 4, 0, false, true), (.fmax, 0x55, 4, 0, false, true), (.fabs, 0x56, 2, 0, false, false), (.fneg, 0x57, 2, 0, false, false),
  (.fcmp, 0x58, 2, 7, false, true), (.fsel, 0x59, 2, 7, false, false), (.fcls, 0x5A, 2, 0, false, true)]

end Sys2Proof.Claims

/-- 08 R203: the 32-bit integer instructions write their results, wrapped or saturated, and their carry, borrow or saturation to PD, in the lanes
with `pass(l)`; their majors, latencies and sub-opcodes are those of the table, and a one-source word has no second source. -/
def Obligations.IntegerInstructions : Prop :=
  (∀ p ∈ Sys2Proof.Claims.arithmetic ++ Sys2Proof.Claims.logic, Sys2Proof.Claims.RegisterRule p) ∧
  (∀ p ∈ Sys2Proof.Claims.integerWords, Sys2Proof.Claims.Timed p.1 p.2.1 (fun _ => p.2.2.1) ∧
    Sys2Proof.Claims.SubsListed p.2.1 fun n => decide (n ≤ p.2.2.2)) ∧
  (∀ maj ∈ [0x32, 0x33, 0x3E, 0x46, 0x47, 0x48], ∀ w, Sys2Proof.Claims.single maj w →
    (Sys2Proof.Claims.wSrc2 w ≠ 0 ∨ Sys2Proof.Claims.wK2 w ≠ 0) → Sys2Proof.Claims.illegal w)

/-- 08 R204: BFX extracts and BFI inserts the bit field that its control word gives, both in 2 cc. -/
def Obligations.BitFields : Prop :=
  (∀ p ∈ Sys2Proof.Claims.fields, Sys2Proof.Claims.RegisterRule p) ∧
  Sys2Proof.Claims.Timed .bfx 0x44 (fun _ => 2) ∧ Sys2Proof.Claims.SubsListed 0x44 (fun n => decide (n ≤ 1)) ∧
  Sys2Proof.Claims.Timed .bfi 0x45 (fun _ => 2) ∧ Sys2Proof.Claims.SubsListed 0x45 (fun n => decide (n = 0))

/-- 08 R205: ICMP writes its condition to a predicate and the complement to PD, 2 cc after issue; a condition above 5, SUB bits 5:4, another
destination kind and a destination above 7 are illegal, and no slot holds it. -/
def Obligations.IntegerCompare : Prop :=
  (∀ p ∈ Sys2Proof.Claims.compares, Sys2Proof.Claims.RegisterRule p) ∧
  Sys2Proof.Claims.Timed .icmp 0x49 (fun _ => 2) ∧ Sys2Proof.Claims.Unpairable 0x49 ∧
  Sys2Proof.Claims.SubsListed 0x49 (fun n => decide (n % 8 ≤ 5 ∧ n < 16)) ∧
  (∀ w, Sys2Proof.Claims.single 0x49 w → (Sys2Proof.Claims.wKd w ≠ 2 ∨ 8 ≤ Sys2Proof.Claims.wDst w) → Sys2Proof.Claims.illegal w)

/-- 08 R206: the 64-bit, move and address instructions. -/
def Sys2Proof.Claims.WideAndMoves : Prop := ∀ p ∈ Sys2Proof.Claims.wideMoves, Sys2Proof.Claims.RegisterRule p

namespace Sys2Proof.Claims
open Sys2Proof Sys2Proof.Machine

/-- A floating-point source: its value, a subnormal read as the zero of its sign under FTZ (04 R83; 08 R207). -/
def val (f : Fmt) (i : AluIn) (x : Nat) : FV := f.decode (f.flush i.o.ftz x)
/-- A result rounded once to a format, with `ftz_out` (04 R82, R83). -/
def rounded (f : Fmt) (i : AluIn) (v : FV) : Nat := f.flush i.o.ftz (f.round i.o.rm v)
def put32 (i : AluIn) (v : FV) : AluOut := ⟨rounded fp32 i v, none, none⟩
def put64 (i : AluIn) (v : FV) : AluOut := ⟨rounded fp64 i v, none, none⟩
/-- minimumNumber and maximumNumber on patterns, −0 below +0; the canonical NaN only where both are NaN (08 R207). -/
def lesser (f : Fmt) (x y : Nat) : Nat :=
  match f.decode x == .nan, f.decode y == .nan with
  | true, true => f.canonNan
  | true, false => y
  | false, true => x
  | false, false => if (f.decode y).below (f.decode x) then y else x
def greater (f : Fmt) (x y : Nat) : Nat :=
  match f.decode x == .nan, f.decode y == .nan with
  | true, true => f.canonNan
  | true, false => y
  | false, true => x
  | false, false => if (f.decode x).below (f.decode y) then y else x
def pick (g : Fmt → Nat → Nat → Nat) (f : Fmt) (i : AluIn) : AluOut :=
  ⟨f.flush i.o.ftz (g f (f.flush i.o.ftz i.a) (f.flush i.o.ftz i.b)), none, none⟩

/-- FP32 arithmetic (08 R207). -/
def float32 : List RegRow := [
  (.fadd, fun i => put32 i ((val fp32 i i.a).add i.o.rm (val fp32 i i.b))),
  (.fsub, fun i => put32 i ((val fp32 i i.a).add i.o.rm (val fp32 i i.b).neg)),
  (.fmul, fun i => put32 i ((val fp32 i i.a).mul (val fp32 i i.b))),
  (.ffma, fun i => put32 i (((val fp32 i i.a).mul (val fp32 i i.b)).add i.o.rm (val fp32 i i.c))),
  (.fmin, pick lesser fp32),
  (.fmax, pick greater fp32),
  (.fabs, fun i => put (A i &&& 0x7FFFFFFF)),
  (.fneg, fun i => put (A i ^^^ 0x80000000)),
  (.fsel, fun i => put (if i.lane.pred i.o.subN then A i else B i))]

/-- The floating-point conditions (08 R208). -/
def floatCondition (c : Nat) (x y : FV) : Bool :=
  let nan := x == .nan || y == .nan
  match c with
  | 0 => !nan && x.eq y
  | 1 => nan || !x.eq y
  | 2 => !nan && x.lt y
  | 3 => !nan && (x.lt y || x.eq y)
  | 4 => !nan && y.lt x
  | 5 => !nan && (y.lt x || y.eq x)
  | 6 => !nan
  | _ => nan
/-- The class of a pattern: signalling and quiet NaN, −∞, −normal, −subnormal, −0, +0, +subnormal, +normal, +∞ (08 R208). -/
def floatClass (f : Fmt) (x : Nat) : Nat :=
  let ex := x / 2 ^ f.mb % 2 ^ f.eb
  let frac := x % 2 ^ f.mb
  let minus := x.testBit (f.eb + f.mb)
  if ex = 2 ^ f.eb - 1 then (if frac = 0 then (if minus then 2 else 9) else if x.testBit (f.mb - 1) then 1 else 0)
  else if ex = 0 then (if frac = 0 then (if minus then 5 else 6) else if minus then 4 else 7)
  else if minus then 3 else 8
def float32Tests : List RegRow := [
  (.fcmp, fun i => compare (floatCondition i.o.subN (val fp32 i i.a) (val fp32 i i.b))),
  (.fcls, fun i => ⟨0, some (i.b.testBit (floatClass fp32 (fp32.flush i.o.ftz i.a))), none⟩)]

/-- Division and square roots, of the special unit (08 R209). -/
def special : List RegRow := [
  (.frcp, fun i => put32 i ((fp32.decode 0x3F800000).div (val fp32 i i.a))),
  (.frsq, fun i => put32 i ((val fp32 i i.a).rsqrt fp32)),
  (.fsqrt, fun i => put32 i ((val fp32 i i.a).sqrt fp32)),
  (.fdiv, fun i => put32 i ((val fp32 i i.a).div (val fp32 i i.b)))]
/-- The transcendental functions (08 R209), each by the model's one correctly rounded evaluation (log entry 34). -/
def transcendental : List RegRow := [
  (.fexp2, fun i => ⟨fp32.flush i.o.ftz (fExp2 i.o.rm (fp32.flush i.o.ftz i.a)), none, none⟩),
  (.flog2, fun i => ⟨fp32.flush i.o.ftz (fLog2 i.o.rm (fp32.flush i.o.ftz i.a)), none, none⟩),
  (.fsin, fun i => ⟨fp32.flush i.o.ftz (fSin i.o.rm (fp32.flush i.o.ftz i.a)), none, none⟩),
  (.fcos, fun i => ⟨fp32.flush i.o.ftz (fCos i.o.rm (fp32.flush i.o.ftz i.a)), none, none⟩),
  (.ftanh, fun i => ⟨fp32.flush i.o.ftz (fTanh i.o.rm (fp32.flush i.o.ftz i.a)), none, none⟩)]

/-- FP64 (08 R210). -/
def float64 : List RegRow := [
  (.dadd, fun i => put64 i ((val fp64 i i.a).add i.o.rm (val fp64 i i.b))),
  (.dsub, fun i => put64 i ((val fp64 i i.a).add i.o.rm (val fp64 i i.b).neg)),
  (.dmul, fun i => put64 i ((val fp64 i i.a).mul (val fp64 i i.b))),
  (.dfma, fun i => put64 i (((val fp64 i i.a).mul (val fp64 i i.b)).add i.o.rm (val fp64 i i.c))),
  (.dmin, pick lesser fp64),
  (.dmax, pick greater fp64),
  (.dcmp, fun i => compare (floatCondition i.o.subN (val fp64 i i.a) (val fp64 i i.b))),
  (.ddiv, fun i => put64 i ((val fp64 i i.a).div (val fp64 i i.b))),
  (.dsqrt, fun i => put64 i ((val fp64 i i.a).sqrt fp64))]

/-- Element `k` of a packed source, and a packed result of two elements (04 R85; 08 R211). -/
def elem (x k : Nat) : Nat := x / 2 ^ (16 * k) % 2 ^ 16
def packedFmt (bf : Bool) : Fmt := if bf then bf16 else fp16
def packed (i : AluIn) (g : Fmt → FV → FV → FV → FV) : AluOut :=
  let f := packedFmt (i.o.subN == 1)
  let e k := rounded f i (g f (val f i (elem i.a k)) (val f i (elem i.b k)) (val f i (elem i.c k)))
  ⟨e 0 + 2 ^ 16 * e 1, none, none⟩
def packedPick (g : Fmt → Nat → Nat → Nat) (i : AluIn) : AluOut :=
  let f := packedFmt (i.o.subN == 1)
  let e k := f.flush i.o.ftz (g f (f.flush i.o.ftz (elem i.a k)) (f.flush i.o.ftz (elem i.b k)))
  ⟨e 0 + 2 ^ 16 * e 1, none, none⟩
def packed16 : List RegRow := [
  (.hadd2, fun i => packed i fun _ a b _ => a.add i.o.rm b),
  (.hmul2, fun i => packed i fun _ a b _ => a.mul b),
  (.hfma2, fun i => packed i fun _ a b c => (a.mul b).add i.o.rm c),
  (.hmin2, packedPick lesser),
  (.hmax2, packedPick greater),
  (.hcmp2, fun i =>
    let f := packedFmt (i.o.subN % 2 == 1)
    let c k := floatCondition (i.o.subN / 2) (val f i (elem i.a k)) (val f i (elem i.b k))
    ⟨0, some (c 0), some (c 1)⟩),
  (.fdot2, fun i =>
    let f := packedFmt (i.o.subN == 1)
    let e x k := val f i (elem x k)
    put32 i (dot2 i.o.rm ((e i.a 0).mul (e i.b 0)) ((e i.a 1).mul (e i.b 1)) (val fp32 i i.c)))]

/-- The float formats of a conversion, and the element of the source (08 R212). -/
def cvtFmt (c : Nat) : Fmt :=
  match c with
  | 0 => fp32
  | 1 => bf16
  | 2 => fp16
  | _ => fp64
def cvtSrc (i : AluIn) : FV :=
  let c := i.o.subN % 4
  val (cvtFmt c) i (if c = 1 ∨ c = 2 then elem i.a (i.o.subN / 4 % 2) else i.a)
/-- Conversions (08 R212). -/
def conversions : List RegRow := [
  (.f2f, fun i => ⟨rounded (cvtFmt (i.o.subN / 8)) i (cvtSrc i), none, none⟩),
  (.f2i, fun i =>
    let v r := if i.o.subN / 8 % 2 = 0 then satS r else satU r
    let n := match i.o.subN / 8 / 2 with
      | 0 => 32
      | 1 => 16
      | _ => 8
    put (BitVec.ofInt 32 (match cvtSrc i with
      | .nan => 0
      | .inf neg => v n (if neg then -2 ^ 200 else 2 ^ 200)
      | .fin _ q => v n (roundInt q i.o.rm)))),
  (.i2f, fun i =>
    let v : Int := if i.o.subN / 4 % 2 = 1 then i.a else if i.o.subN / 8 = 1 then (A64 i).toInt else (A i).toInt
    ⟨(cvtFmt (i.o.subN % 4)).round i.o.rm (.fin (decide (v < 0)) (Q.ofInt v)), none, none⟩),
  (.i2i, fun i =>
    let v : Int := if i.o.subN / 8 = 1 then i.a else (A i).toInt
    let n := match i.o.subN % 8 / 2 with
      | 0 => 16
      | 1 => 8
      | _ => 4
    put (BitVec.ofInt 32 (if i.o.subN % 2 = 0 then satS n v else satU n v)))]

/-- Packing, the narrow elements and quantised elements (08 R213, R214). -/
def narrow : List RegRow := [
  (.ln2f, fun i => ⟨fp32.round .rne (FV.ofQ (lnsDec (i.a / 2 ^ (8 * i.o.subN) % 64))), none, none⟩),
  (.f2ln, fun i => ⟨lnsEnc (val fp32 i i.a), none, none⟩),
  (.pack, fun i =>
    match i.o.subN with
    | 0 => ⟨rounded fp16 i (val fp32 i i.a) + 2 ^ 16 * rounded fp16 i (val fp32 i i.b), none, none⟩
    | 1 => ⟨rounded bf16 i (val fp32 i i.a) + 2 ^ 16 * rounded bf16 i (val fp32 i i.b), none, none⟩
    | 2 => put ((B i).extractLsb' 0 16 ++ (A i).extractLsb' 0 16)
    | 3 => put ((A i <<< 8) ||| (B i &&& 0xFF))
    | _ => put ((A i <<< 4) ||| (B i &&& 0xF))),
  (.unpk, fun i =>
    match i.o.subN with
    | 0 => put (((A i).extractLsb' (8 * (i.b % 4)) 8).signExtend 32)
    | 1 => put (((A i).extractLsb' (8 * (i.b % 4)) 8).setWidth 32)
    | 2 => put (((A i).extractLsb' (4 * (i.b % 8)) 4).signExtend 32)
    | 3 => put (((A i).extractLsb' (4 * (i.b % 8)) 4).setWidth 32)
    | 4 => put (((A i).extractLsb' (16 * (i.b % 2)) 16).signExtend 32)
    | 5 => put (((A i).extractLsb' (16 * (i.b % 2)) 16).setWidth 32)
    | _ => put (((A i).extractLsb' (8 * (i.b % 4)) 6).setWidth 32)),
  (.dqbl, fun i =>
    put32 i ((elemDec (i.o.subN / 4) (packedElem (i.o.subN / 4) i.a (i.o.subN % 4))).scale (scaleExp i.b)))]

end Sys2Proof.Claims

/-- 08 R207, R208: the FP32 instructions round the exact result once, or select, and FCMP and FCLS set predicates; their majors, latencies and
sub-opcodes are those of the tables; FTZ is reserved in FABS, FNEG and FSEL, and RM in every one that does not round. -/
def Obligations.FloatInstructions : Prop :=
  (∀ p ∈ Sys2Proof.Claims.float32 ++ Sys2Proof.Claims.float32Tests, Sys2Proof.Claims.RegisterRule p) ∧
  (∀ p ∈ Sys2Proof.Claims.floatWords, Sys2Proof.Claims.Timed p.1 p.2.1 (fun _ => p.2.2.1) ∧
    Sys2Proof.Claims.SubsListed p.2.1 (fun n => decide (n ≤ p.2.2.2.1)) ∧
    (p.2.2.2.2.1 = false → ∀ w, Sys2Proof.Claims.single p.2.1 w → Sys2Proof.Claims.wRm w ≠ 0 → Sys2Proof.Claims.illegal w) ∧
    (p.2.2.2.2.2 = false → ∀ w, Sys2Proof.Claims.single p.2.1 w → Sys2Proof.Claims.wFtz w ≠ 0 → Sys2Proof.Claims.illegal w)) ∧
  (∀ maj ∈ [0x58, 0x5A], ∀ w, Sys2Proof.Claims.single maj w → (Sys2Proof.Claims.wKd w ≠ 2 ∨ 8 ≤ Sys2Proof.Claims.wDst w) →
    Sys2Proof.Claims.illegal w)

/-- 08 R209: reciprocals, square roots and division round the exact value once, on the special unit. -/
def Sys2Proof.Claims.SpecialUnit : Prop := ∀ p ∈ Sys2Proof.Claims.special, Sys2Proof.Claims.UnitRule false p

/-- 08 R209 with log entry 34: the transcendental functions, on the special unit. -/
def Obligations.Transcendental : Prop := ∀ p ∈ Sys2Proof.Claims.transcendental, Sys2Proof.Claims.UnitRule false p

/-- 08 R210: the FP64 instructions, on the FP64 unit. -/
def Sys2Proof.Claims.Float64 : Prop := ∀ p ∈ Sys2Proof.Claims.float64, Sys2Proof.Claims.UnitRule true p

/-- 08 R211: the packed 16-bit instructions work element by element. -/
def Sys2Proof.Claims.Packed16 : Prop := ∀ p ∈ Sys2Proof.Claims.packed16, Sys2Proof.Claims.RegisterRule p

/-- 08 R212: conversions between float formats and integers. -/
def Sys2Proof.Claims.Conversions : Prop := ∀ p ∈ Sys2Proof.Claims.conversions, Sys2Proof.Claims.RegisterRule p

/-- 08 R213, R214: LNS6 elements, packing, unpacking and quantised elements. -/
def Sys2Proof.Claims.NarrowElements : Prop := ∀ p ∈ Sys2Proof.Claims.narrow, Sys2Proof.Claims.RegisterRule p

/-- 08 R194: an instruction whose function unit is busy has not issued: it is tried again in the next cycle, and every register,
flag and program counter keeps its value. -/
def Sys2Proof.Claims.BusyUnitStalls : Prop :=
  ∀ (fp64 : Bool), ∀ p ∈ (if fp64 then Sys2Proof.Claims.float64 else Sys2Proof.Claims.special ++ Sys2Proof.Claims.transcendental),
  ∀ (o : Sys2Proof.Ops) (s : Sys2Proof.Machine.State) (sh : Sys2Proof.Shape), s.mayRun (p.1 o) sh o → s.unitBusy fp64 = true →
    ∃ t, Sys2Proof.Machine.exec (p.1 o) s = .next t ∧
      t.me = { s.me with retryAt := s.now + 1, stalled := t.me.stalled } ∧
      (∀ w, w ≠ s.cur → t.warp w = s.warp w) ∧ t = { s with warps := t.warps, issued := false }

/-! ## Predicates, lane operations and control -/

namespace Sys2Proof.Claims
open Sys2Proof Sys2Proof.Machine

/-- A predicate register written; `p0` keeps its value (08 R201). -/
def withPred (y : Lane) (k : Nat) (b : Bool) : Lane :=
  if k = 0 then y else { y with preds := if b then y.preds ||| (1#8 <<< k) else y.preds &&& ~~~(1#8 <<< k) }
/-- A predicate operand: bit 7 asks for the complement (08 R201). -/
def operandPred (y : Lane) (v : BitVec 8) : Bool := if v.msb then !y.pred (v.toNat % 8) else y.pred (v.toNat % 8)
/-- The predicate instructions with the value that a lane's PD receives (08 R202). -/
abbrev PredRow := (Ops → Instr) × (State → Ops → Nat → Bool)
def predicates : List PredRow := [
  (.pset, fun s o l => decide (s.src o .i32 o.s1 l ≠ 0)),
  (.pand, fun s o l => operandPred (s.me.lane l) o.s1.val && operandPred (s.me.lane l) o.s2.val),
  (.por, fun s o l => operandPred (s.me.lane l) o.s1.val || operandPred (s.me.lane l) o.s2.val),
  (.pxor, fun s o l => xor (operandPred (s.me.lane l) o.s1.val) (operandPred (s.me.lane l) o.s2.val)),
  (.pnot, fun s o l => !operandPred (s.me.lane l) o.s1.val),
  (.psel, fun s o l =>
    if (s.me.lane l).pred o.aux.toNat then operandPred (s.me.lane l) o.s1.val else operandPred (s.me.lane l) o.s2.val)]

/-- The predicate instructions with their majors (08 R202). -/
def predicateWords : List ((Ops → Instr) × Nat) :=
  [(.pset, 0x11), (.pand, 0x12), (.por, 0x13), (.pxor, 0x14), (.pnot, 0x15), (.pld, 0x16), (.pst, 0x17), (.psel, 0x18)]

/-- A lane operation with its registers, whether a scalar result is written when no lane contributes, and its value in a lane
(08 R216). -/
structure LaneRow where
  instr : Ops → Instr
  n : Nat
  always : Bool
  val : State → Ops → Nat → Nat

/-- A lane contributes (08 R216). -/
def contributes (s : State) (o : Ops) : List Nat := (List.range 64).filter (s.pass o)

/-- A lane operation writes its value in the contributing lanes; a scalar once, when a lane contributes (08 R216). -/
def LaneRule (p : LaneRow) : Prop :=
  ∀ (o : Ops) (s : State) (sh : Shape), s.mayRun (p.instr o) sh o → s.idxBad sh o = 0 →
    ∃ t, exec (p.instr o) s = .next t ∧
      (o.kd = .pred → LaneEffect s t fun l y => if s.pass o l then withPred y o.dst.toNat (decide (p.val s o l ≠ 0)) else y) ∧
      (o.kd ≠ .pred →
        RegEffect s t o (if o.kd = .scal ∧ contributes s o = [] ∧ p.always = false then 0 else p.n) (s.pass o) fun l =>
          ⟨p.val s o l, none, none⟩)

/-- The operations of a reduction on 32-bit values with the identity of each (08 R217). -/
def combine (o : Ops) (x y : Nat) : Nat :=
  let a : BitVec 32 := BitVec.ofNat 32 x
  let b : BitVec 32 := BitVec.ofNat 32 y
  let f := fp32.flush o.ftz
  match o.sub.toNat with
  | 0 => (a + b).toNat
  | 1 => if b.slt a then y else x
  | 2 => if a.slt b then y else x
  | 3 => if b.ult a then y else x
  | 4 => if a.ult b then y else x
  | 5 => (a &&& b).toNat
  | 6 => (a ||| b).toNat
  | 7 => (a ^^^ b).toNat
  | 8 => f (fp32.round o.rm ((fp32.decode (f x)).add o.rm (fp32.decode (f y))))
  | 9 => f (lesser fp32 (f x) (f y))
  | _ => f (greater fp32 (f x) (f y))
def identity (sub : Nat) : Nat :=
  match sub with
  | 0 => 0
  | 1 => 0x7FFFFFFF
  | 2 => 0x80000000
  | 3 => 0xFFFFFFFF
  | 4 => 0
  | 5 => 0xFFFFFFFF
  | 6 => 0
  | 7 => 0
  | 8 => 0x80000000
  | 9 => 0x7F800000
  | _ => 0xFF800000
/-- What a lane enters a reduction with (04 R100), as an operand of the operation's type (07 R164). -/
def enters (s : State) (o : Ops) (l : Nat) : Nat :=
  if s.pass o l then s.src o (if o.sub.toNat < 8 then .i32 else .f32) o.s1 l else identity o.sub.toNat
/-- A prefix as a floating-point scan delivers it: flushed under FTZ, and the canonical NaN for a NaN (04 R83, R84). -/
def delivered (o : Ops) (v : Nat) : Nat :=
  if o.sub.toNat < 8 then v else if fp32.decode v == .nan then fp32.canonNan else fp32.flush o.ftz v
/-- `tree_reduce` and `tree_scan` (04 R100, R101). -/
def butterfly (op : Nat → Nat → Nat) (a : Nat → Nat) : Nat :=
  ([32, 16, 8, 4, 2, 1].foldl (fun a k l => op (a (min l (l ^^^ k))) (a (max l (l ^^^ k)))) a) 0
def prefixes (op : Nat → Nat → Nat) (a : Nat → Nat) : Nat → Nat :=
  [1, 2, 4, 8, 16, 32].foldl (fun a k l => if k ≤ l then op (a (l - k)) (a l) else a l) a
/-- The mask of some lanes. -/
def bits (ls : List Nat) : Nat := (ls.map fun l => 2 ^ l).sum

def reductions : List LaneRow := [
  ⟨.reduce, 1, false, fun s o _ => butterfly (combine o) (enters s o)⟩,
  ⟨.scan, 1, false, fun s o l => delivered o (prefixes (combine o) (enters s o) l)⟩,
  ⟨.scanx, 1, false, fun s o l => if l = 0 then identity o.sub.toNat else delivered o (prefixes (combine o) (enters s o) (l - 1))⟩]

/-- The contributing lanes in which the predicate in AUX is true (08 R218). -/
def yes (s : State) (o : Ops) : List Nat := (contributes s o).filter fun l => (s.me.lane l).pred o.aux.toNat
def agreements : List LaneRow := [
  ⟨.agreeSome, 1, false, fun s o _ => if yes s o = [] then 0 else 1⟩,
  ⟨.agreeEvery, 1, true, fun s o _ => if yes s o = contributes s o then 1 else 0⟩,
  ⟨.agreeMask, 2, false, fun s o _ => bits (yes s o)⟩,
  ⟨.matchL, 2, false, fun s o l =>
    let t : Ty := if o.sub = 0 then .i32 else .i64
    bits ((contributes s o).filter fun j => s.src o t o.s1 j = s.src o t o.s1 l)⟩,
  ⟨.firstL, 1, false, fun s o _ => s.src o .i32 o.s1 ((contributes s o).headD 0)⟩,
  ⟨.popl, 1, false, fun s o _ => (yes s o).length⟩,
  ⟨.rdln, 1, false, fun s o _ => s.src o .i32 o.s1 (s.src2 o .i32 0 % 64)⟩]

/-- Selector `b` of lane `l` in a pattern table, and the byte it gives (03 R72; 08 R220). -/
def selector (tbl : List Byte) (l b : Nat) : BitVec 16 := getP 0 tbl (8 * l + 2 * b + 1) ++ getP 0 tbl (8 * l + 2 * b)
def permuted (tbl : List Byte) (a : Nat → Nat) (l b : Nat) : BitVec 8 :=
  let w := selector tbl l b
  let x : BitVec 8 := (BitVec.ofNat 32 (a (w.extractLsb' 10 6).toNat)).extractLsb' (8 * (w.extractLsb' 0 2).toNat) 8
  match (w.extractLsb' 8 2).toNat with
  | 0 => x
  | 1 => (x.extractLsb' 0 4).signExtend 8
  | 2 => (x.extractLsb' 4 4).signExtend 8
  | _ => 0

/-- The lane-moving instructions that read another lane (08 R219). -/
def laneMoves : List RegRow := [
  (.shfl, fun i => ⟨i.at_ (i.b % 64), none, none⟩),
  (.bcast, fun i => ⟨i.at_ (i.b % 64), none, none⟩),
  (.lmov, fun i =>
    let v := i.o.s2.val
    ⟨i.via ⟨i.o.sub.extractLsb' 0 3, v.extractLsb' 0 6, v.getLsbD 6, if v.getLsbD 7 then 1 else 0, 0⟩, none, none⟩)]
/-- The lane that the modifier of `LMOV` names for a lane; none for a fill (03 R70; 08 R219). -/
def movedFrom (o : Ops) (l : Nat) : Option Nat :=
  let v := o.s2.val
  let k := (v.extractLsb' 0 6).toNat
  match o.sub.toNat with
  | 0 => some l
  | 1 => some k
  | 2 => some ((l + 64 - k) % 64)
  | 3 => if v.getLsbD 6 then (if l + k > 63 then none else some (l + k)) else if l < k then none else some (l - k)
  | 4 => some (l ^^^ k)
  | _ => some (63 - l)
/-- What `LMOV` gives a lane: an indexed source is the register that the lane itself names, in the other lane; a uniform source has no
other lane (03 R63, R70). -/
def moved (s : State) (o : Ops) (l : Nat) : Nat :=
  let read (j : Nat) : Nat :=
    if o.s1.kind = .idx then (getP 0 (s.me.lane j).v ((getP 0 (s.me.lane l).x o.ixn.toNat).toNat + o.s1.val.toNat)).toNat
    else s.src o .i32 o.s1 j
  if o.s1.kind = .scal ∨ o.s1.kind = .imm then s.src o .i32 o.s1 l
  else match movedFrom o l with
  | some j => read j
  | none => if o.s2.val.getLsbD 7 then read l else 0

/-- The target of a branch (08 R196). -/
def target (s : State) (o : Ops) : DWord :=
  if o.form = .w64 then s.ipc + ((o.imm.setWidth 24).signExtend 64 <<< 2) else s.ipc + (o.imm.setWidth 32).signExtend 64
/-- The cycles to the next issue: 4 where a lane's PC is set (08 R200). -/
def branchCycles (s : State) (f : Nat → Option DWord) : Nat :=
  if (List.range 64).any (fun l => s.act.getLsbD l && (f l).isSome) then 4 else 1
/-- The branches with the PC that each lane is set to, if any (08 R197). -/
abbrev BranchRow := (Ops → Instr) × (State → Ops → Nat → Option DWord)
def branches : List BranchRow := [
  (.nop, fun _ _ _ => none),
  (.bra, fun s o l => if s.pass o l then some (target s o) else none),
  (.brx, fun s o l => if s.pass o l then some (BitVec.ofNat 64 (s.src o .i64 o.s1 l)) else none),
  (.ret, fun s o l => if s.pass o l then some (BitVec.ofNat 64 (s.src o .i64 o.s1 l)) else none),
  (.brall, fun s o _ => if (List.range 64).all (fun j => !s.act.getLsbD j || s.pass o j) then some (target s o) else none),
  (.brany, fun s o _ => if (List.range 64).any (fun j => s.pass o j) then some (target s o) else none)]
def callTarget (x : Bool) (s : State) (o : Ops) (l : Nat) : Option DWord :=
  if s.pass o l then some (if x then BitVec.ofNat 64 (s.src o .i64 o.s1 l) else target s o) else none
/-- The index register of `LOOP` after its decrement (08 R197). -/
def counted (s : State) (o : Ops) (l : Nat) : BitVec 16 := getP 0 (s.me.lane l).x (o.dst.toNat - 8) - 1
def loopTarget (s : State) (o : Ops) (l : Nat) : Option DWord :=
  if s.pass o l ∧ counted s o l ≠ 0 then some (target s o) else none
/-- The entry of a jump table that a lane goes to (08 R196, R198). -/
def tableSize (o : Ops) : Nat := (if o.form = .w64 then o.s2.val.toNat else o.s3.val.toNat) + 1
def tableTarget (s : State) (o : Ops) (l : Nat) : Option DWord :=
  if s.pass o l ∧ s.src o .i32 o.s1 l < tableSize o then some (target s o + BitVec.ofNat 64 (8 * s.src o .i32 o.s1 l)) else none

/-- The cycles that a lane asks of `SLEEP` (08 R197). -/
def naps (s : State) (o : Ops) (l : Nat) : Nat := if o.form = .w64 then s.src o .i32 o.s1 l else o.imm.toNat % 2 ^ 32
/-- The register fields of `QFETCH` (03 R66). -/
def fetches (o : Ops) : List Nat :=
  ([0, 1, 2, 3].filter fun k => o.imm.getLsbD (32 + k)).map fun k => (o.imm.extractLsb' (8 * k) 8).toNat
/-- The operand queue after one field of `QFETCH`: eight entries, the oldest released first (03 R66). -/
def enqueue (now : Nat) (q : List (Nat × Nat)) (r : Nat) : List (Nat × Nat) :=
  if r ∈ q.map Prod.fst then q else (if q.length < 8 then q else q.tail) ++ [(r, now + 3)]

end Sys2Proof.Claims

/-- 08 R202: the predicate instructions write one predicate in the lanes with `pass(l)`, a write to `p0` is discarded (R201), PLD loads `p1`-`p7`
from bits 7:1 of its source, and PST stores them with bit 0 set and the helper status in bit 8; each in 2 cc. PB of PNOT, PD of PLD and both
predicate sources of PST must be 0. -/
def Obligations.PredicateInstructions : Prop :=
  (∀ p ∈ Sys2Proof.Claims.predicates, ∀ (o : Sys2Proof.Ops) (s : Sys2Proof.Machine.State) (sh : Sys2Proof.Shape),
    s.mayRun (p.1 o) sh o → ∃ t, Sys2Proof.Machine.exec (p.1 o) s = .next t ∧
      Sys2Proof.Machine.LaneEffect s t fun l y => if s.pass o l then Sys2Proof.Claims.withPred y o.dst.toNat (p.2 s o l) else y) ∧
  (∀ (o : Sys2Proof.Ops) (s : Sys2Proof.Machine.State) (sh : Sys2Proof.Shape),
    (s.mayRun (.pld o) sh o → ∃ t, Sys2Proof.Machine.exec (.pld o) s = .next t ∧
      Sys2Proof.Machine.LaneEffect s t fun l y => if s.pass o l then { y with preds := BitVec.ofNat 8 (s.src o .i32 o.s1 l) &&& 0xFE } else y) ∧
    (s.mayRun (.pst o) sh o → ∃ t, Sys2Proof.Machine.exec (.pst o) s = .next t ∧
      Sys2Proof.Machine.RegEffect s t o 1 (s.pass o) fun l =>
        ⟨((s.me.lane l).preds.toNat ||| 1) + (if (s.me.lane l).helper then 2 ^ 8 else 0), none, none⟩)) ∧
  (∀ p ∈ Sys2Proof.Claims.predicateWords, Sys2Proof.Claims.Timed p.1 p.2 fun _ => 2) ∧
  (∀ w, Sys2Proof.Claims.single 0x15 w → Sys2Proof.Claims.wSrc2 w ≠ 0 → Sys2Proof.Claims.illegal w) ∧
  (∀ w, Sys2Proof.Claims.single 0x16 w → Sys2Proof.Claims.wDst w ≠ 0 → Sys2Proof.Claims.illegal w) ∧
  (∀ w, Sys2Proof.Claims.single 0x17 w → w / 2 ^ 22 % 2 ^ 16 ≠ 0 → Sys2Proof.Claims.illegal w)

/-- 08 R217: REDUCE gives the fixed butterfly of its operation, SCAN and SCANX the fixed prefixes; a lane that does not contribute
enters as the identity. -/
def Sys2Proof.Claims.Reductions : Prop := ∀ p ∈ Sys2Proof.Claims.reductions, Sys2Proof.Claims.LaneRule p

/-- 08 R218, R219: agreement, matching, the first lane, the count and the value of one lane. -/
def Sys2Proof.Claims.Agreement : Prop := ∀ p ∈ Sys2Proof.Claims.agreements, Sys2Proof.Claims.LaneRule p

/-- 08 R219; 03 R70: SHFL, BCAST and LMOV read the source of another lane, whatever its state; LMOV reads it through the modifier in SUB and SRC2. -/
def Sys2Proof.Claims.LaneMoves : Prop :=
  (∀ p ∈ Sys2Proof.Claims.laneMoves, Sys2Proof.Claims.RegisterRule p) ∧
  (∀ (o : Sys2Proof.Ops) (s : Sys2Proof.Machine.State) (sh : Sys2Proof.Shape), s.mayRun (.lmov o) sh o → s.idxBad sh o = 0 →
    ∃ t, Sys2Proof.Machine.exec (.lmov o) s = .next t ∧
      Sys2Proof.Machine.RegEffect s t o 1 (s.pass o) fun l => ⟨Sys2Proof.Claims.moved s o l, none, none⟩)

/-- 08 R219: WRLN writes its value in lane `b` mod 64, and only if that lane contributes. -/
def Sys2Proof.Claims.WriteLane : Prop :=
  ∀ (o : Sys2Proof.Ops) (s : Sys2Proof.Machine.State) (sh : Sys2Proof.Shape), s.mayRun (.wrln o) sh o → s.idxBad sh o = 0 →
    ∃ t, Sys2Proof.Machine.exec (.wrln o) s = .next t ∧
      Sys2Proof.Machine.RegEffect s t o 1 (fun l => s.pass o l && decide (l = s.src2 o .i32 0 % 64)) fun _ =>
        ⟨s.src o .i32 o.s1 0, none, none⟩

/-- 08 R220: PERM gives each byte the byte that its selector names; it waits while an LDPAT of its warp is replacing its table. -/
def Sys2Proof.Claims.Permute : Prop :=
  ∀ (o : Sys2Proof.Ops) (s : Sys2Proof.Machine.State) (sh : Sys2Proof.Shape), s.mayRun (.perm o) sh o → s.idxBad sh o = 0 → s.tried = none →
    ((∀ k ∈ s.memops, ¬(k.live = true ∧ k.warp = s.cur ∧ k.kind = .ldpat o.aux.toNat)) →
      ∃ t, Sys2Proof.Machine.exec (.perm o) s = .next t ∧
        Sys2Proof.Machine.RegEffect s t o 1 (s.pass o) fun l =>
          let b := Sys2Proof.Claims.permuted (s.myTeam.pattern o.aux.toNat) (fun j => s.src o .i32 o.s1 j) l
          ⟨(b 3 ++ b 2 ++ b 1 ++ b 0 : BitVec 32).toNat, none, none⟩) ∧
    ((∃ k ∈ s.memops, k.live = true ∧ k.warp = s.cur ∧ k.kind = .ldpat o.aux.toNat) →
      ∃ t, Sys2Proof.Machine.exec (.perm o) s = .next t ∧ t.issued = false ∧ t.me.retryAt = s.now + 1 ∧ t.me.lanes = s.me.lanes ∧
        t.me.s = s.me.s)

/-- 08 R197, R200: the branches set the PC of their lanes, 4 cc to the next issue; every other lane advances. -/
def Sys2Proof.Claims.Branches : Prop :=
  ∀ p ∈ Sys2Proof.Claims.branches, ∀ (o : Sys2Proof.Ops) (s : Sys2Proof.Machine.State) (sh : Sys2Proof.Shape),
    s.mayRun (p.1 o) sh o → s.idxBad sh o = 0 → s.agrees (p.2 s o) →
    ∃ t, Sys2Proof.Machine.exec (p.1 o) s = .next t ∧
      Sys2Proof.Machine.LaneEffect s t (fun _ y => y) (p.2 s o) (Sys2Proof.Claims.branchCycles s (p.2 s o))

/-- 08 R197: CALL and CALLX save the address that follows in their pair and set the PC. -/
def Sys2Proof.Claims.Calls : Prop :=
  ∀ (x : Bool) (o : Sys2Proof.Ops) (s : Sys2Proof.Machine.State) (sh : Sys2Proof.Shape),
    let i : Sys2Proof.Instr := if x then .callx o else .call o
    s.mayRun i sh o → s.idxBad sh o = 0 → s.agrees (Sys2Proof.Claims.callTarget x s o) →
    ∃ t, Sys2Proof.Machine.exec i s = .next t ∧
      Sys2Proof.Machine.RegEffect s t o 2 (s.pass o) (fun _ => ⟨s.npc.toNat, none, none⟩) (Sys2Proof.Claims.callTarget x s o)
        (Sys2Proof.Claims.branchCycles s (Sys2Proof.Claims.callTarget x s o))

/-- 08 R197, R198: LOOP counts its index register down and branches while it is not zero; JTAB goes to the entry that a lane selects
from an aligned table. -/
def Sys2Proof.Claims.LoopsAndTables : Prop :=
  ∀ (o : Sys2Proof.Ops) (s : Sys2Proof.Machine.State) (sh : Sys2Proof.Shape),
    (s.mayRun (.loop o) sh o → s.agrees (Sys2Proof.Claims.loopTarget s o) → ∃ t, Sys2Proof.Machine.exec (.loop o) s = .next t ∧
      Sys2Proof.Machine.LaneEffect s t (fun l y => if s.pass o l then y.setX (o.dst.toNat - 8) (Sys2Proof.Claims.counted s o l) else y)
        (Sys2Proof.Claims.loopTarget s o) (Sys2Proof.Claims.branchCycles s (Sys2Proof.Claims.loopTarget s o))) ∧
    (s.mayRun (.jtab o) sh o → s.idxBad sh o = 0 → (Sys2Proof.Claims.target s o).toNat % 8 = 0 →
      s.agrees (Sys2Proof.Claims.tableTarget s o) → ∃ t, Sys2Proof.Machine.exec (.jtab o) s = .next t ∧
      Sys2Proof.Machine.LaneEffect s t (fun _ y => y) (Sys2Proof.Claims.tableTarget s o) (Sys2Proof.Claims.branchCycles s (Sys2Proof.Claims.tableTarget s o)))

/-- 08 R198: a JTAB whose target is not a multiple of 8 parks every lane that selects an entry, with class 0x06; the other lanes
advance. -/
def Sys2Proof.Claims.MisalignedTable : Prop :=
  ∀ (o : Sys2Proof.Ops) (s : Sys2Proof.Machine.State) (sh : Sys2Proof.Shape), s.mayRun (.jtab o) sh o → s.idxBad sh o = 0 →
    (Sys2Proof.Claims.target s o).toNat % 8 ≠ 0 → s.me.hmode = false →
    ∃ t, Sys2Proof.Machine.exec (.jtab o) s = .next t ∧ ∀ l < 64,
      ((Sys2Proof.Claims.tableTarget s o l).isSome = true ∧ (s.me.lane l).st = .running → (t.me.lane l).st = .parked ∧
        (t.me.lane l).pc = s.ipc ∧ ∃ r, (t.me.lane l).fault = some r ∧ r.cls = 6 ∧ r.pc = s.ipc) ∧
      ((Sys2Proof.Claims.tableTarget s o l) = none ∧ s.moves l → (t.me.lane l).pc = s.npc) ∧
      (t.me.lane l).v = (s.me.lane l).v

/-- 08 R197, R199: MEET and MEETX set the meeting register, EXIT ends its threads, DEMOTE makes helper lanes. -/
def Sys2Proof.Claims.ThreadState : Prop :=
  ∀ (o : Sys2Proof.Ops) (s : Sys2Proof.Machine.State) (sh : Sys2Proof.Shape),
    (s.mayRun (.meet o) sh o → ∃ t, Sys2Proof.Machine.exec (.meet o) s = .next t ∧
      Sys2Proof.Machine.LaneEffect s t fun l y => if s.pass o l then { y with meet := Sys2Proof.Claims.target s o } else y) ∧
    (s.mayRun (.meetx o) sh o → s.idxBad sh o = 0 → ∃ t, Sys2Proof.Machine.exec (.meetx o) s = .next t ∧
      Sys2Proof.Machine.LaneEffect s t fun l y => if s.pass o l then { y with meet := BitVec.ofNat 64 (s.src o .i64 o.s1 l) } else y) ∧
    (s.mayRun (.exitT o) sh o → ∃ t, Sys2Proof.Machine.exec (.exitT o) s = .next t ∧
      Sys2Proof.Machine.LaneEffect s t fun l y => if s.pass o l then { y with st := .exited } else y) ∧
    (s.mayRun (.demote o) sh o → ∃ t, Sys2Proof.Machine.exec (.demote o) s = .next t ∧
      Sys2Proof.Machine.LaneEffect s t fun l y => if s.pass o l then { y with helper := true } else y)

/-- 08 R197, R200; 02 R53; 07 R179: SLEEP sets the next issue by the largest request, YIELD the greed count to its limit; a word of
the hint space does nothing. -/
def Sys2Proof.Claims.WarpPacing : Prop :=
  ∀ (o : Sys2Proof.Ops) (s : Sys2Proof.Machine.State) (sh : Sys2Proof.Shape),
    (s.mayRun (.sleep o) sh o → s.idxBad sh o = 0 → ∃ t, Sys2Proof.Machine.exec (.sleep o) s = .next t ∧
      Sys2Proof.Machine.LaneEffect s t (fun _ y => y) (fun _ => none)
        (((Sys2Proof.Claims.contributes s o).map (Sys2Proof.Claims.naps s o)).foldl max 1)) ∧
    (s.mayRun (.yield o) sh o → ∃ t, Sys2Proof.Machine.exec (.yield o) s = .next t ∧
      Sys2Proof.Machine.LaneEffect s { t with quarters := s.quarters } (fun _ y => y) ∧
      (∀ q, t.quarter q = if q = s.me.unit ∧ Sys2Proof.Claims.contributes s o ≠ [] then { s.quarter q with greed := 256 } else s.quarter q)) ∧
    (∀ h, s.issued = true → ∃ t, Sys2Proof.Machine.exec (.hintNop h) s = .next t ∧ Sys2Proof.Machine.LaneEffect s t fun _ y => y)

/-- 03 R66: QFETCH allocates queue entries that are usable 3 cc later, each register once, the oldest of eight released first; in
handler mode it does nothing. -/
def Sys2Proof.Claims.OperandQueue : Prop :=
  ∀ (o : Sys2Proof.Ops) (s : Sys2Proof.Machine.State) (sh : Sys2Proof.Shape), s.mayRun (.qfetch o) sh o →
    (s.me.hmode = true ∨ ∀ r ∈ Sys2Proof.Claims.fetches o, r < s.me.nregs) →
    ∃ t, Sys2Proof.Machine.exec (.qfetch o) s = .next t ∧
      t.me.oq = (if s.me.hmode then s.me.oq else (Sys2Proof.Claims.fetches o).foldl (Sys2Proof.Claims.enqueue s.now) s.me.oq) ∧
      Sys2Proof.Machine.LaneEffect s (t.setMe { t.me with oq := s.me.oq }) fun _ y => y

namespace Sys2Proof.Claims
open Sys2Proof Sys2Proof.Machine

/-- Register instructions with their majors and the cycles to their results, by SUB where that decides (08 R206, R209-R214, R217-R220). -/
def moveTimes : List ((Ops → Instr) × Nat × (Nat → Nat)) := [
  (.iadd64, 0x4B, fun _ => 4), (.imul64, 0x4C, fun _ => 8), (.lea, 0x4D, fun _ => 2), (.mov, 0x4E, fun _ => 2), (.movi, 0x4F, fun _ => 2),
  (.hadd2, 0x6D, fun _ => 4), (.hmul2, 0x6E, fun _ => 4), (.hfma2, 0x6F, fun _ => 4), (.hmin2, 0x70, fun _ => 4), (.hmax2, 0x71, fun _ => 4),
  (.hcmp2, 0x72, fun _ => 2), (.fdot2, 0x73, fun _ => 4), (.f2f, 0x74, fun _ => 4), (.f2i, 0x75, fun _ => 4), (.i2f, 0x76, fun _ => 4),
  (.i2i, 0x77, fun _ => 2), (.ln2f, 0x78, fun _ => 2), (.f2ln, 0x79, fun _ => 4), (.pack, 0x7A, fun n => if n ≤ 1 then 4 else 2),
  (.unpk, 0x7B, fun _ => 2), (.qblk, 0x7C, fun _ => 12), (.dqbl, 0x7D, fun _ => 4)]
def unitTimes : List ((Ops → Instr) × Nat × (Nat → Nat)) := [
  (.frcp, 0x5B, fun _ => 16), (.frsq, 0x5C, fun _ => 16), (.fsqrt, 0x5D, fun _ => 16), (.fdiv, 0x5E, fun _ => 20), (.fexp2, 0x5F, fun _ => 16),
  (.flog2, 0x60, fun _ => 16), (.fsin, 0x61, fun _ => 20), (.fcos, 0x62, fun _ => 20), (.ftanh, 0x63, fun _ => 20), (.dadd, 0x64, fun _ => 20),
  (.dsub, 0x65, fun _ => 20), (.dmul, 0x66, fun _ => 20), (.dfma, 0x67, fun _ => 20), (.dmin, 0x68, fun _ => 20), (.dmax, 0x69, fun _ => 20),
  (.dcmp, 0x6A, fun _ => 20), (.ddiv, 0x6B, fun _ => 72), (.dsqrt, 0x6C, fun _ => 72)]
def laneTimes : List ((Ops → Instr) × Nat × (Nat → Nat)) := [
  (.perm, 0x20, fun _ => 6), (.reduce, 0x22, fun n => if n ≤ 7 then 14 else 28), (.scan, 0x23, fun n => if n ≤ 7 then 14 else 28),
  (.scanx, 0x24, fun n => if n ≤ 7 then 14 else 28), (.agreeSome, 0x25, fun _ => 6),
  (.agreeMask, 0x25, fun _ => 6), (.matchL, 0x26, fun _ => 6), (.shfl, 0x27, fun _ => 4), (.bcast, 0x28, fun _ => 4), (.firstL, 0x29, fun _ => 6),
  (.popl, 0x2A, fun _ => 6), (.rdln, 0x2B, fun _ => 4), (.wrln, 0x2C, fun _ => 4), (.lmov, 0x2D, fun _ => 2)]
def MoveTimes : Prop := ∀ p ∈ moveTimes, Timed p.1 p.2.1 p.2.2
def UnitTimes : Prop := ∀ p ∈ unitTimes, Timed p.1 p.2.1 p.2.2
/-- `AGREE.every` writes a scalar even where no lane contributes (08 R218), and its result is pending then too. -/
def LaneTimes : Prop :=
  (∀ p ∈ laneTimes, Timed p.1 p.2.1 p.2.2) ∧
  ∀ (o : Ops) (s : State) (sh : Shape), (Instr.agreeEvery o).wf = true → shapeOf (.agreeEvery o) = some sh →
    encodeWord (.agreeEvery o) / 4 % 256 = 0x25 ∧
    (s.anyPass o = true ∨ o.kd = .scal ∧ s.act ≠ 0 →
      s.pendingOf (.agreeEvery o) = (sh.writeKeys o).map fun k => (shadowKey s.me.hmode k, s.now + 6)) ∧
    (s.anyPass o = false → (o.kd ≠ .scal ∨ s.act = 0) → s.pendingOf (.agreeEvery o) = [])

end Sys2Proof.Claims

/-! ## Index bounds, marks, compression, paired words -/

namespace Sys2Proof.Claims
open Sys2Proof Sys2Proof.Machine

/-- The register instructions that use no function unit. -/
def plainRows : List RegRow :=
  arithmetic ++ logic ++ fields ++ wideMoves ++ compares ++ float32 ++ float32Tests ++ packed16 ++ conversions ++ narrow ++ laneMoves

/-- An indexed operand of `n` registers at register `e` breaks its bound outside handler mode (03 R63). -/
def outside (x : Warp) (e n : Nat) : Prop := ¬(e % n = 0 ∧ x.lo ≤ e ∧ e + n ≤ x.hi + 1)
/-- A lane names register `e` through an indexed operand that breaks its bound. -/
def breaks (s : State) (sh : Shape) (o : Ops) (l e : Nat) : Prop :=
  s.pass o l = true ∧ ∃ p ∈ sh.spans o, p.1.kind = .idx ∧ p.2 ≠ 0 ∧
    e = (getP 0 (s.me.lane l).x o.ixn.toNat).toNat + p.1.val.toNat ∧ outside s.me e p.2

/-- The registers that are read under a last-read mark (03 R67; 07 R164): those of a vector field, and those that the lanes of `active(w)`
name through an indexed one. -/
def marked (s : State) (sh : Shape) (o : Ops) (r : Nat) : Prop :=
  ∃ p ∈ (sh.spans o).tail, p.1.lr = true ∧
    (p.1.kind = .vec ∧ p.1.val.toNat ≤ r ∧ r < p.1.val.toNat + p.2 ∨
     p.1.kind = .idx ∧ ∃ l < 64, s.act.getLsbD l = true ∧ ∃ e, e = (getP 0 (s.me.lane l).x o.ixn.toNat).toNat + p.1.val.toNat ∧ e ≤ r ∧ r < e + p.2)

/-- Every lane's value lies within a signed `n`-bit delta of lane 0's (05 R126). -/
def near (ws : Nat → Word) (n : Nat) : Prop := ∀ l < 64, -2 ^ (n - 1) ≤ (ws l - ws 0).toInt ∧ (ws l - ws 0).toInt < 2 ^ (n - 1)
/-- The 64 values of a register take fewer than 8 sectors: one base and deltas of at most 16 bits (03 R68; 05 R126). -/
def compressed (ws : Nat → Word) : Prop := (∀ l < 64, ws l = ws 0) ∨ near ws 4 ∨ near ws 8 ∨ near ws 16

/-- A row of the table is what a slot runs (07 R175). -/
def runsIn (p : Slot) (r : RegRow) (sh : Shape) : Prop := p.shape = some sh ∧ shapeOf (r.1 p.ops) = some sh

end Sys2Proof.Claims

/-- 03 R63; 08 R195: a lane whose indexed operand breaks its bound parks with class 0x07 and writes nothing, whatever the other lanes
do: they write their results. -/
def Sys2Proof.Claims.IndexBound : Prop :=
  ∀ p ∈ Sys2Proof.Claims.plainRows, ∀ (o : Sys2Proof.Ops) (s : Sys2Proof.Machine.State) (sh : Sys2Proof.Shape),
    s.mayRun (p.1 o) sh o → s.me.hmode = false → ∃ t, Sys2Proof.Machine.exec (p.1 o) s = .next t ∧ ∀ l < 64,
      (∀ e, Sys2Proof.Claims.breaks s sh o l e → (s.me.lane l).st = .running → (t.me.lane l).st = .parked ∧ (t.me.lane l).pc = s.ipc ∧
        (t.me.lane l).v = (s.me.lane l).v ∧ (t.me.lane l).preds = (s.me.lane l).preds ∧ (t.me.lane l).x = (s.me.lane l).x ∧
        ∃ r e', (t.me.lane l).fault = some r ∧ r.cls = 7 ∧ r.pc = s.ipc ∧ Sys2Proof.Claims.breaks s sh o l e' ∧
          r.info = (BitVec.ofNat 16 e').setWidth 32) ∧
      ((∀ e, ¬Sys2Proof.Claims.breaks s sh o l e) → s.pass o l = true → ∀ k, s.ownDst o sh.dstRegs l k →
        Sys2Proof.getP 0 (t.me.lane l).v k =
          Sys2Proof.Machine.groupWord (p.2 (s.aluIn sh o l)).d (k - s.dstBase o l))

/-- 03 R67: a last-read mark releases the queue entry of its register when the instruction issues, and no other entry. -/
def Sys2Proof.Claims.LastRead : Prop :=
  ∀ p ∈ Sys2Proof.Claims.plainRows, ∀ (o : Sys2Proof.Ops) (s : Sys2Proof.Machine.State) (sh : Sys2Proof.Shape),
    s.mayRun (p.1 o) sh o → s.me.hmode = false → ∃ t, Sys2Proof.Machine.exec (p.1 o) s = .next t ∧
      ∀ e, e ∈ t.me.oq ↔ e ∈ s.me.oq ∧ ¬Sys2Proof.Claims.marked s sh o e.1

/-- 03 R68: RFCOMP counts each register that a vector result is written to and that is stored in fewer than 8 sectors, modulo 2^32. -/
def Sys2Proof.Claims.CompressedWrites : Prop :=
  ∀ p ∈ Sys2Proof.Claims.plainRows, ∀ (o : Sys2Proof.Ops) (s : Sys2Proof.Machine.State) (sh : Sys2Proof.Shape),
    s.mayRun (p.1 o) sh o → s.idxBad sh o = 0 → s.me.hmode = false → o.kd = .vec → sh.dstRegs = 1 →
    (∃ l < 64, s.pass o l = true) → ∃ t, Sys2Proof.Machine.exec (p.1 o) s = .next t ∧
      (Sys2Proof.Claims.compressed (fun l => Sys2Proof.getP 0 (t.me.lane l).v o.dst.toNat) →
        (t.quarter s.me.unit).rfcomp = (s.quarter s.me.unit).rfcomp + 1) ∧
      (¬Sys2Proof.Claims.compressed (fun l => Sys2Proof.getP 0 (t.me.lane l).v o.dst.toNat) →
        (t.quarter s.me.unit).rfcomp = (s.quarter s.me.unit).rfcomp)

/-- 07 R176: a paired word issues both slots at once; each reads its sources before either writes, and each writes its own
destination in the lanes in which its own predicate passes. -/
def Obligations.PairedWords : Prop :=
  ∀ (p q : Sys2Proof.Slot) (a b : Sys2Proof.Claims.RegRow) (x y : Sys2Proof.Shape) (s : Sys2Proof.Machine.State),
    a ∈ Sys2Proof.Claims.plainRows → b ∈ Sys2Proof.Claims.plainRows → Sys2Proof.Claims.runsIn p a x → Sys2Proof.Claims.runsIn q b y →
    (Sys2Proof.Instr.pairedWord p q).wf = true → s.me.regsOk x p.ops = true → s.me.regsOk y q.ops = true → s.issued = true →
    ∃ t, Sys2Proof.Machine.exec (.pairedWord p q) s = .next t ∧
      (∀ l < 64, ∀ k,
        (s.pass p.ops l = true ∧ s.ownDst p.ops x.dstRegs l k → Sys2Proof.getP 0 (t.me.lane l).v k =
          Sys2Proof.Machine.groupWord (a.2 (s.aluIn x p.ops l)).d (k - p.ops.dst.toNat)) ∧
        (s.pass q.ops l = true ∧ s.ownDst q.ops y.dstRegs l k → Sys2Proof.getP 0 (t.me.lane l).v k =
          Sys2Proof.Machine.groupWord (b.2 (s.aluIn y q.ops l)).d (k - q.ops.dst.toNat)) ∧
        (s.pass p.ops l = true ∧ s.shadowDst p.ops x.dstRegs k → Sys2Proof.getP 0 (t.me.lane l).shadow k =
          Sys2Proof.Machine.groupWord (a.2 (s.aluIn x p.ops l)).d (k - p.ops.dst.toNat)) ∧
        (s.pass q.ops l = true ∧ s.shadowDst q.ops y.dstRegs k → Sys2Proof.getP 0 (t.me.lane l).shadow k =
          Sys2Proof.Machine.groupWord (b.2 (s.aluIn y q.ops l)).d (k - q.ops.dst.toNat)) ∧
        (¬(s.pass p.ops l = true ∧ s.ownDst p.ops x.dstRegs l k) ∧ ¬(s.pass q.ops l = true ∧ s.ownDst q.ops y.dstRegs l k) →
          Sys2Proof.getP 0 (t.me.lane l).v k = Sys2Proof.getP 0 (s.me.lane l).v k) ∧
        (¬(s.pass p.ops l = true ∧ s.shadowDst p.ops x.dstRegs k) ∧ ¬(s.pass q.ops l = true ∧ s.shadowDst q.ops y.dstRegs k) →
          Sys2Proof.getP 0 (t.me.lane l).shadow k = Sys2Proof.getP 0 (s.me.lane l).shadow k)) ∧
      (∀ l < 64, t.me.lane l = { s.me.lane l with
        v := (t.me.lane l).v, shadow := (t.me.lane l).shadow, preds := (t.me.lane l).preds, pc := (t.me.lane l).pc
        st := (t.me.lane l).st }) ∧
      (∀ l < 64, ∀ k, (t.me.lane l).pred k = (s.me.lane l).pred k) ∧
      Sys2Proof.Machine.PcTo s t (fun _ => none) ∧
      t.me = { s.me with lanes := t.me.lanes, oq := t.me.oq, hpc := t.me.hpc, retryAt := s.now + 1 } ∧
      (∀ w, w ≠ s.cur → t.warp w = s.warp w) ∧
      t = { s with warps := t.warps, quarters := t.quarters }

/-! ## Memory: issue -/

namespace Sys2Proof.Claims
open Sys2Proof Sys2Proof.Machine

/-- The leaf that the core's TLB holds for an address: the only entry that covers it (16 R343). -/
def mapsTo (s : State) (va : Nat) (e : TlbEnt) : Prop :=
  e ∈ s.tlb ∧ e.unit = s.me.core ∧ e.covers s.myTeam.asid va = true ∧
    ∀ e' ∈ s.tlb, e'.unit = s.me.core → e'.covers s.myTeam.asid va = true → e' = e
/-- The attributes of a leaf that an access keeps (16 R340, R347). -/
def attrOf (e : TlbEnt) : PageAttr := ⟨e.glob, e.size, e.coh⟩
/-- An access that passes every check of its page (09 R222). -/
def granted (s : State) (need : Need) (leaf : Nat → TlbEnt) (a : Acc) : Prop :=
  canonical a.va = true ∧ mapsTo s a.va (leaf a.va) ∧
    s.checkAcc (s.partOf s.cur) need a.va ⟨0, some (leaf a.va), 0⟩ =
      .ok ((leaf a.va).phys a.va) (leaf a.va).slr (leaf a.va).cmp (attrOf (leaf a.va))
/-- An access with its physical address. -/
def located (leaf : Nat → TlbEnt) (a : Acc) : Acc :=
  { a with pa := (leaf a.va).phys a.va, slr := (leaf a.va).slr, cmp := (leaf a.va).cmp, page := some (attrOf (leaf a.va)) }

/-- What the issue of a memory instruction does to its warp and the machine: it moves on, its counter rises by one (07 R178), and no
register, predicate, scratch byte or byte of memory changes. Where the instruction holds its lanes until its outcome is known (log entry
37), they issue nothing. -/
structure Issues (s t : State) (c : Ctr) (hold : Bool) : Prop where
  lane : ∀ l < 64, t.me.lane l = { s.me.lane l with
    pc := (t.me.lane l).pc, st := (t.me.lane l).st
    failing := if hold = true ∧ s.me.hmode = false ∧ s.act.getLsbD l = true ∧ (t.me.lane l).st = .running ∧ (s.me.lane l).failing = none
      then some (2 ^ 64, mkFault 0 s.ipc) else (s.me.lane l).failing }
  pc : PcTo s t fun _ => none
  queue : ∀ e ∈ t.me.oq, e ∈ s.me.oq
  warp : t.me = { s.me.onCtr c (· + 1) with lanes := t.me.lanes, oq := t.me.oq, hpc := t.me.hpc, retryAt := s.now + 1 }
  warps : ∀ w, w ≠ s.cur → t.warp w = s.warp w
  memory : ∀ a, t.peekByte a = s.peekByte a
  rest : t = { s with
    warps := t.warps, memops := t.memops, reqs := t.reqs, agenda := t.agenda, tlb := t.tlb, l1 := t.l1, seq := t.seq, queues := t.queues
    buckets := t.buckets, lastCharge := t.lastCharge, issued := true }

/-- The distinct lines of some accesses, by virtual address. -/
def virtualLines (accs : List Acc) : List Nat := ((accs.map fun a => lineOf a.va).eraseDups)
/-- A line request is on its way: it waits at its port, or its next event is due. -/
def underway (t : State) (j now : Nat) : Prop :=
  (t.req j).port = true ∨ ∃ d ∈ t.agenda, now ≤ d.at_ ∧
    (d.act = .ev .requestArrival ⟨j, 0, 0, 0, []⟩ ∨ d.act = .ev .loadReply ⟨j, 0, 0, 0, []⟩ ∨
      d.act = .ev .refusedRequestResend ⟨j, 0, 0, 0, []⟩)

/-- The operation of a memory instruction stands recorded with one request for each distinct line (09 R227). -/
def Sends (s t : State) (m : MemOp) (accs : List Acc) : Prop :=
  ∃ i, (s.memop i).live = false ∧
    t.memop i = { m with
      live := true, warp := s.cur, core := s.me.core, accs := accs, buf := (t.memop i).buf, left := (virtualLines accs).length, seq := s.seq } ∧
    (∀ j, j ≠ i → t.memop j = s.memop j) ∧
    (∀ vl ∈ virtualLines accs, ∃ j, (t.req j).live = true ∧ (s.req j).live = false ∧ (t.req j).op = i ∧ (t.req j).core = s.me.core ∧
      (t.req j).accs = ((List.range accs.length).filter fun k => lineOf (getP Acc.none_ accs k).va = vl) ∧ underway t j s.now ∧
      ∃ a ∈ accs, lineOf a.va = vl ∧ (t.req j).line = lineOf a.pa) ∧
    (∀ j, (s.req j).live = true → t.req j = { s.req j with captured := (t.req j).captured })

/-- A memory instruction: where this row applies, the operation it records, the lanes that access memory, the accesses of a lane,
what they ask of their pages, and the alignment and bounds that its lanes must meet. -/
structure AccessRow where
  instr : Ops → Instr
  form : Ops → Prop
  op : State → Shape → Ops → MemOp
  lanes : State → Shape → Ops → List Nat
  accs : State → Ops → Nat → List Acc
  hold : Bool := false
  need : State → Ops → Need
  ready : State → Ops → Nat → Prop

/-- A memory instruction whose lanes pass their checks issues: every lane's accesses go out as line requests, counted on its
counter (07 R178; 09 R222-R227). Where no lane takes part, it only moves on. -/
def AccessRule (p : AccessRow) : Prop :=
  ∀ (o : Ops) (s : State) (sh : Shape) (leaf : Nat → TlbEnt), p.form o → s.mayRun (p.instr o) sh o → s.idxBad sh o = 0 → s.act ≠ 0 →
    s.noRoom (p.op s sh o).ctr = false → (∀ l ∈ p.lanes s sh o, p.ready s o l) →
    let accs := (p.lanes s sh o).flatMap (p.accs s o)
    (∀ a ∈ accs, granted s (p.need s o) leaf a) →
    ∃ t, exec (p.instr o) s = .next t ∧
      (p.lanes s sh o = [] → LaneEffect s t fun _ y => y) ∧
      (p.lanes s sh o ≠ [] → Issues s t (p.op s sh o).ctr p.hold ∧
        Sends s t { p.op s sh o with uni := (p.need s o).uni, handler := s.me.hmode } (accs.map (located leaf)))

/-- The lanes of a vector load, and of a store, in which no helper takes part (08 R199). -/
def loadLanes (s : State) (_sh : Shape) (o : Ops) : List Nat := contributes s o
def storeLanes (s : State) (_sh : Shape) (o : Ops) : List Nat := (contributes s o).filter fun l => !(s.me.lane l).helper
/-- The one access of a warp-uniform load (09 R222, R224). -/
def oneLane (s : State) (_sh : Shape) (_o : Ops) : List Nat := [s.firstLane]

/-- Bytes and registers of SIZE (09 R225). -/
def bytesOf (o : Ops) : Nat := [1, 1, 2, 2, 4, 8, 16].getD (o.sub.toNat % 8) 16
def regsOf (o : Ops) : Nat := [1, 1, 1, 1, 1, 2, 4].getD (o.sub.toNat % 8) 4
/-- A load is signed; a scoped one goes around the L1 (09 R225; 06 R137). -/
def signedLoad (o : Ops) : Bool := o.sub.toNat % 8 == 1 || o.sub.toNat % 8 == 3
def scopedLoad (o : Ops) : Bool := o.sub.getLsbD 3 && decide (1 ≤ o.aux.toNat)

def loadOp (s : State) (kind : OpKind) (bypass : Bool) (dsts : List Nat) : MemOp :=
  { MemOp.idle with ctr := .ld, kind := kind, req := .load, bypass := bypass, pc := s.ipc, dsts := dsts }
def storeOp (s : State) (kind : OpKind) (last : Bool) : MemOp :=
  { MemOp.idle with ctr := .st, kind := kind, req := .store, pc := s.ipc, lastUse := last }
def page (write : Bool) (n : Nat) : Need := ⟨write, false, false, false, none, n, false, []⟩
/-- The registers a load will write, for the lanes that take part. -/
def keys (s : State) (sh : Shape) (o : Ops) (n : Nat) : List Nat := s.ldKeys o n (s.memLanes sh o false)

/-- Loads of a vector of lanes: global, slice memory, stack (09 R226, R228). -/
def vectorLoad (slr : Bool) (i : Ops → Instr) : AccessRow where
  instr := i
  form o := o.kd ≠ .scal
  op s sh o := loadOp s (.load (signedLoad o) false) (slr || scopedLoad o) (keys s sh o (regsOf o))
  lanes := loadLanes
  accs s o l := [⟨l, s.gAddr o l, 0, bytesOf o, 0, s.ldReg o l, false, false, none⟩]
  need _ o := { page false (bytesOf o) with slr := slr }
  ready s o l := s.gAddr o l % bytesOf o = 0
def scalarLoad (slr : Bool) (i : Ops → Instr) : AccessRow where
  instr := i
  form o := o.kd = .scal
  op s _ o := loadOp s (.load (signedLoad o) true) (slr || scopedLoad o) (s.ldKeys o (regsOf o) 0)
  lanes := oneLane
  accs s o l := [⟨l, s.gAddr o 0, 0, bytesOf o, 0, o.dst.toNat, false, false, none⟩]
  need s o := { page false (bytesOf o) with slr := slr, uni := some s.act }
  ready s o _ := s.gAddr o 0 % bytesOf o = 0
def vectorStore (slr last : Bool) (i : Ops → Instr) : AccessRow where
  instr := i
  form _ := True
  op s _ _ := storeOp s .store last
  lanes := storeLanes
  accs s o l := [⟨l, s.gAddr o l, 0, bytesOf o, s.stData o (regsOf o) l, 0, false, false, none⟩]
  need _ o := { page true (bytesOf o) with slr := slr }
  ready s o l := s.gAddr o l % bytesOf o = 0

/-- The parts of a stack access: words 256 bytes apart (09 R228; 06 R143). -/
def stackAccs (s : State) (l off n : Nat) (data : BitVec 256) (reg : Nat) : List Acc :=
  (List.range ((n + 3) / 4)).map fun k => ⟨l, s.stackAddr l (off + 4 * k), 0, min n 4, data >>> (32 * k), reg, false, false, none⟩
def onStack (s : State) (o : Ops) (l : Nat) : Prop := s.sAddr o l % bytesOf o = 0 ∧ s.sAddr o l + bytesOf o ≤ s.myTeam.sz
def stackLoad : AccessRow where
  instr := .skld
  form o := o.kd ≠ .scal
  op s sh o := loadOp s (.load (signedLoad o) false) (scopedLoad o) (keys s sh o (regsOf o))
  lanes := loadLanes
  accs s o l := stackAccs s l (s.sAddr o l) (bytesOf o) 0 (s.ldReg o l)
  need _ o := page false (bytesOf o)
  ready := onStack
def stackScalar : AccessRow where
  instr := .skld
  form o := o.kd = .scal
  op s _ o := loadOp s (.load (signedLoad o) true) (scopedLoad o) (s.ldKeys o (regsOf o) 0)
  lanes := oneLane
  accs s o l := stackAccs s l (s.sAddr o l) (bytesOf o) 0 o.dst.toNat
  need s o := { page false (bytesOf o) with uni := some s.act }
  ready := onStack
def stackStore : AccessRow where
  instr := .skst
  form _ := True
  op s _ _ := storeOp s .store false
  lanes := storeLanes
  accs s o l := stackAccs s l (s.sAddr o l) (bytesOf o) (s.stData o (regsOf o) l) 0
  need _ o := page true (bytesOf o)
  ready := onStack

/-- The warp-uniform load (09 R229). -/
def uniformLoad : AccessRow where
  instr := .cld
  form o := o.kd ≠ .idx
  op s _ o :=
    loadOp s (.cld (signedLoad o) (o.kd == .scal) (if o.kd = .scal then s.act else s.passMask o)) (scopedLoad o)
      (s.ldKeys o (regsOf o) (if o.kd = .scal then s.act else s.passMask o))
  lanes s sh o := if contributes s o = [] then [] else oneLane s sh o
  accs s o l := [⟨l, s.gAddr o 0, 0, bytesOf o, 0, s.ldReg o 0, false, false, none⟩]
  need s o := { page false (bytesOf o) with uni := some s.act }
  ready s o _ := s.gAddr o 0 % bytesOf o = 0
def uniformIndexed : AccessRow where
  instr := .cld
  form o := o.kd = .idx
  op s sh o := loadOp s (.load (signedLoad o) false) (scopedLoad o) (keys s sh o (regsOf o))
  lanes := loadLanes
  accs s o l := [⟨l, s.gAddr o 0, 0, bytesOf o, 0, s.ldReg o l, false, false, none⟩]
  need s o := { page false (bytesOf o) with uni := some s.act }
  ready s o _ := s.gAddr o 0 % bytesOf o = 0

/-- Prefetches (09 R229): a line of each lane, on no counter. -/
def prefetches (l1 : Bool) (i : Ops → Instr) : AccessRow where
  instr := i
  form _ := True
  op s _ _ := { loadOp s (.prefetch l1) (!l1) [] with ctr := .none }
  lanes := loadLanes
  accs s o l := [⟨l, lineOf (s.gAddr o l), 0, 1, 0, 0, false, false, none⟩]
  need _ _ := { page false 1 with quiet := true }
  ready _ _ _ := True

/-- Tiles of 16-bit or 32-bit elements (09 R230). -/
def elemBytes (o : Ops) : Nat := if o.sub = 0 then 4 else 2
def tileAddr (s : State) (o : Ops) (l j : Nat) : Nat :=
  (s.tileBase o + tensorOff o.aux.toNat (2 * elemBytes o) (s.tileLd o) (l / 4) (4 * (l % 4) + j)) % 2 ^ 64
def tileReady (s : State) (o : Ops) (_ : Nat) : Prop := tensorOk o.aux.toNat (2 * elemBytes o) (s.tileLd o) (s.tileBase o) = true
def tileLoad : AccessRow where
  instr := .tld
  form _ := True
  op s _ o := loadOp s (if o.sub = 0 then .load false false else .tld16) false (s.ldKeys o (elemBytes o) (s.passMask o))
  lanes := loadLanes
  accs s o l := (List.range 4).map fun j =>
    let r := s.ldReg o l
    ⟨l, tileAddr s o l j, 0, elemBytes o, 0, if o.sub = 0 then r + j else 2 * r + j, false, false, none⟩
  need _ o := page false (elemBytes o)
  ready := tileReady
def tileStore : AccessRow where
  instr := .tst
  form _ := True
  op s _ _ := storeOp s .store false
  lanes := storeLanes
  accs s o l := (List.range 4).map fun j =>
    ⟨l, tileAddr s o l j, 0, elemBytes o, ((BitVec.ofNat 128 (s.readN o o.dstSrc (elemBytes o) l)).extractLsb' (8 * elemBytes o * j)
      (8 * elemBytes o)).setWidth 256, 0, false, false, none⟩
  need _ o := page true (elemBytes o)
  ready := tileReady

/-- The type of an atomic, its bytes and registers (09 R237). -/
def atomicTy (c : Nat) : ATy := [.s32, .n32, .s64, .n64, .f32, .bf16x2, .b128].getD c .b128
def atomicBytes (ty : ATy) : Nat :=
  match ty with
  | .s64 => 8
  | .n64 => 8
  | .b128 => 16
  | _ => 4
/-- The operand of an atomic with return, and its address (09 R224, R237). -/
def atomicData (s : State) (o : Ops) (ty : ATy) (n l : Nat) : Nat :=
  let x := if o.form.isImm then o.s3 else o.s2
  if x.kind = .imm then imm8 ty.ty x.val else s.readN o x n l
def atomicAddr (s : State) (o : Ops) (l : Nat) : Nat := wrapN 64 (s.readN o o.s1 2 l + (if o.form.isImm then s.offset o l else 0))
/-- An atomic that the host link carries (18 R384). -/
def carried (op : AOp) (ty : ATy) : Bool :=
  match op, ty with
  | .add, .s32 => true
  | .add, .n32 => true
  | .add, .s64 => true
  | .add, .n64 => true
  | .xch, .s32 => true
  | .xch, .s64 => true
  | .cas, .s32 => true
  | .cas, .s64 => true
  | _, _ => false
def atomicNeed (slr : Bool) (op : AOp) (ty : ATy) : Need := ⟨true, slr, !carried op ty, true, none, atomicBytes ty, false, []⟩
def atomicOp (s : State) (op : AOp) (ty : ATy) (ret scal : Bool) (dsts : List Nat) : MemOp :=
  { MemOp.idle with
    ctr := if ret then .ld else .st, kind := if ret then .atomicRet scal else .store, req := .atomic op ty ret, pc := s.ipc, dsts := dsts }
/-- An atomic with return on global memory: in every lane, or once for a scalar (09 R238, R239). -/
def returning (slr : Bool) (i : Ops → Instr) (op : Ops → AOp) (code : Ops → Nat) (n : Ops → Nat) : AccessRow where
  instr := i
  form o := o.kd ≠ .scal ∧ (slr = true ∨ o.sub.getLsbD 3 = false)
  op s sh o := atomicOp s (op o) (atomicTy (code o)) true false (s.ldKeys o (atomicBytes (atomicTy (code o)) / 4) (s.memLanes sh o true))
  lanes := storeLanes
  accs s o l := [⟨l, atomicAddr s o l, 0, atomicBytes (atomicTy (code o)),
    BitVec.ofNat 256 (atomicData s o (atomicTy (code o)) (n o) l), s.ldReg o l, false, false, none⟩]
  need _ o := atomicNeed slr (op o) (atomicTy (code o))
  ready s o l := atomicAddr s o l % atomicBytes (atomicTy (code o)) = 0
def returningOnce (slr : Bool) (i : Ops → Instr) (op : Ops → AOp) (code : Ops → Nat) (n : Ops → Nat) : AccessRow where
  instr := i
  form o := o.kd = .scal ∧ (slr = true ∨ o.sub.getLsbD 3 = false)
  op s _ o := atomicOp s (op o) (atomicTy (code o)) true true (s.ldKeys o (atomicBytes (atomicTy (code o)) / 4) 0)
  lanes s _ _ := ((List.range 64).filter fun l => s.act.getLsbD l && !(s.me.lane l).helper).take 1
  accs s o l := [⟨l, atomicAddr s o l, 0, atomicBytes (atomicTy (code o)),
    BitVec.ofNat 256 (atomicData s o (atomicTy (code o)) (n o) l), o.dst.toNat, false, false, none⟩]
  need s o := { atomicNeed slr (op o) (atomicTy (code o)) with uni := some s.act }
  ready s o l := atomicAddr s o l % atomicBytes (atomicTy (code o)) = 0
/-- A reduce packet: DST is the operand (09 R237). -/
def packet (slr : Bool) (i : Ops → Instr) (op : Ops → AOp) (code : Ops → Nat) (data : State → Ops → Nat → Nat) : AccessRow where
  instr := i
  form o := slr = true ∨ o.sub.getLsbD 3 = false
  op s _ o := atomicOp s (op o) (atomicTy (code o)) false false []
  lanes := storeLanes
  accs s o l := [⟨l, s.gAddr o l, 0, atomicBytes (atomicTy (code o)), BitVec.ofNat 256 (data s o l), s.ldReg o l, false, false, none⟩]
  need _ o := atomicNeed slr (op o) (atomicTy (code o))
  ready s o l := s.gAddr o l % atomicBytes (atomicTy (code o)) = 0

def loads : List AccessRow := [
  vectorLoad false .gld, scalarLoad false .gld, vectorLoad true .slld, scalarLoad true .slld, stackLoad, stackScalar, uniformLoad,
  uniformIndexed, prefetches true .prfgL1, prefetches false .prfgL2, tileLoad]
def stores : List AccessRow := [
  vectorStore false false .gst, vectorStore true false .slst, vectorStore false true .gstn, stackStore, tileStore]
def typeOf (o : Ops) : Nat := o.sub.toNat % 8
def width (o : Ops) : Nat := atomicBytes (atomicTy (typeOf o)) / 4
def packetData (s : State) (o : Ops) (l : Nat) : Nat := s.readN o o.dstSrc (width o) l
/-- The atomics with return and the reduce packets (09 R237). -/
def atomicTable : List ((Ops → Instr) × AOp) :=
  [(.aadd, .add), (.amin, .min), (.amax, .max), (.aand, .and), (.aor, .or), (.axor, .xor), (.axch, .xch), (.acas, .cas)]
def packetTable : List ((Ops → Instr) × AOp) :=
  [(.rdadd, .add), (.rdmin, .min), (.rdmax, .max), (.rdand, .and), (.rdor, .or), (.rdxor, .xor)]
def operandRegs (op : AOp) (o : Ops) : Nat := if op = .cas then 2 * width o else width o
/-- The bank operations of slice memory (09 R240). -/
def bankOps (o : Ops) : AOp := [AOp.add, .min, .max, .and, .or, .xor, .xch, .cas, .scl].getD o.sub.toNat .scl
def bankRegs (o : Ops) : Nat := (if o.sub = 7 then 2 else 1) * (atomicBytes (atomicTy o.aux.toNat) / 4)
def bankData (s : State) (o : Ops) (l : Nat) : Nat :=
  s.readN o o.dstSrc (bankRegs o) l + (if o.sub = 8 then 2 ^ 32 * s.src o .f32 o.s3 l else 0)
def atomics : List AccessRow :=
  (atomicTable.flatMap fun p =>
    [returning false p.1 (fun _ => p.2) typeOf (operandRegs p.2), returningOnce false p.1 (fun _ => p.2) typeOf (operandRegs p.2)]) ++
  (packetTable.map fun p => packet false p.1 (fun _ => p.2) typeOf packetData) ++
  [returning true .bopr bankOps (fun o => o.aux.toNat) bankRegs, returningOnce true .bopr bankOps (fun o => o.aux.toNat) bankRegs,
    packet true .bop bankOps (fun o => o.aux.toNat) bankData]

/-- The scaled lines (09 R231): the two blocks that `QST` quantises with the bytes it writes, and the line that `QLD` reads. -/
def quantised (s : State) (o : Ops) (b : Nat) : Nat × List Nat × Nat :=
  quantLanes o.sub.toNat (s.passMask o &&& ~~~s.helpers) (fun l => s.readN o o.dstSrc 1 l) b
def quantBits (s : State) (o : Ops) : Nat :=
  (quantised s o 0).2.2 ||| (if o.aux.toNat + 1 < lineBlocks o.sub.toNat then (quantised s o 1).2.2 else 0)
def scaledStore : AccessRow where
  instr := .qst
  form _ := True
  op s _ o := storeOp s (.qst (quantBits s o)) false
  lanes s sh o := if storeLanes s sh o = [] then [] else oneLane s sh o
  accs s o l := (qstBytes o.sub.toNat o.aux.toNat (quantised s o 0) (quantised s o 1)).map fun b =>
    ⟨l, s.gAddr o 0 + b.1, 0, 1, b.2.setWidth 256, 0, false, false, none⟩
  need s _ := { page true 128 with uni := some s.act }
  ready s o _ := s.gAddr o 0 % 128 = 0
def scaledLoad : AccessRow where
  instr := .qld
  form _ := True
  op s _ o := loadOp s (.qld o.sub.toNat o.aux.toNat (s.passMask o) ((List.range 64).map (s.ldReg o))) false (s.ldKeys o 1 (s.passMask o))
  lanes s sh o := if loadLanes s sh o = [] then [] else oneLane s sh o
  accs s o l := (List.range 8).map fun k => ⟨l, s.gAddr o 0 + 16 * k, 0, 16, 0, 0, false, false, none⟩
  hold := true
  need s _ := { page false 128 with uni := some s.act }
  ready s o _ := s.gAddr o 0 % 128 = 0

end Sys2Proof.Claims

/-- 09 R222, R224-R231; 06 R137: the loads send one request for each distinct line of their lanes and count one LD operation; nothing
else changes until a reply. -/
def Obligations.LoadsIssue : Prop := ∀ p ∈ Sys2Proof.Claims.loads ++ [Sys2Proof.Claims.scaledLoad], Sys2Proof.Claims.AccessRule p

/-- 09 R222, R224-R231; 06 R136: the stores send the data of their lanes, no helper among them, and count one ST operation; no byte of
memory changes at issue. -/
def Obligations.StoresIssue : Prop :=
  ∀ p ∈ Sys2Proof.Claims.stores ++ [Sys2Proof.Claims.scaledStore], Sys2Proof.Claims.AccessRule p

/-- 09 R237-R240: the atomics, reduce packets and bank operations send their operands; an atomic with return counts on LD, the others
on ST. -/
def Obligations.AtomicsIssue : Prop := ∀ p ∈ Sys2Proof.Claims.atomics, Sys2Proof.Claims.AccessRule p

/-! ## Memory: scratch, quantised values, requests and replies -/

namespace Sys2Proof.Claims
open Sys2Proof Sys2Proof.Machine

/-- One byte of the team's scratch. -/
def scratchByte (t : Team) (a : Nat) : Byte := Memory.get zeroByte t.scratch a
/-- `n` bytes from address `a` on as a number. -/
def scratchValue (m : Nat → Byte) (a n : Nat) : Nat := ((List.range n).map fun i => (m (a + i)).toNat * 256 ^ i).sum
/-- The bytes of a value stored at an address. -/
def store (m : Nat → Byte) (a n v : Nat) : Nat → Byte := fun b => if a ≤ b ∧ b < a + n then BitVec.ofNat 8 (v / 256 ^ (b - a)) else m b

/-- The value of a location after an operation, and the signed and floating minimum and maximum (09 R237, R238, R240). -/
def extreme (ty : ATy) (top : Bool) (a b : Nat) : Nat :=
  let least (lt : Prop) [Decidable lt] : Nat := if top then (if lt then b else a) else if lt then a else b
  match ty with
  | .s32 => least ((BitVec.ofNat 32 a).toInt < (BitVec.ofNat 32 b).toInt)
  | .s64 => least ((BitVec.ofNat 64 a).toInt < (BitVec.ofNat 64 b).toInt)
  | .f32 => if fp32.decode a = .nan ∨ fp32.decode b = .nan then 0x7FC00000 else if top then greater fp32 a b else lesser fp32 a b
  | _ => least (a < b)
def newValue (op : AOp) (ty : ATy) (old b : Nat) : Nat :=
  let w := 8 * atomicBytes ty
  let x := b % 2 ^ w
  match op with
  | .add =>
    match ty with
    | .f32 => fp32.round .rne ((fp32.decode old).add .rne (fp32.decode x))
    | .bf16x2 =>
      let h (k : Nat) : Nat := bf16.round .rne ((bf16.decode (elem old k)).add .rne (bf16.decode (elem x k)))
      h 0 + 2 ^ 16 * h 1
    | _ => (old + b) % 2 ^ w
  | .min => extreme ty false old x
  | .max => extreme ty true old x
  | .and => old &&& x
  | .or => old ||| x
  | .xor => old ^^^ x
  | .xch => x
  | .cas => if old = x then b / 2 ^ w % 2 ^ w else old
  | .scl => fp32.round .rne (((fp32.decode old).mul (fp32.decode (b / 2 ^ 32 % 2 ^ 32))).add .rne (fp32.decode (b % 2 ^ 32)))

/-- The lanes of an atomic applied to scratch one after another, with the old value of each (09 R238). -/
def applyLanes (op : AOp) (ty : ATy) (addr data : Nat → Nat) : List Nat → (Nat → Byte) → (Nat → Byte) × List Nat
  | [], m => (m, [])
  | l :: r, m =>
    let n := atomicBytes ty
    let old := scratchValue m (addr l) n
    let q := applyLanes op ty addr data r (store m (addr l) n (newValue op ty old (data l)))
    (q.1, old :: q.2)

/-- The issue of a scratch access: its counter rises, its operation stands recorded, it acts at its banks 2 cycles later (06 R136, R415),
and its completion is due `n` cycles later. -/
structure ScratchIssue (s t : State) (m : MemOp) (ack : Bool) (n : Nat) : Prop where
  lane : ∀ l < 64, t.me.lane l = { s.me.lane l with pc := (t.me.lane l).pc, st := (t.me.lane l).st }
  pc : PcTo s t fun _ => none
  queue : ∀ e ∈ t.me.oq, e ∈ s.me.oq
  warp : t.me = { s.me.onCtr m.ctr (· + 1) with lanes := t.me.lanes, oq := t.me.oq, hpc := t.me.hpc, retryAt := s.now + 1 }
  warps : ∀ w, w ≠ s.cur → t.warp w = s.warp w
  op : ∃ i, (s.memop i).live = false ∧
    t.memop i = { m with live := true, warp := s.cur, core := s.me.core, left := 1, seq := s.seq } ∧
    (∀ j, j ≠ i → t.memop j = s.memop j) ∧
    (⟨s.now + 2, .ev .requestArrival ⟨i, 2, s.me.team, 0, []⟩⟩ : Due) ∈ t.agenda ∧
    (⟨s.now + n, .ev (if ack then .storeAcknowledge else .loadReply) ⟨i, 1, 0, 0, []⟩⟩ : Due) ∈ t.agenda
  rest : t = { s with warps := t.warps, memops := t.memops, agenda := t.agenda, seq := s.seq + 1, issued := true }

/-- An access of `n` bytes at a scratch offset lies in the allocation and is aligned (05 R110). -/
def inScratch (s : State) (n a : Nat) : Prop := a % n = 0 ∧ a + n ≤ s.myTeam.kern.scratch

/-- A scratch atomic: its address in a lane and its operand (09 R224, R237). -/
def scratchAddr (s : State) (o : Ops) (ret : Bool) (l : Nat) : Nat :=
  if ret then wrapN 32 (s.src o .i32 o.s1 l + (if o.form.isImm then s.offset o l else 0)) else s.sAddr o l
def scratchLanesOf (s : State) (o : Ops) (ret : Bool) : List Nat :=
  let ls := (List.range 64).filter fun l => s.act.getLsbD l && !(s.me.lane l).helper
  if ret = true ∧ o.kd = .scal then ls.take 1 else ls.filter (s.pass o)
/-- The atomics and reduce packets, with whether each returns (09 R237). -/
def scratchAtomics : List ((Ops → Instr) × AOp × Bool) :=
  (atomicTable.map fun p => (p.1, p.2, true)) ++ packetTable.map fun p => (p.1, p.2, false)

/-- `QSTAT` as it stands in a cycle (08 R214). -/
def seen (t : Team) (at_ : Nat) : Word := (t.settleQ at_ 0).qstat
/-- The value of a lane of `QBLK` (08 R214). -/
def blockValue (s : State) (o : Ops) (l : Nat) : Nat :=
  let q := quantLanes o.sub.toNat (s.passMask o) (fun l => s.src o .f32 o.s1 l) (l / 32)
  getP 0 q.2.1 (l % 32) % 256 + 2 ^ 16 * q.1
def blockBits (s : State) (o : Ops) (b : Nat) : Nat :=
  if (contributes s o).any (fun l => l / 32 == b) then
    (quantLanes o.sub.toNat (s.passMask o) (fun l => s.src o .f32 o.s1 l) b).2.2 else 0

/-- A request that its home slice performs in the cycle it arrives: nothing holds it back (06 R146, R415; 17 R362, R363). -/
structure arrives (s : State) (i d sl : Nat) : Prop where
  ev : s.ev = ⟨i, 0, 0, 0, []⟩
  live : (s.req i).live = true ∧ (s.req i).performed = false ∧ (s.req i).refl = false
  home : s.homeOf (s.reqPart (s.req i)) (s.req i).line = .slice d sl
  map : (s.req i).gen = s.genOf (s.reqPart (s.req i)) (s.req i).line ∧ s.scanning d = false
  free : s.behind (s.req i) = false ∧ s.isFlagged (s.req i).line = false ∧ s.ownedBy (s.req i) = false ∧ s.conflicts (s.req i) = [] ∧
    ∀ q ∈ s.reqs, ¬(q.live = true ∧ q.waits = true ∧ q.core = (s.req i).core ∧ q.line = (s.req i).line ∧ q.seq < (s.req i).seq)
  readable : (s.homeCopy (s.req i).line).isSome = true ∨
    ((s.tierLat (s.req i).line).isSome = true ∧ (s.reqSlr (s.req i) = true → s.slmLines sl < 8192 * s.carve sl))

/-- The reflection of its sector that a request may be sent to (05 R116; 06 R134; 09 R229): it reads, prefetches no home slice, reaches no slice-resident
page, and its core has nothing older under way to the line. -/
def mayServe (s : State) (r : Req) : Prop :=
  s.reqSlr r = false ∧ (s.memop r.op).req.writes = false ∧ (s.memop r.op).kind ≠ .prefetch false ∧ (s.reflection (sectorOf r.core) r.line).isSome = true ∧
    ∀ q ∈ s.reqs, ¬(q.live = true ∧ q.seq < r.seq ∧ q.line = r.line ∧ q.core = r.core ∧ (q.performed = false ∨ (s.memop q.op).req.writes = true))

/-- The bytes of the accesses of a store put into a line in lane order (06 R132, R134). -/
def stored (d : BitVec 1024) (accs : List Acc) : BitVec 1024 :=
  accs.foldl (fun d a => linePut d (a.pa % 128) a.size a.data.toNat) d
/-- The accesses of an atomic applied to a line one after another in lane order (09 R238), with the old values. -/
def applied (op : AOp) (ty : ATy) (m : MemOp) : List Nat → BitVec 1024 → BitVec 1024 × List (Nat × BitVec 128)
  | [], d => (d, [])
  | k :: r, d =>
    let a := m.acc k
    let old := lineGet d (a.pa % 128) a.size
    let q := applied op ty m r (linePut d (a.pa % 128) a.size (newValue op ty old a.data.toNat))
    (q.1, (k, BitVec.ofNat 128 old) :: q.2)

/-- A loaded value in a register: 8 and 16 bits extended to 32 (09 R225, R226). -/
def extended (signed : Bool) (n v : Nat) : Nat :=
  if signed then (if n = 1 then ((BitVec.ofNat 8 v).signExtend 32).toNat else if n = 2 then ((BitVec.ofNat 16 v).signExtend 32).toNat else v)
  else v
/-- The value that an access of an operation has read. -/
def readValue (m : MemOp) (k : Nat) : Nat := ((m.buf.find? fun p => p.1 == k).map fun p => p.2.toNat).getD 0
/-- The registers of a value of `n` bytes. -/
def valueRegs (n : Nat) : Nat := (n + 3) / 4

end Sys2Proof.Claims

/-- 09 R226, R227; 05 R110, R111; 06 R136, R415: SPST and SPLD issue: the operation stands recorded and counted, acts at its banks 2 cc
later, and a store is complete then, while the values of a load are ready 24 cc after issue and 2 more for each further bank round. -/
def Sys2Proof.Claims.ScratchAccess : Prop :=
  ∀ (o : Sys2Proof.Ops) (s : Sys2Proof.Machine.State) (sh : Sys2Proof.Shape), s.idxBad sh o = 0 → s.act ≠ 0 →
    let n := Sys2Proof.Claims.bytesOf o
    let st := Sys2Proof.Claims.storeLanes s sh o
    let ld := if o.kd = .scal then [s.firstLane] else Sys2Proof.Claims.contributes s o
    (s.mayRun (.spst o) sh o → s.noRoom .st = false → (∀ l ∈ st, Sys2Proof.Claims.inScratch s n (s.sAddr o l)) →
      ∃ t, Sys2Proof.Machine.exec (.spst o) s = .next t ∧
        (st = [] → Sys2Proof.Machine.LaneEffect s t fun _ y => y) ∧
        (st ≠ [] → Sys2Proof.Claims.ScratchIssue s t
          { Sys2Proof.Claims.storeOp s .store false with
            accs := st.map fun l => ⟨l, s.sAddr o l, s.sAddr o l, n, s.stData o (Sys2Proof.Claims.regsOf o) l, 0, false, false, none⟩ } true 2)) ∧
    (s.mayRun (.spld o) sh o → s.noRoom .ld = false → (∀ l ∈ ld, Sys2Proof.Claims.inScratch s n (s.sAddr o l)) →
      ∃ t, Sys2Proof.Machine.exec (.spld o) s = .next t ∧
        (ld = [] → Sys2Proof.Machine.LaneEffect s t fun _ y => y) ∧
        (ld ≠ [] → Sys2Proof.Claims.ScratchIssue s t
          { Sys2Proof.Claims.loadOp s (.load (Sys2Proof.Claims.signedLoad o) (decide (o.kd = .scal))) false
              (if o.kd = .scal then s.ldKeys o (Sys2Proof.Claims.regsOf o) 0 else Sys2Proof.Claims.keys s sh o (Sys2Proof.Claims.regsOf o)) with
            accs := ld.map fun l => ⟨l, s.sAddr o l, s.sAddr o l, n, 0, s.ldReg o l, false, false, none⟩ }
          false (24 + 2 * (Sys2Proof.Machine.bankRounds s.myTeam.kern.swz n (ld.map (s.sAddr o)) - 1))))

/-- 06 R136, R415; 09 R226, R238: at its banks a scratch load takes the bytes of its team's scratch, a store puts the bytes of its lanes
there, the highest lane last, and an atomic applies its lanes one after another in increasing order. -/
def Sys2Proof.Claims.ScratchActs : Prop :=
  ∀ (s : Sys2Proof.Machine.State) (i k : Nat), s.ev = ⟨i, 2, k, 0, []⟩ →
    let m := s.memop i
    let sc := Sys2Proof.Claims.scratchByte (s.team k)
    ∃ t, Sys2Proof.Machine.exec .requestArrival s = .next t ∧
      t = { s with teams := t.teams, memops := t.memops } ∧ (∀ j, j ≠ i → t.memop j = s.memop j) ∧ (∀ j, j ≠ k → t.team j = s.team j) ∧
      t.memop i = { m with buf := (t.memop i).buf } ∧ t.team k = { s.team k with scratch := (t.team k).scratch } ∧
      (m.req = .load → t.teams = s.teams ∧ (t.memop i).buf = m.accs.mapIdx fun j a =>
        (j, BitVec.ofNat 128 (Sys2Proof.Claims.scratchValue sc a.pa a.size))) ∧
      (m.req = .store → (t.memop i).buf = m.buf ∧ ∀ b, Sys2Proof.Claims.scratchByte (t.team k) b =
        m.accs.foldl (fun f a => Sys2Proof.Claims.store f a.pa a.size a.data.toNat) sc b) ∧
      (∀ op ty ret, m.req = .atomic op ty ret → (∀ a ∈ m.accs, a.size = Sys2Proof.Claims.atomicBytes ty) →
        let q := Sys2Proof.Claims.applyLanes op ty (fun j => (m.acc j).pa) (fun j => (m.acc j).data.toNat) (List.range m.accs.length) sc
        (t.memop i).buf = (q.2.mapIdx fun j v => (j, BitVec.ofNat 128 v)) ∧ ∀ b, Sys2Proof.Claims.scratchByte (t.team k) b = q.1 b)

/-- 09 R238, R239: an atomic on scratch issues, and is ready or complete 28 cc later. -/
def Sys2Proof.Claims.ScratchAtomics : Prop :=
  ∀ p ∈ Sys2Proof.Claims.scratchAtomics, ∀ (o : Sys2Proof.Ops) (s : Sys2Proof.Machine.State) (sh : Sys2Proof.Shape),
    let ty := Sys2Proof.Claims.atomicTy (Sys2Proof.Claims.typeOf o)
    let n := Sys2Proof.Claims.atomicBytes ty
    let ls := Sys2Proof.Claims.scratchLanesOf s o p.2.2
    let addr := Sys2Proof.Claims.scratchAddr s o p.2.2
    let data (l : Nat) : Nat :=
      if p.2.2 then Sys2Proof.Claims.atomicData s o ty (Sys2Proof.Claims.operandRegs p.2.1 o) l else Sys2Proof.Claims.packetData s o l
    s.mayRun (p.1 o) sh o → s.idxBad sh o = 0 → o.sub.getLsbD 3 = true → s.noRoom (if p.2.2 then .ld else .st) = false →
    (∀ l ∈ ls, Sys2Proof.Claims.inScratch s n (addr l)) →
    ∃ t, Sys2Proof.Machine.exec (p.1 o) s = .next t ∧
      (ls = [] → Sys2Proof.Machine.LaneEffect s t fun _ y => y) ∧
      (ls ≠ [] → Sys2Proof.Claims.ScratchIssue s t
        { Sys2Proof.Claims.atomicOp s p.2.1 ty p.2.2 (p.2.2 && decide (o.kd = .scal))
            (if p.2.2 then s.ldKeys o (n / 4) (s.memLanes sh o true) else []) with
          accs := ls.map fun l => ⟨l, addr l, addr l, n, BitVec.ofNat 256 (data l), s.ldReg o l, false, false, none⟩ } (!p.2.2) 28)

/-- 08 R214, R215; 04 R97: QBLK writes the code and the scale byte of each lane and adds its events to QSTAT 12 cc later; QSRD waits for
the warp's earlier quantising operations and reads QSTAT; QSCLR clears the bits that are set in its operand. -/
def Sys2Proof.Claims.QuantStatus : Prop :=
  ∀ (o : Sys2Proof.Ops) (s : Sys2Proof.Machine.State) (sh : Sys2Proof.Shape), s.idxBad sh o = 0 →
    (s.mayRun (.qblk o) sh o → ∃ t, Sys2Proof.Machine.exec (.qblk o) s = .next t ∧
      Sys2Proof.Machine.RegEffect s { t with teams := s.teams } o 1 (s.pass o) (fun l => ⟨Sys2Proof.Claims.blockValue s o l, none, none⟩) ∧
      (∀ k, k ≠ s.me.team → t.team k = s.team k) ∧
      t.myTeam = { s.myTeam with qstat := t.myTeam.qstat, qlater := t.myTeam.qlater } ∧
      ∀ c, s.now ≤ c → Sys2Proof.Claims.seen t.myTeam c = Sys2Proof.Claims.seen s.myTeam c |||
        (if s.now + 12 ≤ c then BitVec.ofNat 32 (Sys2Proof.Claims.blockBits s o 0 ||| Sys2Proof.Claims.blockBits s o 1) else 0)) ∧
    (s.mayRun (.qsrd o) sh o → Sys2Proof.Claims.contributes s o ≠ [] →
      (s.quantPending = false → ∃ t, Sys2Proof.Machine.exec (.qsrd o) s = .next t ∧
        Sys2Proof.Machine.RegEffect s t o 1 (s.pass o) fun _ => ⟨(Sys2Proof.Claims.seen s.myTeam s.now).toNat, none, none⟩) ∧
      (s.quantPending = true → ∃ t, Sys2Proof.Machine.exec (.qsrd o) s = .next t ∧ t.issued = false ∧ t.me.lanes = s.me.lanes ∧
        t.me.s = s.me.s)) ∧
    (s.mayRun (.qsclr o) sh o → Sys2Proof.Claims.contributes s o ≠ [] → (∀ e ∈ s.myTeam.qlater, e.2.1 ≠ s.now) →
      ∃ t, Sys2Proof.Machine.exec (.qsclr o) s = .next t ∧
        Sys2Proof.Machine.LaneEffect s { t with teams := s.teams } (fun _ y => y) ∧
        (∀ k, k ≠ s.me.team → t.team k = s.team k) ∧
        t.myTeam = { s.myTeam with qstat := t.myTeam.qstat, qlater := t.myTeam.qlater } ∧
        Sys2Proof.Claims.seen t.myTeam s.now = Sys2Proof.Claims.seen s.myTeam s.now &&& ~~~BitVec.ofNat 32 (s.uni o o.s1))

/-- 09 R231: QLD sends the request of its scaled line and holds its lanes until the line's format is known (log entry 37); 08 R221:
LDPAT reads 512 bytes of scratch 2 cc after issue, and 40 cc after issue its team's table is replaced by them in one cycle. -/
def Sys2Proof.Claims.UniformTables : Prop :=
  Sys2Proof.Claims.AccessRule Sys2Proof.Claims.scaledLoad ∧
  (∀ (o : Sys2Proof.Ops) (s : Sys2Proof.Machine.State) (sh : Sys2Proof.Shape),
    s.mayRun (.ldpat o) sh o → s.noRoom .ld = false → Sys2Proof.Claims.contributes s o ≠ [] →
    s.patAddr o % 8 = 0 → s.patAddr o + 512 ≤ s.myTeam.kern.scratch →
      ∃ t i, Sys2Proof.Machine.exec (.ldpat o) s = .next t ∧
        (s.memop i).live = false ∧
        t.memop i = { Sys2Proof.Claims.loadOp s (.ldpat o.aux.toNat) false [] with
          accs := [⟨s.firstLane, s.patAddr o, s.patAddr o, 512, 0, 0, false, false, none⟩]
          live := true, warp := s.cur, core := s.me.core, left := 1, seq := s.seq } ∧
        (∀ j, j ≠ i → t.memop j = s.memop j) ∧
        (⟨s.now + 2, .ev .requestArrival ⟨i, 3, s.me.team, 0, []⟩⟩ : Sys2Proof.Machine.Due) ∈ t.agenda ∧
        t.me = { s.me with lanes := t.me.lanes, oq := t.me.oq, hpc := t.me.hpc, ld := s.me.ld + 1, retryAt := s.now + 1 } ∧
        Sys2Proof.Machine.PcTo s t (fun _ => none) ∧
        t = { s with warps := t.warps, memops := t.memops, agenda := t.agenda, seq := s.seq + 1, issued := true }) ∧
  (∀ (s : Sys2Proof.Machine.State) (i k tb : Nat), s.ev = ⟨i, 3, k, 0, []⟩ → (s.memop i).kind = .ldpat tb →
    ∃ t, Sys2Proof.Machine.exec .requestArrival s = .next t ∧ t = { s with agenda := t.agenda } ∧
      (⟨s.now + 38, .ev .patternTableReplace ⟨i, k, tb, 0,
        (List.range 512).map fun b => Sys2Proof.Claims.scratchByte (s.team k) (((s.memop i).acc 0).pa + b)⟩⟩ : Sys2Proof.Machine.Due) ∈ t.agenda) ∧
  (∀ (s : Sys2Proof.Machine.State) (k tb : Nat), s.ev.b = k → s.ev.c = tb → tb < 8 → (s.memop s.ev.a).live = true →
    (s.memop s.ev.a).left = 1 → (s.memop s.ev.a).kind = .ldpat tb → (s.memop s.ev.a).ctr = .ld →
      ∃ t, Sys2Proof.Machine.exec .patternTableReplace s = .next t ∧ (t.team k).pattern tb = s.ev.bytes ∧
        (∀ j < 8, j ≠ tb → (t.team k).pattern j = (s.team k).pattern j) ∧ (∀ j, j ≠ k → t.team j = s.team j) ∧
        t.memop s.ev.a = Sys2Proof.Machine.MemOp.idle ∧
        t.warp (s.memop s.ev.a).warp = { s.warp (s.memop s.ev.a).warp with
          ld := (s.warp (s.memop s.ev.a).warp).ld - 1, lowered := (t.warp (s.memop s.ev.a).warp).lowered })

/-- 06 R132, R149, R415; 09 R226, R238: in its arrival cycle a request gives a load the bytes at its home, puts a store's bytes there, or
applies an atomic's lanes in increasing order. -/
def Sys2Proof.Claims.RequestArrival : Prop :=
  ∀ (s : Sys2Proof.Machine.State) (i d sl : Nat), Sys2Proof.Claims.arrives s i d sl →
    let r := s.req i
    let m := s.memop r.op
    ∃ t, Sys2Proof.Machine.exec .requestArrival s = .next t ∧ (t.req i).performed = true ∧ t.warps = s.warps ∧ t.teams = s.teams ∧
      (m.req = .load → (t.memop r.op).buf = m.buf ++ r.accs.map fun k =>
          (k, Sys2Proof.Machine.accVal (s.overlay r.core r.line r.seq (s.peekLine r.line)) (m.acc k))) ∧
      (m.req = .store → t.peekLine r.line = Sys2Proof.Claims.stored (s.peekLine r.line)
          ((r.accs.map m.acc).filter fun a => Sys2Proof.Machine.lineOf a.pa == r.line) ∧
        ∃ e ∈ t.agenda, s.now ≤ e.at_ ∧ e.act = .ev .storeAcknowledge ⟨i, 0, 0, 0, []⟩) ∧
      (∀ op ty ret, m.req = .atomic op ty ret → (∀ k ∈ r.accs, (m.acc k).size = Sys2Proof.Claims.atomicBytes ty) →
        t.peekLine r.line = (Sys2Proof.Claims.applied op ty m r.accs (s.peekLine r.line)).1 ∧
        (t.memop r.op).buf = m.buf ++ (Sys2Proof.Claims.applied op ty m r.accs (s.peekLine r.line)).2)

/-- 17 R363; 19 R403; 01 R24: a refused request leaves its port with the map that its port holds, unless one of its warp and line that went by an older
map is under way: it reaches its new home, or a reflection of its sector that it may use, after the way there. Of two of a core the earlier goes first, in a
cycle of its own; a request that has been performed does nothing. -/
def Sys2Proof.Claims.RefusedResend : Prop :=
  ∀ (s : Sys2Proof.Machine.State) (i d sl : Nat), s.ev = ⟨i, 0, 0, 0, []⟩ →
    let r := s.req i
    let gen := s.genOf (s.reqPart r) r.line
    (r.live = true → r.performed = false → s.resendFirst i = false → s.homeOf (s.reqPart r) r.line = .slice d sl →
      (∀ q ∈ s.reqs, q.live = true → q.seq < r.seq → q.line = r.line → q.performed = false → (s.memop q.op).warp = (s.memop r.op).warp →
        q.port = true ∨ q.gen = gen) →
      ∃ t refl, Sys2Proof.Machine.exec .refusedRequestResend s = .next t ∧ (refl = true ↔ Sys2Proof.Claims.mayServe s r) ∧
        t.req i = { r with sent := s.now, gen := gen, refl := refl, port := false } ∧ (∀ j, j ≠ i → t.req j = s.req j) ∧
        (⟨s.now + s.oneWay r.core (s.reqPart r) r.line (s.reqSlr r) refl, .ev .requestArrival ⟨i, 0, 0, 0, []⟩⟩ : Sys2Proof.Machine.Due) ∈ t.agenda ∧
        t = { s with reqs := t.reqs, agenda := t.agenda }) ∧
    (r.live = true → r.performed = false → s.resendFirst i = true → ∃ t, Sys2Proof.Machine.exec .refusedRequestResend s = .next t ∧
      (⟨s.now + 1, .ev .refusedRequestResend ⟨i, 0, 0, 0, []⟩⟩ : Sys2Proof.Machine.Due) ∈ t.agenda ∧ t = { s with agenda := t.agenda }) ∧
    (r.performed = true → Sys2Proof.Machine.exec .refusedRequestResend s = .next s)

/-- 09 R226, R227, R229; 06 R136; 07 R178: the last reply of a load writes its destinations and nothing else, and its counter falls by
one; so does the counter of a store at its last acknowledgement. -/
def Sys2Proof.Claims.RepliesAndAcknowledgements : Prop :=
  ∀ (s : Sys2Proof.Machine.State) (i : Nat), s.ev = ⟨i, 0, 0, 0, []⟩ → (s.req i).live = true →
    let m := s.memop (s.req i).op
    let x := s.warp m.warp
    m.live = true →
    (m.left = 1 → (m.kind = .store ∨ m.kind = .copy ∨ m.kind = .send) → m.ctr ≠ .none →
      ∃ t, Sys2Proof.Machine.exec .storeAcknowledge s = .next t ∧ (t.req i).live = false ∧ t.memop (s.req i).op = Sys2Proof.Machine.MemOp.idle ∧
        t.warp m.warp = { x.onCtr m.ctr (· - 1) with lowered := (t.warp m.warp).lowered } ∧ (∀ w, w ≠ m.warp → t.warp w = s.warp w) ∧
        t = { s with warps := t.warps, reqs := t.reqs, memops := t.memops }) ∧
    (1 < m.left → ∃ t, Sys2Proof.Machine.exec .storeAcknowledge s = .next t ∧ (t.req i).live = false ∧
      t.memop (s.req i).op = { m with left := m.left - 1 } ∧ t.warps = s.warps) ∧
    (∀ sg, m.left = 1 → m.kind = .load sg false → m.ctr = .ld → (m.accs.map fun a => a.lane).Nodup → (∀ a ∈ m.accs, a.lane < 64 ∧ a.reg < 1000) →
      (s.req i).captured = none →
      ∃ t, Sys2Proof.Machine.exec .loadReply s = .next t ∧ (t.req i).live = false ∧ (t.warp m.warp).ld = x.ld - 1 ∧
        (∀ k < m.accs.length, (m.acc k).size ∈ [1, 2, 4, 8, 16] → ∀ r, (m.acc k).reg ≤ r → r < (m.acc k).reg + Sys2Proof.Claims.valueRegs (m.acc k).size →
          Sys2Proof.getP 0 ((t.warp m.warp).lane (m.acc k).lane).v r =
            Sys2Proof.Machine.groupWord (Sys2Proof.Claims.extended sg (m.acc k).size (Sys2Proof.Claims.readValue m k)) (r - (m.acc k).reg)) ∧
        (∀ l < 64, ∀ r, (∀ a ∈ m.accs, a.lane = l → a.size = 0 ∨ r < a.reg ∨ a.reg + Sys2Proof.Claims.valueRegs a.size ≤ r) →
          Sys2Proof.getP 0 ((t.warp m.warp).lane l).v r = Sys2Proof.getP 0 (x.lane l).v r) ∧
        (∀ w, w ≠ m.warp → t.warp w = s.warp w))

/-! ## Fences, barriers, handles, copies, messages, ports -/

namespace Sys2Proof.Claims
open Sys2Proof Sys2Proof.Machine

/-- An earlier load of the warp that has not returned (06 R138), and a write of its core, or a load of its own without a value, that
a drain waits for (06 R141). -/
def loadsOut (s : State) : Prop := ∃ m ∈ s.memops, m.live = true ∧ m.warp = s.cur ∧ m.seq < s.bound ∧ m.ctr = .ld
def writes (m : MemOp) : Prop := m.req ≠ .load
def storesOut (s : State) : Prop :=
  ∃ r ∈ s.reqs, r.live = true ∧ r.seq < s.bound ∧ r.core = s.me.core ∧
    (writes (s.memop r.op) ∨ ((s.memop r.op).warp = s.cur ∧ r.performed = false))
/-- The instruction has not completed: it is tried again in the next cycle, and no register, predicate, PC or byte of memory has
changed. -/
structure Waits (s t : State) : Prop where
  again : t.issued = false ∧ t.me.retryAt = s.now + 1
  warp : t.me = { s.me with retryAt := t.me.retryAt, stalled := t.me.stalled, portSince := t.me.portSince, arrived := t.me.arrived, barAt := t.me.barAt }
  warps : ∀ w, w ≠ s.cur → t.warp w = { s.warp w with arrived := (t.warp w).arrived }
  memory : ∀ a, t.peekByte a = s.peekByte a
/-- The L1 of a core holds no line, and the other L1s are as they were (06 R138). -/
def l1Empty (s t : State) (core : Nat) : Prop :=
  (∀ la, t.l1Line core la = none) ∧ ∀ c, c ≠ core → ∀ la, t.l1Line c la = s.l1Line c la
/-- An instruction that only orders: it moves on after `k` cycles, having cleared the core's L1 where it acquires beyond the core. -/
def Orders (s t : State) (clear : Bool) (k : Nat) : Prop :=
  LaneEffect s { t with l1 := s.l1, reqs := s.reqs } (fun _ y => y) (fun _ => none) k ∧
    (clear = true → l1Empty s t s.me.core) ∧ (clear = false → t.l1 = s.l1 ∧ t.reqs = s.reqs)
def beyond (o : Ops) : Bool := o.aux != 0

/-- The other warps of the team that have neither retired nor been ended (09 R242). -/
def others (s : State) : List Nat :=
  s.myTeam.warps.filter fun w => (s.warp w).live && (s.warp w).team == s.me.team && !(s.warp w).ended && w != s.cur
/-- The warp is one of its team's. -/
def member (s : State) : Prop := s.cur ∈ s.myTeam.warps ∧ s.me.live = true ∧ s.me.ended = false
/-- The warp has arrived: its arrival stands, or, where every other warp has arrived, the phase is complete (09 R242). -/
def arrivedBar (s t : State) : Prop :=
  ((∃ w ∈ others s, (s.warp w).arrived = false) → t.me.arrived = true ∧ t.teams = s.teams ∧ ∀ w, w ≠ s.cur → t.warp w = s.warp w) ∧
  ((∀ w ∈ others s, (s.warp w).arrived = true) → t.me.arrived = false ∧
    t.myTeam = { s.myTeam with phase := s.myTeam.phase + 1, phaseAt := s.now } ∧ ∀ w ∈ others s, (t.warp w).arrived = false)

/-- The limits of `WAIT` (07 R178). -/
def withinLimits (s : State) (o : Ops) : Prop :=
  s.me.ld ≤ (o.imm.extractLsb' 16 6).toNat ∧ s.me.st ≤ (o.imm.extractLsb' 10 6).toNat ∧ s.me.cp ≤ (o.imm.extractLsb' 4 6).toNat ∧
    s.me.tl ≤ (o.imm.extractLsb' 0 4).toNat

/-- The state of a handle changes and nothing else does (05 R113). -/
def setsHandle (s t : State) (h st : Nat) : Prop :=
  (∀ k, k ≠ s.me.team → t.team k = s.team k) ∧ t.myTeam = { s.myTeam with handles := t.myTeam.handles } ∧
    (∀ k, k ≠ h → t.myTeam.handle k = s.myTeam.handle k) ∧
    (t.myTeam.handle h).state = st ∧ (t.myTeam.handle h).wptr = (s.myTeam.handle h).wptr ∧ (t.myTeam.handle h).base = (s.myTeam.handle h).base ∧
    (t.myTeam.handle h).size = (s.myTeam.handle h).size

/-- A `COPY`: its bytes, direction, handle and declared layout and format (09 R232). -/
def copyBytes (o : Ops) : Nat := 4 * 2 ^ (o.sub.extractLsb' 4 2).toNat
def copyDir (o : Ops) : Nat := (o.sub.extractLsb' 0 2).toNat
def copyQueue (o : Ops) : Nat := (o.sub.extractLsb' 2 2).toNat
def copyHandle (o : Ops) : Nat := (o.imm.extractLsb' 0 6).toNat
def copySrc (s : State) (o : Ops) (l : Nat) : Nat := if copyDir o = 1 then s.src o .i32 o.s1 l else s.readN o o.s1 2 l
def copyDst (s : State) (o : Ops) (l : Nat) : Nat := if copyDir o = 0 then s.src o .i32 o.dstSrc l else s.readN o o.dstSrc 2 l
/-- The lane's addresses are aligned, and its scratch side lies in the allocation or the handle's buffer (09 R232; 05 R110). -/
def copyReady (s : State) (o : Ops) (l : Nat) : Prop :=
  copySrc s o l % copyBytes o = 0 ∧ copyDst s o l % copyBytes o = 0 ∧
    (copyDir o = 1 → copySrc s o l + copyBytes o ≤ s.myTeam.kern.scratch) ∧
    (copyDir o = 0 → copyDst s o l + copyBytes o ≤ (s.myTeam.handle (copyHandle o)).bytes)
/-- The handle may be filled: free, or filling with the same layout and format, or raw (05 R113). -/
def fillable (s : State) (h layout fmt : Nat) (raw : Bool) : Prop :=
  h < s.myTeam.handles.length ∧ ((s.myTeam.handle h).state = 0 ∨ ((s.myTeam.handle h).state = 1 ∧
    (raw = true ∨ ((s.myTeam.handle h).layout = layout ∧ (s.myTeam.handle h).fmt = fmt))))
/-- The places that a lane's bytes go to and come from. -/
def copyFrom (s : State) (o : Ops) (leaf : Nat → TlbEnt) (l : Nat) : Place :=
  if copyDir o = 1 then .scr s.me.team (copySrc s o l) none 0 else .glob ((leaf (copySrc s o l)).phys (copySrc s o l))
def copyTo (s : State) (o : Ops) (leaf : Nat → TlbEnt) (l : Nat) : Place :=
  if copyDir o = 0 then .scr s.me.team (64 * (s.myTeam.handle (copyHandle o)).base + copyDst s o l) (some (copyHandle o)) (copyDst s o l)
  else .glob ((leaf (copyDst s o l)).phys (copyDst s o l))
/-- A global side of a lane's copy is readable or writable. -/
def copyGranted (s : State) (o : Ops) (leaf : Nat → TlbEnt) (l : Nat) : Prop :=
  (copyDir o ≠ 1 → granted s (page false (copyBytes o)) leaf ⟨l, copySrc s o l, 0, copyBytes o, 0, 0, false, false, none⟩) ∧
  (copyDir o ≠ 0 → granted s (page true (copyBytes o)) leaf ⟨l, copyDst s o l, 0, copyBytes o, 0, 1, false, false, none⟩)
/-- A copy stands on its channel: counted once on CP, with a line operation on queue `q` for each distinct destination line, which
moves the bytes of the moves to that line (09 R233). -/
structure Copies (s t : State) (q : Nat) (moves : List (Place × Place × Nat)) : Prop where
  lane : ∀ l < 64, t.me.lane l = { s.me.lane l with pc := (t.me.lane l).pc, st := (t.me.lane l).st }
  pc : PcTo s t fun _ => none
  queue : ∀ e ∈ t.me.oq, e ∈ s.me.oq
  warp : t.me = { s.me with lanes := t.me.lanes, oq := t.me.oq, hpc := t.me.hpc, retryAt := s.now + 1, cp := s.me.cp + 1 }
  warps : ∀ w, w ≠ s.cur → t.warp w = s.warp w
  op : ∃ i, (s.memop i).live = false ∧ (t.memop i).live = true ∧ (t.memop i).warp = s.cur ∧ (t.memop i).ctr = .cp ∧ (t.memop i).kind = .copy ∧
    (t.memop i).left = (moves.map fun m => m.1.line).eraseDups.length ∧
    ∀ m ∈ moves, ∃ j, (s.lineop j).live = false ∧ (t.lineop j).live = true ∧ (t.lineop j).op = i ∧ (t.lineop j).queue = q ∧
      (t.lineop j).core = s.me.core ∧ (t.lineop j).moves = (moves.filter fun k => k.1.line = m.1.line) ∧
      j ∈ getP [] (t.channel (channelOf s.me.core)).queues q
  memory : ∀ a, t.peekByte a = s.peekByte a
  rest : t = { s with
    warps := t.warps, memops := t.memops, lineops := t.lineops, channels := t.channels, teams := t.teams, tlb := t.tlb, seq := s.seq + 1
    issued := true }
/-- The handle fills: a free one takes the layout and format of what fills it (05 R113). -/
def fills (s t : State) (h layout fmt : Nat) : Prop :=
  (∀ k, k ≠ s.me.team → t.team k = s.team k) ∧ t.myTeam = { s.myTeam with handles := t.myTeam.handles } ∧
    (∀ k, k ≠ h → t.myTeam.handle k = s.myTeam.handle k) ∧ (t.myTeam.handle h).state = 1 ∧
    ((s.myTeam.handle h).state = 0 → (t.myTeam.handle h).layout = layout ∧ (t.myTeam.handle h).fmt = fmt ∧ (t.myTeam.handle h).wptr = 0) ∧
    ((s.myTeam.handle h).state = 1 → t.myTeam.handle h = s.myTeam.handle h)

/-- A region copy of one row that lies in one line of its destination and of its source (09 R234); a destination in a handle lies in
scratch from the handle's base on. -/
def oneRow (s : State) (r : Region) (dir : Nat) : Prop :=
  r.rows = 1 ∧ r.src % 128 + r.rowBytes ≤ 128 ∧
    ((if dir = 0 then 64 * (s.myTeam.handle r.handle).base else 0) + r.dst) % 128 + r.rowBytes ≤ 128
def regionFrom (s : State) (r : Region) (dir : Nat) (leaf : Nat → TlbEnt) : Place :=
  if dir = 1 then .scr s.me.team r.src none 0 else .glob ((leaf (r.src / 4096 * 4096)).phys (r.src / 4096 * 4096) + r.src % 4096)
def regionTo (s : State) (r : Region) (dir : Nat) (leaf : Nat → TlbEnt) : Place :=
  if dir = 0 then .scr s.me.team (64 * (s.myTeam.handle r.handle).base + r.dst) (some r.handle) r.dst
  else .glob ((leaf (r.dst / 4096 * 4096)).phys (r.dst / 4096 * 4096) + r.dst % 4096)
/-- What a region asks of a page: none of its lines there lies in a flagged object (06 R153; 09 R234). -/
def regionNeed (write : Bool) (base stride : Nat) (r : Region) : Need :=
  { page write 4 with lines := regionLines base stride r.rows r.rowBytes (base / 4096 * 4096) }
def regionGranted (s : State) (r : Region) (dir : Nat) (leaf : Nat → TlbEnt) : Prop :=
  (dir ≠ 1 → r.src < 2 ^ 56 ∧ granted s (regionNeed false r.src r.sstride r) leaf ⟨s.firstLane, r.src / 4096 * 4096, 0, 4, 0, 0, false, false, none⟩) ∧
  (dir ≠ 0 → r.dst < 2 ^ 56 ∧ granted s (regionNeed true r.dst r.dstride r) leaf ⟨s.firstLane, r.dst / 4096 * 4096, 0, 4, 0, 1, false, false, none⟩)

/-- A line that is written at its home by an agent of the device: the home is readable, with room for a slice-resident line, and no
request waits for the line. -/
def deliverable (s : State) (p la : Nat) (slr : Bool) : Prop :=
  (∃ d sl, s.homeOf p la = .slice d sl ∧ ((s.homeCopy la).isSome = true ∨
    ((s.tierLat la).isSome = true ∧ (slr = true → s.slmLines sl < 8192 * s.carve sl)))) ∧
    ∀ r ∈ s.reqs, ¬(r.live = true ∧ r.waits = true ∧ r.line = la)

/-- The payload of `SEND` and the entry of a ring (05 R129). -/
def sendBytes (o : Ops) : Nat := (o.imm.extractLsb' 16 6).toNat
def ringEntry (m : Msg) (k : Nat) : Byte :=
  if k < 4 then BitVec.ofNat 8 ((m.core * 2 ^ 22 + m.payload.length * 2 ^ 16 + m.tag) / 256 ^ k) else (getP 0 m.payload (k - 4))

/-- The lanes of a port instruction, and what stands behind a lane's port (03 R75; 08 R199). -/
def portLanes (s : State) (o : Ops) : List Nat := (contributes s o).filter fun l => !(s.me.lane l).helper
def side (s : State) (o : Ops) (l : Nat) : Edge := s.neighbour s.cur l (o.sub.extractLsb' 0 3).toNat
/-- The lane has an open edge, or a neighbour that has retired: what it pushes is discarded (03 R78). -/
abbrev noSide (s : State) (o : Ops) (l : Nat) : Prop := side s o l = .open_ ∨ side s o l = .retired
/-- The port instruction is one of the team's (15 R335), and nothing else of the team changes. -/
def portTeam (s t : State) : Prop :=
  (∀ k, k ≠ s.me.team → t.team k = s.team k) ∧ t.myTeam = { s.myTeam with portAt := s.now + 1, portDisc := t.myTeam.portDisc, discNow := t.myTeam.discNow }

end Sys2Proof.Claims

/-- 06 R138, R141, R142; 09 R241: FENCE, ACQ and REL wait for the loads and the drain set of their scope; beyond the core FENCE and ACQ
empty the core's L1. -/
def Sys2Proof.Claims.Fences : Prop :=
  ∀ (o : Sys2Proof.Ops) (s : Sys2Proof.Machine.State) (sh : Sys2Proof.Shape), Sys2Proof.Claims.contributes s o ≠ [] →
    let out := (Sys2Proof.Claims.beyond o = true ∧ Sys2Proof.Claims.storesOut s)
    (s.mayRun (.fence o) sh o → ∃ t, Sys2Proof.Machine.exec (.fence o) s = .next t ∧
      ((Sys2Proof.Claims.loadsOut s ∨ out) → Sys2Proof.Claims.Waits s t) ∧
      (¬(Sys2Proof.Claims.loadsOut s ∨ out) →
        Sys2Proof.Claims.Orders s t (Sys2Proof.Claims.beyond o) (if Sys2Proof.Claims.beyond o then 12 else 4))) ∧
    (s.mayRun (.acq o) sh o → ∃ t, Sys2Proof.Machine.exec (.acq o) s = .next t ∧
      (Sys2Proof.Claims.loadsOut s → Sys2Proof.Claims.Waits s t) ∧
      (¬Sys2Proof.Claims.loadsOut s →
        Sys2Proof.Claims.Orders s t (Sys2Proof.Claims.beyond o) (if Sys2Proof.Claims.beyond o then 10 else 2))) ∧
    (s.mayRun (.rel o) sh o → ∃ t, Sys2Proof.Machine.exec (.rel o) s = .next t ∧
      (out → Sys2Proof.Claims.Waits s t) ∧ (¬out → Sys2Proof.Claims.Orders s t false 2))

/-- 06 R142: ACQ.STEAL sends its request to the victim; the victim drains and empties its L1 when the request arrives; once that is done
and 180 cc (260 cc across sectors) have passed, the instruction acquires at DEVICE scope. -/
def Sys2Proof.Claims.RemoteAcquire : Prop :=
  (∀ (o : Sys2Proof.Ops) (s : Sys2Proof.Machine.State) (sh : Sys2Proof.Shape), s.mayRun (.acqSteal o) sh o →
    Sys2Proof.Claims.contributes s o ≠ [] →
    let v := s.uni o o.s1
    v < 576 → s.partOfSector (v / 96) = s.partOf s.cur →
    (s.phase = 0 → ∃ t, Sys2Proof.Machine.exec (.acqSteal o) s = .next t ∧ Sys2Proof.Claims.Waits s t ∧
      (⟨s.now + (if v / 96 = s.me.core / 96 then 40 else 80), .ev .stealArrival ⟨s.cur, v, 0, 0, []⟩⟩ : Sys2Proof.Machine.Due) ∈ t.agenda) ∧
    (s.phase = 20 → ∃ t, Sys2Proof.Machine.exec (.acqSteal o) s = .next t ∧ Sys2Proof.Claims.Waits s t) ∧
    (s.phase = 21 → s.since + (if v / 96 = s.me.core / 96 then 180 else 260) ≤ s.now → ¬Sys2Proof.Claims.loadsOut s →
      ∃ t, Sys2Proof.Machine.exec (.acqSteal o) s = .next t ∧ Sys2Proof.Claims.Orders s t true 10)) ∧
  (∀ (s : Sys2Proof.Machine.State) (w v : Nat) (r : Sys2Proof.Machine.Stalled), s.ev = ⟨w, v, 0, 0, []⟩ → (s.warp w).stalled = some r →
    r.phase = 20 → (∀ q ∈ s.reqs, ¬(q.live = true ∧ q.seq < s.seq ∧ q.core = v ∧ Sys2Proof.Claims.writes (s.memop q.op))) →
    ∃ t, Sys2Proof.Machine.exec .stealArrival s = .next t ∧ Sys2Proof.Claims.l1Empty s t v ∧
      t.warp w = { s.warp w with stalled := some { r with phase := 21 } } ∧ (∀ k, k ≠ w → t.warp k = s.warp k) ∧
      t = { s with warps := t.warps, l1 := t.l1, reqs := t.reqs })

/-- 09 R242; 02 R43: BARARV and BAR record the arrival of their warp, the last arrival completes the phase, and BARWT and BAR go on once
no arrival of the warp is pending. -/
def Obligations.TeamBarrier : Prop :=
  ∀ (o : Sys2Proof.Ops) (s : Sys2Proof.Machine.State) (sh : Sys2Proof.Shape), s.act ≠ 0 → Sys2Proof.Claims.member s →
    (s.mayRun (.bararv o) sh o → s.me.arrived = false → s.phaseNow = false →
      ∃ t, Sys2Proof.Machine.exec (.bararv o) s = .next t ∧ Sys2Proof.Claims.arrivedBar s t ∧ Sys2Proof.Machine.PcTo s t (fun _ => none) ∧
        t.me = { s.me with lanes := t.me.lanes, oq := t.me.oq, hpc := t.me.hpc, retryAt := s.now + 2, arrived := t.me.arrived }) ∧
    (s.mayRun (.bar o) sh o → s.me.barAt ≠ some s.ipc → s.me.arrived = false → s.phaseNow = false →
      ∃ t, Sys2Proof.Machine.exec (.bar o) s = .next t ∧ Sys2Proof.Claims.arrivedBar s t ∧ Sys2Proof.Claims.Waits s t ∧
        t.me.barAt = some s.ipc) ∧
    (s.mayRun (.bar o) sh o → s.me.barAt = some s.ipc → s.me.arrived = false → s.phase = 1 → s.now ≤ s.myTeam.phaseAt + 3 →
      ¬Sys2Proof.Claims.loadsOut s → ∃ t, Sys2Proof.Machine.exec (.bar o) s = .next t ∧
        Sys2Proof.Machine.LaneEffect s (t.setMe { t.me with barAt := s.me.barAt }) (fun _ y => y) (fun _ => none)
          (s.myTeam.phaseAt + 4 - s.now) ∧ t.me.barAt = none) ∧
    (s.mayRun (.barwt o) sh o → s.me.arrived = false → s.phase = 0 → ¬Sys2Proof.Claims.loadsOut s →
      ∃ t, Sys2Proof.Machine.exec (.barwt o) s = .next t ∧
        Sys2Proof.Machine.LaneEffect s (t.setMe { t.me with barAt := s.me.barAt }) (fun _ y => y) (fun _ => none) 2) ∧
    (s.mayRun (.barwt o) sh o → s.me.arrived = true → ∃ t, Sys2Proof.Machine.exec (.barwt o) s = .next t ∧ Sys2Proof.Claims.Waits s t)

/-- 07 R178; 09 R229, R243, R244; 06 R156: WAIT lets its warp go on once its counters are within the limits; CCTL drops lines of the
core's own L1; PUBL publishes its lines and drops them from the instruction caches of its scope. -/
def Sys2Proof.Claims.WaitsAndCaches : Prop :=
  ∀ (o : Sys2Proof.Ops) (s : Sys2Proof.Machine.State) (sh : Sys2Proof.Shape) (leaf : Nat → Sys2Proof.Machine.TlbEnt),
    (s.mayRun (.wait o) sh o → ∃ t, Sys2Proof.Machine.exec (.wait o) s = .next t ∧
      (Sys2Proof.Claims.withinLimits s o → Sys2Proof.Machine.LaneEffect s t fun _ y => y) ∧
      (¬Sys2Proof.Claims.withinLimits s o → Sys2Proof.Claims.Waits s t)) ∧
    (s.mayRun (.cctlIvl o) sh o → s.idxBad sh o = 0 →
      (∀ l ∈ Sys2Proof.Claims.contributes s o, Sys2Proof.Claims.mapsTo s (s.readN o o.s1 2 l) (leaf (s.readN o o.s1 2 l))) →
      ∃ t, Sys2Proof.Machine.exec (.cctlIvl o) s = .next t ∧
        Sys2Proof.Machine.LaneEffect s { t with l1 := s.l1, reqs := s.reqs } (fun _ y => y) (fun _ => none) 2 ∧
        (∀ l ∈ Sys2Proof.Claims.contributes s o, t.l1Line s.me.core
          (Sys2Proof.Machine.lineOf ((leaf (s.readN o o.s1 2 l)).phys (s.readN o o.s1 2 l))) = none) ∧
        (∀ c, c ≠ s.me.core → ∀ la, t.l1Line c la = s.l1Line c la)) ∧
    (s.mayRun (.cctlIval o) sh o → Sys2Proof.Claims.contributes s o ≠ [] → ∃ t, Sys2Proof.Machine.exec (.cctlIval o) s = .next t ∧
      Sys2Proof.Claims.Orders s t true 8) ∧
    (s.mayRun (.publ o) sh o → s.act ≠ 0 →
      let a := s.uni64 o.s1
      let n := s.uni o o.s2
      let va (k : Nat) : Nat := (a + 128 * k) % 2 ^ 64
      a % 128 = 0 → 0 < n → n ≤ 4096 → ((s.phase = 0 ∧ n ≤ 8) ∨ (s.phase ≠ 0 ∧ s.datum ≤ s.now)) →
      (∀ k < n, Sys2Proof.Machine.canonical (va k) = true ∧ (leaf (va k)).from_ ≤ s.now ∧ Sys2Proof.Claims.mapsTo s (va k) (leaf (va k)) ∧
        Sys2Proof.Claims.mapsTo s (va k / 4096 * 4096) (leaf (va k))) →
      (∀ r ∈ s.reqs, ¬(r.live = true ∧ r.core = s.me.core ∧ Sys2Proof.Claims.writes (s.memop r.op))) →
      ∃ t, Sys2Proof.Machine.exec (.publ o) s = .next t ∧
        Sys2Proof.Machine.LaneEffect s { t with published := s.published, icache := s.icache, tlb := s.tlb } (fun _ y => y) (fun _ => none) 40 ∧
        (∀ k < n, let la := Sys2Proof.Machine.lineOf ((leaf (va k)).phys (va k))
          la ∈ t.published ∧ ∀ x ∈ t.icache, x.addr = la → Sys2Proof.Machine.inScope o.aux.toNat s.me.core x.core = false))

/-- 09 R235; 05 R113: HWAIT goes on 2 cc after it finds its state; HREL moves full to draining, or full or draining to free, and parks
every lane of `active(w)` with class 0x05 in any other state. -/
def Sys2Proof.Claims.HandleStates : Prop :=
  ∀ (o : Sys2Proof.Ops) (s : Sys2Proof.Machine.State) (sh : Sys2Proof.Shape), Sys2Proof.Claims.contributes s o ≠ [] →
    let h := s.uni o o.s1
    let st := (s.myTeam.handle h).state
    h < s.myTeam.handles.length →
    (s.mayRun (.hwaitFull o) sh o → ∃ t, Sys2Proof.Machine.exec (.hwaitFull o) s = .next t ∧
      (2 ≤ st → s.phase = 0 → Sys2Proof.Machine.LaneEffect s t (fun _ y => y) (fun _ => none) 2) ∧ (st < 2 → Sys2Proof.Claims.Waits s t)) ∧
    (s.mayRun (.hwaitFree o) sh o → ∃ t, Sys2Proof.Machine.exec (.hwaitFree o) s = .next t ∧
      (st = 0 → s.phase = 0 → Sys2Proof.Machine.LaneEffect s t (fun _ y => y) (fun _ => none) 2) ∧ (st ≠ 0 → Sys2Proof.Claims.Waits s t)) ∧
    (∀ claim : Bool, let i : Sys2Proof.Instr := if claim then .hrelClaim o else .hrelFree o
      s.mayRun i sh o → ∃ t, Sys2Proof.Machine.exec i s = .next t ∧
        ((if claim then st = 2 else 2 ≤ st) → Sys2Proof.Claims.setsHandle s t h (if claim then 3 else 0) ∧
          Sys2Proof.Machine.LaneEffect s { t with teams := s.teams } (fun _ y => y) (fun _ => none) 2) ∧
        (¬(if claim then st = 2 else 2 ≤ st) → s.me.hmode = false → ∀ l < 64, s.act.getLsbD l = true → (s.me.lane l).st = .running →
          (t.me.lane l).st = .parked ∧ ∃ r, (t.me.lane l).fault = some r ∧ r.cls = 5 ∧ r.info.toNat % 256 = st % 256))

/-- 09 R232-R234; 05 R113: COPY and CPRG hand their channel one line operation for each distinct destination line, count one on CP, and a
destination handle starts to fill. -/
def Sys2Proof.Claims.CopiesIssue : Prop :=
  ∀ (o : Sys2Proof.Ops) (s : Sys2Proof.Machine.State) (sh : Sys2Proof.Shape) (leaf : Nat → Sys2Proof.Machine.TlbEnt),
    s.noRoom .cp = false → Sys2Proof.Claims.storeLanes s sh o ≠ [] →
    (s.mayRun (.copy o) sh o → s.idxBad sh o = 0 →
      (∀ l ∈ Sys2Proof.Claims.storeLanes s sh o, Sys2Proof.Claims.copyReady s o l ∧ Sys2Proof.Claims.copyGranted s o leaf l) →
      (Sys2Proof.Claims.copyDir o = 0 → Sys2Proof.Claims.fillable s (Sys2Proof.Claims.copyHandle o) (o.imm.extractLsb' 6 3).toNat
        (o.imm.extractLsb' 9 4).toNat (o.imm.getLsbD 13)) →
      ∃ t, Sys2Proof.Machine.exec (.copy o) s = .next t ∧
        Sys2Proof.Claims.Copies s t (Sys2Proof.Claims.copyQueue o) ((Sys2Proof.Claims.storeLanes s sh o).map fun l =>
          (Sys2Proof.Claims.copyTo s o leaf l, Sys2Proof.Claims.copyFrom s o leaf l, Sys2Proof.Claims.copyBytes o)) ∧
        (Sys2Proof.Claims.copyDir o = 0 → Sys2Proof.Claims.fills s t (Sys2Proof.Claims.copyHandle o) (o.imm.extractLsb' 6 3).toNat
          (o.imm.extractLsb' 9 4).toNat) ∧
        (Sys2Proof.Claims.copyDir o ≠ 0 → t.teams = s.teams)) ∧
    (s.mayRun (.cprg o) sh o →
      let dir := Sys2Proof.Claims.copyDir o
      let r := s.region o.s1.val.toNat dir
      s.regionBad r dir = none → Sys2Proof.Claims.oneRow s r dir → Sys2Proof.Claims.regionGranted s r dir leaf →
      ∃ t, Sys2Proof.Machine.exec (.cprg o) s = .next t ∧
        Sys2Proof.Claims.Copies s t (Sys2Proof.Claims.copyQueue o)
          [(Sys2Proof.Claims.regionTo s r dir leaf, Sys2Proof.Claims.regionFrom s r dir leaf, r.rowBytes)] ∧
        (dir = 0 → Sys2Proof.Claims.fills s t r.handle r.layout r.fmt) ∧ (dir ≠ 0 → t.teams = s.teams))

/-- 09 R233; 17 R366; 06 R415: the channel sends the line operation that its round-robin picks, whose sources are read one way later; at
its delivery the line holds the bytes moved, as one event, and the operation is done with the line. -/
def Sys2Proof.Claims.CopyLines : Prop :=
  (∀ (s : Sys2Proof.Machine.State) (c q i : Nat) (r : List Nat) (ch : Sys2Proof.Machine.Channel), s.ev.a = c →
    (s.permitWait c).pickQueue 40 (s.channel c) = some (q, ch) → Sys2Proof.getP [] ch.queues q = i :: r → s.metered (s.lineop i).core = false →
    ∃ t, Sys2Proof.Machine.exec .copyLineSend s = .next t ∧ Sys2Proof.getP [] (t.channel c).queues q = r ∧ (t.lineop i).sent = some s.now ∧
      (∀ la ∈ (s.lineop i).srcLines, ∃ e ∈ t.agenda,
        e.act = .ev .copyLineDelivery ⟨i, 1, la, BitVec.ofNat 64 (s.genOf (s.partOfSector (c / 8)) la), []⟩ ∧
        let way := s.oneWay (96 * (c / 8)) (s.partOfSector (c / 8)) la (s.slrOf (s.lineop i).op la) false
        s.now + way ≤ e.at_ ∧ ((∃ d sl, s.homeOf (s.partOfSector (c / 8)) la = .slice d sl) → e.at_ = s.now + way)) ∧
      t.warps = s.warps ∧ t.teams = s.teams ∧ ∀ a, t.peekByte a = s.peekByte a) ∧
  (∀ (s : Sys2Proof.Machine.State) (i la : Nat),
    s.ev = ⟨i, 0, 0, BitVec.ofNat 64 (s.genOf (s.partOfSector ((s.lineop i).core / 96)) la), []⟩ → (s.lineop i).live = true → (s.lineop i).dstLine = some la →
    s.deliveryWaits (s.lineop i) = false → s.scan = none →
    Sys2Proof.Claims.deliverable s (s.partOfSector ((s.lineop i).core / 96)) la (s.slrOf (s.lineop i).op la) → 1 < (s.memop (s.lineop i).op).left →
    ∃ t, Sys2Proof.Machine.exec .copyLineDelivery s = .next t ∧ t.peekLine la = (s.lineop i).putLine (s.peekLine la) ∧
      (t.lineop i).live = false ∧
      t.memop (s.lineop i).op = { s.memop (s.lineop i).op with left := (s.memop (s.lineop i).op).left - 1 } ∧ t.warps = s.warps ∧ t.teams = s.teams) ∧
  (∀ (s : Sys2Proof.Machine.State) (i tm off hoff n : Nat) (h : Option Nat) (src : Sys2Proof.Machine.Place), s.ev = ⟨i, 0, 0, 0, []⟩ →
    (s.lineop i).live = true → (s.lineop i).moves = [(.scr tm off h hoff, src, n)] → 1 < (s.memop (s.lineop i).op).left →
    ∃ t, Sys2Proof.Machine.exec .copyLineDelivery s = .next t ∧
      (∀ a, Sys2Proof.Claims.scratchByte (t.team tm) a =
        Sys2Proof.Claims.store (Sys2Proof.Claims.scratchByte (s.team tm)) off n ((s.lineop i).moveVal 0 (.scr tm off h hoff, src, n)) a) ∧
      (∀ k, k ≠ tm → t.team k = s.team k) ∧ (t.lineop i).live = false ∧ t.warps = s.warps)

/-- 09 R236; 05 R129, R130: SEND sends one message for each lane that takes part, counted once on ST; a message that finds room is
written as one entry of its ring, and TAIL rises by one. -/
def Obligations.Messages : Prop :=
  (∀ (o : Sys2Proof.Ops) (s : Sys2Proof.Machine.State) (sh : Sys2Proof.Shape), s.mayRun (.send o) sh o → s.noRoom .st = false →
    let ls := Sys2Proof.Claims.storeLanes s sh o
    ls ≠ [] → ∃ t, Sys2Proof.Machine.exec (.send o) s = .next t ∧
      t.me = { s.me with lanes := t.me.lanes, oq := t.me.oq, hpc := t.me.hpc, retryAt := s.now + 1, st := s.me.st + 1 } ∧
      Sys2Proof.Machine.PcTo s t (fun _ => none) ∧ (∀ w, w ≠ s.cur → t.warp w = s.warp w) ∧ t.teams = s.teams ∧
      (∀ a, t.peekByte a = s.peekByte a) ∧
      ∃ op, (s.memop op).live = false ∧ (t.memop op).live = true ∧ (t.memop op).left = ls.length ∧ (t.memop op).ctr = .st ∧
        ∀ l ∈ ls, ∃ i, (s.msg i).live = false ∧
          t.msg i = ⟨true, op, s.me.core, s.myTeam.part, s.myTeam.num, s.me.num, s.myTeam.gridId, s.src o .i32 o.s1 l, o.imm.toNat % 2 ^ 16,
            (List.range (Sys2Proof.Claims.sendBytes o)).map fun k =>
              BitVec.ofNat 8 (s.readN o o.dstSrc ((Sys2Proof.Claims.sendBytes o + 3) / 4) l / 256 ^ k), none⟩ ∧
          ∃ e ∈ t.agenda, e.act = .ev .messageAppend ⟨i, 0, 0, 0, []⟩) ∧
  (∀ (s : Sys2Proof.Machine.State) (i n t0 : Nat), s.ev = ⟨i, 0, 0, 0, []⟩ →
    let m := s.msg i
    let r := (s.team t0).kern.ringOff
    let tail := (s.team t0).ringTail
    let size := (s.team t0).kern.ringN
    m.live = true → m.arrived = some n → s.msgBehind m n = false → s.teamSaved m.part m.gridId m.dest = false → s.teamSaved m.part m.gridId m.sender = false →
    s.teamOf m.part m.gridId m.dest = some t0 → 0 < size →
    (tail + 2 ^ 32 - Sys2Proof.Claims.scratchValue (Sys2Proof.Claims.scratchByte (s.team t0)) (r + 4) 4) % 2 ^ 32 < size →
    m.payload.length ≤ 60 →
    ∃ t, Sys2Proof.Machine.exec .messageAppend s = .next t ∧ (t.team t0).ringTail = (tail + 1) % 2 ^ 32 ∧
      Sys2Proof.Claims.scratchValue (Sys2Proof.Claims.scratchByte (t.team t0)) r 4 = (tail + 1) % 2 ^ 32 ∧
      (∀ k < 64, Sys2Proof.Claims.scratchByte (t.team t0) (r + 64 + 64 * (tail % size) + k) = Sys2Proof.Claims.ringEntry m k) ∧
      (∀ a, ¬(r ≤ a ∧ a < r + 4) → ¬(r + 64 + 64 * (tail % size) ≤ a ∧ a < r + 128 + 64 * (tail % size)) →
        Sys2Proof.Claims.scratchByte (t.team t0) a = Sys2Proof.Claims.scratchByte (s.team t0) a) ∧ (t.msg i).live = false)

/-- 03 R74, R75, R78, R80; 09 R252: PUSH spends a credit of each lane and appends its value behind the neighbour's queue, poppable after
the axis latency, and counts a discard for each lane without a neighbour; POP takes the oldest value of each lane, 0 at an open edge, and
returns the credit. A PUSH.rel waits for its drain set, and a POP.acq acquires once its values are taken (log entry 38). -/
def Sys2Proof.Claims.Ports : Prop :=
  ∀ (o : Sys2Proof.Ops) (s : Sys2Proof.Machine.State) (sh : Sys2Proof.Shape), s.idxBad sh o = 0 →
    let dir := (o.sub.extractLsb' 0 3).toNat
    let ordered := o.sub.getLsbD 3
    let ls := Sys2Proof.Claims.portLanes s o
    ls ≠ [] →
    (s.mayRun (.push o) sh o →
      (∀ l ∈ ls, Sys2Proof.Claims.noSide s o l ∨ ∃ v j, j < 64 ∧ Sys2Proof.Claims.side s o l = .conn v j ∧ 0 < (s.me.lane l).credit dir) →
      ¬(ordered = true ∧ Sys2Proof.Claims.beyond o = true ∧ Sys2Proof.Claims.storesOut s) →
      ∃ t, Sys2Proof.Machine.exec (.push o) s = .next t ∧
        (∀ l ∈ ls, ∀ v j, Sys2Proof.Claims.side s o l = .conn v j → (t.me.lane l).credit dir = (s.me.lane l).credit dir - 1 ∧
          ((∀ k ∈ ls, k ≠ l → Sys2Proof.Claims.side s o k ≠ .conn v j) →
            ((t.warp v).lane j).queue (Sys2Proof.Machine.opposite dir) =
              ((s.warp v).lane j).queue (Sys2Proof.Machine.opposite dir) ++ [⟨false, BitVec.ofNat 32 (s.src o .i32 o.s1 l)⟩])) ∧
        ((∃ l ∈ ls, ¬Sys2Proof.Claims.noSide s o l) → ∃ i, (s.xfer i).live = false ∧ (t.xfer i).live = true ∧
          (⟨s.now + Sys2Proof.Machine.portLat dir, .ev .portValueArrival ⟨i, 0, 0, 0, []⟩⟩ : Sys2Proof.Machine.Due) ∈ t.agenda) ∧
        t.myTeam.portDisc = s.myTeam.portDisc + (ls.filter fun l => Sys2Proof.Claims.noSide s o l).length ∧
        (∀ l < 64, ∀ k, Sys2Proof.getP 0 (t.me.lane l).v k = Sys2Proof.getP 0 (s.me.lane l).v k) ∧ Sys2Proof.Machine.PcTo s t (fun _ => none) ∧
        Sys2Proof.Claims.portTeam s t ∧
        t = { s with warps := t.warps, teams := t.teams, xfers := t.xfers, agenda := t.agenda, issued := true }) ∧
    (s.mayRun (.pop o) sh o →
      (∀ l ∈ ls, Sys2Proof.Claims.side s o l = .open_ ∨
        (Sys2Proof.Claims.side s o l ≠ .closed ∧ ((s.me.lane l).front dir).isSome = true)) →
      (ordered = true → ¬Sys2Proof.Claims.loadsOut s) →
      ∃ t u, Sys2Proof.Machine.exec (.pop o) s = .next t ∧
        (∀ l < 64, (u.me.lane l) = if l ∈ ls ∧ Sys2Proof.Claims.side s o l ≠ .open_ then (s.me.lane l).onQueue dir List.tail else s.me.lane l) ∧
        Sys2Proof.Machine.RegEffect u { t with l1 := u.l1, reqs := u.reqs } o 1 (fun l => decide (l ∈ ls))
          (fun l => ⟨if Sys2Proof.Claims.side s o l = .open_ then 0 else (((s.me.lane l).front dir).getD 0).toNat, none, none⟩)
          (fun _ => none) (if ordered then (if Sys2Proof.Claims.beyond o then 11 else 3) else 1) ∧
        ((ordered && Sys2Proof.Claims.beyond o) = true → Sys2Proof.Claims.l1Empty s t s.me.core) ∧
        ((ordered && Sys2Proof.Claims.beyond o) = false → t.l1 = s.l1 ∧ t.reqs = s.reqs) ∧
        ((∃ l ∈ ls, ∃ v j, Sys2Proof.Claims.side s o l = .conn v j) →
          ∃ i, (s.xfer i).live = false ∧ (u.xfer i).live = true ∧
            (⟨s.now + Sys2Proof.Machine.portLat dir, .ev .portCreditReturn ⟨i, 0, 0, 0, []⟩⟩ : Sys2Proof.Machine.Due) ∈ u.agenda) ∧
        (∀ w, w ≠ s.cur → u.warp w = s.warp w) ∧ Sys2Proof.Claims.portTeam s u ∧
        u = { s with warps := u.warps, teams := u.teams, xfers := u.xfers, agenda := u.agenda, issued := u.issued })

/-- 03 R74: a pushed value becomes poppable, and a credit reaches its sender, when its transfer arrives; nothing else changes. -/
def Sys2Proof.Claims.PortTransfers : Prop :=
  ∀ (s : Sys2Proof.Machine.State) (w l : Nat), l < 64 → s.xfer s.ev.a = ⟨true, [(w, l, (s.warp w).placed)], (s.xfer s.ev.a).dir⟩ →
    (s.warp w).live = true →
    let dir := (s.xfer s.ev.a).dir
    (∀ v r, ((s.warp w).lane l).queue dir = ⟨false, v⟩ :: r → ∃ t, Sys2Proof.Machine.exec .portValueArrival s = .next t ∧
      ((t.warp w).lane l).queue dir = ⟨true, v⟩ :: r ∧ ((t.warp w).lane l).front dir = some v ∧ (t.xfer s.ev.a).live = false ∧
      (∀ k, k ≠ w → t.warp k = s.warp k) ∧ t = { s with warps := t.warps, xfers := t.xfers }) ∧
    (∃ t, Sys2Proof.Machine.exec .portCreditReturn s = .next t ∧
      ((t.warp w).lane l).credit dir = min 4 (((s.warp w).lane l).credit dir + 1) ∧ (t.xfer s.ev.a).live = false ∧
      (∀ k, k ≠ w → t.warp k = s.warp k) ∧ t = { s with warps := t.warps, xfers := t.xfers })

/-! ## Reading status; spawning; launching -/

namespace Sys2Proof.Claims
open Sys2Proof Sys2Proof.Machine

/-- The word of a neighbour port: kind of edge, credits held and values queued (09 R253). -/
def portStatus (s : State) (o : Ops) (l : Nat) : Nat :=
  let d := (o.sub.extractLsb' 0 3).toNat
  let queued := (((s.me.lane l).queue d).filter fun v => v.ready).length
  match side s o l with
  | .conn _ _ => 2 ^ 4 * (s.me.lane l).credit d + queued
  | .open_ => 2 ^ 8 * 1 + 2 ^ 4 * 4
  | .closed => 2 ^ 8 * 2
  | .retired => 2 ^ 8 * 3 + 2 ^ 4 * 4 + queued
/-- The oldest value of a lane's port that can be seen (09 R253). -/
def portFront (s : State) (o : Ops) (l : Nat) : Option Word :=
  match side s o l with
  | .open_ => none
  | .closed => none
  | _ => (s.me.lane l).front (o.sub.extractLsb' 0 3).toNat
/-- The bin that an instruction names: by its label or by a scalar pair (09 R246). -/
def entryOf (s : State) (o : Ops) (direct : Bool) : DWord :=
  if direct then s.ipc + (o.imm.setWidth 32).signExtend 64 else BitVec.ofNat 64 (s.me.sregN o.s2.val.toNat 2)
def binAt (s : State) (o : Ops) (direct : Bool) (b : Nat) : Prop := s.binOf (s.partOf s.cur) (entryOf s o direct) = some b
/-- The state word of a lease handle (10 R273). -/
def leaseWord (s : State) (h : Word) : Nat :=
  let sl := s.myTeam.slotOf (h.toNat % 8)
  if h = 0 ∨ sl.handle ≠ h then 0
  else match sl.lease with
    | none => if sl.revoked then 2 ^ 29 * 4 + 2 ^ 22 * (h.toNat / 8 % 8) else 0
    | some l =>
      let x := s.lease l
      let st := if x.grace.isSome then 3 else if x.ready then 2 else 1
      let left := (x.grace.map fun g => (g.1 - s.now + 255) / 256).getD 0
      2 ^ 29 * st + 2 ^ 25 * x.engines.length + 2 ^ 22 * x.cls +
        2 ^ 16 * min 63 (s.cmds.filter fun c => c.live && c.lease == some l).length + 2 ^ 7 * left
/-- The status word of a ticket: `STALE` where the slot has served another command (10 R277). -/
def ticketWord (s : State) (t : Nat) : Nat :=
  let k := getP ticketIdle s.me.tickets (t % 64)
  if t / 64 ≠ 0 ∧ k.seq = t / 64 then k.status else 10
/-- The lanes of the warp in a state, as a mask. -/
def lanesIn (s : State) (q : LaneSt) : Nat := ((List.range 64).map fun l => if (s.me.lane l).st = q then 2 ^ l else 0).sum
/-- The handler status values (15 R328). -/
def handlerStatus (s : State) (sel : Nat) : Nat :=
  match sel with
  | 0 => s.me.cause.cls % 256 + 2 ^ 8 * (s.me.cause.subcode % 256) + (if ∃ l < 64, (s.me.lane l).st = .parked then 2 ^ 16 else 0)
  | 1 => lanesIn s .parked
  | 2 => lanesIn s .held
  | 3 => lanesIn s .exited
  | 4 => s.me.cause.addr.toNat
  | 5 => s.me.cause.word.toNat
  | _ => ((List.range 64).map fun l => if (s.me.lane l).helper then 2 ^ l else 0).sum
/-- Word `k` of a lane's fault record (15 R325). -/
def faultWord (y : Lane) (k : Nat) : Nat :=
  match y.fault with
  | none => 0
  | some r =>
    match k with
    | 0 => r.cls % 256 + 2 ^ 8 * (r.subcode % 256) + (if r.slot then 2 ^ 16 else 0) + (if r.write then 2 ^ 17 else 0) + 2 ^ 18 * (r.size % 8) +
      (if r.fetch then 2 ^ 21 else 0)
    | 1 => r.info.toNat
    | 2 => r.pc.toNat % 2 ^ 32
    | 3 => r.pc.toNat / 2 ^ 32
    | 4 => r.addr.toNat % 2 ^ 32
    | 5 => r.addr.toNat / 2 ^ 32
    | _ => 0
/-- The counters of a quarter (15 R331). -/
def counterOf (s : State) (sel : Nat) : Nat :=
  let q := s.quarter s.me.unit
  if sel = 0 then q.rfcomp.toNat else if sel = 1 then q.issued.toNat else (s.now - s.resetAt + 2 ^ 32 - q.issued.toNat) % 2 ^ 32

/-- An instruction that reads a status: where it has one to read, the registers of its destination, and what each lane gets. -/
structure StatusRow where
  instr : Ops → Instr
  form : State → Ops → Prop
  regs : Nat
  value : State → Ops → Nat → AluOut
def always (s : State) (o : Ops) : Prop := contributes s o ≠ []
/-- One value for every lane. -/
def uniform (v : Nat) (_l : Nat) : AluOut := ⟨v, none, none⟩

def statusRows : List StatusRow := [
  ⟨.cntrd, always, 1, fun s o => uniform (if o.sub = 0 then s.me.ld + 2 ^ 8 * s.me.st + 2 ^ 16 * s.me.cp + 2 ^ 24 * s.me.tl else s.myTeam.sendDisc)⟩,
  ⟨.hwp, fun s o => always s o ∧ s.uni o o.s1 < s.myTeam.handles.length, 1,
    fun s o => uniform (let h := s.myTeam.handle (s.uni o o.s1); if h.changed = s.now then h.before.2 else h.wptr)⟩,
  ⟨.peek, always, 1, fun s o l => ⟨((portFront s o l).getD 0).toNat, none, some (portFront s o l).isSome⟩⟩,
  ⟨.pstat, always, 1, fun s o l => ⟨portStatus s o l, none, none⟩⟩,
  ⟨.estat, always, 1, fun s o => uniform (leaseWord s (s.me.sreg o.s1.val.toNat))⟩,
  ⟨.epoll, always, 1, fun s o => uniform (ticketWord s (s.me.sreg o.s1.val.toNat).toNat)⟩,
  ⟨.pmrd, always, 1, fun s o => uniform (counterOf s o.sub.toNat)⟩,
  ⟨.hfrd, always, 1, fun s o l => ⟨faultWord (s.me.lane l) o.sub.toNat, none, none⟩⟩,
  ⟨.hsrd, always, 2, fun s o => uniform (handlerStatus s o.sub.toNat)⟩]

/-- The discards of this cycle at the open edges of the team's ports, and the count that a read gets: those of this cycle come after it
(02 R414; 09 R254). -/
def discardsNow (s : State) : Nat := if s.myTeam.discNow.1 = s.now then s.myTeam.discNow.2 else 0
def discardCount (s : State) : Nat := min (2 ^ 32 - 1) (s.myTeam.portDisc - discardsNow s)
/-- The coordinates of a team in its port map (09 R254): NZ − 1 in bit 24, NY − 1 from bit 16, z in bit 8, y from bit 0. -/
def coordinates (s : State) : Nat :=
  2 ^ 24 * (s.myTeam.kern.nz - 1) + 2 ^ 16 * (s.myTeam.kern.ny - 1) + 2 ^ 8 * s.myTeam.z + s.myTeam.y

/-- The records that a `SPAWN` brings, in increasing lane order (09 R246). -/
def spawned (s : State) (o : Ops) : List BinRec :=
  ((contributes s o).filter fun l => !(s.me.lane l).helper).map fun l =>
    BinRec.ofWords ((List.range (o.aux.toNat + 1)).map fun k => s.me.reg l (o.s1.val.toNat + k))
/-- Records enter a bin (02 R49-R51): they stand behind its records, or, where that makes a threshold of them, the first threshold of
records is a launch due 160 cc later; the timer runs from the first record. -/
def binEnters (s t : State) (b : Nat) (recs : List BinRec) (asid prio : Nat) : Prop :=
  let x := s.bin b
  let n := if x.sheaf then 256 else 64
  let all := x.recs ++ recs
  let full := n ≤ all.length
  (∀ k, k ≠ b → t.bin k = s.bin k) ∧
  t.bin b = { x with
    asid := asid
    prio := if x.recs.length + (x.due.map fun d => d.2.2.length).sum = 0 then prio else x.prio
    recs := if full then all.drop n else all
    due := if full then x.due ++ [(0, s.now + 160, all.take n)] else x.due
    expires := if full then (if all.length = n then none else some (s.now + x.timer))
      else if x.recs = [] then some (s.now + x.timer) else x.expires } ∧
  (full → (t.part x.part).dueBins = (s.part x.part).dueBins ++ [b]) ∧ (¬full → t.parts = s.parts) ∧
  (x.recs = [] → (⟨s.now + x.timer, .ev .binTimerExpiry ⟨b, 0, 0, 0, []⟩⟩ : Due) ∈ t.agenda)
/-- A bin launches every record it holds: fewer than a threshold (02 R51). -/
def launches (s t : State) (b cause : Nat) : Prop :=
  (∀ k, k ≠ b → t.bin k = s.bin k) ∧
  t.bin b = { s.bin b with recs := [], due := (s.bin b).due ++ [(cause, s.now + 160, (s.bin b).recs)], expires := none } ∧
  (t.part (s.bin b).part).dueBins = (s.part (s.bin b).part).dueBins ++ [b]

/-- The pool entry and the sequence number that a launch handle names (09 R249). -/
def poolOf (s : State) (h : Nat) : PoolEnt := (s.part (s.partOf s.cur)).entry (h % 2 ^ 13)
def childRuns (s : State) (h : Nat) : Prop := h / 2 ^ 13 ≠ 0 ∧ (poolOf s h).busy = true ∧ (poolOf s h).seq = h / 2 ^ 13
/-- The status of a child that has retired; `STALE` for a handle whose entry has served another grid (09 R250). -/
def childStatus (s : State) (h : Nat) : Nat := if h / 2 ^ 13 ≠ 0 ∧ (poolOf s h).lastSeq = h / 2 ^ 13 then (poolOf s h).lastSt else 7
/-- The running warp holds the team leader, which takes part (02 R41; 08 R199). -/
def leads (s : State) (o : Ops) : Prop :=
  ∃ l, s.leader s.me.team = some (s.cur, l) ∧ s.pass o l = true ∧ (s.me.lane l).helper = false

end Sys2Proof.Claims

/-- 09 R235, R245, R247, R253; 10 R273, R277; 15 R328, R331: the instructions that read a status write it to their destination and change
nothing else. -/
def Obligations.StatusReads : Prop :=
  (∀ p ∈ Sys2Proof.Claims.statusRows, ∀ (o : Sys2Proof.Ops) (s : Sys2Proof.Machine.State) (sh : Sys2Proof.Shape),
    s.mayRun (p.instr o) sh o → s.idxBad sh o = 0 → p.form s o →
    ∃ t, Sys2Proof.Machine.exec (p.instr o) s = .next t ∧ Sys2Proof.Machine.RegEffect s t o p.regs (s.pass o) (p.value s o)) ∧
  (∀ (o : Sys2Proof.Ops) (s : Sys2Proof.Machine.State) (sh : Sys2Proof.Shape) (b : Nat), s.mayRun (.bstat o) sh o → s.idxBad sh o = 0 →
    Sys2Proof.Claims.binAt s o (o.sub = 0) b →
    ∃ t, Sys2Proof.Machine.exec (.bstat o) s = .next t ∧ Sys2Proof.Machine.RegEffect s t o 1 (s.pass o)
      (Sys2Proof.Claims.uniform ((s.bin b).recs.length + ((s.bin b).due.map fun d => d.2.2.length).sum)))

/-- 09 R254: PDRD writes the team's port-discard count and PMAP its coordinates to a scalar, vector or indexed destination, ready 2 cc after issue;
`PDRD.clr` leaves the discards of its own cycle in the count, which are seen after it. Other sub-opcodes are illegal. -/
def Obligations.PortCounts : Prop :=
  (∀ (o : Sys2Proof.Ops) (s : Sys2Proof.Machine.State) (sh : Sys2Proof.Shape), s.idxBad sh o = 0 →
    (s.mayRun (.pdrd o) sh o → ∃ t, Sys2Proof.Machine.exec (.pdrd o) s = .next t ∧
      Sys2Proof.Machine.RegEffect s t o 1 (s.pass o) (Sys2Proof.Claims.uniform (Sys2Proof.Claims.discardCount s))) ∧
    (s.mayRun (.pmap o) sh o → ∃ t, Sys2Proof.Machine.exec (.pmap o) s = .next t ∧
      Sys2Proof.Machine.RegEffect s t o 1 (s.pass o) (Sys2Proof.Claims.uniform (Sys2Proof.Claims.coordinates s))) ∧
    (s.mayRun (.pdrdClr o) sh o → Sys2Proof.Claims.contributes s o ≠ [] → ∃ t, Sys2Proof.Machine.exec (.pdrdClr o) s = .next t ∧
      Sys2Proof.Machine.RegEffect s { t with teams := s.teams } o 1 (s.pass o) (Sys2Proof.Claims.uniform (Sys2Proof.Claims.discardCount s)) ∧
      t.myTeam = { s.myTeam with portDisc := Sys2Proof.Claims.discardsNow s } ∧ ∀ k, k ≠ s.me.team → t.team k = s.team k) ∧
    (s.mayRun (.pdrdClr o) sh o → Sys2Proof.Claims.contributes s o = [] → ∃ t, Sys2Proof.Machine.exec (.pdrdClr o) s = .next t ∧
      Sys2Proof.Machine.LaneEffect s t fun _ y => y)) ∧
  Sys2Proof.Claims.Timed .pdrd 0xC0 (fun _ => 2) ∧ Sys2Proof.Claims.Timed .pdrdClr 0xC0 (fun _ => 2) ∧
  Sys2Proof.Claims.Timed .pmap 0xC1 (fun _ => 2) ∧
  Sys2Proof.Claims.SubsListed 0xC0 (fun n => decide (n ≤ 1)) ∧ Sys2Proof.Claims.SubsListed 0xC1 (fun n => decide (n = 0)) ∧
  (∀ (d : BitVec 8) (k : Sys2Proof.DKind), (k = .vec ∨ k = .idx ∨ (k = .scal ∧ d < 64)) →
    let o : Sys2Proof.Ops := { Sys2Proof.bareOps 0 0 0 0 0 0 with dst := d, kd := k }
    (Sys2Proof.Instr.pdrd o).wf = true ∧ (Sys2Proof.Instr.pdrdClr { o with sub := 1 }).wf = true ∧ (Sys2Proof.Instr.pmap o).wf = true)

/-- 09 R246; 02 R49-R52: SPAWN stands at its bin 8 cc after its issue; its records enter together, and the warp goes on 4 cc later, or wait
where the bin has no room. -/
def Sys2Proof.Claims.Spawning : Prop :=
  ∀ (o : Sys2Proof.Ops) (s : Sys2Proof.Machine.State) (sh : Sys2Proof.Shape) (b : Nat) (direct : Bool),
    let i : Sys2Proof.Instr := if direct then .spawnDirect o else .spawnIndirect o
    let recs := Sys2Proof.Claims.spawned s o
    let x := s.bin b
    let n := if x.sheaf then 256 else 64
    let held := x.recs.length + (x.due.map fun d => d.2.2.length).sum
    let room := 4 * n - held - (if x.freed.1 = s.now then x.freed.2 else 0)
    s.mayRun i sh o → recs ≠ [] → Sys2Proof.Claims.binAt s o direct b → (x.asid = s.myTeam.asid ∨ (held = 0 ∧ x.waiting = [])) →
    (s.phase = 0 → ∃ t, Sys2Proof.Machine.exec i s = .next t ∧ Sys2Proof.Claims.Waits s t) ∧
    (s.phase = 1 → s.since + 8 ≤ s.now → x.waiting = [] → recs.length ≤ room → x.recs.length < n →
      ∃ t, Sys2Proof.Machine.exec i s = .next t ∧ Sys2Proof.Claims.binEnters s t b recs s.myTeam.asid s.myTeam.prio ∧
        Sys2Proof.Machine.LaneEffect s { t with bins := s.bins, parts := s.parts, agenda := s.agenda } (fun _ y => y) (fun _ => none) 4) ∧
    (s.phase = 1 → s.since + 8 ≤ s.now → (x.waiting ≠ [] ∨ room < recs.length) →
      ∃ t, Sys2Proof.Machine.exec i s = .next t ∧ Sys2Proof.Claims.Waits s t ∧ (∀ k, k ≠ b → t.bin k = s.bin k) ∧
        t.bin b = { x with waiting := x.waiting ++ [⟨recs, false, s.myTeam.asid, s.myTeam.prio, none, some s.cur⟩] })

/-- 02 R50, R51; 09 R247: the records at the head of a full bin's arrivals enter as soon as there is room, and their SPAWN completes; a timer
that expires and BFLUSH launch a bin with the records it holds. -/
def Sys2Proof.Claims.BinEvents : Prop :=
  (∀ (s : Sys2Proof.Machine.State) (b w : Nat) (a : Sys2Proof.Machine.BinArr) (r : List Sys2Proof.Machine.BinArr) (q : Sys2Proof.Machine.Stalled),
    let x := s.bin b
    let n := if x.sheaf then 256 else 64
    s.ev = ⟨b, 0, 0, 0, []⟩ → x.live = true → x.waiting = a :: r → a.quad = false → a.recs ≠ [] → a.recs.length ≤ 64 → a.warp = some w →
    a.recs.length ≤ 4 * n - (x.recs.length + (x.due.map fun d => d.2.2.length).sum) - (if x.freed.1 = s.now then x.freed.2 else 0) →
    x.recs.length < n → (s.warp w).stalled = some q → (s.warp w).hmode = false →
    ∃ t, Sys2Proof.Machine.exec .binWaitingEntry s = .next t ∧
      Sys2Proof.Claims.binEnters (s.onBin b fun y => { y with waiting := r }) t b a.recs a.asid a.prio ∧
      (t.warp w).stalled = none ∧ (t.warp w).retryAt = s.now + 4 ∧
      (∀ l < 64, let y := (s.warp w).lane l
        ((t.warp w).lane l).pc = (if y.st = .running ∧ y.failing = none ∧ y.pc = q.pc then BitVec.ofNat 64 q.datum else y.pc) ∧
          ∀ k, Sys2Proof.getP 0 ((t.warp w).lane l).v k = Sys2Proof.getP 0 y.v k) ∧
      (∀ v, v ≠ w → t.warp v = s.warp v) ∧ t.teams = s.teams ∧ ∀ a, t.peekByte a = s.peekByte a) ∧
  (∀ (s : Sys2Proof.Machine.State) (b : Nat), s.ev.a = b → (s.bin b).live = true → (s.bin b).expires = some s.now → (s.bin b).recs ≠ [] →
    (s.bin b).recs.length < (if (s.bin b).sheaf then 256 else 64) →
    ∃ t, Sys2Proof.Machine.exec .binTimerExpiry s = .next t ∧ Sys2Proof.Claims.launches s t b 1 ∧ t = { s with bins := t.bins, parts := t.parts }) ∧
  (∀ (o : Sys2Proof.Ops) (s : Sys2Proof.Machine.State) (sh : Sys2Proof.Shape) (b : Nat), s.mayRun (.bflush o) sh o →
    Sys2Proof.Claims.contributes s o ≠ [] → Sys2Proof.Claims.binAt s o (o.sub = 0) b →
    (s.bin b).recs.length < (if (s.bin b).sheaf then 256 else 64) →
    ∃ t, Sys2Proof.Machine.exec (.bflush o) s = .next t ∧
      Sys2Proof.Machine.LaneEffect s { t with bins := s.bins, parts := s.parts } (fun _ y => y) ∧
      ((s.bin b).recs ≠ [] → Sys2Proof.Claims.launches s t b 2) ∧ ((s.bin b).recs = [] → t.bins = s.bins ∧ t.parts = s.parts))

/-- 09 R248-R250: LAUNCH by the team leader takes a pool entry for a child grid and answers its handle, and status 0 in PD; another lane, a bad
count, a full depth or a full pool answers its status and launches nothing. LWAIT waits until the child has retired, LPOLL answers at once, and
each acquires at DEVICE scope when it gets a final status: behind earlier loads the warp's next instruction waits (log entry 92). -/
def Obligations.Launches : Prop :=
  ∀ (o : Sys2Proof.Ops) (s : Sys2Proof.Machine.State) (sh : Sys2Proof.Shape), s.act ≠ 0 →
    let p := s.partOf s.cur
    let i := o.imm.toNat % 2 ^ 16
    let n := s.uni o o.s1
    let h := (s.me.sreg o.s1.val.toNat).toNat
    let launched (t : Sys2Proof.Machine.State) : Sys2Proof.Machine.State :=
      ({ t with parts := s.parts, grids := s.grids } : Sys2Proof.Machine.State).setMe { t.me with busyTo := s.me.busyTo }
    (s.mayRun (.launch o) sh o → i < (s.part p).templates.length →
      (∀ e, Sys2Proof.Claims.leads s o → 1 ≤ n → n ≤ 2 ^ 24 → s.myTeam.depth ≠ 10 → s.poolFree p = some e →
        ∃ t g, Sys2Proof.Machine.exec (.launch o) s = .next t ∧
          let seq := ((s.part p).entry e).seq % (2 ^ 19 - 1) + 1
          Sys2Proof.Machine.RegEffect s (launched t) o 2 (s.pass o) (fun _ => ⟨e + 2 ^ 13 * seq, none, some true⟩) ∧
          t.me.busyTo = s.now + 24 ∧ (s.grid g).st = .free ∧ (t.grid g).st = .pending ∧ (t.grid g).part = p ∧
          (t.grid g).kern = Sys2Proof.getP Sys2Proof.Machine.Kernel.idle (s.part p).templates i ∧ (t.grid g).nteams = n ∧
          (t.grid g).depth = s.myTeam.depth + 1 ∧ (t.grid g).asid = s.myTeam.asid ∧ (t.grid g).prio = s.myTeam.prio ∧
          (t.grid g).ctx = s.myTeam.ctx ∧ (t.grid g).pool = some e ∧ (t.grid g).readyAt = s.now + 520 ∧
          (t.grid g).args = (List.range 8).map (fun j => s.me.sreg (o.s3.val.toNat + j)) ∧ (t.grid g).id ≠ 0 ∧ (t.grid g).id ≠ 0xFFFFFFFF ∧
          ((t.part p).entry e).busy = true ∧ ((t.part p).entry e).seq = seq ∧ (∀ k, k ≠ e → (t.part p).entry k = (s.part p).entry k) ∧
          (∀ k, k ≠ p → t.part k = s.part k)) ∧
      (∀ st, s.selected s.cur = false →
        (st = 3 ∧ s.leader s.me.team ≠ none ∧ ¬Sys2Proof.Claims.leads s o ∨
          Sys2Proof.Claims.leads s o ∧ (st = 4 ∧ (n = 0 ∨ 2 ^ 24 < n) ∨ 1 ≤ n ∧ n ≤ 2 ^ 24 ∧
            (st = 2 ∧ s.myTeam.depth = 10 ∨ st = 1 ∧ s.myTeam.depth ≠ 10 ∧ s.poolFree p = none))) →
        ∃ t, Sys2Proof.Machine.exec (.launch o) s = .next t ∧
          Sys2Proof.Machine.RegEffect s (launched t) o 2 (s.pass o) (fun _ => ⟨2 ^ 32 * st, none, some false⟩) ∧
          t.me.busyTo = s.now + 24 ∧ t.parts = s.parts ∧ t.grids = s.grids)) ∧
    (s.mayRun (.lwait o) sh o →
      (Sys2Proof.Claims.childRuns s h → ∃ t, Sys2Proof.Machine.exec (.lwait o) s = .next t ∧ Sys2Proof.Claims.Waits s t) ∧
      (¬Sys2Proof.Claims.childRuns s h → ¬Sys2Proof.Claims.loadsOut s → (s.phase = 0 ∨ (s.phase = 1 ∧ (Sys2Proof.Claims.poolOf s h).lastAt < s.now)) →
        ∃ t, Sys2Proof.Machine.exec (.lwait o) s = .next t ∧
          Sys2Proof.Machine.RegEffect s { t with l1 := s.l1, reqs := s.reqs } o 1 (s.pass o)
            (Sys2Proof.Claims.uniform (Sys2Proof.Claims.childStatus s h)) (fun _ => none)
            (if s.phase = 0 then 8 else max 1 ((Sys2Proof.Claims.poolOf s h).lastAt + 60 - s.now)) ∧
          Sys2Proof.Claims.l1Empty s t s.me.core)) ∧
    (s.mayRun (.lpoll o) sh o → Sys2Proof.Claims.contributes s o ≠ [] → ∃ t, Sys2Proof.Machine.exec (.lpoll o) s = .next t ∧
      (Sys2Proof.Claims.childRuns s h → Sys2Proof.Machine.RegEffect s t o 1 (s.pass o) (Sys2Proof.Claims.uniform (2 ^ 32 - 1))) ∧
      (¬Sys2Proof.Claims.childRuns s h → ¬Sys2Proof.Claims.loadsOut s → Sys2Proof.Claims.l1Empty s t s.me.core ∧
        Sys2Proof.Machine.RegEffect s { t with l1 := s.l1, reqs := s.reqs } o 1 (s.pass o)
          (Sys2Proof.Claims.uniform (Sys2Proof.Claims.childStatus s h))) ∧
      (¬Sys2Proof.Claims.childRuns s h → Sys2Proof.Claims.loadsOut s → t.me.acq = some (true, s.bound, 1) ∧
        Sys2Proof.Machine.RegEffect s (t.setMe { t.me with acq := s.me.acq }) o 1 (s.pass o)
          (Sys2Proof.Claims.uniform (Sys2Proof.Claims.childStatus s h))))

/-! ## Matrix arrays -/

namespace Sys2Proof.Claims
open Sys2Proof Sys2Proof.Machine

/-- A tile operation of the warp that is not complete owns accumulator `m` (10 R259). -/
def owned (s : State) (m : Nat) : Prop := ∃ k ∈ s.tileops, k.owns s.cur m = true
/-- An instruction that gives the elements of accumulator `m` the values `f` and changes nothing else (10 R265). -/
def SetsAcc (s t : State) (m : Nat) (f : Nat → Nat → Word) : Prop :=
  (∀ r < 16, ∀ c < 16, t.me.acc m r c = f r c) ∧ (∀ k, k ≠ m → ∀ r < 16, ∀ c < 16, t.me.acc k r c = s.me.acc k r c) ∧
    LaneEffect s (t.setMe { t.me with m := s.me.m }) fun _ y => y
/-- An instruction that acts at once on the accumulators it names. -/
structure AccRow where
  instr : Ops → Instr
  names : Ops → List Nat
  value : State → Ops → Nat → Nat → Word
def accRows : List AccRow := [
  ⟨.mzero, fun o => [o.dst.toNat], fun _ _ _ _ => 0⟩,
  ⟨.mwr, fun o => [o.dst.toNat], fun s o r c =>
    if s.pass o (4 * r + c / 4) then s.me.reg (4 * r + c / 4) (o.s1.val.toNat + c % 4) else s.me.acc o.dst.toNat r c⟩,
  ⟨.mcpy, fun o => [o.dst.toNat, o.s1.val.toNat], fun s o r c => s.me.acc o.s1.val.toNat r c⟩,
  ⟨.mscl, fun o => [o.dst.toNat], fun s o r c => BitVec.ofNat 32 (fp32.flush o.ftz (fp32.round o.rm
    ((fp32.decode (fp32.flush o.ftz (s.me.acc o.dst.toNat r c).toNat)).mul (fp32.decode (fp32.flush o.ftz (s.src o .f32 o.s1 0))))))⟩,
  ⟨.mtrn, fun o => [o.dst.toNat, o.s1.val.toNat], fun s o r c => s.me.acc o.s1.val.toNat c r⟩]
/-- The four words of an accumulator that a lane reads (10 R265). -/
def accWords (s : State) (m l : Nat) : Nat :=
  let w (j : Nat) : Nat := (s.me.acc m (l / 4) (4 * (l % 4) + j)).toNat
  w 0 + 2 ^ 32 * w 1 + 2 ^ 64 * w 2 + 2 ^ 96 * w 3

/-- The accumulator-busy trap is due, and nothing has executed (10 R259). -/
def BusyTrap (s t : State) (m : Nat) : Prop :=
  t.issued = false ∧ ∃ pc,
    t.me = { s.me with retryAt := s.now + 1, stalled := t.me.stalled, traps := s.me.traps ++ [⟨0x09, 0, pc, BitVec.ofNat 32 m⟩] } ∧
      (∃ k ∈ s.tileops, k.owns s.cur m = true ∧ k.pc = pc) ∧ (∀ w, w ≠ s.cur → t.warp w = s.warp w) ∧
      t = { s with warps := t.warps, issued := false }

/-- The other warps of the running warp's sheaf, and a sheaf that can meet here: four warps, all lanes active, none waiting elsewhere
(02 R36, R37). -/
def mates (s : State) : List Nat := (s.sheaf s.cur).filter fun v => v != s.cur
def meets (s : State) : Prop :=
  s.act = BitVec.allOnes 64 ∧ (s.sheaf s.cur).length = 4 ∧ ∀ v ∈ mates s, (s.warp v).rdv = none ∨ (s.warp v).rdv = some s.ipc
/-- The warp has arrived at a sheaf-collective instruction: where it is the last, all of them issue in the next cycle (02 R36). -/
def arrivedSheaf (s t : State) : Prop :=
  t.issued = false ∧ (t.me.rdv = some s.ipc) ∧ (∀ l < 64, t.me.lane l = s.me.lane l) ∧ t.tileops = s.tileops ∧ t.me.m = s.me.m ∧
    ((∀ v ∈ mates s, (s.warp v).rdv = some s.ipc) → t.me.rdvAt = s.now + 1 ∧ ∀ v ∈ mates s, t.warp v = { s.warp v with rdvAt := s.now + 1 }) ∧
    ((∃ v ∈ mates s, (s.warp v).rdv = none) → t.me.rdvAt = 0 ∧ ∀ v ∈ mates s, t.warp v = s.warp v)
/-- The operation stands in its quarter's order, counted on TL, and the warp moves on (10 R260). -/
def Queues (s t : State) (kind : TileKind) (from_ : Nat) (op : Option Nat) : Prop :=
  (∃ i, (s.tileop i).live = false ∧
    t.tileop i = ⟨true, s.cur, s.me.unit, kind, s.ipc, from_, false, false, 0, s.seq, op, (t.tileop i).ready⟩ ∧
    ∀ j, j ≠ i → t.tileop j = s.tileop j) ∧
  t.me.tl = s.me.tl + 1 ∧ t.seq = s.seq + 1
/-- What else the issue of a sheaf-collective operation changes: its warp's rendezvous is over. -/
def onlyQueues (s t : State) : Prop :=
  LaneEffect s (({ t with tileops := s.tileops, seq := s.seq } : State).setMe { t.me with tl := s.me.tl, rdv := s.me.rdv, rdvAt := s.me.rdvAt })
    (fun _ y => y) ∧ t.me.rdv = none

/-- Where stored weight (k, n) stands in the registers of a sheaf: the number of the warp in its sheaf, the lane, the element (10 R262). -/
def weightWarp (fmt k : Nat) : Nat := k / (storedK fmt / 4)
def weightLane (fmt k n : Nat) : Nat := 16 * (k % (storedK fmt / 4) / (storedK fmt / 16)) + n
def weightElem (fmt k : Nat) : Nat := k % (storedK fmt / 16)
/-- The weight tile of `MLDW`: codes and scale bytes of the lanes that supply them, +0 where the lane does not pass (10 R262). -/
def suppliesWeights (s : State) (o : Ops) (ws : WSlot) : Prop :=
  let fmt := o.subN % 16
  ws.fmt = fmt ∧ ws.rows = storedK fmt ∧ ws.sparse = decide (16 ≤ o.subN) ∧
  ∀ k < storedK fmt, ∀ n < 16,
    let u := s.mate (weightWarp fmt k)
    let l := weightLane fmt k n
    getP 0 ws.wts (16 * k + n) = (if u.pass o l then packedElem fmt (u.readN o o.s1 1 l) (weightElem fmt k) else zeroCode fmt) ∧
      getP 0 ws.scales (16 * k + n) = u.src o .i32 o.s2 l % 256
/-- The activations of `MSTR`: element `p` of row `r` (10 R264). -/
def activation (s : State) (o : Ops) (fmt kl r p : Nat) : Nat :=
  let per := if fmt = 3 then 8 else if fmt = 1 ∨ fmt = 2 then 4 else 2
  let l := 4 * r + p / (kl / 4)
  let i := p % (kl / 4)
  if s.pass o l then packedElem fmt (s.me.reg l (o.s1.val.toNat + i / per)).toNat (i % per) else zeroCode fmt
/-- One element after a stream over a dense slot: the groups of four products are added in order, each rounded once (10 R264; 04 R99). -/
def streamed (ws : WSlot) (fmt kl : Nat) (acts scales : List (List Nat)) (acc r n : Nat) : Nat :=
  (List.range (kl / 4)).foldl (fun c g => fp32.round .rne ((fp32.decode c).add .rne (groupSum ((List.range 4).map fun i =>
    mprod fmt (getP 0 (getP [] acts r) (4 * g + i)) (getP 0 (getP [] scales r) ((4 * g + i) / (kl / 4))) ws.fmt
      (getP 0 ws.wts (16 * (4 * g + i) + n)) (getP 0 ws.scales (16 * (4 * g + i) + n)))))) acc
/-- The bytes of the accesses of a tile in scratch, written in order. -/
def tileStored (m : Nat → Byte) (accs : List Acc) : Nat → Byte := accs.foldl (fun m a => store m a.pa a.size a.data.toNat) m

end Sys2Proof.Claims

/-- 10 R259, R265: with its accumulators free MZERO, MWR, MCPY, MSCL and MTRN set every element of one, MRD reads one into four registers of each
lane; with one owned the accumulator-busy trap is due instead. MSYN waits until none of its accumulators is owned. -/
def Sys2Proof.Claims.Accumulators : Prop :=
  ∀ (o : Sys2Proof.Ops) (s : Sys2Proof.Machine.State) (sh : Sys2Proof.Shape), Sys2Proof.Claims.contributes s o ≠ [] →
    (∀ p ∈ Sys2Proof.Claims.accRows, s.mayRun (p.instr o) sh o → ∃ t, Sys2Proof.Machine.exec (p.instr o) s = .next t ∧
      ((∀ m ∈ p.names o, ¬Sys2Proof.Claims.owned s m) → Sys2Proof.Claims.SetsAcc s t o.dst.toNat (p.value s o)) ∧
      ((∃ m ∈ p.names o, Sys2Proof.Claims.owned s m) → s.me.hmode = false → ∃ m ∈ p.names o, Sys2Proof.Claims.BusyTrap s t m) ∧
      ((∃ m ∈ p.names o, Sys2Proof.Claims.owned s m) → s.me.hmode = true → Sys2Proof.Claims.Waits s t)) ∧
    (s.mayRun (.mrd o) sh o → ∃ t, Sys2Proof.Machine.exec (.mrd o) s = .next t ∧
      (¬Sys2Proof.Claims.owned s o.s1.val.toNat → Sys2Proof.Machine.RegEffect s t o 4 (s.pass o)
        fun l => ⟨Sys2Proof.Claims.accWords s o.s1.val.toNat l, none, none⟩) ∧
      (Sys2Proof.Claims.owned s o.s1.val.toNat → s.me.hmode = false → Sys2Proof.Claims.BusyTrap s t o.s1.val.toNat)) ∧
    (s.mayRun (.msyn o) sh o → ∃ t, Sys2Proof.Machine.exec (.msyn o) s = .next t ∧
      ((∀ m < 8, o.s1.val.getLsbD m = true → ¬Sys2Proof.Claims.owned s m) → Sys2Proof.Machine.LaneEffect s t fun _ y => y) ∧
      ((∃ m < 8, o.s1.val.getLsbD m = true ∧ Sys2Proof.Claims.owned s m) → Sys2Proof.Claims.Waits s t))

/-- 02 R36; 10 R260, R262-R264: the warps of a sheaf meet at MLDW, MWST and MSTR; in the cycle after the last arrives each warp's operation
takes its operands and stands in its quarter's order. -/
def Sys2Proof.Claims.SheafOperations : Prop :=
  ∀ (o : Sys2Proof.Ops) (s : Sys2Proof.Machine.State) (sh : Sys2Proof.Shape) (i : Sys2Proof.Instr),
    i = .mldw o ∨ i = .mwst o ∨ i = .mstr o → s.mayRun i sh o → s.noRoom .tl = false → s.act = BitVec.allOnes 64 →
    (Sys2Proof.Claims.meets s → s.me.rdv = none → s.cur < s.warps.length → s.me.live = true → s.me.ended = false →
      ∃ t, Sys2Proof.Machine.exec i s = .next t ∧ Sys2Proof.Claims.arrivedSheaf s t) ∧
    (s.me.rdv = some s.ipc → 0 < s.me.rdvAt → s.me.rdvAt ≤ s.now →
      (i = .mldw o → ∃ t ws, Sys2Proof.Machine.exec i s = .next t ∧ Sys2Proof.Claims.suppliesWeights s o ws ∧
        Sys2Proof.Claims.Queues s t (.mldw ws) s.now none ∧ Sys2Proof.Claims.onlyQueues s t) ∧
      (i = .mwst o →
        let fmt := o.subN % 16
        let sp := decide (o.subN / 16 % 2 = 1)
        let e := s.myTeam.handle o.dst.toNat
        let off := if o.form.isImm then o.imm.toNat % 2 ^ 32 else (s.mate 0).uni o o.s2
        let n := Sys2Proof.Machine.storedK fmt / 16 * (Sys2Proof.Machine.tileBytes fmt + if sp then 64 else 0)
        let img := s.myTeam.read (64 * e.base + off) n
        let a := 64 * e.base + off
        o.dst.toNat < s.myTeam.handles.length → 2 ≤ e.state → off % (if fmt = 4 ∨ fmt = 5 then 512 else 128) = 0 → off + n ≤ e.bytes →
        (o.subN / 32 = 1 ∨ (e.layout = (if fmt = 4 ∨ fmt = 5 then 2 else 3) ∧ e.fmt = fmt ∧
          Sys2Proof.Machine.tileHeaderBad fmt (Sys2Proof.Machine.storedK fmt / 16) img = false)) →
        ∃ t, Sys2Proof.Machine.exec i s = .next t ∧
          Sys2Proof.Claims.Queues s t (.mwst (s.weightsIn o fmt sp (decide (o.subN / 32 = 1)) img))
            (s.now + 24 + ((a + n - 1) / 128 - a / 128 + 1)) none ∧ Sys2Proof.Claims.onlyQueues s t) ∧
      (i = .mstr o →
        let fmt := o.subN % 16
        let kl := 16 * 2 ^ (o.subN / 16)
        let sc := if o.form.isImm then o.s3 else o.s2
        let rows := if o.form.isImm then o.imm.toNat % 32 else 16
        let cols := if o.form.isImm then o.imm.toNat / 2 ^ 8 % 32 else 16
        s.weightsAhead.logicalK = kl →
        ∃ t acts scales, Sys2Proof.Machine.exec i s = .next t ∧
          (∀ r < 16, ∀ p < kl, Sys2Proof.getP 0 (Sys2Proof.getP [] acts r) p = Sys2Proof.Claims.activation s o fmt kl r p) ∧
          (∀ r < 16, ∀ j < 4, Sys2Proof.getP 0 (Sys2Proof.getP [] scales r) j = s.src o .i32 sc (4 * r + j) % 256) ∧
          Sys2Proof.Claims.Queues s t (.mstr o.dst.toNat fmt kl rows cols acts scales) s.now none ∧ Sys2Proof.Claims.onlyQueues s t))

/-- 10 R259, R266, R267: MSTACC and MLDACC stand recorded with the accesses of their tile, own their accumulator and count on TL; MSTACC to a
handle starts to fill it, and MLDACC from a handle reads its bytes 2 cc after issue. -/
def Obligations.AccumulatorTransfers : Prop :=
  ∀ (o : Sys2Proof.Ops) (s : Sys2Proof.Machine.State) (sh : Sys2Proof.Shape) (leaf : Nat → Sys2Proof.Machine.TlbEnt),
    let t0 := Sys2Proof.Machine.tileAt s o
    let h := o.imm.toNat % 64
    let e := s.myTeam.handle h
    let off := s.uni o o.s1
    let base := Sys2Proof.Machine.wrapN 64 (s.uni64 o.s1 + Sys2Proof.Machine.sx 32 (o.imm.toNat % 2 ^ 32))
    let accs := t0.accs s.firstLane off (64 * e.base + off)
    let pages := t0.accs s.firstLane base 0
    let raw := decide (o.subN / 16 % 2 = 1)
    let kind (d : Sys2Proof.Machine.Place) (k : Option Nat) : Sys2Proof.Machine.TileKind :=
      .mstacc o.dst.toNat s.me.team t0.layout t0.fmt o.rm o.ftz t0.ld d k
    s.noRoom .tl = false →
    (s.mayRun (.mstacc o) sh o → Sys2Proof.Claims.storeLanes s sh o ≠ [] →
      (o.subN / 32 = 1 → t0.aligned off = true → Sys2Proof.Claims.fillable s h t0.layout t0.fmt raw → off + t0.span ≤ e.bytes →
        ∃ t op, Sys2Proof.Machine.exec (.mstacc o) s = .next t ∧ (s.memop op).live = false ∧ (t.memop op).live = true ∧
          (t.memop op).accs = accs ∧ Sys2Proof.Claims.fills s t h t0.layout t0.fmt ∧
          Sys2Proof.Claims.Queues s t (kind (.scr s.me.team (64 * e.base + off) (some h) off) (some h)) (s.now + 1) (some op) ∧
          Sys2Proof.Machine.LaneEffect s (({ t with tileops := s.tileops, memops := s.memops, teams := s.teams, seq := s.seq } :
            Sys2Proof.Machine.State).setMe { t.me with tl := s.me.tl }) fun _ y => y) ∧
      (o.subN / 32 = 0 → t0.aligned base = true →
        (∀ a ∈ pages, Sys2Proof.Claims.granted s { Sys2Proof.Claims.page true t0.z with uni := some s.act } leaf a) →
        ∃ t op, Sys2Proof.Machine.exec (.mstacc o) s = .next t ∧ (s.memop op).live = false ∧ (t.memop op).live = true ∧
          (t.memop op).accs = pages.map (Sys2Proof.Claims.located leaf) ∧
          Sys2Proof.Claims.Queues s t (kind (.glob base) none) (s.now + 1) (some op) ∧
          Sys2Proof.Machine.LaneEffect s (({ t with tileops := s.tileops, memops := s.memops, tlb := s.tlb, seq := s.seq } :
            Sys2Proof.Machine.State).setMe { t.me with tl := s.me.tl }) fun _ y => y)) ∧
    (s.mayRun (.mldacc o) sh o → Sys2Proof.Claims.contributes s o ≠ [] →
      (o.subN / 32 = 1 → t0.aligned off = true → h < s.myTeam.handles.length → 2 ≤ e.state → off + t0.span ≤ e.bytes →
        (raw = true ∨ (e.layout = t0.layout ∧ e.fmt = t0.fmt)) →
        ∃ t op, Sys2Proof.Machine.exec (.mldacc o) s = .next t ∧ (s.memop op).live = false ∧ (t.memop op).live = true ∧
          (t.memop op).accs = accs ∧ (t.memop op).req = .load ∧
          (⟨s.now + 2, .ev .requestArrival ⟨op, 2, s.me.team, 0, []⟩⟩ : Sys2Proof.Machine.Due) ∈ t.agenda ∧
          (⟨s.now + (24 + 2 * (Sys2Proof.Machine.bankRounds s.myTeam.kern.swz t0.z (accs.map (·.pa)) - 1)),
            .ev .loadReply ⟨op, 1, 0, 0, []⟩⟩ : Sys2Proof.Machine.Due) ∈ t.agenda ∧
          Sys2Proof.Claims.Queues s t (.mldacc o.dst.toNat) s.now (some op) ∧
          Sys2Proof.Machine.LaneEffect s (({ t with tileops := s.tileops, memops := s.memops, agenda := s.agenda, seq := s.seq } :
            Sys2Proof.Machine.State).setMe { t.me with tl := s.me.tl }) fun _ y => y) ∧
      (o.subN / 32 = 0 → t0.aligned base = true →
        (∀ a ∈ pages, Sys2Proof.Claims.granted s { Sys2Proof.Claims.page false t0.z with uni := some s.act } leaf a) →
        ∃ t op, Sys2Proof.Machine.exec (.mldacc o) s = .next t ∧ (s.memop op).live = false ∧ (t.memop op).live = true ∧
          (t.memop op).accs = pages.map (Sys2Proof.Claims.located leaf) ∧
          (t.memop op).left = ((pages.map fun a => Sys2Proof.Machine.lineOf a.va).eraseDups).length ∧ t.me.tl = s.me.tl + 1 ∧
          (∀ l < 64, t.me.lane l = { s.me.lane l with pc := (t.me.lane l).pc, st := (t.me.lane l).st }) ∧ t.me.m = s.me.m ∧
          Sys2Proof.Machine.PcTo s t (fun _ => none) ∧ (∀ w, w ≠ s.cur → t.warp w = s.warp w) ∧ t.teams = s.teams ∧
          ∃ i, (s.tileop i).live = false ∧ (t.tileop i).live = true ∧ (t.tileop i).kind = .mldacc o.dst.toNat ∧ (t.tileop i).memop = some op))

/-- 10 R256, R260, R264, R266: a weight load gives its warp the slot, a stream over a dense slot adds its products to the accumulator, and MSTACC
reads its accumulator; each in the cycle in which its order and its array allow. -/
def Sys2Proof.Claims.TileStarts : Prop :=
  ∀ (s : Sys2Proof.Machine.State) (i : Nat), s.ev.a = i → s.tileReady (s.tileop i) = true →
    let k := s.tileop i
    let x := s.warp k.warp
    (∀ ws, (k.kind = .mldw ws ∨ k.kind = .mwst ws) → ∃ t, Sys2Proof.Machine.exec .tileOpStart s = .next t ∧
      t.warp k.warp = { x with ws := ws, latched := true } ∧ (∀ w, w ≠ k.warp → t.warp w = s.warp w) ∧
      (t.quarter k.quarter).latched = some k.warp ∧ (t.quarter k.quarter).arrayFree = s.now + 20 ∧
      (⟨s.now + 20, .ev .tileOpComplete ⟨i, 0, 0, 0, []⟩⟩ : Sys2Proof.Machine.Due) ∈ t.agenda ∧
      t = { s with warps := t.warps, quarters := t.quarters, tileops := t.tileops, agenda := t.agenda }) ∧
    (∀ m fmt kl rows cols acts scales, k.kind = .mstr m fmt kl rows cols acts scales →
      (¬((s.quarter k.quarter).latched = some k.warp ∧ x.latched = true) → ∃ t, Sys2Proof.Machine.exec .tileOpStart s = .next t ∧
        t.warp k.warp = { x with latched := true } ∧ (t.quarter k.quarter).arrayFree = s.now + 20 ∧ t.tileops = s.tileops) ∧
      ((s.quarter k.quarter).latched = some k.warp → x.latched = true → x.ws.sparse = false →
        ∃ t, Sys2Proof.Machine.exec .tileOpStart s = .next t ∧
          (∀ r < 16, ∀ c < 16, (t.warp k.warp).acc m r c = if r < rows ∧ c < cols then
            BitVec.ofNat 32 (Sys2Proof.Claims.streamed x.ws fmt kl acts scales (x.acc m r c).toNat r c) else x.acc m r c) ∧
          (∀ j, j ≠ m → ∀ r < 16, ∀ c < 16, (t.warp k.warp).acc j r c = x.acc j r c) ∧
          t.warp k.warp = { x with m := (t.warp k.warp).m } ∧ (∀ w, w ≠ k.warp → t.warp w = s.warp w) ∧
          (t.quarter k.quarter).arrayFree = s.now + 16 ∧
          (⟨s.now + 22, .ev .tileOpComplete ⟨i, 0, 0, 0, []⟩⟩ : Sys2Proof.Machine.Due) ∈ t.agenda ∧
          t = { s with warps := t.warps, quarters := t.quarters, tileops := t.tileops, agenda := t.agenda })) ∧
    (∀ m tm layout fmt rm ftz ld h off hoff op, k.kind = .mstacc m tm layout fmt rm ftz ld (.scr tm off (some h) hoff) (some h) →
      k.memop = some op → layout ≠ 3 → (layout = 2 ∨ 16 ≤ ld) → ∃ t, Sys2Proof.Machine.exec .tileOpStart s = .next t ∧
        (∀ j < (s.memop op).accs.length, let a := (s.memop op).acc j
          let v := (x.acc m (a.reg / 16) (a.reg % 16)).toNat
          let f := if fmt = 4 then Sys2Proof.Machine.bf16 else Sys2Proof.Machine.fp16
          (t.memop op).acc j = { a with data := BitVec.ofNat 256 (if fmt = 0 then v else f.flush ftz (f.round rm (Sys2Proof.Machine.fp32.decode (Sys2Proof.Machine.fp32.flush ftz v)))) }) ∧
        (t.tileop i).started = true ∧ t.warps = s.warps ∧ t.teams = s.teams ∧
        ∀ a ∈ (s.memop op).accs, ∃ d ∈ t.agenda, s.now + 26 ≤ d.at_ ∧
          d.act = .ev .tileOpComplete ⟨i, 1, Sys2Proof.Machine.lineOf a.pa, 0, []⟩)

/-- 10 R260, R266, R267; 07 R178: an operation that completes owns its accumulator no more and TL falls by one; a line of MSTACC puts its bytes
into scratch; MLDACC sets its accumulator to the values it has loaded. -/
def Sys2Proof.Claims.TileCompletions : Prop :=
  (∀ (s : Sys2Proof.Machine.State) (i : Nat), s.ev = ⟨i, 0, 0, 0, []⟩ → (s.tileop i).memop = none →
    ∃ t, Sys2Proof.Machine.exec .tileOpComplete s = .next t ∧ t.tileop i = Sys2Proof.Machine.TileOp.idle ∧
      (∀ j, j ≠ i → t.tileop j = s.tileop j) ∧
      t.warp (s.tileop i).warp = { s.warp (s.tileop i).warp with
        tl := (s.warp (s.tileop i).warp).tl - 1, lowered := (t.warp (s.tileop i).warp).lowered } ∧
      (∀ w, w ≠ (s.tileop i).warp → t.warp w = s.warp w) ∧ t = { s with warps := t.warps, tileops := t.tileops }) ∧
  (∀ (s : Sys2Proof.Machine.State) (i la m tm layout fmt : Nat) (rm : Sys2Proof.Rm) (ftz : Bool) (ld a off h op : Nat),
    s.ev = ⟨i, 1, la, 0, []⟩ → (s.tileop i).kind = .mstacc m tm layout fmt rm ftz ld (.scr tm a (some h) off) (some h) →
    (s.tileop i).memop = some op → 1 < (s.memop op).left →
    ∃ t, Sys2Proof.Machine.exec .tileOpComplete s = .next t ∧
      (∀ b, Sys2Proof.Claims.scratchByte (t.team tm) b = Sys2Proof.Claims.tileStored (Sys2Proof.Claims.scratchByte (s.team tm))
        ((s.memop op).accs.filter fun c => Sys2Proof.Machine.lineOf c.pa == la) b) ∧
      (∀ k, k ≠ tm → t.team k = s.team k) ∧ t.memop op = { s.memop op with left := (s.memop op).left - 1 } ∧
      t = { s with teams := t.teams, memops := t.memops }) ∧
  (∀ (s : Sys2Proof.Machine.State) (i m fmt op : Nat), s.ev = ⟨i, 4, 0, 0, []⟩ → s.loadedTile = some i → (s.tileop i).kind = .mldacc m →
    (s.tileop i).memop = some op → (s.memop op).kind = .mldacc m fmt → (∀ a ∈ (s.memop op).accs, a.size ≠ 0) →
    let w := (s.tileop i).warp
    ∃ t, Sys2Proof.Machine.exec .tileOpComplete s = .next t ∧
      (∀ r < 16, ∀ c < 16, let v := Sys2Proof.Claims.readValue (s.memop op) (16 * r + c)
        (t.warp w).acc m r c = BitVec.ofNat 32 (if fmt = 0 then v else
          Sys2Proof.Machine.fp32.round .rne ((if fmt = 4 then Sys2Proof.Machine.bf16 else Sys2Proof.Machine.fp16).decode v))) ∧
      (∀ k, k ≠ m → ∀ r < 16, ∀ c < 16, (t.warp w).acc k r c = (s.warp w).acc k r c) ∧ (t.warp w).tl = (s.warp w).tl - 1 ∧
      t.warp w = { s.warp w with m := (t.warp w).m, tl := (t.warp w).tl, lowered := (t.warp w).lowered } ∧ (∀ v, v ≠ w → t.warp v = s.warp v) ∧
      t.tileop i = Sys2Proof.Machine.TileOp.idle ∧ t.memop op = Sys2Proof.Machine.MemOp.idle ∧
      t = { s with warps := t.warps, tileops := t.tileops, memops := t.memops })

/-! ## Leased engines -/

namespace Sys2Proof.Claims
open Sys2Proof Sys2Proof.Machine

/-- Why a lease of `n` engines of a class is refused: `SLOTS`, `COUNT`, `BUDGET`; 0 where it is not (10 R272). -/
def leaseRefused (s : State) (sec cls n : Nat) : Nat :=
  if 8 ≤ ((List.range 8).filter fun k => (s.myTeam.slotOf k).handle != 0).length + s.queuedSlots s.me.team then 2
  else if n = 0 ∨ (s.classEngines sec cls).length < n then 3
  else if s.budget sec < n * classTokens cls then 4
  else 0
/-- A lease stands: its record, its slot, and its engines: those taken wake, those put to sleep are dormant (10 R268-R270). -/
def grants (s t : State) (sec cls prio n tm : Nat) (plan : List Nat × List Nat) (waiter : Option Nat) (h : Nat) : Prop :=
  ∃ slot l, (s.team tm).freeLeaseSlot = some slot ∧ h = slot + 8 * cls + 64 * (s.team tm).leaseSeq ∧ (s.lease l).live = false ∧
    (∃ es, (∀ e, e ∈ es ↔ e ∈ plan.1) ∧
      t.lease l = ⟨true, tm, slot, sec, cls, es, prio, s.now, (s.team tm).leaseSeq, false, none, 0, waiter, 0⟩) ∧
    (t.team tm).slotOf slot = ⟨BitVec.ofNat 32 h, some l, false⟩ ∧ plan.1.length = n ∧
    (∀ e ∈ plan.1, (t.engine e).st = .waking ∧
      ((s.engine e).st = .idle → e ∉ plan.2 → (t.engine e).wakeAt = s.now + 40) ∧
      ((s.engine e).st = .dormant → (t.engine e).wakeAt = s.now + wakeLat cls) ∧
      (⟨(t.engine e).wakeAt, .ev .engineWakeComplete ⟨e, l, 0, 0, []⟩⟩ : Due) ∈ t.agenda) ∧
    (∀ e ∈ plan.2, e ∉ plan.1 → (t.engine e).st = .dormant) ∧ (∀ e, e ∉ plan.1 → e ∉ plan.2 → t.engine e = s.engine e)
/-- The state with what a grant changes put back. -/
def exceptLease (s t : State) : State := { t with engines := s.engines, leases := s.leases, teams := s.teams, sectors := s.sectors, agenda := s.agenda }
/-- The handle names a lease of the team in its slot (10 R272). -/
def namesLease (s : State) (h : Word) (k : Nat) (l : Option Nat) : Prop :=
  h ≠ 0 ∧ k = h.toNat % 8 ∧ (s.myTeam.slotOf k).handle = h ∧ (s.myTeam.slotOf k).lease = l
/-- The lease has ended: its engines are in a state, its slot is free (10 R269, R272). -/
def endsLease (s t : State) (l k : Nat) (st : EngSt) : Prop :=
  (t.lease l).live = false ∧ (∀ e ∈ (s.lease l).engines, t.engine e = ⟨st, 0⟩) ∧ (∀ e, e ∉ (s.lease l).engines → t.engine e = s.engine e) ∧
    (t.myTeam.slotOf k) = ⟨0, none, false⟩ ∧ (∀ j, j ≠ l → t.lease j = s.lease j) ∧
    LaneEffect s { t with engines := s.engines, leases := s.leases, teams := s.teams, agenda := s.agenda } (fun _ y => y) (fun _ => none) 2

/-- The engine commands, with the class of their engines and whether they fill the handle they name (10 R268, R274). -/
def commandTable : List ((Ops → Instr) × CmdKind × Nat × Bool) := [
  (.trace, .trace, 0, false), (.attr, .attr, 1, true), (.rast, .rast, 3, false), (.thresh, .thresh, 2, false),
  (.decode, .decode, 5, false), (.gather, .gather, 4, true), (.scatr, .scatr, 4, false), (.coll, .coll, 6, false)]
def cmdHandle (o : Ops) : Nat := (o.imm.extractLsb' 0 6).toNat
def cmdLayout (o : Ops) : Nat := (o.imm.extractLsb' 7 3).toNat
def cmdFmt (o : Ops) : Nat := (o.imm.extractLsb' 10 4).toNat
/-- The handle that a command names suits it (05 R113; 10 R276, R281, R283). -/
def suits (s : State) (o : Ops) (kind : CmdKind) : Prop :=
  let e := s.myTeam.handle (cmdHandle o)
  let same := e.layout = cmdLayout o ∧ e.fmt = cmdFmt o
  let raw := o.imm.getLsbD 14 = true
  match kind with
  | .attr => cmdHandle o < s.myTeam.handles.length ∧ e.state ≤ 1 ∧ (raw ∨ (cmdLayout o = 0 ∧ cmdFmt o = 0 ∧ (e.state = 1 → same)))
  | .gather => cmdHandle o < s.myTeam.handles.length ∧ e.state ≤ 1 ∧ (raw ∨ (e.state = 1 → same))
  | .scatr => cmdHandle o < s.myTeam.handles.length ∧ 2 ≤ e.state ∧ (raw ∨ same)
  | _ => True
/-- The command as it stands from its issue (10 R274, R275). -/
def Commands (s t : State) (o : Ops) (kind : CmdKind) (fillsHandle : Bool) (lease : Option Nat) (status : Nat) (c : Nat) : Prop :=
  let x := t.cmd c
  (s.cmd c).live = false ∧ x.live = true ∧ x.kind = kind ∧ x.sub = o.sub.toNat ∧ x.warp = s.cur ∧ x.team = s.me.team ∧ x.core = s.me.core ∧
    x.lease = lease ∧ x.status = status ∧ x.arrived = false ∧ x.stopped = false ∧ x.next = 0 ∧ x.flight = [] ∧ x.parts = [] ∧
    x.words = (List.range 8).map (fun k => s.me.sreg (o.s1.val.toNat + k)) ∧ (∀ j, j ≠ c → t.cmd j = s.cmd j) ∧
    x.ticket < 64 ∧ (getP ticketIdle s.me.tickets x.ticket).busy = false ∧
    (∀ k < x.ticket, (getP ticketIdle s.me.tickets k).busy = true) ∧ 1 ≤ x.tseq ∧ x.tseq < 2 ^ 26 ∧
    getP ticketIdle t.me.tickets x.ticket = ⟨x.tseq, 15, true, 0⟩ ∧ t.me.cp = s.me.cp + 1 ∧
    (if fillsHandle then fills s t (cmdHandle o) (cmdLayout o) (cmdFmt o) else t.teams = s.teams) ∧
    RegEffect s (({ t with cmds := s.cmds, teams := s.teams, agenda := s.agenda, seq := s.seq } : State).setMe
      { t.me with tickets := s.me.tickets, cp := s.me.cp }) o 1 (s.pass o) (uniform (x.ticket + 64 * x.tseq))

/-- The event means the command that stands there. -/
def means (s : State) (c : Nat) : Prop :=
  s.ev.a = c ∧ (s.cmd c).live = true ∧ (s.ev.v = 0 ∨ s.ev.v = BitVec.ofNat 64 (s.cmd c).seq)
/-- A command's status is final, and CP has fallen (10 R275). -/
def finalStatus (s t : State) (c word : Nat) : Prop :=
  let x := s.cmd c
  (t.cmd c).live = false ∧ getP ticketIdle (t.warp x.warp).tickets x.ticket = ⟨x.tseq, word, false, s.now⟩
/-- An engine that serves the command can start an item of it (10 R275). -/
def served (s : State) (c : Nat) : Prop :=
  let x := s.cmd c
  x.arrived = true ∧ x.ending = false ∧ x.stopped = false ∧ (s.engine x.engine).st = .leased ∧ s.nextCmd x.engine = some c
/-- A register of a lane that a record's fields fill (11 R295, R299). -/
def recordReg (b : BinRec) (k : Nat) : Word :=
  if k = 0 then b.first else if k = 7 then b.depth else if k = 8 then b.ident.setWidth 32 else if k = 9 then (b.ident >>> 32).setWidth 32 else 0

end Sys2Proof.Claims

/-- 10 R268-R270, R272: LEASE queues until its engines are leased and LEASE.try takes them at once or reports BUSY; a request without a slot, count
or budget reports why. ERLS ends a lease whose commands have completed. -/
def Obligations.Leases : Prop :=
  ∀ (o : Sys2Proof.Ops) (s : Sys2Proof.Machine.State) (sh : Sys2Proof.Shape), Sys2Proof.Claims.contributes s o ≠ [] →
    let sec := s.me.core / 96
    let cls := (o.sub.extractLsb' 0 3).toNat
    let n := s.uni o o.s1
    let h := s.me.sreg o.s1.val.toNat
    let st := Sys2Proof.Claims.leaseRefused s sec cls n
    (s.mayRun (.lease o) sh o →
      (s.phase = 0 → ∃ t, Sys2Proof.Machine.exec (.lease o) s = .next t ∧
        (st ≠ 0 → Sys2Proof.Machine.RegEffect s t o 2 (s.pass o) (Sys2Proof.Claims.uniform (2 ^ 32 * st)) (fun _ => none) 4) ∧
        (st = 0 → Sys2Proof.Claims.Waits s t ∧ ⟨s.cur, cls, n, s.myTeam.prio, s.now⟩ ∈ (t.sector sec).queue ∧
          (∀ q ∈ (s.sector sec).queue, q ∈ (t.sector sec).queue) ∧ (t.sector sec).queue.length = (s.sector sec).queue.length + 1)) ∧
      (s.phase = 2 → (∃ l, (s.lease l).live = true ∧ (s.lease l).waiter = some s.cur ∧ (s.lease l).ready = true) →
        ∃ t, Sys2Proof.Machine.exec (.lease o) s = .next t ∧
          Sys2Proof.Machine.RegEffect s { t with leases := s.leases } o 2 (s.pass o) (Sys2Proof.Claims.uniform s.datum)) ∧
      (s.phase = 2 → (∀ l, ¬((s.lease l).live = true ∧ (s.lease l).waiter = some s.cur ∧ (s.lease l).ready = true)) →
        ∃ t, Sys2Proof.Machine.exec (.lease o) s = .next t ∧ Sys2Proof.Claims.Waits s t)) ∧
    (s.mayRun (.leaseTry o) sh o →
      let can := (s.sector sec).queue = [] ∧ (s.sector sec).grantedAt ≠ s.now + 1 ∧ s.tokensUsed sec ≤ s.budget sec
      (st ≠ 0 → ∃ t, Sys2Proof.Machine.exec (.leaseTry o) s = .next t ∧
        Sys2Proof.Machine.RegEffect s t o 2 (s.pass o) (Sys2Proof.Claims.uniform (2 ^ 32 * st))) ∧
      (st = 0 → ∀ plan, can → s.grantPlan sec cls n [] = some plan → s.myTeam.leaseSeq < 2 ^ 26 →
        ∃ t w, Sys2Proof.Machine.exec (.leaseTry o) s = .next t ∧
          Sys2Proof.Claims.grants s t sec cls s.myTeam.prio n s.me.team plan none w ∧
          Sys2Proof.Machine.RegEffect s (Sys2Proof.Claims.exceptLease s t) o 2 (s.pass o) (Sys2Proof.Claims.uniform w)) ∧
      (st = 0 → (¬can ∨ s.grantPlan sec cls n [] = none) → ∃ t, Sys2Proof.Machine.exec (.leaseTry o) s = .next t ∧
        Sys2Proof.Machine.RegEffect s t o 2 (s.pass o) (Sys2Proof.Claims.uniform (2 ^ 32)))) ∧
    (∀ cold : Bool, let i : Sys2Proof.Instr := if cold then .erlsCold o else .erls o
      s.mayRun i sh o →
      (∀ l, Sys2Proof.Claims.namesLease s h (h.toNat % 8) (some l) →
        ((∀ c ∈ s.cmds, ¬(c.live = true ∧ c.lease = some l)) → ∃ t, Sys2Proof.Machine.exec i s = .next t ∧
          Sys2Proof.Claims.endsLease s t l (h.toNat % 8) (if cold then .dormant else .idle)) ∧
        ((∃ c ∈ s.cmds, c.live = true ∧ c.lease = some l) → ∃ t, Sys2Proof.Machine.exec i s = .next t ∧ Sys2Proof.Claims.Waits s t)) ∧
      (Sys2Proof.Claims.namesLease s h (h.toNat % 8) none → ∃ t, Sys2Proof.Machine.exec i s = .next t ∧
        t.myTeam.slotOf (h.toNat % 8) = ⟨0, none, false⟩ ∧
        Sys2Proof.Machine.LaneEffect s { t with teams := s.teams } (fun _ y => y) (fun _ => none) 2) ∧
      ((h = 0 ∨ (s.myTeam.slotOf (h.toNat % 8)).handle ≠ h) → ∃ t, Sys2Proof.Machine.exec i s = .next t ∧
        Sys2Proof.Machine.LaneEffect s t (fun _ y => y) (fun _ => none) 2))

/-- 10 R269-R271: the head of a sector's queue is granted when its engines and tokens fit, a waking engine becomes leased when its latency has
passed, the host may start a grace of 20,000 cc, and a lease whose grace ends is revoked: its commands end EVICTED, its engines become idle. -/
def Obligations.LeaseEvents : Prop :=
  (∀ (s : Sys2Proof.Machine.State) (sec : Nat) (q : Sys2Proof.Machine.LeaseReq) (r : List Sys2Proof.Machine.LeaseReq) (plan : List Nat × List Nat),
    s.ev.a = sec → q.warp ≠ Sys2Proof.Machine.pagerWarp → (s.sector sec).queue = q :: r → s.tokensUsed sec ≤ s.budget sec → s.grantPlan sec q.cls q.n [] = some plan →
    (s.sector sec).grantedAt ≠ s.now + 1 → (s.team (s.warp q.warp).team).freeLeaseSlot.isSome = true →
    ∃ t h, Sys2Proof.Machine.exec .leaseGrant s = .next t ∧
      Sys2Proof.Claims.grants s t sec q.cls q.prio q.n (s.warp q.warp).team plan (some q.warp) h ∧ (t.sector sec).queue = r ∧
      t.warp q.warp = { s.warp q.warp with stalled := (s.warp q.warp).stalled.map fun d => { d with phase := 2, datum := h } } ∧
      (∀ w, w ≠ q.warp → t.warp w = s.warp w) ∧ t = { s with
        warps := t.warps, engines := t.engines, leases := t.leases, teams := t.teams, sectors := t.sectors, agenda := t.agenda }) ∧
  (∀ (s : Sys2Proof.Machine.State) (e l : Nat), s.ev = ⟨e, l, 0, 0, []⟩ → (s.engine e).st = .waking → (s.engine e).wakeAt = s.now →
    (s.lease l).live = true → e ∈ (s.lease l).engines →
    ∃ t, Sys2Proof.Machine.exec .engineWakeComplete s = .next t ∧ t.engine e = ⟨.leased, 0⟩ ∧ (∀ k, k ≠ e → t.engine k = s.engine k) ∧
      ((t.lease l).ready = true ↔ ∀ k ∈ (s.lease l).engines, k ≠ e → (s.engine k).st = .leased) ∧
      t.lease l = { s.lease l with ready := (t.lease l).ready } ∧ (∀ k, k ≠ l → t.lease k = s.lease k) ∧
      t = { s with engines := t.engines, leases := t.leases, agenda := t.agenda }) ∧
  (∀ (s : Sys2Proof.Machine.State) (l : Nat), s.ev.a = l → s.ev.b = 1 → (s.lease l).live = true → (s.lease l).grace = none →
    ∃ t, Sys2Proof.Machine.exec .leaseRevoke s = .next t ∧ t.lease l = { s.lease l with grace := some (s.now + 20000, .host) } ∧
      (∀ k, k ≠ l → t.lease k = s.lease k) ∧ (⟨s.now + 20000, .ev .leaseRevoke ⟨l, 0, 0, 0, []⟩⟩ : Sys2Proof.Machine.Due) ∈ t.agenda ∧
      t = { s with leases := t.leases, agenda := t.agenda }) ∧
  (∀ (s : Sys2Proof.Machine.State) (l : Nat) (o : Sys2Proof.Machine.Origin), s.ev.a = l → s.ev.b = 0 →
    (s.lease l).team ≠ Sys2Proof.Machine.pagerWarp → (s.lease l).grace = some (s.now, o) →
    (s.graceMoot l = true → ∃ t, Sys2Proof.Machine.exec .leaseRevoke s = .next t ∧ t.lease l = { s.lease l with grace := none } ∧
      (∀ k, k ≠ l → t.lease k = s.lease k) ∧ t = { s with leases := t.leases }) ∧
    (s.graceMoot l = false →
      (∀ c d, (s.cmd c).live = true → (s.cmd d).live = true → (s.cmd c).warp = (s.cmd d).warp → (s.cmd c).ticket = (s.cmd d).ticket → c = d) →
      (∀ c, (s.cmd c).owned = []) →
      ∃ t, Sys2Proof.Machine.exec .leaseRevoke s = .next t ∧ (t.lease l).live = false ∧
        (∀ e ∈ (s.lease l).engines, t.engine e = ⟨.idle, 0⟩) ∧ (∀ e, e ∉ (s.lease l).engines → t.engine e = s.engine e) ∧
        ((t.team (s.lease l).team).slotOf (s.lease l).slot).revoked = true ∧ ((t.team (s.lease l).team).slotOf (s.lease l).slot).lease = none ∧
        (∀ c, (s.cmd c).live = true → (s.cmd c).lease = some l → Sys2Proof.Claims.finalStatus s t c 1) ∧
        (∀ c, (s.cmd c).live = true → (s.cmd c).lease ≠ some l → t.cmd c = s.cmd c)))

/-- 10 R274, R275, R277: an engine command takes the lowest free ticket slot, writes its ticket, counts on CP and reaches an engine of its lease
12 cc after issue; with a lease that is none it completes NOLEASE or EVICTED 16 cc after issue. -/
def Sys2Proof.Claims.EngineCommands : Prop :=
  ∀ p ∈ Sys2Proof.Claims.commandTable, ∀ (o : Sys2Proof.Ops) (s : Sys2Proof.Machine.State) (sh : Sys2Proof.Shape),
    let h := s.me.sreg o.s3.val.toNat
    let k := h.toNat % 8
    let sl := s.myTeam.slotOf k
    let good := h ≠ 0 ∧ sl.handle = h ∧ h.toNat / 8 % 8 = p.2.2.1
    s.mayRun (p.1 o) sh o → s.noRoom .cp = false → Sys2Proof.Claims.storeLanes s sh o ≠ [] → Sys2Proof.Claims.suits s o p.2.1 →
    (∃ j < 64, (Sys2Proof.getP Sys2Proof.Machine.ticketIdle s.me.tickets j).busy = false) →
    (∀ l, good → sl.lease = some l → ∃ t c, Sys2Proof.Machine.exec (p.1 o) s = .next t ∧
      Sys2Proof.Claims.Commands s t o p.2.1 p.2.2.2 (some l) 0 c ∧
      (⟨s.now + 12, .ev .engineCommandArrival ⟨c, 0, 0, BitVec.ofNat 64 s.seq, []⟩⟩ : Sys2Proof.Machine.Due) ∈ t.agenda) ∧
    (∀ e, (good ∧ sl.lease = none ∧ e = (if sl.revoked then 1 else 6)) ∨ (¬good ∧ e = 6) → ∃ t c, Sys2Proof.Machine.exec (p.1 o) s = .next t ∧
      Sys2Proof.Claims.Commands s t o p.2.1 p.2.2.2 none e c ∧
      (⟨s.now + 16, .ev .engineCommandComplete ⟨c, 0, 0, BitVec.ofNat 64 s.seq, []⟩⟩ : Sys2Proof.Machine.Due) ∈ t.agenda)

/-- 10 R277, R280: ECANC ends a command once its items in flight finish, a pass between its groups and a collective that waits for its ranks at
once, and does nothing to one that is final; EWAIT waits for a final status and
writes it, and the warp issues next 4 cc after the final cycle. -/
def Sys2Proof.Claims.Tickets : Prop :=
  ∀ (o : Sys2Proof.Ops) (s : Sys2Proof.Machine.State) (sh : Sys2Proof.Shape), Sys2Proof.Claims.contributes s o ≠ [] →
    let v := s.uni o o.s1
    let k := Sys2Proof.getP Sys2Proof.Machine.ticketIdle s.me.tickets (v % 64)
    let mine := v / 64 ≠ 0 ∧ k.seq = v / 64
    (s.mayRun (.ecanc o) sh o →
      (∀ c, mine → s.cmdOf v = some c → (s.cmd c).lease.isSome = true → (s.cmd c).stopped = false → (s.cmd c).ending = false →
        ((s.cmd c).flight = [] → (s.cmd c).parts = []) → (s.cmd c).kind ≠ .thresh →
        ((s.cmd c).kind = .coll → (s.cmd c).others.isSome = true) → ∃ t, Sys2Proof.Machine.exec (.ecanc o) s = .next t ∧
          t.cmd c = { s.cmd c with stopped := true, status := 7, ending := decide ((s.cmd c).flight = []) } ∧
          (∀ j, j ≠ c → t.cmd j = s.cmd j) ∧
          ((s.cmd c).flight = [] → (⟨max (s.cmd c).doneAt s.now + 4, .ev .engineCommandComplete
            ⟨c, 0, 0, BitVec.ofNat 64 (s.cmd c).seq, []⟩⟩ : Sys2Proof.Machine.Due) ∈ t.agenda) ∧
          Sys2Proof.Machine.LaneEffect s { t with cmds := s.cmds, agenda := s.agenda } (fun _ y => y) (fun _ => none) 2) ∧
      (∀ c, mine → s.cmdOf v = some c → (s.cmd c).lease.isSome = true → (s.cmd c).stopped = false → (s.cmd c).ending = false →
        (s.cmd c).parts = [] → ((s.cmd c).kind = .thresh ∨ ((s.cmd c).kind = .coll ∧ (s.cmd c).others = none)) →
        ∃ t, Sys2Proof.Machine.exec (.ecanc o) s = .next t ∧
          t.cmd c = { s.cmd c with stopped := true, status := 7, flight := [], tile := none, ending := true } ∧
          (∀ j, j ≠ c → t.cmd j = s.cmd j) ∧
          (⟨max (s.cmd c).doneAt s.now + 4, .ev .engineCommandComplete ⟨c, 0, 0, BitVec.ofNat 64 (s.cmd c).seq, []⟩⟩ : Sys2Proof.Machine.Due) ∈
            t.agenda ∧
          Sys2Proof.Machine.LaneEffect s { t with cmds := s.cmds, agenda := s.agenda, tiles := s.tiles, bins := s.bins }
            (fun _ y => y) (fun _ => none) 2) ∧
      ((¬mine ∨ s.cmdOf v = none) → ∃ t, Sys2Proof.Machine.exec (.ecanc o) s = .next t ∧
        Sys2Proof.Machine.LaneEffect s t (fun _ y => y) (fun _ => none) 2)) ∧
    (s.mayRun (.ewait o) sh o → s.idxBad sh o = 0 → ∃ t, Sys2Proof.Machine.exec (.ewait o) s = .next t ∧
      (mine → k.busy = false → Sys2Proof.Machine.RegEffect s t o 1 (s.pass o) (Sys2Proof.Claims.uniform k.status) (fun _ => none)
        (max (s.now + 1) (k.final + 4) - s.now)) ∧
      (mine → k.busy = true → Sys2Proof.Claims.Waits s t) ∧
      (¬mine → Sys2Proof.Machine.RegEffect s t o 1 (s.pass o) (Sys2Proof.Claims.uniform 10)))

/-- 10 R275, R283, R284; 11 R293: a command reaches the engines of its lease in rotation; its items start in order (here: one of GATHER whose index
is outside the table reads as zeros); a write that is due is delivered; a completion makes its status final; a collective without its other ranks
ends TIMEOUT; a stalled pixel write proceeds once its tile is open. -/
def Obligations.EngineEvents : Prop :=
  (∀ (s : Sys2Proof.Machine.State) (c l : Nat), Sys2Proof.Claims.means s c → (s.cmd c).lease = some l → (s.lease l).engines ≠ [] →
    ∃ t, Sys2Proof.Machine.exec .engineCommandArrival s = .next t ∧
      t.cmd c = { s.cmd c with arrived := true, engine := Sys2Proof.getP 0 (s.lease l).engines ((s.lease l).rot % (s.lease l).engines.length) } ∧
      t.lease l = { s.lease l with rot := (s.lease l).rot + 1 } ∧ (∀ j, j ≠ c → t.cmd j = s.cmd j) ∧
      t = { s with cmds := t.cmds, leases := t.leases, agenda := t.agenda }) ∧
  (∀ (s : Sys2Proof.Machine.State) (c : Nat), Sys2Proof.Claims.means s c → (s.cmd c).owned = [] →
    ∃ t, Sys2Proof.Machine.exec .engineCommandComplete s = .next t ∧ Sys2Proof.Claims.finalStatus s t c (s.cmd c).status ∧
      (t.warp (s.cmd c).warp).cp = (s.warp (s.cmd c).warp).cp - 1 ∧ (∀ w, w ≠ (s.cmd c).warp → t.warp w = s.warp w) ∧
      (∀ j, j ≠ c → t.cmd j = s.cmd j) ∧ t.teams = s.teams ∧ ∀ a, t.peekByte a = s.peekByte a) ∧
  (∀ (s : Sys2Proof.Machine.State) (c i z : Nat) (e : Sys2Proof.Machine.Reading) (l : Sys2Proof.Machine.LineRead),
    Sys2Proof.Claims.means s c → s.ev.b = 0 → Sys2Proof.Claims.served s c →
    let x := s.cmd c
    let m := (s.team x.team).handle (x.handle.getD 0)
    let off := x.w 7 + x.next * z
    x.kind = .gather → x.startAt ≤ s.now → 0 < x.count → x.next + 1 < x.count → x.count = x.w 2 → x.w 2 ≤ 32 → x.flight.length < 15 →
    (∀ it ∈ x.flight, it.key ≠ x.next) → x.w2 0 % 128 = 0 → Sys2Proof.Machine.canonical (x.w2 0) = true →
    x.idx = [e] → e.ask = none → e.lines = [l] → l.va = x.w2 0 → l.cls = 0 → l.ret ≤ s.now → z = 4 * 2 ^ (x.sub % 4) →
    i = Sys2Proof.Machine.lineGet l.data (4 * x.next) 4 → x.w 3 ≤ i →
    ∃ t rd, Sys2Proof.Machine.exec .engineItemStart s = .next t ∧
      t.cmd c = { x with
        next := x.next + 1
        startAt := s.now + 1
        flight := x.flight ++ [⟨x.next, rd, some [⟨s.now + 24, 0, true,
          some (.scratch (.scr x.team (64 * m.base + off) x.handle off) (List.replicate z 0))⟩]⟩] } ∧
      (⟨s.now + 24, .ev .engineItemStart ⟨c, 1, 0, BitVec.ofNat 64 x.seq, []⟩⟩ : Sys2Proof.Machine.Due) ∈ t.agenda ∧
      (⟨s.now + 1, .ev .engineItemStart ⟨c, 0, 0, BitVec.ofNat 64 x.seq, []⟩⟩ : Sys2Proof.Machine.Due) ∈ t.agenda ∧
      t = { s with cmds := t.cmds, agenda := t.agenda }) ∧
  (∀ (s : Sys2Proof.Machine.State) (c key gen tm off hoff : Nat) (h : Option Nat) (bs : List Sys2Proof.Byte) (rd : Sys2Proof.Machine.Reading),
    Sys2Proof.Claims.means s c → s.ev.b = 1 → (s.cmd c).parts = [] → (s.cmd c).kind ≠ .thresh →
    (s.cmd c).flight = [⟨key, rd, some [⟨s.now, gen, true, some (.scratch (.scr tm off h hoff) bs)⟩]⟩] →
    ∃ t, Sys2Proof.Machine.exec .engineItemStart s = .next t ∧ (t.cmd c).flight = [] ∧ (t.cmd c).doneAt = s.now ∧
      (∀ a, Sys2Proof.Claims.scratchByte (t.team tm) a =
        if off ≤ a ∧ a < off + bs.length then Sys2Proof.getP 0 bs (a - off) else Sys2Proof.Claims.scratchByte (s.team tm) a) ∧
      (∀ k, k ≠ tm → t.team k = s.team k) ∧ t = { s with cmds := t.cmds, teams := t.teams, agenda := t.agenda }) ∧
  (∀ (s : Sys2Proof.Machine.State) (c : Nat), Sys2Proof.Claims.means s c → (s.cmd c).kind = .coll → (s.cmd c).stopped = false →
    (s.cmd c).ending = false → (s.cmd c).parts = [] →
    (s.ranksIn (s.cmd c) = false → ∃ t, Sys2Proof.Machine.exec .collTimeout s = .next t ∧
      t.cmd c = { s.cmd c with stopped := true, status := 8, flight := [], ending := true } ∧ (∀ j, j ≠ c → t.cmd j = s.cmd j) ∧
      (⟨max (s.cmd c).doneAt s.now + 4, .ev .engineCommandComplete ⟨c, 0, 0, BitVec.ofNat 64 (s.cmd c).seq, []⟩⟩ : Sys2Proof.Machine.Due) ∈
        t.agenda ∧ t = { s with cmds := t.cmds, agenda := t.agenda }) ∧
    (s.ranksIn (s.cmd c) = true → Sys2Proof.Machine.exec .collTimeout s = .next s)) ∧
  (∀ (s : Sys2Proof.Machine.State) (c key gen va k dm sl : Nat) (rd : Sys2Proof.Machine.Reading) (ident : Sys2Proof.DWord)
    (depth : Sys2Proof.Word) (tl : Sys2Proof.Machine.Tile),
    let g := s.cmdAgent (s.cmd c)
    let ls := s.linesAt g va 3072
    let li := Sys2Proof.getP 0 ls (k / 16)
    let ld := Sys2Proof.getP 0 ls (16 + k / 32)
    s.ev.a = c → (s.cmd c).live = true → (s.cmd c).kind = .rast → k < 256 → ls ≠ [] →
    (s.cmd c).flight = [⟨key, rd, some [⟨0, gen, true, some (.pixel va k ident depth false false)⟩]⟩] →
    s.tile (Sys2Proof.getP 0 ls 0) = some tl → tl.st = .opened → s.conflictsAt li true = [] → s.conflictsAt ld true = [] →
    s.refusedAt g.port li (s.genOf g.part li) = none →
    li ≠ ld → s.homeOf g.part li = .slice dm sl → (s.homeCopy li).isSome = true → (s.homeCopy ld).isSome = true →
    (∀ r ∈ s.reqs, ¬(r.live = true ∧ r.waits = true)) →
    ∃ t, Sys2Proof.Machine.exec .rastStallResume s = .next t ∧
      t.peekLine li = Sys2Proof.Machine.linePut (s.peekLine li) (8 * (k % 16)) 8 ident.toNat ∧ t.warps = s.warps ∧ t.teams = s.teams)

/-- 11 R295, R299, R301: where the attribute lease of waiting lanes is gone, each gets its record's fields, and zeros beside them, with p7 set; the
lane of a background record gets them with p7 clear and its material's interpolants as +0; the warp issues 8 cc after the last. -/
def Obligations.LaneDelivery : Prop :=
  (∀ (s : Sys2Proof.Machine.State) (name : Nat), s.ev = ⟨0, 0, name, 0, []⟩ → s.leaseNamed name = none →
    let waits (w l : Nat) : Prop := (s.warp w).live = true ∧ ∃ d ∈ (s.warp w).deliv, d.lane = l ∧ d.due = 0 ∧ ((s.warp w).recOf l).owner = name
    ∃ t, Sys2Proof.Machine.exec .laneDelivery s = .next t ∧
      (∀ w l, waits w l → l < 64 → 10 ≤ (s.warp w).nregs →
        (∀ k < 10, Sys2Proof.getP 0 ((t.warp w).lane l).v k = Sys2Proof.Claims.recordReg ((s.warp w).recOf l) k) ∧
        (∀ k, 10 ≤ k → Sys2Proof.getP 0 ((t.warp w).lane l).v k = Sys2Proof.getP 0 ((s.warp w).lane l).v k) ∧
        ((t.warp w).lane l).pred 7 = true ∧ (∀ d ∈ (t.warp w).deliv, d.lane = l → d.due = s.now + 14)) ∧
      (∀ w l, ¬waits w l → l < 64 → (t.warp w).lane l = (s.warp w).lane l) ∧ t.teams = s.teams) ∧
  (∀ (s : Sys2Proof.Machine.State) (w l : Nat) (rd : Sys2Proof.Machine.Reading) (x y : Sys2Proof.Machine.LineRead),
    let b := (s.warp w).recOf l
    let h := Sys2Proof.Machine.TabHead.of b.table.toNat (Sys2Proof.Machine.lineGet x.data (b.table.toNat % 128) 64)
    let ma := h.mat + 32 * h.bg
    let field (k n : Nat) : Nat := Sys2Proof.Machine.lineGet y.data (ma % 128 + k) n
    let na := field 8 1
    s.ev = ⟨w, l, (s.warp w).placed, 1, []⟩ → (s.warp w).live = true → l < 64 → 10 ≤ (s.warp w).nregs → b.ident.toNat / 2 ^ 62 = 2 →
    (s.warp w).deliv.find? (fun d => d.lane == l && d.due == 0) = some ⟨l, 0, some rd⟩ → rd.ask = none → rd.due = s.now →
    Sys2Proof.Machine.canonical b.table.toNat = true →
    rd.lines.find? (fun q => q.va == b.table.toNat / 128 * 128) = some x → x.cls = 0 → h.ok = true → h.bg < h.nm →
    ma < 2 ^ 64 → Sys2Proof.Machine.canonical ma = true → rd.lines.find? (fun q => q.va == ma / 128 * 128) = some y → y.cls = 0 → na ≤ 16 →
    field 9 7 = 0 → (∀ k < 16, (k < na → field (16 + k) 1 < 16) ∧ (na ≤ k → field (16 + k) 1 = 0)) →
    max (max rd.start x.ret) y.ret + 4 + min (s.warp w).nregs (10 + na) ≤ s.now →
    ∃ t, Sys2Proof.Machine.exec .laneDelivery s = .next t ∧
      (∀ k < 10, Sys2Proof.getP 0 ((t.warp w).lane l).v k = Sys2Proof.Claims.recordReg b k) ∧
      (∀ k, 10 ≤ k → Sys2Proof.getP 0 ((t.warp w).lane l).v k =
        if k < 10 + na ∧ k < (s.warp w).nregs then 0 else Sys2Proof.getP 0 ((s.warp w).lane l).v k) ∧
      ((t.warp w).lane l).pred 7 = false ∧
      (⟨s.now + 1, .ev .laneDelivery ⟨0, 0, b.owner, 0, []⟩⟩ : Sys2Proof.Machine.Due) ∈ t.agenda ∧
      (∀ j < 64, j ≠ l → (t.warp w).lane j = (s.warp w).lane j) ∧
      (∀ v, v ≠ w → t.warp v = s.warp v) ∧ t.teams = s.teams) ∧
  ∀ (s : Sys2Proof.Machine.State) (w : Nat), s.ev = ⟨w, 0, (s.warp w).placed, 2, []⟩ → (s.warp w).live = true →
    (∀ d ∈ (s.warp w).deliv, d.due ≠ 0 ∧ d.due + 8 ≤ s.now) →
    ∃ t, Sys2Proof.Machine.exec .laneDelivery s = .next t ∧
      t.warp w = { s.warp w with deliv := [], busyTo := max (s.warp w).busyTo s.now } ∧ (∀ v, v ≠ w → t.warp v = s.warp v) ∧
      t = { s with warps := t.warps }

/-! ## System: registers, translation, flushes, the handler, images -/

namespace Sys2Proof.Claims
open Sys2Proof Sys2Proof.Machine

/-- The system registers that read as they stand: number, count and value (15 R330). -/
def plainRegs : List (Nat × Nat × (State → Nat → DWord)) := [
  (0x00, 6, fun s i => getP 0 s.trapvec i), (0x01, 6, fun s i => getP 0 s.dbgctl i), (0x02, 4, fun s i => getP 0 s.bkaddr i),
  (0x03, 6, fun s i => getP 0 s.hfcount i), (0x04, 1, fun s _ => s.asidtab), (0x05, 6, fun s i => getP 0 s.pageq i),
  (0x07, 1, fun s _ => s.partcfg), (0x08, 6, fun s i => getP 0 s.lqbase i), (0x20, 64, fun s i => getP 0 s.capmap i),
  (0x21, 96, fun s i => getP 0 s.slmcarve i), (0x22, 6, fun s i => getP 0 s.tilebud i), (0x24, 256, fun s i => getP 0 s.slicetab i),
  (0x25, 7, fun s i => getP 0 s.tkshare i), (0x27, 15, fun s i => getP 0 s.harvest i), (0x28, 1, fun s _ => s.drcfg),
  (0x29, 1024, fun s i => getP 0 s.drroute i), (0x2A, 1, fun s _ => s.hostwin), (0x30, 1, fun s _ => s.pwrctl)]
/-- Those of them that a write only stores: number, count and the bits that it writes. -/
def plainWrites : List (Nat × Nat × DWord) := [
  (0x00, 6, 0x01FFFFFFFFFFFFFC), (0x01, 6, 0xFFFFFFFF0000003F), (0x02, 4, 0xFFFFFFFFFFFFFFFF), (0x04, 1, 0x000FFFFFFFFC0001),
  (0x05, 6, 0x000FFFFFFFFFF001), (0x08, 6, 0x000FFFFFFFFFF00F), (0x29, 1024, 0x00000000800FFFFF), (0x2A, 1, 0xFFFFFFFFFFFFF001)]
/-- The number and the index that `SRD` and `SWR` name (15 R330). -/
def regNumber (o : Ops) : Nat := (o.imm.extractLsb' 0 12).toNat
def regIndex (s : State) (o : Ops) : Nat := (o.imm.extractLsb' 12 16).toNat + if o.sub = 1 then (s.me.sreg o.s3.val.toNat).toNat else 0

/-- An instruction that has issued and waits: no lane, register or predicate of the warp has changed. -/
def Holds (s t : State) : Prop :=
  t.issued = false ∧ t.me = { s.me with retryAt := s.now + 1, stalled := t.me.stalled } ∧ (∀ w, w ≠ s.cur → t.warp w = s.warp w) ∧
    t.teams = s.teams
/-- The drain set of a scope wider than the core is not empty (06 R141). -/
def draining (s : State) (o : Ops) : Prop := o.aux ≠ 0 ∧ storesOut s
/-- What the `TLBI`s drop (16 R346). -/
def dropTable : List ((Ops → Instr) × (State → Ops → TlbEnt → Bool)) := [
  (.tlbiAll, fun _ _ _ => true),
  (.tlbiAsid, fun s o e => !e.glob && e.asid == s.uni o o.s1),
  (.tlbiVa, fun s o e => decide (s.uni o o.s1 < 16384) && e.covers (s.uni o o.s1) (s.uni64 o.s2))]
/-- The TLBs of a scope: the core's own, those of its sector, those of the device (16 R347). -/
def inUnits (o : Ops) (core unit : Nat) : Bool :=
  if o.aux = 0 then unit == core
  else if o.aux = 1 then (if unit < 576 then unit / 96 == core / 96 else unit == 576 + core / 96)
  else true

/-- Cycles from the drop to completion (16 R347). -/
def dropCycles (o : Ops) : Nat := if o.aux = 0 then 20 else if o.aux = 1 then 60 else 120

/-- A thread that the handler makes running (15 R329). -/
def Lane.woken (y : Lane) : Lane := { y with st := .running, fault := none }
def wakes (m : DWord) (l : Nat) (y : Lane) : Lane := if m.getLsbD l = true ∧ y.st = .parked then Lane.woken y else y
/-- A thread that goes on at another address: held where that is its meeting register (02 R28). -/
def resumes (m : DWord) (f : Nat → DWord) (l : Nat) (y : Lane) : Lane :=
  if m.getLsbD l = true ∧ y.st = .parked then
    (if f l = y.meet then { Lane.woken y with pc := f l, st := .held } else { Lane.woken y with pc := f l })
  else y
/-- Every thread of the running warp has exited, outside handler mode, without a record (15 R324, R329). -/
def Ended (s t : State) : Prop :=
  (∀ l < 64, t.me.lane l = { s.me.lane l with st := .exited, fault := none, failing := none }) ∧ t.me.hmode = false ∧ t.me.ended = true ∧
    t.me.traps = [] ∧ (∀ v, v ≠ s.cur → ∀ l < 64, (t.warp v).lane l = (s.warp v).lane l)
/-- The lanes of `active(w)` park with a class and the fetch address (07 R161; 15 R325); nothing else changes (02 R55). -/
def Parks (s t : State) (cls : Nat) : Prop :=
  (∀ l < 64, t.me.lane l = if s.act.getLsbD l = true ∧ (s.me.lane l).st = .running then
    { s.me.lane l with st := .parked, pc := s.ipc, failing := none, fault := some ⟨cls, 0, false, false, 0, false, 0, s.ipc, s.ipc, false⟩ }
    else s.me.lane l) ∧
  t.me = { s.me with lanes := t.me.lanes } ∧ (∀ w, w ≠ s.cur → t.warp w = s.warp w) ∧ t = { s with warps := t.warps }

end Sys2Proof.Claims

/-- 15 R330: SRD writes the register, zero beyond its count and for a write-only one; SWR writes the bits that a register holds and no other
register, and a read-only register or an index beyond the count ignores it; the warp issues next 8 cc after SWR. -/
def Obligations.SystemRegisters : Prop :=
  ∀ (o : Sys2Proof.Ops) (s : Sys2Proof.Machine.State) (sh : Sys2Proof.Shape), Sys2Proof.Claims.contributes s o ≠ [] →
    let n := Sys2Proof.Claims.regNumber o
    let i := Sys2Proof.Claims.regIndex s o
    (s.mayRun (.srd o) sh o → s.idxBad sh o = 0 → ∃ t, Sys2Proof.Machine.exec (.srd o) s = .next t ∧
      (∀ p ∈ Sys2Proof.Claims.plainRegs, p.1 = n → Sys2Proof.Machine.RegEffect s t o 2 (s.pass o)
        (Sys2Proof.Claims.uniform (if i < p.2.1 then (p.2.2 s i).toNat else 0))) ∧
      (n = 0x06 ∨ n = 0x09 ∨ n = 0x0A → Sys2Proof.Machine.RegEffect s t o 2 (s.pass o) (Sys2Proof.Claims.uniform 0))) ∧
    (s.mayRun (.swr o) sh o →
      (∀ p ∈ Sys2Proof.Claims.plainWrites, p.1 = n → i < p.2.1 → ∃ t, Sys2Proof.Machine.exec (.swr o) s = .next t ∧
        (∀ q ∈ Sys2Proof.Claims.plainRegs, ∀ j < q.2.1, q.2.2 t j =
          if q.1 = n ∧ j = i then BitVec.ofNat 64 (s.uni64 o.s1) &&& p.2.2 else q.2.2 s j) ∧
        Sys2Proof.Machine.LaneEffect s { t with
          trapvec := s.trapvec, dbgctl := s.dbgctl, bkaddr := s.bkaddr, asidtab := s.asidtab, pageq := s.pageq, lqbase := s.lqbase
          drroute := s.drroute, hostwin := s.hostwin } (fun _ y => y) (fun _ => none) 8) ∧
      ((n ∈ [0x03, 0x20, 0x27, 0x2C, 0x2F] ∨ ∃ p ∈ Sys2Proof.Claims.plainWrites, p.1 = n ∧ p.2.1 ≤ i) →
        ∃ t, Sys2Proof.Machine.exec (.swr o) s = .next t ∧ Sys2Proof.Machine.LaneEffect s t (fun _ y => y) (fun _ => none) 8))

/-- 16 R343, R346-R348: a TLBI waits for its drain set, drops the entries of its scope, and ends when its time has passed and no access is left
that it waits for; TLBI.map clears published lines, block codes (05 R127) and the instruction-cache copies of its scope; a walk that ends fills the TLBs of its sector
and of the cores that wait for it. -/
def Obligations.Translations : Prop :=
  (∀ p ∈ Sys2Proof.Claims.dropTable, ∀ (o : Sys2Proof.Ops) (s : Sys2Proof.Machine.State) (sh : Sys2Proof.Shape),
    s.mayRun (p.1 o) sh o → s.act ≠ 0 →
    (s.phase ≠ 2 → Sys2Proof.Claims.draining s o → ∃ t, Sys2Proof.Machine.exec (p.1 o) s = .next t ∧ Sys2Proof.Claims.Holds s t ∧ t.tlb = s.tlb) ∧
    (s.phase ≠ 2 → ¬Sys2Proof.Claims.draining s o → ∃ t, Sys2Proof.Machine.exec (p.1 o) s = .next t ∧ Sys2Proof.Claims.Holds s t ∧
      ∀ e, e ∈ t.tlb ↔ e ∈ s.tlb ∧ ¬(Sys2Proof.Claims.inUnits o s.me.core e.unit = true ∧ p.2 s o e = true)) ∧
    (s.phase = 2 → s.datum / 2 ^ 69 + Sys2Proof.Claims.dropCycles o ≤ s.now →
      (s.datum % 32 = 0 ∨ ((∀ m ∈ s.memops, m.live = false) ∧ (∀ c ∈ s.cmds, c.live = false) ∧ ∀ x ∈ s.warps, x.deliv = [])) →
      ∃ t, Sys2Proof.Machine.exec (p.1 o) s = .next t ∧ Sys2Proof.Machine.LaneEffect s t (fun _ y => y) (fun _ => none) 0) ∧
    (s.phase = 2 → s.now < s.datum / 2 ^ 69 + Sys2Proof.Claims.dropCycles o → ∃ t, Sys2Proof.Machine.exec (p.1 o) s = .next t ∧ Sys2Proof.Claims.Holds s t ∧ t.tlb = s.tlb)) ∧
  (∀ (o : Sys2Proof.Ops) (s : Sys2Proof.Machine.State) (sh : Sys2Proof.Shape), s.mayRun (.tlbiMap o) sh o → s.act ≠ 0 →
    let pa := s.uni64 o.s1
    let k := s.uni o o.s2
    let n := 2 ^ (12 + 2 * k)
    k ≤ 7 → pa % n = 0 →
    (s.phase ≠ 2 → ¬Sys2Proof.Claims.draining s o → ∃ t, Sys2Proof.Machine.exec (.tlbiMap o) s = .next t ∧ Sys2Proof.Claims.Holds s t ∧
      (∀ la, la ∈ t.published ↔ la ∈ s.published ∧ ¬(pa ≤ la ∧ la < pa + n)) ∧ (∀ q ∈ t.codes, ¬(pa ≤ q.1 ∧ q.1 < pa + n)) ∧
      (∀ x, x ∈ t.icache ↔ x ∈ s.icache ∧
        ¬(Sys2Proof.Machine.inScope o.aux.toNat s.me.core x.core = true ∧ pa ≤ x.addr ∧ x.addr < pa + n))) ∧
    (s.phase = 2 → s.datum ≤ s.now → ∃ t, Sys2Proof.Machine.exec (.tlbiMap o) s = .next t ∧
      Sys2Proof.Machine.LaneEffect s t (fun _ y => y) (fun _ => none) 0)) ∧
  (∀ (s : Sys2Proof.Machine.State) (i : Nat) (e : Sys2Proof.Machine.TlbEnt), let k := Sys2Proof.getP Sys2Proof.Machine.Walk.idle s.walks i
    s.ev = ⟨i, 0, 0, 0, []⟩ → k.live = true → k.leaf = some e → k.bad = none → k.sector < 6 → (∀ c ∈ k.cores, c < 576) →
    ∃ t, Sys2Proof.Machine.exec .tlbWalkComplete s = .next t ∧ (Sys2Proof.getP Sys2Proof.Machine.Walk.idle t.walks i).live = false ∧
      (k.barred = false → { e with unit := 576 + k.sector, from_ := s.now } ∈ t.tlb ∧
        ∀ c ∈ k.cores, { e with unit := c, from_ := s.now } ∈ t.tlb) ∧
      (k.barred = true → t.tlb = s.tlb) ∧ t = { s with walks := t.walks, tlb := t.tlb })

/-- 17 R365: a flush waits for its drain set, leaves no dirty line that it names, and under INV no line at all but those that are pinned, in a
carve-out or reflections; its warp goes on when its time has passed. -/
def Obligations.CacheFlushes : Prop :=
  ∀ (o : Sys2Proof.Ops) (s : Sys2Proof.Machine.State) (sh : Sys2Proof.Shape) (i : Sys2Proof.Instr) (inv : Bool)
    (names : Sys2Proof.Machine.L2Line → Prop), s.act ≠ 0 →
    let pa := s.uni64 o.s1
    let n := s.uni o o.s2
    let sl := s.uni o o.s1
    let p := s.partOf s.cur
    let range (x : Sys2Proof.Machine.L2Line) : Prop := pa ≤ x.addr ∧ x.addr < pa + 128 * n
    let ranged := pa % 128 = 0 ∧ 0 < n ∧ n ≤ 65536
    let whole := sl ≤ 95 ∧ (s.partcfg.getLsbD 2 = true → s.partOfSector (sl / 16) = p)
    ((i = .l2flWb o ∧ inv = false ∧ ranged ∧ names = range) ∨ (i = .l2flInv o ∧ inv = true ∧ ranged ∧ names = range) ∨
      (i = .l2flSlice o ∧ inv = true ∧ whole ∧ names = fun x => x.slice = sl) ∨
      (i = .l2flPart o ∧ inv = true ∧ names = fun x => s.partOfSector (x.slice / 16) = p)) →
    s.mayRun i sh o →
    (s.phase ≠ 2 → Sys2Proof.Claims.storesOut s → ∃ t, Sys2Proof.Machine.exec i s = .next t ∧ Sys2Proof.Claims.Holds s t ∧ t.l2 = s.l2) ∧
    (s.phase ≠ 2 → ¬Sys2Proof.Claims.storesOut s → ∃ t, Sys2Proof.Machine.exec i s = .next t ∧ Sys2Proof.Claims.Holds s t ∧
      (∀ x ∈ t.l2, names x → x.pinned = false → x.slm = false → x.isRefl = false → inv = false ∧ x.dirty = false) ∧
      (∀ x ∈ s.l2, (x.pinned = true ∨ x.slm = true) → x.isRefl = false → (∀ y ∈ s.l2, y.addr = x.addr → y.isRefl = false → y = x) → x ∈ t.l2)) ∧
    (s.phase = 2 → s.datum ≤ s.now → ∃ t, Sys2Proof.Machine.exec i s = .next t ∧
      Sys2Proof.Machine.LaneEffect s { t with filledSlices := s.filledSlices } (fun _ y => y) (fun _ => none) 0)

/-- 02 R56, R57; 15 R320, R326: where a vector is due the warp enters handler mode at its partition's TRAPVEC, its first instruction 24 cc later;
the cause is the lowest class of the traps that are due; no thread changes, and a pre-emption touches no other warp (02 R38). -/
def Obligations.TakeVector : Prop :=
  ∀ (s : Sys2Proof.Machine.State) (w : Nat), s.ev.a = w → s.vectorDue w = true →
    let x := s.warp w
    ∃ t, Sys2Proof.Machine.exec .handlerVector s = .next t ∧
      (t.warp w).hmode = true ∧ (t.warp w).hpc = ((Sys2Proof.getP 0 s.trapvec (s.partOf w)).setWidth 57).signExtend 64 ∧
      (t.warp w).retryAt = s.now + 24 ∧ (t.warp w).busyTo = s.now + 24 ∧ (t.warp w).oq = [] ∧ (t.warp w).lanes = x.lanes ∧ (t.warp w).s = x.s ∧ (t.warp w).m = x.m ∧
      (x.traps = [] → (t.warp w).cause = ⟨0, 0, 0, 0⟩ ∧ (t.warp w).traps = []) ∧
      (x.traps ≠ [] → (t.warp w).cause ∈ x.traps ∧ (∀ c ∈ x.traps, (t.warp w).cause.cls ≤ c.cls) ∧
        (t.warp w).traps = x.traps.erase (t.warp w).cause) ∧
      ((t.warp w).cause.cls = 0x13 → ∀ v, v ≠ w → t.warp v = s.warp v) ∧
      (∀ v, v ≠ w → (t.warp v).lanes = (s.warp v).lanes ∧ ((s.warp v).rdv = none → (t.warp v).traps = (s.warp v).traps))

/-- 15 R326, R332, R333; 03 R79: TRAP and BRKPT move the lanes on and leave a warp trap of class 0x11 due; an address breakpoint and a port
timeout leave theirs due with nothing executed. -/
def Sys2Proof.Claims.WarpTraps : Prop :=
  (∀ (o : Sys2Proof.Ops) (s : Sys2Proof.Machine.State) (sh : Sys2Proof.Shape) (i : Sys2Proof.Instr) (sub : Nat), s.act ≠ 0 →
    s.me.hmode = false → s.mayRun i sh o → (i = .trap o ∧ sub = 0x80 + o.s2.val.toNat % 128 ∨ i = .brkpt o ∧ sub = 0) →
    ∃ t, Sys2Proof.Machine.exec i s = .next t ∧ t.me.traps = s.me.traps ++ [⟨0x11, sub, s.ipc, BitVec.ofNat 32 sub⟩] ∧
      Sys2Proof.Machine.LaneEffect s (t.setMe { t.me with traps := s.me.traps }) fun _ y => y) ∧
  (∀ (s : Sys2Proof.Machine.State) (w k : Nat), s.ev = ⟨w, k, 0, 0, []⟩ → (s.warp w).hmode = false →
    ∃ t, Sys2Proof.Machine.exec .addressBreakpoint s = .next t ∧
      t.warp w = { s.warp w with traps := (s.warp w).traps ++ [⟨0x11, 0x10 + k, s.ipc, BitVec.ofNat 32 (0x10 + k)⟩] } ∧
      (∀ v, v ≠ w → t.warp v = s.warp v) ∧ t = { s with warps := t.warps }) ∧
  (∀ (s : Sys2Proof.Machine.State) (w c : Nat) (r : Sys2Proof.Machine.Stalled), s.ev.a = w → (s.warp w).live = true →
    (s.warp w).hmode = false → (s.warp w).portSince = some c → (s.warp w).stalled = some r →
    (s.team (s.warp w).team).kern.timeout ≤ s.now + 1 - c → ∃ t, Sys2Proof.Machine.exec .portStallTrap s = .next t ∧
      t.warp w = { s.warp w with
        portSince := none, stalled := none, traps := (s.warp w).traps ++ [⟨0x0B, 0, r.pc, BitVec.ofNat 32 r.datum⟩] } ∧
      (∀ v, v ≠ w → t.warp v = s.warp v) ∧ t = { s with warps := t.warps })

/-- 15 R329, R331, R333; 02 R57: HRPL and HEMU make the parked threads of a mask run again, at the faulting instruction, after it, or at an address
of their own, and lanes of a delivery are delivered again (11 R300); HEND ends the warp; HRET leaves handler mode, the next program issue 24 cc later; ICINV empties the core's instruction cache. -/
def Obligations.HandlerInstructions : Prop :=
  ∀ (o : Sys2Proof.Ops) (s : Sys2Proof.Machine.State) (sh : Sys2Proof.Shape),
    let m : Sys2Proof.DWord := BitVec.ofNat 64 (s.uni64 o.s1)
    let served (k : Sys2Proof.DWord) : Prop := ∀ l < 64, k.getLsbD l = true → (s.me.lane l).st = .parked → ∀ r,
      (s.me.lane l).fault = some r → r.delivery = false
    (s.mayRun (.hrpl o) sh o → served m → ∃ t, Sys2Proof.Machine.exec (.hrpl o) s = .next t ∧
      Sys2Proof.Machine.LaneEffect s t (Sys2Proof.Claims.wakes m) (fun _ => none) 2) ∧
    (s.mayRun (.hrplAll o) sh o → served (BitVec.allOnes 64) → ∃ t, Sys2Proof.Machine.exec (.hrplAll o) s = .next t ∧
      Sys2Proof.Machine.LaneEffect s t (Sys2Proof.Claims.wakes (BitVec.allOnes 64)) (fun _ => none) 2) ∧
    (s.mayRun (.hrpl o) sh o → ∃ t, Sys2Proof.Machine.exec (.hrpl o) s = .next t ∧
      (∀ l < 64, t.me.lane l =
        if m.getLsbD l = true ∧ (s.me.lane l).st = .parked ∧ (∃ r, (s.me.lane l).fault = some r ∧ r.delivery = true) then
          { Sys2Proof.Claims.Lane.woken (s.me.lane l) with pc := s.myTeam.kern.entry } else Sys2Proof.Claims.wakes m l (s.me.lane l)) ∧
      (∀ l < 64, ∀ r, m.getLsbD l = true → (s.me.lane l).st = .parked → (s.me.lane l).fault = some r → r.delivery = true →
        ⟨l, 0, none⟩ ∈ t.me.deliv)) ∧
    (∀ len : Nat → Nat, s.mayRun (.hemu o) sh o →
      (∀ l < 64, m.getLsbD l = true → (s.me.lane l).st = .parked → s.lengthAt s.cur (s.me.lane l).pc = some (len l) ∧
        ∀ r, (s.me.lane l).fault = some r → r.fetch = false) →
      ∃ t, Sys2Proof.Machine.exec (.hemu o) s = .next t ∧ Sys2Proof.Machine.LaneEffect s t
        (Sys2Proof.Claims.resumes m fun l =>
          let q := (s.me.lane l).pc + BitVec.ofNat 64 (len l)
          if q.toNat % 32 = 28 then q + 4 else q) (fun _ => none) 2) ∧
    (s.mayRun (.hemuTo o) sh o → ∃ t, Sys2Proof.Machine.exec (.hemuTo o) s = .next t ∧ Sys2Proof.Machine.LaneEffect s t
      (Sys2Proof.Claims.resumes m fun l => BitVec.ofNat 64 (s.src o .i64 o.s2 l)) (fun _ => none) 2) ∧
    (s.mayRun (.hend o) sh o → ∃ t, Sys2Proof.Machine.exec (.hend o) s = .next t ∧ Sys2Proof.Claims.Ended s t) ∧
    (s.mayRun (.hret o) sh o → ∃ t, Sys2Proof.Machine.exec (.hret o) s = .next t ∧
      t.me = { s.me with
        hmode := false, oq := [], retryAt := s.now + 24, busyTo := s.now + 24, dbgSkip := decide (s.me.cause.cls = 0x11), cause := ⟨0, 0, 0, 0⟩ } ∧
      (∀ w, w ≠ s.cur → t.warp w = s.warp w) ∧ t = { s with warps := t.warps, issued := true }) ∧
    (s.mayRun (.icinv o) sh o → ∃ t, Sys2Proof.Machine.exec (.icinv o) s = .next t ∧
      (∀ x, x ∈ t.icache ↔ x ∈ s.icache ∧ ¬(x.core = s.me.core ∧ x.addr < 2 ^ 52)) ∧
      Sys2Proof.Machine.LaneEffect s { t with icache := s.icache } (fun _ y => y) (fun _ => none) 64)

/-- 03 R60; 07 R180; 15 R321, R324: before any instruction of the table executes, a register beyond the allocation parks its lanes with class 0x01, and
a privileged instruction outside handler mode with class 0x10; an instruction that handler mode bars is a handler fault: its warp ends and the host
is told. -/
def Sys2Proof.Claims.ChecksBeforeIssue : Prop :=
  ∀ (i : Sys2Proof.Instr) (s : Sys2Proof.Machine.State) (sh : Sys2Proof.Shape) (o : Sys2Proof.Ops), Sys2Proof.shapeOf i = some sh →
    Sys2Proof.opsOf i = some o →
    (s.me.regsOk sh o = false → s.me.hmode = false → ∃ t, Sys2Proof.Machine.exec i s = .next t ∧ Sys2Proof.Claims.Parks s t 0x01) ∧
    (s.me.regsOk sh o = true → Sys2Proof.Machine.privileged sh.maj o = true → s.me.hmode = false →
      ∃ t, Sys2Proof.Machine.exec i s = .next t ∧ Sys2Proof.Claims.Parks s t 0x10) ∧
    (s.me.regsOk sh o = true → Sys2Proof.Machine.barred sh.maj = true → s.me.hmode = true → s.me.ended = false →
      ∃ t, Sys2Proof.Machine.exec i s = .next t ∧ Sys2Proof.Claims.Ended s t ∧
        (∃ r, t.posts = s.posts ++ [.handlerFault r] ∧ r.pc = s.me.hpc) ∧
        (Sys2Proof.getP 0 t.hfcount (s.partOf s.cur)).toNat = ((Sys2Proof.getP 0 s.hfcount (s.partOf s.cur)).toNat + 1) % 2 ^ 32)

/-- 15 R335, R336: CTXSV and CTXLD wait for every warp of the team; CTXSV then writes the team's image and takes the team off its core; CTXLD
rebuilds its threads, scalars and registers from the image. -/
def Obligations.ContextImages : Prop :=
  ∀ (o : Sys2Proof.Ops) (s : Sys2Proof.Machine.State) (sh : Sys2Proof.Shape) (ps : List Nat),
    let tm := s.me.team
    let a := s.uni64 o.s1
    let bs := s.teamImage tm
    s.me.cause.cls = 0x13 → a % 4096 = 0 → ps.Nodup → (∀ p ∈ ps, p % 4096 = 0) →
    (s.mayRun (.ctxsv o) sh o →
      (s.phase ≠ 10 ∨ s.allAt tm 10 a = false ∨ s.saveReady tm = false →
        ∃ t, Sys2Proof.Machine.exec (.ctxsv o) s = .next t ∧ Sys2Proof.Claims.Waits s t) ∧
      (s.phase = 10 → s.allAt tm 10 a = true → s.saveReady tm = true → s.imagePages s.cur true a ((bs.length + 4095) / 4096) = .ok ps →
        (∀ p ∈ ps, ∀ k < 32, (∃ d sl, s.homeAny (p + 128 * k) = .slice d sl) ∧ (s.homeCopy (p + 128 * k)).isSome = true) →
        ∃ t, Sys2Proof.Machine.exec (.ctxsv o) s = .next t ∧
          (∀ k < bs.length, t.peekByte (Sys2Proof.getP 0 ps (k / 4096) + k % 4096) = Sys2Proof.getP 0 bs k) ∧
          (t.team tm).live = false ∧ (∀ w ∈ s.myTeam.warps, (t.warp w).live = false) ∧ (∀ k, k ≠ tm → t.team k = s.team k) ∧
          (s.myTeam.bin = none → (t.grid s.myTeam.grid).saved = (s.grid s.myTeam.grid).saved ++ [s.myTeam.num]) ∧
          (⟨s.now + 40, .ev .teamResourcesFree ⟨tm, 0, 0, 0, []⟩⟩ : Sys2Proof.Machine.Due) ∈ t.agenda)) ∧
    (s.mayRun (.ctxld o) sh o →
      (s.phase ≠ 11 → s.phase ≠ 12 → ∃ t, Sys2Proof.Machine.exec (.ctxld o) s = .next t ∧ Sys2Proof.Claims.Waits s t) ∧
      (s.phase = 12 → ∃ t, Sys2Proof.Machine.exec (.ctxld o) s = .next t ∧ Sys2Proof.Machine.LaneEffect s t fun _ y => y) ∧
      (∀ p0 w ws, let get (off n : Nat) : Nat := s.imageGet ps off n
        let start := (4800 + s.myTeam.kern.scratch + 255) / 256 * 256
        s.phase = 11 → s.allAt tm 11 a = true → s.imagePages s.cur false a 1 = .ok [p0] →
        s.imagePages s.cur false a (min 1024 ((max (s.imageGet [p0] 4 4) 4800 + 4095) / 4096)) = .ok ps →
        s.myTeam.warps = w :: ws → w ∉ ws →
        ∃ t, Sys2Proof.Machine.exec (.ctxld o) s = .next t ∧ (∀ k, k ≠ tm → t.team k = s.team k) ∧ (t.team tm).phase = get 17 1 ∧
          (t.team tm).portDisc = get 24 4 ∧
          (∀ k < 64, (t.warp w).sreg k = BitVec.ofNat 32 (get (start + 1664 + 4 * k) 4)) ∧
          (∀ l < 64, let y := (t.warp w).lane l
            y.pc = BitVec.ofNat 64 (get (start + 8 * l) 8) ∧ y.meet = BitVec.ofNat 64 (get (start + 512 + 8 * l) 8) ∧
            y.st = Sys2Proof.Machine.LaneSt.ofCode (get (start + 1024 + l) 1 % 4) ∧
            (0 < (s.warp w).nregs → get (start + 23040) 1 = 4 →
              Sys2Proof.getP 0 y.v 0 = BitVec.ofNat 32 (get (start + 23296) 256 / 2 ^ (32 * l)))) ∧
          Sys2Proof.Claims.l1Empty s t s.me.core))

/-! ## Scheduling, launching, partitions -/

namespace Sys2Proof.Claims
open Sys2Proof Sys2Proof.Machine

/-- An event of the table that comes `n` cycles later, for unit `a` (and `b`). -/
def later (s : State) (n : Nat) (i : Instr) (a : Nat) (b : Nat := 0) : Due := ⟨s.now + n, .ev i ⟨a, b, 0, 0, []⟩⟩
/-- Bytes at a home, as a little-endian number. -/
def stands (t : State) (a n v : Nat) : Prop := ∀ k < n, t.peekByte (a + k) = BitVec.ofNat 8 (v / 2 ^ (8 * k))
/-- A line that stands in its slice. -/
def resident (s : State) (la : Nat) : Prop := (∃ d sl, s.homeAny la = .slice d sl) ∧ (s.homeCopy la).isSome = true
/-- Nothing waits at the ports or on the memory system. -/
def quiet (s : State) : Prop := (∀ r ∈ s.reqs, r.live = false) ∧ (∀ o ∈ s.lineops, o.live = false) ∧ ∀ c ∈ s.channels, c = Channel.idle
/-- A thread held at a meeting value that no running thread of its warp carries (02 R28). -/
def meetingDone (x : Warp) (m : DWord) : Prop := ∀ l < 64, (x.lane l).st = .running → (x.lane l).meet ≠ m
/-- A warp of a team that has not retired. -/
def inTeam (s : State) (k w : Nat) : Prop := w ∈ (s.team k).warps ∧ (s.warp w).live = true ∧ (s.warp w).team = k
/-- No team, no grid and no tile: a context boundary (17 R353). -/
def boundary (s : State) : Prop := (∀ k ∈ s.teams, k.live = false) ∧ (∀ g ∈ s.grids, g.st = .free) ∧ s.tiles = []
/-- BURST and the rate of a partition's buckets (17 R368). -/
def burst (v : DWord) : Nat := max (v.toNat / 2 ^ 16 % 2 ^ 16) (v.toNat % 2 ^ 16)
def rate (s : State) (p : Nat) : Nat := (getP 0 s.tkshare p).toNat % 2 ^ 16
/-- EXTRA (17 R369): what the idle partitions leave, shared out by rate and cores, for a partition that is not idle. -/
def idleSeen (s : State) (p : Nat) : Bool := if (s.part p).idleAt = s.now + 1 then !(s.part p).idleSeen else (s.part p).idleSeen
def shareOf (s : State) (p : Nat) : Nat := if s.sectorsOf p = [] then 0 else rate s p * (s.coresOf p).length
def extra (s : State) (q : Nat) : Nat :=
  if idleSeen s q = true then 0
  else
    let sum (b : Bool) : Nat := (((List.range 6).filter fun p => idleSeen s p == b).map (shareOf s)).sum
    sum true * rate s q / sum false
/-- The fields of a partition that a taken record leaves (17 R356). -/
def tookRecord (s t : State) (p : Nat) : Prop :=
  (t.part p).head = ((s.part p).head + 1) % 2 ^ 32 ∧ (t.part p).takeAt = s.now + 8 ∧ ∀ k, k ≠ p → t.part k = s.part k
/-- A record of partition `p` can be taken (17 R356). -/
def canTake (s : State) (p : Nat) : Prop :=
  (s.part p).halted = false ∧ (s.part p).takeAt ≤ s.now ∧ (s.poolFree p).isSome = true ∧
    ∃ b ∈ (s.part p).bells, b.2 ≤ s.now ∧ let d := (b.1 + 2 ^ 32 - (s.part p).head) % 2 ^ 32; d ≠ 0 ∧ d < 2 ^ 31

end Sys2Proof.Claims

/-- 02 R28, R34, R42, R48, R53; 08 R200: held threads go on together once no running thread carries their meeting value; a warp that is over
retires, with the last of its team the team, whose resources return 40 cc later; a grid that this leaves over gives back its pool entry; the
greed limit makes a warp the youngest of its quarter where another is ready. -/
def Sys2Proof.Claims.Retirement : Prop :=
  (∀ (s : Sys2Proof.Machine.State) (w l : Nat), let x := s.warp w
    s.ev.a = w → x.live = true → x.hmode = false → l < 64 → (x.lane l).st = .held → (x.lane l).meet = s.ev.v →
    Sys2Proof.Claims.meetingDone x s.ev.v → (∀ k < l, (x.lane k).st = .held → ¬Sys2Proof.Claims.meetingDone x (x.lane k).meet) →
    ∃ t, Sys2Proof.Machine.exec .meetingRelease s = .next t ∧
      (∀ k < 64, (t.warp w).lane k = if (x.lane k).st = .held ∧ (x.lane k).meet = s.ev.v then
        { x.lane k with st := .running, meet := Sys2Proof.Machine.noMeeting } else x.lane k) ∧
      t.warp w = { x with lanes := (t.warp w).lanes } ∧ (∀ v, v ≠ w → t.warp v = s.warp v) ∧ t = { s with warps := t.warps }) ∧
  (∀ (s : Sys2Proof.Machine.State) (w : Nat), let x := s.warp w
    let k := s.team x.team
    s.ev.a = w → x.live = true → x.hmode = false → x.ld = 0 → x.st = 0 → x.cp = 0 → x.tl = 0 → x.deliv = [] →
    (∀ l < 64, (x.lane l).st = .exited) → (∀ m ∈ s.memops, m.live = true → m.warp ≠ w) →
    ∃ t, Sys2Proof.Machine.exec .warpRetire s = .next t ∧ (t.warp w).live = false ∧
      (∀ v, v ≠ w → (t.warp v).live = (s.warp v).live ∧ (t.warp v).lanes = (s.warp v).lanes) ∧
      ((∃ v, v ≠ w ∧ Sys2Proof.Claims.inTeam s x.team v) → (t.team x.team).live = k.live ∧ t.grids = s.grids) ∧
      (k.live = true → (∀ v, v ≠ w → ¬Sys2Proof.Claims.inTeam s x.team v) → (t.team x.team).live = false ∧
        Sys2Proof.Claims.later s 40 .teamResourcesFree x.team ∈ t.agenda ∧
        (k.bin = none → 1 < (s.grid k.grid).liveTeams → (t.grid k.grid).liveTeams = (s.grid k.grid).liveTeams - 1) ∧
        (∀ e, let g := s.grid k.grid
          k.bin = none → g.st = .pending → g.liveTeams = 1 → g.nteams ≤ g.next → g.kids = 0 → g.saved = [] → g.parent = none → g.pool = some e →
          (t.part g.part).entry e = ⟨false, ((s.part g.part).entry e).seq, ((s.part g.part).entry e).seq, g.status, s.now⟩ ∧
            (g.host = true → g.irq = true → Sys2Proof.Machine.Post.msix g.part ∈ t.posts)))) ∧
  (∀ (s : Sys2Proof.Machine.State) (k : Nat), s.ev.a = k → (s.team k).holds = true → (s.team k).live = false →
    ∃ t, Sys2Proof.Machine.exec .teamResourcesFree s = .next t ∧ t.team k = Sys2Proof.Machine.Team.idle ∧
      (∀ j, j ≠ k → t.team j = s.team j) ∧ (∀ w, t.warp w = if w ∈ (s.team k).warps then Sys2Proof.Machine.Warp.idle else s.warp w) ∧
      t = { s with warps := t.warps, teams := t.teams }) ∧
  (∀ (s : Sys2Proof.Machine.State) (u : Nat), s.ev.a = u → let q := s.quarter u
    ∃ t, Sys2Proof.Machine.exec .greedLimit s = .next t ∧ (t.quarter u).greed = 0 ∧
      ((∃ w, w ≠ q.last ∧ s.eligible w = true ∧ (s.warp w).unit = u) → (t.quarter u).young = (q.last, s.now) :: q.young.filter fun e => e.1 != q.last) ∧
      (¬(∃ w, w ≠ q.last ∧ s.eligible w = true ∧ (s.warp w).unit = u) → (t.quarter u).young = q.young) ∧
      t.quarter u = { q with greed := 0, young := (t.quarter u).young } ∧ (∀ v, v ≠ u → t.quarter v = s.quarter v) ∧
      t = { s with quarters := t.quarters })

/-- 02 R26, R40, R47, R49, R52, R58: a dispatcher places the next team of the pending grid that comes first, or the records of a bin that is due,
on the lowest core that can hold it: its warps go to the quarters in turn, every thread running at the entry, with the grid's arguments, or each
with its record and the bin's cause and count; the core of a child's team holds no line in its L1 (02 R48). -/
def Sys2Proof.Claims.Placement : Prop :=
  ∀ (s : Sys2Proof.Machine.State) (p c : Nat) (kern : Sys2Proof.Machine.Kernel), s.ev.a = p → s.neverGrid p = none →
    kern.ny = 1 → kern.nz = 1 → c < 576 → s.holdsTeam p c kern false = true → (∀ d < c, s.holdsTeam p d kern false = false) →
    (∀ g, let x := s.grid g
      kern = x.kern → (s.part p).dueBins = [] → (s.part p).restores = [] → s.gridReady p g = true →
      (∀ h, s.gridReady p h = true → h = g ∨ (s.grid h).prio < x.prio ∨ ((s.grid h).prio = x.prio ∧ x.order < (s.grid h).order)) →
      ∃ t k, Sys2Proof.Machine.exec .teamPlacement s = .next t ∧ (s.team k).holds = false ∧ (t.team k).live = true ∧ (t.team k).holds = true ∧
        (t.team k).core = c ∧ (t.team k).grid = g ∧ (t.team k).num = x.next ∧ (t.team k).asid = x.asid ∧ (t.team k).kern = kern ∧
        (t.team k).warps.length = kern.warps ∧ (t.team k).warps.Nodup ∧
        (∀ j, j ≠ k → t.team j = s.team j) ∧ (∀ w, w ∉ (t.team k).warps → t.warp w = s.warp w) ∧
        (∀ i < kern.warps, let y := t.warp (Sys2Proof.getP 0 (t.team k).warps i)
          y.live = true ∧ y.team = k ∧ y.num = i ∧ y.core = c ∧ y.quarter = i % 4 ∧ y.s = x.args ∧ y.retryAt = s.now ∧
            ∀ l < 64, y.lane l = { Sys2Proof.Machine.Lane.idle with st := .running, pc := kern.entry }) ∧
        t.grid g = { x with next := x.next + 1, liveTeams := x.liveTeams + 1 } ∧ (∀ h, h ≠ g → t.grid h = s.grid h) ∧
        (x.host = false → Sys2Proof.Claims.l1Empty s t c) ∧ (t.part p).placeAt = s.now + 8) ∧
    (∀ b bs cause at_ recs rest, let x := s.bin b
      kern = x.kern → (s.part p).dueBins = b :: bs → x.due = (cause, at_, recs) :: rest → at_ ≤ s.now → (∀ r ∈ recs, r.kind = .spawn ∧ r.tile = none) →
      ∃ t k, Sys2Proof.Machine.exec .teamPlacement s = .next t ∧ (s.team k).holds = false ∧ (t.team k).live = true ∧ (t.team k).core = c ∧
        (t.team k).bin = some b ∧ (t.team k).num = x.launched % 2 ^ 24 ∧ (t.team k).gridId = x.gridId ∧ (t.team k).asid = x.asid ∧
        (t.team k).warps.length = kern.warps ∧
        (∀ i < kern.warps, let y := t.warp (Sys2Proof.getP 0 (t.team k).warps i)
          y.live = true ∧ y.team = k ∧ y.sreg 0 = BitVec.ofNat 32 cause ∧ y.sreg 1 = BitVec.ofNat 32 recs.length ∧
            ∀ l < 64,
              (64 * i + l < recs.length → (y.lane l).st = .running ∧ (y.lane l).pc = kern.entry ∧
                (y.lane l).v = (Sys2Proof.getP Sys2Proof.Machine.BinRec.blank recs (64 * i + l)).words.take kern.regs) ∧
              (recs.length ≤ 64 * i + l → (y.lane l).st = .exited)) ∧
        (t.bin b).due = rest ∧ (t.bin b).launched = x.launched + 1 ∧ (t.part p).dueBins = bs ∧ (t.part p).placeAt = s.now + 8)

/-- 17 R354-R359; 09 R249: a doorbell covers records unless it would overfill the ring; a record is taken with HEAD; a grid without dependence takes
a pool entry and an identifier and can be placed 420 cc later; a KIND 0 record without dependence completes at once with status 0, a record that
breaks the limits with status 8; a restore without dependence joins those that wait for placement, or, where its image has another VERSION, is logged with vector 9. -/
def Obligations.LaunchRecords : Prop :=
  (∀ (s : Sys2Proof.Machine.State) (p : Nat), s.ev.a = p →
    let tail := s.ev.v.toNat % 2 ^ 32
    let beyondSize := s.lqSize p < (tail + 2 ^ 32 - (s.part p).head) % 2 ^ 32
    (p < 6 → s.d3hot = false → 4 ≤ s.stage → (s.part p).halted = false → ¬beyondSize → (s.part p).waits = [] →
      ∃ t, Sys2Proof.Machine.exec .launchDoorbell s = .next t ∧
        t.part p = { s.part p with bells := (s.part p).bells ++ [(tail, s.now + 200)] } ∧ (∀ k, k ≠ p → t.part k = s.part k) ∧
        t = { s with parts := t.parts }) ∧
    (6 ≤ p ∨ s.d3hot = true ∨ s.stage < 4 ∨ (s.part p).halted = true ∨ beyondSize → Sys2Proof.Machine.exec .launchDoorbell s = .next s)) ∧
  (∀ (s : Sys2Proof.Machine.State) (p : Nat), s.ev.a = p → Sys2Proof.Claims.canTake s p →
    let r := s.recordAt p
    let none_ : Sys2Proof.Word := 0xFFFFFFFF
    (∀ e, s.recordOk p r = true → r.kind = 1 → s.poolFree p = some e →
      ∃ t g, Sys2Proof.Machine.exec .launchRecord s = .next t ∧ Sys2Proof.Claims.tookRecord s t p ∧ (s.grid g).st = .free ∧
        (r.wtok = none_ → (t.grid g).st = .pending ∧ (t.grid g).readyAt = s.now + 420) ∧ (t.grid g).part = p ∧ (t.grid g).asid = r.asid ∧
        (t.grid g).prio = r.prio ∧ (t.grid g).kern = Sys2Proof.getP Sys2Proof.Machine.Kernel.idle (s.part p).templates r.template ∧
        (t.grid g).nteams = r.teams ∧ (t.grid g).args = r.args ∧ (t.grid g).sb = r.sb ∧ (t.grid g).sz = r.sz ∧ (t.grid g).comp = r.comp ∧
        (t.grid g).host = true ∧ (t.grid g).pool = some e ∧ (t.grid g).id ≠ 0 ∧ (t.grid g).id ≠ 0xFFFFFFFF ∧ (t.grid g).ctx = (t.grid g).id ∧
        (∀ k, k ≠ g → t.grid k = s.grid k) ∧ ((t.part p).entry e).busy = true ∧
        ((t.part p).entry e).seq = ((s.part p).entry e).seq % (2 ^ 19 - 1) + 1) ∧
    (s.recordOk p r = false → ∃ t, Sys2Proof.Machine.exec .launchRecord s = .next t ∧ Sys2Proof.Claims.tookRecord s t p ∧ t.grids = s.grids ∧
      (r.flags % 2 = 1 → Sys2Proof.Machine.Post.msix p ∈ t.posts) ∧
      (1024 ≤ r.stok.toNat → r.kind ≠ 2 → r.comp ≠ 0 → r.comp.toNat % 8 = 0 → Sys2Proof.Claims.resident s (r.comp.toNat / 128 * 128) →
        Sys2Proof.Claims.resident s (s.lqBase p) → Sys2Proof.Claims.stands t r.comp.toNat 8 8)) ∧
    (s.recordOk p r = true → r.kind = 0 → r.wtok = none_ → ∃ t, Sys2Proof.Machine.exec .skipRecord s = .next t ∧
      Sys2Proof.Claims.tookRecord s t p ∧ t.grids = s.grids ∧ (r.flags % 2 = 1 → Sys2Proof.Machine.Post.msix p ∈ t.posts) ∧
      (r.stok = none_ → r.comp ≠ 0 → Sys2Proof.Claims.resident s (r.comp.toNat / 128 * 128) → Sys2Proof.Claims.resident s (s.lqBase p) →
        Sys2Proof.Claims.stands t r.comp.toNat 8 0)) ∧
    (s.recordOk p r = true → r.kind = 2 → r.wtok = none_ → ∃ t, Sys2Proof.Machine.exec .restoreRecord s = .next t ∧
      Sys2Proof.Claims.tookRecord s t p ∧ t.grids = s.grids ∧
      let version := t.imageWord p r.asid r.comp.toNat 4
      ((version = some 1 ∧ ∃ x, (t.part p).restores = (s.part p).restores ++ [x] ∧ x.img = r.comp.toNat ∧ x.prio = r.prio ∧ x.asid = r.asid ∧
          x.readyAt = s.now + 420) ∨
        ((r.stok = none_ → version ≠ some 1) ∧ (t.part p).restores = (s.part p).restores ∧ t.errUncorr = min 65535 (s.errUncorr + 1) ∧
          t.errHead = (s.errHead + 1) % 256 ∧ Sys2Proof.Machine.Post.msix 9 ∈ t.posts ∧
          (p ≠ 9 → Sys2Proof.Machine.Post.msix p ∈ t.posts → Sys2Proof.Machine.Post.msix p ∈ s.posts)))))

/-- 15 R323, R334; 17 R358: a pre-emption request revokes the leases of every resident team that it names, with its port group (03 R77), and sends
each of its warps class 0x13; a warp takes it as a warp trap unless it has ended or one is due; in a handler run it waits. -/
def Sys2Proof.Claims.Preemption : Prop :=
  (∀ (s : Sys2Proof.Machine.State) (p k w : Nat), s.ev.a = p → p < 6 → s.d3hot = false → 4 ≤ s.stage →
    (s.team k).live = true → (s.team k).part = p → (s.team k).gridId = BitVec.ofNat 32 (s.ev.v.toNat / 2 ^ 32) →
    (s.ev.v.getLsbD 0 = true ∨ ∃ j, (s.team j).live = true ∧ (s.team j).part = p ∧ (s.team j).gridId = (s.team k).gridId ∧
      (s.team j).base = (s.team k).base ∧ (s.team j).num = s.ev.v.toNat / 2 ^ 8 % 2 ^ 24) → Sys2Proof.Claims.inTeam s k w →
    ∃ t, Sys2Proof.Machine.exec .preemptRequest s = .next t ∧ Sys2Proof.Claims.later s 0 .preemptTrap w ∈ t.agenda ∧
      (∀ l, (s.lease l).live = true → (s.lease l).team = k → (t.lease l).live = false) ∧
      (∀ v, (t.warp v).live = (s.warp v).live ∧ ∀ l, ((t.warp v).lane l).pc = ((s.warp v).lane l).pc ∧ ((t.warp v).lane l).st = ((s.warp v).lane l).st)) ∧
  (∀ (s : Sys2Proof.Machine.State) (w : Nat), let x := s.warp w
    s.ev.a = w → x.live = true → x.ended = false → (∀ c ∈ x.traps, c.cls ≠ 0x13) →
    ∃ t, Sys2Proof.Machine.exec .preemptTrap s = .next t ∧ t.warp w = { x with traps := x.traps ++ [⟨0x13, 0, 0, 0⟩] } ∧
      (∀ v, v ≠ w → t.warp v = s.warp v) ∧ t = { s with warps := t.warps })

/-- 05 R118; 17 R353, R366-R370: PARTCFG and SLMCARVE change at a context boundary with nothing left in the slices, and are ignored otherwise;
TKSHARE fills every bucket; a core's bucket gains REFILL plus EXTRA up to BURST at each period; an idle change reaches the cores 64 cc later;
ENGBUDGET sets a sector's budget, puts idle engines to sleep, and starts grace on leases beyond it. -/
def Sys2Proof.Claims.PartitionShares : Prop :=
  (∀ (s : Sys2Proof.Machine.State), let ok := Sys2Proof.Claims.boundary s ∧ s.filledSlices = []
    (ok → Sys2Proof.Claims.quiet s → ∃ t, Sys2Proof.Machine.exec .partcfgWrite s = .next t ∧ t.partcfg = s.ev.v &&& 7 ∧
      (∀ p, t.part p = { s.part p with halted := false, idle := false, idleSeen := false }) ∧
      (∀ c < 576, Sys2Proof.getP 0 t.buckets c =
        Sys2Proof.Claims.burst (Sys2Proof.getP 0 s.tkshare (t.partOfSector (Sys2Proof.Machine.sectorOf c)))) ∧
      t = { s with partcfg := t.partcfg, parts := t.parts, buckets := t.buckets, lastCharge := [] }) ∧
    (¬ok → Sys2Proof.Machine.exec .partcfgWrite s = .next s)) ∧
  (∀ (s : Sys2Proof.Machine.State) (i : Nat), s.ev.a = i → i < 7 → Sys2Proof.Claims.quiet s →
    ∃ t, Sys2Proof.Machine.exec .tkshareWrite s = .next t ∧
      (∀ k, Sys2Proof.getP 0 t.tkshare k =
        if k = i then s.ev.v &&& (if i < 6 then 0xFFFFFFFF else 0xFFFF) else Sys2Proof.getP 0 s.tkshare k) ∧
      (∀ c < 576, Sys2Proof.getP 0 t.buckets c =
        Sys2Proof.Claims.burst (Sys2Proof.getP 0 t.tkshare (s.partOfSector (Sys2Proof.Machine.sectorOf c)))) ∧
      t = { s with tkshare := t.tkshare, buckets := t.buckets }) ∧
  (∀ (s : Sys2Proof.Machine.State) (c : Nat), s.ev.a = c → Sys2Proof.Claims.quiet s →
    let p := s.partOfSector (Sys2Proof.Machine.sectorOf c)
    (Sys2Proof.Claims.rate s p ≠ 0 → ∃ t, Sys2Proof.Machine.exec .bucketRefill s = .next t ∧
      (∀ k, Sys2Proof.getP 0 t.buckets k = if k = c then
        min (Sys2Proof.Claims.burst (Sys2Proof.getP 0 s.tkshare p))
          (Sys2Proof.getP 0 s.buckets c + Sys2Proof.Claims.rate s p + Sys2Proof.Claims.extra s p)
        else Sys2Proof.getP 0 s.buckets k) ∧
      t = { s with buckets := t.buckets, refilled := t.refilled }) ∧
    (Sys2Proof.Claims.rate s p = 0 → Sys2Proof.Machine.exec .bucketRefill s = .next s)) ∧
  (∀ (s : Sys2Proof.Machine.State) (p : Nat), s.ev.a = p →
    (∃ t, Sys2Proof.Machine.exec .partitionIdleChange s = .next t ∧ t.part p = { s.part p with idle := !(s.part p).idle } ∧
      Sys2Proof.Claims.later s 64 .idleStateArrival p (if (s.part p).idle then 0 else 1) ∈ t.agenda ∧ (∀ k, k ≠ p → t.part k = s.part k) ∧
      t = { s with parts := t.parts, agenda := t.agenda }) ∧
    (∃ t, Sys2Proof.Machine.exec .idleStateArrival s = .next t ∧ (t.part p).idleSeen = decide (s.ev.b = 1) ∧
      (∀ k, k ≠ p → t.part k = s.part k) ∧ t = { s with parts := t.parts })) ∧
  (∀ (s : Sys2Proof.Machine.State) (sec : Nat), s.ev.a = sec → sec < 6 →
    ∃ t, Sys2Proof.Machine.exec .engbudgetWrite s = .next t ∧
      (∀ k, Sys2Proof.getP 40 t.engbudget k = if k = sec then s.ev.v &&& 0xFF else Sys2Proof.getP 40 s.engbudget k) ∧
      (∀ e, (s.engine e).st ≠ .idle → t.engine e = s.engine e) ∧
      (s.tokensUsed sec ≤ min 40 (s.ev.v.toNat % 256) → ∀ l, t.lease l = s.lease l) ∧
      (∀ l, t.lease l = { s.lease l with grace := (t.lease l).grace }) ∧ (∀ w, t.warp w = s.warp w)) ∧
  (∀ (s : Sys2Proof.Machine.State) (sl : Nat), s.ev.a = sl → sl < 96 →
    let ok := (Sys2Proof.getP 0 s.harvest (9 + sl / 64)).getLsbD (sl % 64) = false ∧ Sys2Proof.Claims.boundary s ∧ sl ∉ s.filledSlices ∧
      ∀ x ∈ s.l2, x.slice = sl → x.slm = false ∧ x.pinned = false
    (ok → ∃ t, Sys2Proof.Machine.exec .slmcarveWrite s = .next t ∧
      (∀ k, Sys2Proof.getP 0 t.slmcarve k =
        if k = sl then BitVec.ofNat 64 (min 2 (s.ev.v.toNat % 4)) else Sys2Proof.getP 0 s.slmcarve k) ∧ t = { s with slmcarve := t.slmcarve }) ∧
    (¬ok → Sys2Proof.Machine.exec .slmcarveWrite s = .next s))

/-! ## Interleave domains, objects, tenures, the pager, stacked memory, links -/

namespace Sys2Proof.Claims
open Sys2Proof Sys2Proof.Machine

/-- Word `k` of a coherence object, and its base (18 R387). -/
def objReg (s : State) (o k : Nat) : DWord := getP 0 s.objtab (8 * o + k)
def baseMask : DWord := 0xFFFFFFFFFFF80
/-- An address lies in a row of an object with a base. -/
def inRows (s : State) (o base a : Nat) : Prop :=
  let w := (objReg s o 1).toNat
  ∃ j < w / 2 ^ 32, base + j * (objReg s o 2).toNat ≤ a ∧ a < base + j * (objReg s o 2).toNat + w % 2 ^ 32
/-- An object may be enabled with a base (18 R387, R388): its home is this device, its rows are whole lines that do not overlap, and no enabled
object shares an address with it. -/
def objValid (s : State) (o base : Nat) : Prop :=
  let w := (objReg s o 1).toNat
  let st := (objReg s o 2).toNat
  base / 2 ^ 42 = s.drcfg.toNat % 2 ^ 10 ∧ 1 ≤ w / 2 ^ 32 ∧ w % 2 ^ 32 % 128 = 0 ∧ st % 128 = 0 ∧ (w / 2 ^ 32 = 1 ∨ w % 2 ^ 32 ≤ st) ∧
    ∀ k, k ≠ o → (objReg s k 0).getLsbD 63 = true → ∀ a, ¬(inRows s o base a ∧ inRows s k ((objReg s k 0) &&& baseMask).toNat a)
/-- *T* of an object (06 R153). -/
def period (s : State) (o : Nat) : Nat := if (objReg s o 3).toNat % 2 ^ 16 = 0 then 65536 else 256 * ((objReg s o 3).toNat % 2 ^ 16)
/-- The error log gains an entry of a kind, and what goes with it (18 R397). -/
def logs (s t : State) (kind unit addr : Nat) : Prop :=
  (∃ c, getP ⟨0, 0, 0, 0, 0⟩ t.errlog (s.errHead % 64) = ⟨kind, c, unit % 2 ^ 16, 0, addr⟩) ∧ t.errHead = (s.errHead + 1) % 256 ∧
    t.errUncorr = min 65535 (s.errUncorr + 1) ∧ t.errCorr = s.errCorr ∧ t.posts = s.posts ++ [.error kind, .msix 9]
/-- A line of the slices that is no reflection and whose home another map moves (17 R362). -/
def rehomed (s t : State) (x : L2Line) : Prop := x.isRefl = false ∧ s.homeSlice x.addr ≠ t.homeSlice x.addr
/-- The map that a commit of domains gives: staged words, the generation one higher (17 R360, R362). -/
def committed (s t : State) (doms : BitVec 16) : Prop :=
  (∀ d < 16, getP 0 t.hashLive (2 * d) = (if doms.getLsbD d then
      (getP 0 s.hashmask (2 * d) &&& ~~~(0xFF#64 <<< 48)) ||| (BitVec.ofNat 64 ((s.domGen d + 1) % 256) <<< 48) else getP 0 s.hashLive (2 * d)) ∧
    getP 0 t.hashLive (2 * d + 1) = if doms.getLsbD d then getP 0 s.hashmask (2 * d + 1) else getP 0 s.hashLive (2 * d + 1)) ∧
  ∀ i < 256, getP 0 t.sliceLive i = if doms.getLsbD (i / 16) then getP 0 s.slicetab i else getP 0 s.sliceLive i
/-- A column (18 R391). -/
def column (s : State) (k b : Nat) : Column := getP Column.whole s.columns (64 * k + b)
def bankOn (s : State) (k b l : Nat) : Bool := (getP 0 s.capmap (9 * k + l)).getLsbD b
/-- The flit of an action: the line, whether it comes back from its home, and the age of its access (18 R379). -/
def flit (s : State) (d : Due) (la : Nat) (back : Bool) (age : Nat) : Prop :=
  (∃ x, (d.act = .ev .requestArrival x ∧ back = false ∨ d.act = .ev .loadReply x ∧ back = true ∨
      x.b ≠ 1 ∧ d.act = .ev .storeAcknowledge x ∧ back = true) ∧ (s.req x.a).live = true ∧ la = (s.req x.a).line ∧ age = (s.req x.a).seq) ∨
  (∃ x, d.act = .ev .copyLineDelivery x ∧ back = false ∧ (s.lineop x.a).live = true ∧ age = (s.lineop x.a).seq ∧
    ((x.b = 1 ∧ la = x.c) ∨ (x.b = 0 ∧ (s.lineop x.a).dstLine = some la)))
/-- The flits that replay delays: those of the same direction of a link from one on (18 R379). -/
def delayed (s : State) (l i : Nat) (back : Bool) (d : Due) : Prop :=
  ∃ la age, flit s d la back age ∧ s.linkOf la = some l ∧ (s.req i).seq ≤ age

end Sys2Proof.Claims

/-- 17 R360-R363: a commit waits for a scan that runs; it is refused where an entry of a named domain is above 95, or two enabled windows would
overlap; else its scan runs 2,056 cc where no line with a changed home is dirty, and at its end the ports hold the staged map of the named domains,
one generation higher, and no line stands in a slice that its home has left. -/
def Sys2Proof.Claims.InterleaveCommits : Prop :=
  (∀ (s : Sys2Proof.Machine.State), let doms : BitVec 16 := s.ev.v.setWidth 16
    (s.scanBusy = true → ∃ t, Sys2Proof.Machine.exec .hashmaskCommit s = .next t ∧
      (⟨s.now + 1, .ev .hashmaskCommit s.ev⟩ : Sys2Proof.Machine.Due) ∈ t.agenda ∧ t = { s with agenda := t.agenda }) ∧
    (s.scanBusy = false → (∃ i < 256, doms.getLsbD (i / 16) = true ∧ 95 < (Sys2Proof.getP 0 s.slicetab i).toNat % 2 ^ 7) →
      Sys2Proof.Machine.exec .hashmaskCommit s = .next s) ∧
    (∀ u, s.scanBusy = false → Sys2Proof.Claims.committed s u doms → (∃ d e g, d < e ∧ e < 16 ∧
        Sys2Proof.Machine.winIn (u.window d) g = true ∧ Sys2Proof.Machine.winIn (u.window e) g = true) →
      Sys2Proof.Machine.exec .hashmaskCommit s = .next s) ∧
    (∀ u, s.scanBusy = false → u = s.withMap (s.nextHash doms) (s.nextSlices doms) → s.commitBad u doms = false →
      (∀ x ∈ s.l2, Sys2Proof.Claims.rehomed s u x → x.dirty = false) →
      ∃ t, Sys2Proof.Machine.exec .hashmaskCommit s = .next t ∧ Sys2Proof.Claims.committed s u doms ∧
        t.scan = some ⟨s.now + 2056, doms, u.hashLive, u.sliceLive⟩ ∧ Sys2Proof.Claims.later s 2056 .commitScanEnd 0 ∈ t.agenda ∧
        t = { s with scan := t.scan, agenda := t.agenda })) ∧
  (∀ (s : Sys2Proof.Machine.State) (k : Sys2Proof.Machine.Scan), s.scan = some k → k.endAt = s.now → (∀ r ∈ s.reqs, r.live = false) →
    ∃ t, Sys2Proof.Machine.exec .commitScanEnd s = .next t ∧ t.hashLive = k.hash ∧ t.sliceLive = k.slices ∧
      (∀ x ∈ t.l2, x ∈ s.l2 ∧ ¬Sys2Proof.Claims.rehomed s t x) ∧ (∀ x ∈ s.l2, x.isRefl = false → ¬Sys2Proof.Claims.rehomed s t x → x ∈ t.l2) ∧
      t = { s with
        hashLive := t.hashLive, sliceLive := t.sliceLive, l2 := t.l2, dram := t.dram, codes := t.codes, queues := t.queues, poisoned := t.poisoned })

/-- 06 R152, R153; 18 R387, R388: an object is enabled where its shape is valid and shares no address with an enabled one, keeps EN clear otherwise,
and is disabled once its tenures are gone; its FLAG clears with a write of 1. -/
def Sys2Proof.Claims.Objects : Prop :=
  ∀ (s : Sys2Proof.Machine.State) (o : Nat), s.ev.a = o → o < 4096 →
    let w := Sys2Proof.Claims.objReg s o 0
    let flag (v : Sys2Proof.DWord) : Sys2Proof.DWord := w &&& ~~~v &&& (1 <<< 62)
    let only (t : Sys2Proof.Machine.State) (v : Sys2Proof.DWord) : Prop :=
      t = { s with objtab := t.objtab } ∧ (∀ k, Sys2Proof.getP 0 t.objtab k = if k = 8 * o then v else Sys2Proof.getP 0 s.objtab k)
    let base := s.ev.v &&& Sys2Proof.Claims.baseMask
    (w.getLsbD 63 = false → Sys2Proof.Claims.objValid s o base.toNat →
      ∃ t, Sys2Proof.Machine.exec .objectEnable s = .next t ∧ only t (base ||| flag s.ev.v ||| (1 <<< 63))) ∧
    (w.getLsbD 63 = false → ¬Sys2Proof.Claims.objValid s o base.toNat →
      ∃ t, Sys2Proof.Machine.exec .objectEnable s = .next t ∧ only t (base ||| flag s.ev.v)) ∧
    (w.getLsbD 63 = true → (∀ k ∈ s.tenures, k.obj ≠ o) →
      ∃ t, Sys2Proof.Machine.exec .objectDisable s = .next t ∧ only t (base ||| flag s.ev.v)) ∧
    (w.getLsbD 63 = true → (∃ k ∈ s.tenures, k.obj = o) → ∃ t, Sys2Proof.Machine.exec .objectDisable s = .next t ∧ t.objtab = s.objtab ∧
      (∀ k ∈ t.tenures, k.obj = o → k.recalled.isSome = true) ∧
      (⟨s.now + 1, .ev .objectDisable s.ev⟩ : Sys2Proof.Machine.Due) ∈ t.agenda ∧ t = { s with tenures := t.tenures, agenda := t.agenda }) ∧
    (∃ t, Sys2Proof.Machine.exec .objectFlagClear s = .next t ∧ only t (w &&& ~~~((1 : Sys2Proof.DWord) <<< 62)))

/-- 06 R152, R153; 18 R389: an unanswered recall stops renewals and reverts the tenure 2T later, flagging its object; a renewal restarts its count; a
tenure is granted where no other conflicts, and a line under it takes its next generation (06 R150); a lapsed or recalled holder loses the
object's lines, a recalled one writing the dirty ones back, and an invalidation of a line takes only the copy of its generation. -/
def Sys2Proof.Claims.Tenures : Prop :=
  (∀ (s : Sys2Proof.Machine.State) (o dev : Nat) (k : Sys2Proof.Machine.Tenure), s.ev.a = o → s.ev.b = dev →
    s.tenures.find? (fun k => k.obj == o && k.dev == dev) = some k →
    (∀ c, k.recalled = some c → c + Sys2Proof.Machine.recallBound dev = s.now → k.noRenew = false →
      ∃ t, Sys2Proof.Machine.exec .tenureRecallTimeout s = .next t ∧ (∀ j ∈ t.tenures, j.obj = o → j.dev = dev → j.noRenew = true) ∧
        Sys2Proof.Claims.later s (2 * Sys2Proof.Claims.period s o) .tenureRevert o dev ∈ t.agenda ∧
        t = { s with tenures := t.tenures, agenda := t.agenda }) ∧
    (k.noRenew = true → (∀ r ∈ s.reqs, r.live = false) → ∃ t, Sys2Proof.Machine.exec .tenureRevert s = .next t ∧
      (∀ j, j ∈ t.tenures ↔ j ∈ s.tenures ∧ ¬(j.obj = o ∧ j.dev = dev)) ∧
      Sys2Proof.Claims.objReg t o 0 = Sys2Proof.Claims.objReg s o 0 ||| (1 <<< 62) ∧
      Sys2Proof.Claims.objReg t o 4 = BitVec.ofNat 64 (dev % 2 ^ 10) ∧
      Sys2Proof.Claims.logs s t 10 o (Sys2Proof.Claims.objReg s o 0 &&& Sys2Proof.Claims.baseMask).toNat) ∧
    (s.ev.c = 0 → k.noRenew = false → ∃ t, Sys2Proof.Machine.exec .tenureRenewal s = .next t ∧
      (∃ j ∈ t.tenures, j = { k with until_ := s.now + Sys2Proof.Claims.period s o }) ∧ t = { s with tenures := t.tenures }) ∧
    (∀ la, la = s.ev.v.toNat / 128 * 128 → s.ev.c = 5 → k.noRenew = false → s.inObject o la = true → ∃ t, Sys2Proof.Machine.exec .tenureRenewal s = .next t ∧
      (∃ j ∈ t.tenures, j = { k with until_ := s.now + Sys2Proof.Claims.period s o }) ∧
      Sys2Proof.lookupN t.gens la = some (((Sys2Proof.lookupN s.gens la).getD 0 + 1) % 2 ^ 16) ∧
      (∀ a, a ≠ la → Sys2Proof.lookupN t.gens a = Sys2Proof.lookupN s.gens a) ∧ t = { s with tenures := t.tenures, gens := t.gens })) ∧
  (∀ (s : Sys2Proof.Machine.State) (o dev : Nat) (write : Bool), s.ev.a = o → s.ev.b = dev → s.ev.c = (if write then 2 else 1) →
    (Sys2Proof.Claims.objReg s o 0).getLsbD 63 = true → (Sys2Proof.Claims.objReg s o 0).getLsbD 62 = false →
    ((∀ k ∈ s.tenures, k.obj = o → k.dev ≠ dev → k.write = false ∧ write = false) →
      ∃ t, Sys2Proof.Machine.exec .tenureRenewal s = .next t ∧ (∃ k ∈ t.tenures, k.obj = o ∧ k.dev = dev ∧ (write = true → k.write = true) ∧
        k.until_ = s.now + Sys2Proof.Claims.period s o ∧ k.recalled = none) ∧ t = { s with tenures := t.tenures, l2 := t.l2 }) ∧
    ((∃ k ∈ s.tenures, k.obj = o ∧ k.dev ≠ dev ∧ (k.write = true ∨ write = true)) →
      ∃ t, Sys2Proof.Machine.exec .tenureRenewal s = .next t ∧
        (∀ k ∈ t.tenures, k.obj = o → k.dev ≠ dev → (k.write = true ∨ write = true) → k.recalled.isSome = true) ∧
        (⟨s.now + 1, .ev .tenureRenewal s.ev⟩ : Sys2Proof.Machine.Due) ∈ t.agenda)) ∧
  (∀ (s : Sys2Proof.Machine.State) (o : Nat) (h : Sys2Proof.Machine.Held), s.ev.a = o → s.held.find? (fun h => h.obj == o) = some h →
    (h.lapse ≤ s.now → ∃ t, Sys2Proof.Machine.exec .tenureLapse s = .next t ∧ (∀ x, x ∈ t.held ↔ x ∈ s.held ∧ x.obj ≠ o) ∧
      t = { s with held := t.held }) ∧
    (s.ev.c ≠ 1 → ∃ t, Sys2Proof.Machine.exec .recallAtHolder s = .next t ∧ (∀ x, x ∈ t.held ↔ x ∈ s.held ∧ x.obj ≠ o) ∧
      (∀ a d g, h.lines = [⟨a, d, true, g⟩] → ∀ i < 128, Sys2Proof.Machine.Memory.get Sys2Proof.Machine.farByte t.remote (a + i) =
        d.extractLsb' (8 * i) 8) ∧ ((∀ l ∈ h.lines, l.dirty = false) → t = { s with held := t.held })) ∧
    (∀ la g, s.ev.c = 1 → s.ev.v.toNat / 128 * 128 = la → s.ev.b = g → (∀ l ∈ h.lines, l.addr = la → l.gen.toNat = g → l.dirty = false) →
      ∃ t, Sys2Proof.Machine.exec .recallAtHolder s = .next t ∧ t = { s with held := t.held } ∧
      (∀ x ∈ s.held, x.obj ≠ o → x ∈ t.held) ∧
      (∀ x ∈ s.held, x.obj = o → ∃ y ∈ t.held, y = { x with lines := y.lines } ∧
        ∀ l, l ∈ y.lines ↔ l ∈ x.lines ∧ ¬(l.addr = la ∧ l.gen.toNat = g))))

/-- 16 R347-R350: a doorbell of an enabled queue rings the pager; a request whose page is mapped answers 0, one without backing 1; a page that is
brought in stands in its frame, which is mapped piece by piece, then its leaf is written and the translations of its address go, and when no access
is left that went through them the completion word is 0; a compressed page queues for a decode engine at priority 3 and waits for its decoding. A
request waits while another is served. 20 R410: an illegal word halts the firmware and posts a message. -/
def Sys2Proof.Claims.PagerRequests : Prop :=
  (∀ (s : Sys2Proof.Machine.State) (p : Nat), s.ev.a = p → p < 6 →
    ((Sys2Proof.getP 0 s.pageq p).getLsbD 0 = true → s.ev.v.toNat < 256 →
      Sys2Proof.Machine.exec .pagerDoorbell s = .next { s with pageDb := s.pageDb ++ [(p, s.ev.v.toNat)] }) ∧
    ((Sys2Proof.getP 0 s.pageq p).getLsbD 0 = false ∨ 256 ≤ s.ev.v.toNat → Sys2Proof.Machine.exec .pagerDoorbell s = .next s)) ∧
  (∀ (s : Sys2Proof.Machine.State) (p slot : Nat) (rest : List (Nat × Nat)), s.pageDb = (p, slot) :: rest →
    let a := (Sys2Proof.getP 0 s.pageq p &&& 0xFFFFFFFFFF000).toNat + 32 * slot
    let asid := s.peek a 4 % 2 ^ 14
    let va := s.peek (a + 8) 8
    let comp := s.peek (a + 16) 8
    let packed := s.peek a 4 / 2 ^ 24 = 1
    let mapped := Sys2Proof.Machine.canonical va = true ∧ (s.walkTables p asid va).leaf.isSome = true
    let k := s.ev.v.toNat / 4 % 16
    let frame := (s.ev.v &&& 0xFFFFFFFFFF000).toNat
    let job : Sys2Proof.Machine.PageJob := ⟨p, asid, va, comp, s.ev.v.toNat, if packed then s.ev.bytes else [], s.ev.b % 6, 0, 0, 0, false, 0⟩
    let answers (v : Nat) : Prop := ∃ t, Sys2Proof.Machine.exec .pagerServe s = .next t ∧ t.pageDb = rest ∧
      (∀ e, Sys2Proof.Machine.canonical comp = true → (s.walkTables p asid comp).leaf = some e → e.ex = false → comp % 4 = 0 →
        Sys2Proof.Claims.resident s (e.phys comp / 128 * 128) → Sys2Proof.Claims.stands t (e.phys comp) 4 v) ∧
      (Sys2Proof.Machine.canonical comp = false → t = { s with pageDb := rest })
    s.fwHalted = false → (s.pageJob.isSome = true → s.ev.a ≠ 3 → s.ev.a ≠ 4 → ∃ t, Sys2Proof.Machine.exec .pagerServe s = .next t ∧
      (⟨s.now + 1, .ev .pagerServe s.ev⟩ : Sys2Proof.Machine.Due) ∈ t.agenda ∧ t = { s with agenda := t.agenda }) ∧
    (s.pageJob = none → (mapped → s.ev.a ≠ 3 → s.ev.a ≠ 4 → answers 0) ∧ (¬mapped → s.ev.a = 0 → answers 1) ∧
      (∀ n, n = 2 ^ (12 + 2 * min 7 k) → ¬mapped → s.ev.a = 1 → (s.leafSlots asid va k).isSome = true → ¬packed → s.ev.bytes.length = 2 ^ (12 + 2 * k) →
        (∀ x ∈ s.l2, x.slm = false) → (∀ i < 2 ^ (5 + 2 * k), Sys2Proof.Claims.resident s (frame + 128 * i)) →
        ∃ t, Sys2Proof.Machine.exec .pagerServe s = .next t ∧ t.pageDb = rest ∧
          (∀ i < 2 ^ (12 + 2 * k), t.peekByte (frame + i) = Sys2Proof.getP 0 s.ev.bytes i) ∧
          (∀ x ∈ t.icache, x ∈ s.icache ∧ ¬(frame ≤ x.addr ∧ x.addr < frame + n)) ∧
          t.pageJob = some { job with stage := 2, piece := 1 } ∧
          (⟨s.now + (40 + (n / 128 + 95) / 96), .ev .pagerServe ⟨4, 0, 0, 0, []⟩⟩ : Sys2Proof.Machine.Due) ∈ t.agenda) ∧
      (¬mapped → s.ev.a = 1 → (s.leafSlots asid va k).isSome = true → packed → (Sys2Proof.Machine.PageJob.unpacked job).isSome = true →
        s.pagerLease = none → s.classEngines job.sector 5 ≠ [] → 5 ≤ s.budget job.sector →
        (∀ c ∈ s.sectors, ∀ q ∈ c.queue, q.warp ≠ Sys2Proof.Machine.pagerWarp) →
        ∃ t, Sys2Proof.Machine.exec .pagerServe s = .next t ∧ t.pageDb = rest ∧ t.pageJob = some job ∧
          (⟨Sys2Proof.Machine.pagerWarp, 5, 1, 3, s.now⟩ : Sys2Proof.Machine.LeaseReq) ∈ (t.sector job.sector).queue ∧
          (∀ q ∈ (s.sector job.sector).queue, q ∈ (t.sector job.sector).queue)))) ∧
  (∀ (s : Sys2Proof.Machine.State) (r : Sys2Proof.Machine.PageJob), s.pageJob = some r → s.fwHalted = false → s.ev.a = 4 →
    let code := r.leaf / 4 % 16
    (∀ l u, r.stage = 0 → r.unpacked = some u → s.pagerLease = some l → (s.lease l).ready = true →
      ∃ t, Sys2Proof.Machine.exec .pagerServe s = .next t ∧ t.pageJob = some { r with stage := 1, until_ := s.now + u.2 } ∧
        (⟨s.now + u.2, .ev .pagerServe ⟨4, 0, 0, 0, []⟩⟩ : Sys2Proof.Machine.Due) ∈ t.agenda ∧ t = { s with pageJob := t.pageJob, agenda := t.agenda }) ∧
    (∀ ls, r.stage = 2 → 4 ^ (code - 7) ≤ r.piece → s.leafSlots r.asid r.va code = some ls → (∀ x ∈ s.l2, x.slm = false) →
      (∀ x ∈ ls, x % 8 = 0 ∧ Sys2Proof.Claims.resident s (x / 128 * 128)) →
      ∃ t, Sys2Proof.Machine.exec .pagerServe s = .next t ∧ (∀ x ∈ ls, Sys2Proof.Claims.stands t x 8 (r.leaf ||| 3)) ∧
        (∀ e ∈ t.tlb, e ∈ s.tlb ∧ ¬(r.asid < 16384 ∧ e.covers r.asid r.va = true)) ∧
        (∃ d b, t.pageJob = some { r with stage := 3, dropped := d, bound := b, until_ := s.now }) ∧
        (⟨s.now + 120, .ev .pagerServe ⟨4, 0, 0, 0, []⟩⟩ : Sys2Proof.Machine.Due) ∈ t.agenda) ∧
    (r.stage = 3 → (r.dropped = false ∨ ((∀ m ∈ s.memops, m.live = false) ∧ (∀ c ∈ s.cmds, c.live = false) ∧ ∀ x ∈ s.warps, x.deliv = [])) →
      ∃ t, Sys2Proof.Machine.exec .pagerServe s = .next t ∧ t.pageJob = none ∧
        (∀ e, Sys2Proof.Machine.canonical r.comp = true → (s.walkTables r.part r.asid r.comp).leaf = some e → e.ex = false → r.comp % 4 = 0 →
          Sys2Proof.Claims.resident s (e.phys r.comp / 128 * 128) → Sys2Proof.Claims.stands t (e.phys r.comp) 4 0))) ∧
  (∀ (s : Sys2Proof.Machine.State), (s.fwHalted = true → Sys2Proof.Machine.exec .pagerServe s = .next s) ∧
    (s.fwHalted = false → s.ev.a = 3 → Sys2Proof.Machine.exec .pagerServe s = .next
      { s with fwHalted := true, fail := 0, posts := s.posts ++ [.firmwareHalt] }))

/-- 18 R390-R395: a lost bank moves its column to penumbra, unprotected or failed; gleaning rebuilds a position every 10 cc and ends unprotected; a
remap waits, begins once the device is vacant, and after 7,864,320 cc leaves a zeroed stack with the live map of the layers that are on. -/
def Sys2Proof.Claims.StackedMemory : Prop :=
  (∀ (s : Sys2Proof.Machine.State) (k b l : Nat), s.ev.a = k → s.ev.b = b → s.ev.c = l → k < 2 → b < 64 → l < 9 →
    Sys2Proof.Claims.bankOn s k b l = true → let c := Sys2Proof.Claims.column s k b
    ∃ t, Sys2Proof.Machine.exec .bankLoss s = .next t ∧ Sys2Proof.Claims.bankOn t k b l = false ∧
      (∀ k' b' l', (k', b', l') ≠ (k, b, l) → k' < 2 → b' < 64 → l' < 9 → Sys2Proof.Claims.bankOn t k' b' l' = Sys2Proof.Claims.bankOn s k' b' l') ∧
      l ∈ (Sys2Proof.Claims.column t k b).dead ∧ (∀ i, i ≠ 64 * k + b → Sys2Proof.getP Sys2Proof.Machine.Column.whole t.columns i =
        Sys2Proof.getP Sys2Proof.Machine.Column.whole s.columns i) ∧
      (c.mode = 0 → (Sys2Proof.Claims.column t k b).lost = l ∧ Sys2Proof.Claims.logs s t 6 (64 * k + b) (2 ^ 16 * k + 2 ^ 8 * b + l) ∧
        (l = c.parity → (Sys2Proof.Claims.column t k b).mode = 2) ∧
        (l ≠ c.parity → (Sys2Proof.Claims.column t k b).mode = 1 ∧ (Sys2Proof.Claims.column t k b).glean = 0 ∧
          Sys2Proof.Claims.later s 10 .gleanStep k b ∈ t.agenda)) ∧
      (c.mode ≠ 0 → (Sys2Proof.Claims.column t k b).mode = 3 ∧ t.errUncorr = min 65535 (s.errUncorr + 2))) ∧
  (∀ (s : Sys2Proof.Machine.State) (k b : Nat), s.ev.a = k → s.ev.b = b → k < 2 → b < 64 →
    let c := Sys2Proof.Claims.column s k b
    c.mode = 1 → c.gleanAt = s.now → ∃ t, Sys2Proof.Machine.exec .gleanStep s = .next t ∧
      (Sys2Proof.Claims.column t k b).glean = c.glean + 1 ∧
      (c.glean + 1 = 786432 → (Sys2Proof.Claims.column t k b).mode = 2 ∧ Sys2Proof.Claims.logs s t 7 (64 * k + b) (2 ^ 16 * k + 2 ^ 8 * b)) ∧
      (c.glean + 1 ≠ 786432 → (Sys2Proof.Claims.column t k b).mode = 1 ∧ Sys2Proof.Claims.later s 10 .gleanStep k b ∈ t.agenda ∧
        t = { s with columns := t.columns, agenda := t.agenda })) ∧
  (∀ (s : Sys2Proof.Machine.State) (k : Nat), s.ev.a = k → k < 2 →
    let gates : Sys2Proof.DWord := s.ev.v &&& 0x3FF
    let idle := (∀ x ∈ s.teams, x.live = false) ∧ (∀ g ∈ s.grids, g.st = .free) ∧ s.tiles = []
    let only (t : Sys2Proof.Machine.State) (r : Sys2Proof.Machine.RemapSt) : Prop :=
      t.remapSt k = r ∧ (∀ j, j ≠ k → t.remapSt j = s.remapSt j) ∧ t = { s with remaps := t.remaps, remapReg := t.remapReg }
    (s.remapSt k = .none → ∃ t, Sys2Proof.Machine.exec .remapGo s = .next t ∧ only t .waiting ∧
      Sys2Proof.getP 0x200 t.remapReg k = gates) ∧
    (s.remapSt k = .waiting → ∃ t, Sys2Proof.Machine.exec .remapCancel s = .next t ∧ only t .none) ∧
    (idle → s.remapSt k = .waiting → ∃ t, Sys2Proof.Machine.exec .remapRun s = .next t ∧ t.remapSt k = .running (s.now + 7864320) ∧
      Sys2Proof.Claims.later s 7864320 .remapComplete k ∈ t.agenda ∧
      (∀ x, (x ∈ t.l2 ↔ x ∈ s.l2 ∧ ¬(s.firstTier x.addr = true ∧ s.stackOf x.addr = k))) ∧ t.dram = s.dram) ∧
    (s.remapSt k = .running s.now → ∃ t, Sys2Proof.Machine.exec .remapComplete s = .next t ∧ t.remapSt k = .none ∧
      t.mapGen = (s.mapGen + 1) % 256 ∧ Sys2Proof.Claims.logs s t 8 k 0 ∧
      ∀ b < 64, (Sys2Proof.Claims.column t k b).mode = (if (Sys2Proof.getP 0x200 s.remapReg k).getLsbD 9 then 0 else 2) ∧
        ∀ l < 9, Sys2Proof.Claims.bankOn t k b l = (!(Sys2Proof.getP 0x200 s.remapReg k).getLsbD l &&
          (Sys2Proof.Config.liveBanks (9 * k + l)).getLsbD b && !(Sys2Proof.Claims.column s k b).dead.contains l)))

/-- 18 R378, R379, R383, R397: a flit that fails its check delays its request and the later flits of its direction of the link by 640 cc, those of
copies and of engine commands with them; a link that goes down
kills the contexts with requests on it; a header error halts its partition, which is empty of its tiles and lines 20,000 cc later; a write to
ERRLOG clears its counts. -/
def Sys2Proof.Claims.LinksAndHalts : Prop :=
  (∀ (s : Sys2Proof.Machine.State) (l i : Nat) (back : Bool), s.ev = ⟨l, i, if back then 1 else 0, 0, []⟩ →
    ∃ t, Sys2Proof.Machine.exec .flitReplay s = .next t ∧
      (∀ d ∈ s.agenda, (Sys2Proof.Claims.delayed s l i back d → (⟨d.at_ + 640, d.act⟩ : Sys2Proof.Machine.Due) ∈ t.agenda) ∧
        (¬Sys2Proof.Claims.delayed s l i back d → d ∈ t.agenda)) ∧
      (back = true → t.agenda.length = s.agenda.length ∧ t = { s with agenda := t.agenda }) ∧
      (∀ t0 c it, back = false → (∃ d ∈ s.agenda, Sys2Proof.Claims.delayed s l i false d) →
        (∀ d ∈ s.agenda, Sys2Proof.Claims.flit s d (s.req i).line false (s.req i).seq → d.at_ = t0) →
        (∃ d ∈ s.agenda, Sys2Proof.Claims.flit s d (s.req i).line false (s.req i).seq) → s.linkOf (s.req i).line = some l →
        it ∈ (s.cmd c).flight → ∃ it' ∈ (t.cmd c).flight, it'.key = it.key ∧
          ((t0 ≤ it.read.due ∧ (∃ a, it.read.ask = some a ∧ a.left = true ∧ a.refl = false ∧ s.linkOf (a.pa / 128 * 128) = some l)) →
            it'.read = { it.read with due := it.read.due + 640 }) ∧
          (¬(t0 ≤ it.read.due ∧ (∃ a, it.read.ask = some a ∧ a.left = true ∧ a.refl = false ∧ s.linkOf (a.pa / 128 * 128) = some l)) →
            it'.read = it.read))) ∧
  (∀ (s : Sys2Proof.Machine.State) (l : Nat), s.ev.a = l → l < 16 →
    (s.drcfg.getLsbD (16 + l) = true → ∃ t, Sys2Proof.Machine.exec .linkDown s = .next t ∧ t.drcfg = s.drcfg &&& ~~~((1 : Sys2Proof.DWord) <<< (16 + l)) ∧
      (∀ r ∈ s.reqs, r.live = true → s.linkOf r.line = some l → s.ctxOf (s.memop r.op).warp ≠ 0 →
        (s.partOf (s.memop r.op).warp, s.ctxOf (s.memop r.op).warp) ∈ t.kills) ∧
      Sys2Proof.Claims.logs s t 5 l 0 ∧ t.warps = s.warps ∧ t.teams = s.teams) ∧
    (s.drcfg.getLsbD (16 + l) = false → Sys2Proof.Machine.exec .linkDown s = .next s)) ∧
  (∀ (s : Sys2Proof.Machine.State), let p := s.partOfSector (s.ev.a % 6)
    (s.part p).halted = false → ∃ t, Sys2Proof.Machine.exec .headerError s = .next t ∧ (t.part p).halted = true ∧ (t.part p).bells = [] ∧
      Sys2Proof.Claims.later s 20000 .partitionHaltComplete p ∈ t.agenda ∧
      (∀ g ∈ s.grids, g.st ≠ .free → g.part = p → g.ctx ≠ 0 → (p, g.ctx) ∈ t.kills) ∧
      (∀ k ∈ s.teams, k.live = true → k.part = p → k.ctx ≠ 0 → (p, k.ctx) ∈ t.kills)) ∧
  (∀ (s : Sys2Proof.Machine.State) (p : Nat), s.ev.a = p → (s.part p).halted = true →
    ∃ t, Sys2Proof.Machine.exec .partitionHaltComplete s = .next t ∧ (∀ x, x ∈ t.tiles ↔ x ∈ s.tiles ∧ x.part ≠ p) ∧
      (∀ x ∈ t.l2, s.partOfSector (x.slice / 16) = p → x.slm = true) ∧ Sys2Proof.Claims.logs s t 4 p 0) ∧
  (∀ (s : Sys2Proof.Machine.State), Sys2Proof.Machine.exec .errlogClear s = .next { s with errCorr := 0, errUncorr := 0 })

/-! ## Power, bring-up, the mailbox -/

namespace Sys2Proof.Claims
open Sys2Proof Sys2Proof.Machine

/-- CLKMHZ (20 R411). -/
def clock (s : State) : Nat := s.pwrctl.toNat % 2 ^ 11
/-- The limit and the draw of PWRCTL, in watts. -/
def limitW (v : DWord) : Nat := v.toNat / 2 ^ 48
def drawW (v : DWord) : Nat := v.toNat / 2 ^ 32 % 2 ^ 16
/-- A mailbox response: what the host is told, and vector 8 (20 R413). -/
def answers (i : Instr) (s : State) (status : Nat) (payload : List Byte) : Prop :=
  exec i s = .next { s with posts := s.posts ++ [.response status payload, .msix 8] }
/-- The mailbox commands (20 R413). -/
def commands : List Instr := [.loadfw, .status, .idcert, .attest, .loadmod, .readlog, .mailboxBadcmd]
/-- The parts of a firmware image of `n + 265` bytes: header and body, key, signature (20 R407). -/
def imageBody (m : List Byte) : List Byte := m.take (m.length - 265)
def imageKey (m : List Byte) : List Byte := (m.drop (m.length - 265)).take 133
def imageSig (m : List Byte) : List Byte := m.drop (m.length - 132)
/-- An image verifies: its key is the one whose digest the device holds, and its signature is that key's over its header and body (20 R406, R407). -/
def sound (m : List Byte) : Bool :=
  decide (sha512 (imageKey m) = Config.keyDigest) && ecdsaOk (imageKey m) (sha512 (imageBody m)) (imageSig m)
/-- Little-endian bytes. -/
def littleEndian (n v : Nat) : List Byte := (List.range n).map fun i => BitVec.ofNat 8 (v / 2 ^ (8 * i))

end Sys2Proof.Claims

/-- 20 R411, R412: CLKMHZ takes a multiple of 25 from 275 to 1100 when no team is resident; a draw that comes to exceed the limit is reported;
D3hot is entered only when idle; a trip sets TRIP and is reported, and afterwards nothing but the mailbox and a reset is served. -/
def Sys2Proof.Claims.PowerStates : Prop :=
  (∀ (s : Sys2Proof.Machine.State), let n := s.ev.v.toNat % 2 ^ 11
    let ok := (∀ k ∈ s.teams, k.live = false) ∧ 275 ≤ n ∧ n ≤ 1100 ∧ n % 25 = 0
    (ok → ∃ t, Sys2Proof.Machine.exec .clockSet s = .next t ∧ Sys2Proof.Claims.clock t = n ∧
      t.pwrctl.toNat / 2 ^ 11 = s.pwrctl.toNat / 2 ^ 11 ∧ t = { s with pwrctl := t.pwrctl }) ∧
    (¬ok → Sys2Proof.Machine.exec .clockSet s = .next s)) ∧
  (∀ (s : Sys2Proof.Machine.State), s.ev.a < 2 ^ 16 →
    ∃ t, Sys2Proof.Machine.exec .drawOverLimit s = .next t ∧ Sys2Proof.Claims.drawW t.pwrctl = s.ev.a ∧
      Sys2Proof.Claims.limitW t.pwrctl = Sys2Proof.Claims.limitW s.pwrctl ∧ t.pwrctl.toNat % 2 ^ 32 = s.pwrctl.toNat % 2 ^ 32 ∧
      (Sys2Proof.Claims.limitW s.pwrctl < s.ev.a → Sys2Proof.Claims.drawW s.pwrctl ≤ Sys2Proof.Claims.limitW s.pwrctl →
        t.posts = s.posts ++ [.drawOver, .msix 8]) ∧
      (s.ev.a ≤ Sys2Proof.Claims.limitW s.pwrctl → t.posts = s.posts) ∧ t = { s with pwrctl := t.pwrctl, posts := t.posts }) ∧
  (∀ (s : Sys2Proof.Machine.State), let idle := (∀ k ∈ s.teams, k.live = false) ∧ ∀ g ∈ s.grids, g.st = .free
    (idle → Sys2Proof.Machine.exec .d3hotEntry s = .next { s with d3hot := true }) ∧
    (¬idle → Sys2Proof.Machine.exec .d3hotEntry s = .next { s with posts := s.posts ++ [.d3Refused] }) ∧
    Sys2Proof.Machine.exec .d0Entry s = .next { s with d3hot := false }) ∧
  (∀ (s : Sys2Proof.Machine.State), s.trip = false →
    Sys2Proof.Machine.exec .overTemperatureTrip s = .next { s with posts := s.posts ++ [.trip], trip := true }) ∧
  (∀ (s : Sys2Proof.Machine.State), s.trip = true →
    (s.agenda = [] → Sys2Proof.Machine.step s = .fault .overTemperature) ∧
    (∀ d r t, s.agenda = d :: r → Sys2Proof.Machine.step s = .next t →
      (∀ i x, d.act = .ev i x → i ∉ Sys2Proof.Claims.commands → i ≠ .reset → i ≠ .overTemperatureTrip →
        (∀ e ∈ r, ∀ x, e.act ≠ .ev .overTemperatureTrip x) → i ≠ .requestArrival →
        t.warps = s.warps ∧ t.l2 = s.l2 ∧ t.dram = s.dram ∧ t.trip = true)))

/-- 20 R405-R407; 18 R374, R380, R390, R395: the stages complete in order, stage 0 once firmware is verified; a stage that fails sets FAIL and stops
the sequence; stage 1 zeroes memory and sets HARVEST, CAPMAP and the first window, stage 2 the links; LOADFW measures an image that verifies, and
sets FAIL for one that does not; a reset starts again at stage 0 with every register at its reset value. -/
def Sys2Proof.Claims.BringUp : Prop :=
  (∀ (s : Sys2Proof.Machine.State), s.ev.a = s.stage → s.stage < 4 → s.fail = 0 → s.d3hot = false → s.fwHalted = false →
    (s.ev.b % 16 ≠ 0 → Sys2Proof.Machine.exec .stageComplete s = .next { s with fail := s.ev.b % 16 }) ∧
    (s.ev.b % 16 = 0 → s.stage = 0 → s.measurement ≠ [] → Sys2Proof.Machine.exec .stageComplete s = .next { s with stage := 1 }) ∧
    (s.ev.b % 16 = 0 → s.stage = 0 → s.measurement = [] → Sys2Proof.Machine.exec .stageComplete s = .next s) ∧
    (s.ev.b % 16 = 0 → s.stage = 1 → ∃ t, Sys2Proof.Machine.exec .stageComplete s = .next t ∧ t.stage = 2 ∧ t.dram = [] ∧
      (∀ k < 2, ∀ b < 64, (Sys2Proof.Claims.column t k b).mode = 0 ∧ ∀ l < 9, Sys2Proof.Claims.bankOn t k b l =
        ((Sys2Proof.Config.liveBanks (9 * k + l)).getLsbD b && !(Sys2Proof.Claims.column s k b).dead.contains l)) ∧
      (t.window 0).getLsbD 63 = true ∧ t.mapGen = 0) ∧
    (s.ev.b % 16 = 0 → s.stage = 2 → ∃ t, Sys2Proof.Machine.exec .stageComplete s = .next t ∧ t.stage = 3 ∧
      (∀ l < 16, t.drcfg.getLsbD (16 + l) = (s.drcfg.getLsbD (32 + l) && !(Sys2Proof.getP 0 s.harvest 11).getLsbD (16 + l))) ∧
      t = { s with stage := 3, drcfg := t.drcfg }) ∧
    (s.ev.b % 16 = 0 → s.stage = 3 → Sys2Proof.Machine.exec .stageComplete s = .next { s with stage := 4 })) ∧
  (∀ (s : Sys2Proof.Machine.State), s.ev.a ≠ s.stage ∨ 4 ≤ s.stage ∨ s.fail ≠ 0 → Sys2Proof.Machine.exec .stageComplete s = .next s) ∧
  (∀ (s : Sys2Proof.Machine.State), let m := s.ev.bytes
    let body := Sys2Proof.Claims.imageBody m
    let told (n : Nat) : List Sys2Proof.Machine.Post := s.posts ++ [.response n [], .msix 8]
    s.trip = false → s.d3hot = false → s.fwHalted = false → s.stage ≤ 1 → 265 ≤ m.length →
    (s.measurement = [] → Sys2Proof.Machine.exec .loadfw s = .next (
      if Sys2Proof.Claims.sound m = false then { s with fail := 1, posts := told 0 }
      else if Sys2Proof.Config.imageSvn body < Sys2Proof.Config.minSvn then { s with fail := 2, posts := told 0 }
      else { s with fail := 0, measurement := Sys2Proof.Machine.sha512 body, fwsvn := Sys2Proof.Config.imageSvn body, posts := told 0 })) ∧
    (s.measurement ≠ [] → Sys2Proof.Machine.exec .loadfw s = .next { s with posts := told 3 })) ∧
  (∀ (s : Sys2Proof.Machine.State), ∃ t, Sys2Proof.Machine.exec .reset s = .next t ∧ t.stage = 0 ∧ t.fail = 0 ∧ t.trip = false ∧ t.d3hot = false ∧ t.fwHalted = false ∧
    t.measurement = [] ∧ t.warps = [] ∧ t.teams = [] ∧ t.grids = [] ∧ t.bins = [] ∧ t.parts = [] ∧ t.l2 = [] ∧ t.tlb = [] ∧ t.dram = [] ∧
    t.errCorr = 0 ∧ t.errUncorr = 0 ∧ (∀ p ∈ Sys2Proof.Claims.plainRegs, ∀ j < p.2.1, p.2.2 t j = p.2.2 Sys2Proof.Machine.State.reset j) ∧
    (∀ d ∈ s.agenda, d.act = .ev .overTemperatureTrip Sys2Proof.Machine.EvArg.none_ → d ∈ t.agenda) ∧ t.now = s.now ∧ t.resetAt = s.now ∧ t.posts = s.posts)

/-- 07 R190; 18 R397; 20 R408, R409, R413: the mailbox answers a bad command or length with BADCMD and a request before its stage with STAGE; STATUS,
IDCERT, ATTEST and READLOG answer their payloads, certificate and attestation with an ECDSA P-521 signature (01 R22); LOADMOD rejects a module whole with its status, or places it: its templates stand, its code is
published; in D3hot, and while the firmware is halted (log entry 123), nothing is served. -/
def Obligations.Mailbox : Prop :=
  ∀ (s : Sys2Proof.Machine.State), s.trip = false →
    (s.d3hot = true ∨ s.fwHalted = true → ∀ i ∈ Sys2Proof.Claims.commands, Sys2Proof.Machine.exec i s = .next s) ∧
    (s.d3hot = false → s.fwHalted = false →
      Sys2Proof.Claims.answers .mailboxBadcmd s 2 [] ∧
      (s.ev.bytes ≠ [] → Sys2Proof.Claims.answers .status s 2 [] ∧ Sys2Proof.Claims.answers .readlog s 2 []) ∧
      (s.ev.bytes = [] → (∃ p, Sys2Proof.Claims.answers .status s 0 p) ∧ ∃ p, Sys2Proof.Claims.answers .readlog s 0 p) ∧
      (s.stage = 0 → Sys2Proof.Claims.answers .idcert s 1 [] ∧ Sys2Proof.Claims.answers .attest s 1 []) ∧
      (1 ≤ s.stage → s.ev.bytes = [] → Sys2Proof.Claims.answers .idcert s 0 Sys2Proof.Machine.certificate) ∧
      (1 ≤ s.stage → s.ev.bytes.length = 64 →
        let told := s.ev.bytes ++ s.measurement ++ Sys2Proof.Claims.littleEndian 4 s.fwsvn ++ Sys2Proof.Claims.littleEndian 8 s.partcfg.toNat ++
          Sys2Proof.Machine.sha512 ((List.range 15).flatMap fun i => Sys2Proof.Claims.littleEndian 8 (Sys2Proof.getP 0 s.harvest i).toNat)
        Sys2Proof.Claims.answers .attest s 0 (told ++ Sys2Proof.Machine.signed Sys2Proof.Config.identityKey told)) ∧
      (1 ≤ s.stage → s.ev.bytes ≠ [] → Sys2Proof.Claims.answers .idcert s 2 []) ∧
      (1 ≤ s.stage → s.ev.bytes.length ≠ 64 → Sys2Proof.Claims.answers .attest s 2 []) ∧
      (2 ≤ s.stage → Sys2Proof.Claims.answers .loadfw s 1 []) ∧
      (s.stage < 2 → Sys2Proof.Claims.answers .loadmod s 1 []) ∧
      (2 ≤ s.stage → s.ev.bytes.length < 32 → Sys2Proof.Claims.answers .loadmod s 0 [1, 0, 0, 0]) ∧
      (2 ≤ s.stage → 32 ≤ s.ev.bytes.length → s.ev.bytes.take 6 = [0x53, 0x4E, 0x53, 0x59, 2, 0] →
        Sys2Proof.Claims.answers .loadmod s 0 [2, 0, 0, 0]) ∧
      (∀ m l, let p := s.ev.a % 6
        2 ≤ s.stage → Sys2Proof.Machine.finalise s.ev.bytes ⟨s.ev.b / 4096 * 4096, s.ev.v.toNat / 4096 * 4096, s.ev.c / 4096 * 4096⟩
          (s.bins.filter fun b => b.live && b.part == p).length = .ok (m, l) →
        ∃ t, Sys2Proof.Machine.exec .loadmod s = .next t ∧ (t.part p).templates = l.templates ∧
          (∀ i < (l.code.length + 127) / 128, s.ev.b / 4096 * 4096 + 128 * i ∈ t.published) ∧
          t.posts = s.posts ++ [.response 0 [0, 0, 0, 0], .msix 8] ∧ t.warps = s.warps ∧ t.teams = s.teams ∧ t.grids = s.grids))

/-! ## The whole machine: reset, decoding, steps, memory -/

namespace Sys2Proof.Claims
open Sys2Proof Sys2Proof.Machine

/-- The memories of a state are in canonical form: the device's own, the far one, and the scratch of every team. -/
def canonicalMemory (s : State) : Prop :=
  Memory.wf zeroByte s.dram = true ∧ Memory.wf farByte s.remote = true ∧ ∀ k ∈ s.teams, Memory.wf zeroByte k.scratch = true

/-- A fetch of warp `w` at `pc` fails with a class: the running lanes of `active(w)` park there, with a record that names the address, and the
step is over (`v` is the state after the look-ups of the fetch). -/
def fetchFails (s v : State) (w : Nat) (act : BitVec 64) (pc : DWord) (cls : Nat) : Prop :=
  ∃ t r, step s = .next t ∧ r.cls = cls ∧ r.pc = pc ∧ (cls ≠ 0x03 → r.addr = pc) ∧
    (∀ l < 64, let y := (s.warp w).lane l
      (t.warp w).lane l = if act.getLsbD l = true ∧ y.st = .running then { y with st := .parked, pc := pc, fault := some r } else y) ∧
    (∀ k, k ≠ w → t.warp k = s.warp k) ∧ t = { v with warps := t.warps, quarters := t.quarters }

/-- The failure of such a fetch is known at a later cycle: until then its running lanes issue nothing (16 R345). -/
def fetchFailsAt (s v : State) (w : Nat) (act : BitVec 64) (pc : DWord) (cls at_ : Nat) : Prop :=
  ∃ t r, step s = .next t ∧ r.cls = cls ∧ r.pc = pc ∧ r.addr = pc ∧
    (∀ l < 64, let y := (s.warp w).lane l
      (t.warp w).lane l = if act.getLsbD l = true ∧ y.st = .running then { y with failing := some (at_, r) } else y) ∧
    (∀ k, k ≠ w → t.warp k = s.warp k) ∧ t = { v with warps := t.warps, quarters := t.quarters, agenda := t.agenda }

/-- Words of the spec's own examples with the instructions they stand for: `NOP`; `p1? FADD v4, v5, v6`; `p1? BRA` 62 words on;
`IADD v4, v4, 37`; `IADD v6, v6.lr, -3`; `ICMP.LT p1, v3, 0`; `REDUCE.fadd s4, v6`; `LOOP x0` 20 words back; `PUSH.xp v4`;
`GLD.b32.DEVICE v4, [v8+64]`; `FSUB v22, v10.bfly(1), v10`; `SRD s4, CAPMAP[18]`; `FADD v4, v5, v6 | IADD v9, v10, v11`. -/
def exampleWords : List (Nat × Nat × Instr) :=
  let imm (n : BitVec 8) : Operand := ⟨.imm, n, false, Desc.off⟩
  [(64, 0x0000000000000004, .nop (bareOps 0 0 0 0 0 0)),
   (64, 0x0000000181410540, .fadd (bareOps 1 0 4 5 6 0)),
   (64, 0x00003E0000000408, .bra (bareOps 1 0 0 0 0 62)),
   (64, 0x00100009410100C0, .iadd { bareOps 0 0 4 4 0 0 with s2 := imm 37 }),
   (64, 0x0030003F418180C0, .iadd { bareOps 0 0 6 0 0 0 with s1 := ⟨.vec, 6, true, Desc.off⟩, s2 := imm 253 }),
   (64, 0x0811000000C04124, .icmp { bareOps 0 0 1 3 0 0 with kd := .pred, s2 := imm 0, sub := 2 }),
   (64, 0x2000800001810088, .reduce { bareOps 0 0 4 6 0 0 with kd := .scal, sub := 8 }),
   (64, 0xFFFFEC0000020034, .loop (bareOps 0 0 8 0 0 0xFFFFEC)),
   (64, 0x04000000010002F0, .push { bareOps 0 0 0 4 0 0 with sub := 1 }),
   (64, 0x3010041002010200, .gld { bareOps 0 0 4 8 0 0 with s2 := imm 64, sub := 12, aux := 2 }),
   (96, 0x808000000000000282858145, .fsub { bareOps 0 0 22 0 10 0 with form := .w96r, s1 := ⟨.vec, 10, false, ⟨4, 1, false, 0, 0⟩⟩ }),
   (96, 0x000120200000804000010371, .srd { bareOps 0 0 4 0 0 0 with form := .w96i, kd := .scal, imm := 0x12020 }),
   (128, 0x00000002C28240C00000000181410143,
     .pairedWord ⟨0x50, { bareOps 0 0 4 5 6 0 with form := .slot }⟩ ⟨0x30, { bareOps 0 0 9 10 11 0 with form := .slot }⟩)]

end Sys2Proof.Claims

/-- 10 R268; 15 R330; 17 R368, R370; 20 R405, R406: right after reset no stage is complete, no firmware is loaded, nothing is resident or cached, TRAPVEC,
PARTCFG and CAPMAP are 0, every tile budget is 1,024, every engine budget 40 and the queue weights are 0x1248. -/
def Obligations.ResetState : Prop :=
  let s := Sys2Proof.Machine.State.reset
  s.stage = 0 ∧ s.fail = 0 ∧ s.trip = false ∧ s.fwsvn = 0 ∧ s.bootstat = 0 ∧ (∀ w, (s.warp w).live = false) ∧
    (∀ k, (s.team k).live = false) ∧ (∀ g, (s.grid g).st = .free) ∧ s.l1 = [] ∧ s.l2 = [] ∧ s.tlb = [] ∧ s.icache = [] ∧
    (∀ i, s.readReg 0x00 i = 0) ∧ s.readReg 0x07 0 = 0 ∧ (∀ i, s.readReg 0x20 i = 0) ∧ (∀ i < 6, s.readReg 0x22 i = 1024) ∧
    (∀ i < 6, s.readReg 0x26 i = 40) ∧ (∀ i < 6, s.readReg 0x25 i = 0) ∧ s.readReg 0x25 6 = 0x1248 ∧ (∀ i < 2, s.readReg 0x2D i = 0x200) ∧
    (∀ i < 128, s.readReg 0x2C i = 0xF0) ∧ ∀ e, (s.engine e).st = .dormant

/-- 07 R159-R175; 08 R196; the worked encodings of 07, 08, 09 and 15: words of the spec's own examples decode to the instructions they stand for. -/
def Obligations.DecodedWords : Prop :=
  ∀ p ∈ Sys2Proof.Claims.exampleWords, Sys2Proof.decodeTableWord p.1 p.2.1 = some p.2.2

/-- 07 R161; 16 R343, R345: a fetch that fails parks every running lane of `active(w)` with the first of the classes that apply, at once or when
its walk ends; one whose translation is not ready is tried again when it is; a privileged instruction outside handler mode parks the lanes at its
issue. -/
def Obligations.FetchFaults : Prop :=
  (∀ (s : Sys2Proof.Machine.State) (w : Nat) (act : BitVec 64) (pc : Sys2Proof.DWord), s.trip = false → s.ph = 2 → s.nextWarp = some w →
    let x := s.warp w
    x.acq = none → x.choice = none → x.selection = (act, pc) → x.hmode = false →
    (pc.toNat % 4 ≠ 0 → Sys2Proof.Claims.fetchFails s s w act pc 0x06) ∧
    (pc.toNat % 4 = 0 → Sys2Proof.Machine.canonical pc.toNat = false → Sys2Proof.Claims.fetchFails s s w act pc 0x05) ∧
    (∀ (u : Sys2Proof.Machine.State) (tr : Sys2Proof.Machine.Xlate), pc.toNat % 4 = 0 → Sys2Proof.Machine.canonical pc.toNat = true →
      s.coreLookup (s.partOf w) x.core (s.team x.team).asid pc.toNat s.now = (u, tr) →
      (tr.ent = none → s.now < tr.ready → Sys2Proof.Claims.fetchFailsAt s u w act pc tr.cls tr.ready) ∧
      (∀ e, tr.ent = some e →
        (e.ex = false → tr.ready ≤ s.now → Sys2Proof.Claims.fetchFails s u w act pc 0x05) ∧
        (e.ex = false → s.now < tr.ready → Sys2Proof.Claims.fetchFailsAt s u w act pc 0x05 tr.ready) ∧
        (e.ex = true → s.now < tr.ready → x.busyTo ≠ s.now → ∃ t, Sys2Proof.Machine.step s = .next t ∧
          t.warp w = { x with retryAt := max (s.now + 1) tr.ready } ∧ (∀ k, k ≠ w → t.warp k = s.warp k) ∧
          t = { u with warps := t.warps, quarters := t.quarters }) ∧
        (e.ex = true → (tr.ready ≤ s.now ∨ x.busyTo = s.now) → ∀ v,
          (∀ c, u.codeLine (s.partOf w) x.core (e.phys pc.toNat) = (v, .error c) → Sys2Proof.Claims.fetchFails s v w act pc c) ∧
          (∀ d, u.codeLine (s.partOf w) x.core (e.phys pc.toNat) = (v, .ok d) →
            let k := 128 - e.phys pc.toNat % 128
            let bs := Sys2Proof.Machine.toBytes k (Sys2Proof.Machine.lineGet d (e.phys pc.toNat % 128) k)
            let n := Sys2Proof.formBytes ((bs.headD 0).toNat % 4)
            (32 < pc.toNat % 32 + n → Sys2Proof.Claims.fetchFails s v w act pc 0x02) ∧
            (pc.toNat % 32 + n ≤ 32 → (∃ r, Sys2Proof.decode bs = .error r) → Sys2Proof.Claims.fetchFails s v w act pc 0x01)))))) ∧
  (∀ (i : Sys2Proof.Instr) (s : Sys2Proof.Machine.State) (sh : Sys2Proof.Shape) (o : Sys2Proof.Ops), Sys2Proof.shapeOf i = some sh →
    Sys2Proof.opsOf i = some o → s.me.regsOk sh o = true → Sys2Proof.Machine.privileged sh.maj o = true → s.me.hmode = false →
    ∃ t, Sys2Proof.Machine.exec i s = .next t ∧ Sys2Proof.Claims.Parks s t 0x10)

/-- 02 R414; 07 R160, R161; 20 R412: in its turn a warp runs the instruction that the bytes at its PC decode to: the step is its execution with
the addresses of the instruction and of the next one, followed by what an issue leaves; a due action of the agenda is executed with its operands. -/
def Obligations.StepRunsDecoded : Prop :=
  (∀ (s u v : Sys2Proof.Machine.State) (w : Nat) (act : BitVec 64) (pc : Sys2Proof.DWord) (tr : Sys2Proof.Machine.Xlate)
    (e : Sys2Proof.Machine.TlbEnt) (d : BitVec 1024) (i : Sys2Proof.Instr) (rest : List Sys2Proof.Byte),
    s.trip = false → s.ph = 2 → s.nextWarp = some w →
    let x := s.warp w
    let p := s.partOf w
    let k := 128 - e.phys pc.toNat % 128
    let n := k - rest.length
    let q := pc + BitVec.ofNat 64 n
    let t : Sys2Proof.Machine.State := { v with
      cur := w, act := act, issued := true, ipc := pc, npc := if q.toNat % 32 = 28 then q + 4 else q }
    x.acq = none → x.choice = none → x.selection = (act, pc) → (tr.ready ≤ s.now ∨ x.busyTo = s.now) → pc.toNat % 4 = 0 → Sys2Proof.Machine.canonical pc.toNat = true →
    s.coreLookup p x.core (s.team x.team).asid pc.toNat s.now = (u, tr) → tr.ent = some e → e.ex = true →
    u.codeLine p x.core (e.phys pc.toNat) = (v, .ok d) →
    Sys2Proof.decode (Sys2Proof.Machine.toBytes k (Sys2Proof.Machine.lineGet d (e.phys pc.toNat % 128) k)) = .ok (i, rest) →
    pc.toNat % 32 + n ≤ 32 → ((v.warp w).hmode = true ∨ (v.warp w).dbgSkip = true ∨ v.selected w = false ∨
      ∀ k < 4, (Sys2Proof.getP 0 v.dbgctl (v.partOf w)).getLsbD (2 + k) = true → Sys2Proof.getP 0 v.bkaddr k ≠ pc) →
    v.scoreboard w (Sys2Proof.Machine.keysOf (v.warp w).hmode i) = false → t.slow i = false →
    Sys2Proof.Machine.step s = Sys2Proof.Machine.after (Sys2Proof.Machine.State.finish i x.stalled (t.pendingOf i)) (Sys2Proof.Machine.exec i t)) ∧
  (∀ (s : Sys2Proof.Machine.State) (p core pa : Nat) (c : Sys2Proof.Machine.CLine),
    s.icache.find? (fun x => x.core == core && x.addr == Sys2Proof.Machine.lineOf pa) = some c → s.codeLine p core pa = (s, .ok c.data)) ∧
  (∀ (s : Sys2Proof.Machine.State) (at_ : Nat) (i : Sys2Proof.Instr) (x : Sys2Proof.Machine.EvArg) (r : List Sys2Proof.Machine.Due),
    s.trip = false → s.ph = 1 → s.agenda = ⟨at_, .ev i x⟩ :: r → at_ ≤ s.now → i ≠ .requestArrival →
    (∀ d ∈ s.agenda, d.at_ ≤ s.now → ∀ y, d.act ≠ .ev .overTemperatureTrip y) →
    Sys2Proof.Machine.step s = Sys2Proof.Machine.exec i { s with agenda := r, ev := x })

/-- 07 R159-R175; 08 R196: every legal instruction is read back from its own bytes, with every operand at every value that its encoding admits,
whatever bytes follow. -/
def Obligations.RoundTrip : Prop :=
  ∀ (i : Sys2Proof.Instr) (rest : List Sys2Proof.Byte), i.encodable = true → i.wf = true →
    Sys2Proof.decode (Sys2Proof.encode i ++ rest) = .ok (i, rest)

/-- The memories of the state after reset are in canonical form (log entry 5: what an unlisted address reads as). -/
def Obligations.ResetMemory : Prop := Sys2Proof.Claims.canonicalMemory Sys2Proof.Machine.State.reset

/-- Every step keeps the memories in canonical form: addresses strictly rising, no entry equal to what an unlisted
address reads as (log entry 5). -/
def Obligations.StepKeepsMemory : Prop :=
  ∀ (s t : Sys2Proof.Machine.State), Sys2Proof.Claims.canonicalMemory s → Sys2Proof.Machine.step s = .next t →
    Sys2Proof.Claims.canonicalMemory t

/-! ## Statements of more than one part -/

/-- 08 R206: the 64-bit, move and address instructions. 08 R211: the packed 16-bit instructions work element by element. 08 R212: conversions between
float formats and integers. 08 R213, R214: LNS6 elements, packing, unpacking and quantised elements. 08 R206, R211-R214: their majors and the cycles
to their results. It concludes that exec answers a next state for `iadd64`, `imul64`, `lea`, `mov`, `movi`, `hadd2`, `hmul2`, `hfma2`, `hmin2`,
`hmax2`, `hcmp2`, `fdot2`, `f2f`, `f2i`, `i2f`, `i2i`, `ln2f`, `f2ln`, `pack`, `unpk`, `dqbl`. -/
def Obligations.MovesConversionsAndPacking : Prop :=
  Sys2Proof.Claims.WideAndMoves ∧ Sys2Proof.Claims.Packed16 ∧ Sys2Proof.Claims.Conversions ∧ Sys2Proof.Claims.NarrowElements ∧ Sys2Proof.Claims.MoveTimes

/-- 08 R209: reciprocals, square roots and division round the exact value once, on the special unit. 08 R210: the FP64 instructions, on the FP64 unit. 08
R194: an instruction whose function unit is busy has not issued: it is tried again in the next cycle, and every register, flag and program counter
keeps its value. 08 R209, R210: the majors and the cycles to the results of every instruction of these units. It concludes that exec answers a next
state for `frcp`, `frsq`, `fsqrt`, `fdiv`, `dadd`, `dsub`, `dmul`, `dfma`, `dmin`, `dmax`, `dcmp`, `ddiv`, `dsqrt`. -/
def Obligations.FunctionUnits : Prop :=
  Sys2Proof.Claims.SpecialUnit ∧ Sys2Proof.Claims.Float64 ∧ Sys2Proof.Claims.BusyUnitStalls ∧ Sys2Proof.Claims.UnitTimes

/-- 08 R217: REDUCE gives the fixed butterfly of its operation, SCAN and SCANX the fixed prefixes; a lane that does not contribute enters as the identity.
08 R218, R219: agreement, matching, the first lane, the count and the value of one lane. 08 R216-R220: the majors and the cycles to the results of the
lane operations. It concludes that exec answers a next state for `reduce`, `scan`, `scanx`, `agreeSome`, `agreeEvery`, `agreeMask`, `matchL`,
`firstL`, `popl`, `rdln`. -/
def Obligations.LaneOperations : Prop :=
  Sys2Proof.Claims.Reductions ∧ Sys2Proof.Claims.Agreement ∧ Sys2Proof.Claims.LaneTimes

/-- 08 R219; 03 R70: SHFL, BCAST and LMOV read the source of another lane, whatever its state; LMOV reads it through the modifier in SUB and SRC2. 08
R219: WRLN writes its value in lane `b` mod 64, and only if that lane contributes. 08 R220: PERM gives each byte the byte that its selector names; it
waits while an LDPAT of its warp is replacing its table. It concludes that exec answers a next state for `shfl`, `bcast`, `lmov`, `wrln`, `perm`. -/
def Obligations.LaneMovement : Prop :=
  Sys2Proof.Claims.LaneMoves ∧ Sys2Proof.Claims.WriteLane ∧ Sys2Proof.Claims.Permute

/-- 08 R197, R200: the branches set the PC of their lanes, 4 cc to the next issue; every other lane advances. 08 R197: CALL and CALLX save the address
that follows in their pair and set the PC. 08 R197, R198: LOOP counts its index register down and branches while it is not zero; JTAB goes to the
entry that a lane selects from an aligned table. 08 R198: a JTAB whose target is not a multiple of 8 parks every lane that selects an entry, with
class 0x06; the other lanes advance. It concludes that exec answers a next state for `nop`, `bra`, `brx`, `brall`, `brany`, `call`, `callx`, `ret`,
`loop`, `jtab`. -/
def Obligations.ControlFlow : Prop :=
  Sys2Proof.Claims.Branches ∧ Sys2Proof.Claims.Calls ∧ Sys2Proof.Claims.LoopsAndTables ∧ Sys2Proof.Claims.MisalignedTable

/-- 08 R197, R199: MEET and MEETX set the meeting register, EXIT ends its threads, DEMOTE makes helper lanes. 08 R197, R200; 02 R53; 07 R179: SLEEP sets
the next issue by the largest request, YIELD the greed count to its limit; a word of the hint space does nothing. It concludes that exec answers a
next state for `hintNop`, `meet`, `meetx`, `exitT`, `yield`, `sleep`, `demote`. -/
def Obligations.ThreadAndWarpState : Prop :=
  Sys2Proof.Claims.ThreadState ∧ Sys2Proof.Claims.WarpPacing

/-- 03 R66: QFETCH allocates queue entries that are usable 3 cc later, each register once, the oldest of eight released first; in handler mode it does
nothing. 03 R67: a last-read mark releases the queue entry of its register when the instruction issues, and no other entry. 03 R68: RFCOMP counts each
register that a vector result is written to and that is stored in fewer than 8 sectors, modulo 2^32. It concludes that exec answers a next state for
`qfetch`. -/
def Obligations.QueueAndCompression : Prop :=
  Sys2Proof.Claims.OperandQueue ∧ Sys2Proof.Claims.LastRead ∧ Sys2Proof.Claims.CompressedWrites

/-- 03 R63; 08 R195: a lane whose indexed operand breaks its bound parks with class 0x07 and writes nothing, whatever the other lanes do: they write their
results. 03 R60; 07 R180; 15 R321, R324: before any instruction of the table executes, a register beyond the allocation parks its lanes with class
0x01, and a privileged instruction outside handler mode with class 0x10; an instruction that handler mode bars is a handler fault: its warp ends and
the host is told. -/
def Obligations.OperandChecks : Prop :=
  Sys2Proof.Claims.IndexBound ∧ Sys2Proof.Claims.ChecksBeforeIssue

/-- 09 R226, R227; 05 R110, R111; 06 R136, R415: SPST and SPLD issue: the operation stands recorded and counted, acts at its banks 2 cc later, and a store
is complete then, while the values of a load are ready 24 cc after issue and 2 more for each further bank round. 09 R238, R239: an atomic on scratch
issues, and is ready or complete 28 cc later. 06 R136, R415; 09 R226, R238: at its banks a scratch load takes the bytes of its team's scratch, a store
puts the bytes of its lanes there, the highest lane last, and an atomic applies its lanes one after another in increasing order. It concludes that
exec answers a next state for `spld`, `spst`, `aadd`, `amin`, `amax`, `aand`, `aor`, `axor`, `axch`, `acas`, `rdadd`, `rdmin`, `rdmax`, `rdand`,
`rdor`, `rdxor`, `requestArrival`. -/
def Obligations.ScratchInstructions : Prop :=
  Sys2Proof.Claims.ScratchAccess ∧ Sys2Proof.Claims.ScratchAtomics ∧ Sys2Proof.Claims.ScratchActs

/-- 08 R214, R215; 04 R97: QBLK writes the code and the scale byte of each lane and adds its events to QSTAT 12 cc later; QSRD waits for the warp's
earlier quantising operations and reads QSTAT; QSCLR clears the bits that are set in its operand. 09 R231: QLD sends the request of its scaled line
and holds its lanes until the line's format is known (log entry 37); 08 R221: LDPAT reads 512 bytes of scratch 2 cc after issue, and 40 cc after issue
its team's table is replaced by them in one cycle. It concludes that exec answers a next state for `qblk`, `qsrd`, `qsclr`, `qld`, `ldpat`,
`patternTableReplace`. -/
def Obligations.QuantStatusAndTables : Prop :=
  Sys2Proof.Claims.QuantStatus ∧ Sys2Proof.Claims.UniformTables

/-- 06 R132, R149, R415; 09 R226, R238: in its arrival cycle a request gives a load the bytes at its home, puts a store's bytes there, or applies an
atomic's lanes in increasing order. 17 R363; 19 R403; 01 R24: a refused request leaves its port with the map that its port holds, unless one of its
warp and line that went by an older map is under way: it reaches its new home, or a reflection of its sector that it may use, after the way there. Of
two of a core the earlier goes first, in a cycle of its own; a request that has been performed does nothing. 09 R226, R227, R229; 06 R136; 07 R178:
the last reply of a load writes its destinations and nothing else, and its counter falls by one; so does the counter of a store at its last
acknowledgement. It concludes that exec answers a next state for `requestArrival`, `refusedRequestResend`, `loadReply`, `storeAcknowledge`. -/
def Obligations.RequestTraffic : Prop :=
  Sys2Proof.Claims.RequestArrival ∧ Sys2Proof.Claims.RefusedResend ∧ Sys2Proof.Claims.RepliesAndAcknowledgements

/-- 06 R138, R141, R142; 09 R241: FENCE, ACQ and REL wait for the loads and the drain set of their scope; beyond the core FENCE and ACQ empty the core's
L1. 06 R142: ACQ.STEAL sends its request to the victim; the victim drains and empties its L1 when the request arrives; once that is done and 180 cc
(260 cc across sectors) have passed, the instruction acquires at DEVICE scope. It concludes that exec answers a next state for `fence`, `acq`, `rel`,
`acqSteal`, `stealArrival`. -/
def Obligations.FencesAndAcquires : Prop :=
  Sys2Proof.Claims.Fences ∧ Sys2Proof.Claims.RemoteAcquire

/-- 07 R178; 09 R229, R243, R244; 06 R156: WAIT lets its warp go on once its counters are within the limits; CCTL drops lines of the core's own L1; PUBL
publishes its lines and drops them from the instruction caches of its scope. 09 R235; 05 R113: HWAIT goes on 2 cc after it finds its state; HREL moves
full to draining, or full or draining to free, and parks every lane of `active(w)` with class 0x05 in any other state. It concludes that exec answers
a next state for `wait`, `cctlIvl`, `cctlIval`, `publ`, `hwaitFull`, `hwaitFree`, `hrelClaim`, `hrelFree`. -/
def Obligations.WaitsAndHandles : Prop :=
  Sys2Proof.Claims.WaitsAndCaches ∧ Sys2Proof.Claims.HandleStates

/-- 09 R232-R234; 05 R113: COPY and CPRG hand their channel one line operation for each distinct destination line, count one on CP, and a destination
handle starts to fill. 09 R233; 17 R366; 06 R415: the channel sends the line operation that its round-robin picks, whose sources are read one way
later; at its delivery the line holds the bytes moved, as one event, and the operation is done with the line. It concludes that exec answers a next
state for `copy`, `cprg`, `copyLineSend`, `copyLineDelivery`. -/
def Obligations.Copies : Prop :=
  Sys2Proof.Claims.CopiesIssue ∧ Sys2Proof.Claims.CopyLines

/-- 03 R74, R75, R78, R80; 09 R252: PUSH spends a credit of each lane and appends its value behind the neighbour's queue, poppable after the axis latency,
and counts a discard for each lane without a neighbour; POP takes the oldest value of each lane, 0 at an open edge, and returns the credit. A PUSH.rel
waits for its drain set, and a POP.acq acquires once its values are taken (log entry 38). 03 R74: a pushed value becomes poppable, and a credit
reaches its sender, when its transfer arrives; nothing else changes. It concludes that exec answers a next state for `push`, `pop`,
`portValueArrival`, `portCreditReturn`. -/
def Obligations.PortInstructions : Prop :=
  Sys2Proof.Claims.Ports ∧ Sys2Proof.Claims.PortTransfers

/-- 09 R246; 02 R49-R52: SPAWN stands at its bin 8 cc after its issue; its records enter together, and the warp goes on 4 cc later, or wait where the bin
has no room. 02 R50, R51; 09 R247: the records at the head of a full bin's arrivals enter as soon as there is room, and their SPAWN completes; a timer
that expires and BFLUSH launch a bin with the records it holds. It concludes that exec answers a next state for `spawnDirect`, `spawnIndirect`,
`bflush`, `binTimerExpiry`, `binWaitingEntry`. -/
def Obligations.SpawningAndBins : Prop :=
  Sys2Proof.Claims.Spawning ∧ Sys2Proof.Claims.BinEvents

/-- 10 R259, R265: with its accumulators free MZERO, MWR, MCPY, MSCL and MTRN set every element of one, MRD reads one into four registers of each lane;
with one owned the accumulator-busy trap is due instead. MSYN waits until none of its accumulators is owned. 02 R36; 10 R260, R262-R264: the warps of
a sheaf meet at MLDW, MWST and MSTR; in the cycle after the last arrives each warp's operation takes its operands and stands in its quarter's order.
It concludes that exec answers a next state for `mzero`, `mldw`, `mwst`, `mstr`, `mrd`, `mwr`, `mcpy`, `mscl`, `mtrn`, `msyn`. -/
def Obligations.AccumulatorInstructions : Prop :=
  Sys2Proof.Claims.Accumulators ∧ Sys2Proof.Claims.SheafOperations

/-- 10 R256, R260, R264, R266: a weight load gives its warp the slot, a stream over a dense slot adds its products to the accumulator, and MSTACC reads
its accumulator; each in the cycle in which its order and its array allow. 10 R260, R266, R267; 07 R178: an operation that completes owns its
accumulator no more and TL falls by one; a line of MSTACC puts its bytes into scratch; MLDACC sets its accumulator to the values it has loaded. It
concludes that exec answers a next state for `tileOpStart`, `tileOpComplete`. -/
def Obligations.TileOperations : Prop :=
  Sys2Proof.Claims.TileStarts ∧ Sys2Proof.Claims.TileCompletions

/-- 10 R274, R275, R277: an engine command takes the lowest free ticket slot, writes its ticket, counts on CP and reaches an engine of its lease 12 cc
after issue; with a lease that is none it completes NOLEASE or EVICTED 16 cc after issue. 10 R277, R280: ECANC ends a command once its items in flight
finish, a pass between its groups and a collective that waits for its ranks at once, and does nothing to one that is final; EWAIT waits for a final
status and writes it, and the warp issues next 4 cc after the final cycle. It concludes that exec answers a next state for `trace`, `attr`, `rast`,
`thresh`, `decode`, `gather`, `scatr`, `coll`, `ecanc`, `ewait`. -/
def Obligations.CommandsAndTickets : Prop :=
  Sys2Proof.Claims.EngineCommands ∧ Sys2Proof.Claims.Tickets

/-- 15 R326, R332, R333; 03 R79: TRAP and BRKPT move the lanes on and leave a warp trap of class 0x11 due; an address breakpoint and a port timeout leave
theirs due with nothing executed. 15 R323, R334; 17 R358: a pre-emption request revokes the leases of every resident team that it names, with its port
group (03 R77), and sends each of its warps class 0x13; a warp takes it as a warp trap unless it has ended or one is due; in a handler run it waits.
It concludes that exec answers a next state for `trap`, `brkpt`, `addressBreakpoint`, `portStallTrap`, `preemptRequest`, `preemptTrap`. -/
def Obligations.TrapsAndPreemption : Prop :=
  Sys2Proof.Claims.WarpTraps ∧ Sys2Proof.Claims.Preemption

/-- 02 R28, R34, R42, R48, R53; 08 R200: held threads go on together once no running thread carries their meeting value; a warp that is over retires, with
the last of its team the team, whose resources return 40 cc later; a grid that this leaves over gives back its pool entry; the greed limit makes a
warp the youngest of its quarter where another is ready. 02 R26, R40, R47, R49, R52, R58: a dispatcher places the next team of the pending grid that
comes first, or the records of a bin that is due, on the lowest core that can hold it: its warps go to the quarters in turn, every thread running at
the entry, with the grid's arguments, or each with its record and the bin's cause and count; the core of a child's team holds no line in its L1 (02
R48). It concludes that exec answers a next state for `meetingRelease`, `greedLimit`, `warpRetire`, `teamResourcesFree`, `teamPlacement`. -/
def Obligations.TeamLifetimes : Prop :=
  Sys2Proof.Claims.Retirement ∧ Sys2Proof.Claims.Placement

/-- 05 R118; 17 R353, R366-R370: PARTCFG and SLMCARVE change at a context boundary with nothing left in the slices, and are ignored otherwise; TKSHARE
fills every bucket; a core's bucket gains REFILL plus EXTRA up to BURST at each period; an idle change reaches the cores 64 cc later; ENGBUDGET sets a
sector's budget, puts idle engines to sleep, and starts grace on leases beyond it. 17 R360-R363: a commit waits for a scan that runs; it is refused
where an entry of a named domain is above 95, or two enabled windows would overlap; else its scan runs 2,056 cc where no line with a changed home is
dirty, and at its end the ports hold the staged map of the named domains, one generation higher, and no line stands in a slice that its home has left.
It concludes that exec answers a next state for `partcfgWrite`, `hashmaskCommit`, `commitScanEnd`, `tkshareWrite`, `bucketRefill`,
`partitionIdleChange`, `idleStateArrival`, `engbudgetWrite`, `slmcarveWrite`. -/
def Obligations.PartitionsAndInterleaves : Prop :=
  Sys2Proof.Claims.PartitionShares ∧ Sys2Proof.Claims.InterleaveCommits

/-- 06 R152, R153; 18 R387, R388: an object is enabled where its shape is valid and shares no address with an enabled one, keeps EN clear otherwise, and
is disabled once its tenures are gone; its FLAG clears with a write of 1. 06 R152, R153; 18 R389: an unanswered recall stops renewals and reverts the
tenure 2T later, flagging its object; a renewal restarts its count; a tenure is granted where no other conflicts, and a line under it takes its next
generation (06 R150); a lapsed or recalled holder loses the object's lines, a recalled one writing the dirty ones back, and an invalidation of a line
takes only the copy of its generation. 16 R347-R350: a doorbell of an enabled queue rings the pager; a request whose page is mapped answers 0, one
without backing 1; a page that is brought in stands in its frame, which is mapped piece by piece, then its leaf is written and the translations of its
address go, and when no access is left that went through them the completion word is 0; a compressed page queues for a decode engine at priority 3 and
waits for its decoding. A request waits while another is served. 20 R410: an illegal word halts the firmware and posts a message. It concludes that
exec answers a next state for `pagerDoorbell`, `pagerServe`, `objectEnable`, `objectDisable`, `objectFlagClear`, `tenureRecallTimeout`,
`tenureRevert`, `tenureRenewal`, `tenureLapse`, `recallAtHolder`. -/
def Obligations.ObjectsAndTenures : Prop :=
  Sys2Proof.Claims.Objects ∧ Sys2Proof.Claims.Tenures ∧ Sys2Proof.Claims.PagerRequests

/-- 18 R390-R395: a lost bank moves its column to penumbra, unprotected or failed; gleaning rebuilds a position every 10 cc and ends unprotected; a remap
waits, begins once the device is vacant, and after 7,864,320 cc leaves a zeroed stack with the live map of the layers that are on. 18 R378, R379,
R383, R397: a flit that fails its check delays its request and the later flits of its direction of the link by 640 cc, those of copies and of engine
commands with them; a link that goes down kills the contexts with requests on it; a header error halts its partition, which is empty of its tiles and
lines 20,000 cc later; a write to ERRLOG clears its counts. It concludes that exec answers a next state for `remapGo`, `remapCancel`, `remapRun`,
`remapComplete`, `flitReplay`, `linkDown`, `headerError`, `partitionHaltComplete`, `bankLoss`, `gleanStep`, `errlogClear`. -/
def Obligations.MemoryAndLinkHealth : Prop :=
  Sys2Proof.Claims.StackedMemory ∧ Sys2Proof.Claims.LinksAndHalts

/-- 20 R411, R412: CLKMHZ takes a multiple of 25 from 275 to 1100 when no team is resident; a draw that comes to exceed the limit is reported; D3hot is
entered only when idle; a trip sets TRIP and is reported, and afterwards nothing but the mailbox and a reset is served. 20 R405-R407; 18 R374, R380,
R390, R395: the stages complete in order, stage 0 once firmware is verified; a stage that fails sets FAIL and stops the sequence; stage 1 zeroes
memory and sets HARVEST, CAPMAP and the first window, stage 2 the links; LOADFW measures an image that verifies, and sets FAIL for one that does not;
a reset starts again at stage 0 with every register at its reset value. It concludes that exec answers a next state for `clockSet`, `d3hotEntry`,
`d0Entry`, `drawOverLimit`, `overTemperatureTrip`, `reset`, `stageComplete`. -/
def Obligations.PowerAndBringUp : Prop :=
  Sys2Proof.Claims.PowerStates ∧ Sys2Proof.Claims.BringUp
end

