-- ==== Sys2Proof/Laws/Lists.lean ====
section
/-!
SUPPORT. Padded lists: what is read after an entry is written.
-/
namespace Sys2Proof

variable {α : Type} (d : α)

@[simp] theorem getP_nil (i : Nat) : getP d [] i = d := by cases i <;> rfl
@[simp] theorem getP_zero (x : α) (l : List α) : getP d (x :: l) 0 = x := rfl
@[simp] theorem getP_succ (x : α) (l : List α) (i : Nat) : getP d (x :: l) (i + 1) = getP d l i := rfl

@[simp] theorem getP_setP_same (l : List α) (i : Nat) (v : α) : getP d (setP d l i v) i = v := by
  induction i generalizing l with
  | zero => cases l <;> rfl
  | succ i ih => cases l <;> simp [setP, ih]

theorem getP_setP_ne (l : List α) (i j : Nat) (v : α) (h : j ≠ i) : getP d (setP d l i v) j = getP d l j := by
  induction i generalizing l j with
  | zero => cases j with
    | zero => exact absurd rfl h
    | succ j => cases l <;> simp [setP]
  | succ i ih => cases j with
    | zero => cases l <;> simp [setP]
    | succ j =>
      have hj : j ≠ i := fun e => h (by rw [e])
      cases l <;> simp [setP, ih _ _ hj]

theorem getP_setP (l : List α) (i j : Nat) (v : α) :
    getP d (setP d l i v) j = if j = i then v else getP d l j := by
  split
  · subst j; simp
  · exact getP_setP_ne d l i j v ‹_›

theorem getP_beyond (l : List α) (i : Nat) (h : l.length ≤ i) : getP d l i = d := by
  induction l generalizing i with
  | nil => simp
  | cons x l ih => cases i with
    | zero => simp at h
    | succ i => exact ih i (by simpa using h)

theorem getP_map_range {β : Type} (e : β) (f : Nat → β) (n i : Nat) (h : i < n) : getP e ((List.range n).map f) i = f i := by
  have key : ∀ (n k i : Nat), i < n → getP e ((List.range' k n).map f) i = f (k + i) := by
    intro n
    induction n with
    | zero => intro k i h; exact absurd h (Nat.not_lt_zero i)
    | succ n ih =>
      intro k i h
      cases i with
      | zero => simp [List.range'_succ]
      | succ i => simp [List.range'_succ, ih (k + 1) i (by omega)]; congr 1; omega
  simpa [List.range_eq_range'] using key n 0 i h

end Sys2Proof
end

