-- ==== Sys2Proof/Laws/Lanes.lean ====
section
/-!
SUPPORT. Lanes and registers: what is read after a lane or a group of registers is written.
-/
namespace Sys2Proof.Machine

@[simp] theorem Warp.mapLanes_lane (x : Warp) (f : Nat → Lane → Lane) (l : Nat) (h : l < 64) :
    (x.mapLanes f).lane l = f l (x.lane l) :=
  getP_map_range Lane.idle (fun l => f l (x.lane l)) 64 l h

/-! ## Units of the state -/

@[simp] theorem State.warp_setWarp_same (s : State) (w : Nat) (x : Warp) : (s.setWarp w x).warp w = x := getP_setP_same _ _ _ _
theorem State.warp_setWarp_ne (s : State) (w v : Nat) (x : Warp) (h : v ≠ w) : (s.setWarp w x).warp v = s.warp v :=
  getP_setP_ne _ _ _ _ _ h
@[simp] theorem State.me_setMe (s : State) (x : Warp) : (s.setMe x).me = x := getP_setP_same _ _ _ _
@[simp] theorem State.quarter_onQuarter_same (s : State) (q : Nat) (f : Quarter → Quarter) :
    (s.onQuarter q f).quarter q = f (s.quarter q) := getP_setP_same _ _ _ _
theorem State.quarter_onQuarter_ne (s : State) (q k : Nat) (f : Quarter → Quarter) (h : k ≠ q) :
    (s.onQuarter q f).quarter k = s.quarter k := getP_setP_ne _ _ _ _ _ h
@[simp] theorem State.team_setTeam_same (s : State) (t : Nat) (x : Team) : (s.setTeam t x).team t = x := getP_setP_same _ _ _ _
theorem State.team_setTeam_ne (s : State) (t k : Nat) (x : Team) (h : k ≠ t) : (s.setTeam t x).team k = s.team k :=
  getP_setP_ne _ _ _ _ _ h
@[simp] theorem State.part_onPart_same (s : State) (p : Nat) (f : Part → Part) : (s.onPart p f).part p = f (s.part p) :=
  getP_setP_same _ _ _ _
theorem State.part_onPart_ne (s : State) (p k : Nat) (f : Part → Part) (h : k ≠ p) : (s.onPart p f).part k = s.part k :=
  getP_setP_ne _ _ _ _ _ h
@[simp] theorem State.grid_onGrid_same (s : State) (g : Nat) (f : Grid → Grid) : (s.onGrid g f).grid g = f (s.grid g) :=
  getP_setP_same _ _ _ _
theorem State.grid_onGrid_ne (s : State) (g k : Nat) (f : Grid → Grid) (h : k ≠ g) : (s.onGrid g f).grid k = s.grid k :=
  getP_setP_ne _ _ _ _ _ h

/-! ## Predicates -/

theorem Lane.setPred_zero (y : Lane) (b : Bool) : y.setPred 0 b = y := rfl
@[simp] theorem Lane.pred_zero (y : Lane) : y.pred 0 = true := rfl

theorem Lane.setPred_eq (y : Lane) (k : Nat) (b : Bool) : y.setPred k b = { y with preds := (y.setPred k b).preds } := by
  unfold Lane.setPred; split <;> rfl

/-- A predicate written reads as written; `p0` reads true (03 R59). -/
theorem Lane.pred_setPred (y : Lane) (k j : Nat) (b : Bool) (hk : k < 8) (hj : j < 8) :
    (y.setPred k b).pred j = if j = k then (k == 0 || b) else y.pred j := by
  have h : ∀ (p : BitVec 8) (k j : Fin 8) (b : Bool),
      ((if k.1 % 8 = 0 then p else (p &&& ~~~(1#8 <<< (k.1 % 8))) ||| (if b then 1#8 <<< (k.1 % 8) else 0)).getLsbD j.1)
        = if j = k ∧ k.1 ≠ 0 then b else p.getLsbD j.1 := by
    intro p k j b
    rcases k with ⟨k, hk⟩
    rcases j with ⟨j, hj⟩
    have : k = 0 ∨ k = 1 ∨ k = 2 ∨ k = 3 ∨ k = 4 ∨ k = 5 ∨ k = 6 ∨ k = 7 := by omega
    have : j = 0 ∨ j = 1 ∨ j = 2 ∨ j = 3 ∨ j = 4 ∨ j = 5 ∨ j = 6 ∨ j = 7 := by omega
    rcases ‹k = 0 ∨ _› with rfl | rfl | rfl | rfl | rfl | rfl | rfl | rfl <;>
      rcases ‹j = 0 ∨ _› with rfl | rfl | rfl | rfl | rfl | rfl | rfl | rfl <;> cases b <;> simp
  have e := h y.preds ⟨k, hk⟩ ⟨j, hj⟩ b
  have e' : (y.setPred k b).preds.getLsbD j = if (⟨j, hj⟩ : Fin 8) = ⟨k, hk⟩ ∧ k ≠ 0 then b else y.preds.getLsbD j := by
    rw [← e]; unfold Lane.setPred; split <;> rfl
  simp only [Fin.mk.injEq] at e'
  unfold Lane.pred
  rw [e']
  by_cases hjk : j = k
  · subst hjk
    by_cases h0 : j = 0
    · subst h0; simp
    · simp [h0]
  · simp [hjk]

/-! ## Register groups -/

theorem Lane.setReg_own (y : Lane) (r : Nat) (v : Word) : y.setReg false r v = y.setOwn r v := rfl

/-- The warp's own register file after a group is written: a field below 16 names the shadow set in handler mode (15 R321). -/
theorem Lane.setRegN_v (y : Lane) (h : Bool) (r n v k : Nat) :
    getP 0 (y.setRegN h r n v).v k =
      if r ≤ k ∧ k < r + n ∧ ¬(h = true ∧ k < 16) then BitVec.ofNat 32 (v / 2 ^ (32 * (k - r))) else getP 0 y.v k := by
  induction n generalizing y r v with
  | zero => simp only [Lane.setRegN, Nat.add_zero]; rw [if_neg (by omega)]
  | succ n ih =>
    simp only [Lane.setRegN]
    rw [ih]
    by_cases hk : k = r
    · subst hk
      rw [if_neg (by omega)]
      unfold Lane.setReg
      cases h <;> by_cases h16 : k < 16 <;> simp [h16, Lane.setOwn]
    · have e : getP 0 (y.setReg h r (BitVec.ofNat 32 v)).v k = getP 0 y.v k := by
        unfold Lane.setReg; split <;> simp [Lane.setOwn, getP_setP_ne _ _ _ _ _ hk]
      rw [e]
      by_cases hin : r + 1 ≤ k ∧ k < r + 1 + n ∧ ¬(h = true ∧ k < 16)
      · rw [if_pos hin, if_pos ⟨by omega, by omega, hin.2.2⟩, Nat.div_div_eq_div_mul, ← Nat.pow_add]
        congr 3; omega
      · rw [if_neg hin, if_neg (fun c => hin ⟨by omega, by omega, c.2.2⟩)]

/-- The shadow set after a group is written. -/
theorem Lane.setRegN_shadow (y : Lane) (h : Bool) (r n v k : Nat) :
    getP 0 (y.setRegN h r n v).shadow k =
      if r ≤ k ∧ k < r + n ∧ h = true ∧ k < 16 then BitVec.ofNat 32 (v / 2 ^ (32 * (k - r))) else getP 0 y.shadow k := by
  induction n generalizing y r v with
  | zero => simp only [Lane.setRegN, Nat.add_zero]; rw [if_neg (by omega)]
  | succ n ih =>
    simp only [Lane.setRegN]
    rw [ih]
    by_cases hk : k = r
    · subst hk
      rw [if_neg (by omega)]
      unfold Lane.setReg
      cases h <;> by_cases h16 : k < 16 <;> simp [h16, Lane.setOwn]
    · have e : getP 0 (y.setReg h r (BitVec.ofNat 32 v)).shadow k = getP 0 y.shadow k := by
        unfold Lane.setReg; split <;> simp [Lane.setOwn, getP_setP_ne _ _ _ _ _ hk]
      rw [e]
      by_cases hin : r + 1 ≤ k ∧ k < r + 1 + n ∧ h = true ∧ k < 16
      · rw [if_pos hin, if_pos ⟨by omega, by omega, hin.2.2⟩, Nat.div_div_eq_div_mul, ← Nat.pow_add]
        congr 3; omega
      · rw [if_neg hin, if_neg (fun c => hin ⟨by omega, by omega, c.2.2⟩)]

/-- Writing registers changes nothing else of a lane. -/
theorem Lane.setRegN_eq (y : Lane) (h : Bool) (r n v : Nat) :
    y.setRegN h r n v = { y with v := (y.setRegN h r n v).v, shadow := (y.setRegN h r n v).shadow } := by
  induction n generalizing y r v with
  | zero => rfl
  | succ n ih =>
    simp only [Lane.setRegN]
    rw [ih]
    unfold Lane.setReg
    split <;> rfl

/-- A scalar file after a group is written. -/
theorem Warp.setSN_sreg (x : Warp) (r n v k : Nat) :
    (x.setSN r n v).sreg k = if r ≤ k ∧ k < r + n then BitVec.ofNat 32 (v / 2 ^ (32 * (k - r))) else x.sreg k := by
  induction n generalizing x r v with
  | zero => simp only [Warp.setSN, Nat.add_zero]; rw [if_neg (by omega)]
  | succ n ih =>
    simp only [Warp.setSN]
    rw [ih]
    by_cases hk : k = r
    · subst hk
      rw [if_neg (by omega)]
      simp [Warp.setS, Warp.sreg]
    · have e : (x.setS r (BitVec.ofNat 32 v)).sreg k = x.sreg k := getP_setP_ne _ _ _ _ _ hk
      rw [e]
      by_cases hin : r + 1 ≤ k ∧ k < r + 1 + n
      · rw [if_pos hin, if_pos ⟨by omega, by omega⟩, Nat.div_div_eq_div_mul, ← Nat.pow_add]
        congr 3; omega
      · rw [if_neg hin, if_neg (fun c => hin ⟨by omega, by omega⟩)]

theorem Warp.setSN_eq (x : Warp) (r n v : Nat) : x.setSN r n v = { x with s := (x.setSN r n v).s } := by
  induction n generalizing x r v with
  | zero => rfl
  | succ n ih => simp only [Warp.setSN]; rw [ih]; rfl

end Sys2Proof.Machine
end

