-- ==== Sys2Proof/Laws/Alu.lean ====
section
/-!
SUPPORT. What the shared operations of register instructions do, said once: masks, the program counters, the results written,
and the whole of a register instruction.
-/
namespace Sys2Proof.Machine

/-! ## Masks -/

theorem foldl_or_getLsbD (p : Nat → Bool) (ls : List Nat) (m : BitVec 64) (l : Nat) (h : l < 64) (hls : ∀ k ∈ ls, k < 64) :
    (ls.foldl (fun (m : BitVec 64) k => if p k then m ||| (1 <<< k) else m) m).getLsbD l = (m.getLsbD l || (ls.contains l && p l)) := by
  induction ls generalizing m with
  | nil => simp
  | cons a ls ih =>
    simp only [List.foldl_cons]
    rw [ih _ (fun k hk => hls k (List.mem_cons_of_mem a hk))]
    have ha : a < 64 := hls a (List.mem_cons_self ..)
    have hb : (((1 <<< a : Nat) : BitVec 64)).getLsbD l = decide (l = a) := by
      rw [show (((1 <<< a : Nat) : BitVec 64)) = BitVec.ofNat 64 (1 <<< a) from rfl, BitVec.getLsbD_ofNat, Nat.one_shiftLeft,
        Nat.testBit_two_pow]
      simp [h, eq_comm]
    by_cases hal : l = a
    · subst hal
      by_cases hp : p l = true
      · rw [if_pos hp, BitVec.getLsbD_or, hb]; simp [hp]
      · rw [if_neg hp]; simp [hp]
    · have hbeq : (l == a) = false := beq_eq_false_iff_ne.mpr hal
      rw [List.contains_cons, hbeq, Bool.false_or]
      by_cases hp : p a = true
      · rw [if_pos hp, BitVec.getLsbD_or, hb]; simp [hal]
      · rw [if_neg hp]

@[simp] theorem Warp.maskOf_getLsbD (x : Warp) (p : Nat → Lane → Bool) (l : Nat) (h : l < 64) :
    (x.maskOf p).getLsbD l = p l (x.lane l) := by
  unfold Warp.maskOf
  rw [foldl_or_getLsbD (fun l => p l (x.lane l)) _ _ l h (fun k hk => List.mem_range.mp hk)]
  simp [h]

@[simp] theorem State.passMask_getLsbD (s : State) (o : Ops) (l : Nat) (h : l < 64) : (s.passMask o).getLsbD l = s.pass o l :=
  Warp.maskOf_getLsbD _ _ l h

@[simp] theorem lanesOf_zero : lanesOf 0 = [] := by
  unfold lanesOf; simp

@[simp] theorem State.parkLanes_zero (s : State) (w : Nat) (f : Nat → FaultRec) : s.parkLanes w 0 f = s := by
  unfold State.parkLanes State.parkAs; rw [lanesOf_zero]

/-! ## The program counters -/

theorem lanesOf_eq_nil {m : BitVec 64} (h : lanesOf m = []) : m = 0 := by
  apply BitVec.eq_of_getLsbD_eq
  intro i hi
  have : i ∉ lanesOf m := by rw [h]; simp
  simp only [lanesOf, List.mem_filter, List.mem_range, not_and] at this
  simpa using this hi

theorem mem_lanesOf {m : BitVec 64} {l : Nat} : l ∈ lanesOf m ↔ l < 64 ∧ m.getLsbD l = true := by
  simp [lanesOf]

/-- A lane after it has moved. -/
def Lane.goTo (y : Lane) (pc : DWord) : Lane := Lane.settle { y with pc := pc }

theorem Lane.settle_eq (y : Lane) : y.settle = { y with st := y.settle.st } := by
  unfold Lane.settle; split <;> rfl
theorem Lane.settle_st (y : Lane) (h : y.st = .running) : y.settle.st = if y.pc = y.meet then .held else .running := by
  unfold Lane.settle
  by_cases hp : y.pc = y.meet <;> simp [h, hp]

/-- The handler PC that a move gives. -/
def State.hpcTo (s : State) (f : Nat → Option DWord) : DWord :=
  match lanesOf s.act with
  | [] => s.npc
  | l :: _ => s.goes f l

theorem State.hpcTo_none (s : State) : s.hpcTo (fun _ => none) = s.npc := by
  unfold State.hpcTo; split <;> rfl

/-- `moveTo` where the lanes agree in handler mode. -/
theorem State.moveTo_agree (s : State) (f : Nat → Option DWord) (ha : s.agrees f) :
    s.moveTo f = s.setMe (if s.me.hmode = true then { s.me with hpc := s.hpcTo f } else
      s.me.mapLanes fun l y =>
        if s.act.getLsbD l && y.st == .running && y.failing.isNone then y.goTo (s.goes f l) else y) := by
  unfold State.moveTo State.hpcTo
  by_cases h : s.me.hmode = true
  · simp only [h, if_true]
    cases hl : lanesOf s.act with
    | nil => rfl
    | cons l r =>
      simp only []
      have hm : ∀ j ∈ l :: r, j < 64 ∧ s.act.getLsbD j = true := fun j hj => mem_lanesOf.mp (hl ▸ hj)
      rw [if_pos]
      · rfl
      · rw [List.all_eq_true]
        intro k hk
        have hk' := hm k (List.mem_cons_of_mem _ hk)
        have hl' := hm l (List.mem_cons_self ..)
        exact beq_iff_eq.mpr (ha h k hk'.1 l hl'.1 hk'.2 hl'.2)
  · simp only [h]; rfl

theorem State.agrees_none (s : State) : s.agrees fun _ => none := fun _ _ _ _ _ _ _ => rfl

/-- The instruction is over with the targets `f`. -/
def State.finished (s : State) (f : Nat → Option DWord) (n : Nat) : State := (s.moveTo f).nextIn n
theorem State.advance_finished (s : State) (n : Nat) : s.advance n = s.finished (fun _ => none) n := rfl

theorem State.finished_warp_ne (s : State) (f : Nat → Option DWord) (ha : s.agrees f) (n w : Nat) (h : w ≠ s.cur) :
    (s.finished f n).warp w = s.warp w := by
  unfold State.finished State.nextIn State.onMe
  rw [State.moveTo_agree s f ha]
  simp only [State.setMe, State.setWarp, State.warp]
  rw [getP_setP_ne _ _ _ _ _ h, getP_setP_ne _ _ _ _ _ h]

theorem State.finished_rest (s : State) (f : Nat → Option DWord) (ha : s.agrees f) (n : Nat) :
    s.finished f n = { s with warps := (s.finished f n).warps } := by
  unfold State.finished State.nextIn State.onMe
  rw [State.moveTo_agree s f ha]
  rfl

theorem State.finished_me (s : State) (f : Nat → Option DWord) (ha : s.agrees f) (n : Nat) : (s.finished f n).me =
    { (if s.me.hmode = true then { s.me with hpc := s.hpcTo f } else
      s.me.mapLanes fun l y =>
        if s.act.getLsbD l && y.st == .running && y.failing.isNone then y.goTo (s.goes f l) else y) with
      retryAt := s.now + n } := by
  unfold State.finished State.nextIn State.onMe
  rw [State.moveTo_agree s f ha]
  simp only [State.me_setMe]
  rfl

/-- A lane after the instruction is over. -/
theorem State.finished_lane (s : State) (f : Nat → Option DWord) (ha : s.agrees f) (n l : Nat) (h : l < 64) :
    (s.finished f n).me.lane l =
    if s.me.hmode = false ∧ s.act.getLsbD l = true ∧ (s.me.lane l).st = .running ∧ (s.me.lane l).failing = none then
      (s.me.lane l).goTo (s.goes f l) else s.me.lane l := by
  rw [State.finished_me s f ha]
  by_cases hm : s.me.hmode = true
  · simp only [hm, if_true]
    rw [if_neg (by simp)]
    rfl
  · have hm' : s.me.hmode = false := by simpa using hm
    simp only [hm', Bool.false_eq_true, if_false, true_and]
    have := Warp.mapLanes_lane s.me (fun l y =>
        if s.act.getLsbD l && y.st == .running && y.failing.isNone then y.goTo (s.goes f l) else y) l h
    rw [show ∀ (x : Warp) k, ({ x with retryAt := k } : Warp).lane l = x.lane l from fun _ _ => rfl, this]
    by_cases c : s.act.getLsbD l = true ∧ (s.me.lane l).st = .running ∧ (s.me.lane l).failing = none
    · rw [if_pos c, if_pos (by simp [c.1, c.2.1, c.2.2])]
    · rw [if_neg c, if_neg]
      intro e
      simp only [Bool.and_eq_true, beq_iff_eq, Option.isNone_iff_eq_none] at e
      exact c ⟨e.1.1, e.1.2, e.2⟩

theorem Lane.goTo_eq (y : Lane) (pc : DWord) : y.goTo pc = { y with pc := pc, st := (y.goTo pc).st } := by
  unfold Lane.goTo; rw [Lane.settle_eq]
theorem Lane.goTo_st (y : Lane) (pc : DWord) (h : y.st = .running) :
    (y.goTo pc).st = if pc = y.meet then .held else .running := by
  unfold Lane.goTo; exact Lane.settle_st { y with pc := pc } h

/-- The instruction is over: where the program counters stand. -/
theorem State.finished_pc (s : State) (f : Nat → Option DWord) (ha : s.agrees f) (n : Nat) : PcTo s (s.finished f n) f where
  moved l hl hm := by
    have hm' := hm
    unfold State.moves at hm'
    rw [State.finished_lane s f ha n l hl, if_pos hm', Lane.goTo_eq]
  held l hl hm := by
    have hm' := hm
    unfold State.moves at hm'
    rw [State.finished_lane s f ha n l hl, if_pos hm']
    exact Lane.goTo_st _ _ hm'.2.2.1
  still l hl hm := by
    have hm' := hm
    unfold State.moves at hm'
    rw [State.finished_lane s f ha n l hl, if_neg hm']; exact ⟨rfl, rfl⟩
  handler := by
    rw [State.finished_me s f ha]
    refine ⟨fun hm => by simp [hm, Warp.mapLanes], fun hm l hl hal => ?_, fun hm h0 => ?_⟩
    · simp only [hm, if_true]
      unfold State.hpcTo
      cases e : lanesOf s.act with
      | nil => exact absurd (lanesOf_eq_nil e) fun c => by rw [c] at hal; simp at hal
      | cons j r =>
        have hj := mem_lanesOf.mp (show j ∈ lanesOf s.act by rw [e]; exact List.mem_cons_self ..)
        exact ha hm j hj.1 l hl hj.2 hal
    · simp only [hm, if_true]
      unfold State.hpcTo
      rw [h0, lanesOf_zero]

theorem State.finished_lane_regs (s : State) (f : Nat → Option DWord) (ha : s.agrees f) (n l : Nat) (h : l < 64) :
    (s.finished f n).me.lane l =
      { s.me.lane l with pc := ((s.finished f n).me.lane l).pc, st := ((s.finished f n).me.lane l).st } := by
  rw [State.finished_lane s f ha n l h]
  split
  · rw [Lane.goTo_eq]
  · rfl

theorem State.finished_sreg (s : State) (f : Nat → Option DWord) (ha : s.agrees f) (n k : Nat) :
    (s.finished f n).me.sreg k = s.me.sreg k := by
  rw [State.finished_me s f ha]; split <;> rfl

theorem State.finished_warp (s : State) (f : Nat → Option DWord) (ha : s.agrees f) (n : Nat) : (s.finished f n).me =
    { s.me with lanes := (s.finished f n).me.lanes, hpc := (s.finished f n).me.hpc, retryAt := s.now + n } := by
  rw [State.finished_me s f ha]; split <;> rfl

end Sys2Proof.Machine
end

