-- ==== Sys2Proof/Laws/Results.lean ====
section
/-!
SUPPORT. What writing the results of a register instruction does to a lane, a warp and the state.
-/
namespace Sys2Proof.Machine

/-! ## One lane -/

theorem Lane.putPreds_eq (y : Lane) (o : Ops) (r : AluOut) (b : Bool) :
    y.putPreds o r b = { y with preds := (y.putPreds o r b).preds } := by
  unfold Lane.putPreds
  rcases r with ⟨d, dp, pd⟩
  cases dp <;> cases pd <;> simp only []
  · exact Lane.setPred_eq _ _ _
  · exact Lane.setPred_eq _ _ _
  · rw [Lane.setPred_eq, Lane.setPred_eq y]

theorem Lane.putPreds_v (y : Lane) (o : Ops) (r : AluOut) (b : Bool) : (y.putPreds o r b).v = y.v := by rw [Lane.putPreds_eq]
theorem Lane.putPreds_shadow (y : Lane) (o : Ops) (r : AluOut) (b : Bool) : (y.putPreds o r b).shadow = y.shadow := by
  rw [Lane.putPreds_eq]
theorem Lane.putPreds_x (y : Lane) (o : Ops) (r : AluOut) (b : Bool) : (y.putPreds o r b).x = y.x := by rw [Lane.putPreds_eq]

theorem Lane.putReg_eq (y : Lane) (x : Warp) (o : Ops) (l n : Nat) (r : AluOut) :
    y.putReg x o l n r =
      { y with v := (y.putReg x o l n r).v, shadow := (y.putReg x o l n r).shadow, x := (y.putReg x o l n r).x } := by
  unfold Lane.putReg
  cases o.kd <;> simp only []
  · rw [Lane.setRegN_eq]
  · split <;> rfl
  · rw [Lane.setRegN_eq]

/-- The predicates after a result is written; where DST and PD name one predicate its value is free. -/
theorem Lane.putPreds_pred (y : Lane) (o : Ops) (r : AluOut) (fb : Bool) (hd : r.dp.isSome = true → o.dst.toNat < 8)
    (k : Nat) (hk : k < 8) (h0 : k ≠ 0) :
    (o.pd.toNat = k ∧ clash o r = false → ∀ b, r.pd = some b → (y.putPreds o r fb).pred k = b) ∧
    (o.dst.toNat = k ∧ ¬(o.pd.toNat = k ∧ r.pd.isSome = true) → ∀ b, r.dp = some b → (y.putPreds o r fb).pred k = b) ∧
    (¬((o.pd.toNat = k ∧ r.pd.isSome = true) ∨ (o.dst.toNat = k ∧ r.dp.isSome = true)) →
      (y.putPreds o r fb).pred k = y.pred k) := by
  have hp : o.pd.toNat < 8 := o.pd.isLt
  rcases r with ⟨d, dp, pd⟩
  have key : ∀ (z : Lane) (j : Nat) (b : Bool), j < 8 → (z.setPred j b).pred k = if k = j then b else z.pred k := by
    intro z j b hj
    rw [Lane.pred_setPred z j k b hj hk]
    by_cases e : k = j
    · subst e; simp [h0]
    · simp [e]
  cases dp with
  | none =>
    cases pd with
    | none => simp [Lane.putPreds]
    | some b =>
      simp only [Lane.putPreds, clash, Option.isSome_none, Bool.false_and, Bool.false_eq_true, if_false, key _ _ _ hp]
      refine ⟨?_, ?_, ?_⟩
      · rintro ⟨rfl, -⟩ b' h; simpa using h
      · simp
      · intro h; rw [if_neg]; intro e; exact h (.inl ⟨e.symm, rfl⟩)
  | some a =>
    have hd' : o.dst.toNat < 8 := hd rfl
    cases pd with
    | none =>
      simp only [Lane.putPreds, clash, Option.isSome_none, Bool.and_false, Bool.false_and, Bool.false_eq_true, if_false,
        key _ _ _ hd']
      refine ⟨by simp, ?_, ?_⟩
      · rintro ⟨rfl, -⟩ b' h; simpa using h
      · intro h; rw [if_neg]; intro e; exact h (.inr ⟨e.symm, rfl⟩)
    | some b =>
      simp only [Lane.putPreds, key _ _ _ hd', key _ _ _ hp, Option.isSome_some]
      refine ⟨?_, ?_, ?_⟩
      · rintro ⟨rfl, hc⟩ b' h
        rw [hc]; simpa using h
      · rintro ⟨rfl, hn⟩ b' h
        have hne : o.dst.toNat ≠ o.pd.toNat := fun e => hn ⟨e.symm, by trivial⟩
        have hc : clash o ⟨d, some a, some b⟩ = false := by
          simp only [clash, Option.isSome_some, Bool.true_and, Bool.and_eq_false_iff, beq_eq_false_iff_ne]
          exact .inr fun e => hne e.symm
        rw [hc, if_neg hne]; simpa using h
      · intro h
        rw [if_neg fun e => h (.inl ⟨e.symm, by trivial⟩), if_neg fun e => h (.inr ⟨e.symm, by trivial⟩)]

/-! ## The state -/

theorem State.countRf_warp (s : State) (w v : Nat) (rs : List Nat) : (s.countRf w rs).warp v = s.warp v := rfl
theorem State.countRf_me (s : State) (w : Nat) (rs : List Nat) : (s.countRf w rs).me = s.me := rfl
theorem State.countRf_rest (s : State) (w : Nat) (rs : List Nat) :
    s.countRf w rs = { s with quarters := (s.countRf w rs).quarters } := rfl
theorem State.countRf_unit (s : State) (w : Nat) (rs : List Nat) (q : Nat) :
    (s.countRf w rs).quarter q = { s.quarter q with rfcomp := ((s.countRf w rs).quarter q).rfcomp } := by
  unfold State.countRf
  by_cases h : q = (s.warp w).unit
  · subst h; simp only [State.quarter_onQuarter_same]
  · simp only [State.quarter_onQuarter_ne _ _ _ _ h]
theorem State.countRf_unit_ne (s : State) (w : Nat) (rs : List Nat) (q : Nat) (h : q ≠ (s.warp w).unit) :
    (s.countRf w rs).quarter q = s.quarter q := by
  unfold State.countRf
  rw [State.quarter_onQuarter_ne _ _ _ _ h]

/-- The results of a register instruction written, with the program counters still to move. -/
structure Wrote (s u : State) (o : Ops) (n : Nat) (m : Nat → Bool) (r : Nat → AluOut) : Prop where
  own : ∀ l < 64, ∀ k,
    (m l = true ∧ s.ownDst o n l k → getP 0 (u.me.lane l).v k = groupWord (r l).d (k - s.dstBase o l)) ∧
    (¬(m l = true ∧ s.ownDst o n l k) → getP 0 (u.me.lane l).v k = getP 0 (s.me.lane l).v k)
  shadow : ∀ l < 64, ∀ k,
    (m l = true ∧ s.shadowDst o n k → getP 0 (u.me.lane l).shadow k = groupWord (r l).d (k - o.dst.toNat)) ∧
    (¬(m l = true ∧ s.shadowDst o n k) → getP 0 (u.me.lane l).shadow k = getP 0 (s.me.lane l).shadow k)
  scalar : ∀ k,
    (o.kd = .scal ∧ s.act ≠ 0 ∧ o.dst.toNat ≤ k ∧ k < o.dst.toNat + n → u.me.sreg k = groupWord (r 0).d (k - o.dst.toNat)) ∧
    (¬(o.kd = .scal ∧ s.act ≠ 0 ∧ o.dst.toNat ≤ k ∧ k < o.dst.toNat + n) → u.me.sreg k = s.me.sreg k)
  index : ∀ l < 64, ∀ k,
    (m l = true ∧ o.kd = .pred ∧ (r l).dp = none ∧ k = o.dst.toNat - 8 → getP 0 (u.me.lane l).x k = BitVec.ofNat 16 (r l).d) ∧
    (¬(m l = true ∧ o.kd = .pred ∧ (r l).dp = none ∧ k = o.dst.toNat - 8) →
      getP 0 (u.me.lane l).x k = getP 0 (s.me.lane l).x k)
  pred : ∀ l < 64, ∀ k < 8, k ≠ 0 → let w := if o.kd = .scal then s.act.getLsbD l else m l; let q := if o.kd = .scal then r 0 else r l
    ((w = true ∧ o.pd.toNat = k ∧ clash o q = false) → ∀ b, q.pd = some b → (u.me.lane l).pred k = b) ∧
    ((w = true ∧ o.dst.toNat = k ∧ ¬(o.pd.toNat = k ∧ q.pd.isSome = true)) → ∀ b, q.dp = some b → (u.me.lane l).pred k = b) ∧
    (¬(w = true ∧ ((o.pd.toNat = k ∧ q.pd.isSome = true) ∨ (o.dst.toNat = k ∧ q.dp.isSome = true))) →
      (u.me.lane l).pred k = (s.me.lane l).pred k)
  lane : ∀ l < 64, u.me.lane l =
    { s.me.lane l with
      v := (u.me.lane l).v, shadow := (u.me.lane l).shadow, x := (u.me.lane l).x, preds := (u.me.lane l).preds }
  warp : u.me = { s.me with lanes := u.me.lanes, s := u.me.s }
  warps : ∀ w, w ≠ s.cur → u.warp w = s.warp w
  unit : ∀ q, u.quarter q = { s.quarter q with rfcomp := (u.quarter q).rfcomp }
  units : ∀ q, q ≠ s.me.unit → u.quarter q = s.quarter q
  rest : u = { s with warps := u.warps, quarters := u.quarters, free := u.free }

/-- The registers of a lane after a result is written in it. -/
theorem Lane.putReg_v (s : State) (y : Lane) (o : Ops) (l n : Nat) (r : AluOut) (k : Nat) :
    (s.ownDst o n l k → getP 0 (y.putReg s.me o l n r).v k = groupWord r.d (k - s.dstBase o l)) ∧
    (¬ s.ownDst o n l k → getP 0 (y.putReg s.me o l n r).v k = getP 0 y.v k) := by
  unfold Lane.putReg State.ownDst State.dstBase groupWord
  cases hk : o.kd <;> simp only []
  · rw [Lane.setRegN_v]
    refine ⟨fun h => ?_, fun h => ?_⟩
    · simp only [reduceCtorEq, or_false, true_and] at h
      rw [if_pos ⟨h.2.1, h.2.2, h.1⟩]
    · rw [if_neg fun c => h ⟨.inl ⟨trivial, c.2.2⟩, c.1, c.2.1⟩]
  · simp
  · refine ⟨by simp, fun _ => ?_⟩
    split <;> rfl
  · rw [Lane.setRegN_v]
    refine ⟨fun h => ?_, fun h => ?_⟩
    · rw [if_pos ⟨h.2.1, h.2.2, by simp⟩]
    · rw [if_neg fun c => h ⟨.inr trivial, c.1, c.2.1⟩]

theorem Lane.putReg_shadow (s : State) (y : Lane) (o : Ops) (l n : Nat) (r : AluOut) (k : Nat) :
    (s.shadowDst o n k → getP 0 (y.putReg s.me o l n r).shadow k = groupWord r.d (k - o.dst.toNat)) ∧
    (¬ s.shadowDst o n k → getP 0 (y.putReg s.me o l n r).shadow k = getP 0 y.shadow k) := by
  unfold Lane.putReg State.shadowDst groupWord
  cases hk : o.kd <;> simp only []
  · rw [Lane.setRegN_shadow]
    refine ⟨fun h => ?_, fun h => ?_⟩
    · rw [if_pos ⟨h.2.2.2.1, h.2.2.2.2, h.2.1, h.2.2.1⟩]
    · rw [if_neg fun c => h ⟨trivial, c.2.2.1, c.2.2.2, c.1, c.2.1⟩]
  · simp
  · refine ⟨by simp, fun _ => ?_⟩
    split <;> rfl
  · rw [Lane.setRegN_shadow]
    refine ⟨by simp, fun _ => ?_⟩
    rw [if_neg (by simp)]

theorem Lane.putReg_x (s : State) (y : Lane) (o : Ops) (l n : Nat) (r : AluOut) (k : Nat) :
    (o.kd = .pred ∧ r.dp = none ∧ k = o.dst.toNat - 8 → getP 0 (y.putReg s.me o l n r).x k = BitVec.ofNat 16 r.d) ∧
    (¬(o.kd = .pred ∧ r.dp = none ∧ k = o.dst.toNat - 8) → getP 0 (y.putReg s.me o l n r).x k = getP 0 y.x k) := by
  unfold Lane.putReg
  cases hk : o.kd <;> simp only []
  · rw [Lane.setRegN_eq]; simp
  · simp
  · cases hd : r.dp with
    | none =>
      simp only [Option.isSome_none, Bool.false_eq_true, if_false, Lane.setX]
      refine ⟨fun h => by rw [h.2.2]; simp, fun h => ?_⟩
      rw [getP_setP_ne _ _ _ _ _ fun e => h ⟨by trivial, by trivial, e⟩]
    | some b => simp
  · rw [Lane.setRegN_eq]; simp

theorem Lane.putReg_preds (y : Lane) (x : Warp) (o : Ops) (l n : Nat) (r : AluOut) (k : Nat) :
    (y.putReg x o l n r).pred k = y.pred k := by
  rw [Lane.putReg_eq]; rfl

/-- A lane in which a result has been written. -/
def wroteLane (s : State) (o : Ops) (n : Nat) (r : AluOut) (fb : Bool) (l : Nat) : Lane :=
  ((s.me.lane l).putReg s.me o l n r).putPreds o r fb

theorem State.putResults_nonscal (s : State) (o : Ops) (n : Nat) (m : BitVec 64) (r : Nat → AluOut) (hk : o.kd ≠ .scal) :
    ∃ fr : Nat, ∃ fb : Nat → Bool, ∃ rs : List Nat, s.putResults o n m r =
      (State.setMe { s with free := fr } (s.me.mapLanes fun l y =>
        if m.getLsbD l then (y.putReg s.me o l n (r l)).putPreds o (r l) (fb l) else y)).countRf s.cur rs := by
  unfold State.putResults
  simp only [hk, if_false]
  by_cases c : (o.kd == DKind.pred && o.pd != 0 && o.pd.toNat == o.dst.toNat) = true
  · rw [if_pos c]
    exact ⟨_, _, _, rfl⟩
  · rw [if_neg c]
    exact ⟨s.free, _, _, rfl⟩

theorem State.putResults_wrote (s : State) (o : Ops) (n : Nat) (m : BitVec 64) (r : Nat → AluOut)
    (hd : ∀ l, (r l).dp.isSome = true → o.dst.toNat < 8) :
    Wrote s (s.putResults o n m r) o n (fun l => m.getLsbD l) r := by
  by_cases hk : o.kd = .scal
  · have hown : ∀ l k, ¬ s.ownDst o n l k := fun l k h => by rcases h.1 with c | c <;> simp [hk] at c
    have hsh : ∀ k, ¬ s.shadowDst o n k := fun k h => by have := h.1; simp [hk] at this
    have hx : ¬ o.kd = .pred := by simp [hk]
    by_cases ha : s.act = 0
    · have e : s.putResults o n m r = s := by
        unfold State.putResults; simp [hk, ha]
      rw [e]
      constructor
      case rest => rfl
      all_goals simp [hk, ha, hown, hsh]
    · obtain ⟨fb, e⟩ : ∃ fb : Nat → Bool, s.putResults o n m r =
          s.setMe ((s.me.mapLanes fun l y => if s.act.getLsbD l then y.putPreds o (r 0) (fb l) else y).setSN o.dst.toNat n (r 0).d) := by
        unfold State.putResults
        have hc : (DKind.scal == DKind.pred) = false := rfl
        simp only [hk, if_true, hc, Bool.false_and, Bool.false_eq_true, if_false]
        rw [if_neg ha]
        exact ⟨_, rfl⟩
      have hme : (s.putResults o n m r).me =
          (s.me.mapLanes fun l y => if s.act.getLsbD l then y.putPreds o (r 0) (fb l) else y).setSN o.dst.toNat n (r 0).d := by
        rw [e, State.me_setMe]
      have hl : ∀ l < 64, (s.putResults o n m r).me.lane l =
          if s.act.getLsbD l then (s.me.lane l).putPreds o (r 0) (fb l) else s.me.lane l := by
        intro l hl
        rw [hme, Warp.setSN_eq]
        exact Warp.mapLanes_lane s.me (fun l y => if s.act.getLsbD l then y.putPreds o (r 0) (fb l) else y) l hl
      constructor
      · intro l h k
        rw [hl l h]
        refine ⟨fun c => absurd c.2 (hown l k), fun _ => ?_⟩
        split
        · rw [Lane.putPreds_v]
        · rfl
      · intro l h k
        rw [hl l h]
        refine ⟨fun c => absurd c.2 (hsh k), fun _ => ?_⟩
        split
        · rw [Lane.putPreds_shadow]
        · rfl
      · intro k
        rw [hme, Warp.setSN_sreg]
        refine ⟨fun h => ?_, fun h => ?_⟩
        · rw [if_pos h.2.2]; rfl
        · rw [if_neg fun c => h ⟨hk, ha, c⟩]; rfl
      · intro l h k
        rw [hl l h]
        refine ⟨fun c => absurd c.2.1 hx, fun _ => ?_⟩
        split
        · rw [Lane.putPreds_x]
        · rfl
      · intro l h k hk8 h0
        simp only [hk, if_true]
        rw [hl l h]
        by_cases hm : s.act.getLsbD l = true
        · have := Lane.putPreds_pred (s.me.lane l) o (r 0) (fb l) (hd 0) k hk8 h0
          simp only [hm, if_true, true_and]
          exact this
        · simp [hm]
      · intro l h
        rw [hl l h]
        split
        · rw [Lane.putPreds_eq]
        · rfl
      · rw [hme, Warp.setSN_eq]; rfl
      · intro w hw
        rw [e]
        exact State.warp_setWarp_ne _ _ _ _ hw
      · intro q; rw [e]; rfl
      · intro q _; rw [e]; rfl
      · rw [e]; rfl
  · obtain ⟨fr, fb, rs, e⟩ := s.putResults_nonscal o n m r hk
    have hme : (s.putResults o n m r).me = s.me.mapLanes fun l y =>
        if m.getLsbD l then (y.putReg s.me o l n (r l)).putPreds o (r l) (fb l) else y := by
      rw [e, State.countRf_me, State.me_setMe]
    have hl : ∀ l < 64, (s.putResults o n m r).me.lane l =
        if m.getLsbD l then wroteLane s o n (r l) (fb l) l else s.me.lane l := by
      intro l hl
      rw [hme, Warp.mapLanes_lane _ _ _ hl]; rfl
    constructor
    · intro l h k
      rw [hl l h]
      by_cases hm : m.getLsbD l = true
      · rw [if_pos hm]
        have := Lane.putReg_v s (s.me.lane l) o l n (r l) k
        simp only [hm, true_and, wroteLane, Lane.putPreds_v]
        exact this
      · simp [hm]
    · intro l h k
      rw [hl l h]
      by_cases hm : m.getLsbD l = true
      · rw [if_pos hm]
        have := Lane.putReg_shadow s (s.me.lane l) o l n (r l) k
        simp only [hm, true_and, wroteLane, Lane.putPreds_shadow]
        exact this
      · simp [hm]
    · intro k
      refine ⟨fun h => absurd h.1 hk, fun _ => ?_⟩
      rw [hme]; rfl
    · intro l h k
      rw [hl l h]
      by_cases hm : m.getLsbD l = true
      · rw [if_pos hm]
        have := Lane.putReg_x s (s.me.lane l) o l n (r l) k
        simp only [hm, true_and, wroteLane, Lane.putPreds_x]
        exact this
      · simp [hm]
    · intro l h k hk8 h0
      simp only [hk, if_false]
      rw [hl l h]
      by_cases hm : m.getLsbD l = true
      · have := Lane.putPreds_pred ((s.me.lane l).putReg s.me o l n (r l)) o (r l) (fb l) (hd l) k hk8 h0
        simp only [hm, if_true, true_and, wroteLane]
        rw [Lane.putReg_preds] at this
        exact this
      · simp [hm]
    · intro l h
      rw [hl l h]
      by_cases hm : m.getLsbD l = true
      · rw [if_pos hm]
        unfold wroteLane
        rw [Lane.putPreds_eq, Lane.putReg_eq]
      · simp [hm]
    · rw [hme]; rfl
    · intro w hw
      rw [e, State.countRf_warp]
      exact State.warp_setWarp_ne _ _ _ _ hw
    · intro q
      rw [e, State.countRf_unit]; rfl
    · intro q hq
      rw [e, State.countRf_unit_ne]
      · rfl
      · intro c
        apply hq
        rw [c]
        show (State.warp (State.setWarp { s with free := fr } s.cur _) s.cur).unit = _
        rw [State.warp_setWarp_same]; rfl
    · rw [e]; rfl

end Sys2Proof.Machine
end

