-- ==== Sys2Proof/Laws/Execute.lean ====
section
/-!
SUPPORT. What a register instruction does as a whole (07 R166; 08 R192, R193): `execAlu`, `execUnit`.
-/
namespace Sys2Proof.Machine

/-- Releasing last-read marks only removes entries of the operand queue (03 R67). -/
theorem State.releaseMarks_effect (s : State) (g : List Nat) :
    (s.releaseMarks g).me = { s.me with oq := (s.releaseMarks g).me.oq } ∧
    (∀ e ∈ (s.releaseMarks g).me.oq, e ∈ s.me.oq) ∧
    (∀ w, w ≠ s.cur → (s.releaseMarks g).warp w = s.warp w) ∧
    s.releaseMarks g = { s with warps := (s.releaseMarks g).warps } := by
  unfold State.releaseMarks
  simp only []
  split
  · exact ⟨rfl, fun _ h => h, fun _ _ => rfl, rfl⟩
  · refine ⟨?_, ?_, fun w hw => State.warp_setWarp_ne _ _ _ _ hw, rfl⟩
    · unfold State.onMe
      rw [State.me_setMe]
    · unfold State.onMe
      rw [State.me_setMe]
      intro e he
      exact (List.mem_filter.mp he).1

theorem State.releaseMarks_lane (s : State) (g : List Nat) (l : Nat) :
    (s.releaseMarks g).me.lane l = s.me.lane l := by
  rw [(s.releaseMarks_effect g).1]; rfl
theorem State.releaseMarks_sreg (s : State) (g : List Nat) (k : Nat) :
    (s.releaseMarks g).me.sreg k = s.me.sreg k := by
  rw [(s.releaseMarks_effect g).1]; rfl
theorem State.releaseMarks_quarter (s : State) (g : List Nat) (q : Nat) :
    (s.releaseMarks g).quarter q = s.quarter q := by
  rw [(s.releaseMarks_effect g).2.2.2]; rfl

theorem Lane.pred_congr {y z : Lane} (h : y.preds = z.preds) (k : Nat) : y.pred k = z.pred k := by
  unfold Lane.pred; rw [h]

theorem Quarter.onlyUnits {p q : Quarter} (h : ∃ a b, q = { p with unitFree := a, fp64Free := b }) (c : Word) :
    { q with rfcomp := c } = { p with rfcomp := c, unitFree := q.unitFree, fp64Free := q.fp64Free } := by
  obtain ⟨a, b, rfl⟩ := h
  rfl

/-- The results written, the program counters moved and the marks released: the whole effect. -/
theorem Wrote.effect {s u : State} {qs : List Quarter} {o : Ops} {n : Nat} {m : Nat → Bool} {r : Nat → AluOut} (rs : List Nat)
    (f : Nat → Option DWord) (c : Nat) (hf : s.agrees f)
    (hq : ∀ q, ∃ a b, getP Quarter.idle_ qs q = { s.quarter q with unitFree := a, fp64Free := b })
    (hn : ∀ q, q ≠ s.me.unit → getP Quarter.idle_ qs q = s.quarter q)
    (h : Wrote { s with issued := true, quarters := qs } u o n m r) :
    RegEffect s ((u.finished f c).releaseMarks rs) o n m r f c := by
  have hcur : u.cur = s.cur := by rw [h.rest]
  have hact : u.act = s.act := by rw [h.rest]
  have hnow : u.now = s.now := by rw [h.rest]
  have hnpc : u.npc = s.npc := by rw [h.rest]
  have hhm : u.me.hmode = s.me.hmode := by rw [h.warp]; rfl
  have hg : ∀ l, u.goes f l = s.goes f l := fun l => by unfold State.goes; rw [hnpc]
  have hau : u.agrees f := by
    intro a j hj l hl b c
    rw [hg, hg]
    rw [hact] at b c
    exact hf (by rw [← hhm]; exact a) j hj l hl b c
  have hadv : (u.finished f c).cur = u.cur := by rw [State.finished_rest u f hau]
  have hl : ∀ l < 64, u.me.lane l = { s.me.lane l with
      v := (u.me.lane l).v, shadow := (u.me.lane l).shadow, x := (u.me.lane l).x, preds := (u.me.lane l).preds } := h.lane
  have hst : ∀ l < 64, (u.me.lane l).st = (s.me.lane l).st := fun l hh => by rw [hl l hh]
  have hfl : ∀ l < 64, (u.me.lane l).failing = (s.me.lane l).failing := fun l hh => by rw [hl l hh]
  have hmt : ∀ l < 64, (u.me.lane l).meet = (s.me.lane l).meet := fun l hh => by rw [hl l hh]
  have hpc : ∀ l < 64, (u.me.lane l).pc = (s.me.lane l).pc := fun l hh => by rw [hl l hh]
  have hhp : u.me.hpc = s.me.hpc := by rw [h.warp]; rfl
  have hoq : u.me.oq = s.me.oq := by rw [h.warp]; rfl
  have hun : u.me.unit = s.me.unit := by rw [h.warp]; rfl
  have hmv : ∀ l < 64, (u.moves l ↔ s.moves l) := by
    intro l hh; unfold State.moves; rw [hhm, hact, hst l hh, hfl l hh]
  have hpn := State.finished_pc u f hau c
  have lanes : ∀ l < 64, (((u.finished f c).releaseMarks rs).me.lane l) =
      { u.me.lane l with pc := ((u.finished f c).me.lane l).pc, st := ((u.finished f c).me.lane l).st } := by
    intro l hh
    rw [State.releaseMarks_lane, ← State.finished_lane_regs u f hau c l hh]
  constructor
  · intro l hh k; rw [lanes l hh]; exact h.own l hh k
  · intro l hh k; rw [lanes l hh]; exact h.shadow l hh k
  · intro k; rw [State.releaseMarks_sreg, State.finished_sreg u f hau]; exact h.scalar k
  · intro l hh k; rw [lanes l hh]; exact h.index l hh k
  · intro l hh k hk h0
    have e : (((u.finished f c).releaseMarks rs).me.lane l).pred k = (u.me.lane l).pred k :=
      Lane.pred_congr (by rw [lanes l hh]) k
    rw [e]
    exact h.pred l hh k hk h0
  · constructor
    · intro l hh hm
      rw [State.releaseMarks_lane, hpn.moved l hh ((hmv l hh).mpr hm), hg]
    · intro l hh hm
      rw [State.releaseMarks_lane, hpn.held l hh ((hmv l hh).mpr hm), hg, hmt l hh]
    · intro l hh hm
      rw [State.releaseMarks_lane, (hpn.still l hh fun c => hm ((hmv l hh).mp c)).1,
        (hpn.still l hh fun c => hm ((hmv l hh).mp c)).2, hpc l hh, hst l hh]
      exact ⟨rfl, rfl⟩
    · rw [((u.finished f c).releaseMarks_effect rs).1]
      refine ⟨fun d => ?_, fun d l hl hal => ?_, fun d h0 => ?_⟩
      · rw [← hhp]; exact hpn.handler.1 (by rw [hhm]; exact d)
      · rw [← hg]; exact hpn.handler.2.1 (by rw [hhm]; exact d) l hl (by rw [hact]; exact hal)
      · rw [← hnpc]; exact hpn.handler.2.2 (by rw [hhm]; exact d) (by rw [hact]; exact h0)
  · intro l hh
    rw [lanes l hh]
    conv => lhs; rw [hl l hh]
  · intro e he
    have := ((u.finished f c).releaseMarks_effect rs).2.1 e he
    rw [State.finished_warp u f hau] at this
    rw [← hoq]; exact this
  · rw [((u.finished f c).releaseMarks_effect rs).1]
    conv => lhs; rw [State.finished_warp u f hau, h.warp, hnow]
    have hs : (u.finished f c).me.s = u.me.s := by rw [State.finished_warp u f hau]
    simp only [hs]
    rfl
  · intro w hw
    rw [((u.finished f c).releaseMarks_effect rs).2.2.1 w (by rw [hadv, hcur]; exact hw),
      State.finished_warp_ne u f hau c w (by rw [hcur]; exact hw)]
    exact h.warps w hw
  · intro q
    have e : ((u.finished f c).releaseMarks rs).quarter q = u.quarter q := by
      rw [State.releaseMarks_quarter, State.finished_rest u f hau]; rfl
    rw [e, h.unit q]
    exact Quarter.onlyUnits (hq q) _
  · intro q hqn
    have e : ((u.finished f c).releaseMarks rs).quarter q = u.quarter q := by
      rw [State.releaseMarks_quarter, State.finished_rest u f hau]; rfl
    rw [e, h.units q hqn]
    exact hn q hqn
  · rw [((u.finished f c).releaseMarks_effect rs).2.2.2, State.finished_rest u f hau, h.rest]

/-- What stands before an instruction that may run lets it through. -/
theorem State.guarded_mayRun (s : State) (i : Instr) (sh : Shape) (o : Ops) (k : State → State) (hr : s.mayRun i sh o) :
    s.guarded i k = if (k { s with issued := true }).issued then (k { s with issued := true }).releaseMarks (s.markRegs sh o)
      else k { s with issued := true } := by
  obtain ⟨-, h1, h2, h3, h4, h5⟩ := hr
  unfold State.guarded
  simp only [h1, h2]
  rw [if_neg (by simp [h3]), if_neg, if_neg]
  · intro c
    simp only [Bool.and_eq_true] at c
    rw [h5 c.1] at c
    exact absurd c.2 (by simp)
  · intro c
    simp only [Bool.and_eq_true, Bool.not_eq_true'] at c
    rw [h4 c.1] at c
    exact absurd c.2 (by simp)

theorem RegEffect.congr_results {s t : State} {o : Ops} {n : Nat} {m m' : Nat → Bool} {r r' : Nat → AluOut}
    {f : Nat → Option DWord} {k : Nat} (h : RegEffect s t o n m r f k) (hm : ∀ l < 64, m l = m' l) (hr : ∀ l < 64, m' l = true ∨ o.kd = .scal → r l = r' l) :
    RegEffect s t o n m' r' f k := by
  constructor
  · intro l hl k
    have e := h.own l hl k
    rw [hm l hl] at e
    refine ⟨fun c => ?_, e.2⟩
    rw [← hr l hl (.inl c.1)]; exact e.1 c
  · intro l hl k
    have e := h.shadow l hl k
    rw [hm l hl] at e
    refine ⟨fun c => ?_, e.2⟩
    rw [← hr l hl (.inl c.1)]; exact e.1 c
  · intro k
    have e := h.scalar k
    refine ⟨fun c => ?_, e.2⟩
    rw [← hr 0 (by decide) (.inr c.1)]; exact e.1 c
  · intro l hl k
    have e := h.index l hl k
    rw [hm l hl] at e
    by_cases c : m' l = true
    · rw [← hr l hl (.inl c)]; exact e
    · exact ⟨fun d => absurd d.1 c, fun _ => e.2 fun d => c d.1⟩
  · intro l hl k hk h0
    have e := h.pred l hl k hk h0
    rw [hm l hl] at e
    by_cases c : o.kd = .scal
    · simp only [c, if_true] at e ⊢
      rw [← hr 0 (by decide) (.inr c)]; exact e
    · simp only [c, if_false] at e ⊢
      by_cases d : m' l = true
      · rw [← hr l hl (.inl d)]; exact e
      · exact ⟨fun x => absurd x.1 d, fun x => absurd x.1 d, fun _ => e.2.2 fun x => d x.1⟩
  · exact h.pc
  · exact h.lane
  · exact h.queue
  · exact h.warp
  · exact h.warps
  · exact h.unit
  · exact h.units
  · exact h.rest

/-- A register instruction with its results written and over, from the state in which it has issued. -/
theorem State.runAlu_effect (s : State) (qs : List Quarter) (sh : Shape) (o : Ops) (f : AluIn → AluOut) (rs : List Nat)
    (hq : ∀ q, ∃ a b, getP Quarter.idle_ qs q = { s.quarter q with unitFree := a, fp64Free := b })
    (hn : ∀ q, q ≠ s.me.unit → getP Quarter.idle_ qs q = s.quarter q)
    (hb : s.idxBad sh o = 0) (hd : ∀ l, (f (s.aluIn sh o l)).dp.isSome = true → o.dst.toNat < 8) :
    let t := State.runAlu { s with issued := true, quarters := qs } sh o f
    t.issued = true ∧ RegEffect s (t.releaseMarks rs) o sh.dstRegs (s.pass o) (fun l => f (s.aluIn sh o l)) := by
  intro t
  let good := s.passMask o &&& ~~~(0 : BitVec 64)
  let vals := (List.range 64).map fun l => if good.getLsbD l || o.kd == .scal then f (s.aluIn sh o l) else ⟨0, none, none⟩
  let u := State.putResults { s with issued := true, quarters := qs } o sh.dstRegs good fun l => getP ⟨0, none, none⟩ vals l
  have ht : t = u.advance := by
    show State.runAlu _ sh o f = _
    unfold State.runAlu
    simp only [show State.idxBad { s with issued := true, quarters := qs } sh o = 0 from hb, State.parkLanes_zero]
    rfl
  have hv : ∀ l < 64, getP ⟨0, none, none⟩ vals l = if good.getLsbD l || o.kd == .scal then f (s.aluIn sh o l) else ⟨0, none, none⟩ :=
    fun l hl => getP_map_range _ _ 64 l hl
  have hv' : ∀ l, 64 ≤ l → getP (⟨0, none, none⟩ : AluOut) vals l = ⟨0, none, none⟩ := by
    intro l hl
    apply getP_beyond
    simp [vals, hl]
  have hw := State.putResults_wrote { s with issued := true, quarters := qs } o sh.dstRegs good
    (fun l => getP ⟨0, none, none⟩ vals l) (by
      intro l h
      by_cases hl : l < 64
      · rw [hv l hl] at h
        by_cases c : (good.getLsbD l || o.kd == .scal) = true
        · rw [if_pos c] at h; exact hd l h
        · rw [if_neg c] at h; exact absurd h (by simp)
      · rw [hv' l (by omega)] at h; exact absurd h (by simp))
  have he := hw.effect rs (fun _ => none) 1 s.agrees_none hq hn
  have hg : ∀ l < 64, good.getLsbD l = s.pass o l := by
    intro l hl
    show (s.passMask o &&& ~~~(0 : BitVec 64)).getLsbD l = _
    have e : (s.passMask o &&& ~~~(0 : BitVec 64)) = s.passMask o := by
      rw [show (~~~(0 : BitVec 64)) = BitVec.allOnes 64 from rfl, BitVec.and_allOnes]
    rw [e, State.passMask_getLsbD s o l hl]
  refine ⟨?_, ?_⟩
  · rw [ht, State.advance_finished, State.finished_rest u _ (State.agrees_none u)]
    exact congrArg State.issued hw.rest
  · rw [ht]
    refine he.congr_results hg ?_
    intro l hl c
    show getP _ vals l = _
    rw [hv l hl, if_pos]
    rcases c with c | c
    · rw [hg l hl, c]; rfl
    · simp [c]

/-- A register instruction that may run, none of whose indexed operands breaks its bound, completes with its results. -/
theorem execAlu_effect (i : Instr) (f : AluIn → AluOut) (s : State) (sh : Shape) (o : Ops) (hr : s.mayRun i sh o)
    (hb : s.idxBad sh o = 0) (hd : ∀ l, (f (s.aluIn sh o l)).dp.isSome = true → o.dst.toNat < 8) :
    ∃ t, execAlu i f s = .next t ∧ RegEffect s t o sh.dstRegs (s.pass o) (fun l => f (s.aluIn sh o l)) := by
  have h := State.runAlu_effect s s.quarters sh o f (s.markRegs sh o) (fun q => ⟨_, _, rfl⟩) (fun _ _ => rfl) hb hd
  refine ⟨_, rfl, ?_⟩
  rw [State.guarded_mayRun s i sh o _ hr]
  obtain ⟨-, h1, h2, -⟩ := hr
  simp only [h1, h2]
  rw [if_pos h.1]
  exact h.2

/-- A register instruction of a function unit that is free (08 R194). -/
theorem execUnit_effect (i : Instr) (d : Bool) (k : Nat) (f : AluIn → AluOut) (s : State) (sh : Shape) (o : Ops)
    (hr : s.mayRun i sh o) (hf : s.unitBusy d = false) (hb : s.idxBad sh o = 0)
    (hd : ∀ l, (f (s.aluIn sh o l)).dp.isSome = true → o.dst.toNat < 8) :
    ∃ t, execUnit i d k f s = .next t ∧ RegEffect s t o sh.dstRegs (s.pass o) (fun l => f (s.aluIn sh o l)) := by
  have hq : ∀ q, ∃ a b, getP Quarter.idle_ (s.takeUnit d k).quarters q = { s.quarter q with unitFree := a, fp64Free := b } := by
    intro q
    by_cases c : q = s.me.unit
    · subst c
      refine ⟨if d then (s.quarter s.me.unit).unitFree else s.now + k, if d then s.now + k else (s.quarter s.me.unit).fp64Free, ?_⟩
      show State.quarter (s.takeUnit d k) _ = _
      unfold State.takeUnit
      rw [State.quarter_onQuarter_same]
      cases d <;> rfl
    · exact ⟨(s.quarter q).unitFree, (s.quarter q).fp64Free, State.quarter_onQuarter_ne _ _ _ _ c⟩
  have h := State.runAlu_effect s (s.takeUnit d k).quarters sh o f (s.markRegs sh o) hq (fun q c => State.quarter_onQuarter_ne _ _ _ _ c) hb hd
  refine ⟨_, rfl, ?_⟩
  rw [State.guarded_mayRun s i sh o _ hr]
  obtain ⟨-, h1, h2, -⟩ := hr
  simp only [h1, h2, show State.unitBusy { s with issued := true } d = false from hf, Bool.false_eq_true, if_false]
  have e : State.takeUnit { s with issued := true } d k = { s with issued := true, quarters := (s.takeUnit d k).quarters } := rfl
  rw [e, if_pos h.1]
  exact h.2

end Sys2Proof.Machine
end

