-- ==== Sys2Proof/Laws/Control.lean ====
section
/-!
SUPPORT. What an instruction does that changes lanes and then moves on (08 R197, R202): `LaneEffect`.
-/
namespace Sys2Proof.Machine

/-- A state in which the lanes have changed by `g` and nothing else has. -/
structure LanesTo (s u : State) (g : Nat → Lane → Lane) : Prop where
  lane : ∀ l < 64, u.me.lane l = g l (s.me.lane l)
  warp : u.me = { s.me with lanes := u.me.lanes }
  warps : ∀ w, w ≠ s.cur → u.warp w = s.warp w
  rest : u = { s with warps := u.warps, issued := true }

/-- Lanes changed, the warp moved on, the marks released: the whole effect. -/
theorem LanesTo.effect {s u : State} {g : Nat → Lane → Lane} (h : LanesTo s u g) (rs : List Nat) (f : Nat → Option DWord) (c : Nat)
    (ha : s.agrees f) : LaneEffect s ((u.finished f c).releaseMarks rs) g f c := by
  have hcur : u.cur = s.cur := by rw [h.rest]
  have hact : u.act = s.act := by rw [h.rest]
  have hnow : u.now = s.now := by rw [h.rest]
  have hnpc : u.npc = s.npc := by rw [h.rest]
  have hhm : u.me.hmode = s.me.hmode := by rw [h.warp]
  have hg : ∀ l, u.goes f l = s.goes f l := fun l => by unfold State.goes; rw [hnpc]
  have hau : u.agrees f := by
    intro a j hj l hl b d
    rw [hg, hg]
    rw [hact] at b d
    rw [hhm] at a
    exact ha a j hj l hl b d
  have hme := ((u.finished f c).releaseMarks_effect rs).1
  have hlane : ∀ l, ((u.finished f c).releaseMarks rs).me.lane l = (u.finished f c).me.lane l := fun l => State.releaseMarks_lane _ _ _
  have hpc := State.finished_pc u f hau c
  have hh : ((u.finished f c).releaseMarks rs).me.hpc = (u.finished f c).me.hpc := by rw [hme]
  have hl2 : ∀ l < 64, (s.setMe (s.me.mapLanes g)).me.lane l = u.me.lane l := fun l hl => by
    rw [State.me_setMe, Warp.mapLanes_lane _ _ _ hl, h.lane l hl]
  have hm2 : (s.setMe (s.me.mapLanes g)).me.hmode = u.me.hmode := by rw [State.me_setMe, hhm]; rfl
  have hp2 : (s.setMe (s.me.mapLanes g)).me.hpc = u.me.hpc := by rw [State.me_setMe, h.warp]; rfl
  have hgo : ∀ l, (s.setMe (s.me.mapLanes g)).goes f l = u.goes f l := fun l => by rw [hg]; rfl
  have hac : (s.setMe (s.me.mapLanes g)).act = u.act := by rw [hact]; rfl
  have hnp : (s.setMe (s.me.mapLanes g)).npc = u.npc := by rw [hnpc]; rfl
  have hmv : ∀ l < 64, (s.setMe (s.me.mapLanes g)).moves l ↔ u.moves l := fun l hl => by
    unfold State.moves
    rw [hm2, hl2 l hl, hac]
  refine ⟨fun l hl => ?_, ⟨fun l hl hm => ?_, fun l hl hm => ?_, fun l hl hm => ?_, ?_, ?_, ?_⟩, fun e he => ?_, ?_, fun w hw => ?_, ?_⟩
  · rw [hlane, State.finished_lane_regs u f hau c l hl, h.lane l hl]
  · rw [hlane, hgo]; exact hpc.moved l hl ((hmv l hl).mp hm)
  · rw [hlane, hgo, hl2 l hl]; exact hpc.held l hl ((hmv l hl).mp hm)
  · rw [hlane, hl2 l hl]; exact hpc.still l hl fun c => hm ((hmv l hl).mpr c)
  · rw [hh, hm2, hp2]; exact hpc.handler.1
  · rw [hh, hm2, hac]
    intro hm l hl
    rw [hgo]
    exact hpc.handler.2.1 hm l hl
  · rw [hh, hm2, hac, hnp]; exact hpc.handler.2.2
  · have h1 := ((u.finished f c).releaseMarks_effect rs).2.1 e he
    rw [State.finished_warp u f hau c, h.warp] at h1
    exact h1
  · rw [hme, State.finished_warp u f hau c, h.warp, hnow]
  · rw [((u.finished f c).releaseMarks_effect rs).2.2.1 w (by rw [State.finished_rest u f hau]; exact hcur ▸ hw),
      State.finished_warp_ne u f hau c w (hcur ▸ hw)]
    exact h.warps w hw
  · rw [((u.finished f c).releaseMarks_effect rs).2.2.2, State.finished_rest u f hau, h.rest]

/-- Every lane through `g`. -/
theorem LanesTo.map (s : State) (g : Nat → Lane → Lane) : LanesTo s (({ s with issued := true } : State).setMe (s.me.mapLanes g)) g := by
  have e : (({ s with issued := true } : State).setMe (s.me.mapLanes g)).me = s.me.mapLanes g := State.me_setMe _ _
  exact ⟨fun l hl => by rw [e, Warp.mapLanes_lane _ _ _ hl], by rw [e]; rfl,
    fun w hw => State.warp_setWarp_ne _ _ _ _ hw, rfl⟩
/-- No lane changed. -/
theorem LanesTo.none (s : State) : LanesTo s { s with issued := true } fun _ y => y := ⟨fun _ _ => rfl, rfl, fun _ _ => rfl, rfl⟩

theorem LaneEffect.congr {s t : State} {g g' : Nat → Lane → Lane} {f f' : Nat → Option DWord} {k k' : Nat} (h : LaneEffect s t g f k)
    (hg : g = g') (hf : f = f') (hk : k = k') : LaneEffect s t g' f' k' := by subst hg hf hk; exact h

/-- An instruction that changes lanes and moves on, where it may run (07 R180; 15 R321). -/
theorem State.guarded_lanes (s : State) (i : Instr) (sh : Shape) (o : Ops) (k : State → State) (hr : s.mayRun i sh o)
    (g : Nat → Lane → Lane) (f : Nat → Option DWord) (c : Nat) (ha : s.agrees f) {u : State} (hu : LanesTo s u g)
    (hk : k { s with issued := true } = u.finished f c) : LaneEffect s (s.guarded i k) g f c := by
  rw [State.guarded_mayRun s i sh o k hr, hk]
  have hau : u.agrees f := by
    intro a j hj l hl b d
    have hg : ∀ l, u.goes f l = s.goes f l := fun l => by unfold State.goes; rw [hu.rest]
    rw [hg, hg]
    rw [hu.warp] at a
    rw [hu.rest] at b d
    exact ha a j hj l hl b d
  rw [if_pos (by rw [State.finished_rest u f hau, hu.rest])]
  exact hu.effect _ f c ha

end Sys2Proof.Machine
end

