-- ==== Sys2Proof/Laws/Memory.lean ====
section
/-!
SUPPORT. Memory as a list of cells in canonical form: what a write leaves at every address, and that it keeps the form.
-/
namespace Sys2Proof.Machine

/-! ## Canonical form -/

/-- The form says that the addresses rise and that no cell holds what an unlisted byte reads as. -/
theorem Memory.wf_iff (d : Nat → Byte) (m : List Host.Cell) :
    Memory.wf d m = true ↔ m.Pairwise (fun x y => x.1 < y.1) ∧ ∀ c ∈ m, c.2 ≠ d c.1 := by
  induction m with
  | nil => simp [Memory.wf]
  | cons c r ih =>
    obtain ⟨k, v⟩ := c
    simp only [Memory.wf, Bool.and_eq_true, List.all_eq_true, decide_eq_true_eq, bne_iff_ne, List.pairwise_cons, List.forall_mem_cons, ih]
    constructor
    · rintro ⟨⟨h1, h2⟩, h3, h4⟩
      exact ⟨⟨h2, h3⟩, h1, h4⟩
    · rintro ⟨⟨h2, h3⟩, h1, h4⟩
      exact ⟨⟨h1, h2⟩, h3, h4⟩

theorem Memory.wf_nil (d : Nat → Byte) : Memory.wf d [] = true := rfl

/-- The new cells of a write lie inside it and none holds what an unlisted byte reads as. -/
theorem Memory.mem_fresh {d : Nat → Byte} {bs : List Byte} {a : Nat} {c : Host.Cell} (h : c ∈ Memory.fresh d a bs) :
    a ≤ c.1 ∧ c.1 < a + bs.length ∧ c.2 ≠ d c.1 := by
  induction bs generalizing a with
  | nil => simp [Memory.fresh] at h
  | cons b r ih =>
    simp only [Memory.fresh] at h
    split at h
    · obtain ⟨h1, h2, h3⟩ := ih h
      exact ⟨by omega, by simp; omega, h3⟩
    · rename_i hb
      rcases List.mem_cons.1 h with rfl | h
      · exact ⟨Nat.le_refl _, by simp, hb⟩
      · obtain ⟨h1, h2, h3⟩ := ih h
        exact ⟨by omega, by simp; omega, h3⟩

theorem Memory.fresh_pairwise (d : Nat → Byte) (bs : List Byte) (a : Nat) :
    (Memory.fresh d a bs).Pairwise (fun x y => x.1 < y.1) := by
  induction bs generalizing a with
  | nil => simp [Memory.fresh]
  | cons b r ih =>
    simp only [Memory.fresh]
    split
    · exact ih _
    · exact List.pairwise_cons.2 ⟨fun c hc => by have := (Memory.mem_fresh hc).1; simp; omega, ih _⟩

/-- A write keeps the form. -/
theorem Memory.put_wf {d : Nat → Byte} {m : List Host.Cell} (h : Memory.wf d m = true) (a : Nat) (bs : List Byte) :
    Memory.wf d (Memory.put d m a bs) = true := by
  rw [Memory.wf_iff] at h ⊢
  obtain ⟨hp, hd⟩ := h
  constructor
  · simp only [Memory.put, List.pairwise_append, List.mem_filter, List.mem_append, decide_eq_true_eq]
    refine ⟨⟨hp.filter _, Memory.fresh_pairwise d bs a, ?_⟩, hp.filter _, ?_⟩
    · intro x hx y hy
      have := (Memory.mem_fresh hy).1
      omega
    · rintro x (hx | hx) y hy
      · omega
      · have := (Memory.mem_fresh hx).2.1
        omega
  · simp only [Memory.put, List.mem_append, List.mem_filter]
    rintro c ((hc | hc) | hc)
    · exact hd c hc.1
    · exact (Memory.mem_fresh hc).2.2
    · exact hd c hc.1

/-! ## Reads after writes -/

theorem Memory.get_append_left {d : Nat → Byte} {l r : List Host.Cell} {a : Nat} (h : ∀ c ∈ r, c.1 ≠ a) :
    Memory.get d (l ++ r) a = Memory.get d l a := by
  induction l with
  | nil =>
    induction r with
    | nil => rfl
    | cons c r ih =>
      have h1 := h c (by simp)
      simp only [List.nil_append, Memory.get, if_neg h1]
      exact ih fun x hx => h x (by simp [hx])
  | cons c l ih => simp only [List.cons_append, Memory.get, ih]

theorem Memory.get_append_right {d : Nat → Byte} {l r : List Host.Cell} {a : Nat} (h : ∀ c ∈ l, c.1 ≠ a) :
    Memory.get d (l ++ r) a = Memory.get d r a := by
  induction l with
  | nil => rfl
  | cons c l ih =>
    have h1 := h c (by simp)
    simp only [List.cons_append, Memory.get, if_neg h1]
    exact ih fun x hx => h x (by simp [hx])

theorem Memory.get_filter {d : Nat → Byte} {m : List Host.Cell} {a : Nat} {p : Host.Cell → Bool} (h : ∀ v, p (a, v) = true) :
    Memory.get d (m.filter p) a = Memory.get d m a := by
  induction m with
  | nil => rfl
  | cons c m ih =>
    obtain ⟨k, v⟩ := c
    by_cases hp : p (k, v) = true
    · simp only [List.filter_cons_of_pos hp, Memory.get, ih]
    · have hk : k ≠ a := by
        rintro rfl
        exact hp (h v)
      simp only [List.filter_cons_of_neg hp, Memory.get, if_neg hk, ih]

theorem Memory.get_fresh (d : Nat → Byte) (bs : List Byte) (a i : Nat) (h : i < bs.length) :
    Memory.get d (Memory.fresh d a bs) (a + i) = bs[i] := by
  induction bs generalizing a i with
  | nil => simp at h
  | cons b r ih =>
    cases i with
    | zero =>
      simp only [Memory.fresh, Nat.add_zero, List.getElem_cons_zero]
      split
      · rename_i hb
        rw [hb]
        have : ∀ c ∈ Memory.fresh d (a + 1) r, c.1 ≠ a := fun c hc => by have := (Memory.mem_fresh hc).1; omega
        simpa [Memory.get] using Memory.get_append_left (d := d) (l := []) this
      · simp [Memory.get]
    | succ i =>
      have hi : i < r.length := by simpa using h
      have he : a + (i + 1) = a + 1 + i := by omega
      simp only [Memory.fresh, List.getElem_cons_succ]
      split
      · rw [he]
        exact ih (a + 1) i hi
      · have hn : ¬ a = a + 1 + i := by omega
        rw [he, Memory.get, if_neg hn]
        exact ih (a + 1) i hi

/-- A byte that a write covers reads as the byte written. -/
theorem Memory.get_put_in (d : Nat → Byte) (m : List Host.Cell) (a : Nat) (bs : List Byte) (i : Nat) (h : i < bs.length) :
    Memory.get d (Memory.put d m a bs) (a + i) = bs[i] := by
  unfold Memory.put
  rw [Memory.get_append_left, Memory.get_append_right, Memory.get_fresh d bs a i h]
  · intro c hc
    have := (List.mem_filter.1 hc).2
    simp only [decide_eq_true_eq] at this
    omega
  · intro c hc
    have := (List.mem_filter.1 hc).2
    simp only [decide_eq_true_eq] at this
    omega

/-- Every other byte reads as before. -/
theorem Memory.get_put_out (d : Nat → Byte) (m : List Host.Cell) (a : Nat) (bs : List Byte) (k : Nat) (h : k < a ∨ a + bs.length ≤ k) :
    Memory.get d (Memory.put d m a bs) k = Memory.get d m k := by
  unfold Memory.put
  rcases h with h | h
  · rw [List.append_assoc, Memory.get_append_left, Memory.get_filter]
    · simpa using h
    · intro c hc
      rcases List.mem_append.1 hc with hc | hc
      · have := (Memory.mem_fresh hc).1
        omega
      · have := (List.mem_filter.1 hc).2
        simp only [decide_eq_true_eq] at this
        omega
  · rw [Memory.get_append_right, Memory.get_filter]
    · simpa using h
    · intro c hc
      rcases List.mem_append.1 hc with hc | hc
      · have := (List.mem_filter.1 hc).2
        simp only [decide_eq_true_eq] at this
        omega
      · have := (Memory.mem_fresh hc).2.1
        omega

/-- A byte of a write, or the byte that stood there. -/
theorem Memory.get_put (d : Nat → Byte) (m : List Host.Cell) (a : Nat) (bs : List Byte) (k : Nat) :
    Memory.get d (Memory.put d m a bs) k = if h : a ≤ k ∧ k < a + bs.length then bs[k - a]'(by omega) else Memory.get d m k := by
  split
  · rename_i h
    have := Memory.get_put_in d m a bs (k - a) (by omega)
    rwa [show a + (k - a) = k by omega] at this
  · exact Memory.get_put_out d m a bs k (by omega)

/-! ## Bytes and numbers -/

theorem toBytes_length (n v : Nat) : (toBytes n v).length = n := by
  induction n generalizing v with
  | zero => rfl
  | succ n ih => simp [toBytes, ih]

theorem leNum_toBytes (n v : Nat) : leNum (toBytes n v) = v % 256 ^ n := by
  induction n generalizing v with
  | zero => simp [toBytes, leNum, Nat.mod_one]
  | succ n ih =>
    simp only [toBytes, leNum, BitVec.toNat_ofNat, ih]
    rw [show (256 : Nat) ^ (n + 1) = 256 * 256 ^ n by rw [Nat.pow_succ, Nat.mul_comm], Nat.mod_mul]

theorem leNum_lt (bs : List Byte) : leNum bs < 256 ^ bs.length := by
  induction bs with
  | nil => simp [leNum]
  | cons b r ih =>
    simp only [leNum, List.length_cons, Nat.pow_succ]
    have := b.isLt
    omega

end Sys2Proof.Machine
end

