-- ==== Sys2Proof/Laws/Home.lean ====
section
/-!
SUPPORT. What the operations on the slices and on memory may change, and that each keeps the canonical form of memory.
-/
namespace Sys2Proof.Machine

/-! ## What each operation changes -/

/-- A state with the memory of another: the cells here and far away, the codes of the blocks, the queues of the banks, the poisoned and the
published lines, and the slices. -/
def State.withMem (s t : State) : State :=
  { s with
    dram := t.dram, remote := t.remote, codes := t.codes, queues := t.queues, poisoned := t.poisoned, published := t.published
    l2 := t.l2, filledSlices := t.filledSlices }
/-- The second state differs from the first in its memory alone. -/
def State.OnlyMem (s t : State) : Prop := t = s.withMem t

theorem State.OnlyMem.refl (s : State) : s.OnlyMem s := rfl
theorem State.OnlyMem.trans {s t u : State} (h : s.OnlyMem t) (k : t.OnlyMem u) : s.OnlyMem u := by
  unfold State.OnlyMem at *
  rw [k, h]
  rfl
/-- An operation made of steps that each change memory alone. -/
theorem State.OnlyMem.foldl {α : Type} {f : State → α → State} (h : ∀ s a, State.OnlyMem s (f s a)) (s : State) (l : List α) :
    s.OnlyMem (l.foldl f s) := by
  induction l generalizing s with
  | nil => exact .refl s
  | cons a l ih => exact (h s a).trans (ih _)

theorem State.setDram_only (s : State) (a : Nat) (bs : List Byte) : s.OnlyMem (s.setDram a bs) := rfl
theorem State.storeBlock_only (s : State) (b : Nat) (ws : List Word) : s.OnlyMem (s.storeBlock b ws) := rfl
theorem State.storeLine_only (s : State) (la : Nat) (d : BitVec 1024) : s.OnlyMem (s.storeLine la d) := by
  unfold State.storeLine
  split <;> rfl
theorem State.enqueue_only (s : State) (unit q t : Nat) : s.OnlyMem (s.enqueue unit q t).1 := rfl

/-- The wait at a bank changes the queues alone. -/
theorem State.bankWait_only (s : State) (la t : Nat) : s.OnlyMem (s.bankWait la t).1 := by
  have h (us : List Nat) (q : Nat) (a : State × Nat) (ha : s.OnlyMem a.1) :
      s.OnlyMem (us.foldl (fun a u => ((a.1.enqueue u q t).1, max a.2 (a.1.enqueue u q t).2)) a).1 := by
    induction us generalizing a with
    | nil => exact ha
    | cons u us ih => exact ih _ (ha.trans (State.enqueue_only _ _ _ _))
  exact h _ _ (s, 0) (.refl s)

theorem State.writeBack_only (s : State) (x : L2Line) : s.OnlyMem (s.writeBack x) := by
  unfold State.writeBack
  split
  · exact .refl s
  · exact ((s.storeLine_only _ _).trans (State.bankWait_only _ _ _)).trans rfl

theorem State.evict_only (s : State) (x : L2Line) : s.OnlyMem (s.evict x) := (s.writeBack_only x).trans rfl

theorem State.l2Insert_only (s : State) (e : L2Line) : s.OnlyMem (s.l2Insert e) := by
  simp only [State.l2Insert]
  generalize hu : (if s.filledSlices.contains e.slice then s else { s with filledSlices := e.slice :: s.filledSlices }) = u
  have h : s.OnlyMem u := by
    rw [← hu]
    split <;> rfl
  split
  · exact h.trans rfl
  · split
    · exact (h.trans (u.evict_only _)).trans rfl
    · exact h.trans (u.writeBack_only e)

theorem State.l2Touch_only (s : State) (x : L2Line) : s.OnlyMem (s.l2Touch x) := rfl
theorem State.revoke_only (s : State) (sl la : Nat) : s.OnlyMem (s.revoke sl la) := rfl

/-- A line brought in changes memory alone. -/
theorem State.fetchHome_only {s t : State} {sl la n : Nat} {slm : Bool} {x : L2Line} (h : s.fetchHome sl la slm = some (t, x, n)) :
    s.OnlyMem t := by
  unfold State.fetchHome at h
  split at h
  · split at h <;> (cases h; rfl)
  · split at h
    · cases h
    · dsimp only at h
      split at h
      · split at h
        · cases h
          rename_i hs _
          subst hs
          exact s.l2Insert_only _
        · cases h
      · cases h
        exact (s.bankWait_only la s.now).trans (State.l2Insert_only _ _)

theorem State.putHome_only (s : State) (sl : Nat) (x : L2Line) (d : BitVec 1024) (whole : Bool) : s.OnlyMem (s.putHome sl x d whole) := by
  simp only [State.putHome]
  split
  · rfl
  · exact (show s.OnlyMem { s.revoke sl x.addr with published := (s.revoke sl x.addr).published.erase x.addr } from rfl).trans
      (State.writeBack_only _ _)

/-- Bytes written at the home of a line change memory alone. -/
theorem State.pokeLine_only (s : State) (pa : Nat) (bs : List Byte) : s.OnlyMem (s.pokeLine pa bs) := by
  unfold State.pokeLine
  split
  · rfl
  · rfl
  · split
    · rename_i h
      exact (State.fetchHome_only h).trans (State.putHome_only _ _ _ _ _)
    · rfl
  · rfl

theorem State.poke_only (s : State) (n pa : Nat) (bs : List Byte) : s.OnlyMem (s.poke n pa bs) := by
  induction n generalizing s pa bs with
  | zero => exact .refl s
  | succ n ih =>
    simp only [State.poke]
    split
    · exact .refl s
    · exact (s.pokeLine_only _ _).trans (ih _ _ _)

/-- Bytes written from an address on change memory alone. -/
theorem State.pokeBytes_only (s : State) (pa : Nat) (bs : List Byte) : s.OnlyMem (s.pokeBytes pa bs) := s.poke_only _ _ _
theorem State.pokeNum_only (s : State) (pa n v : Nat) : s.OnlyMem (s.pokeNum pa n v) := s.poke_only _ _ _

/-! ## Canonical form -/

/-- The cells here and far away are in canonical form. -/
def State.MemWf (s : State) : Prop := Memory.wf zeroByte s.dram = true ∧ Memory.wf farByte s.remote = true

theorem State.setDram_wf {s : State} (h : s.MemWf) (a : Nat) (bs : List Byte) : (s.setDram a bs).MemWf := ⟨Memory.put_wf h.1 a bs, h.2⟩
theorem State.storeBlock_wf {s : State} (h : s.MemWf) (b : Nat) (ws : List Word) : (s.storeBlock b ws).MemWf := State.setDram_wf h b _
theorem State.storeLine_wf {s : State} (h : s.MemWf) (la : Nat) (d : BitVec 1024) : (s.storeLine la d).MemWf := by
  unfold State.storeLine
  split
  · exact State.setDram_wf h _ _
  · exact State.storeBlock_wf h _ _

/-- The wait at a bank changes no cell. -/
theorem State.bankWait_cells (s : State) (la t : Nat) : (s.bankWait la t).1.dram = s.dram ∧ (s.bankWait la t).1.remote = s.remote := by
  have h (us : List Nat) (q : Nat) (a : State × Nat) (ha : a.1.dram = s.dram ∧ a.1.remote = s.remote) :
      (us.foldl (fun a u => ((a.1.enqueue u q t).1, max a.2 (a.1.enqueue u q t).2)) a).1.dram = s.dram ∧
      (us.foldl (fun a u => ((a.1.enqueue u q t).1, max a.2 (a.1.enqueue u q t).2)) a).1.remote = s.remote := by
    induction us generalizing a with
    | nil => exact ha
    | cons u us ih => exact ih _ ha
  exact h _ _ (s, 0) ⟨rfl, rfl⟩
theorem State.bankWait_wf {s : State} (h : s.MemWf) (la t : Nat) : (s.bankWait la t).1.MemWf := by
  unfold State.MemWf
  rw [(s.bankWait_cells la t).1, (s.bankWait_cells la t).2]
  exact h

theorem State.writeBack_wf {s : State} (h : s.MemWf) (x : L2Line) : (s.writeBack x).MemWf := by
  unfold State.writeBack
  split
  · exact h
  · exact State.bankWait_wf (State.storeLine_wf h _ _) _ _

theorem State.evict_wf {s : State} (h : s.MemWf) (x : L2Line) : (s.evict x).MemWf := State.writeBack_wf h x

theorem State.l2Insert_wf {s : State} (h : s.MemWf) (e : L2Line) : (s.l2Insert e).MemWf := by
  simp only [State.l2Insert]
  generalize hu : (if s.filledSlices.contains e.slice then s else { s with filledSlices := e.slice :: s.filledSlices }) = u
  have h' : u.MemWf := by
    rw [← hu]
    split <;> exact h
  split
  · exact h'
  · split
    · exact State.evict_wf h' _
    · exact State.writeBack_wf h' _

theorem State.fetchHome_wf {s t : State} {sl la n : Nat} {slm : Bool} {x : L2Line} (h : s.MemWf) (hf : s.fetchHome sl la slm = some (t, x, n)) :
    t.MemWf := by
  unfold State.fetchHome at hf
  split at hf
  · split at hf <;> (cases hf; exact h)
  · split at hf
    · cases hf
    · dsimp only at hf
      split at hf
      · split at hf
        · cases hf
          rename_i hs _
          subst hs
          exact State.l2Insert_wf h _
        · cases hf
      · cases hf
        exact State.l2Insert_wf (State.bankWait_wf h _ _) _

theorem State.putHome_wf {s : State} (h : s.MemWf) (sl : Nat) (x : L2Line) (d : BitVec 1024) (whole : Bool) :
    (s.putHome sl x d whole).MemWf := by
  simp only [State.putHome]
  split
  · exact h
  · exact State.writeBack_wf (s := { s.revoke sl x.addr with published := (s.revoke sl x.addr).published.erase x.addr }) h _

theorem State.pokeLine_wf {s : State} (h : s.MemWf) (pa : Nat) (bs : List Byte) : (s.pokeLine pa bs).MemWf := by
  unfold State.pokeLine
  split
  · exact ⟨h.1, Memory.put_wf h.2 _ _⟩
  · exact ⟨h.1, Memory.put_wf h.2 _ _⟩
  · split
    · rename_i hf
      exact State.putHome_wf (State.fetchHome_wf h hf) _ _ _ _
    · exact h
  · exact h

theorem State.poke_wf {s : State} (h : s.MemWf) (n pa : Nat) (bs : List Byte) : (s.poke n pa bs).MemWf := by
  induction n generalizing s pa bs with
  | zero => exact h
  | succ n ih =>
    simp only [State.poke]
    split
    · exact h
    · exact ih (State.pokeLine_wf h _ _) _ _

/-- Memory is in canonical form after bytes have been written. -/
theorem State.pokeBytes_wf {s : State} (h : s.MemWf) (pa : Nat) (bs : List Byte) : (s.pokeBytes pa bs).MemWf := State.poke_wf h _ _ _
theorem State.pokeNum_wf {s : State} (h : s.MemWf) (pa n v : Nat) : (s.pokeNum pa n v).MemWf := State.poke_wf h _ _ _

/-- A block encoded again, and the blocks of a range made raw, keep the form. -/
theorem State.recode_wf {s : State} (h : s.MemWf) (la : Nat) : (s.recode la).MemWf := State.storeBlock_wf h _ _
theorem State.rawBlocks_wf {s : State} (h : s.MemWf) (lo hi : Nat) : (s.rawBlocks lo hi).MemWf := by
  have fold (l : List (Nat × Nat)) : ∀ {s : State}, s.MemWf → (l.foldl (fun s p =>
      { s.setDram p.1 ((s.dramBlock p.1).flatMap fun w => toBytes 4 w.toNat) with codes := s.codes.filter fun q => q.1 != p.1 }) s).MemWf := by
    induction l with
    | nil => exact fun h => h
    | cons p l ih => exact fun h => ih ⟨Memory.put_wf h.1 _ _, h.2⟩
  exact fold _ h

/-- A byte that the host writes. -/
theorem State.hostByte_wf {s : State} (h : s.MemWf) (pa : Nat) (b : Byte) : (s.hostByte pa b).MemWf := by
  unfold State.hostByte
  split
  · exact ⟨h.1, Memory.put_wf h.2 _ _⟩
  · split
    · exact State.pokeBytes_wf h _ _
    · exact h

/-- Scratch after bytes have been written into it. -/
theorem Team.write_wf {k : Team} (h : Memory.wf zeroByte k.scratch = true) (a : Nat) (bs : List Byte) :
    Memory.wf zeroByte (k.write a bs).scratch = true := Memory.put_wf h a bs

end Sys2Proof.Machine
end

