-- ==== Sys2Proof/Laws/PerInstr.lean ====
section
/-!
SUPPORT. Statements made of every instruction by one lemma per constructor.
-/
namespace Sys2Proof.Laws.Opcodes

/-- The major of an instruction's shape and its operand fields name that instruction and no other (07 R177, R179). -/
def Statement (i : Instr) : Prop :=
  ∀ (sh : Shape) (o : Ops), shapeOf i = some sh → opsOf i = some o → sh.okOps o = true → opOf sh.maj o = some i

theorem okOps_checks {sh : Shape} {o : Ops} (h : sh.okOps o = true) : sh.sub = true ∧ sh.ok = true := by
  simp only [Shape.okOps, Bool.and_eq_true] at h
  exact ⟨h.1.1.2, h.1.2⟩

theorem nop (o : Ops) : Statement (.nop o) := by
  rintro sh o h1 h2 -
  cases h1
  cases h2
  rfl

theorem hintNop (h : Hint) : Statement (.hintNop h) := by
  rintro sh o h1 - -
  cases h1

theorem bra (o : Ops) : Statement (.bra o) := by
  rintro sh o h1 h2 -
  cases h1
  cases h2
  rfl

theorem brx (o : Ops) : Statement (.brx o) := by
  rintro sh o h1 h2 -
  cases h1
  cases h2
  rfl

theorem brall (o : Ops) : Statement (.brall o) := by
  rintro sh o h1 h2 -
  cases h1
  cases h2
  rfl

theorem brany (o : Ops) : Statement (.brany o) := by
  rintro sh o h1 h2 -
  cases h1
  cases h2
  rfl

theorem call (o : Ops) : Statement (.call o) := by
  rintro sh o h1 h2 -
  cases h1
  cases h2
  rfl

theorem callx (o : Ops) : Statement (.callx o) := by
  rintro sh o h1 h2 -
  cases h1
  cases h2
  rfl

theorem ret (o : Ops) : Statement (.ret o) := by
  rintro sh o h1 h2 -
  cases h1
  cases h2
  rfl

theorem meet (o : Ops) : Statement (.meet o) := by
  rintro sh o h1 h2 -
  cases h1
  cases h2
  rfl

theorem meetx (o : Ops) : Statement (.meetx o) := by
  rintro sh o h1 h2 -
  cases h1
  cases h2
  rfl

theorem exitT (o : Ops) : Statement (.exitT o) := by
  rintro sh o h1 h2 -
  cases h1
  cases h2
  rfl

theorem yield (o : Ops) : Statement (.yield o) := by
  rintro sh o h1 h2 -
  cases h1
  cases h2
  rfl

theorem loop (o : Ops) : Statement (.loop o) := by
  rintro sh o h1 h2 -
  cases h1
  cases h2
  rfl

theorem jtab (o : Ops) : Statement (.jtab o) := by
  rintro sh o h1 h2 -
  cases h1
  cases h2
  rfl

theorem sleep (o : Ops) : Statement (.sleep o) := by
  rintro sh o h1 h2 -
  cases h1
  cases h2
  rfl

theorem demote (o : Ops) : Statement (.demote o) := by
  rintro sh o h1 h2 -
  cases h1
  cases h2
  rfl

theorem pset (o : Ops) : Statement (.pset o) := by
  rintro sh o h1 h2 -
  cases h1
  cases h2
  rfl

theorem pand (o : Ops) : Statement (.pand o) := by
  rintro sh o h1 h2 -
  cases h1
  cases h2
  rfl

theorem por (o : Ops) : Statement (.por o) := by
  rintro sh o h1 h2 -
  cases h1
  cases h2
  rfl

theorem pxor (o : Ops) : Statement (.pxor o) := by
  rintro sh o h1 h2 -
  cases h1
  cases h2
  rfl

theorem pnot (o : Ops) : Statement (.pnot o) := by
  rintro sh o h1 h2 -
  cases h1
  cases h2
  rfl

theorem pld (o : Ops) : Statement (.pld o) := by
  rintro sh o h1 h2 -
  cases h1
  cases h2
  rfl

theorem pst (o : Ops) : Statement (.pst o) := by
  rintro sh o h1 h2 -
  cases h1
  cases h2
  rfl

theorem psel (o : Ops) : Statement (.psel o) := by
  rintro sh o h1 h2 -
  cases h1
  cases h2
  rfl

theorem perm (o : Ops) : Statement (.perm o) := by
  rintro sh o h1 h2 -
  cases h1
  cases h2
  rfl

theorem ldpat (o : Ops) : Statement (.ldpat o) := by
  rintro sh o h1 h2 -
  cases h1
  cases h2
  rfl

theorem reduce (o : Ops) : Statement (.reduce o) := by
  rintro sh o h1 h2 -
  cases h1
  cases h2
  rfl

theorem scan (o : Ops) : Statement (.scan o) := by
  rintro sh o h1 h2 -
  cases h1
  cases h2
  rfl

theorem scanx (o : Ops) : Statement (.scanx o) := by
  rintro sh o h1 h2 -
  cases h1
  cases h2
  rfl

theorem agreeSome (o : Ops) : Statement (.agreeSome o) := by
  rintro sh o h1 h2 h3
  cases h1
  cases h2
  have h : o.subN = 0 := by simpa only [shLane, beq_iff_eq] using (okOps_checks h3).1
  exact if_pos h

theorem agreeEvery (o : Ops) : Statement (.agreeEvery o) := by
  rintro sh o h1 h2 h3
  cases h1
  cases h2
  have h : o.subN = 1 := by simpa only [shLane, beq_iff_eq] using (okOps_checks h3).1
  exact (if_neg (by rw [h]; decide)).trans (if_pos h)

theorem agreeMask (o : Ops) : Statement (.agreeMask o) := by
  rintro sh o h1 h2 h3
  cases h1
  cases h2
  have h : o.subN = 2 := by simpa only [shLane, beq_iff_eq] using (okOps_checks h3).1
  exact (if_neg (by rw [h]; decide)).trans (if_neg (by rw [h]; decide))

theorem matchL (o : Ops) : Statement (.matchL o) := by
  rintro sh o h1 h2 -
  cases h1
  cases h2
  rfl

theorem shfl (o : Ops) : Statement (.shfl o) := by
  rintro sh o h1 h2 -
  cases h1
  cases h2
  rfl

theorem bcast (o : Ops) : Statement (.bcast o) := by
  rintro sh o h1 h2 -
  cases h1
  cases h2
  rfl

theorem firstL (o : Ops) : Statement (.firstL o) := by
  rintro sh o h1 h2 -
  cases h1
  cases h2
  rfl

theorem popl (o : Ops) : Statement (.popl o) := by
  rintro sh o h1 h2 -
  cases h1
  cases h2
  rfl

theorem rdln (o : Ops) : Statement (.rdln o) := by
  rintro sh o h1 h2 -
  cases h1
  cases h2
  rfl

theorem wrln (o : Ops) : Statement (.wrln o) := by
  rintro sh o h1 h2 -
  cases h1
  cases h2
  rfl

theorem lmov (o : Ops) : Statement (.lmov o) := by
  rintro sh o h1 h2 -
  cases h1
  cases h2
  rfl

theorem qfetch (o : Ops) : Statement (.qfetch o) := by
  rintro sh o h1 h2 -
  cases h1
  cases h2
  rfl

theorem iadd (o : Ops) : Statement (.iadd o) := by
  rintro sh o h1 h2 -
  cases h1
  cases h2
  rfl

theorem isub (o : Ops) : Statement (.isub o) := by
  rintro sh o h1 h2 -
  cases h1
  cases h2
  rfl

theorem ineg (o : Ops) : Statement (.ineg o) := by
  rintro sh o h1 h2 -
  cases h1
  cases h2
  rfl

theorem iabs (o : Ops) : Statement (.iabs o) := by
  rintro sh o h1 h2 -
  cases h1
  cases h2
  rfl

theorem imul (o : Ops) : Statement (.imul o) := by
  rintro sh o h1 h2 -
  cases h1
  cases h2
  rfl

theorem imulh (o : Ops) : Statement (.imulh o) := by
  rintro sh o h1 h2 -
  cases h1
  cases h2
  rfl

theorem imad (o : Ops) : Statement (.imad o) := by
  rintro sh o h1 h2 -
  cases h1
  cases h2
  rfl

theorem iadds (o : Ops) : Statement (.iadds o) := by
  rintro sh o h1 h2 -
  cases h1
  cases h2
  rfl

theorem isubs (o : Ops) : Statement (.isubs o) := by
  rintro sh o h1 h2 -
  cases h1
  cases h2
  rfl

theorem imin (o : Ops) : Statement (.imin o) := by
  rintro sh o h1 h2 -
  cases h1
  cases h2
  rfl

theorem imax (o : Ops) : Statement (.imax o) := by
  rintro sh o h1 h2 -
  cases h1
  cases h2
  rfl

theorem andB (o : Ops) : Statement (.andB o) := by
  rintro sh o h1 h2 -
  cases h1
  cases h2
  rfl

theorem orB (o : Ops) : Statement (.orB o) := by
  rintro sh o h1 h2 -
  cases h1
  cases h2
  rfl

theorem xorB (o : Ops) : Statement (.xorB o) := by
  rintro sh o h1 h2 -
  cases h1
  cases h2
  rfl

theorem notB (o : Ops) : Statement (.notB o) := by
  rintro sh o h1 h2 -
  cases h1
  cases h2
  rfl

theorem shl (o : Ops) : Statement (.shl o) := by
  rintro sh o h1 h2 -
  cases h1
  cases h2
  rfl

theorem shr (o : Ops) : Statement (.shr o) := by
  rintro sh o h1 h2 -
  cases h1
  cases h2
  rfl

theorem sar (o : Ops) : Statement (.sar o) := by
  rintro sh o h1 h2 -
  cases h1
  cases h2
  rfl

theorem rol (o : Ops) : Statement (.rol o) := by
  rintro sh o h1 h2 -
  cases h1
  cases h2
  rfl

theorem ror (o : Ops) : Statement (.ror o) := by
  rintro sh o h1 h2 -
  cases h1
  cases h2
  rfl

theorem bfx (o : Ops) : Statement (.bfx o) := by
  rintro sh o h1 h2 -
  cases h1
  cases h2
  rfl

theorem bfi (o : Ops) : Statement (.bfi o) := by
  rintro sh o h1 h2 -
  cases h1
  cases h2
  rfl

theorem popc (o : Ops) : Statement (.popc o) := by
  rintro sh o h1 h2 -
  cases h1
  cases h2
  rfl

theorem clz (o : Ops) : Statement (.clz o) := by
  rintro sh o h1 h2 -
  cases h1
  cases h2
  rfl

theorem brev (o : Ops) : Statement (.brev o) := by
  rintro sh o h1 h2 -
  cases h1
  cases h2
  rfl

theorem icmp (o : Ops) : Statement (.icmp o) := by
  rintro sh o h1 h2 -
  cases h1
  cases h2
  rfl

theorem isel (o : Ops) : Statement (.isel o) := by
  rintro sh o h1 h2 -
  cases h1
  cases h2
  rfl

theorem iadd64 (o : Ops) : Statement (.iadd64 o) := by
  rintro sh o h1 h2 -
  cases h1
  cases h2
  rfl

theorem imul64 (o : Ops) : Statement (.imul64 o) := by
  rintro sh o h1 h2 -
  cases h1
  cases h2
  rfl

theorem lea (o : Ops) : Statement (.lea o) := by
  rintro sh o h1 h2 -
  cases h1
  cases h2
  rfl

theorem mov (o : Ops) : Statement (.mov o) := by
  rintro sh o h1 h2 -
  cases h1
  cases h2
  rfl

theorem movi (o : Ops) : Statement (.movi o) := by
  rintro sh o h1 h2 -
  cases h1
  cases h2
  rfl

theorem fadd (o : Ops) : Statement (.fadd o) := by
  rintro sh o h1 h2 -
  cases h1
  cases h2
  rfl

theorem fsub (o : Ops) : Statement (.fsub o) := by
  rintro sh o h1 h2 -
  cases h1
  cases h2
  rfl

theorem fmul (o : Ops) : Statement (.fmul o) := by
  rintro sh o h1 h2 -
  cases h1
  cases h2
  rfl

theorem ffma (o : Ops) : Statement (.ffma o) := by
  rintro sh o h1 h2 -
  cases h1
  cases h2
  rfl

theorem fmin (o : Ops) : Statement (.fmin o) := by
  rintro sh o h1 h2 -
  cases h1
  cases h2
  rfl

theorem fmax (o : Ops) : Statement (.fmax o) := by
  rintro sh o h1 h2 -
  cases h1
  cases h2
  rfl

theorem fabs (o : Ops) : Statement (.fabs o) := by
  rintro sh o h1 h2 -
  cases h1
  cases h2
  rfl

theorem fneg (o : Ops) : Statement (.fneg o) := by
  rintro sh o h1 h2 -
  cases h1
  cases h2
  rfl

theorem fcmp (o : Ops) : Statement (.fcmp o) := by
  rintro sh o h1 h2 -
  cases h1
  cases h2
  rfl

theorem fsel (o : Ops) : Statement (.fsel o) := by
  rintro sh o h1 h2 -
  cases h1
  cases h2
  rfl

theorem fcls (o : Ops) : Statement (.fcls o) := by
  rintro sh o h1 h2 -
  cases h1
  cases h2
  rfl

theorem frcp (o : Ops) : Statement (.frcp o) := by
  rintro sh o h1 h2 -
  cases h1
  cases h2
  rfl

theorem frsq (o : Ops) : Statement (.frsq o) := by
  rintro sh o h1 h2 -
  cases h1
  cases h2
  rfl

theorem fsqrt (o : Ops) : Statement (.fsqrt o) := by
  rintro sh o h1 h2 -
  cases h1
  cases h2
  rfl

theorem fdiv (o : Ops) : Statement (.fdiv o) := by
  rintro sh o h1 h2 -
  cases h1
  cases h2
  rfl

theorem fexp2 (o : Ops) : Statement (.fexp2 o) := by
  rintro sh o h1 h2 -
  cases h1
  cases h2
  rfl

theorem flog2 (o : Ops) : Statement (.flog2 o) := by
  rintro sh o h1 h2 -
  cases h1
  cases h2
  rfl

theorem fsin (o : Ops) : Statement (.fsin o) := by
  rintro sh o h1 h2 -
  cases h1
  cases h2
  rfl

theorem fcos (o : Ops) : Statement (.fcos o) := by
  rintro sh o h1 h2 -
  cases h1
  cases h2
  rfl

theorem ftanh (o : Ops) : Statement (.ftanh o) := by
  rintro sh o h1 h2 -
  cases h1
  cases h2
  rfl

theorem dadd (o : Ops) : Statement (.dadd o) := by
  rintro sh o h1 h2 -
  cases h1
  cases h2
  rfl

theorem dsub (o : Ops) : Statement (.dsub o) := by
  rintro sh o h1 h2 -
  cases h1
  cases h2
  rfl

theorem dmul (o : Ops) : Statement (.dmul o) := by
  rintro sh o h1 h2 -
  cases h1
  cases h2
  rfl

theorem dfma (o : Ops) : Statement (.dfma o) := by
  rintro sh o h1 h2 -
  cases h1
  cases h2
  rfl

theorem dmin (o : Ops) : Statement (.dmin o) := by
  rintro sh o h1 h2 -
  cases h1
  cases h2
  rfl

theorem dmax (o : Ops) : Statement (.dmax o) := by
  rintro sh o h1 h2 -
  cases h1
  cases h2
  rfl

theorem dcmp (o : Ops) : Statement (.dcmp o) := by
  rintro sh o h1 h2 -
  cases h1
  cases h2
  rfl

theorem ddiv (o : Ops) : Statement (.ddiv o) := by
  rintro sh o h1 h2 -
  cases h1
  cases h2
  rfl

theorem dsqrt (o : Ops) : Statement (.dsqrt o) := by
  rintro sh o h1 h2 -
  cases h1
  cases h2
  rfl

theorem hadd2 (o : Ops) : Statement (.hadd2 o) := by
  rintro sh o h1 h2 -
  cases h1
  cases h2
  rfl

theorem hmul2 (o : Ops) : Statement (.hmul2 o) := by
  rintro sh o h1 h2 -
  cases h1
  cases h2
  rfl

theorem hfma2 (o : Ops) : Statement (.hfma2 o) := by
  rintro sh o h1 h2 -
  cases h1
  cases h2
  rfl

theorem hmin2 (o : Ops) : Statement (.hmin2 o) := by
  rintro sh o h1 h2 -
  cases h1
  cases h2
  rfl

theorem hmax2 (o : Ops) : Statement (.hmax2 o) := by
  rintro sh o h1 h2 -
  cases h1
  cases h2
  rfl

theorem hcmp2 (o : Ops) : Statement (.hcmp2 o) := by
  rintro sh o h1 h2 -
  cases h1
  cases h2
  rfl

theorem fdot2 (o : Ops) : Statement (.fdot2 o) := by
  rintro sh o h1 h2 -
  cases h1
  cases h2
  rfl

theorem f2f (o : Ops) : Statement (.f2f o) := by
  rintro sh o h1 h2 -
  cases h1
  cases h2
  rfl

theorem f2i (o : Ops) : Statement (.f2i o) := by
  rintro sh o h1 h2 -
  cases h1
  cases h2
  rfl

theorem i2f (o : Ops) : Statement (.i2f o) := by
  rintro sh o h1 h2 -
  cases h1
  cases h2
  rfl

theorem i2i (o : Ops) : Statement (.i2i o) := by
  rintro sh o h1 h2 -
  cases h1
  cases h2
  rfl

theorem ln2f (o : Ops) : Statement (.ln2f o) := by
  rintro sh o h1 h2 -
  cases h1
  cases h2
  rfl

theorem f2ln (o : Ops) : Statement (.f2ln o) := by
  rintro sh o h1 h2 -
  cases h1
  cases h2
  rfl

theorem pack (o : Ops) : Statement (.pack o) := by
  rintro sh o h1 h2 -
  cases h1
  cases h2
  rfl

theorem unpk (o : Ops) : Statement (.unpk o) := by
  rintro sh o h1 h2 -
  cases h1
  cases h2
  rfl

theorem qblk (o : Ops) : Statement (.qblk o) := by
  rintro sh o h1 h2 -
  cases h1
  cases h2
  rfl

theorem dqbl (o : Ops) : Statement (.dqbl o) := by
  rintro sh o h1 h2 -
  cases h1
  cases h2
  rfl

theorem qsrd (o : Ops) : Statement (.qsrd o) := by
  rintro sh o h1 h2 -
  cases h1
  cases h2
  rfl

theorem qsclr (o : Ops) : Statement (.qsclr o) := by
  rintro sh o h1 h2 -
  cases h1
  cases h2
  rfl

theorem gld (o : Ops) : Statement (.gld o) := by
  rintro sh o h1 h2 -
  cases h1
  cases h2
  rfl

theorem gst (o : Ops) : Statement (.gst o) := by
  rintro sh o h1 h2 -
  cases h1
  cases h2
  rfl

theorem spld (o : Ops) : Statement (.spld o) := by
  rintro sh o h1 h2 -
  cases h1
  cases h2
  rfl

theorem spst (o : Ops) : Statement (.spst o) := by
  rintro sh o h1 h2 -
  cases h1
  cases h2
  rfl

theorem slld (o : Ops) : Statement (.slld o) := by
  rintro sh o h1 h2 -
  cases h1
  cases h2
  rfl

theorem slst (o : Ops) : Statement (.slst o) := by
  rintro sh o h1 h2 -
  cases h1
  cases h2
  rfl

theorem skld (o : Ops) : Statement (.skld o) := by
  rintro sh o h1 h2 -
  cases h1
  cases h2
  rfl

theorem skst (o : Ops) : Statement (.skst o) := by
  rintro sh o h1 h2 -
  cases h1
  cases h2
  rfl

theorem gstn (o : Ops) : Statement (.gstn o) := by
  rintro sh o h1 h2 -
  cases h1
  cases h2
  rfl

theorem cld (o : Ops) : Statement (.cld o) := by
  rintro sh o h1 h2 -
  cases h1
  cases h2
  rfl

theorem prfgL1 (o : Ops) : Statement (.prfgL1 o) := by
  rintro sh o h1 h2 h3
  cases h1
  cases h2
  have h : o.subN = 0 := by
    have h := (okOps_checks h3).2
    simp only [shPrfg, shRaw, Bool.and_eq_true, beq_iff_eq] at h
    exact h.1.1.2
  exact if_pos h

theorem prfgL2 (o : Ops) : Statement (.prfgL2 o) := by
  rintro sh o h1 h2 h3
  cases h1
  cases h2
  have h : o.subN = 1 := by
    have h := (okOps_checks h3).2
    simp only [shPrfg, shRaw, Bool.and_eq_true, beq_iff_eq] at h
    exact h.1.1.2
  exact if_neg (by rw [h]; decide)

theorem cctlIvl (o : Ops) : Statement (.cctlIvl o) := by
  rintro sh o h1 h2 h3
  cases h1
  cases h2
  have h : o.subN = 0 := by
    have h := (okOps_checks h3).2
    simp only [shRaw, Bool.and_eq_true, beq_iff_eq] at h
    exact h.1.1.2
  exact if_pos h

theorem cctlIval (o : Ops) : Statement (.cctlIval o) := by
  rintro sh o h1 h2 h3
  cases h1
  cases h2
  have h : o.subN = 1 := by
    have h := (okOps_checks h3).2
    simp only [shRaw, Bool.and_eq_true, beq_iff_eq] at h
    exact h.1.1.1.2
  exact if_neg (by rw [h]; decide)

theorem tld (o : Ops) : Statement (.tld o) := by
  rintro sh o h1 h2 -
  cases h1
  cases h2
  rfl

theorem tst (o : Ops) : Statement (.tst o) := by
  rintro sh o h1 h2 -
  cases h1
  cases h2
  rfl

theorem qld (o : Ops) : Statement (.qld o) := by
  rintro sh o h1 h2 -
  cases h1
  cases h2
  rfl

theorem qst (o : Ops) : Statement (.qst o) := by
  rintro sh o h1 h2 -
  cases h1
  cases h2
  rfl

theorem copy (o : Ops) : Statement (.copy o) := by
  rintro sh o h1 h2 -
  cases h1
  cases h2
  rfl

theorem cprg (o : Ops) : Statement (.cprg o) := by
  rintro sh o h1 h2 -
  cases h1
  cases h2
  rfl

theorem hwaitFull (o : Ops) : Statement (.hwaitFull o) := by
  rintro sh o h1 h2 h3
  cases h1
  cases h2
  have h : o.subN = 0 := by
    have h := (okOps_checks h3).2
    simp only [sh64, shRaw, Bool.and_eq_true, beq_iff_eq] at h
    exact h.2
  exact if_pos h

theorem hwaitFree (o : Ops) : Statement (.hwaitFree o) := by
  rintro sh o h1 h2 h3
  cases h1
  cases h2
  have h : o.subN = 1 := by
    have h := (okOps_checks h3).2
    simp only [sh64, shRaw, Bool.and_eq_true, beq_iff_eq] at h
    exact h.2
  exact if_neg (by rw [h]; decide)

theorem hwp (o : Ops) : Statement (.hwp o) := by
  rintro sh o h1 h2 -
  cases h1
  cases h2
  rfl

theorem hrelClaim (o : Ops) : Statement (.hrelClaim o) := by
  rintro sh o h1 h2 h3
  cases h1
  cases h2
  have h : o.subN = 0 := by
    have h := (okOps_checks h3).2
    simp only [sh64, shRaw, Bool.and_eq_true, beq_iff_eq] at h
    exact h.2
  exact if_pos h

theorem hrelFree (o : Ops) : Statement (.hrelFree o) := by
  rintro sh o h1 h2 h3
  cases h1
  cases h2
  have h : o.subN = 1 := by
    have h := (okOps_checks h3).2
    simp only [sh64, shRaw, Bool.and_eq_true, beq_iff_eq] at h
    exact h.2
  exact if_neg (by rw [h]; decide)

theorem send (o : Ops) : Statement (.send o) := by
  rintro sh o h1 h2 -
  cases h1
  cases h2
  rfl

theorem aadd (o : Ops) : Statement (.aadd o) := by
  rintro sh o h1 h2 -
  cases h1
  cases h2
  rfl

theorem amin (o : Ops) : Statement (.amin o) := by
  rintro sh o h1 h2 -
  cases h1
  cases h2
  rfl

theorem amax (o : Ops) : Statement (.amax o) := by
  rintro sh o h1 h2 -
  cases h1
  cases h2
  rfl

theorem aand (o : Ops) : Statement (.aand o) := by
  rintro sh o h1 h2 -
  cases h1
  cases h2
  rfl

theorem aor (o : Ops) : Statement (.aor o) := by
  rintro sh o h1 h2 -
  cases h1
  cases h2
  rfl

theorem axor (o : Ops) : Statement (.axor o) := by
  rintro sh o h1 h2 -
  cases h1
  cases h2
  rfl

theorem axch (o : Ops) : Statement (.axch o) := by
  rintro sh o h1 h2 -
  cases h1
  cases h2
  rfl

theorem acas (o : Ops) : Statement (.acas o) := by
  rintro sh o h1 h2 -
  cases h1
  cases h2
  rfl

theorem rdadd (o : Ops) : Statement (.rdadd o) := by
  rintro sh o h1 h2 -
  cases h1
  cases h2
  rfl

theorem rdmin (o : Ops) : Statement (.rdmin o) := by
  rintro sh o h1 h2 -
  cases h1
  cases h2
  rfl

theorem rdmax (o : Ops) : Statement (.rdmax o) := by
  rintro sh o h1 h2 -
  cases h1
  cases h2
  rfl

theorem rdand (o : Ops) : Statement (.rdand o) := by
  rintro sh o h1 h2 -
  cases h1
  cases h2
  rfl

theorem rdor (o : Ops) : Statement (.rdor o) := by
  rintro sh o h1 h2 -
  cases h1
  cases h2
  rfl

theorem rdxor (o : Ops) : Statement (.rdxor o) := by
  rintro sh o h1 h2 -
  cases h1
  cases h2
  rfl

theorem bop (o : Ops) : Statement (.bop o) := by
  rintro sh o h1 h2 -
  cases h1
  cases h2
  rfl

theorem bopr (o : Ops) : Statement (.bopr o) := by
  rintro sh o h1 h2 -
  cases h1
  cases h2
  rfl

theorem fence (o : Ops) : Statement (.fence o) := by
  rintro sh o h1 h2 -
  cases h1
  cases h2
  rfl

theorem acq (o : Ops) : Statement (.acq o) := by
  rintro sh o h1 h2 -
  cases h1
  cases h2
  rfl

theorem rel (o : Ops) : Statement (.rel o) := by
  rintro sh o h1 h2 -
  cases h1
  cases h2
  rfl

theorem acqSteal (o : Ops) : Statement (.acqSteal o) := by
  rintro sh o h1 h2 -
  cases h1
  cases h2
  rfl

theorem bar (o : Ops) : Statement (.bar o) := by
  rintro sh o h1 h2 -
  cases h1
  cases h2
  rfl

theorem bararv (o : Ops) : Statement (.bararv o) := by
  rintro sh o h1 h2 -
  cases h1
  cases h2
  rfl

theorem barwt (o : Ops) : Statement (.barwt o) := by
  rintro sh o h1 h2 -
  cases h1
  cases h2
  rfl

theorem wait (o : Ops) : Statement (.wait o) := by
  rintro sh o h1 h2 -
  cases h1
  cases h2
  rfl

theorem publ (o : Ops) : Statement (.publ o) := by
  rintro sh o h1 h2 -
  cases h1
  cases h2
  rfl

theorem cntrd (o : Ops) : Statement (.cntrd o) := by
  rintro sh o h1 h2 -
  cases h1
  cases h2
  rfl

theorem spawnDirect (o : Ops) : Statement (.spawnDirect o) := by
  rintro sh o h1 h2 h3
  cases h1
  cases h2
  have h : o.subN = 0 := by
    have h := (okOps_checks h3).2
    simp only [shSpawn, shRaw, Bool.and_eq_true, beq_iff_eq] at h
    exact h.1.1.1.1
  exact if_pos h

theorem spawnIndirect (o : Ops) : Statement (.spawnIndirect o) := by
  rintro sh o h1 h2 h3
  cases h1
  cases h2
  have h : o.subN = 1 := by
    have h := (okOps_checks h3).2
    simp only [shSpawn, shRaw, Bool.and_eq_true, beq_iff_eq] at h
    exact h.1.1.1.1
  exact if_neg (by rw [h]; decide)

theorem bflush (o : Ops) : Statement (.bflush o) := by
  rintro sh o h1 h2 -
  cases h1
  cases h2
  rfl

theorem bstat (o : Ops) : Statement (.bstat o) := by
  rintro sh o h1 h2 -
  cases h1
  cases h2
  rfl

theorem launch (o : Ops) : Statement (.launch o) := by
  rintro sh o h1 h2 -
  cases h1
  cases h2
  rfl

theorem lwait (o : Ops) : Statement (.lwait o) := by
  rintro sh o h1 h2 -
  cases h1
  cases h2
  rfl

theorem lpoll (o : Ops) : Statement (.lpoll o) := by
  rintro sh o h1 h2 -
  cases h1
  cases h2
  rfl

theorem push (o : Ops) : Statement (.push o) := by
  rintro sh o h1 h2 -
  cases h1
  cases h2
  rfl

theorem pop (o : Ops) : Statement (.pop o) := by
  rintro sh o h1 h2 -
  cases h1
  cases h2
  rfl

theorem peek (o : Ops) : Statement (.peek o) := by
  rintro sh o h1 h2 -
  cases h1
  cases h2
  rfl

theorem pstat (o : Ops) : Statement (.pstat o) := by
  rintro sh o h1 h2 -
  cases h1
  cases h2
  rfl

theorem pdrd (o : Ops) : Statement (.pdrd o) := by
  rintro sh o h1 h2 h3
  cases h1
  cases h2
  have h : o.subN = 0 := by
    have h := (okOps_checks h3).2
    simp only [shRaw, Bool.and_eq_true, beq_iff_eq] at h
    exact h.1.1.1.1.2
  exact if_pos h

theorem pdrdClr (o : Ops) : Statement (.pdrdClr o) := by
  rintro sh o h1 h2 h3
  cases h1
  cases h2
  have h : o.subN = 1 := by
    have h := (okOps_checks h3).2
    simp only [shRaw, Bool.and_eq_true, beq_iff_eq] at h
    exact h.1.1.1.1.2
  exact if_neg (by rw [h]; decide)

theorem pmap (o : Ops) : Statement (.pmap o) := by
  rintro sh o h1 h2 -
  cases h1
  cases h2
  rfl

theorem mzero (o : Ops) : Statement (.mzero o) := by
  rintro sh o h1 h2 -
  cases h1
  cases h2
  rfl

theorem mldw (o : Ops) : Statement (.mldw o) := by
  rintro sh o h1 h2 -
  cases h1
  cases h2
  rfl

theorem mwst (o : Ops) : Statement (.mwst o) := by
  rintro sh o h1 h2 -
  cases h1
  cases h2
  rfl

theorem mstr (o : Ops) : Statement (.mstr o) := by
  rintro sh o h1 h2 -
  cases h1
  cases h2
  rfl

theorem mstacc (o : Ops) : Statement (.mstacc o) := by
  rintro sh o h1 h2 -
  cases h1
  cases h2
  rfl

theorem mldacc (o : Ops) : Statement (.mldacc o) := by
  rintro sh o h1 h2 -
  cases h1
  cases h2
  rfl

theorem mrd (o : Ops) : Statement (.mrd o) := by
  rintro sh o h1 h2 -
  cases h1
  cases h2
  rfl

theorem mwr (o : Ops) : Statement (.mwr o) := by
  rintro sh o h1 h2 -
  cases h1
  cases h2
  rfl

theorem mcpy (o : Ops) : Statement (.mcpy o) := by
  rintro sh o h1 h2 -
  cases h1
  cases h2
  rfl

theorem mscl (o : Ops) : Statement (.mscl o) := by
  rintro sh o h1 h2 -
  cases h1
  cases h2
  rfl

theorem mtrn (o : Ops) : Statement (.mtrn o) := by
  rintro sh o h1 h2 -
  cases h1
  cases h2
  rfl

theorem msyn (o : Ops) : Statement (.msyn o) := by
  rintro sh o h1 h2 -
  cases h1
  cases h2
  rfl

theorem lease (o : Ops) : Statement (.lease o) := by
  rintro sh o h1 h2 h3
  cases h1
  cases h2
  have h : o.subN ≤ 6 := by
    have h := (okOps_checks h3).2
    simp only [shWide, shRaw, Bool.and_eq_true, beq_iff_eq, decide_eq_true_eq] at h
    exact h.2
  exact if_pos (Nat.lt_of_le_of_lt h (by decide))

theorem leaseTry (o : Ops) : Statement (.leaseTry o) := by
  rintro sh o h1 h2 h3
  cases h1
  cases h2
  have h : 8 ≤ o.subN := by
    have h := (okOps_checks h3).2
    simp only [shWide, shRaw, Bool.and_eq_true, beq_iff_eq, decide_eq_true_eq] at h
    exact h.2.1
  exact if_neg (Nat.not_lt.2 h)

theorem erls (o : Ops) : Statement (.erls o) := by
  rintro sh o h1 h2 h3
  cases h1
  cases h2
  have h : o.subN = 0 := by
    have h := (okOps_checks h3).2
    simp only [shWide, shRaw, Bool.and_eq_true, beq_iff_eq] at h
    exact h.2
  exact if_pos h

theorem erlsCold (o : Ops) : Statement (.erlsCold o) := by
  rintro sh o h1 h2 h3
  cases h1
  cases h2
  have h : o.subN = 1 := by
    have h := (okOps_checks h3).2
    simp only [shWide, shRaw, Bool.and_eq_true, beq_iff_eq] at h
    exact h.2
  exact if_neg (by rw [h]; decide)

theorem estat (o : Ops) : Statement (.estat o) := by
  rintro sh o h1 h2 -
  cases h1
  cases h2
  rfl

theorem trace (o : Ops) : Statement (.trace o) := by
  rintro sh o h1 h2 -
  cases h1
  cases h2
  rfl

theorem attr (o : Ops) : Statement (.attr o) := by
  rintro sh o h1 h2 -
  cases h1
  cases h2
  rfl

theorem rast (o : Ops) : Statement (.rast o) := by
  rintro sh o h1 h2 -
  cases h1
  cases h2
  rfl

theorem thresh (o : Ops) : Statement (.thresh o) := by
  rintro sh o h1 h2 -
  cases h1
  cases h2
  rfl

theorem decode (o : Ops) : Statement (.decode o) := by
  rintro sh o h1 h2 -
  cases h1
  cases h2
  rfl

theorem gather (o : Ops) : Statement (.gather o) := by
  rintro sh o h1 h2 -
  cases h1
  cases h2
  rfl

theorem scatr (o : Ops) : Statement (.scatr o) := by
  rintro sh o h1 h2 -
  cases h1
  cases h2
  rfl

theorem coll (o : Ops) : Statement (.coll o) := by
  rintro sh o h1 h2 -
  cases h1
  cases h2
  rfl

theorem ecanc (o : Ops) : Statement (.ecanc o) := by
  rintro sh o h1 h2 -
  cases h1
  cases h2
  rfl

theorem epoll (o : Ops) : Statement (.epoll o) := by
  rintro sh o h1 h2 -
  cases h1
  cases h2
  rfl

theorem ewait (o : Ops) : Statement (.ewait o) := by
  rintro sh o h1 h2 -
  cases h1
  cases h2
  rfl

theorem srd (o : Ops) : Statement (.srd o) := by
  rintro sh o h1 h2 -
  cases h1
  cases h2
  rfl

theorem swr (o : Ops) : Statement (.swr o) := by
  rintro sh o h1 h2 -
  cases h1
  cases h2
  rfl

theorem tlbiAll (o : Ops) : Statement (.tlbiAll o) := by
  rintro sh o h1 h2 h3
  cases h1
  cases h2
  have h : o.subN = 0 := by
    have h := (okOps_checks h3).2
    simp only [sh64, shRaw, Bool.and_eq_true, beq_iff_eq, decide_eq_true_eq] at h
    exact h.2
  exact if_pos h

theorem tlbiAsid (o : Ops) : Statement (.tlbiAsid o) := by
  rintro sh o h1 h2 h3
  cases h1
  cases h2
  have h : o.subN = 1 := by
    have h := (okOps_checks h3).2
    simp only [sh64, shRaw, Bool.and_eq_true, beq_iff_eq, decide_eq_true_eq] at h
    exact h.2
  exact (if_neg (by rw [h]; decide)).trans (if_pos h)

theorem tlbiVa (o : Ops) : Statement (.tlbiVa o) := by
  rintro sh o h1 h2 h3
  cases h1
  cases h2
  have h : o.subN = 2 := by
    have h := (okOps_checks h3).2
    simp only [sh64, shRaw, Bool.and_eq_true, beq_iff_eq, decide_eq_true_eq] at h
    exact h.2
  exact (if_neg (by rw [h]; decide)).trans ((if_neg (by rw [h]; decide)).trans (if_pos h))

theorem tlbiMap (o : Ops) : Statement (.tlbiMap o) := by
  rintro sh o h1 h2 h3
  cases h1
  cases h2
  have h : o.subN = 3 := by
    have h := (okOps_checks h3).2
    simp only [sh64, shRaw, Bool.and_eq_true, beq_iff_eq, decide_eq_true_eq] at h
    exact h.2
  exact (if_neg (by rw [h]; decide)).trans ((if_neg (by rw [h]; decide)).trans (if_neg (by rw [h]; decide)))

theorem trap (o : Ops) : Statement (.trap o) := by
  rintro sh o h1 h2 -
  cases h1
  cases h2
  rfl

theorem brkpt (o : Ops) : Statement (.brkpt o) := by
  rintro sh o h1 h2 -
  cases h1
  cases h2
  rfl

theorem hret (o : Ops) : Statement (.hret o) := by
  rintro sh o h1 h2 -
  cases h1
  cases h2
  rfl

theorem hrpl (o : Ops) : Statement (.hrpl o) := by
  rintro sh o h1 h2 h3
  cases h1
  cases h2
  have h : o.subN = 0 := by
    have h := (okOps_checks h3).2
    simp only [sh64, shRaw, Bool.and_eq_true, beq_iff_eq] at h
    exact h.2
  exact if_pos h

theorem hrplAll (o : Ops) : Statement (.hrplAll o) := by
  rintro sh o h1 h2 h3
  cases h1
  cases h2
  have h : o.subN = 1 := by
    have h := (okOps_checks h3).2
    simp only [sh64, shRaw, Bool.and_eq_true, beq_iff_eq] at h
    exact h.2
  exact if_neg (by rw [h]; decide)

theorem hemu (o : Ops) : Statement (.hemu o) := by
  rintro sh o h1 h2 h3
  cases h1
  cases h2
  have h : o.subN = 0 := by
    have h := (okOps_checks h3).2
    simp only [sh64, shRaw, Bool.and_eq_true, beq_iff_eq] at h
    exact h.2
  exact if_pos h

theorem hemuTo (o : Ops) : Statement (.hemuTo o) := by
  rintro sh o h1 h2 h3
  cases h1
  cases h2
  have h : o.subN = 1 := by
    have h := (okOps_checks h3).2
    simp only [sh64, shRaw, Bool.and_eq_true, beq_iff_eq] at h
    exact h.2
  exact if_neg (by rw [h]; decide)

theorem hend (o : Ops) : Statement (.hend o) := by
  rintro sh o h1 h2 -
  cases h1
  cases h2
  rfl

theorem hfrd (o : Ops) : Statement (.hfrd o) := by
  rintro sh o h1 h2 -
  cases h1
  cases h2
  rfl

theorem hsrd (o : Ops) : Statement (.hsrd o) := by
  rintro sh o h1 h2 -
  cases h1
  cases h2
  rfl

theorem ctxsv (o : Ops) : Statement (.ctxsv o) := by
  rintro sh o h1 h2 -
  cases h1
  cases h2
  rfl

theorem ctxld (o : Ops) : Statement (.ctxld o) := by
  rintro sh o h1 h2 -
  cases h1
  cases h2
  rfl

theorem icinv (o : Ops) : Statement (.icinv o) := by
  rintro sh o h1 h2 -
  cases h1
  cases h2
  rfl

theorem pmrd (o : Ops) : Statement (.pmrd o) := by
  rintro sh o h1 h2 -
  cases h1
  cases h2
  rfl

theorem l2flWb (o : Ops) : Statement (.l2flWb o) := by
  rintro sh o h1 h2 h3
  cases h1
  cases h2
  have h : o.subN = 0 := by
    have h := (okOps_checks h3).2
    simp only [sh64, shRaw, Bool.and_eq_true, beq_iff_eq] at h
    exact h.2
  exact if_pos h

theorem l2flInv (o : Ops) : Statement (.l2flInv o) := by
  rintro sh o h1 h2 h3
  cases h1
  cases h2
  have h : o.subN = 1 := by
    have h := (okOps_checks h3).2
    simp only [sh64, shRaw, Bool.and_eq_true, beq_iff_eq] at h
    exact h.2
  exact (if_neg (by rw [h]; decide)).trans (if_pos h)

theorem l2flSlice (o : Ops) : Statement (.l2flSlice o) := by
  rintro sh o h1 h2 h3
  cases h1
  cases h2
  have h : o.subN = 2 := by
    have h := (okOps_checks h3).2
    simp only [sh64, shRaw, Bool.and_eq_true, beq_iff_eq] at h
    exact h.2
  exact (if_neg (by rw [h]; decide)).trans ((if_neg (by rw [h]; decide)).trans (if_pos h))

theorem l2flPart (o : Ops) : Statement (.l2flPart o) := by
  rintro sh o h1 h2 h3
  cases h1
  cases h2
  have h : o.subN = 3 := by
    have h := (okOps_checks h3).2
    simp only [sh64, shRaw, Bool.and_eq_true, beq_iff_eq] at h
    exact h.2
  exact (if_neg (by rw [h]; decide)).trans ((if_neg (by rw [h]; decide)).trans (if_neg (by rw [h]; decide)))

theorem pairedWord (p : Slot) (q : Slot) : Statement (.pairedWord p q) := by
  rintro sh o h1 - -
  cases h1

theorem patternTableReplace : Statement .patternTableReplace := by
  rintro sh o h1 - -
  cases h1

theorem copyLineSend : Statement .copyLineSend := by
  rintro sh o h1 - -
  cases h1

theorem copyLineDelivery : Statement .copyLineDelivery := by
  rintro sh o h1 - -
  cases h1

theorem messageAppend : Statement .messageAppend := by
  rintro sh o h1 - -
  cases h1

theorem requestArrival : Statement .requestArrival := by
  rintro sh o h1 - -
  cases h1

theorem storeAcknowledge : Statement .storeAcknowledge := by
  rintro sh o h1 - -
  cases h1

theorem loadReply : Statement .loadReply := by
  rintro sh o h1 - -
  cases h1

theorem stealArrival : Statement .stealArrival := by
  rintro sh o h1 - -
  cases h1

theorem binTimerExpiry : Statement .binTimerExpiry := by
  rintro sh o h1 - -
  cases h1

theorem binWaitingEntry : Statement .binWaitingEntry := by
  rintro sh o h1 - -
  cases h1

theorem portValueArrival : Statement .portValueArrival := by
  rintro sh o h1 - -
  cases h1

theorem portCreditReturn : Statement .portCreditReturn := by
  rintro sh o h1 - -
  cases h1

theorem portStallTrap : Statement .portStallTrap := by
  rintro sh o h1 - -
  cases h1

theorem tileOpStart : Statement .tileOpStart := by
  rintro sh o h1 - -
  cases h1

theorem tileOpComplete : Statement .tileOpComplete := by
  rintro sh o h1 - -
  cases h1

theorem leaseGrant : Statement .leaseGrant := by
  rintro sh o h1 - -
  cases h1

theorem engineWakeComplete : Statement .engineWakeComplete := by
  rintro sh o h1 - -
  cases h1

theorem leaseRevoke : Statement .leaseRevoke := by
  rintro sh o h1 - -
  cases h1

theorem engineCommandArrival : Statement .engineCommandArrival := by
  rintro sh o h1 - -
  cases h1

theorem engineItemStart : Statement .engineItemStart := by
  rintro sh o h1 - -
  cases h1

theorem engineCommandComplete : Statement .engineCommandComplete := by
  rintro sh o h1 - -
  cases h1

theorem rastStallResume : Statement .rastStallResume := by
  rintro sh o h1 - -
  cases h1

theorem collTimeout : Statement .collTimeout := by
  rintro sh o h1 - -
  cases h1

theorem laneDelivery : Statement .laneDelivery := by
  rintro sh o h1 - -
  cases h1

theorem tlbWalkComplete : Statement .tlbWalkComplete := by
  rintro sh o h1 - -
  cases h1

theorem addressBreakpoint : Statement .addressBreakpoint := by
  rintro sh o h1 - -
  cases h1

theorem meetingRelease : Statement .meetingRelease := by
  rintro sh o h1 - -
  cases h1

theorem greedLimit : Statement .greedLimit := by
  rintro sh o h1 - -
  cases h1

theorem handlerVector : Statement .handlerVector := by
  rintro sh o h1 - -
  cases h1

theorem warpRetire : Statement .warpRetire := by
  rintro sh o h1 - -
  cases h1

theorem teamResourcesFree : Statement .teamResourcesFree := by
  rintro sh o h1 - -
  cases h1

theorem teamPlacement : Statement .teamPlacement := by
  rintro sh o h1 - -
  cases h1

theorem launchDoorbell : Statement .launchDoorbell := by
  rintro sh o h1 - -
  cases h1

theorem launchRecord : Statement .launchRecord := by
  rintro sh o h1 - -
  cases h1

theorem skipRecord : Statement .skipRecord := by
  rintro sh o h1 - -
  cases h1

theorem restoreRecord : Statement .restoreRecord := by
  rintro sh o h1 - -
  cases h1

theorem preemptRequest : Statement .preemptRequest := by
  rintro sh o h1 - -
  cases h1

theorem preemptTrap : Statement .preemptTrap := by
  rintro sh o h1 - -
  cases h1

theorem partcfgWrite : Statement .partcfgWrite := by
  rintro sh o h1 - -
  cases h1

theorem hashmaskCommit : Statement .hashmaskCommit := by
  rintro sh o h1 - -
  cases h1

theorem commitScanEnd : Statement .commitScanEnd := by
  rintro sh o h1 - -
  cases h1

theorem refusedRequestResend : Statement .refusedRequestResend := by
  rintro sh o h1 - -
  cases h1

theorem tkshareWrite : Statement .tkshareWrite := by
  rintro sh o h1 - -
  cases h1

theorem bucketRefill : Statement .bucketRefill := by
  rintro sh o h1 - -
  cases h1

theorem partitionIdleChange : Statement .partitionIdleChange := by
  rintro sh o h1 - -
  cases h1

theorem idleStateArrival : Statement .idleStateArrival := by
  rintro sh o h1 - -
  cases h1

theorem engbudgetWrite : Statement .engbudgetWrite := by
  rintro sh o h1 - -
  cases h1

theorem slmcarveWrite : Statement .slmcarveWrite := by
  rintro sh o h1 - -
  cases h1

theorem pagerDoorbell : Statement .pagerDoorbell := by
  rintro sh o h1 - -
  cases h1

theorem pagerServe : Statement .pagerServe := by
  rintro sh o h1 - -
  cases h1

theorem remapGo : Statement .remapGo := by
  rintro sh o h1 - -
  cases h1

theorem remapCancel : Statement .remapCancel := by
  rintro sh o h1 - -
  cases h1

theorem remapRun : Statement .remapRun := by
  rintro sh o h1 - -
  cases h1

theorem remapComplete : Statement .remapComplete := by
  rintro sh o h1 - -
  cases h1

theorem objectEnable : Statement .objectEnable := by
  rintro sh o h1 - -
  cases h1

theorem objectDisable : Statement .objectDisable := by
  rintro sh o h1 - -
  cases h1

theorem objectFlagClear : Statement .objectFlagClear := by
  rintro sh o h1 - -
  cases h1

theorem tenureRecallTimeout : Statement .tenureRecallTimeout := by
  rintro sh o h1 - -
  cases h1

theorem tenureRevert : Statement .tenureRevert := by
  rintro sh o h1 - -
  cases h1

theorem tenureRenewal : Statement .tenureRenewal := by
  rintro sh o h1 - -
  cases h1

theorem tenureLapse : Statement .tenureLapse := by
  rintro sh o h1 - -
  cases h1

theorem flitReplay : Statement .flitReplay := by
  rintro sh o h1 - -
  cases h1

theorem linkDown : Statement .linkDown := by
  rintro sh o h1 - -
  cases h1

theorem headerError : Statement .headerError := by
  rintro sh o h1 - -
  cases h1

theorem partitionHaltComplete : Statement .partitionHaltComplete := by
  rintro sh o h1 - -
  cases h1

theorem bankLoss : Statement .bankLoss := by
  rintro sh o h1 - -
  cases h1

theorem gleanStep : Statement .gleanStep := by
  rintro sh o h1 - -
  cases h1

theorem errlogClear : Statement .errlogClear := by
  rintro sh o h1 - -
  cases h1

theorem clockSet : Statement .clockSet := by
  rintro sh o h1 - -
  cases h1

theorem d3hotEntry : Statement .d3hotEntry := by
  rintro sh o h1 - -
  cases h1

theorem drawOverLimit : Statement .drawOverLimit := by
  rintro sh o h1 - -
  cases h1

theorem overTemperatureTrip : Statement .overTemperatureTrip := by
  rintro sh o h1 - -
  cases h1

theorem reset : Statement .reset := by
  rintro sh o h1 - -
  cases h1

theorem stageComplete : Statement .stageComplete := by
  rintro sh o h1 - -
  cases h1

theorem loadfw : Statement .loadfw := by
  rintro sh o h1 - -
  cases h1

theorem status : Statement .status := by
  rintro sh o h1 - -
  cases h1

theorem idcert : Statement .idcert := by
  rintro sh o h1 - -
  cases h1

theorem attest : Statement .attest := by
  rintro sh o h1 - -
  cases h1

theorem loadmod : Statement .loadmod := by
  rintro sh o h1 - -
  cases h1

theorem readlog : Statement .readlog := by
  rintro sh o h1 - -
  cases h1

theorem recallAtHolder : Statement .recallAtHolder := by
  rintro sh o h1 - -
  cases h1

theorem d0Entry : Statement .d0Entry := by
  rintro sh o h1 - -
  cases h1

theorem mailboxBadcmd : Statement .mailboxBadcmd := by
  rintro sh o h1 - -
  cases h1

end Sys2Proof.Laws.Opcodes
end

