-- ==== Sys2Proof/Laws/State.lean ====
section
/-!
SUPPORT. What each of the named updates of the state leaves as it was: one lemma for each field, true by unfolding.
-/
namespace Sys2Proof.Machine

/-! ## `State.setWarp` changes `warps` -/

@[simp] theorem State.setWarp_now (s : State) (w : Nat) (x : Warp) : (s.setWarp w x).now = s.now := rfl
@[simp] theorem State.setWarp_resetAt (s : State) (w : Nat) (x : Warp) : (s.setWarp w x).resetAt = s.resetAt := rfl
@[simp] theorem State.setWarp_ph (s : State) (w : Nat) (x : Warp) : (s.setWarp w x).ph = s.ph := rfl
@[simp] theorem State.setWarp_cur (s : State) (w : Nat) (x : Warp) : (s.setWarp w x).cur = s.cur := rfl
@[simp] theorem State.setWarp_act (s : State) (w : Nat) (x : Warp) : (s.setWarp w x).act = s.act := rfl
@[simp] theorem State.setWarp_issued (s : State) (w : Nat) (x : Warp) : (s.setWarp w x).issued = s.issued := rfl
@[simp] theorem State.setWarp_ipc (s : State) (w : Nat) (x : Warp) : (s.setWarp w x).ipc = s.ipc := rfl
@[simp] theorem State.setWarp_npc (s : State) (w : Nat) (x : Warp) : (s.setWarp w x).npc = s.npc := rfl
@[simp] theorem State.setWarp_ev (s : State) (w : Nat) (x : Warp) : (s.setWarp w x).ev = s.ev := rfl
@[simp] theorem State.setWarp_free (s : State) (w : Nat) (x : Warp) : (s.setWarp w x).free = s.free := rfl
@[simp] theorem State.setWarp_seq (s : State) (w : Nat) (x : Warp) : (s.setWarp w x).seq = s.seq := rfl
@[simp] theorem State.setWarp_agenda (s : State) (w : Nat) (x : Warp) : (s.setWarp w x).agenda = s.agenda := rfl
@[simp] theorem State.setWarp_teams (s : State) (w : Nat) (x : Warp) : (s.setWarp w x).teams = s.teams := rfl
@[simp] theorem State.setWarp_saves (s : State) (w : Nat) (x : Warp) : (s.setWarp w x).saves = s.saves := rfl
@[simp] theorem State.setWarp_grids (s : State) (w : Nat) (x : Warp) : (s.setWarp w x).grids = s.grids := rfl
@[simp] theorem State.setWarp_bins (s : State) (w : Nat) (x : Warp) : (s.setWarp w x).bins = s.bins := rfl
@[simp] theorem State.setWarp_parts (s : State) (w : Nat) (x : Warp) : (s.setWarp w x).parts = s.parts := rfl
@[simp] theorem State.setWarp_quarters (s : State) (w : Nat) (x : Warp) : (s.setWarp w x).quarters = s.quarters := rfl
@[simp] theorem State.setWarp_memops (s : State) (w : Nat) (x : Warp) : (s.setWarp w x).memops = s.memops := rfl
@[simp] theorem State.setWarp_reqs (s : State) (w : Nat) (x : Warp) : (s.setWarp w x).reqs = s.reqs := rfl
@[simp] theorem State.setWarp_walks (s : State) (w : Nat) (x : Warp) : (s.setWarp w x).walks = s.walks := rfl
@[simp] theorem State.setWarp_tlb (s : State) (w : Nat) (x : Warp) : (s.setWarp w x).tlb = s.tlb := rfl
@[simp] theorem State.setWarp_l1 (s : State) (w : Nat) (x : Warp) : (s.setWarp w x).l1 = s.l1 := rfl
@[simp] theorem State.setWarp_icache (s : State) (w : Nat) (x : Warp) : (s.setWarp w x).icache = s.icache := rfl
@[simp] theorem State.setWarp_l2 (s : State) (w : Nat) (x : Warp) : (s.setWarp w x).l2 = s.l2 := rfl
@[simp] theorem State.setWarp_filledSlices (s : State) (w : Nat) (x : Warp) : (s.setWarp w x).filledSlices = s.filledSlices := rfl
@[simp] theorem State.setWarp_published (s : State) (w : Nat) (x : Warp) : (s.setWarp w x).published = s.published := rfl
@[simp] theorem State.setWarp_gens (s : State) (w : Nat) (x : Warp) : (s.setWarp w x).gens = s.gens := rfl
@[simp] theorem State.setWarp_poisoned (s : State) (w : Nat) (x : Warp) : (s.setWarp w x).poisoned = s.poisoned := rfl
@[simp] theorem State.setWarp_dram (s : State) (w : Nat) (x : Warp) : (s.setWarp w x).dram = s.dram := rfl
@[simp] theorem State.setWarp_remote (s : State) (w : Nat) (x : Warp) : (s.setWarp w x).remote = s.remote := rfl
@[simp] theorem State.setWarp_codes (s : State) (w : Nat) (x : Warp) : (s.setWarp w x).codes = s.codes := rfl
@[simp] theorem State.setWarp_queues (s : State) (w : Nat) (x : Warp) : (s.setWarp w x).queues = s.queues := rfl
@[simp] theorem State.setWarp_lineops (s : State) (w : Nat) (x : Warp) : (s.setWarp w x).lineops = s.lineops := rfl
@[simp] theorem State.setWarp_channels (s : State) (w : Nat) (x : Warp) : (s.setWarp w x).channels = s.channels := rfl
@[simp] theorem State.setWarp_msgs (s : State) (w : Nat) (x : Warp) : (s.setWarp w x).msgs = s.msgs := rfl
@[simp] theorem State.setWarp_xfers (s : State) (w : Nat) (x : Warp) : (s.setWarp w x).xfers = s.xfers := rfl
@[simp] theorem State.setWarp_tileops (s : State) (w : Nat) (x : Warp) : (s.setWarp w x).tileops = s.tileops := rfl
@[simp] theorem State.setWarp_engines (s : State) (w : Nat) (x : Warp) : (s.setWarp w x).engines = s.engines := rfl
@[simp] theorem State.setWarp_sectors (s : State) (w : Nat) (x : Warp) : (s.setWarp w x).sectors = s.sectors := rfl
@[simp] theorem State.setWarp_leases (s : State) (w : Nat) (x : Warp) : (s.setWarp w x).leases = s.leases := rfl
@[simp] theorem State.setWarp_cmds (s : State) (w : Nat) (x : Warp) : (s.setWarp w x).cmds = s.cmds := rfl
@[simp] theorem State.setWarp_tiles (s : State) (w : Nat) (x : Warp) : (s.setWarp w x).tiles = s.tiles := rfl
@[simp] theorem State.setWarp_tenures (s : State) (w : Nat) (x : Warp) : (s.setWarp w x).tenures = s.tenures := rfl
@[simp] theorem State.setWarp_held (s : State) (w : Nat) (x : Warp) : (s.setWarp w x).held = s.held := rfl
@[simp] theorem State.setWarp_columns (s : State) (w : Nat) (x : Warp) : (s.setWarp w x).columns = s.columns := rfl
@[simp] theorem State.setWarp_stackMib (s : State) (w : Nat) (x : Warp) : (s.setWarp w x).stackMib = s.stackMib := rfl
@[simp] theorem State.setWarp_remaps (s : State) (w : Nat) (x : Warp) : (s.setWarp w x).remaps = s.remaps := rfl
@[simp] theorem State.setWarp_buckets (s : State) (w : Nat) (x : Warp) : (s.setWarp w x).buckets = s.buckets := rfl
@[simp] theorem State.setWarp_lastCharge (s : State) (w : Nat) (x : Warp) : (s.setWarp w x).lastCharge = s.lastCharge := rfl
@[simp] theorem State.setWarp_refilled (s : State) (w : Nat) (x : Warp) : (s.setWarp w x).refilled = s.refilled := rfl
@[simp] theorem State.setWarp_kills (s : State) (w : Nat) (x : Warp) : (s.setWarp w x).kills = s.kills := rfl
@[simp] theorem State.setWarp_scan (s : State) (w : Nat) (x : Warp) : (s.setWarp w x).scan = s.scan := rfl
@[simp] theorem State.setWarp_errlog (s : State) (w : Nat) (x : Warp) : (s.setWarp w x).errlog = s.errlog := rfl
@[simp] theorem State.setWarp_errCorr (s : State) (w : Nat) (x : Warp) : (s.setWarp w x).errCorr = s.errCorr := rfl
@[simp] theorem State.setWarp_errUncorr (s : State) (w : Nat) (x : Warp) : (s.setWarp w x).errUncorr = s.errUncorr := rfl
@[simp] theorem State.setWarp_errHead (s : State) (w : Nat) (x : Warp) : (s.setWarp w x).errHead = s.errHead := rfl
@[simp] theorem State.setWarp_posts (s : State) (w : Nat) (x : Warp) : (s.setWarp w x).posts = s.posts := rfl
@[simp] theorem State.setWarp_trapvec (s : State) (w : Nat) (x : Warp) : (s.setWarp w x).trapvec = s.trapvec := rfl
@[simp] theorem State.setWarp_dbgctl (s : State) (w : Nat) (x : Warp) : (s.setWarp w x).dbgctl = s.dbgctl := rfl
@[simp] theorem State.setWarp_bkaddr (s : State) (w : Nat) (x : Warp) : (s.setWarp w x).bkaddr = s.bkaddr := rfl
@[simp] theorem State.setWarp_hfcount (s : State) (w : Nat) (x : Warp) : (s.setWarp w x).hfcount = s.hfcount := rfl
@[simp] theorem State.setWarp_asidtab (s : State) (w : Nat) (x : Warp) : (s.setWarp w x).asidtab = s.asidtab := rfl
@[simp] theorem State.setWarp_pageq (s : State) (w : Nat) (x : Warp) : (s.setWarp w x).pageq = s.pageq := rfl
@[simp] theorem State.setWarp_pageDb (s : State) (w : Nat) (x : Warp) : (s.setWarp w x).pageDb = s.pageDb := rfl
@[simp] theorem State.setWarp_pageJob (s : State) (w : Nat) (x : Warp) : (s.setWarp w x).pageJob = s.pageJob := rfl
@[simp] theorem State.setWarp_partcfg (s : State) (w : Nat) (x : Warp) : (s.setWarp w x).partcfg = s.partcfg := rfl
@[simp] theorem State.setWarp_lqbase (s : State) (w : Nat) (x : Warp) : (s.setWarp w x).lqbase = s.lqbase := rfl
@[simp] theorem State.setWarp_capmap (s : State) (w : Nat) (x : Warp) : (s.setWarp w x).capmap = s.capmap := rfl
@[simp] theorem State.setWarp_slmcarve (s : State) (w : Nat) (x : Warp) : (s.setWarp w x).slmcarve = s.slmcarve := rfl
@[simp] theorem State.setWarp_tilebud (s : State) (w : Nat) (x : Warp) : (s.setWarp w x).tilebud = s.tilebud := rfl
@[simp] theorem State.setWarp_hashmask (s : State) (w : Nat) (x : Warp) : (s.setWarp w x).hashmask = s.hashmask := rfl
@[simp] theorem State.setWarp_slicetab (s : State) (w : Nat) (x : Warp) : (s.setWarp w x).slicetab = s.slicetab := rfl
@[simp] theorem State.setWarp_hashLive (s : State) (w : Nat) (x : Warp) : (s.setWarp w x).hashLive = s.hashLive := rfl
@[simp] theorem State.setWarp_sliceLive (s : State) (w : Nat) (x : Warp) : (s.setWarp w x).sliceLive = s.sliceLive := rfl
@[simp] theorem State.setWarp_tkshare (s : State) (w : Nat) (x : Warp) : (s.setWarp w x).tkshare = s.tkshare := rfl
@[simp] theorem State.setWarp_engbudget (s : State) (w : Nat) (x : Warp) : (s.setWarp w x).engbudget = s.engbudget := rfl
@[simp] theorem State.setWarp_harvest (s : State) (w : Nat) (x : Warp) : (s.setWarp w x).harvest = s.harvest := rfl
@[simp] theorem State.setWarp_drcfg (s : State) (w : Nat) (x : Warp) : (s.setWarp w x).drcfg = s.drcfg := rfl
@[simp] theorem State.setWarp_drroute (s : State) (w : Nat) (x : Warp) : (s.setWarp w x).drroute = s.drroute := rfl
@[simp] theorem State.setWarp_hostwin (s : State) (w : Nat) (x : Warp) : (s.setWarp w x).hostwin = s.hostwin := rfl
@[simp] theorem State.setWarp_objtab (s : State) (w : Nat) (x : Warp) : (s.setWarp w x).objtab = s.objtab := rfl
@[simp] theorem State.setWarp_remapReg (s : State) (w : Nat) (x : Warp) : (s.setWarp w x).remapReg = s.remapReg := rfl
@[simp] theorem State.setWarp_pwrctl (s : State) (w : Nat) (x : Warp) : (s.setWarp w x).pwrctl = s.pwrctl := rfl
@[simp] theorem State.setWarp_stage (s : State) (w : Nat) (x : Warp) : (s.setWarp w x).stage = s.stage := rfl
@[simp] theorem State.setWarp_fail (s : State) (w : Nat) (x : Warp) : (s.setWarp w x).fail = s.fail := rfl
@[simp] theorem State.setWarp_trip (s : State) (w : Nat) (x : Warp) : (s.setWarp w x).trip = s.trip := rfl
@[simp] theorem State.setWarp_fwsvn (s : State) (w : Nat) (x : Warp) : (s.setWarp w x).fwsvn = s.fwsvn := rfl
@[simp] theorem State.setWarp_measurement (s : State) (w : Nat) (x : Warp) : (s.setWarp w x).measurement = s.measurement := rfl
@[simp] theorem State.setWarp_d3hot (s : State) (w : Nat) (x : Warp) : (s.setWarp w x).d3hot = s.d3hot := rfl
@[simp] theorem State.setWarp_fwHalted (s : State) (w : Nat) (x : Warp) : (s.setWarp w x).fwHalted = s.fwHalted := rfl
@[simp] theorem State.setWarp_gul (s : State) (w : Nat) (x : Warp) : (s.setWarp w x).gul = s.gul := rfl

/-! ## `State.onWarp` changes `warps` -/

@[simp] theorem State.onWarp_now (s : State) (w : Nat) (f : Warp → Warp) : (s.onWarp w f).now = s.now := rfl
@[simp] theorem State.onWarp_resetAt (s : State) (w : Nat) (f : Warp → Warp) : (s.onWarp w f).resetAt = s.resetAt := rfl
@[simp] theorem State.onWarp_ph (s : State) (w : Nat) (f : Warp → Warp) : (s.onWarp w f).ph = s.ph := rfl
@[simp] theorem State.onWarp_cur (s : State) (w : Nat) (f : Warp → Warp) : (s.onWarp w f).cur = s.cur := rfl
@[simp] theorem State.onWarp_act (s : State) (w : Nat) (f : Warp → Warp) : (s.onWarp w f).act = s.act := rfl
@[simp] theorem State.onWarp_issued (s : State) (w : Nat) (f : Warp → Warp) : (s.onWarp w f).issued = s.issued := rfl
@[simp] theorem State.onWarp_ipc (s : State) (w : Nat) (f : Warp → Warp) : (s.onWarp w f).ipc = s.ipc := rfl
@[simp] theorem State.onWarp_npc (s : State) (w : Nat) (f : Warp → Warp) : (s.onWarp w f).npc = s.npc := rfl
@[simp] theorem State.onWarp_ev (s : State) (w : Nat) (f : Warp → Warp) : (s.onWarp w f).ev = s.ev := rfl
@[simp] theorem State.onWarp_free (s : State) (w : Nat) (f : Warp → Warp) : (s.onWarp w f).free = s.free := rfl
@[simp] theorem State.onWarp_seq (s : State) (w : Nat) (f : Warp → Warp) : (s.onWarp w f).seq = s.seq := rfl
@[simp] theorem State.onWarp_agenda (s : State) (w : Nat) (f : Warp → Warp) : (s.onWarp w f).agenda = s.agenda := rfl
@[simp] theorem State.onWarp_teams (s : State) (w : Nat) (f : Warp → Warp) : (s.onWarp w f).teams = s.teams := rfl
@[simp] theorem State.onWarp_saves (s : State) (w : Nat) (f : Warp → Warp) : (s.onWarp w f).saves = s.saves := rfl
@[simp] theorem State.onWarp_grids (s : State) (w : Nat) (f : Warp → Warp) : (s.onWarp w f).grids = s.grids := rfl
@[simp] theorem State.onWarp_bins (s : State) (w : Nat) (f : Warp → Warp) : (s.onWarp w f).bins = s.bins := rfl
@[simp] theorem State.onWarp_parts (s : State) (w : Nat) (f : Warp → Warp) : (s.onWarp w f).parts = s.parts := rfl
@[simp] theorem State.onWarp_quarters (s : State) (w : Nat) (f : Warp → Warp) : (s.onWarp w f).quarters = s.quarters := rfl
@[simp] theorem State.onWarp_memops (s : State) (w : Nat) (f : Warp → Warp) : (s.onWarp w f).memops = s.memops := rfl
@[simp] theorem State.onWarp_reqs (s : State) (w : Nat) (f : Warp → Warp) : (s.onWarp w f).reqs = s.reqs := rfl
@[simp] theorem State.onWarp_walks (s : State) (w : Nat) (f : Warp → Warp) : (s.onWarp w f).walks = s.walks := rfl
@[simp] theorem State.onWarp_tlb (s : State) (w : Nat) (f : Warp → Warp) : (s.onWarp w f).tlb = s.tlb := rfl
@[simp] theorem State.onWarp_l1 (s : State) (w : Nat) (f : Warp → Warp) : (s.onWarp w f).l1 = s.l1 := rfl
@[simp] theorem State.onWarp_icache (s : State) (w : Nat) (f : Warp → Warp) : (s.onWarp w f).icache = s.icache := rfl
@[simp] theorem State.onWarp_l2 (s : State) (w : Nat) (f : Warp → Warp) : (s.onWarp w f).l2 = s.l2 := rfl
@[simp] theorem State.onWarp_filledSlices (s : State) (w : Nat) (f : Warp → Warp) : (s.onWarp w f).filledSlices = s.filledSlices := rfl
@[simp] theorem State.onWarp_published (s : State) (w : Nat) (f : Warp → Warp) : (s.onWarp w f).published = s.published := rfl
@[simp] theorem State.onWarp_gens (s : State) (w : Nat) (f : Warp → Warp) : (s.onWarp w f).gens = s.gens := rfl
@[simp] theorem State.onWarp_poisoned (s : State) (w : Nat) (f : Warp → Warp) : (s.onWarp w f).poisoned = s.poisoned := rfl
@[simp] theorem State.onWarp_dram (s : State) (w : Nat) (f : Warp → Warp) : (s.onWarp w f).dram = s.dram := rfl
@[simp] theorem State.onWarp_remote (s : State) (w : Nat) (f : Warp → Warp) : (s.onWarp w f).remote = s.remote := rfl
@[simp] theorem State.onWarp_codes (s : State) (w : Nat) (f : Warp → Warp) : (s.onWarp w f).codes = s.codes := rfl
@[simp] theorem State.onWarp_queues (s : State) (w : Nat) (f : Warp → Warp) : (s.onWarp w f).queues = s.queues := rfl
@[simp] theorem State.onWarp_lineops (s : State) (w : Nat) (f : Warp → Warp) : (s.onWarp w f).lineops = s.lineops := rfl
@[simp] theorem State.onWarp_channels (s : State) (w : Nat) (f : Warp → Warp) : (s.onWarp w f).channels = s.channels := rfl
@[simp] theorem State.onWarp_msgs (s : State) (w : Nat) (f : Warp → Warp) : (s.onWarp w f).msgs = s.msgs := rfl
@[simp] theorem State.onWarp_xfers (s : State) (w : Nat) (f : Warp → Warp) : (s.onWarp w f).xfers = s.xfers := rfl
@[simp] theorem State.onWarp_tileops (s : State) (w : Nat) (f : Warp → Warp) : (s.onWarp w f).tileops = s.tileops := rfl
@[simp] theorem State.onWarp_engines (s : State) (w : Nat) (f : Warp → Warp) : (s.onWarp w f).engines = s.engines := rfl
@[simp] theorem State.onWarp_sectors (s : State) (w : Nat) (f : Warp → Warp) : (s.onWarp w f).sectors = s.sectors := rfl
@[simp] theorem State.onWarp_leases (s : State) (w : Nat) (f : Warp → Warp) : (s.onWarp w f).leases = s.leases := rfl
@[simp] theorem State.onWarp_cmds (s : State) (w : Nat) (f : Warp → Warp) : (s.onWarp w f).cmds = s.cmds := rfl
@[simp] theorem State.onWarp_tiles (s : State) (w : Nat) (f : Warp → Warp) : (s.onWarp w f).tiles = s.tiles := rfl
@[simp] theorem State.onWarp_tenures (s : State) (w : Nat) (f : Warp → Warp) : (s.onWarp w f).tenures = s.tenures := rfl
@[simp] theorem State.onWarp_held (s : State) (w : Nat) (f : Warp → Warp) : (s.onWarp w f).held = s.held := rfl
@[simp] theorem State.onWarp_columns (s : State) (w : Nat) (f : Warp → Warp) : (s.onWarp w f).columns = s.columns := rfl
@[simp] theorem State.onWarp_stackMib (s : State) (w : Nat) (f : Warp → Warp) : (s.onWarp w f).stackMib = s.stackMib := rfl
@[simp] theorem State.onWarp_remaps (s : State) (w : Nat) (f : Warp → Warp) : (s.onWarp w f).remaps = s.remaps := rfl
@[simp] theorem State.onWarp_buckets (s : State) (w : Nat) (f : Warp → Warp) : (s.onWarp w f).buckets = s.buckets := rfl
@[simp] theorem State.onWarp_lastCharge (s : State) (w : Nat) (f : Warp → Warp) : (s.onWarp w f).lastCharge = s.lastCharge := rfl
@[simp] theorem State.onWarp_refilled (s : State) (w : Nat) (f : Warp → Warp) : (s.onWarp w f).refilled = s.refilled := rfl
@[simp] theorem State.onWarp_kills (s : State) (w : Nat) (f : Warp → Warp) : (s.onWarp w f).kills = s.kills := rfl
@[simp] theorem State.onWarp_scan (s : State) (w : Nat) (f : Warp → Warp) : (s.onWarp w f).scan = s.scan := rfl
@[simp] theorem State.onWarp_errlog (s : State) (w : Nat) (f : Warp → Warp) : (s.onWarp w f).errlog = s.errlog := rfl
@[simp] theorem State.onWarp_errCorr (s : State) (w : Nat) (f : Warp → Warp) : (s.onWarp w f).errCorr = s.errCorr := rfl
@[simp] theorem State.onWarp_errUncorr (s : State) (w : Nat) (f : Warp → Warp) : (s.onWarp w f).errUncorr = s.errUncorr := rfl
@[simp] theorem State.onWarp_errHead (s : State) (w : Nat) (f : Warp → Warp) : (s.onWarp w f).errHead = s.errHead := rfl
@[simp] theorem State.onWarp_posts (s : State) (w : Nat) (f : Warp → Warp) : (s.onWarp w f).posts = s.posts := rfl
@[simp] theorem State.onWarp_trapvec (s : State) (w : Nat) (f : Warp → Warp) : (s.onWarp w f).trapvec = s.trapvec := rfl
@[simp] theorem State.onWarp_dbgctl (s : State) (w : Nat) (f : Warp → Warp) : (s.onWarp w f).dbgctl = s.dbgctl := rfl
@[simp] theorem State.onWarp_bkaddr (s : State) (w : Nat) (f : Warp → Warp) : (s.onWarp w f).bkaddr = s.bkaddr := rfl
@[simp] theorem State.onWarp_hfcount (s : State) (w : Nat) (f : Warp → Warp) : (s.onWarp w f).hfcount = s.hfcount := rfl
@[simp] theorem State.onWarp_asidtab (s : State) (w : Nat) (f : Warp → Warp) : (s.onWarp w f).asidtab = s.asidtab := rfl
@[simp] theorem State.onWarp_pageq (s : State) (w : Nat) (f : Warp → Warp) : (s.onWarp w f).pageq = s.pageq := rfl
@[simp] theorem State.onWarp_pageDb (s : State) (w : Nat) (f : Warp → Warp) : (s.onWarp w f).pageDb = s.pageDb := rfl
@[simp] theorem State.onWarp_pageJob (s : State) (w : Nat) (f : Warp → Warp) : (s.onWarp w f).pageJob = s.pageJob := rfl
@[simp] theorem State.onWarp_partcfg (s : State) (w : Nat) (f : Warp → Warp) : (s.onWarp w f).partcfg = s.partcfg := rfl
@[simp] theorem State.onWarp_lqbase (s : State) (w : Nat) (f : Warp → Warp) : (s.onWarp w f).lqbase = s.lqbase := rfl
@[simp] theorem State.onWarp_capmap (s : State) (w : Nat) (f : Warp → Warp) : (s.onWarp w f).capmap = s.capmap := rfl
@[simp] theorem State.onWarp_slmcarve (s : State) (w : Nat) (f : Warp → Warp) : (s.onWarp w f).slmcarve = s.slmcarve := rfl
@[simp] theorem State.onWarp_tilebud (s : State) (w : Nat) (f : Warp → Warp) : (s.onWarp w f).tilebud = s.tilebud := rfl
@[simp] theorem State.onWarp_hashmask (s : State) (w : Nat) (f : Warp → Warp) : (s.onWarp w f).hashmask = s.hashmask := rfl
@[simp] theorem State.onWarp_slicetab (s : State) (w : Nat) (f : Warp → Warp) : (s.onWarp w f).slicetab = s.slicetab := rfl
@[simp] theorem State.onWarp_hashLive (s : State) (w : Nat) (f : Warp → Warp) : (s.onWarp w f).hashLive = s.hashLive := rfl
@[simp] theorem State.onWarp_sliceLive (s : State) (w : Nat) (f : Warp → Warp) : (s.onWarp w f).sliceLive = s.sliceLive := rfl
@[simp] theorem State.onWarp_tkshare (s : State) (w : Nat) (f : Warp → Warp) : (s.onWarp w f).tkshare = s.tkshare := rfl
@[simp] theorem State.onWarp_engbudget (s : State) (w : Nat) (f : Warp → Warp) : (s.onWarp w f).engbudget = s.engbudget := rfl
@[simp] theorem State.onWarp_harvest (s : State) (w : Nat) (f : Warp → Warp) : (s.onWarp w f).harvest = s.harvest := rfl
@[simp] theorem State.onWarp_drcfg (s : State) (w : Nat) (f : Warp → Warp) : (s.onWarp w f).drcfg = s.drcfg := rfl
@[simp] theorem State.onWarp_drroute (s : State) (w : Nat) (f : Warp → Warp) : (s.onWarp w f).drroute = s.drroute := rfl
@[simp] theorem State.onWarp_hostwin (s : State) (w : Nat) (f : Warp → Warp) : (s.onWarp w f).hostwin = s.hostwin := rfl
@[simp] theorem State.onWarp_objtab (s : State) (w : Nat) (f : Warp → Warp) : (s.onWarp w f).objtab = s.objtab := rfl
@[simp] theorem State.onWarp_remapReg (s : State) (w : Nat) (f : Warp → Warp) : (s.onWarp w f).remapReg = s.remapReg := rfl
@[simp] theorem State.onWarp_pwrctl (s : State) (w : Nat) (f : Warp → Warp) : (s.onWarp w f).pwrctl = s.pwrctl := rfl
@[simp] theorem State.onWarp_stage (s : State) (w : Nat) (f : Warp → Warp) : (s.onWarp w f).stage = s.stage := rfl
@[simp] theorem State.onWarp_fail (s : State) (w : Nat) (f : Warp → Warp) : (s.onWarp w f).fail = s.fail := rfl
@[simp] theorem State.onWarp_trip (s : State) (w : Nat) (f : Warp → Warp) : (s.onWarp w f).trip = s.trip := rfl
@[simp] theorem State.onWarp_fwsvn (s : State) (w : Nat) (f : Warp → Warp) : (s.onWarp w f).fwsvn = s.fwsvn := rfl
@[simp] theorem State.onWarp_measurement (s : State) (w : Nat) (f : Warp → Warp) : (s.onWarp w f).measurement = s.measurement := rfl
@[simp] theorem State.onWarp_d3hot (s : State) (w : Nat) (f : Warp → Warp) : (s.onWarp w f).d3hot = s.d3hot := rfl
@[simp] theorem State.onWarp_fwHalted (s : State) (w : Nat) (f : Warp → Warp) : (s.onWarp w f).fwHalted = s.fwHalted := rfl
@[simp] theorem State.onWarp_gul (s : State) (w : Nat) (f : Warp → Warp) : (s.onWarp w f).gul = s.gul := rfl

/-! ## `State.setMe` changes `warps` -/

@[simp] theorem State.setMe_now (s : State) (x : Warp) : (s.setMe x).now = s.now := rfl
@[simp] theorem State.setMe_resetAt (s : State) (x : Warp) : (s.setMe x).resetAt = s.resetAt := rfl
@[simp] theorem State.setMe_ph (s : State) (x : Warp) : (s.setMe x).ph = s.ph := rfl
@[simp] theorem State.setMe_cur (s : State) (x : Warp) : (s.setMe x).cur = s.cur := rfl
@[simp] theorem State.setMe_act (s : State) (x : Warp) : (s.setMe x).act = s.act := rfl
@[simp] theorem State.setMe_issued (s : State) (x : Warp) : (s.setMe x).issued = s.issued := rfl
@[simp] theorem State.setMe_ipc (s : State) (x : Warp) : (s.setMe x).ipc = s.ipc := rfl
@[simp] theorem State.setMe_npc (s : State) (x : Warp) : (s.setMe x).npc = s.npc := rfl
@[simp] theorem State.setMe_ev (s : State) (x : Warp) : (s.setMe x).ev = s.ev := rfl
@[simp] theorem State.setMe_free (s : State) (x : Warp) : (s.setMe x).free = s.free := rfl
@[simp] theorem State.setMe_seq (s : State) (x : Warp) : (s.setMe x).seq = s.seq := rfl
@[simp] theorem State.setMe_agenda (s : State) (x : Warp) : (s.setMe x).agenda = s.agenda := rfl
@[simp] theorem State.setMe_teams (s : State) (x : Warp) : (s.setMe x).teams = s.teams := rfl
@[simp] theorem State.setMe_saves (s : State) (x : Warp) : (s.setMe x).saves = s.saves := rfl
@[simp] theorem State.setMe_grids (s : State) (x : Warp) : (s.setMe x).grids = s.grids := rfl
@[simp] theorem State.setMe_bins (s : State) (x : Warp) : (s.setMe x).bins = s.bins := rfl
@[simp] theorem State.setMe_parts (s : State) (x : Warp) : (s.setMe x).parts = s.parts := rfl
@[simp] theorem State.setMe_quarters (s : State) (x : Warp) : (s.setMe x).quarters = s.quarters := rfl
@[simp] theorem State.setMe_memops (s : State) (x : Warp) : (s.setMe x).memops = s.memops := rfl
@[simp] theorem State.setMe_reqs (s : State) (x : Warp) : (s.setMe x).reqs = s.reqs := rfl
@[simp] theorem State.setMe_walks (s : State) (x : Warp) : (s.setMe x).walks = s.walks := rfl
@[simp] theorem State.setMe_tlb (s : State) (x : Warp) : (s.setMe x).tlb = s.tlb := rfl
@[simp] theorem State.setMe_l1 (s : State) (x : Warp) : (s.setMe x).l1 = s.l1 := rfl
@[simp] theorem State.setMe_icache (s : State) (x : Warp) : (s.setMe x).icache = s.icache := rfl
@[simp] theorem State.setMe_l2 (s : State) (x : Warp) : (s.setMe x).l2 = s.l2 := rfl
@[simp] theorem State.setMe_filledSlices (s : State) (x : Warp) : (s.setMe x).filledSlices = s.filledSlices := rfl
@[simp] theorem State.setMe_published (s : State) (x : Warp) : (s.setMe x).published = s.published := rfl
@[simp] theorem State.setMe_gens (s : State) (x : Warp) : (s.setMe x).gens = s.gens := rfl
@[simp] theorem State.setMe_poisoned (s : State) (x : Warp) : (s.setMe x).poisoned = s.poisoned := rfl
@[simp] theorem State.setMe_dram (s : State) (x : Warp) : (s.setMe x).dram = s.dram := rfl
@[simp] theorem State.setMe_remote (s : State) (x : Warp) : (s.setMe x).remote = s.remote := rfl
@[simp] theorem State.setMe_codes (s : State) (x : Warp) : (s.setMe x).codes = s.codes := rfl
@[simp] theorem State.setMe_queues (s : State) (x : Warp) : (s.setMe x).queues = s.queues := rfl
@[simp] theorem State.setMe_lineops (s : State) (x : Warp) : (s.setMe x).lineops = s.lineops := rfl
@[simp] theorem State.setMe_channels (s : State) (x : Warp) : (s.setMe x).channels = s.channels := rfl
@[simp] theorem State.setMe_msgs (s : State) (x : Warp) : (s.setMe x).msgs = s.msgs := rfl
@[simp] theorem State.setMe_xfers (s : State) (x : Warp) : (s.setMe x).xfers = s.xfers := rfl
@[simp] theorem State.setMe_tileops (s : State) (x : Warp) : (s.setMe x).tileops = s.tileops := rfl
@[simp] theorem State.setMe_engines (s : State) (x : Warp) : (s.setMe x).engines = s.engines := rfl
@[simp] theorem State.setMe_sectors (s : State) (x : Warp) : (s.setMe x).sectors = s.sectors := rfl
@[simp] theorem State.setMe_leases (s : State) (x : Warp) : (s.setMe x).leases = s.leases := rfl
@[simp] theorem State.setMe_cmds (s : State) (x : Warp) : (s.setMe x).cmds = s.cmds := rfl
@[simp] theorem State.setMe_tiles (s : State) (x : Warp) : (s.setMe x).tiles = s.tiles := rfl
@[simp] theorem State.setMe_tenures (s : State) (x : Warp) : (s.setMe x).tenures = s.tenures := rfl
@[simp] theorem State.setMe_held (s : State) (x : Warp) : (s.setMe x).held = s.held := rfl
@[simp] theorem State.setMe_columns (s : State) (x : Warp) : (s.setMe x).columns = s.columns := rfl
@[simp] theorem State.setMe_stackMib (s : State) (x : Warp) : (s.setMe x).stackMib = s.stackMib := rfl
@[simp] theorem State.setMe_remaps (s : State) (x : Warp) : (s.setMe x).remaps = s.remaps := rfl
@[simp] theorem State.setMe_buckets (s : State) (x : Warp) : (s.setMe x).buckets = s.buckets := rfl
@[simp] theorem State.setMe_lastCharge (s : State) (x : Warp) : (s.setMe x).lastCharge = s.lastCharge := rfl
@[simp] theorem State.setMe_refilled (s : State) (x : Warp) : (s.setMe x).refilled = s.refilled := rfl
@[simp] theorem State.setMe_kills (s : State) (x : Warp) : (s.setMe x).kills = s.kills := rfl
@[simp] theorem State.setMe_scan (s : State) (x : Warp) : (s.setMe x).scan = s.scan := rfl
@[simp] theorem State.setMe_errlog (s : State) (x : Warp) : (s.setMe x).errlog = s.errlog := rfl
@[simp] theorem State.setMe_errCorr (s : State) (x : Warp) : (s.setMe x).errCorr = s.errCorr := rfl
@[simp] theorem State.setMe_errUncorr (s : State) (x : Warp) : (s.setMe x).errUncorr = s.errUncorr := rfl
@[simp] theorem State.setMe_errHead (s : State) (x : Warp) : (s.setMe x).errHead = s.errHead := rfl
@[simp] theorem State.setMe_posts (s : State) (x : Warp) : (s.setMe x).posts = s.posts := rfl
@[simp] theorem State.setMe_trapvec (s : State) (x : Warp) : (s.setMe x).trapvec = s.trapvec := rfl
@[simp] theorem State.setMe_dbgctl (s : State) (x : Warp) : (s.setMe x).dbgctl = s.dbgctl := rfl
@[simp] theorem State.setMe_bkaddr (s : State) (x : Warp) : (s.setMe x).bkaddr = s.bkaddr := rfl
@[simp] theorem State.setMe_hfcount (s : State) (x : Warp) : (s.setMe x).hfcount = s.hfcount := rfl
@[simp] theorem State.setMe_asidtab (s : State) (x : Warp) : (s.setMe x).asidtab = s.asidtab := rfl
@[simp] theorem State.setMe_pageq (s : State) (x : Warp) : (s.setMe x).pageq = s.pageq := rfl
@[simp] theorem State.setMe_pageDb (s : State) (x : Warp) : (s.setMe x).pageDb = s.pageDb := rfl
@[simp] theorem State.setMe_pageJob (s : State) (x : Warp) : (s.setMe x).pageJob = s.pageJob := rfl
@[simp] theorem State.setMe_partcfg (s : State) (x : Warp) : (s.setMe x).partcfg = s.partcfg := rfl
@[simp] theorem State.setMe_lqbase (s : State) (x : Warp) : (s.setMe x).lqbase = s.lqbase := rfl
@[simp] theorem State.setMe_capmap (s : State) (x : Warp) : (s.setMe x).capmap = s.capmap := rfl
@[simp] theorem State.setMe_slmcarve (s : State) (x : Warp) : (s.setMe x).slmcarve = s.slmcarve := rfl
@[simp] theorem State.setMe_tilebud (s : State) (x : Warp) : (s.setMe x).tilebud = s.tilebud := rfl
@[simp] theorem State.setMe_hashmask (s : State) (x : Warp) : (s.setMe x).hashmask = s.hashmask := rfl
@[simp] theorem State.setMe_slicetab (s : State) (x : Warp) : (s.setMe x).slicetab = s.slicetab := rfl
@[simp] theorem State.setMe_hashLive (s : State) (x : Warp) : (s.setMe x).hashLive = s.hashLive := rfl
@[simp] theorem State.setMe_sliceLive (s : State) (x : Warp) : (s.setMe x).sliceLive = s.sliceLive := rfl
@[simp] theorem State.setMe_tkshare (s : State) (x : Warp) : (s.setMe x).tkshare = s.tkshare := rfl
@[simp] theorem State.setMe_engbudget (s : State) (x : Warp) : (s.setMe x).engbudget = s.engbudget := rfl
@[simp] theorem State.setMe_harvest (s : State) (x : Warp) : (s.setMe x).harvest = s.harvest := rfl
@[simp] theorem State.setMe_drcfg (s : State) (x : Warp) : (s.setMe x).drcfg = s.drcfg := rfl
@[simp] theorem State.setMe_drroute (s : State) (x : Warp) : (s.setMe x).drroute = s.drroute := rfl
@[simp] theorem State.setMe_hostwin (s : State) (x : Warp) : (s.setMe x).hostwin = s.hostwin := rfl
@[simp] theorem State.setMe_objtab (s : State) (x : Warp) : (s.setMe x).objtab = s.objtab := rfl
@[simp] theorem State.setMe_remapReg (s : State) (x : Warp) : (s.setMe x).remapReg = s.remapReg := rfl
@[simp] theorem State.setMe_pwrctl (s : State) (x : Warp) : (s.setMe x).pwrctl = s.pwrctl := rfl
@[simp] theorem State.setMe_stage (s : State) (x : Warp) : (s.setMe x).stage = s.stage := rfl
@[simp] theorem State.setMe_fail (s : State) (x : Warp) : (s.setMe x).fail = s.fail := rfl
@[simp] theorem State.setMe_trip (s : State) (x : Warp) : (s.setMe x).trip = s.trip := rfl
@[simp] theorem State.setMe_fwsvn (s : State) (x : Warp) : (s.setMe x).fwsvn = s.fwsvn := rfl
@[simp] theorem State.setMe_measurement (s : State) (x : Warp) : (s.setMe x).measurement = s.measurement := rfl
@[simp] theorem State.setMe_d3hot (s : State) (x : Warp) : (s.setMe x).d3hot = s.d3hot := rfl
@[simp] theorem State.setMe_fwHalted (s : State) (x : Warp) : (s.setMe x).fwHalted = s.fwHalted := rfl
@[simp] theorem State.setMe_gul (s : State) (x : Warp) : (s.setMe x).gul = s.gul := rfl

/-! ## `State.onMe` changes `warps` -/

@[simp] theorem State.onMe_now (s : State) (f : Warp → Warp) : (s.onMe f).now = s.now := rfl
@[simp] theorem State.onMe_resetAt (s : State) (f : Warp → Warp) : (s.onMe f).resetAt = s.resetAt := rfl
@[simp] theorem State.onMe_ph (s : State) (f : Warp → Warp) : (s.onMe f).ph = s.ph := rfl
@[simp] theorem State.onMe_cur (s : State) (f : Warp → Warp) : (s.onMe f).cur = s.cur := rfl
@[simp] theorem State.onMe_act (s : State) (f : Warp → Warp) : (s.onMe f).act = s.act := rfl
@[simp] theorem State.onMe_issued (s : State) (f : Warp → Warp) : (s.onMe f).issued = s.issued := rfl
@[simp] theorem State.onMe_ipc (s : State) (f : Warp → Warp) : (s.onMe f).ipc = s.ipc := rfl
@[simp] theorem State.onMe_npc (s : State) (f : Warp → Warp) : (s.onMe f).npc = s.npc := rfl
@[simp] theorem State.onMe_ev (s : State) (f : Warp → Warp) : (s.onMe f).ev = s.ev := rfl
@[simp] theorem State.onMe_free (s : State) (f : Warp → Warp) : (s.onMe f).free = s.free := rfl
@[simp] theorem State.onMe_seq (s : State) (f : Warp → Warp) : (s.onMe f).seq = s.seq := rfl
@[simp] theorem State.onMe_agenda (s : State) (f : Warp → Warp) : (s.onMe f).agenda = s.agenda := rfl
@[simp] theorem State.onMe_teams (s : State) (f : Warp → Warp) : (s.onMe f).teams = s.teams := rfl
@[simp] theorem State.onMe_saves (s : State) (f : Warp → Warp) : (s.onMe f).saves = s.saves := rfl
@[simp] theorem State.onMe_grids (s : State) (f : Warp → Warp) : (s.onMe f).grids = s.grids := rfl
@[simp] theorem State.onMe_bins (s : State) (f : Warp → Warp) : (s.onMe f).bins = s.bins := rfl
@[simp] theorem State.onMe_parts (s : State) (f : Warp → Warp) : (s.onMe f).parts = s.parts := rfl
@[simp] theorem State.onMe_quarters (s : State) (f : Warp → Warp) : (s.onMe f).quarters = s.quarters := rfl
@[simp] theorem State.onMe_memops (s : State) (f : Warp → Warp) : (s.onMe f).memops = s.memops := rfl
@[simp] theorem State.onMe_reqs (s : State) (f : Warp → Warp) : (s.onMe f).reqs = s.reqs := rfl
@[simp] theorem State.onMe_walks (s : State) (f : Warp → Warp) : (s.onMe f).walks = s.walks := rfl
@[simp] theorem State.onMe_tlb (s : State) (f : Warp → Warp) : (s.onMe f).tlb = s.tlb := rfl
@[simp] theorem State.onMe_l1 (s : State) (f : Warp → Warp) : (s.onMe f).l1 = s.l1 := rfl
@[simp] theorem State.onMe_icache (s : State) (f : Warp → Warp) : (s.onMe f).icache = s.icache := rfl
@[simp] theorem State.onMe_l2 (s : State) (f : Warp → Warp) : (s.onMe f).l2 = s.l2 := rfl
@[simp] theorem State.onMe_filledSlices (s : State) (f : Warp → Warp) : (s.onMe f).filledSlices = s.filledSlices := rfl
@[simp] theorem State.onMe_published (s : State) (f : Warp → Warp) : (s.onMe f).published = s.published := rfl
@[simp] theorem State.onMe_gens (s : State) (f : Warp → Warp) : (s.onMe f).gens = s.gens := rfl
@[simp] theorem State.onMe_poisoned (s : State) (f : Warp → Warp) : (s.onMe f).poisoned = s.poisoned := rfl
@[simp] theorem State.onMe_dram (s : State) (f : Warp → Warp) : (s.onMe f).dram = s.dram := rfl
@[simp] theorem State.onMe_remote (s : State) (f : Warp → Warp) : (s.onMe f).remote = s.remote := rfl
@[simp] theorem State.onMe_codes (s : State) (f : Warp → Warp) : (s.onMe f).codes = s.codes := rfl
@[simp] theorem State.onMe_queues (s : State) (f : Warp → Warp) : (s.onMe f).queues = s.queues := rfl
@[simp] theorem State.onMe_lineops (s : State) (f : Warp → Warp) : (s.onMe f).lineops = s.lineops := rfl
@[simp] theorem State.onMe_channels (s : State) (f : Warp → Warp) : (s.onMe f).channels = s.channels := rfl
@[simp] theorem State.onMe_msgs (s : State) (f : Warp → Warp) : (s.onMe f).msgs = s.msgs := rfl
@[simp] theorem State.onMe_xfers (s : State) (f : Warp → Warp) : (s.onMe f).xfers = s.xfers := rfl
@[simp] theorem State.onMe_tileops (s : State) (f : Warp → Warp) : (s.onMe f).tileops = s.tileops := rfl
@[simp] theorem State.onMe_engines (s : State) (f : Warp → Warp) : (s.onMe f).engines = s.engines := rfl
@[simp] theorem State.onMe_sectors (s : State) (f : Warp → Warp) : (s.onMe f).sectors = s.sectors := rfl
@[simp] theorem State.onMe_leases (s : State) (f : Warp → Warp) : (s.onMe f).leases = s.leases := rfl
@[simp] theorem State.onMe_cmds (s : State) (f : Warp → Warp) : (s.onMe f).cmds = s.cmds := rfl
@[simp] theorem State.onMe_tiles (s : State) (f : Warp → Warp) : (s.onMe f).tiles = s.tiles := rfl
@[simp] theorem State.onMe_tenures (s : State) (f : Warp → Warp) : (s.onMe f).tenures = s.tenures := rfl
@[simp] theorem State.onMe_held (s : State) (f : Warp → Warp) : (s.onMe f).held = s.held := rfl
@[simp] theorem State.onMe_columns (s : State) (f : Warp → Warp) : (s.onMe f).columns = s.columns := rfl
@[simp] theorem State.onMe_stackMib (s : State) (f : Warp → Warp) : (s.onMe f).stackMib = s.stackMib := rfl
@[simp] theorem State.onMe_remaps (s : State) (f : Warp → Warp) : (s.onMe f).remaps = s.remaps := rfl
@[simp] theorem State.onMe_buckets (s : State) (f : Warp → Warp) : (s.onMe f).buckets = s.buckets := rfl
@[simp] theorem State.onMe_lastCharge (s : State) (f : Warp → Warp) : (s.onMe f).lastCharge = s.lastCharge := rfl
@[simp] theorem State.onMe_refilled (s : State) (f : Warp → Warp) : (s.onMe f).refilled = s.refilled := rfl
@[simp] theorem State.onMe_kills (s : State) (f : Warp → Warp) : (s.onMe f).kills = s.kills := rfl
@[simp] theorem State.onMe_scan (s : State) (f : Warp → Warp) : (s.onMe f).scan = s.scan := rfl
@[simp] theorem State.onMe_errlog (s : State) (f : Warp → Warp) : (s.onMe f).errlog = s.errlog := rfl
@[simp] theorem State.onMe_errCorr (s : State) (f : Warp → Warp) : (s.onMe f).errCorr = s.errCorr := rfl
@[simp] theorem State.onMe_errUncorr (s : State) (f : Warp → Warp) : (s.onMe f).errUncorr = s.errUncorr := rfl
@[simp] theorem State.onMe_errHead (s : State) (f : Warp → Warp) : (s.onMe f).errHead = s.errHead := rfl
@[simp] theorem State.onMe_posts (s : State) (f : Warp → Warp) : (s.onMe f).posts = s.posts := rfl
@[simp] theorem State.onMe_trapvec (s : State) (f : Warp → Warp) : (s.onMe f).trapvec = s.trapvec := rfl
@[simp] theorem State.onMe_dbgctl (s : State) (f : Warp → Warp) : (s.onMe f).dbgctl = s.dbgctl := rfl
@[simp] theorem State.onMe_bkaddr (s : State) (f : Warp → Warp) : (s.onMe f).bkaddr = s.bkaddr := rfl
@[simp] theorem State.onMe_hfcount (s : State) (f : Warp → Warp) : (s.onMe f).hfcount = s.hfcount := rfl
@[simp] theorem State.onMe_asidtab (s : State) (f : Warp → Warp) : (s.onMe f).asidtab = s.asidtab := rfl
@[simp] theorem State.onMe_pageq (s : State) (f : Warp → Warp) : (s.onMe f).pageq = s.pageq := rfl
@[simp] theorem State.onMe_pageDb (s : State) (f : Warp → Warp) : (s.onMe f).pageDb = s.pageDb := rfl
@[simp] theorem State.onMe_pageJob (s : State) (f : Warp → Warp) : (s.onMe f).pageJob = s.pageJob := rfl
@[simp] theorem State.onMe_partcfg (s : State) (f : Warp → Warp) : (s.onMe f).partcfg = s.partcfg := rfl
@[simp] theorem State.onMe_lqbase (s : State) (f : Warp → Warp) : (s.onMe f).lqbase = s.lqbase := rfl
@[simp] theorem State.onMe_capmap (s : State) (f : Warp → Warp) : (s.onMe f).capmap = s.capmap := rfl
@[simp] theorem State.onMe_slmcarve (s : State) (f : Warp → Warp) : (s.onMe f).slmcarve = s.slmcarve := rfl
@[simp] theorem State.onMe_tilebud (s : State) (f : Warp → Warp) : (s.onMe f).tilebud = s.tilebud := rfl
@[simp] theorem State.onMe_hashmask (s : State) (f : Warp → Warp) : (s.onMe f).hashmask = s.hashmask := rfl
@[simp] theorem State.onMe_slicetab (s : State) (f : Warp → Warp) : (s.onMe f).slicetab = s.slicetab := rfl
@[simp] theorem State.onMe_hashLive (s : State) (f : Warp → Warp) : (s.onMe f).hashLive = s.hashLive := rfl
@[simp] theorem State.onMe_sliceLive (s : State) (f : Warp → Warp) : (s.onMe f).sliceLive = s.sliceLive := rfl
@[simp] theorem State.onMe_tkshare (s : State) (f : Warp → Warp) : (s.onMe f).tkshare = s.tkshare := rfl
@[simp] theorem State.onMe_engbudget (s : State) (f : Warp → Warp) : (s.onMe f).engbudget = s.engbudget := rfl
@[simp] theorem State.onMe_harvest (s : State) (f : Warp → Warp) : (s.onMe f).harvest = s.harvest := rfl
@[simp] theorem State.onMe_drcfg (s : State) (f : Warp → Warp) : (s.onMe f).drcfg = s.drcfg := rfl
@[simp] theorem State.onMe_drroute (s : State) (f : Warp → Warp) : (s.onMe f).drroute = s.drroute := rfl
@[simp] theorem State.onMe_hostwin (s : State) (f : Warp → Warp) : (s.onMe f).hostwin = s.hostwin := rfl
@[simp] theorem State.onMe_objtab (s : State) (f : Warp → Warp) : (s.onMe f).objtab = s.objtab := rfl
@[simp] theorem State.onMe_remapReg (s : State) (f : Warp → Warp) : (s.onMe f).remapReg = s.remapReg := rfl
@[simp] theorem State.onMe_pwrctl (s : State) (f : Warp → Warp) : (s.onMe f).pwrctl = s.pwrctl := rfl
@[simp] theorem State.onMe_stage (s : State) (f : Warp → Warp) : (s.onMe f).stage = s.stage := rfl
@[simp] theorem State.onMe_fail (s : State) (f : Warp → Warp) : (s.onMe f).fail = s.fail := rfl
@[simp] theorem State.onMe_trip (s : State) (f : Warp → Warp) : (s.onMe f).trip = s.trip := rfl
@[simp] theorem State.onMe_fwsvn (s : State) (f : Warp → Warp) : (s.onMe f).fwsvn = s.fwsvn := rfl
@[simp] theorem State.onMe_measurement (s : State) (f : Warp → Warp) : (s.onMe f).measurement = s.measurement := rfl
@[simp] theorem State.onMe_d3hot (s : State) (f : Warp → Warp) : (s.onMe f).d3hot = s.d3hot := rfl
@[simp] theorem State.onMe_fwHalted (s : State) (f : Warp → Warp) : (s.onMe f).fwHalted = s.fwHalted := rfl
@[simp] theorem State.onMe_gul (s : State) (f : Warp → Warp) : (s.onMe f).gul = s.gul := rfl

/-! ## `State.setTeam` changes `teams` -/

@[simp] theorem State.setTeam_now (s : State) (k : Nat) (x : Team) : (s.setTeam k x).now = s.now := rfl
@[simp] theorem State.setTeam_resetAt (s : State) (k : Nat) (x : Team) : (s.setTeam k x).resetAt = s.resetAt := rfl
@[simp] theorem State.setTeam_ph (s : State) (k : Nat) (x : Team) : (s.setTeam k x).ph = s.ph := rfl
@[simp] theorem State.setTeam_cur (s : State) (k : Nat) (x : Team) : (s.setTeam k x).cur = s.cur := rfl
@[simp] theorem State.setTeam_act (s : State) (k : Nat) (x : Team) : (s.setTeam k x).act = s.act := rfl
@[simp] theorem State.setTeam_issued (s : State) (k : Nat) (x : Team) : (s.setTeam k x).issued = s.issued := rfl
@[simp] theorem State.setTeam_ipc (s : State) (k : Nat) (x : Team) : (s.setTeam k x).ipc = s.ipc := rfl
@[simp] theorem State.setTeam_npc (s : State) (k : Nat) (x : Team) : (s.setTeam k x).npc = s.npc := rfl
@[simp] theorem State.setTeam_ev (s : State) (k : Nat) (x : Team) : (s.setTeam k x).ev = s.ev := rfl
@[simp] theorem State.setTeam_free (s : State) (k : Nat) (x : Team) : (s.setTeam k x).free = s.free := rfl
@[simp] theorem State.setTeam_seq (s : State) (k : Nat) (x : Team) : (s.setTeam k x).seq = s.seq := rfl
@[simp] theorem State.setTeam_agenda (s : State) (k : Nat) (x : Team) : (s.setTeam k x).agenda = s.agenda := rfl
@[simp] theorem State.setTeam_warps (s : State) (k : Nat) (x : Team) : (s.setTeam k x).warps = s.warps := rfl
@[simp] theorem State.setTeam_saves (s : State) (k : Nat) (x : Team) : (s.setTeam k x).saves = s.saves := rfl
@[simp] theorem State.setTeam_grids (s : State) (k : Nat) (x : Team) : (s.setTeam k x).grids = s.grids := rfl
@[simp] theorem State.setTeam_bins (s : State) (k : Nat) (x : Team) : (s.setTeam k x).bins = s.bins := rfl
@[simp] theorem State.setTeam_parts (s : State) (k : Nat) (x : Team) : (s.setTeam k x).parts = s.parts := rfl
@[simp] theorem State.setTeam_quarters (s : State) (k : Nat) (x : Team) : (s.setTeam k x).quarters = s.quarters := rfl
@[simp] theorem State.setTeam_memops (s : State) (k : Nat) (x : Team) : (s.setTeam k x).memops = s.memops := rfl
@[simp] theorem State.setTeam_reqs (s : State) (k : Nat) (x : Team) : (s.setTeam k x).reqs = s.reqs := rfl
@[simp] theorem State.setTeam_walks (s : State) (k : Nat) (x : Team) : (s.setTeam k x).walks = s.walks := rfl
@[simp] theorem State.setTeam_tlb (s : State) (k : Nat) (x : Team) : (s.setTeam k x).tlb = s.tlb := rfl
@[simp] theorem State.setTeam_l1 (s : State) (k : Nat) (x : Team) : (s.setTeam k x).l1 = s.l1 := rfl
@[simp] theorem State.setTeam_icache (s : State) (k : Nat) (x : Team) : (s.setTeam k x).icache = s.icache := rfl
@[simp] theorem State.setTeam_l2 (s : State) (k : Nat) (x : Team) : (s.setTeam k x).l2 = s.l2 := rfl
@[simp] theorem State.setTeam_filledSlices (s : State) (k : Nat) (x : Team) : (s.setTeam k x).filledSlices = s.filledSlices := rfl
@[simp] theorem State.setTeam_published (s : State) (k : Nat) (x : Team) : (s.setTeam k x).published = s.published := rfl
@[simp] theorem State.setTeam_gens (s : State) (k : Nat) (x : Team) : (s.setTeam k x).gens = s.gens := rfl
@[simp] theorem State.setTeam_poisoned (s : State) (k : Nat) (x : Team) : (s.setTeam k x).poisoned = s.poisoned := rfl
@[simp] theorem State.setTeam_dram (s : State) (k : Nat) (x : Team) : (s.setTeam k x).dram = s.dram := rfl
@[simp] theorem State.setTeam_remote (s : State) (k : Nat) (x : Team) : (s.setTeam k x).remote = s.remote := rfl
@[simp] theorem State.setTeam_codes (s : State) (k : Nat) (x : Team) : (s.setTeam k x).codes = s.codes := rfl
@[simp] theorem State.setTeam_queues (s : State) (k : Nat) (x : Team) : (s.setTeam k x).queues = s.queues := rfl
@[simp] theorem State.setTeam_lineops (s : State) (k : Nat) (x : Team) : (s.setTeam k x).lineops = s.lineops := rfl
@[simp] theorem State.setTeam_channels (s : State) (k : Nat) (x : Team) : (s.setTeam k x).channels = s.channels := rfl
@[simp] theorem State.setTeam_msgs (s : State) (k : Nat) (x : Team) : (s.setTeam k x).msgs = s.msgs := rfl
@[simp] theorem State.setTeam_xfers (s : State) (k : Nat) (x : Team) : (s.setTeam k x).xfers = s.xfers := rfl
@[simp] theorem State.setTeam_tileops (s : State) (k : Nat) (x : Team) : (s.setTeam k x).tileops = s.tileops := rfl
@[simp] theorem State.setTeam_engines (s : State) (k : Nat) (x : Team) : (s.setTeam k x).engines = s.engines := rfl
@[simp] theorem State.setTeam_sectors (s : State) (k : Nat) (x : Team) : (s.setTeam k x).sectors = s.sectors := rfl
@[simp] theorem State.setTeam_leases (s : State) (k : Nat) (x : Team) : (s.setTeam k x).leases = s.leases := rfl
@[simp] theorem State.setTeam_cmds (s : State) (k : Nat) (x : Team) : (s.setTeam k x).cmds = s.cmds := rfl
@[simp] theorem State.setTeam_tiles (s : State) (k : Nat) (x : Team) : (s.setTeam k x).tiles = s.tiles := rfl
@[simp] theorem State.setTeam_tenures (s : State) (k : Nat) (x : Team) : (s.setTeam k x).tenures = s.tenures := rfl
@[simp] theorem State.setTeam_held (s : State) (k : Nat) (x : Team) : (s.setTeam k x).held = s.held := rfl
@[simp] theorem State.setTeam_columns (s : State) (k : Nat) (x : Team) : (s.setTeam k x).columns = s.columns := rfl
@[simp] theorem State.setTeam_stackMib (s : State) (k : Nat) (x : Team) : (s.setTeam k x).stackMib = s.stackMib := rfl
@[simp] theorem State.setTeam_remaps (s : State) (k : Nat) (x : Team) : (s.setTeam k x).remaps = s.remaps := rfl
@[simp] theorem State.setTeam_buckets (s : State) (k : Nat) (x : Team) : (s.setTeam k x).buckets = s.buckets := rfl
@[simp] theorem State.setTeam_lastCharge (s : State) (k : Nat) (x : Team) : (s.setTeam k x).lastCharge = s.lastCharge := rfl
@[simp] theorem State.setTeam_refilled (s : State) (k : Nat) (x : Team) : (s.setTeam k x).refilled = s.refilled := rfl
@[simp] theorem State.setTeam_kills (s : State) (k : Nat) (x : Team) : (s.setTeam k x).kills = s.kills := rfl
@[simp] theorem State.setTeam_scan (s : State) (k : Nat) (x : Team) : (s.setTeam k x).scan = s.scan := rfl
@[simp] theorem State.setTeam_errlog (s : State) (k : Nat) (x : Team) : (s.setTeam k x).errlog = s.errlog := rfl
@[simp] theorem State.setTeam_errCorr (s : State) (k : Nat) (x : Team) : (s.setTeam k x).errCorr = s.errCorr := rfl
@[simp] theorem State.setTeam_errUncorr (s : State) (k : Nat) (x : Team) : (s.setTeam k x).errUncorr = s.errUncorr := rfl
@[simp] theorem State.setTeam_errHead (s : State) (k : Nat) (x : Team) : (s.setTeam k x).errHead = s.errHead := rfl
@[simp] theorem State.setTeam_posts (s : State) (k : Nat) (x : Team) : (s.setTeam k x).posts = s.posts := rfl
@[simp] theorem State.setTeam_trapvec (s : State) (k : Nat) (x : Team) : (s.setTeam k x).trapvec = s.trapvec := rfl
@[simp] theorem State.setTeam_dbgctl (s : State) (k : Nat) (x : Team) : (s.setTeam k x).dbgctl = s.dbgctl := rfl
@[simp] theorem State.setTeam_bkaddr (s : State) (k : Nat) (x : Team) : (s.setTeam k x).bkaddr = s.bkaddr := rfl
@[simp] theorem State.setTeam_hfcount (s : State) (k : Nat) (x : Team) : (s.setTeam k x).hfcount = s.hfcount := rfl
@[simp] theorem State.setTeam_asidtab (s : State) (k : Nat) (x : Team) : (s.setTeam k x).asidtab = s.asidtab := rfl
@[simp] theorem State.setTeam_pageq (s : State) (k : Nat) (x : Team) : (s.setTeam k x).pageq = s.pageq := rfl
@[simp] theorem State.setTeam_pageDb (s : State) (k : Nat) (x : Team) : (s.setTeam k x).pageDb = s.pageDb := rfl
@[simp] theorem State.setTeam_pageJob (s : State) (k : Nat) (x : Team) : (s.setTeam k x).pageJob = s.pageJob := rfl
@[simp] theorem State.setTeam_partcfg (s : State) (k : Nat) (x : Team) : (s.setTeam k x).partcfg = s.partcfg := rfl
@[simp] theorem State.setTeam_lqbase (s : State) (k : Nat) (x : Team) : (s.setTeam k x).lqbase = s.lqbase := rfl
@[simp] theorem State.setTeam_capmap (s : State) (k : Nat) (x : Team) : (s.setTeam k x).capmap = s.capmap := rfl
@[simp] theorem State.setTeam_slmcarve (s : State) (k : Nat) (x : Team) : (s.setTeam k x).slmcarve = s.slmcarve := rfl
@[simp] theorem State.setTeam_tilebud (s : State) (k : Nat) (x : Team) : (s.setTeam k x).tilebud = s.tilebud := rfl
@[simp] theorem State.setTeam_hashmask (s : State) (k : Nat) (x : Team) : (s.setTeam k x).hashmask = s.hashmask := rfl
@[simp] theorem State.setTeam_slicetab (s : State) (k : Nat) (x : Team) : (s.setTeam k x).slicetab = s.slicetab := rfl
@[simp] theorem State.setTeam_hashLive (s : State) (k : Nat) (x : Team) : (s.setTeam k x).hashLive = s.hashLive := rfl
@[simp] theorem State.setTeam_sliceLive (s : State) (k : Nat) (x : Team) : (s.setTeam k x).sliceLive = s.sliceLive := rfl
@[simp] theorem State.setTeam_tkshare (s : State) (k : Nat) (x : Team) : (s.setTeam k x).tkshare = s.tkshare := rfl
@[simp] theorem State.setTeam_engbudget (s : State) (k : Nat) (x : Team) : (s.setTeam k x).engbudget = s.engbudget := rfl
@[simp] theorem State.setTeam_harvest (s : State) (k : Nat) (x : Team) : (s.setTeam k x).harvest = s.harvest := rfl
@[simp] theorem State.setTeam_drcfg (s : State) (k : Nat) (x : Team) : (s.setTeam k x).drcfg = s.drcfg := rfl
@[simp] theorem State.setTeam_drroute (s : State) (k : Nat) (x : Team) : (s.setTeam k x).drroute = s.drroute := rfl
@[simp] theorem State.setTeam_hostwin (s : State) (k : Nat) (x : Team) : (s.setTeam k x).hostwin = s.hostwin := rfl
@[simp] theorem State.setTeam_objtab (s : State) (k : Nat) (x : Team) : (s.setTeam k x).objtab = s.objtab := rfl
@[simp] theorem State.setTeam_remapReg (s : State) (k : Nat) (x : Team) : (s.setTeam k x).remapReg = s.remapReg := rfl
@[simp] theorem State.setTeam_pwrctl (s : State) (k : Nat) (x : Team) : (s.setTeam k x).pwrctl = s.pwrctl := rfl
@[simp] theorem State.setTeam_stage (s : State) (k : Nat) (x : Team) : (s.setTeam k x).stage = s.stage := rfl
@[simp] theorem State.setTeam_fail (s : State) (k : Nat) (x : Team) : (s.setTeam k x).fail = s.fail := rfl
@[simp] theorem State.setTeam_trip (s : State) (k : Nat) (x : Team) : (s.setTeam k x).trip = s.trip := rfl
@[simp] theorem State.setTeam_fwsvn (s : State) (k : Nat) (x : Team) : (s.setTeam k x).fwsvn = s.fwsvn := rfl
@[simp] theorem State.setTeam_measurement (s : State) (k : Nat) (x : Team) : (s.setTeam k x).measurement = s.measurement := rfl
@[simp] theorem State.setTeam_d3hot (s : State) (k : Nat) (x : Team) : (s.setTeam k x).d3hot = s.d3hot := rfl
@[simp] theorem State.setTeam_fwHalted (s : State) (k : Nat) (x : Team) : (s.setTeam k x).fwHalted = s.fwHalted := rfl
@[simp] theorem State.setTeam_gul (s : State) (k : Nat) (x : Team) : (s.setTeam k x).gul = s.gul := rfl

/-! ## `State.onTeam` changes `teams` -/

@[simp] theorem State.onTeam_now (s : State) (k : Nat) (f : Team → Team) : (s.onTeam k f).now = s.now := rfl
@[simp] theorem State.onTeam_resetAt (s : State) (k : Nat) (f : Team → Team) : (s.onTeam k f).resetAt = s.resetAt := rfl
@[simp] theorem State.onTeam_ph (s : State) (k : Nat) (f : Team → Team) : (s.onTeam k f).ph = s.ph := rfl
@[simp] theorem State.onTeam_cur (s : State) (k : Nat) (f : Team → Team) : (s.onTeam k f).cur = s.cur := rfl
@[simp] theorem State.onTeam_act (s : State) (k : Nat) (f : Team → Team) : (s.onTeam k f).act = s.act := rfl
@[simp] theorem State.onTeam_issued (s : State) (k : Nat) (f : Team → Team) : (s.onTeam k f).issued = s.issued := rfl
@[simp] theorem State.onTeam_ipc (s : State) (k : Nat) (f : Team → Team) : (s.onTeam k f).ipc = s.ipc := rfl
@[simp] theorem State.onTeam_npc (s : State) (k : Nat) (f : Team → Team) : (s.onTeam k f).npc = s.npc := rfl
@[simp] theorem State.onTeam_ev (s : State) (k : Nat) (f : Team → Team) : (s.onTeam k f).ev = s.ev := rfl
@[simp] theorem State.onTeam_free (s : State) (k : Nat) (f : Team → Team) : (s.onTeam k f).free = s.free := rfl
@[simp] theorem State.onTeam_seq (s : State) (k : Nat) (f : Team → Team) : (s.onTeam k f).seq = s.seq := rfl
@[simp] theorem State.onTeam_agenda (s : State) (k : Nat) (f : Team → Team) : (s.onTeam k f).agenda = s.agenda := rfl
@[simp] theorem State.onTeam_warps (s : State) (k : Nat) (f : Team → Team) : (s.onTeam k f).warps = s.warps := rfl
@[simp] theorem State.onTeam_saves (s : State) (k : Nat) (f : Team → Team) : (s.onTeam k f).saves = s.saves := rfl
@[simp] theorem State.onTeam_grids (s : State) (k : Nat) (f : Team → Team) : (s.onTeam k f).grids = s.grids := rfl
@[simp] theorem State.onTeam_bins (s : State) (k : Nat) (f : Team → Team) : (s.onTeam k f).bins = s.bins := rfl
@[simp] theorem State.onTeam_parts (s : State) (k : Nat) (f : Team → Team) : (s.onTeam k f).parts = s.parts := rfl
@[simp] theorem State.onTeam_quarters (s : State) (k : Nat) (f : Team → Team) : (s.onTeam k f).quarters = s.quarters := rfl
@[simp] theorem State.onTeam_memops (s : State) (k : Nat) (f : Team → Team) : (s.onTeam k f).memops = s.memops := rfl
@[simp] theorem State.onTeam_reqs (s : State) (k : Nat) (f : Team → Team) : (s.onTeam k f).reqs = s.reqs := rfl
@[simp] theorem State.onTeam_walks (s : State) (k : Nat) (f : Team → Team) : (s.onTeam k f).walks = s.walks := rfl
@[simp] theorem State.onTeam_tlb (s : State) (k : Nat) (f : Team → Team) : (s.onTeam k f).tlb = s.tlb := rfl
@[simp] theorem State.onTeam_l1 (s : State) (k : Nat) (f : Team → Team) : (s.onTeam k f).l1 = s.l1 := rfl
@[simp] theorem State.onTeam_icache (s : State) (k : Nat) (f : Team → Team) : (s.onTeam k f).icache = s.icache := rfl
@[simp] theorem State.onTeam_l2 (s : State) (k : Nat) (f : Team → Team) : (s.onTeam k f).l2 = s.l2 := rfl
@[simp] theorem State.onTeam_filledSlices (s : State) (k : Nat) (f : Team → Team) : (s.onTeam k f).filledSlices = s.filledSlices := rfl
@[simp] theorem State.onTeam_published (s : State) (k : Nat) (f : Team → Team) : (s.onTeam k f).published = s.published := rfl
@[simp] theorem State.onTeam_gens (s : State) (k : Nat) (f : Team → Team) : (s.onTeam k f).gens = s.gens := rfl
@[simp] theorem State.onTeam_poisoned (s : State) (k : Nat) (f : Team → Team) : (s.onTeam k f).poisoned = s.poisoned := rfl
@[simp] theorem State.onTeam_dram (s : State) (k : Nat) (f : Team → Team) : (s.onTeam k f).dram = s.dram := rfl
@[simp] theorem State.onTeam_remote (s : State) (k : Nat) (f : Team → Team) : (s.onTeam k f).remote = s.remote := rfl
@[simp] theorem State.onTeam_codes (s : State) (k : Nat) (f : Team → Team) : (s.onTeam k f).codes = s.codes := rfl
@[simp] theorem State.onTeam_queues (s : State) (k : Nat) (f : Team → Team) : (s.onTeam k f).queues = s.queues := rfl
@[simp] theorem State.onTeam_lineops (s : State) (k : Nat) (f : Team → Team) : (s.onTeam k f).lineops = s.lineops := rfl
@[simp] theorem State.onTeam_channels (s : State) (k : Nat) (f : Team → Team) : (s.onTeam k f).channels = s.channels := rfl
@[simp] theorem State.onTeam_msgs (s : State) (k : Nat) (f : Team → Team) : (s.onTeam k f).msgs = s.msgs := rfl
@[simp] theorem State.onTeam_xfers (s : State) (k : Nat) (f : Team → Team) : (s.onTeam k f).xfers = s.xfers := rfl
@[simp] theorem State.onTeam_tileops (s : State) (k : Nat) (f : Team → Team) : (s.onTeam k f).tileops = s.tileops := rfl
@[simp] theorem State.onTeam_engines (s : State) (k : Nat) (f : Team → Team) : (s.onTeam k f).engines = s.engines := rfl
@[simp] theorem State.onTeam_sectors (s : State) (k : Nat) (f : Team → Team) : (s.onTeam k f).sectors = s.sectors := rfl
@[simp] theorem State.onTeam_leases (s : State) (k : Nat) (f : Team → Team) : (s.onTeam k f).leases = s.leases := rfl
@[simp] theorem State.onTeam_cmds (s : State) (k : Nat) (f : Team → Team) : (s.onTeam k f).cmds = s.cmds := rfl
@[simp] theorem State.onTeam_tiles (s : State) (k : Nat) (f : Team → Team) : (s.onTeam k f).tiles = s.tiles := rfl
@[simp] theorem State.onTeam_tenures (s : State) (k : Nat) (f : Team → Team) : (s.onTeam k f).tenures = s.tenures := rfl
@[simp] theorem State.onTeam_held (s : State) (k : Nat) (f : Team → Team) : (s.onTeam k f).held = s.held := rfl
@[simp] theorem State.onTeam_columns (s : State) (k : Nat) (f : Team → Team) : (s.onTeam k f).columns = s.columns := rfl
@[simp] theorem State.onTeam_stackMib (s : State) (k : Nat) (f : Team → Team) : (s.onTeam k f).stackMib = s.stackMib := rfl
@[simp] theorem State.onTeam_remaps (s : State) (k : Nat) (f : Team → Team) : (s.onTeam k f).remaps = s.remaps := rfl
@[simp] theorem State.onTeam_buckets (s : State) (k : Nat) (f : Team → Team) : (s.onTeam k f).buckets = s.buckets := rfl
@[simp] theorem State.onTeam_lastCharge (s : State) (k : Nat) (f : Team → Team) : (s.onTeam k f).lastCharge = s.lastCharge := rfl
@[simp] theorem State.onTeam_refilled (s : State) (k : Nat) (f : Team → Team) : (s.onTeam k f).refilled = s.refilled := rfl
@[simp] theorem State.onTeam_kills (s : State) (k : Nat) (f : Team → Team) : (s.onTeam k f).kills = s.kills := rfl
@[simp] theorem State.onTeam_scan (s : State) (k : Nat) (f : Team → Team) : (s.onTeam k f).scan = s.scan := rfl
@[simp] theorem State.onTeam_errlog (s : State) (k : Nat) (f : Team → Team) : (s.onTeam k f).errlog = s.errlog := rfl
@[simp] theorem State.onTeam_errCorr (s : State) (k : Nat) (f : Team → Team) : (s.onTeam k f).errCorr = s.errCorr := rfl
@[simp] theorem State.onTeam_errUncorr (s : State) (k : Nat) (f : Team → Team) : (s.onTeam k f).errUncorr = s.errUncorr := rfl
@[simp] theorem State.onTeam_errHead (s : State) (k : Nat) (f : Team → Team) : (s.onTeam k f).errHead = s.errHead := rfl
@[simp] theorem State.onTeam_posts (s : State) (k : Nat) (f : Team → Team) : (s.onTeam k f).posts = s.posts := rfl
@[simp] theorem State.onTeam_trapvec (s : State) (k : Nat) (f : Team → Team) : (s.onTeam k f).trapvec = s.trapvec := rfl
@[simp] theorem State.onTeam_dbgctl (s : State) (k : Nat) (f : Team → Team) : (s.onTeam k f).dbgctl = s.dbgctl := rfl
@[simp] theorem State.onTeam_bkaddr (s : State) (k : Nat) (f : Team → Team) : (s.onTeam k f).bkaddr = s.bkaddr := rfl
@[simp] theorem State.onTeam_hfcount (s : State) (k : Nat) (f : Team → Team) : (s.onTeam k f).hfcount = s.hfcount := rfl
@[simp] theorem State.onTeam_asidtab (s : State) (k : Nat) (f : Team → Team) : (s.onTeam k f).asidtab = s.asidtab := rfl
@[simp] theorem State.onTeam_pageq (s : State) (k : Nat) (f : Team → Team) : (s.onTeam k f).pageq = s.pageq := rfl
@[simp] theorem State.onTeam_pageDb (s : State) (k : Nat) (f : Team → Team) : (s.onTeam k f).pageDb = s.pageDb := rfl
@[simp] theorem State.onTeam_pageJob (s : State) (k : Nat) (f : Team → Team) : (s.onTeam k f).pageJob = s.pageJob := rfl
@[simp] theorem State.onTeam_partcfg (s : State) (k : Nat) (f : Team → Team) : (s.onTeam k f).partcfg = s.partcfg := rfl
@[simp] theorem State.onTeam_lqbase (s : State) (k : Nat) (f : Team → Team) : (s.onTeam k f).lqbase = s.lqbase := rfl
@[simp] theorem State.onTeam_capmap (s : State) (k : Nat) (f : Team → Team) : (s.onTeam k f).capmap = s.capmap := rfl
@[simp] theorem State.onTeam_slmcarve (s : State) (k : Nat) (f : Team → Team) : (s.onTeam k f).slmcarve = s.slmcarve := rfl
@[simp] theorem State.onTeam_tilebud (s : State) (k : Nat) (f : Team → Team) : (s.onTeam k f).tilebud = s.tilebud := rfl
@[simp] theorem State.onTeam_hashmask (s : State) (k : Nat) (f : Team → Team) : (s.onTeam k f).hashmask = s.hashmask := rfl
@[simp] theorem State.onTeam_slicetab (s : State) (k : Nat) (f : Team → Team) : (s.onTeam k f).slicetab = s.slicetab := rfl
@[simp] theorem State.onTeam_hashLive (s : State) (k : Nat) (f : Team → Team) : (s.onTeam k f).hashLive = s.hashLive := rfl
@[simp] theorem State.onTeam_sliceLive (s : State) (k : Nat) (f : Team → Team) : (s.onTeam k f).sliceLive = s.sliceLive := rfl
@[simp] theorem State.onTeam_tkshare (s : State) (k : Nat) (f : Team → Team) : (s.onTeam k f).tkshare = s.tkshare := rfl
@[simp] theorem State.onTeam_engbudget (s : State) (k : Nat) (f : Team → Team) : (s.onTeam k f).engbudget = s.engbudget := rfl
@[simp] theorem State.onTeam_harvest (s : State) (k : Nat) (f : Team → Team) : (s.onTeam k f).harvest = s.harvest := rfl
@[simp] theorem State.onTeam_drcfg (s : State) (k : Nat) (f : Team → Team) : (s.onTeam k f).drcfg = s.drcfg := rfl
@[simp] theorem State.onTeam_drroute (s : State) (k : Nat) (f : Team → Team) : (s.onTeam k f).drroute = s.drroute := rfl
@[simp] theorem State.onTeam_hostwin (s : State) (k : Nat) (f : Team → Team) : (s.onTeam k f).hostwin = s.hostwin := rfl
@[simp] theorem State.onTeam_objtab (s : State) (k : Nat) (f : Team → Team) : (s.onTeam k f).objtab = s.objtab := rfl
@[simp] theorem State.onTeam_remapReg (s : State) (k : Nat) (f : Team → Team) : (s.onTeam k f).remapReg = s.remapReg := rfl
@[simp] theorem State.onTeam_pwrctl (s : State) (k : Nat) (f : Team → Team) : (s.onTeam k f).pwrctl = s.pwrctl := rfl
@[simp] theorem State.onTeam_stage (s : State) (k : Nat) (f : Team → Team) : (s.onTeam k f).stage = s.stage := rfl
@[simp] theorem State.onTeam_fail (s : State) (k : Nat) (f : Team → Team) : (s.onTeam k f).fail = s.fail := rfl
@[simp] theorem State.onTeam_trip (s : State) (k : Nat) (f : Team → Team) : (s.onTeam k f).trip = s.trip := rfl
@[simp] theorem State.onTeam_fwsvn (s : State) (k : Nat) (f : Team → Team) : (s.onTeam k f).fwsvn = s.fwsvn := rfl
@[simp] theorem State.onTeam_measurement (s : State) (k : Nat) (f : Team → Team) : (s.onTeam k f).measurement = s.measurement := rfl
@[simp] theorem State.onTeam_d3hot (s : State) (k : Nat) (f : Team → Team) : (s.onTeam k f).d3hot = s.d3hot := rfl
@[simp] theorem State.onTeam_fwHalted (s : State) (k : Nat) (f : Team → Team) : (s.onTeam k f).fwHalted = s.fwHalted := rfl
@[simp] theorem State.onTeam_gul (s : State) (k : Nat) (f : Team → Team) : (s.onTeam k f).gul = s.gul := rfl

/-! ## `State.onMyTeam` changes `teams` -/

@[simp] theorem State.onMyTeam_now (s : State) (f : Team → Team) : (s.onMyTeam f).now = s.now := rfl
@[simp] theorem State.onMyTeam_resetAt (s : State) (f : Team → Team) : (s.onMyTeam f).resetAt = s.resetAt := rfl
@[simp] theorem State.onMyTeam_ph (s : State) (f : Team → Team) : (s.onMyTeam f).ph = s.ph := rfl
@[simp] theorem State.onMyTeam_cur (s : State) (f : Team → Team) : (s.onMyTeam f).cur = s.cur := rfl
@[simp] theorem State.onMyTeam_act (s : State) (f : Team → Team) : (s.onMyTeam f).act = s.act := rfl
@[simp] theorem State.onMyTeam_issued (s : State) (f : Team → Team) : (s.onMyTeam f).issued = s.issued := rfl
@[simp] theorem State.onMyTeam_ipc (s : State) (f : Team → Team) : (s.onMyTeam f).ipc = s.ipc := rfl
@[simp] theorem State.onMyTeam_npc (s : State) (f : Team → Team) : (s.onMyTeam f).npc = s.npc := rfl
@[simp] theorem State.onMyTeam_ev (s : State) (f : Team → Team) : (s.onMyTeam f).ev = s.ev := rfl
@[simp] theorem State.onMyTeam_free (s : State) (f : Team → Team) : (s.onMyTeam f).free = s.free := rfl
@[simp] theorem State.onMyTeam_seq (s : State) (f : Team → Team) : (s.onMyTeam f).seq = s.seq := rfl
@[simp] theorem State.onMyTeam_agenda (s : State) (f : Team → Team) : (s.onMyTeam f).agenda = s.agenda := rfl
@[simp] theorem State.onMyTeam_warps (s : State) (f : Team → Team) : (s.onMyTeam f).warps = s.warps := rfl
@[simp] theorem State.onMyTeam_saves (s : State) (f : Team → Team) : (s.onMyTeam f).saves = s.saves := rfl
@[simp] theorem State.onMyTeam_grids (s : State) (f : Team → Team) : (s.onMyTeam f).grids = s.grids := rfl
@[simp] theorem State.onMyTeam_bins (s : State) (f : Team → Team) : (s.onMyTeam f).bins = s.bins := rfl
@[simp] theorem State.onMyTeam_parts (s : State) (f : Team → Team) : (s.onMyTeam f).parts = s.parts := rfl
@[simp] theorem State.onMyTeam_quarters (s : State) (f : Team → Team) : (s.onMyTeam f).quarters = s.quarters := rfl
@[simp] theorem State.onMyTeam_memops (s : State) (f : Team → Team) : (s.onMyTeam f).memops = s.memops := rfl
@[simp] theorem State.onMyTeam_reqs (s : State) (f : Team → Team) : (s.onMyTeam f).reqs = s.reqs := rfl
@[simp] theorem State.onMyTeam_walks (s : State) (f : Team → Team) : (s.onMyTeam f).walks = s.walks := rfl
@[simp] theorem State.onMyTeam_tlb (s : State) (f : Team → Team) : (s.onMyTeam f).tlb = s.tlb := rfl
@[simp] theorem State.onMyTeam_l1 (s : State) (f : Team → Team) : (s.onMyTeam f).l1 = s.l1 := rfl
@[simp] theorem State.onMyTeam_icache (s : State) (f : Team → Team) : (s.onMyTeam f).icache = s.icache := rfl
@[simp] theorem State.onMyTeam_l2 (s : State) (f : Team → Team) : (s.onMyTeam f).l2 = s.l2 := rfl
@[simp] theorem State.onMyTeam_filledSlices (s : State) (f : Team → Team) : (s.onMyTeam f).filledSlices = s.filledSlices := rfl
@[simp] theorem State.onMyTeam_published (s : State) (f : Team → Team) : (s.onMyTeam f).published = s.published := rfl
@[simp] theorem State.onMyTeam_gens (s : State) (f : Team → Team) : (s.onMyTeam f).gens = s.gens := rfl
@[simp] theorem State.onMyTeam_poisoned (s : State) (f : Team → Team) : (s.onMyTeam f).poisoned = s.poisoned := rfl
@[simp] theorem State.onMyTeam_dram (s : State) (f : Team → Team) : (s.onMyTeam f).dram = s.dram := rfl
@[simp] theorem State.onMyTeam_remote (s : State) (f : Team → Team) : (s.onMyTeam f).remote = s.remote := rfl
@[simp] theorem State.onMyTeam_codes (s : State) (f : Team → Team) : (s.onMyTeam f).codes = s.codes := rfl
@[simp] theorem State.onMyTeam_queues (s : State) (f : Team → Team) : (s.onMyTeam f).queues = s.queues := rfl
@[simp] theorem State.onMyTeam_lineops (s : State) (f : Team → Team) : (s.onMyTeam f).lineops = s.lineops := rfl
@[simp] theorem State.onMyTeam_channels (s : State) (f : Team → Team) : (s.onMyTeam f).channels = s.channels := rfl
@[simp] theorem State.onMyTeam_msgs (s : State) (f : Team → Team) : (s.onMyTeam f).msgs = s.msgs := rfl
@[simp] theorem State.onMyTeam_xfers (s : State) (f : Team → Team) : (s.onMyTeam f).xfers = s.xfers := rfl
@[simp] theorem State.onMyTeam_tileops (s : State) (f : Team → Team) : (s.onMyTeam f).tileops = s.tileops := rfl
@[simp] theorem State.onMyTeam_engines (s : State) (f : Team → Team) : (s.onMyTeam f).engines = s.engines := rfl
@[simp] theorem State.onMyTeam_sectors (s : State) (f : Team → Team) : (s.onMyTeam f).sectors = s.sectors := rfl
@[simp] theorem State.onMyTeam_leases (s : State) (f : Team → Team) : (s.onMyTeam f).leases = s.leases := rfl
@[simp] theorem State.onMyTeam_cmds (s : State) (f : Team → Team) : (s.onMyTeam f).cmds = s.cmds := rfl
@[simp] theorem State.onMyTeam_tiles (s : State) (f : Team → Team) : (s.onMyTeam f).tiles = s.tiles := rfl
@[simp] theorem State.onMyTeam_tenures (s : State) (f : Team → Team) : (s.onMyTeam f).tenures = s.tenures := rfl
@[simp] theorem State.onMyTeam_held (s : State) (f : Team → Team) : (s.onMyTeam f).held = s.held := rfl
@[simp] theorem State.onMyTeam_columns (s : State) (f : Team → Team) : (s.onMyTeam f).columns = s.columns := rfl
@[simp] theorem State.onMyTeam_stackMib (s : State) (f : Team → Team) : (s.onMyTeam f).stackMib = s.stackMib := rfl
@[simp] theorem State.onMyTeam_remaps (s : State) (f : Team → Team) : (s.onMyTeam f).remaps = s.remaps := rfl
@[simp] theorem State.onMyTeam_buckets (s : State) (f : Team → Team) : (s.onMyTeam f).buckets = s.buckets := rfl
@[simp] theorem State.onMyTeam_lastCharge (s : State) (f : Team → Team) : (s.onMyTeam f).lastCharge = s.lastCharge := rfl
@[simp] theorem State.onMyTeam_refilled (s : State) (f : Team → Team) : (s.onMyTeam f).refilled = s.refilled := rfl
@[simp] theorem State.onMyTeam_kills (s : State) (f : Team → Team) : (s.onMyTeam f).kills = s.kills := rfl
@[simp] theorem State.onMyTeam_scan (s : State) (f : Team → Team) : (s.onMyTeam f).scan = s.scan := rfl
@[simp] theorem State.onMyTeam_errlog (s : State) (f : Team → Team) : (s.onMyTeam f).errlog = s.errlog := rfl
@[simp] theorem State.onMyTeam_errCorr (s : State) (f : Team → Team) : (s.onMyTeam f).errCorr = s.errCorr := rfl
@[simp] theorem State.onMyTeam_errUncorr (s : State) (f : Team → Team) : (s.onMyTeam f).errUncorr = s.errUncorr := rfl
@[simp] theorem State.onMyTeam_errHead (s : State) (f : Team → Team) : (s.onMyTeam f).errHead = s.errHead := rfl
@[simp] theorem State.onMyTeam_posts (s : State) (f : Team → Team) : (s.onMyTeam f).posts = s.posts := rfl
@[simp] theorem State.onMyTeam_trapvec (s : State) (f : Team → Team) : (s.onMyTeam f).trapvec = s.trapvec := rfl
@[simp] theorem State.onMyTeam_dbgctl (s : State) (f : Team → Team) : (s.onMyTeam f).dbgctl = s.dbgctl := rfl
@[simp] theorem State.onMyTeam_bkaddr (s : State) (f : Team → Team) : (s.onMyTeam f).bkaddr = s.bkaddr := rfl
@[simp] theorem State.onMyTeam_hfcount (s : State) (f : Team → Team) : (s.onMyTeam f).hfcount = s.hfcount := rfl
@[simp] theorem State.onMyTeam_asidtab (s : State) (f : Team → Team) : (s.onMyTeam f).asidtab = s.asidtab := rfl
@[simp] theorem State.onMyTeam_pageq (s : State) (f : Team → Team) : (s.onMyTeam f).pageq = s.pageq := rfl
@[simp] theorem State.onMyTeam_pageDb (s : State) (f : Team → Team) : (s.onMyTeam f).pageDb = s.pageDb := rfl
@[simp] theorem State.onMyTeam_pageJob (s : State) (f : Team → Team) : (s.onMyTeam f).pageJob = s.pageJob := rfl
@[simp] theorem State.onMyTeam_partcfg (s : State) (f : Team → Team) : (s.onMyTeam f).partcfg = s.partcfg := rfl
@[simp] theorem State.onMyTeam_lqbase (s : State) (f : Team → Team) : (s.onMyTeam f).lqbase = s.lqbase := rfl
@[simp] theorem State.onMyTeam_capmap (s : State) (f : Team → Team) : (s.onMyTeam f).capmap = s.capmap := rfl
@[simp] theorem State.onMyTeam_slmcarve (s : State) (f : Team → Team) : (s.onMyTeam f).slmcarve = s.slmcarve := rfl
@[simp] theorem State.onMyTeam_tilebud (s : State) (f : Team → Team) : (s.onMyTeam f).tilebud = s.tilebud := rfl
@[simp] theorem State.onMyTeam_hashmask (s : State) (f : Team → Team) : (s.onMyTeam f).hashmask = s.hashmask := rfl
@[simp] theorem State.onMyTeam_slicetab (s : State) (f : Team → Team) : (s.onMyTeam f).slicetab = s.slicetab := rfl
@[simp] theorem State.onMyTeam_hashLive (s : State) (f : Team → Team) : (s.onMyTeam f).hashLive = s.hashLive := rfl
@[simp] theorem State.onMyTeam_sliceLive (s : State) (f : Team → Team) : (s.onMyTeam f).sliceLive = s.sliceLive := rfl
@[simp] theorem State.onMyTeam_tkshare (s : State) (f : Team → Team) : (s.onMyTeam f).tkshare = s.tkshare := rfl
@[simp] theorem State.onMyTeam_engbudget (s : State) (f : Team → Team) : (s.onMyTeam f).engbudget = s.engbudget := rfl
@[simp] theorem State.onMyTeam_harvest (s : State) (f : Team → Team) : (s.onMyTeam f).harvest = s.harvest := rfl
@[simp] theorem State.onMyTeam_drcfg (s : State) (f : Team → Team) : (s.onMyTeam f).drcfg = s.drcfg := rfl
@[simp] theorem State.onMyTeam_drroute (s : State) (f : Team → Team) : (s.onMyTeam f).drroute = s.drroute := rfl
@[simp] theorem State.onMyTeam_hostwin (s : State) (f : Team → Team) : (s.onMyTeam f).hostwin = s.hostwin := rfl
@[simp] theorem State.onMyTeam_objtab (s : State) (f : Team → Team) : (s.onMyTeam f).objtab = s.objtab := rfl
@[simp] theorem State.onMyTeam_remapReg (s : State) (f : Team → Team) : (s.onMyTeam f).remapReg = s.remapReg := rfl
@[simp] theorem State.onMyTeam_pwrctl (s : State) (f : Team → Team) : (s.onMyTeam f).pwrctl = s.pwrctl := rfl
@[simp] theorem State.onMyTeam_stage (s : State) (f : Team → Team) : (s.onMyTeam f).stage = s.stage := rfl
@[simp] theorem State.onMyTeam_fail (s : State) (f : Team → Team) : (s.onMyTeam f).fail = s.fail := rfl
@[simp] theorem State.onMyTeam_trip (s : State) (f : Team → Team) : (s.onMyTeam f).trip = s.trip := rfl
@[simp] theorem State.onMyTeam_fwsvn (s : State) (f : Team → Team) : (s.onMyTeam f).fwsvn = s.fwsvn := rfl
@[simp] theorem State.onMyTeam_measurement (s : State) (f : Team → Team) : (s.onMyTeam f).measurement = s.measurement := rfl
@[simp] theorem State.onMyTeam_d3hot (s : State) (f : Team → Team) : (s.onMyTeam f).d3hot = s.d3hot := rfl
@[simp] theorem State.onMyTeam_fwHalted (s : State) (f : Team → Team) : (s.onMyTeam f).fwHalted = s.fwHalted := rfl
@[simp] theorem State.onMyTeam_gul (s : State) (f : Team → Team) : (s.onMyTeam f).gul = s.gul := rfl

/-! ## `State.onPart` changes `parts` -/

@[simp] theorem State.onPart_now (s : State) (p : Nat) (f : Part → Part) : (s.onPart p f).now = s.now := rfl
@[simp] theorem State.onPart_resetAt (s : State) (p : Nat) (f : Part → Part) : (s.onPart p f).resetAt = s.resetAt := rfl
@[simp] theorem State.onPart_ph (s : State) (p : Nat) (f : Part → Part) : (s.onPart p f).ph = s.ph := rfl
@[simp] theorem State.onPart_cur (s : State) (p : Nat) (f : Part → Part) : (s.onPart p f).cur = s.cur := rfl
@[simp] theorem State.onPart_act (s : State) (p : Nat) (f : Part → Part) : (s.onPart p f).act = s.act := rfl
@[simp] theorem State.onPart_issued (s : State) (p : Nat) (f : Part → Part) : (s.onPart p f).issued = s.issued := rfl
@[simp] theorem State.onPart_ipc (s : State) (p : Nat) (f : Part → Part) : (s.onPart p f).ipc = s.ipc := rfl
@[simp] theorem State.onPart_npc (s : State) (p : Nat) (f : Part → Part) : (s.onPart p f).npc = s.npc := rfl
@[simp] theorem State.onPart_ev (s : State) (p : Nat) (f : Part → Part) : (s.onPart p f).ev = s.ev := rfl
@[simp] theorem State.onPart_free (s : State) (p : Nat) (f : Part → Part) : (s.onPart p f).free = s.free := rfl
@[simp] theorem State.onPart_seq (s : State) (p : Nat) (f : Part → Part) : (s.onPart p f).seq = s.seq := rfl
@[simp] theorem State.onPart_agenda (s : State) (p : Nat) (f : Part → Part) : (s.onPart p f).agenda = s.agenda := rfl
@[simp] theorem State.onPart_warps (s : State) (p : Nat) (f : Part → Part) : (s.onPart p f).warps = s.warps := rfl
@[simp] theorem State.onPart_teams (s : State) (p : Nat) (f : Part → Part) : (s.onPart p f).teams = s.teams := rfl
@[simp] theorem State.onPart_saves (s : State) (p : Nat) (f : Part → Part) : (s.onPart p f).saves = s.saves := rfl
@[simp] theorem State.onPart_grids (s : State) (p : Nat) (f : Part → Part) : (s.onPart p f).grids = s.grids := rfl
@[simp] theorem State.onPart_bins (s : State) (p : Nat) (f : Part → Part) : (s.onPart p f).bins = s.bins := rfl
@[simp] theorem State.onPart_quarters (s : State) (p : Nat) (f : Part → Part) : (s.onPart p f).quarters = s.quarters := rfl
@[simp] theorem State.onPart_memops (s : State) (p : Nat) (f : Part → Part) : (s.onPart p f).memops = s.memops := rfl
@[simp] theorem State.onPart_reqs (s : State) (p : Nat) (f : Part → Part) : (s.onPart p f).reqs = s.reqs := rfl
@[simp] theorem State.onPart_walks (s : State) (p : Nat) (f : Part → Part) : (s.onPart p f).walks = s.walks := rfl
@[simp] theorem State.onPart_tlb (s : State) (p : Nat) (f : Part → Part) : (s.onPart p f).tlb = s.tlb := rfl
@[simp] theorem State.onPart_l1 (s : State) (p : Nat) (f : Part → Part) : (s.onPart p f).l1 = s.l1 := rfl
@[simp] theorem State.onPart_icache (s : State) (p : Nat) (f : Part → Part) : (s.onPart p f).icache = s.icache := rfl
@[simp] theorem State.onPart_l2 (s : State) (p : Nat) (f : Part → Part) : (s.onPart p f).l2 = s.l2 := rfl
@[simp] theorem State.onPart_filledSlices (s : State) (p : Nat) (f : Part → Part) : (s.onPart p f).filledSlices = s.filledSlices := rfl
@[simp] theorem State.onPart_published (s : State) (p : Nat) (f : Part → Part) : (s.onPart p f).published = s.published := rfl
@[simp] theorem State.onPart_gens (s : State) (p : Nat) (f : Part → Part) : (s.onPart p f).gens = s.gens := rfl
@[simp] theorem State.onPart_poisoned (s : State) (p : Nat) (f : Part → Part) : (s.onPart p f).poisoned = s.poisoned := rfl
@[simp] theorem State.onPart_dram (s : State) (p : Nat) (f : Part → Part) : (s.onPart p f).dram = s.dram := rfl
@[simp] theorem State.onPart_remote (s : State) (p : Nat) (f : Part → Part) : (s.onPart p f).remote = s.remote := rfl
@[simp] theorem State.onPart_codes (s : State) (p : Nat) (f : Part → Part) : (s.onPart p f).codes = s.codes := rfl
@[simp] theorem State.onPart_queues (s : State) (p : Nat) (f : Part → Part) : (s.onPart p f).queues = s.queues := rfl
@[simp] theorem State.onPart_lineops (s : State) (p : Nat) (f : Part → Part) : (s.onPart p f).lineops = s.lineops := rfl
@[simp] theorem State.onPart_channels (s : State) (p : Nat) (f : Part → Part) : (s.onPart p f).channels = s.channels := rfl
@[simp] theorem State.onPart_msgs (s : State) (p : Nat) (f : Part → Part) : (s.onPart p f).msgs = s.msgs := rfl
@[simp] theorem State.onPart_xfers (s : State) (p : Nat) (f : Part → Part) : (s.onPart p f).xfers = s.xfers := rfl
@[simp] theorem State.onPart_tileops (s : State) (p : Nat) (f : Part → Part) : (s.onPart p f).tileops = s.tileops := rfl
@[simp] theorem State.onPart_engines (s : State) (p : Nat) (f : Part → Part) : (s.onPart p f).engines = s.engines := rfl
@[simp] theorem State.onPart_sectors (s : State) (p : Nat) (f : Part → Part) : (s.onPart p f).sectors = s.sectors := rfl
@[simp] theorem State.onPart_leases (s : State) (p : Nat) (f : Part → Part) : (s.onPart p f).leases = s.leases := rfl
@[simp] theorem State.onPart_cmds (s : State) (p : Nat) (f : Part → Part) : (s.onPart p f).cmds = s.cmds := rfl
@[simp] theorem State.onPart_tiles (s : State) (p : Nat) (f : Part → Part) : (s.onPart p f).tiles = s.tiles := rfl
@[simp] theorem State.onPart_tenures (s : State) (p : Nat) (f : Part → Part) : (s.onPart p f).tenures = s.tenures := rfl
@[simp] theorem State.onPart_held (s : State) (p : Nat) (f : Part → Part) : (s.onPart p f).held = s.held := rfl
@[simp] theorem State.onPart_columns (s : State) (p : Nat) (f : Part → Part) : (s.onPart p f).columns = s.columns := rfl
@[simp] theorem State.onPart_stackMib (s : State) (p : Nat) (f : Part → Part) : (s.onPart p f).stackMib = s.stackMib := rfl
@[simp] theorem State.onPart_remaps (s : State) (p : Nat) (f : Part → Part) : (s.onPart p f).remaps = s.remaps := rfl
@[simp] theorem State.onPart_buckets (s : State) (p : Nat) (f : Part → Part) : (s.onPart p f).buckets = s.buckets := rfl
@[simp] theorem State.onPart_lastCharge (s : State) (p : Nat) (f : Part → Part) : (s.onPart p f).lastCharge = s.lastCharge := rfl
@[simp] theorem State.onPart_refilled (s : State) (p : Nat) (f : Part → Part) : (s.onPart p f).refilled = s.refilled := rfl
@[simp] theorem State.onPart_kills (s : State) (p : Nat) (f : Part → Part) : (s.onPart p f).kills = s.kills := rfl
@[simp] theorem State.onPart_scan (s : State) (p : Nat) (f : Part → Part) : (s.onPart p f).scan = s.scan := rfl
@[simp] theorem State.onPart_errlog (s : State) (p : Nat) (f : Part → Part) : (s.onPart p f).errlog = s.errlog := rfl
@[simp] theorem State.onPart_errCorr (s : State) (p : Nat) (f : Part → Part) : (s.onPart p f).errCorr = s.errCorr := rfl
@[simp] theorem State.onPart_errUncorr (s : State) (p : Nat) (f : Part → Part) : (s.onPart p f).errUncorr = s.errUncorr := rfl
@[simp] theorem State.onPart_errHead (s : State) (p : Nat) (f : Part → Part) : (s.onPart p f).errHead = s.errHead := rfl
@[simp] theorem State.onPart_posts (s : State) (p : Nat) (f : Part → Part) : (s.onPart p f).posts = s.posts := rfl
@[simp] theorem State.onPart_trapvec (s : State) (p : Nat) (f : Part → Part) : (s.onPart p f).trapvec = s.trapvec := rfl
@[simp] theorem State.onPart_dbgctl (s : State) (p : Nat) (f : Part → Part) : (s.onPart p f).dbgctl = s.dbgctl := rfl
@[simp] theorem State.onPart_bkaddr (s : State) (p : Nat) (f : Part → Part) : (s.onPart p f).bkaddr = s.bkaddr := rfl
@[simp] theorem State.onPart_hfcount (s : State) (p : Nat) (f : Part → Part) : (s.onPart p f).hfcount = s.hfcount := rfl
@[simp] theorem State.onPart_asidtab (s : State) (p : Nat) (f : Part → Part) : (s.onPart p f).asidtab = s.asidtab := rfl
@[simp] theorem State.onPart_pageq (s : State) (p : Nat) (f : Part → Part) : (s.onPart p f).pageq = s.pageq := rfl
@[simp] theorem State.onPart_pageDb (s : State) (p : Nat) (f : Part → Part) : (s.onPart p f).pageDb = s.pageDb := rfl
@[simp] theorem State.onPart_pageJob (s : State) (p : Nat) (f : Part → Part) : (s.onPart p f).pageJob = s.pageJob := rfl
@[simp] theorem State.onPart_partcfg (s : State) (p : Nat) (f : Part → Part) : (s.onPart p f).partcfg = s.partcfg := rfl
@[simp] theorem State.onPart_lqbase (s : State) (p : Nat) (f : Part → Part) : (s.onPart p f).lqbase = s.lqbase := rfl
@[simp] theorem State.onPart_capmap (s : State) (p : Nat) (f : Part → Part) : (s.onPart p f).capmap = s.capmap := rfl
@[simp] theorem State.onPart_slmcarve (s : State) (p : Nat) (f : Part → Part) : (s.onPart p f).slmcarve = s.slmcarve := rfl
@[simp] theorem State.onPart_tilebud (s : State) (p : Nat) (f : Part → Part) : (s.onPart p f).tilebud = s.tilebud := rfl
@[simp] theorem State.onPart_hashmask (s : State) (p : Nat) (f : Part → Part) : (s.onPart p f).hashmask = s.hashmask := rfl
@[simp] theorem State.onPart_slicetab (s : State) (p : Nat) (f : Part → Part) : (s.onPart p f).slicetab = s.slicetab := rfl
@[simp] theorem State.onPart_hashLive (s : State) (p : Nat) (f : Part → Part) : (s.onPart p f).hashLive = s.hashLive := rfl
@[simp] theorem State.onPart_sliceLive (s : State) (p : Nat) (f : Part → Part) : (s.onPart p f).sliceLive = s.sliceLive := rfl
@[simp] theorem State.onPart_tkshare (s : State) (p : Nat) (f : Part → Part) : (s.onPart p f).tkshare = s.tkshare := rfl
@[simp] theorem State.onPart_engbudget (s : State) (p : Nat) (f : Part → Part) : (s.onPart p f).engbudget = s.engbudget := rfl
@[simp] theorem State.onPart_harvest (s : State) (p : Nat) (f : Part → Part) : (s.onPart p f).harvest = s.harvest := rfl
@[simp] theorem State.onPart_drcfg (s : State) (p : Nat) (f : Part → Part) : (s.onPart p f).drcfg = s.drcfg := rfl
@[simp] theorem State.onPart_drroute (s : State) (p : Nat) (f : Part → Part) : (s.onPart p f).drroute = s.drroute := rfl
@[simp] theorem State.onPart_hostwin (s : State) (p : Nat) (f : Part → Part) : (s.onPart p f).hostwin = s.hostwin := rfl
@[simp] theorem State.onPart_objtab (s : State) (p : Nat) (f : Part → Part) : (s.onPart p f).objtab = s.objtab := rfl
@[simp] theorem State.onPart_remapReg (s : State) (p : Nat) (f : Part → Part) : (s.onPart p f).remapReg = s.remapReg := rfl
@[simp] theorem State.onPart_pwrctl (s : State) (p : Nat) (f : Part → Part) : (s.onPart p f).pwrctl = s.pwrctl := rfl
@[simp] theorem State.onPart_stage (s : State) (p : Nat) (f : Part → Part) : (s.onPart p f).stage = s.stage := rfl
@[simp] theorem State.onPart_fail (s : State) (p : Nat) (f : Part → Part) : (s.onPart p f).fail = s.fail := rfl
@[simp] theorem State.onPart_trip (s : State) (p : Nat) (f : Part → Part) : (s.onPart p f).trip = s.trip := rfl
@[simp] theorem State.onPart_fwsvn (s : State) (p : Nat) (f : Part → Part) : (s.onPart p f).fwsvn = s.fwsvn := rfl
@[simp] theorem State.onPart_measurement (s : State) (p : Nat) (f : Part → Part) : (s.onPart p f).measurement = s.measurement := rfl
@[simp] theorem State.onPart_d3hot (s : State) (p : Nat) (f : Part → Part) : (s.onPart p f).d3hot = s.d3hot := rfl
@[simp] theorem State.onPart_fwHalted (s : State) (p : Nat) (f : Part → Part) : (s.onPart p f).fwHalted = s.fwHalted := rfl
@[simp] theorem State.onPart_gul (s : State) (p : Nat) (f : Part → Part) : (s.onPart p f).gul = s.gul := rfl

/-! ## `State.onGrid` changes `grids` -/

@[simp] theorem State.onGrid_now (s : State) (g : Nat) (f : Grid → Grid) : (s.onGrid g f).now = s.now := rfl
@[simp] theorem State.onGrid_resetAt (s : State) (g : Nat) (f : Grid → Grid) : (s.onGrid g f).resetAt = s.resetAt := rfl
@[simp] theorem State.onGrid_ph (s : State) (g : Nat) (f : Grid → Grid) : (s.onGrid g f).ph = s.ph := rfl
@[simp] theorem State.onGrid_cur (s : State) (g : Nat) (f : Grid → Grid) : (s.onGrid g f).cur = s.cur := rfl
@[simp] theorem State.onGrid_act (s : State) (g : Nat) (f : Grid → Grid) : (s.onGrid g f).act = s.act := rfl
@[simp] theorem State.onGrid_issued (s : State) (g : Nat) (f : Grid → Grid) : (s.onGrid g f).issued = s.issued := rfl
@[simp] theorem State.onGrid_ipc (s : State) (g : Nat) (f : Grid → Grid) : (s.onGrid g f).ipc = s.ipc := rfl
@[simp] theorem State.onGrid_npc (s : State) (g : Nat) (f : Grid → Grid) : (s.onGrid g f).npc = s.npc := rfl
@[simp] theorem State.onGrid_ev (s : State) (g : Nat) (f : Grid → Grid) : (s.onGrid g f).ev = s.ev := rfl
@[simp] theorem State.onGrid_free (s : State) (g : Nat) (f : Grid → Grid) : (s.onGrid g f).free = s.free := rfl
@[simp] theorem State.onGrid_seq (s : State) (g : Nat) (f : Grid → Grid) : (s.onGrid g f).seq = s.seq := rfl
@[simp] theorem State.onGrid_agenda (s : State) (g : Nat) (f : Grid → Grid) : (s.onGrid g f).agenda = s.agenda := rfl
@[simp] theorem State.onGrid_warps (s : State) (g : Nat) (f : Grid → Grid) : (s.onGrid g f).warps = s.warps := rfl
@[simp] theorem State.onGrid_teams (s : State) (g : Nat) (f : Grid → Grid) : (s.onGrid g f).teams = s.teams := rfl
@[simp] theorem State.onGrid_saves (s : State) (g : Nat) (f : Grid → Grid) : (s.onGrid g f).saves = s.saves := rfl
@[simp] theorem State.onGrid_bins (s : State) (g : Nat) (f : Grid → Grid) : (s.onGrid g f).bins = s.bins := rfl
@[simp] theorem State.onGrid_parts (s : State) (g : Nat) (f : Grid → Grid) : (s.onGrid g f).parts = s.parts := rfl
@[simp] theorem State.onGrid_quarters (s : State) (g : Nat) (f : Grid → Grid) : (s.onGrid g f).quarters = s.quarters := rfl
@[simp] theorem State.onGrid_memops (s : State) (g : Nat) (f : Grid → Grid) : (s.onGrid g f).memops = s.memops := rfl
@[simp] theorem State.onGrid_reqs (s : State) (g : Nat) (f : Grid → Grid) : (s.onGrid g f).reqs = s.reqs := rfl
@[simp] theorem State.onGrid_walks (s : State) (g : Nat) (f : Grid → Grid) : (s.onGrid g f).walks = s.walks := rfl
@[simp] theorem State.onGrid_tlb (s : State) (g : Nat) (f : Grid → Grid) : (s.onGrid g f).tlb = s.tlb := rfl
@[simp] theorem State.onGrid_l1 (s : State) (g : Nat) (f : Grid → Grid) : (s.onGrid g f).l1 = s.l1 := rfl
@[simp] theorem State.onGrid_icache (s : State) (g : Nat) (f : Grid → Grid) : (s.onGrid g f).icache = s.icache := rfl
@[simp] theorem State.onGrid_l2 (s : State) (g : Nat) (f : Grid → Grid) : (s.onGrid g f).l2 = s.l2 := rfl
@[simp] theorem State.onGrid_filledSlices (s : State) (g : Nat) (f : Grid → Grid) : (s.onGrid g f).filledSlices = s.filledSlices := rfl
@[simp] theorem State.onGrid_published (s : State) (g : Nat) (f : Grid → Grid) : (s.onGrid g f).published = s.published := rfl
@[simp] theorem State.onGrid_gens (s : State) (g : Nat) (f : Grid → Grid) : (s.onGrid g f).gens = s.gens := rfl
@[simp] theorem State.onGrid_poisoned (s : State) (g : Nat) (f : Grid → Grid) : (s.onGrid g f).poisoned = s.poisoned := rfl
@[simp] theorem State.onGrid_dram (s : State) (g : Nat) (f : Grid → Grid) : (s.onGrid g f).dram = s.dram := rfl
@[simp] theorem State.onGrid_remote (s : State) (g : Nat) (f : Grid → Grid) : (s.onGrid g f).remote = s.remote := rfl
@[simp] theorem State.onGrid_codes (s : State) (g : Nat) (f : Grid → Grid) : (s.onGrid g f).codes = s.codes := rfl
@[simp] theorem State.onGrid_queues (s : State) (g : Nat) (f : Grid → Grid) : (s.onGrid g f).queues = s.queues := rfl
@[simp] theorem State.onGrid_lineops (s : State) (g : Nat) (f : Grid → Grid) : (s.onGrid g f).lineops = s.lineops := rfl
@[simp] theorem State.onGrid_channels (s : State) (g : Nat) (f : Grid → Grid) : (s.onGrid g f).channels = s.channels := rfl
@[simp] theorem State.onGrid_msgs (s : State) (g : Nat) (f : Grid → Grid) : (s.onGrid g f).msgs = s.msgs := rfl
@[simp] theorem State.onGrid_xfers (s : State) (g : Nat) (f : Grid → Grid) : (s.onGrid g f).xfers = s.xfers := rfl
@[simp] theorem State.onGrid_tileops (s : State) (g : Nat) (f : Grid → Grid) : (s.onGrid g f).tileops = s.tileops := rfl
@[simp] theorem State.onGrid_engines (s : State) (g : Nat) (f : Grid → Grid) : (s.onGrid g f).engines = s.engines := rfl
@[simp] theorem State.onGrid_sectors (s : State) (g : Nat) (f : Grid → Grid) : (s.onGrid g f).sectors = s.sectors := rfl
@[simp] theorem State.onGrid_leases (s : State) (g : Nat) (f : Grid → Grid) : (s.onGrid g f).leases = s.leases := rfl
@[simp] theorem State.onGrid_cmds (s : State) (g : Nat) (f : Grid → Grid) : (s.onGrid g f).cmds = s.cmds := rfl
@[simp] theorem State.onGrid_tiles (s : State) (g : Nat) (f : Grid → Grid) : (s.onGrid g f).tiles = s.tiles := rfl
@[simp] theorem State.onGrid_tenures (s : State) (g : Nat) (f : Grid → Grid) : (s.onGrid g f).tenures = s.tenures := rfl
@[simp] theorem State.onGrid_held (s : State) (g : Nat) (f : Grid → Grid) : (s.onGrid g f).held = s.held := rfl
@[simp] theorem State.onGrid_columns (s : State) (g : Nat) (f : Grid → Grid) : (s.onGrid g f).columns = s.columns := rfl
@[simp] theorem State.onGrid_stackMib (s : State) (g : Nat) (f : Grid → Grid) : (s.onGrid g f).stackMib = s.stackMib := rfl
@[simp] theorem State.onGrid_remaps (s : State) (g : Nat) (f : Grid → Grid) : (s.onGrid g f).remaps = s.remaps := rfl
@[simp] theorem State.onGrid_buckets (s : State) (g : Nat) (f : Grid → Grid) : (s.onGrid g f).buckets = s.buckets := rfl
@[simp] theorem State.onGrid_lastCharge (s : State) (g : Nat) (f : Grid → Grid) : (s.onGrid g f).lastCharge = s.lastCharge := rfl
@[simp] theorem State.onGrid_refilled (s : State) (g : Nat) (f : Grid → Grid) : (s.onGrid g f).refilled = s.refilled := rfl
@[simp] theorem State.onGrid_kills (s : State) (g : Nat) (f : Grid → Grid) : (s.onGrid g f).kills = s.kills := rfl
@[simp] theorem State.onGrid_scan (s : State) (g : Nat) (f : Grid → Grid) : (s.onGrid g f).scan = s.scan := rfl
@[simp] theorem State.onGrid_errlog (s : State) (g : Nat) (f : Grid → Grid) : (s.onGrid g f).errlog = s.errlog := rfl
@[simp] theorem State.onGrid_errCorr (s : State) (g : Nat) (f : Grid → Grid) : (s.onGrid g f).errCorr = s.errCorr := rfl
@[simp] theorem State.onGrid_errUncorr (s : State) (g : Nat) (f : Grid → Grid) : (s.onGrid g f).errUncorr = s.errUncorr := rfl
@[simp] theorem State.onGrid_errHead (s : State) (g : Nat) (f : Grid → Grid) : (s.onGrid g f).errHead = s.errHead := rfl
@[simp] theorem State.onGrid_posts (s : State) (g : Nat) (f : Grid → Grid) : (s.onGrid g f).posts = s.posts := rfl
@[simp] theorem State.onGrid_trapvec (s : State) (g : Nat) (f : Grid → Grid) : (s.onGrid g f).trapvec = s.trapvec := rfl
@[simp] theorem State.onGrid_dbgctl (s : State) (g : Nat) (f : Grid → Grid) : (s.onGrid g f).dbgctl = s.dbgctl := rfl
@[simp] theorem State.onGrid_bkaddr (s : State) (g : Nat) (f : Grid → Grid) : (s.onGrid g f).bkaddr = s.bkaddr := rfl
@[simp] theorem State.onGrid_hfcount (s : State) (g : Nat) (f : Grid → Grid) : (s.onGrid g f).hfcount = s.hfcount := rfl
@[simp] theorem State.onGrid_asidtab (s : State) (g : Nat) (f : Grid → Grid) : (s.onGrid g f).asidtab = s.asidtab := rfl
@[simp] theorem State.onGrid_pageq (s : State) (g : Nat) (f : Grid → Grid) : (s.onGrid g f).pageq = s.pageq := rfl
@[simp] theorem State.onGrid_pageDb (s : State) (g : Nat) (f : Grid → Grid) : (s.onGrid g f).pageDb = s.pageDb := rfl
@[simp] theorem State.onGrid_pageJob (s : State) (g : Nat) (f : Grid → Grid) : (s.onGrid g f).pageJob = s.pageJob := rfl
@[simp] theorem State.onGrid_partcfg (s : State) (g : Nat) (f : Grid → Grid) : (s.onGrid g f).partcfg = s.partcfg := rfl
@[simp] theorem State.onGrid_lqbase (s : State) (g : Nat) (f : Grid → Grid) : (s.onGrid g f).lqbase = s.lqbase := rfl
@[simp] theorem State.onGrid_capmap (s : State) (g : Nat) (f : Grid → Grid) : (s.onGrid g f).capmap = s.capmap := rfl
@[simp] theorem State.onGrid_slmcarve (s : State) (g : Nat) (f : Grid → Grid) : (s.onGrid g f).slmcarve = s.slmcarve := rfl
@[simp] theorem State.onGrid_tilebud (s : State) (g : Nat) (f : Grid → Grid) : (s.onGrid g f).tilebud = s.tilebud := rfl
@[simp] theorem State.onGrid_hashmask (s : State) (g : Nat) (f : Grid → Grid) : (s.onGrid g f).hashmask = s.hashmask := rfl
@[simp] theorem State.onGrid_slicetab (s : State) (g : Nat) (f : Grid → Grid) : (s.onGrid g f).slicetab = s.slicetab := rfl
@[simp] theorem State.onGrid_hashLive (s : State) (g : Nat) (f : Grid → Grid) : (s.onGrid g f).hashLive = s.hashLive := rfl
@[simp] theorem State.onGrid_sliceLive (s : State) (g : Nat) (f : Grid → Grid) : (s.onGrid g f).sliceLive = s.sliceLive := rfl
@[simp] theorem State.onGrid_tkshare (s : State) (g : Nat) (f : Grid → Grid) : (s.onGrid g f).tkshare = s.tkshare := rfl
@[simp] theorem State.onGrid_engbudget (s : State) (g : Nat) (f : Grid → Grid) : (s.onGrid g f).engbudget = s.engbudget := rfl
@[simp] theorem State.onGrid_harvest (s : State) (g : Nat) (f : Grid → Grid) : (s.onGrid g f).harvest = s.harvest := rfl
@[simp] theorem State.onGrid_drcfg (s : State) (g : Nat) (f : Grid → Grid) : (s.onGrid g f).drcfg = s.drcfg := rfl
@[simp] theorem State.onGrid_drroute (s : State) (g : Nat) (f : Grid → Grid) : (s.onGrid g f).drroute = s.drroute := rfl
@[simp] theorem State.onGrid_hostwin (s : State) (g : Nat) (f : Grid → Grid) : (s.onGrid g f).hostwin = s.hostwin := rfl
@[simp] theorem State.onGrid_objtab (s : State) (g : Nat) (f : Grid → Grid) : (s.onGrid g f).objtab = s.objtab := rfl
@[simp] theorem State.onGrid_remapReg (s : State) (g : Nat) (f : Grid → Grid) : (s.onGrid g f).remapReg = s.remapReg := rfl
@[simp] theorem State.onGrid_pwrctl (s : State) (g : Nat) (f : Grid → Grid) : (s.onGrid g f).pwrctl = s.pwrctl := rfl
@[simp] theorem State.onGrid_stage (s : State) (g : Nat) (f : Grid → Grid) : (s.onGrid g f).stage = s.stage := rfl
@[simp] theorem State.onGrid_fail (s : State) (g : Nat) (f : Grid → Grid) : (s.onGrid g f).fail = s.fail := rfl
@[simp] theorem State.onGrid_trip (s : State) (g : Nat) (f : Grid → Grid) : (s.onGrid g f).trip = s.trip := rfl
@[simp] theorem State.onGrid_fwsvn (s : State) (g : Nat) (f : Grid → Grid) : (s.onGrid g f).fwsvn = s.fwsvn := rfl
@[simp] theorem State.onGrid_measurement (s : State) (g : Nat) (f : Grid → Grid) : (s.onGrid g f).measurement = s.measurement := rfl
@[simp] theorem State.onGrid_d3hot (s : State) (g : Nat) (f : Grid → Grid) : (s.onGrid g f).d3hot = s.d3hot := rfl
@[simp] theorem State.onGrid_fwHalted (s : State) (g : Nat) (f : Grid → Grid) : (s.onGrid g f).fwHalted = s.fwHalted := rfl
@[simp] theorem State.onGrid_gul (s : State) (g : Nat) (f : Grid → Grid) : (s.onGrid g f).gul = s.gul := rfl

/-! ## `State.onQuarter` changes `quarters` -/

@[simp] theorem State.onQuarter_now (s : State) (q : Nat) (f : Quarter → Quarter) : (s.onQuarter q f).now = s.now := rfl
@[simp] theorem State.onQuarter_resetAt (s : State) (q : Nat) (f : Quarter → Quarter) : (s.onQuarter q f).resetAt = s.resetAt := rfl
@[simp] theorem State.onQuarter_ph (s : State) (q : Nat) (f : Quarter → Quarter) : (s.onQuarter q f).ph = s.ph := rfl
@[simp] theorem State.onQuarter_cur (s : State) (q : Nat) (f : Quarter → Quarter) : (s.onQuarter q f).cur = s.cur := rfl
@[simp] theorem State.onQuarter_act (s : State) (q : Nat) (f : Quarter → Quarter) : (s.onQuarter q f).act = s.act := rfl
@[simp] theorem State.onQuarter_issued (s : State) (q : Nat) (f : Quarter → Quarter) : (s.onQuarter q f).issued = s.issued := rfl
@[simp] theorem State.onQuarter_ipc (s : State) (q : Nat) (f : Quarter → Quarter) : (s.onQuarter q f).ipc = s.ipc := rfl
@[simp] theorem State.onQuarter_npc (s : State) (q : Nat) (f : Quarter → Quarter) : (s.onQuarter q f).npc = s.npc := rfl
@[simp] theorem State.onQuarter_ev (s : State) (q : Nat) (f : Quarter → Quarter) : (s.onQuarter q f).ev = s.ev := rfl
@[simp] theorem State.onQuarter_free (s : State) (q : Nat) (f : Quarter → Quarter) : (s.onQuarter q f).free = s.free := rfl
@[simp] theorem State.onQuarter_seq (s : State) (q : Nat) (f : Quarter → Quarter) : (s.onQuarter q f).seq = s.seq := rfl
@[simp] theorem State.onQuarter_agenda (s : State) (q : Nat) (f : Quarter → Quarter) : (s.onQuarter q f).agenda = s.agenda := rfl
@[simp] theorem State.onQuarter_warps (s : State) (q : Nat) (f : Quarter → Quarter) : (s.onQuarter q f).warps = s.warps := rfl
@[simp] theorem State.onQuarter_teams (s : State) (q : Nat) (f : Quarter → Quarter) : (s.onQuarter q f).teams = s.teams := rfl
@[simp] theorem State.onQuarter_saves (s : State) (q : Nat) (f : Quarter → Quarter) : (s.onQuarter q f).saves = s.saves := rfl
@[simp] theorem State.onQuarter_grids (s : State) (q : Nat) (f : Quarter → Quarter) : (s.onQuarter q f).grids = s.grids := rfl
@[simp] theorem State.onQuarter_bins (s : State) (q : Nat) (f : Quarter → Quarter) : (s.onQuarter q f).bins = s.bins := rfl
@[simp] theorem State.onQuarter_parts (s : State) (q : Nat) (f : Quarter → Quarter) : (s.onQuarter q f).parts = s.parts := rfl
@[simp] theorem State.onQuarter_memops (s : State) (q : Nat) (f : Quarter → Quarter) : (s.onQuarter q f).memops = s.memops := rfl
@[simp] theorem State.onQuarter_reqs (s : State) (q : Nat) (f : Quarter → Quarter) : (s.onQuarter q f).reqs = s.reqs := rfl
@[simp] theorem State.onQuarter_walks (s : State) (q : Nat) (f : Quarter → Quarter) : (s.onQuarter q f).walks = s.walks := rfl
@[simp] theorem State.onQuarter_tlb (s : State) (q : Nat) (f : Quarter → Quarter) : (s.onQuarter q f).tlb = s.tlb := rfl
@[simp] theorem State.onQuarter_l1 (s : State) (q : Nat) (f : Quarter → Quarter) : (s.onQuarter q f).l1 = s.l1 := rfl
@[simp] theorem State.onQuarter_icache (s : State) (q : Nat) (f : Quarter → Quarter) : (s.onQuarter q f).icache = s.icache := rfl
@[simp] theorem State.onQuarter_l2 (s : State) (q : Nat) (f : Quarter → Quarter) : (s.onQuarter q f).l2 = s.l2 := rfl
@[simp] theorem State.onQuarter_filledSlices (s : State) (q : Nat) (f : Quarter → Quarter) : (s.onQuarter q f).filledSlices = s.filledSlices := rfl
@[simp] theorem State.onQuarter_published (s : State) (q : Nat) (f : Quarter → Quarter) : (s.onQuarter q f).published = s.published := rfl
@[simp] theorem State.onQuarter_gens (s : State) (q : Nat) (f : Quarter → Quarter) : (s.onQuarter q f).gens = s.gens := rfl
@[simp] theorem State.onQuarter_poisoned (s : State) (q : Nat) (f : Quarter → Quarter) : (s.onQuarter q f).poisoned = s.poisoned := rfl
@[simp] theorem State.onQuarter_dram (s : State) (q : Nat) (f : Quarter → Quarter) : (s.onQuarter q f).dram = s.dram := rfl
@[simp] theorem State.onQuarter_remote (s : State) (q : Nat) (f : Quarter → Quarter) : (s.onQuarter q f).remote = s.remote := rfl
@[simp] theorem State.onQuarter_codes (s : State) (q : Nat) (f : Quarter → Quarter) : (s.onQuarter q f).codes = s.codes := rfl
@[simp] theorem State.onQuarter_queues (s : State) (q : Nat) (f : Quarter → Quarter) : (s.onQuarter q f).queues = s.queues := rfl
@[simp] theorem State.onQuarter_lineops (s : State) (q : Nat) (f : Quarter → Quarter) : (s.onQuarter q f).lineops = s.lineops := rfl
@[simp] theorem State.onQuarter_channels (s : State) (q : Nat) (f : Quarter → Quarter) : (s.onQuarter q f).channels = s.channels := rfl
@[simp] theorem State.onQuarter_msgs (s : State) (q : Nat) (f : Quarter → Quarter) : (s.onQuarter q f).msgs = s.msgs := rfl
@[simp] theorem State.onQuarter_xfers (s : State) (q : Nat) (f : Quarter → Quarter) : (s.onQuarter q f).xfers = s.xfers := rfl
@[simp] theorem State.onQuarter_tileops (s : State) (q : Nat) (f : Quarter → Quarter) : (s.onQuarter q f).tileops = s.tileops := rfl
@[simp] theorem State.onQuarter_engines (s : State) (q : Nat) (f : Quarter → Quarter) : (s.onQuarter q f).engines = s.engines := rfl
@[simp] theorem State.onQuarter_sectors (s : State) (q : Nat) (f : Quarter → Quarter) : (s.onQuarter q f).sectors = s.sectors := rfl
@[simp] theorem State.onQuarter_leases (s : State) (q : Nat) (f : Quarter → Quarter) : (s.onQuarter q f).leases = s.leases := rfl
@[simp] theorem State.onQuarter_cmds (s : State) (q : Nat) (f : Quarter → Quarter) : (s.onQuarter q f).cmds = s.cmds := rfl
@[simp] theorem State.onQuarter_tiles (s : State) (q : Nat) (f : Quarter → Quarter) : (s.onQuarter q f).tiles = s.tiles := rfl
@[simp] theorem State.onQuarter_tenures (s : State) (q : Nat) (f : Quarter → Quarter) : (s.onQuarter q f).tenures = s.tenures := rfl
@[simp] theorem State.onQuarter_held (s : State) (q : Nat) (f : Quarter → Quarter) : (s.onQuarter q f).held = s.held := rfl
@[simp] theorem State.onQuarter_columns (s : State) (q : Nat) (f : Quarter → Quarter) : (s.onQuarter q f).columns = s.columns := rfl
@[simp] theorem State.onQuarter_stackMib (s : State) (q : Nat) (f : Quarter → Quarter) : (s.onQuarter q f).stackMib = s.stackMib := rfl
@[simp] theorem State.onQuarter_remaps (s : State) (q : Nat) (f : Quarter → Quarter) : (s.onQuarter q f).remaps = s.remaps := rfl
@[simp] theorem State.onQuarter_buckets (s : State) (q : Nat) (f : Quarter → Quarter) : (s.onQuarter q f).buckets = s.buckets := rfl
@[simp] theorem State.onQuarter_lastCharge (s : State) (q : Nat) (f : Quarter → Quarter) : (s.onQuarter q f).lastCharge = s.lastCharge := rfl
@[simp] theorem State.onQuarter_refilled (s : State) (q : Nat) (f : Quarter → Quarter) : (s.onQuarter q f).refilled = s.refilled := rfl
@[simp] theorem State.onQuarter_kills (s : State) (q : Nat) (f : Quarter → Quarter) : (s.onQuarter q f).kills = s.kills := rfl
@[simp] theorem State.onQuarter_scan (s : State) (q : Nat) (f : Quarter → Quarter) : (s.onQuarter q f).scan = s.scan := rfl
@[simp] theorem State.onQuarter_errlog (s : State) (q : Nat) (f : Quarter → Quarter) : (s.onQuarter q f).errlog = s.errlog := rfl
@[simp] theorem State.onQuarter_errCorr (s : State) (q : Nat) (f : Quarter → Quarter) : (s.onQuarter q f).errCorr = s.errCorr := rfl
@[simp] theorem State.onQuarter_errUncorr (s : State) (q : Nat) (f : Quarter → Quarter) : (s.onQuarter q f).errUncorr = s.errUncorr := rfl
@[simp] theorem State.onQuarter_errHead (s : State) (q : Nat) (f : Quarter → Quarter) : (s.onQuarter q f).errHead = s.errHead := rfl
@[simp] theorem State.onQuarter_posts (s : State) (q : Nat) (f : Quarter → Quarter) : (s.onQuarter q f).posts = s.posts := rfl
@[simp] theorem State.onQuarter_trapvec (s : State) (q : Nat) (f : Quarter → Quarter) : (s.onQuarter q f).trapvec = s.trapvec := rfl
@[simp] theorem State.onQuarter_dbgctl (s : State) (q : Nat) (f : Quarter → Quarter) : (s.onQuarter q f).dbgctl = s.dbgctl := rfl
@[simp] theorem State.onQuarter_bkaddr (s : State) (q : Nat) (f : Quarter → Quarter) : (s.onQuarter q f).bkaddr = s.bkaddr := rfl
@[simp] theorem State.onQuarter_hfcount (s : State) (q : Nat) (f : Quarter → Quarter) : (s.onQuarter q f).hfcount = s.hfcount := rfl
@[simp] theorem State.onQuarter_asidtab (s : State) (q : Nat) (f : Quarter → Quarter) : (s.onQuarter q f).asidtab = s.asidtab := rfl
@[simp] theorem State.onQuarter_pageq (s : State) (q : Nat) (f : Quarter → Quarter) : (s.onQuarter q f).pageq = s.pageq := rfl
@[simp] theorem State.onQuarter_pageDb (s : State) (q : Nat) (f : Quarter → Quarter) : (s.onQuarter q f).pageDb = s.pageDb := rfl
@[simp] theorem State.onQuarter_pageJob (s : State) (q : Nat) (f : Quarter → Quarter) : (s.onQuarter q f).pageJob = s.pageJob := rfl
@[simp] theorem State.onQuarter_partcfg (s : State) (q : Nat) (f : Quarter → Quarter) : (s.onQuarter q f).partcfg = s.partcfg := rfl
@[simp] theorem State.onQuarter_lqbase (s : State) (q : Nat) (f : Quarter → Quarter) : (s.onQuarter q f).lqbase = s.lqbase := rfl
@[simp] theorem State.onQuarter_capmap (s : State) (q : Nat) (f : Quarter → Quarter) : (s.onQuarter q f).capmap = s.capmap := rfl
@[simp] theorem State.onQuarter_slmcarve (s : State) (q : Nat) (f : Quarter → Quarter) : (s.onQuarter q f).slmcarve = s.slmcarve := rfl
@[simp] theorem State.onQuarter_tilebud (s : State) (q : Nat) (f : Quarter → Quarter) : (s.onQuarter q f).tilebud = s.tilebud := rfl
@[simp] theorem State.onQuarter_hashmask (s : State) (q : Nat) (f : Quarter → Quarter) : (s.onQuarter q f).hashmask = s.hashmask := rfl
@[simp] theorem State.onQuarter_slicetab (s : State) (q : Nat) (f : Quarter → Quarter) : (s.onQuarter q f).slicetab = s.slicetab := rfl
@[simp] theorem State.onQuarter_hashLive (s : State) (q : Nat) (f : Quarter → Quarter) : (s.onQuarter q f).hashLive = s.hashLive := rfl
@[simp] theorem State.onQuarter_sliceLive (s : State) (q : Nat) (f : Quarter → Quarter) : (s.onQuarter q f).sliceLive = s.sliceLive := rfl
@[simp] theorem State.onQuarter_tkshare (s : State) (q : Nat) (f : Quarter → Quarter) : (s.onQuarter q f).tkshare = s.tkshare := rfl
@[simp] theorem State.onQuarter_engbudget (s : State) (q : Nat) (f : Quarter → Quarter) : (s.onQuarter q f).engbudget = s.engbudget := rfl
@[simp] theorem State.onQuarter_harvest (s : State) (q : Nat) (f : Quarter → Quarter) : (s.onQuarter q f).harvest = s.harvest := rfl
@[simp] theorem State.onQuarter_drcfg (s : State) (q : Nat) (f : Quarter → Quarter) : (s.onQuarter q f).drcfg = s.drcfg := rfl
@[simp] theorem State.onQuarter_drroute (s : State) (q : Nat) (f : Quarter → Quarter) : (s.onQuarter q f).drroute = s.drroute := rfl
@[simp] theorem State.onQuarter_hostwin (s : State) (q : Nat) (f : Quarter → Quarter) : (s.onQuarter q f).hostwin = s.hostwin := rfl
@[simp] theorem State.onQuarter_objtab (s : State) (q : Nat) (f : Quarter → Quarter) : (s.onQuarter q f).objtab = s.objtab := rfl
@[simp] theorem State.onQuarter_remapReg (s : State) (q : Nat) (f : Quarter → Quarter) : (s.onQuarter q f).remapReg = s.remapReg := rfl
@[simp] theorem State.onQuarter_pwrctl (s : State) (q : Nat) (f : Quarter → Quarter) : (s.onQuarter q f).pwrctl = s.pwrctl := rfl
@[simp] theorem State.onQuarter_stage (s : State) (q : Nat) (f : Quarter → Quarter) : (s.onQuarter q f).stage = s.stage := rfl
@[simp] theorem State.onQuarter_fail (s : State) (q : Nat) (f : Quarter → Quarter) : (s.onQuarter q f).fail = s.fail := rfl
@[simp] theorem State.onQuarter_trip (s : State) (q : Nat) (f : Quarter → Quarter) : (s.onQuarter q f).trip = s.trip := rfl
@[simp] theorem State.onQuarter_fwsvn (s : State) (q : Nat) (f : Quarter → Quarter) : (s.onQuarter q f).fwsvn = s.fwsvn := rfl
@[simp] theorem State.onQuarter_measurement (s : State) (q : Nat) (f : Quarter → Quarter) : (s.onQuarter q f).measurement = s.measurement := rfl
@[simp] theorem State.onQuarter_d3hot (s : State) (q : Nat) (f : Quarter → Quarter) : (s.onQuarter q f).d3hot = s.d3hot := rfl
@[simp] theorem State.onQuarter_fwHalted (s : State) (q : Nat) (f : Quarter → Quarter) : (s.onQuarter q f).fwHalted = s.fwHalted := rfl
@[simp] theorem State.onQuarter_gul (s : State) (q : Nat) (f : Quarter → Quarter) : (s.onQuarter q f).gul = s.gul := rfl

/-! ## `State.schedule` changes `agenda` -/

@[simp] theorem State.schedule_now (s : State) (n : Nat) (a : Act) : (s.schedule n a).now = s.now := rfl
@[simp] theorem State.schedule_resetAt (s : State) (n : Nat) (a : Act) : (s.schedule n a).resetAt = s.resetAt := rfl
@[simp] theorem State.schedule_ph (s : State) (n : Nat) (a : Act) : (s.schedule n a).ph = s.ph := rfl
@[simp] theorem State.schedule_cur (s : State) (n : Nat) (a : Act) : (s.schedule n a).cur = s.cur := rfl
@[simp] theorem State.schedule_act (s : State) (n : Nat) (a : Act) : (s.schedule n a).act = s.act := rfl
@[simp] theorem State.schedule_issued (s : State) (n : Nat) (a : Act) : (s.schedule n a).issued = s.issued := rfl
@[simp] theorem State.schedule_ipc (s : State) (n : Nat) (a : Act) : (s.schedule n a).ipc = s.ipc := rfl
@[simp] theorem State.schedule_npc (s : State) (n : Nat) (a : Act) : (s.schedule n a).npc = s.npc := rfl
@[simp] theorem State.schedule_ev (s : State) (n : Nat) (a : Act) : (s.schedule n a).ev = s.ev := rfl
@[simp] theorem State.schedule_free (s : State) (n : Nat) (a : Act) : (s.schedule n a).free = s.free := rfl
@[simp] theorem State.schedule_seq (s : State) (n : Nat) (a : Act) : (s.schedule n a).seq = s.seq := rfl
@[simp] theorem State.schedule_warps (s : State) (n : Nat) (a : Act) : (s.schedule n a).warps = s.warps := rfl
@[simp] theorem State.schedule_teams (s : State) (n : Nat) (a : Act) : (s.schedule n a).teams = s.teams := rfl
@[simp] theorem State.schedule_saves (s : State) (n : Nat) (a : Act) : (s.schedule n a).saves = s.saves := rfl
@[simp] theorem State.schedule_grids (s : State) (n : Nat) (a : Act) : (s.schedule n a).grids = s.grids := rfl
@[simp] theorem State.schedule_bins (s : State) (n : Nat) (a : Act) : (s.schedule n a).bins = s.bins := rfl
@[simp] theorem State.schedule_parts (s : State) (n : Nat) (a : Act) : (s.schedule n a).parts = s.parts := rfl
@[simp] theorem State.schedule_quarters (s : State) (n : Nat) (a : Act) : (s.schedule n a).quarters = s.quarters := rfl
@[simp] theorem State.schedule_memops (s : State) (n : Nat) (a : Act) : (s.schedule n a).memops = s.memops := rfl
@[simp] theorem State.schedule_reqs (s : State) (n : Nat) (a : Act) : (s.schedule n a).reqs = s.reqs := rfl
@[simp] theorem State.schedule_walks (s : State) (n : Nat) (a : Act) : (s.schedule n a).walks = s.walks := rfl
@[simp] theorem State.schedule_tlb (s : State) (n : Nat) (a : Act) : (s.schedule n a).tlb = s.tlb := rfl
@[simp] theorem State.schedule_l1 (s : State) (n : Nat) (a : Act) : (s.schedule n a).l1 = s.l1 := rfl
@[simp] theorem State.schedule_icache (s : State) (n : Nat) (a : Act) : (s.schedule n a).icache = s.icache := rfl
@[simp] theorem State.schedule_l2 (s : State) (n : Nat) (a : Act) : (s.schedule n a).l2 = s.l2 := rfl
@[simp] theorem State.schedule_filledSlices (s : State) (n : Nat) (a : Act) : (s.schedule n a).filledSlices = s.filledSlices := rfl
@[simp] theorem State.schedule_published (s : State) (n : Nat) (a : Act) : (s.schedule n a).published = s.published := rfl
@[simp] theorem State.schedule_gens (s : State) (n : Nat) (a : Act) : (s.schedule n a).gens = s.gens := rfl
@[simp] theorem State.schedule_poisoned (s : State) (n : Nat) (a : Act) : (s.schedule n a).poisoned = s.poisoned := rfl
@[simp] theorem State.schedule_dram (s : State) (n : Nat) (a : Act) : (s.schedule n a).dram = s.dram := rfl
@[simp] theorem State.schedule_remote (s : State) (n : Nat) (a : Act) : (s.schedule n a).remote = s.remote := rfl
@[simp] theorem State.schedule_codes (s : State) (n : Nat) (a : Act) : (s.schedule n a).codes = s.codes := rfl
@[simp] theorem State.schedule_queues (s : State) (n : Nat) (a : Act) : (s.schedule n a).queues = s.queues := rfl
@[simp] theorem State.schedule_lineops (s : State) (n : Nat) (a : Act) : (s.schedule n a).lineops = s.lineops := rfl
@[simp] theorem State.schedule_channels (s : State) (n : Nat) (a : Act) : (s.schedule n a).channels = s.channels := rfl
@[simp] theorem State.schedule_msgs (s : State) (n : Nat) (a : Act) : (s.schedule n a).msgs = s.msgs := rfl
@[simp] theorem State.schedule_xfers (s : State) (n : Nat) (a : Act) : (s.schedule n a).xfers = s.xfers := rfl
@[simp] theorem State.schedule_tileops (s : State) (n : Nat) (a : Act) : (s.schedule n a).tileops = s.tileops := rfl
@[simp] theorem State.schedule_engines (s : State) (n : Nat) (a : Act) : (s.schedule n a).engines = s.engines := rfl
@[simp] theorem State.schedule_sectors (s : State) (n : Nat) (a : Act) : (s.schedule n a).sectors = s.sectors := rfl
@[simp] theorem State.schedule_leases (s : State) (n : Nat) (a : Act) : (s.schedule n a).leases = s.leases := rfl
@[simp] theorem State.schedule_cmds (s : State) (n : Nat) (a : Act) : (s.schedule n a).cmds = s.cmds := rfl
@[simp] theorem State.schedule_tiles (s : State) (n : Nat) (a : Act) : (s.schedule n a).tiles = s.tiles := rfl
@[simp] theorem State.schedule_tenures (s : State) (n : Nat) (a : Act) : (s.schedule n a).tenures = s.tenures := rfl
@[simp] theorem State.schedule_held (s : State) (n : Nat) (a : Act) : (s.schedule n a).held = s.held := rfl
@[simp] theorem State.schedule_columns (s : State) (n : Nat) (a : Act) : (s.schedule n a).columns = s.columns := rfl
@[simp] theorem State.schedule_stackMib (s : State) (n : Nat) (a : Act) : (s.schedule n a).stackMib = s.stackMib := rfl
@[simp] theorem State.schedule_remaps (s : State) (n : Nat) (a : Act) : (s.schedule n a).remaps = s.remaps := rfl
@[simp] theorem State.schedule_buckets (s : State) (n : Nat) (a : Act) : (s.schedule n a).buckets = s.buckets := rfl
@[simp] theorem State.schedule_lastCharge (s : State) (n : Nat) (a : Act) : (s.schedule n a).lastCharge = s.lastCharge := rfl
@[simp] theorem State.schedule_refilled (s : State) (n : Nat) (a : Act) : (s.schedule n a).refilled = s.refilled := rfl
@[simp] theorem State.schedule_kills (s : State) (n : Nat) (a : Act) : (s.schedule n a).kills = s.kills := rfl
@[simp] theorem State.schedule_scan (s : State) (n : Nat) (a : Act) : (s.schedule n a).scan = s.scan := rfl
@[simp] theorem State.schedule_errlog (s : State) (n : Nat) (a : Act) : (s.schedule n a).errlog = s.errlog := rfl
@[simp] theorem State.schedule_errCorr (s : State) (n : Nat) (a : Act) : (s.schedule n a).errCorr = s.errCorr := rfl
@[simp] theorem State.schedule_errUncorr (s : State) (n : Nat) (a : Act) : (s.schedule n a).errUncorr = s.errUncorr := rfl
@[simp] theorem State.schedule_errHead (s : State) (n : Nat) (a : Act) : (s.schedule n a).errHead = s.errHead := rfl
@[simp] theorem State.schedule_posts (s : State) (n : Nat) (a : Act) : (s.schedule n a).posts = s.posts := rfl
@[simp] theorem State.schedule_trapvec (s : State) (n : Nat) (a : Act) : (s.schedule n a).trapvec = s.trapvec := rfl
@[simp] theorem State.schedule_dbgctl (s : State) (n : Nat) (a : Act) : (s.schedule n a).dbgctl = s.dbgctl := rfl
@[simp] theorem State.schedule_bkaddr (s : State) (n : Nat) (a : Act) : (s.schedule n a).bkaddr = s.bkaddr := rfl
@[simp] theorem State.schedule_hfcount (s : State) (n : Nat) (a : Act) : (s.schedule n a).hfcount = s.hfcount := rfl
@[simp] theorem State.schedule_asidtab (s : State) (n : Nat) (a : Act) : (s.schedule n a).asidtab = s.asidtab := rfl
@[simp] theorem State.schedule_pageq (s : State) (n : Nat) (a : Act) : (s.schedule n a).pageq = s.pageq := rfl
@[simp] theorem State.schedule_pageDb (s : State) (n : Nat) (a : Act) : (s.schedule n a).pageDb = s.pageDb := rfl
@[simp] theorem State.schedule_pageJob (s : State) (n : Nat) (a : Act) : (s.schedule n a).pageJob = s.pageJob := rfl
@[simp] theorem State.schedule_partcfg (s : State) (n : Nat) (a : Act) : (s.schedule n a).partcfg = s.partcfg := rfl
@[simp] theorem State.schedule_lqbase (s : State) (n : Nat) (a : Act) : (s.schedule n a).lqbase = s.lqbase := rfl
@[simp] theorem State.schedule_capmap (s : State) (n : Nat) (a : Act) : (s.schedule n a).capmap = s.capmap := rfl
@[simp] theorem State.schedule_slmcarve (s : State) (n : Nat) (a : Act) : (s.schedule n a).slmcarve = s.slmcarve := rfl
@[simp] theorem State.schedule_tilebud (s : State) (n : Nat) (a : Act) : (s.schedule n a).tilebud = s.tilebud := rfl
@[simp] theorem State.schedule_hashmask (s : State) (n : Nat) (a : Act) : (s.schedule n a).hashmask = s.hashmask := rfl
@[simp] theorem State.schedule_slicetab (s : State) (n : Nat) (a : Act) : (s.schedule n a).slicetab = s.slicetab := rfl
@[simp] theorem State.schedule_hashLive (s : State) (n : Nat) (a : Act) : (s.schedule n a).hashLive = s.hashLive := rfl
@[simp] theorem State.schedule_sliceLive (s : State) (n : Nat) (a : Act) : (s.schedule n a).sliceLive = s.sliceLive := rfl
@[simp] theorem State.schedule_tkshare (s : State) (n : Nat) (a : Act) : (s.schedule n a).tkshare = s.tkshare := rfl
@[simp] theorem State.schedule_engbudget (s : State) (n : Nat) (a : Act) : (s.schedule n a).engbudget = s.engbudget := rfl
@[simp] theorem State.schedule_harvest (s : State) (n : Nat) (a : Act) : (s.schedule n a).harvest = s.harvest := rfl
@[simp] theorem State.schedule_drcfg (s : State) (n : Nat) (a : Act) : (s.schedule n a).drcfg = s.drcfg := rfl
@[simp] theorem State.schedule_drroute (s : State) (n : Nat) (a : Act) : (s.schedule n a).drroute = s.drroute := rfl
@[simp] theorem State.schedule_hostwin (s : State) (n : Nat) (a : Act) : (s.schedule n a).hostwin = s.hostwin := rfl
@[simp] theorem State.schedule_objtab (s : State) (n : Nat) (a : Act) : (s.schedule n a).objtab = s.objtab := rfl
@[simp] theorem State.schedule_remapReg (s : State) (n : Nat) (a : Act) : (s.schedule n a).remapReg = s.remapReg := rfl
@[simp] theorem State.schedule_pwrctl (s : State) (n : Nat) (a : Act) : (s.schedule n a).pwrctl = s.pwrctl := rfl
@[simp] theorem State.schedule_stage (s : State) (n : Nat) (a : Act) : (s.schedule n a).stage = s.stage := rfl
@[simp] theorem State.schedule_fail (s : State) (n : Nat) (a : Act) : (s.schedule n a).fail = s.fail := rfl
@[simp] theorem State.schedule_trip (s : State) (n : Nat) (a : Act) : (s.schedule n a).trip = s.trip := rfl
@[simp] theorem State.schedule_fwsvn (s : State) (n : Nat) (a : Act) : (s.schedule n a).fwsvn = s.fwsvn := rfl
@[simp] theorem State.schedule_measurement (s : State) (n : Nat) (a : Act) : (s.schedule n a).measurement = s.measurement := rfl
@[simp] theorem State.schedule_d3hot (s : State) (n : Nat) (a : Act) : (s.schedule n a).d3hot = s.d3hot := rfl
@[simp] theorem State.schedule_fwHalted (s : State) (n : Nat) (a : Act) : (s.schedule n a).fwHalted = s.fwHalted := rfl
@[simp] theorem State.schedule_gul (s : State) (n : Nat) (a : Act) : (s.schedule n a).gul = s.gul := rfl

/-! ## `State.later` changes `agenda` -/

@[simp] theorem State.later_now (s : State) (n : Nat) (i : Instr) (a b c : Nat) (v : DWord) : (s.later n i a b c v).now = s.now := rfl
@[simp] theorem State.later_resetAt (s : State) (n : Nat) (i : Instr) (a b c : Nat) (v : DWord) : (s.later n i a b c v).resetAt = s.resetAt := rfl
@[simp] theorem State.later_ph (s : State) (n : Nat) (i : Instr) (a b c : Nat) (v : DWord) : (s.later n i a b c v).ph = s.ph := rfl
@[simp] theorem State.later_cur (s : State) (n : Nat) (i : Instr) (a b c : Nat) (v : DWord) : (s.later n i a b c v).cur = s.cur := rfl
@[simp] theorem State.later_act (s : State) (n : Nat) (i : Instr) (a b c : Nat) (v : DWord) : (s.later n i a b c v).act = s.act := rfl
@[simp] theorem State.later_issued (s : State) (n : Nat) (i : Instr) (a b c : Nat) (v : DWord) : (s.later n i a b c v).issued = s.issued := rfl
@[simp] theorem State.later_ipc (s : State) (n : Nat) (i : Instr) (a b c : Nat) (v : DWord) : (s.later n i a b c v).ipc = s.ipc := rfl
@[simp] theorem State.later_npc (s : State) (n : Nat) (i : Instr) (a b c : Nat) (v : DWord) : (s.later n i a b c v).npc = s.npc := rfl
@[simp] theorem State.later_ev (s : State) (n : Nat) (i : Instr) (a b c : Nat) (v : DWord) : (s.later n i a b c v).ev = s.ev := rfl
@[simp] theorem State.later_free (s : State) (n : Nat) (i : Instr) (a b c : Nat) (v : DWord) : (s.later n i a b c v).free = s.free := rfl
@[simp] theorem State.later_seq (s : State) (n : Nat) (i : Instr) (a b c : Nat) (v : DWord) : (s.later n i a b c v).seq = s.seq := rfl
@[simp] theorem State.later_warps (s : State) (n : Nat) (i : Instr) (a b c : Nat) (v : DWord) : (s.later n i a b c v).warps = s.warps := rfl
@[simp] theorem State.later_teams (s : State) (n : Nat) (i : Instr) (a b c : Nat) (v : DWord) : (s.later n i a b c v).teams = s.teams := rfl
@[simp] theorem State.later_saves (s : State) (n : Nat) (i : Instr) (a b c : Nat) (v : DWord) : (s.later n i a b c v).saves = s.saves := rfl
@[simp] theorem State.later_grids (s : State) (n : Nat) (i : Instr) (a b c : Nat) (v : DWord) : (s.later n i a b c v).grids = s.grids := rfl
@[simp] theorem State.later_bins (s : State) (n : Nat) (i : Instr) (a b c : Nat) (v : DWord) : (s.later n i a b c v).bins = s.bins := rfl
@[simp] theorem State.later_parts (s : State) (n : Nat) (i : Instr) (a b c : Nat) (v : DWord) : (s.later n i a b c v).parts = s.parts := rfl
@[simp] theorem State.later_quarters (s : State) (n : Nat) (i : Instr) (a b c : Nat) (v : DWord) : (s.later n i a b c v).quarters = s.quarters := rfl
@[simp] theorem State.later_memops (s : State) (n : Nat) (i : Instr) (a b c : Nat) (v : DWord) : (s.later n i a b c v).memops = s.memops := rfl
@[simp] theorem State.later_reqs (s : State) (n : Nat) (i : Instr) (a b c : Nat) (v : DWord) : (s.later n i a b c v).reqs = s.reqs := rfl
@[simp] theorem State.later_walks (s : State) (n : Nat) (i : Instr) (a b c : Nat) (v : DWord) : (s.later n i a b c v).walks = s.walks := rfl
@[simp] theorem State.later_tlb (s : State) (n : Nat) (i : Instr) (a b c : Nat) (v : DWord) : (s.later n i a b c v).tlb = s.tlb := rfl
@[simp] theorem State.later_l1 (s : State) (n : Nat) (i : Instr) (a b c : Nat) (v : DWord) : (s.later n i a b c v).l1 = s.l1 := rfl
@[simp] theorem State.later_icache (s : State) (n : Nat) (i : Instr) (a b c : Nat) (v : DWord) : (s.later n i a b c v).icache = s.icache := rfl
@[simp] theorem State.later_l2 (s : State) (n : Nat) (i : Instr) (a b c : Nat) (v : DWord) : (s.later n i a b c v).l2 = s.l2 := rfl
@[simp] theorem State.later_filledSlices (s : State) (n : Nat) (i : Instr) (a b c : Nat) (v : DWord) : (s.later n i a b c v).filledSlices = s.filledSlices := rfl
@[simp] theorem State.later_published (s : State) (n : Nat) (i : Instr) (a b c : Nat) (v : DWord) : (s.later n i a b c v).published = s.published := rfl
@[simp] theorem State.later_gens (s : State) (n : Nat) (i : Instr) (a b c : Nat) (v : DWord) : (s.later n i a b c v).gens = s.gens := rfl
@[simp] theorem State.later_poisoned (s : State) (n : Nat) (i : Instr) (a b c : Nat) (v : DWord) : (s.later n i a b c v).poisoned = s.poisoned := rfl
@[simp] theorem State.later_dram (s : State) (n : Nat) (i : Instr) (a b c : Nat) (v : DWord) : (s.later n i a b c v).dram = s.dram := rfl
@[simp] theorem State.later_remote (s : State) (n : Nat) (i : Instr) (a b c : Nat) (v : DWord) : (s.later n i a b c v).remote = s.remote := rfl
@[simp] theorem State.later_codes (s : State) (n : Nat) (i : Instr) (a b c : Nat) (v : DWord) : (s.later n i a b c v).codes = s.codes := rfl
@[simp] theorem State.later_queues (s : State) (n : Nat) (i : Instr) (a b c : Nat) (v : DWord) : (s.later n i a b c v).queues = s.queues := rfl
@[simp] theorem State.later_lineops (s : State) (n : Nat) (i : Instr) (a b c : Nat) (v : DWord) : (s.later n i a b c v).lineops = s.lineops := rfl
@[simp] theorem State.later_channels (s : State) (n : Nat) (i : Instr) (a b c : Nat) (v : DWord) : (s.later n i a b c v).channels = s.channels := rfl
@[simp] theorem State.later_msgs (s : State) (n : Nat) (i : Instr) (a b c : Nat) (v : DWord) : (s.later n i a b c v).msgs = s.msgs := rfl
@[simp] theorem State.later_xfers (s : State) (n : Nat) (i : Instr) (a b c : Nat) (v : DWord) : (s.later n i a b c v).xfers = s.xfers := rfl
@[simp] theorem State.later_tileops (s : State) (n : Nat) (i : Instr) (a b c : Nat) (v : DWord) : (s.later n i a b c v).tileops = s.tileops := rfl
@[simp] theorem State.later_engines (s : State) (n : Nat) (i : Instr) (a b c : Nat) (v : DWord) : (s.later n i a b c v).engines = s.engines := rfl
@[simp] theorem State.later_sectors (s : State) (n : Nat) (i : Instr) (a b c : Nat) (v : DWord) : (s.later n i a b c v).sectors = s.sectors := rfl
@[simp] theorem State.later_leases (s : State) (n : Nat) (i : Instr) (a b c : Nat) (v : DWord) : (s.later n i a b c v).leases = s.leases := rfl
@[simp] theorem State.later_cmds (s : State) (n : Nat) (i : Instr) (a b c : Nat) (v : DWord) : (s.later n i a b c v).cmds = s.cmds := rfl
@[simp] theorem State.later_tiles (s : State) (n : Nat) (i : Instr) (a b c : Nat) (v : DWord) : (s.later n i a b c v).tiles = s.tiles := rfl
@[simp] theorem State.later_tenures (s : State) (n : Nat) (i : Instr) (a b c : Nat) (v : DWord) : (s.later n i a b c v).tenures = s.tenures := rfl
@[simp] theorem State.later_held (s : State) (n : Nat) (i : Instr) (a b c : Nat) (v : DWord) : (s.later n i a b c v).held = s.held := rfl
@[simp] theorem State.later_columns (s : State) (n : Nat) (i : Instr) (a b c : Nat) (v : DWord) : (s.later n i a b c v).columns = s.columns := rfl
@[simp] theorem State.later_stackMib (s : State) (n : Nat) (i : Instr) (a b c : Nat) (v : DWord) : (s.later n i a b c v).stackMib = s.stackMib := rfl
@[simp] theorem State.later_remaps (s : State) (n : Nat) (i : Instr) (a b c : Nat) (v : DWord) : (s.later n i a b c v).remaps = s.remaps := rfl
@[simp] theorem State.later_buckets (s : State) (n : Nat) (i : Instr) (a b c : Nat) (v : DWord) : (s.later n i a b c v).buckets = s.buckets := rfl
@[simp] theorem State.later_lastCharge (s : State) (n : Nat) (i : Instr) (a b c : Nat) (v : DWord) : (s.later n i a b c v).lastCharge = s.lastCharge := rfl
@[simp] theorem State.later_refilled (s : State) (n : Nat) (i : Instr) (a b c : Nat) (v : DWord) : (s.later n i a b c v).refilled = s.refilled := rfl
@[simp] theorem State.later_kills (s : State) (n : Nat) (i : Instr) (a b c : Nat) (v : DWord) : (s.later n i a b c v).kills = s.kills := rfl
@[simp] theorem State.later_scan (s : State) (n : Nat) (i : Instr) (a b c : Nat) (v : DWord) : (s.later n i a b c v).scan = s.scan := rfl
@[simp] theorem State.later_errlog (s : State) (n : Nat) (i : Instr) (a b c : Nat) (v : DWord) : (s.later n i a b c v).errlog = s.errlog := rfl
@[simp] theorem State.later_errCorr (s : State) (n : Nat) (i : Instr) (a b c : Nat) (v : DWord) : (s.later n i a b c v).errCorr = s.errCorr := rfl
@[simp] theorem State.later_errUncorr (s : State) (n : Nat) (i : Instr) (a b c : Nat) (v : DWord) : (s.later n i a b c v).errUncorr = s.errUncorr := rfl
@[simp] theorem State.later_errHead (s : State) (n : Nat) (i : Instr) (a b c : Nat) (v : DWord) : (s.later n i a b c v).errHead = s.errHead := rfl
@[simp] theorem State.later_posts (s : State) (n : Nat) (i : Instr) (a b c : Nat) (v : DWord) : (s.later n i a b c v).posts = s.posts := rfl
@[simp] theorem State.later_trapvec (s : State) (n : Nat) (i : Instr) (a b c : Nat) (v : DWord) : (s.later n i a b c v).trapvec = s.trapvec := rfl
@[simp] theorem State.later_dbgctl (s : State) (n : Nat) (i : Instr) (a b c : Nat) (v : DWord) : (s.later n i a b c v).dbgctl = s.dbgctl := rfl
@[simp] theorem State.later_bkaddr (s : State) (n : Nat) (i : Instr) (a b c : Nat) (v : DWord) : (s.later n i a b c v).bkaddr = s.bkaddr := rfl
@[simp] theorem State.later_hfcount (s : State) (n : Nat) (i : Instr) (a b c : Nat) (v : DWord) : (s.later n i a b c v).hfcount = s.hfcount := rfl
@[simp] theorem State.later_asidtab (s : State) (n : Nat) (i : Instr) (a b c : Nat) (v : DWord) : (s.later n i a b c v).asidtab = s.asidtab := rfl
@[simp] theorem State.later_pageq (s : State) (n : Nat) (i : Instr) (a b c : Nat) (v : DWord) : (s.later n i a b c v).pageq = s.pageq := rfl
@[simp] theorem State.later_pageDb (s : State) (n : Nat) (i : Instr) (a b c : Nat) (v : DWord) : (s.later n i a b c v).pageDb = s.pageDb := rfl
@[simp] theorem State.later_pageJob (s : State) (n : Nat) (i : Instr) (a b c : Nat) (v : DWord) : (s.later n i a b c v).pageJob = s.pageJob := rfl
@[simp] theorem State.later_partcfg (s : State) (n : Nat) (i : Instr) (a b c : Nat) (v : DWord) : (s.later n i a b c v).partcfg = s.partcfg := rfl
@[simp] theorem State.later_lqbase (s : State) (n : Nat) (i : Instr) (a b c : Nat) (v : DWord) : (s.later n i a b c v).lqbase = s.lqbase := rfl
@[simp] theorem State.later_capmap (s : State) (n : Nat) (i : Instr) (a b c : Nat) (v : DWord) : (s.later n i a b c v).capmap = s.capmap := rfl
@[simp] theorem State.later_slmcarve (s : State) (n : Nat) (i : Instr) (a b c : Nat) (v : DWord) : (s.later n i a b c v).slmcarve = s.slmcarve := rfl
@[simp] theorem State.later_tilebud (s : State) (n : Nat) (i : Instr) (a b c : Nat) (v : DWord) : (s.later n i a b c v).tilebud = s.tilebud := rfl
@[simp] theorem State.later_hashmask (s : State) (n : Nat) (i : Instr) (a b c : Nat) (v : DWord) : (s.later n i a b c v).hashmask = s.hashmask := rfl
@[simp] theorem State.later_slicetab (s : State) (n : Nat) (i : Instr) (a b c : Nat) (v : DWord) : (s.later n i a b c v).slicetab = s.slicetab := rfl
@[simp] theorem State.later_hashLive (s : State) (n : Nat) (i : Instr) (a b c : Nat) (v : DWord) : (s.later n i a b c v).hashLive = s.hashLive := rfl
@[simp] theorem State.later_sliceLive (s : State) (n : Nat) (i : Instr) (a b c : Nat) (v : DWord) : (s.later n i a b c v).sliceLive = s.sliceLive := rfl
@[simp] theorem State.later_tkshare (s : State) (n : Nat) (i : Instr) (a b c : Nat) (v : DWord) : (s.later n i a b c v).tkshare = s.tkshare := rfl
@[simp] theorem State.later_engbudget (s : State) (n : Nat) (i : Instr) (a b c : Nat) (v : DWord) : (s.later n i a b c v).engbudget = s.engbudget := rfl
@[simp] theorem State.later_harvest (s : State) (n : Nat) (i : Instr) (a b c : Nat) (v : DWord) : (s.later n i a b c v).harvest = s.harvest := rfl
@[simp] theorem State.later_drcfg (s : State) (n : Nat) (i : Instr) (a b c : Nat) (v : DWord) : (s.later n i a b c v).drcfg = s.drcfg := rfl
@[simp] theorem State.later_drroute (s : State) (n : Nat) (i : Instr) (a b c : Nat) (v : DWord) : (s.later n i a b c v).drroute = s.drroute := rfl
@[simp] theorem State.later_hostwin (s : State) (n : Nat) (i : Instr) (a b c : Nat) (v : DWord) : (s.later n i a b c v).hostwin = s.hostwin := rfl
@[simp] theorem State.later_objtab (s : State) (n : Nat) (i : Instr) (a b c : Nat) (v : DWord) : (s.later n i a b c v).objtab = s.objtab := rfl
@[simp] theorem State.later_remapReg (s : State) (n : Nat) (i : Instr) (a b c : Nat) (v : DWord) : (s.later n i a b c v).remapReg = s.remapReg := rfl
@[simp] theorem State.later_pwrctl (s : State) (n : Nat) (i : Instr) (a b c : Nat) (v : DWord) : (s.later n i a b c v).pwrctl = s.pwrctl := rfl
@[simp] theorem State.later_stage (s : State) (n : Nat) (i : Instr) (a b c : Nat) (v : DWord) : (s.later n i a b c v).stage = s.stage := rfl
@[simp] theorem State.later_fail (s : State) (n : Nat) (i : Instr) (a b c : Nat) (v : DWord) : (s.later n i a b c v).fail = s.fail := rfl
@[simp] theorem State.later_trip (s : State) (n : Nat) (i : Instr) (a b c : Nat) (v : DWord) : (s.later n i a b c v).trip = s.trip := rfl
@[simp] theorem State.later_fwsvn (s : State) (n : Nat) (i : Instr) (a b c : Nat) (v : DWord) : (s.later n i a b c v).fwsvn = s.fwsvn := rfl
@[simp] theorem State.later_measurement (s : State) (n : Nat) (i : Instr) (a b c : Nat) (v : DWord) : (s.later n i a b c v).measurement = s.measurement := rfl
@[simp] theorem State.later_d3hot (s : State) (n : Nat) (i : Instr) (a b c : Nat) (v : DWord) : (s.later n i a b c v).d3hot = s.d3hot := rfl
@[simp] theorem State.later_fwHalted (s : State) (n : Nat) (i : Instr) (a b c : Nat) (v : DWord) : (s.later n i a b c v).fwHalted = s.fwHalted := rfl
@[simp] theorem State.later_gul (s : State) (n : Nat) (i : Instr) (a b c : Nat) (v : DWord) : (s.later n i a b c v).gul = s.gul := rfl

/-! ## `State.post` changes `posts` -/

@[simp] theorem State.post_now (s : State) (p : Post) : (s.post p).now = s.now := rfl
@[simp] theorem State.post_resetAt (s : State) (p : Post) : (s.post p).resetAt = s.resetAt := rfl
@[simp] theorem State.post_ph (s : State) (p : Post) : (s.post p).ph = s.ph := rfl
@[simp] theorem State.post_cur (s : State) (p : Post) : (s.post p).cur = s.cur := rfl
@[simp] theorem State.post_act (s : State) (p : Post) : (s.post p).act = s.act := rfl
@[simp] theorem State.post_issued (s : State) (p : Post) : (s.post p).issued = s.issued := rfl
@[simp] theorem State.post_ipc (s : State) (p : Post) : (s.post p).ipc = s.ipc := rfl
@[simp] theorem State.post_npc (s : State) (p : Post) : (s.post p).npc = s.npc := rfl
@[simp] theorem State.post_ev (s : State) (p : Post) : (s.post p).ev = s.ev := rfl
@[simp] theorem State.post_free (s : State) (p : Post) : (s.post p).free = s.free := rfl
@[simp] theorem State.post_seq (s : State) (p : Post) : (s.post p).seq = s.seq := rfl
@[simp] theorem State.post_agenda (s : State) (p : Post) : (s.post p).agenda = s.agenda := rfl
@[simp] theorem State.post_warps (s : State) (p : Post) : (s.post p).warps = s.warps := rfl
@[simp] theorem State.post_teams (s : State) (p : Post) : (s.post p).teams = s.teams := rfl
@[simp] theorem State.post_saves (s : State) (p : Post) : (s.post p).saves = s.saves := rfl
@[simp] theorem State.post_grids (s : State) (p : Post) : (s.post p).grids = s.grids := rfl
@[simp] theorem State.post_bins (s : State) (p : Post) : (s.post p).bins = s.bins := rfl
@[simp] theorem State.post_parts (s : State) (p : Post) : (s.post p).parts = s.parts := rfl
@[simp] theorem State.post_quarters (s : State) (p : Post) : (s.post p).quarters = s.quarters := rfl
@[simp] theorem State.post_memops (s : State) (p : Post) : (s.post p).memops = s.memops := rfl
@[simp] theorem State.post_reqs (s : State) (p : Post) : (s.post p).reqs = s.reqs := rfl
@[simp] theorem State.post_walks (s : State) (p : Post) : (s.post p).walks = s.walks := rfl
@[simp] theorem State.post_tlb (s : State) (p : Post) : (s.post p).tlb = s.tlb := rfl
@[simp] theorem State.post_l1 (s : State) (p : Post) : (s.post p).l1 = s.l1 := rfl
@[simp] theorem State.post_icache (s : State) (p : Post) : (s.post p).icache = s.icache := rfl
@[simp] theorem State.post_l2 (s : State) (p : Post) : (s.post p).l2 = s.l2 := rfl
@[simp] theorem State.post_filledSlices (s : State) (p : Post) : (s.post p).filledSlices = s.filledSlices := rfl
@[simp] theorem State.post_published (s : State) (p : Post) : (s.post p).published = s.published := rfl
@[simp] theorem State.post_gens (s : State) (p : Post) : (s.post p).gens = s.gens := rfl
@[simp] theorem State.post_poisoned (s : State) (p : Post) : (s.post p).poisoned = s.poisoned := rfl
@[simp] theorem State.post_dram (s : State) (p : Post) : (s.post p).dram = s.dram := rfl
@[simp] theorem State.post_remote (s : State) (p : Post) : (s.post p).remote = s.remote := rfl
@[simp] theorem State.post_codes (s : State) (p : Post) : (s.post p).codes = s.codes := rfl
@[simp] theorem State.post_queues (s : State) (p : Post) : (s.post p).queues = s.queues := rfl
@[simp] theorem State.post_lineops (s : State) (p : Post) : (s.post p).lineops = s.lineops := rfl
@[simp] theorem State.post_channels (s : State) (p : Post) : (s.post p).channels = s.channels := rfl
@[simp] theorem State.post_msgs (s : State) (p : Post) : (s.post p).msgs = s.msgs := rfl
@[simp] theorem State.post_xfers (s : State) (p : Post) : (s.post p).xfers = s.xfers := rfl
@[simp] theorem State.post_tileops (s : State) (p : Post) : (s.post p).tileops = s.tileops := rfl
@[simp] theorem State.post_engines (s : State) (p : Post) : (s.post p).engines = s.engines := rfl
@[simp] theorem State.post_sectors (s : State) (p : Post) : (s.post p).sectors = s.sectors := rfl
@[simp] theorem State.post_leases (s : State) (p : Post) : (s.post p).leases = s.leases := rfl
@[simp] theorem State.post_cmds (s : State) (p : Post) : (s.post p).cmds = s.cmds := rfl
@[simp] theorem State.post_tiles (s : State) (p : Post) : (s.post p).tiles = s.tiles := rfl
@[simp] theorem State.post_tenures (s : State) (p : Post) : (s.post p).tenures = s.tenures := rfl
@[simp] theorem State.post_held (s : State) (p : Post) : (s.post p).held = s.held := rfl
@[simp] theorem State.post_columns (s : State) (p : Post) : (s.post p).columns = s.columns := rfl
@[simp] theorem State.post_stackMib (s : State) (p : Post) : (s.post p).stackMib = s.stackMib := rfl
@[simp] theorem State.post_remaps (s : State) (p : Post) : (s.post p).remaps = s.remaps := rfl
@[simp] theorem State.post_buckets (s : State) (p : Post) : (s.post p).buckets = s.buckets := rfl
@[simp] theorem State.post_lastCharge (s : State) (p : Post) : (s.post p).lastCharge = s.lastCharge := rfl
@[simp] theorem State.post_refilled (s : State) (p : Post) : (s.post p).refilled = s.refilled := rfl
@[simp] theorem State.post_kills (s : State) (p : Post) : (s.post p).kills = s.kills := rfl
@[simp] theorem State.post_scan (s : State) (p : Post) : (s.post p).scan = s.scan := rfl
@[simp] theorem State.post_errlog (s : State) (p : Post) : (s.post p).errlog = s.errlog := rfl
@[simp] theorem State.post_errCorr (s : State) (p : Post) : (s.post p).errCorr = s.errCorr := rfl
@[simp] theorem State.post_errUncorr (s : State) (p : Post) : (s.post p).errUncorr = s.errUncorr := rfl
@[simp] theorem State.post_errHead (s : State) (p : Post) : (s.post p).errHead = s.errHead := rfl
@[simp] theorem State.post_trapvec (s : State) (p : Post) : (s.post p).trapvec = s.trapvec := rfl
@[simp] theorem State.post_dbgctl (s : State) (p : Post) : (s.post p).dbgctl = s.dbgctl := rfl
@[simp] theorem State.post_bkaddr (s : State) (p : Post) : (s.post p).bkaddr = s.bkaddr := rfl
@[simp] theorem State.post_hfcount (s : State) (p : Post) : (s.post p).hfcount = s.hfcount := rfl
@[simp] theorem State.post_asidtab (s : State) (p : Post) : (s.post p).asidtab = s.asidtab := rfl
@[simp] theorem State.post_pageq (s : State) (p : Post) : (s.post p).pageq = s.pageq := rfl
@[simp] theorem State.post_pageDb (s : State) (p : Post) : (s.post p).pageDb = s.pageDb := rfl
@[simp] theorem State.post_pageJob (s : State) (p : Post) : (s.post p).pageJob = s.pageJob := rfl
@[simp] theorem State.post_partcfg (s : State) (p : Post) : (s.post p).partcfg = s.partcfg := rfl
@[simp] theorem State.post_lqbase (s : State) (p : Post) : (s.post p).lqbase = s.lqbase := rfl
@[simp] theorem State.post_capmap (s : State) (p : Post) : (s.post p).capmap = s.capmap := rfl
@[simp] theorem State.post_slmcarve (s : State) (p : Post) : (s.post p).slmcarve = s.slmcarve := rfl
@[simp] theorem State.post_tilebud (s : State) (p : Post) : (s.post p).tilebud = s.tilebud := rfl
@[simp] theorem State.post_hashmask (s : State) (p : Post) : (s.post p).hashmask = s.hashmask := rfl
@[simp] theorem State.post_slicetab (s : State) (p : Post) : (s.post p).slicetab = s.slicetab := rfl
@[simp] theorem State.post_hashLive (s : State) (p : Post) : (s.post p).hashLive = s.hashLive := rfl
@[simp] theorem State.post_sliceLive (s : State) (p : Post) : (s.post p).sliceLive = s.sliceLive := rfl
@[simp] theorem State.post_tkshare (s : State) (p : Post) : (s.post p).tkshare = s.tkshare := rfl
@[simp] theorem State.post_engbudget (s : State) (p : Post) : (s.post p).engbudget = s.engbudget := rfl
@[simp] theorem State.post_harvest (s : State) (p : Post) : (s.post p).harvest = s.harvest := rfl
@[simp] theorem State.post_drcfg (s : State) (p : Post) : (s.post p).drcfg = s.drcfg := rfl
@[simp] theorem State.post_drroute (s : State) (p : Post) : (s.post p).drroute = s.drroute := rfl
@[simp] theorem State.post_hostwin (s : State) (p : Post) : (s.post p).hostwin = s.hostwin := rfl
@[simp] theorem State.post_objtab (s : State) (p : Post) : (s.post p).objtab = s.objtab := rfl
@[simp] theorem State.post_remapReg (s : State) (p : Post) : (s.post p).remapReg = s.remapReg := rfl
@[simp] theorem State.post_pwrctl (s : State) (p : Post) : (s.post p).pwrctl = s.pwrctl := rfl
@[simp] theorem State.post_stage (s : State) (p : Post) : (s.post p).stage = s.stage := rfl
@[simp] theorem State.post_fail (s : State) (p : Post) : (s.post p).fail = s.fail := rfl
@[simp] theorem State.post_trip (s : State) (p : Post) : (s.post p).trip = s.trip := rfl
@[simp] theorem State.post_fwsvn (s : State) (p : Post) : (s.post p).fwsvn = s.fwsvn := rfl
@[simp] theorem State.post_measurement (s : State) (p : Post) : (s.post p).measurement = s.measurement := rfl
@[simp] theorem State.post_d3hot (s : State) (p : Post) : (s.post p).d3hot = s.d3hot := rfl
@[simp] theorem State.post_fwHalted (s : State) (p : Post) : (s.post p).fwHalted = s.fwHalted := rfl
@[simp] theorem State.post_gul (s : State) (p : Post) : (s.post p).gul = s.gul := rfl

/-! ## `State.bumpSeq` changes `seq` -/

@[simp] theorem State.bumpSeq_now (s : State) : (s.bumpSeq).now = s.now := rfl
@[simp] theorem State.bumpSeq_resetAt (s : State) : (s.bumpSeq).resetAt = s.resetAt := rfl
@[simp] theorem State.bumpSeq_ph (s : State) : (s.bumpSeq).ph = s.ph := rfl
@[simp] theorem State.bumpSeq_cur (s : State) : (s.bumpSeq).cur = s.cur := rfl
@[simp] theorem State.bumpSeq_act (s : State) : (s.bumpSeq).act = s.act := rfl
@[simp] theorem State.bumpSeq_issued (s : State) : (s.bumpSeq).issued = s.issued := rfl
@[simp] theorem State.bumpSeq_ipc (s : State) : (s.bumpSeq).ipc = s.ipc := rfl
@[simp] theorem State.bumpSeq_npc (s : State) : (s.bumpSeq).npc = s.npc := rfl
@[simp] theorem State.bumpSeq_ev (s : State) : (s.bumpSeq).ev = s.ev := rfl
@[simp] theorem State.bumpSeq_free (s : State) : (s.bumpSeq).free = s.free := rfl
@[simp] theorem State.bumpSeq_agenda (s : State) : (s.bumpSeq).agenda = s.agenda := rfl
@[simp] theorem State.bumpSeq_warps (s : State) : (s.bumpSeq).warps = s.warps := rfl
@[simp] theorem State.bumpSeq_teams (s : State) : (s.bumpSeq).teams = s.teams := rfl
@[simp] theorem State.bumpSeq_saves (s : State) : (s.bumpSeq).saves = s.saves := rfl
@[simp] theorem State.bumpSeq_grids (s : State) : (s.bumpSeq).grids = s.grids := rfl
@[simp] theorem State.bumpSeq_bins (s : State) : (s.bumpSeq).bins = s.bins := rfl
@[simp] theorem State.bumpSeq_parts (s : State) : (s.bumpSeq).parts = s.parts := rfl
@[simp] theorem State.bumpSeq_quarters (s : State) : (s.bumpSeq).quarters = s.quarters := rfl
@[simp] theorem State.bumpSeq_memops (s : State) : (s.bumpSeq).memops = s.memops := rfl
@[simp] theorem State.bumpSeq_reqs (s : State) : (s.bumpSeq).reqs = s.reqs := rfl
@[simp] theorem State.bumpSeq_walks (s : State) : (s.bumpSeq).walks = s.walks := rfl
@[simp] theorem State.bumpSeq_tlb (s : State) : (s.bumpSeq).tlb = s.tlb := rfl
@[simp] theorem State.bumpSeq_l1 (s : State) : (s.bumpSeq).l1 = s.l1 := rfl
@[simp] theorem State.bumpSeq_icache (s : State) : (s.bumpSeq).icache = s.icache := rfl
@[simp] theorem State.bumpSeq_l2 (s : State) : (s.bumpSeq).l2 = s.l2 := rfl
@[simp] theorem State.bumpSeq_filledSlices (s : State) : (s.bumpSeq).filledSlices = s.filledSlices := rfl
@[simp] theorem State.bumpSeq_published (s : State) : (s.bumpSeq).published = s.published := rfl
@[simp] theorem State.bumpSeq_gens (s : State) : (s.bumpSeq).gens = s.gens := rfl
@[simp] theorem State.bumpSeq_poisoned (s : State) : (s.bumpSeq).poisoned = s.poisoned := rfl
@[simp] theorem State.bumpSeq_dram (s : State) : (s.bumpSeq).dram = s.dram := rfl
@[simp] theorem State.bumpSeq_remote (s : State) : (s.bumpSeq).remote = s.remote := rfl
@[simp] theorem State.bumpSeq_codes (s : State) : (s.bumpSeq).codes = s.codes := rfl
@[simp] theorem State.bumpSeq_queues (s : State) : (s.bumpSeq).queues = s.queues := rfl
@[simp] theorem State.bumpSeq_lineops (s : State) : (s.bumpSeq).lineops = s.lineops := rfl
@[simp] theorem State.bumpSeq_channels (s : State) : (s.bumpSeq).channels = s.channels := rfl
@[simp] theorem State.bumpSeq_msgs (s : State) : (s.bumpSeq).msgs = s.msgs := rfl
@[simp] theorem State.bumpSeq_xfers (s : State) : (s.bumpSeq).xfers = s.xfers := rfl
@[simp] theorem State.bumpSeq_tileops (s : State) : (s.bumpSeq).tileops = s.tileops := rfl
@[simp] theorem State.bumpSeq_engines (s : State) : (s.bumpSeq).engines = s.engines := rfl
@[simp] theorem State.bumpSeq_sectors (s : State) : (s.bumpSeq).sectors = s.sectors := rfl
@[simp] theorem State.bumpSeq_leases (s : State) : (s.bumpSeq).leases = s.leases := rfl
@[simp] theorem State.bumpSeq_cmds (s : State) : (s.bumpSeq).cmds = s.cmds := rfl
@[simp] theorem State.bumpSeq_tiles (s : State) : (s.bumpSeq).tiles = s.tiles := rfl
@[simp] theorem State.bumpSeq_tenures (s : State) : (s.bumpSeq).tenures = s.tenures := rfl
@[simp] theorem State.bumpSeq_held (s : State) : (s.bumpSeq).held = s.held := rfl
@[simp] theorem State.bumpSeq_columns (s : State) : (s.bumpSeq).columns = s.columns := rfl
@[simp] theorem State.bumpSeq_stackMib (s : State) : (s.bumpSeq).stackMib = s.stackMib := rfl
@[simp] theorem State.bumpSeq_remaps (s : State) : (s.bumpSeq).remaps = s.remaps := rfl
@[simp] theorem State.bumpSeq_buckets (s : State) : (s.bumpSeq).buckets = s.buckets := rfl
@[simp] theorem State.bumpSeq_lastCharge (s : State) : (s.bumpSeq).lastCharge = s.lastCharge := rfl
@[simp] theorem State.bumpSeq_refilled (s : State) : (s.bumpSeq).refilled = s.refilled := rfl
@[simp] theorem State.bumpSeq_kills (s : State) : (s.bumpSeq).kills = s.kills := rfl
@[simp] theorem State.bumpSeq_scan (s : State) : (s.bumpSeq).scan = s.scan := rfl
@[simp] theorem State.bumpSeq_errlog (s : State) : (s.bumpSeq).errlog = s.errlog := rfl
@[simp] theorem State.bumpSeq_errCorr (s : State) : (s.bumpSeq).errCorr = s.errCorr := rfl
@[simp] theorem State.bumpSeq_errUncorr (s : State) : (s.bumpSeq).errUncorr = s.errUncorr := rfl
@[simp] theorem State.bumpSeq_errHead (s : State) : (s.bumpSeq).errHead = s.errHead := rfl
@[simp] theorem State.bumpSeq_posts (s : State) : (s.bumpSeq).posts = s.posts := rfl
@[simp] theorem State.bumpSeq_trapvec (s : State) : (s.bumpSeq).trapvec = s.trapvec := rfl
@[simp] theorem State.bumpSeq_dbgctl (s : State) : (s.bumpSeq).dbgctl = s.dbgctl := rfl
@[simp] theorem State.bumpSeq_bkaddr (s : State) : (s.bumpSeq).bkaddr = s.bkaddr := rfl
@[simp] theorem State.bumpSeq_hfcount (s : State) : (s.bumpSeq).hfcount = s.hfcount := rfl
@[simp] theorem State.bumpSeq_asidtab (s : State) : (s.bumpSeq).asidtab = s.asidtab := rfl
@[simp] theorem State.bumpSeq_pageq (s : State) : (s.bumpSeq).pageq = s.pageq := rfl
@[simp] theorem State.bumpSeq_pageDb (s : State) : (s.bumpSeq).pageDb = s.pageDb := rfl
@[simp] theorem State.bumpSeq_pageJob (s : State) : (s.bumpSeq).pageJob = s.pageJob := rfl
@[simp] theorem State.bumpSeq_partcfg (s : State) : (s.bumpSeq).partcfg = s.partcfg := rfl
@[simp] theorem State.bumpSeq_lqbase (s : State) : (s.bumpSeq).lqbase = s.lqbase := rfl
@[simp] theorem State.bumpSeq_capmap (s : State) : (s.bumpSeq).capmap = s.capmap := rfl
@[simp] theorem State.bumpSeq_slmcarve (s : State) : (s.bumpSeq).slmcarve = s.slmcarve := rfl
@[simp] theorem State.bumpSeq_tilebud (s : State) : (s.bumpSeq).tilebud = s.tilebud := rfl
@[simp] theorem State.bumpSeq_hashmask (s : State) : (s.bumpSeq).hashmask = s.hashmask := rfl
@[simp] theorem State.bumpSeq_slicetab (s : State) : (s.bumpSeq).slicetab = s.slicetab := rfl
@[simp] theorem State.bumpSeq_hashLive (s : State) : (s.bumpSeq).hashLive = s.hashLive := rfl
@[simp] theorem State.bumpSeq_sliceLive (s : State) : (s.bumpSeq).sliceLive = s.sliceLive := rfl
@[simp] theorem State.bumpSeq_tkshare (s : State) : (s.bumpSeq).tkshare = s.tkshare := rfl
@[simp] theorem State.bumpSeq_engbudget (s : State) : (s.bumpSeq).engbudget = s.engbudget := rfl
@[simp] theorem State.bumpSeq_harvest (s : State) : (s.bumpSeq).harvest = s.harvest := rfl
@[simp] theorem State.bumpSeq_drcfg (s : State) : (s.bumpSeq).drcfg = s.drcfg := rfl
@[simp] theorem State.bumpSeq_drroute (s : State) : (s.bumpSeq).drroute = s.drroute := rfl
@[simp] theorem State.bumpSeq_hostwin (s : State) : (s.bumpSeq).hostwin = s.hostwin := rfl
@[simp] theorem State.bumpSeq_objtab (s : State) : (s.bumpSeq).objtab = s.objtab := rfl
@[simp] theorem State.bumpSeq_remapReg (s : State) : (s.bumpSeq).remapReg = s.remapReg := rfl
@[simp] theorem State.bumpSeq_pwrctl (s : State) : (s.bumpSeq).pwrctl = s.pwrctl := rfl
@[simp] theorem State.bumpSeq_stage (s : State) : (s.bumpSeq).stage = s.stage := rfl
@[simp] theorem State.bumpSeq_fail (s : State) : (s.bumpSeq).fail = s.fail := rfl
@[simp] theorem State.bumpSeq_trip (s : State) : (s.bumpSeq).trip = s.trip := rfl
@[simp] theorem State.bumpSeq_fwsvn (s : State) : (s.bumpSeq).fwsvn = s.fwsvn := rfl
@[simp] theorem State.bumpSeq_measurement (s : State) : (s.bumpSeq).measurement = s.measurement := rfl
@[simp] theorem State.bumpSeq_d3hot (s : State) : (s.bumpSeq).d3hot = s.d3hot := rfl
@[simp] theorem State.bumpSeq_fwHalted (s : State) : (s.bumpSeq).fwHalted = s.fwHalted := rfl
@[simp] theorem State.bumpSeq_gul (s : State) : (s.bumpSeq).gul = s.gul := rfl

/-! ## `Warp.mapLanes` changes `lanes` -/

@[simp] theorem Warp.mapLanes_live (x : Warp) (f : Nat → Lane → Lane) : (x.mapLanes f).live = x.live := rfl
@[simp] theorem Warp.mapLanes_team (x : Warp) (f : Nat → Lane → Lane) : (x.mapLanes f).team = x.team := rfl
@[simp] theorem Warp.mapLanes_num (x : Warp) (f : Nat → Lane → Lane) : (x.mapLanes f).num = x.num := rfl
@[simp] theorem Warp.mapLanes_core (x : Warp) (f : Nat → Lane → Lane) : (x.mapLanes f).core = x.core := rfl
@[simp] theorem Warp.mapLanes_quarter (x : Warp) (f : Nat → Lane → Lane) : (x.mapLanes f).quarter = x.quarter := rfl
@[simp] theorem Warp.mapLanes_slot (x : Warp) (f : Nat → Lane → Lane) : (x.mapLanes f).slot = x.slot := rfl
@[simp] theorem Warp.mapLanes_placed (x : Warp) (f : Nat → Lane → Lane) : (x.mapLanes f).placed = x.placed := rfl
@[simp] theorem Warp.mapLanes_nregs (x : Warp) (f : Nat → Lane → Lane) : (x.mapLanes f).nregs = x.nregs := rfl
@[simp] theorem Warp.mapLanes_lo (x : Warp) (f : Nat → Lane → Lane) : (x.mapLanes f).lo = x.lo := rfl
@[simp] theorem Warp.mapLanes_hi (x : Warp) (f : Nat → Lane → Lane) : (x.mapLanes f).hi = x.hi := rfl
@[simp] theorem Warp.mapLanes_s (x : Warp) (f : Nat → Lane → Lane) : (x.mapLanes f).s = x.s := rfl
@[simp] theorem Warp.mapLanes_m (x : Warp) (f : Nat → Lane → Lane) : (x.mapLanes f).m = x.m := rfl
@[simp] theorem Warp.mapLanes_ws (x : Warp) (f : Nat → Lane → Lane) : (x.mapLanes f).ws = x.ws := rfl
@[simp] theorem Warp.mapLanes_latched (x : Warp) (f : Nat → Lane → Lane) : (x.mapLanes f).latched = x.latched := rfl
@[simp] theorem Warp.mapLanes_oq (x : Warp) (f : Nat → Lane → Lane) : (x.mapLanes f).oq = x.oq := rfl
@[simp] theorem Warp.mapLanes_ld (x : Warp) (f : Nat → Lane → Lane) : (x.mapLanes f).ld = x.ld := rfl
@[simp] theorem Warp.mapLanes_st (x : Warp) (f : Nat → Lane → Lane) : (x.mapLanes f).st = x.st := rfl
@[simp] theorem Warp.mapLanes_cp (x : Warp) (f : Nat → Lane → Lane) : (x.mapLanes f).cp = x.cp := rfl
@[simp] theorem Warp.mapLanes_tl (x : Warp) (f : Nat → Lane → Lane) : (x.mapLanes f).tl = x.tl := rfl
@[simp] theorem Warp.mapLanes_hmode (x : Warp) (f : Nat → Lane → Lane) : (x.mapLanes f).hmode = x.hmode := rfl
@[simp] theorem Warp.mapLanes_hpc (x : Warp) (f : Nat → Lane → Lane) : (x.mapLanes f).hpc = x.hpc := rfl
@[simp] theorem Warp.mapLanes_cause (x : Warp) (f : Nat → Lane → Lane) : (x.mapLanes f).cause = x.cause := rfl
@[simp] theorem Warp.mapLanes_traps (x : Warp) (f : Nat → Lane → Lane) : (x.mapLanes f).traps = x.traps := rfl
@[simp] theorem Warp.mapLanes_dbgSkip (x : Warp) (f : Nat → Lane → Lane) : (x.mapLanes f).dbgSkip = x.dbgSkip := rfl
@[simp] theorem Warp.mapLanes_arrived (x : Warp) (f : Nat → Lane → Lane) : (x.mapLanes f).arrived = x.arrived := rfl
@[simp] theorem Warp.mapLanes_barAt (x : Warp) (f : Nat → Lane → Lane) : (x.mapLanes f).barAt = x.barAt := rfl
@[simp] theorem Warp.mapLanes_tickets (x : Warp) (f : Nat → Lane → Lane) : (x.mapLanes f).tickets = x.tickets := rfl
@[simp] theorem Warp.mapLanes_tiles (x : Warp) (f : Nat → Lane → Lane) : (x.mapLanes f).tiles = x.tiles := rfl
@[simp] theorem Warp.mapLanes_retryAt (x : Warp) (f : Nat → Lane → Lane) : (x.mapLanes f).retryAt = x.retryAt := rfl
@[simp] theorem Warp.mapLanes_choice (x : Warp) (f : Nat → Lane → Lane) : (x.mapLanes f).choice = x.choice := rfl
@[simp] theorem Warp.mapLanes_pending (x : Warp) (f : Nat → Lane → Lane) : (x.mapLanes f).pending = x.pending := rfl
@[simp] theorem Warp.mapLanes_stalled (x : Warp) (f : Nat → Lane → Lane) : (x.mapLanes f).stalled = x.stalled := rfl
@[simp] theorem Warp.mapLanes_portSince (x : Warp) (f : Nat → Lane → Lane) : (x.mapLanes f).portSince = x.portSince := rfl
@[simp] theorem Warp.mapLanes_rdv (x : Warp) (f : Nat → Lane → Lane) : (x.mapLanes f).rdv = x.rdv := rfl
@[simp] theorem Warp.mapLanes_rdvAt (x : Warp) (f : Nat → Lane → Lane) : (x.mapLanes f).rdvAt = x.rdvAt := rfl
@[simp] theorem Warp.mapLanes_recs (x : Warp) (f : Nat → Lane → Lane) : (x.mapLanes f).recs = x.recs := rfl
@[simp] theorem Warp.mapLanes_deliv (x : Warp) (f : Nat → Lane → Lane) : (x.mapLanes f).deliv = x.deliv := rfl
@[simp] theorem Warp.mapLanes_ended (x : Warp) (f : Nat → Lane → Lane) : (x.mapLanes f).ended = x.ended := rfl
@[simp] theorem Warp.mapLanes_busyTo (x : Warp) (f : Nat → Lane → Lane) : (x.mapLanes f).busyTo = x.busyTo := rfl
@[simp] theorem Warp.mapLanes_lowered (x : Warp) (f : Nat → Lane → Lane) : (x.mapLanes f).lowered = x.lowered := rfl
@[simp] theorem Warp.mapLanes_failing (x : Warp) (f : Nat → Lane → Lane) : (x.mapLanes f).failing = x.failing := rfl
@[simp] theorem Warp.mapLanes_acq (x : Warp) (f : Nat → Lane → Lane) : (x.mapLanes f).acq = x.acq := rfl

/-! ## `Warp.setS` changes `s` -/

@[simp] theorem Warp.setS_live (x : Warp) (r : Nat) (v : Word) : (x.setS r v).live = x.live := rfl
@[simp] theorem Warp.setS_team (x : Warp) (r : Nat) (v : Word) : (x.setS r v).team = x.team := rfl
@[simp] theorem Warp.setS_num (x : Warp) (r : Nat) (v : Word) : (x.setS r v).num = x.num := rfl
@[simp] theorem Warp.setS_core (x : Warp) (r : Nat) (v : Word) : (x.setS r v).core = x.core := rfl
@[simp] theorem Warp.setS_quarter (x : Warp) (r : Nat) (v : Word) : (x.setS r v).quarter = x.quarter := rfl
@[simp] theorem Warp.setS_slot (x : Warp) (r : Nat) (v : Word) : (x.setS r v).slot = x.slot := rfl
@[simp] theorem Warp.setS_placed (x : Warp) (r : Nat) (v : Word) : (x.setS r v).placed = x.placed := rfl
@[simp] theorem Warp.setS_nregs (x : Warp) (r : Nat) (v : Word) : (x.setS r v).nregs = x.nregs := rfl
@[simp] theorem Warp.setS_lo (x : Warp) (r : Nat) (v : Word) : (x.setS r v).lo = x.lo := rfl
@[simp] theorem Warp.setS_hi (x : Warp) (r : Nat) (v : Word) : (x.setS r v).hi = x.hi := rfl
@[simp] theorem Warp.setS_lanes (x : Warp) (r : Nat) (v : Word) : (x.setS r v).lanes = x.lanes := rfl
@[simp] theorem Warp.setS_m (x : Warp) (r : Nat) (v : Word) : (x.setS r v).m = x.m := rfl
@[simp] theorem Warp.setS_ws (x : Warp) (r : Nat) (v : Word) : (x.setS r v).ws = x.ws := rfl
@[simp] theorem Warp.setS_latched (x : Warp) (r : Nat) (v : Word) : (x.setS r v).latched = x.latched := rfl
@[simp] theorem Warp.setS_oq (x : Warp) (r : Nat) (v : Word) : (x.setS r v).oq = x.oq := rfl
@[simp] theorem Warp.setS_ld (x : Warp) (r : Nat) (v : Word) : (x.setS r v).ld = x.ld := rfl
@[simp] theorem Warp.setS_st (x : Warp) (r : Nat) (v : Word) : (x.setS r v).st = x.st := rfl
@[simp] theorem Warp.setS_cp (x : Warp) (r : Nat) (v : Word) : (x.setS r v).cp = x.cp := rfl
@[simp] theorem Warp.setS_tl (x : Warp) (r : Nat) (v : Word) : (x.setS r v).tl = x.tl := rfl
@[simp] theorem Warp.setS_hmode (x : Warp) (r : Nat) (v : Word) : (x.setS r v).hmode = x.hmode := rfl
@[simp] theorem Warp.setS_hpc (x : Warp) (r : Nat) (v : Word) : (x.setS r v).hpc = x.hpc := rfl
@[simp] theorem Warp.setS_cause (x : Warp) (r : Nat) (v : Word) : (x.setS r v).cause = x.cause := rfl
@[simp] theorem Warp.setS_traps (x : Warp) (r : Nat) (v : Word) : (x.setS r v).traps = x.traps := rfl
@[simp] theorem Warp.setS_dbgSkip (x : Warp) (r : Nat) (v : Word) : (x.setS r v).dbgSkip = x.dbgSkip := rfl
@[simp] theorem Warp.setS_arrived (x : Warp) (r : Nat) (v : Word) : (x.setS r v).arrived = x.arrived := rfl
@[simp] theorem Warp.setS_barAt (x : Warp) (r : Nat) (v : Word) : (x.setS r v).barAt = x.barAt := rfl
@[simp] theorem Warp.setS_tickets (x : Warp) (r : Nat) (v : Word) : (x.setS r v).tickets = x.tickets := rfl
@[simp] theorem Warp.setS_tiles (x : Warp) (r : Nat) (v : Word) : (x.setS r v).tiles = x.tiles := rfl
@[simp] theorem Warp.setS_retryAt (x : Warp) (r : Nat) (v : Word) : (x.setS r v).retryAt = x.retryAt := rfl
@[simp] theorem Warp.setS_choice (x : Warp) (r : Nat) (v : Word) : (x.setS r v).choice = x.choice := rfl
@[simp] theorem Warp.setS_pending (x : Warp) (r : Nat) (v : Word) : (x.setS r v).pending = x.pending := rfl
@[simp] theorem Warp.setS_stalled (x : Warp) (r : Nat) (v : Word) : (x.setS r v).stalled = x.stalled := rfl
@[simp] theorem Warp.setS_portSince (x : Warp) (r : Nat) (v : Word) : (x.setS r v).portSince = x.portSince := rfl
@[simp] theorem Warp.setS_rdv (x : Warp) (r : Nat) (v : Word) : (x.setS r v).rdv = x.rdv := rfl
@[simp] theorem Warp.setS_rdvAt (x : Warp) (r : Nat) (v : Word) : (x.setS r v).rdvAt = x.rdvAt := rfl
@[simp] theorem Warp.setS_recs (x : Warp) (r : Nat) (v : Word) : (x.setS r v).recs = x.recs := rfl
@[simp] theorem Warp.setS_deliv (x : Warp) (r : Nat) (v : Word) : (x.setS r v).deliv = x.deliv := rfl
@[simp] theorem Warp.setS_ended (x : Warp) (r : Nat) (v : Word) : (x.setS r v).ended = x.ended := rfl
@[simp] theorem Warp.setS_busyTo (x : Warp) (r : Nat) (v : Word) : (x.setS r v).busyTo = x.busyTo := rfl
@[simp] theorem Warp.setS_lowered (x : Warp) (r : Nat) (v : Word) : (x.setS r v).lowered = x.lowered := rfl
@[simp] theorem Warp.setS_failing (x : Warp) (r : Nat) (v : Word) : (x.setS r v).failing = x.failing := rfl
@[simp] theorem Warp.setS_acq (x : Warp) (r : Nat) (v : Word) : (x.setS r v).acq = x.acq := rfl

end Sys2Proof.Machine
end

