-- ==== Sys2Proof/Laws/Trap.lean ====
section
/-!
SUPPORT. Taking an exception and returning from it: the cause that is taken, what a vector and a return leave, and what parking
lanes changes (02 R55-R57; 15 R320, R326, R329).
-/
namespace Sys2Proof.Machine

/-! ## The cause -/

theorem lowestTrap_none {l : List Trap} : lowestTrap l = none ↔ l = [] := by
  cases l with
  | nil => simp [lowestTrap]
  | cons t r =>
    simp only [lowestTrap, reduceCtorEq, iff_false]
    split
    · simp
    · split <;> simp

/-- The trap that is taken is one of the due ones, none of them has a lower class, and the others stay due. -/
theorem lowestTrap_some {l r : List Trap} {t : Trap} (h : lowestTrap l = some (t, r)) :
    t ∈ l ∧ (∀ u ∈ l, t.cls ≤ u.cls) ∧ r.length + 1 = l.length ∧ ∀ u, u ∈ l ↔ u = t ∨ u ∈ r := by
  induction l generalizing t r with
  | nil => simp [lowestTrap] at h
  | cons a l ih =>
    simp only [lowestTrap] at h
    split at h
    · rename_i hn
      rw [lowestTrap_none] at hn
      cases h
      subst hn
      simp
    · rename_i u rest hs
      obtain ⟨h1, h2, h3, h4⟩ := ih hs
      split at h
      · rename_i hlt
        cases h
        refine ⟨by simp [h1], ?_, by simp [h3], ?_⟩
        · intro v hv
          rcases List.mem_cons.1 hv with rfl | hv
          · omega
          · exact h2 v hv
        · intro v
          simp only [List.mem_cons, h4 v]
          constructor
          · rintro (rfl | rfl | hv)
            · exact .inr (.inl rfl)
            · exact .inl rfl
            · exact .inr (.inr hv)
          · rintro (rfl | rfl | hv)
            · exact .inr (.inl rfl)
            · exact .inl rfl
            · exact .inr (.inr hv)
      · rename_i hge
        cases h
        refine ⟨by simp, ?_, by simp, by simp⟩
        intro v hv
        rcases List.mem_cons.1 hv with rfl | hv
        · exact Nat.le_refl _
        · have := h2 v hv
          omega

/-! ## What is withdrawn, and a sheaf that is broken up -/

/-- A lease that ends changes leases, engines and the agenda. -/
theorem State.freeLease_rest (s : State) (l : Nat) (st : EngSt) :
    s.freeLease l st = { s with
      leases := (s.freeLease l st).leases, engines := (s.freeLease l st).engines, agenda := (s.freeLease l st).agenda } := by
  simp only [State.freeLease]
  split <;> rfl
/-- A withdrawal changes bins, lease queues, leases, engines, the lease slots of teams and the agenda. -/
theorem State.withdraw_rest (s : State) (w : Nat) :
    s.withdraw w = { s with
      bins := (s.withdraw w).bins, sectors := (s.withdraw w).sectors, leases := (s.withdraw w).leases
      engines := (s.withdraw w).engines, teams := (s.withdraw w).teams, agenda := (s.withdraw w).agenda } := by
  simp only [State.withdraw]
  split
  · rw [State.freeLease_rest]
    rfl
  · rfl

theorem State.withdraw_warp (s : State) (w v : Nat) : (s.withdraw w).warp v = s.warp v := by
  rw [State.withdraw_rest]
  rfl

/-- A sheaf is broken up warp by warp. -/
def breakStep (w kase : Nat) (s : State) (v : Nat) : State :=
  if s.sameSheaf v w && (s.warp v).rdv.isSome then
    s.onWarp v fun x =>
      { x with rdv := none, stalled := none, choice := none, traps := x.traps ++ [⟨0x08, 0, x.rdv.getD 0, BitVec.ofNat 32 kase⟩] }
  else s
theorem State.breakSheaf_eq (s : State) (w kase : Nat) :
    s.breakSheaf w kase = (List.range s.warps.length).foldl (breakStep w kase) s := rfl

theorem breakStep_rest (s : State) (w kase v : Nat) : breakStep w kase s v = { s with warps := (breakStep w kase s v).warps } := by
  unfold breakStep
  split <;> rfl
theorem breakStep_keep {s : State} {w kase u v : Nat} (h : (s.warp v).rdv = none ∨ v = w) : (breakStep w kase s u).warp v = s.warp v := by
  unfold breakStep
  split
  · rename_i hc
    have hne : v ≠ u := by
      rintro rfl
      rcases h with h | h <;> simp [h, State.sameSheaf] at hc
    exact State.warp_setWarp_ne s u v _ hne
  · rfl
theorem breakStep_lanes (s : State) (w kase u v : Nat) : ((breakStep w kase s u).warp v).lanes = (s.warp v).lanes := by
  unfold breakStep
  split
  · by_cases h : v = u
    · subst h
      simp [State.onWarp]
    · rw [State.onWarp, State.warp_setWarp_ne s u v _ h]
  · rfl

/-- Breaking up a sheaf changes warps only, -/
theorem State.breakSheaf_rest (s : State) (w kase : Nat) : s.breakSheaf w kase = { s with warps := (s.breakSheaf w kase).warps } := by
  rw [State.breakSheaf_eq]
  generalize List.range s.warps.length = l
  induction l generalizing s with
  | nil => rfl
  | cons v l ih =>
    rw [List.foldl_cons, ih, breakStep_rest s w kase v]
/-- none that waits at no rendezvous, and not the one that breaks it, -/
theorem State.breakSheaf_keep {s : State} {w kase v : Nat} (h : (s.warp v).rdv = none ∨ v = w) :
    (s.breakSheaf w kase).warp v = s.warp v := by
  rw [State.breakSheaf_eq]
  generalize List.range s.warps.length = l
  induction l generalizing s with
  | nil => rfl
  | cons u l ih =>
    have he : (breakStep w kase s u).warp v = s.warp v := breakStep_keep h
    rw [List.foldl_cons, ih (by rw [he]; exact h), he]
/-- and no lane. -/
theorem State.breakSheaf_lanes (s : State) (w kase v : Nat) : ((s.breakSheaf w kase).warp v).lanes = (s.warp v).lanes := by
  rw [State.breakSheaf_eq]
  generalize List.range s.warps.length = l
  induction l generalizing s with
  | nil => rfl
  | cons u l ih => rw [List.foldl_cons, ih, breakStep_lanes]

/-! ## Vectors and returns -/

/-- The warp after a vector. -/
def Warp.vectored (x : Warp) (entry : DWord) (now : Nat) : Warp :=
  { x with
    hmode := true
    hpc := entry
    cause := match lowestTrap x.traps with
      | some (t, _) => t
      | none => ⟨0, 0, 0, 0⟩
    traps := match lowestTrap x.traps with
      | some (_, r) => r
      | none => []
    oq := []
    retryAt := now + 24
    busyTo := now + 24
    portSince := none
    stalled := none
    choice := none
    rdv := none }

/-- The vector that a warp takes is that of a pre-emption. -/
def Warp.preempts (x : Warp) : Prop := ∃ t r, lowestTrap x.traps = some (t, r) ∧ t.cls = 0x13

/-- A vector is a withdrawal and a new warp record, after which the sheaf of the warp is broken up, but for a pre-emption. -/
theorem State.takeVector_cases (s : State) (w : Nat) :
    s.takeVector w = (s.withdraw w).setWarp w ((s.warp w).vectored (vectorEntry (getP 0 s.trapvec (s.partOf w))) s.now) ∨
    s.takeVector w =
      ((s.withdraw w).setWarp w ((s.warp w).vectored (vectorEntry (getP 0 s.trapvec (s.partOf w))) s.now)).breakSheaf w 3 := by
  have ite (p : Prop) [Decidable p] (a b : State) : (if p then a else b) = a ∨ (if p then a else b) = b := by
    split
    · exact .inl rfl
    · exact .inr rfl
  unfold State.takeVector
  exact ite _ _ _
/-- A vector changes its warp as said, the sheaf of the warp where it waits at a rendezvous, and what the warp waits for outside
itself; no lane of any warp changes. -/
theorem State.takeVector_warp (s : State) (w : Nat) :
    (s.takeVector w).warp w = (s.warp w).vectored (vectorEntry (getP 0 s.trapvec (s.partOf w))) s.now := by
  rcases s.takeVector_cases w with h | h <;> rw [h]
  · exact State.warp_setWarp_same _ _ _
  · rw [State.breakSheaf_keep (.inr rfl), State.warp_setWarp_same]
theorem State.setWarp_lanes {s : State} {w v : Nat} {x : Warp} (h : x.lanes = (s.warp w).lanes) :
    ((s.setWarp w x).warp v).lanes = (s.warp v).lanes := by
  by_cases hv : v = w
  · subst hv
    rw [State.warp_setWarp_same, h]
  · rw [State.warp_setWarp_ne _ _ _ _ hv]
theorem State.takeVector_lanes (s : State) (w v : Nat) : ((s.takeVector w).warp v).lanes = (s.warp v).lanes := by
  have hl : ((s.warp w).vectored (vectorEntry (getP 0 s.trapvec (s.partOf w))) s.now).lanes = ((s.withdraw w).warp w).lanes := by
    rw [State.withdraw_warp]
    rfl
  rcases s.takeVector_cases w with h | h <;> rw [h]
  · rw [State.setWarp_lanes hl, State.withdraw_warp]
  · rw [State.breakSheaf_lanes, State.setWarp_lanes hl, State.withdraw_warp]
theorem State.takeVector_keep {s : State} {w v : Nat} (hv : v ≠ w) (h : (s.warp v).rdv = none) : (s.takeVector w).warp v = s.warp v := by
  have he : ∀ x, ((s.withdraw w).setWarp w x).warp v = s.warp v := fun x => by
    rw [State.warp_setWarp_ne _ _ _ _ hv, State.withdraw_warp]
  rcases s.takeVector_cases w with h' | h' <;> rw [h']
  · exact he _
  · rw [State.breakSheaf_keep (.inl (by rw [he]; exact h)), he]
/-- A pre-emption breaks up no sheaf: only its own warp changes (02 R38). -/
theorem State.takeVector_preempt {s : State} {w v : Nat} (h : (s.warp w).preempts) (hv : v ≠ w) : (s.takeVector w).warp v = s.warp v := by
  obtain ⟨t, r, ht, hc⟩ := h
  simp only [State.takeVector, ht, hc, ↓reduceIte]
  rw [State.warp_setWarp_ne _ _ _ _ hv, State.withdraw_warp]
theorem State.takeVector_rest (s : State) (w : Nat) :
    s.takeVector w = { s with
      warps := (s.takeVector w).warps, bins := (s.takeVector w).bins, sectors := (s.takeVector w).sectors
      leases := (s.takeVector w).leases, engines := (s.takeVector w).engines, teams := (s.takeVector w).teams
      agenda := (s.takeVector w).agenda } := by
  rcases s.takeVector_cases w with h | h <;> rw [h]
  · rw [State.setWarp, State.withdraw_rest]
  · rw [State.breakSheaf_rest, State.setWarp, State.withdraw_rest]

/-- A return leaves handler mode; nothing but its warp changes. -/
theorem State.returnVector_warp (s : State) (w : Nat) :
    (s.returnVector w).warp w =
      { s.warp w with
        hmode := false, oq := [], retryAt := s.now + 24, busyTo := s.now + 24, dbgSkip := (s.warp w).cause.cls == 0x11
        cause := ⟨0, 0, 0, 0⟩ } :=
  State.warp_setWarp_same _ _ _
theorem State.returnVector_keep {s : State} {w v : Nat} (h : v ≠ w) : (s.returnVector w).warp v = s.warp v :=
  State.warp_setWarp_ne _ _ _ _ h
theorem State.returnVector_rest (s : State) (w : Nat) : s.returnVector w = { s with warps := (s.returnVector w).warps } := rfl

/-! ## Parking -/

/-- Parking that is no handler fault: the running lanes of a mask park, each with its record, and nothing else changes. -/
theorem State.parkAs_lane (s : State) (w : Nat) (m : BitVec 64) (f : Nat → FaultRec) (l : Nat) (hl : l < 64) :
    ((s.parkAs false w m f).warp w).lane l =
      if m.getLsbD l = true ∧ ((s.warp w).lane l).st = .running then ((s.warp w).lane l).park (f l) else (s.warp w).lane l := by
  unfold State.parkAs
  split
  · rename_i hn
    have hm : m.getLsbD l = false := by
      by_cases hb : m.getLsbD l = true
      · have : l ∈ lanesOf m := by simp [lanesOf, hl, hb]
        rw [hn] at this
        cases this
      · simpa using hb
    simp [hm]
  · rw [if_neg (by simp), State.onWarp, State.warp_setWarp_same, Warp.mapLanes_lane _ _ _ hl]
    simp only [Bool.and_eq_true, beq_iff_eq]
theorem State.parkAs_keep (s : State) {w v : Nat} (m : BitVec 64) (f : Nat → FaultRec) (hv : v ≠ w) :
    (s.parkAs false w m f).warp v = s.warp v := by
  unfold State.parkAs
  split
  · rfl
  · rw [if_neg (by simp), State.onWarp, State.warp_setWarp_ne _ _ _ _ hv]
theorem State.parkAs_rest (s : State) (w : Nat) (m : BitVec 64) (f : Nat → FaultRec) :
    s.parkAs false w m f = { s with warps := (s.parkAs false w m f).warps } := by
  unfold State.parkAs
  split
  · rfl
  · rw [if_neg (by simp)]
    rfl

/-- Outside handler mode lanes park so. -/
theorem State.parkLanes_eq {s : State} {w : Nat} (h : (s.warp w).hmode = false) (m : BitVec 64) (f : Nat → FaultRec) :
    s.parkLanes w m f = s.parkAs false w m f := by
  simp [State.parkLanes, h]
theorem State.parkLanes_lane {s : State} {w : Nat} (h : (s.warp w).hmode = false) (m : BitVec 64) (f : Nat → FaultRec) (l : Nat) (hl : l < 64) :
    ((s.parkLanes w m f).warp w).lane l =
      if m.getLsbD l = true ∧ ((s.warp w).lane l).st = .running then ((s.warp w).lane l).park (f l) else (s.warp w).lane l := by
  rw [State.parkLanes_eq h, State.parkAs_lane s w m f l hl]
theorem State.parkLanes_keep {s : State} {w v : Nat} (h : (s.warp w).hmode = false) (m : BitVec 64) (f : Nat → FaultRec) (hv : v ≠ w) :
    (s.parkLanes w m f).warp v = s.warp v := by
  rw [State.parkLanes_eq h, State.parkAs_keep s m f hv]
theorem State.parkLanes_rest {s : State} {w : Nat} (h : (s.warp w).hmode = false) (m : BitVec 64) (f : Nat → FaultRec) :
    s.parkLanes w m f = { s with warps := (s.parkLanes w m f).warps } := by
  rw [State.parkLanes_eq h, State.parkAs_rest]

end Sys2Proof.Machine
end

