-- ==== Sys2Proof/Safety.lean ====
section
/-!
DEFINITION. What counts as a safe run: every step answers a next state, so that the machine neither stops nor refuses.
-/
namespace Sys2Proof.Machine

/-- A step that goes on. -/
def goesOn (o : Out) : Prop := ∃ s, o = .next s

/-- `n` steps that all go on. -/
def safeFor : Nat → State → Prop
  | 0, _ => True
  | n + 1, s => ∃ t, step s = .next t ∧ safeFor n t

end Sys2Proof.Machine
end

