-- ==== Sys2Proof/Tests/Slice0.lean ====
section
/-!
SUPPORT. Tests: ill-formed terms that the checks refuse, words written out from the spec's encodings, steps of single instructions on small
states, and states that meet the hypotheses of the statements.
-/
namespace Sys2Proof.Tests

set_option Elab.async false
open Sys2Proof Sys2Proof.Machine

/-! ## Operands -/

def vr (n : BitVec 8) : Operand := ⟨.vec, n, false, Desc.off⟩
def sr (n : BitVec 8) : Operand := ⟨.scal, n, false, Desc.off⟩
def im (n : BitVec 8) : Operand := ⟨.imm, n, false, Desc.off⟩
def ix (n : BitVec 8) : Operand := ⟨.idx, n, false, Desc.off⟩

/-! ## WellFormed: an ill-formed term for each check -/

theorem test_wf_good : (Instr.iadd (bareOps 0 0 4 5 6 0)).wf = true := by decide
/-- 07 R179: a form that the row of the major does not list. -/
theorem test_wf_form : (Instr.ret { bareOps 0 0 0 12 0 0 with form := .w96r }).wf = false := by decide
/-- 07 R159: a slot is no instruction of its own. -/
theorem test_wf_slot : (Instr.iadd { bareOps 0 0 4 5 6 0 with form := .slot }).wf = false := by decide
/-- 08 R196: a displacement has 24 bits. -/
theorem test_wf_displacement : (Instr.bra (bareOps 0 0 0 0 0 0x1000000)).wf = false := by decide
/-- 07 R171: two descriptors in a 96-bit register word. -/
theorem test_wf_descriptors : (Instr.iadd { bareOps 0 0 4 0 0 0 with
    form := .w96r, s1 := ⟨.vec, 5, false, ⟨1, 3, false, 0, 0⟩⟩, s2 := ⟨.vec, 6, false, ⟨1, 3, false, 0, 0⟩⟩ }).wf = false := by decide
/-- 07 R163: the test `!p0?`. -/
theorem test_wf_not_p0 : (Instr.iadd { bareOps 0 1 4 5 6 0 with pn := 0 }).wf = false := by decide
/-- 07 R179: a predicate on an unpredicated major. -/
theorem test_wf_predicated_bar : (Instr.bar (bareOps 1 0 0 0 0 0)).wf = false := by decide
/-- 07 R177: a rounding mode on an instruction that does not round. -/
theorem test_wf_rounding : (Instr.fmin { bareOps 0 0 4 5 6 0 with rm := .rtz }).wf = false := by decide
/-- 08 R207: FTZ is reserved in FABS. -/
theorem test_wf_ftz : (Instr.fabs { bareOps 0 0 4 5 0 0 with ftz := true }).wf = false := by decide
/-- 07 R167: PD where no row uses it. -/
theorem test_wf_pd : (Instr.imul { bareOps 0 0 4 5 6 0 with pd := 1 }).wf = false := by decide
/-- 07 R177: AUX and SUB values that are not listed. -/
theorem test_wf_aux : (Instr.iadd { bareOps 0 0 4 5 6 0 with aux := 1 }).wf = false := by decide
theorem test_wf_sub : (Instr.iadd { bareOps 0 0 4 5 6 0 with sub := 1 }).wf = false := by decide
/-- 08 R206: MOV of an index register names one of four. -/
theorem test_wf_index_register : (Instr.mov { bareOps 0 0 6 0 0 0 with s1 := im 4, sub := 2 }).wf = false := by decide
/-- 07 R164: a scalar destination above `s63`. -/
theorem test_wf_dst : (Instr.iadd { bareOps 0 0 64 0 0 0 with kd := .scal, s1 := sr 1, s2 := sr 2 }).wf = false := by decide
/-- 07 R166: a scalar instruction with a vector source. -/
theorem test_wf_uniform : (Instr.iadd { bareOps 0 0 4 5 0 0 with kd := .scal, s2 := sr 2 }).wf = false := by decide
/-- 03 R60: a pair at an odd register; 07 R164: special register 73; 07 R167: a third source that is not used. -/
theorem test_wf_source1 : (Instr.iadd64 (bareOps 0 0 4 5 6 0)).wf = false := by decide
theorem test_wf_source2 : (Instr.iadd { bareOps 0 0 4 5 0 0 with s2 := sr 73 }).wf = false := by decide
theorem test_wf_source3 : (Instr.iadd { bareOps 0 0 4 5 6 0 with form := .w96r, s3 := vr 7 }).wf = false := by decide
/-- 07 R167: a last-read mark on a scalar. -/
theorem test_wf_mark : (Instr.iadd { bareOps 0 0 4 5 0 0 with s2 := ⟨.scal, 3, true, Desc.off⟩ }).wf = false := by decide
/-- 09 R224: an odd address pair; a load of 16 bytes into a group that is not a multiple of four. -/
theorem test_wf_address : (Instr.gld { bareOps 0 0 4 9 0 0 with sub := 4 }).wf = false := by decide
theorem test_wf_group : (Instr.gld { bareOps 0 0 6 8 0 0 with sub := 6 }).wf = false := by decide
/-- 15 R330: a system-register number that is not assigned. -/
theorem test_wf_sysreg : (Instr.srd { bareOps 0 0 4 0 0 0 with form := .w96i, kd := .scal, imm := 0x31 }).wf = false := by decide
/-- 03 R66: a valid mask of QFETCH with a gap. -/
theorem test_wf_qfetch : (Instr.qfetch (bareOps 0 0 0 0 0 0x500000000)).wf = false := by decide
/-- 07 R179: a hint of 64 bits has none beyond. -/
theorem test_wf_hint : (Instr.hintNop ⟨0, 0, 0x40000000000000⟩).wf = false := by decide
/-- 07 R175: two FP32 instructions, and destinations of one bank, in a paired word. -/
theorem test_wf_pair_classes : (Instr.pairedWord ⟨0x50, { bareOps 0 0 4 5 6 0 with form := .slot }⟩
    ⟨0x51, { bareOps 0 0 9 10 11 0 with form := .slot }⟩).wf = false := by decide
theorem test_wf_pair_banks : (Instr.pairedWord ⟨0x50, { bareOps 0 0 4 5 6 0 with form := .slot }⟩
    ⟨0x30, { bareOps 0 0 8 10 11 0 with form := .slot }⟩).wf = false := by decide

/-! ## Decoding: a word of every instruction, from the encodings of 07 R162-R175 with the majors of 07 R179 -/

/-- Each word decodes to its instruction. -/
def decodes (l : List (Nat × Nat × Instr)) : Bool := l.all fun p => decodeTableWord p.1 p.2.1 == some p.2.2

def controlWords : List (Nat × Nat × Instr) := [
  (64, 0x4, .nop (bareOps 0 0 0 0 0 0)),
  (64, 0x3E0000000408, .bra (bareOps 1 0 0 0 0 62)),
  (64, 0x200000C, .brx (bareOps 0 0 0 8 0 0)),
  (64, 0xFFFFFE0000000010, .brall (bareOps 0 0 0 0 0 16777214)),
  (64, 0x50000002814, .brany (bareOps 2 1 0 0 0 5)),
  (64, 0x640000030018, .call (bareOps 0 0 12 0 0 100)),
  (64, 0x200000183801C, .callx { bareOps 0 0 14 0 0 0 with s1 := sr 6 }),
  (64, 0x3000020, .ret (bareOps 0 0 0 12 0 0)),
  (64, 0x90000000024, .meet (bareOps 0 0 0 0 0 9)),
  (64, 0x2800028, .meetx (bareOps 0 0 0 10 0 0)),
  (64, 0xC2C, .exitT (bareOps 3 0 0 0 0 0)),
  (64, 0x30, .yield (bareOps 0 0 0 0 0 0)),
  (64, 0xFFFFEC0000020034, .loop (bareOps 0 0 8 0 0 16777196)),
  (64, 0x2803C1C00038, .jtab (bareOps 0 0 0 7 15 40)),
  (96, 0x3E8000000400000003D, .sleep { bareOps 0 0 0 0 0 1000 with form := .w96i }),
  (64, 0x2440, .demote (bareOps 1 1 0 0 0 0))]
theorem test_decode_controlWords : decodes controlWords = true := by decide +kernel

def predicatesWords : List (Nat × Nat × Instr) := [
  (64, 0x240C044, .pset (bareOps 0 0 3 9 0 0)),
  (64, 0x20C0804048, .pand (bareOps 0 0 1 2 131 0)),
  (64, 0x10040804C, .por (bareOps 0 0 2 1 4 0)),
  (64, 0x1C1814050, .pxor (bareOps 0 0 5 6 7 0)),
  (64, 0xC10054, .pnot (bareOps 0 0 4 3 0 0)),
  (64, 0x2000001400058, .pld { bareOps 0 0 0 0 0 0 with s1 := sr 5 }),
  (64, 0x32005C, .pst (bareOps 0 0 200 0 0 0)),
  (64, 0x60080418060, .psel { bareOps 0 0 6 1 2 0 with aux := 3 })]
theorem test_decode_predicatesWords : decodes predicatesWords = true := by decide +kernel

def lanesWords : List (Nat × Nat × Instr) := [
  (64, 0x40001410080, .perm { bareOps 0 0 4 5 0 0 with aux := 2 }),
  (64, 0x12020400C00084, .ldpat { bareOps 0 0 0 0 0 0 with s1 := sr 3, s2 := im 16, aux := 1 }),
  (64, 0x2000800001810088, .reduce { bareOps 0 0 4 6 0 0 with kd := .scal, sub := 8 }),
  (64, 0x40000000202408C, .scan { bareOps 0 0 9 8 0 0 with sub := 1 }),
  (64, 0x2880000002024090, .scanx { bareOps 0 0 9 8 0 0 with sub := 10, ftz := true }),
  (64, 0x1020000008094, .agreeSome { bareOps 0 0 2 0 0 0 with kd := .pred, aux := 1 }),
  (64, 0x40006000001C094, .agreeEvery { bareOps 0 0 7 0 0 0 with sub := 1, aux := 3 }),
  (64, 0x800840000018094, .agreeMask { bareOps 0 0 6 0 0 0 with kd := .scal, sub := 2, aux := 2 }),
  (64, 0x400000001828098, .matchL { bareOps 0 0 10 6 0 0 with sub := 1 }),
  (64, 0x14100C09C, .shfl (bareOps 0 0 3 4 5 0)),
  (64, 0x10000FC100C0A0, .bcast { bareOps 0 0 3 4 0 0 with s2 := im 63 }),
  (64, 0x80000101C0A4, .firstL { bareOps 0 0 7 4 0 0 with kd := .scal }),
  (64, 0x88000001C0A8, .popl { bareOps 0 0 7 0 0 0 with kd := .scal, aux := 4 }),
  (64, 0x88000810240AC, .rdln { bareOps 0 0 9 4 0 0 with kd := .scal, s2 := sr 2 }),
  (64, 0x120001420180B0, .wrln { bareOps 0 0 6 0 0 0 with s1 := sr 8, s2 := im 5 }),
  (64, 0xC100030C14100B4, .lmov { bareOps 0 0 4 5 0 0 with s2 := im 195, sub := 3 }),
  (64, 0xC000014100B8, .qfetch (bareOps 0 0 0 0 0 12884903172))]
theorem test_decode_lanesWords : decodes lanesWords = true := by decide +kernel

def integerWords : List (Nat × Nat × Instr) := [
  (64, 0x30003F418180C0, .iadd { bareOps 0 0 6 0 0 0 with s1 := ⟨.vec, 6, true, Desc.off⟩, s2 := im 253 }),
  (96, 0x89ABCDEF00003040010140C5, .isub { bareOps 0 0 5 4 0 2309737967 with form := .w96i, pd := 3 }),
  (64, 0x60100024140C8, .ineg { bareOps 0 0 5 0 0 0 with s1 := ix 9, ixn := 2 }),
  (64, 0x280001181C0CC, .iabs { bareOps 0 0 7 0 0 0 with kd := .scal, s1 := sr 70 }),
  (96, 0x6150000000000001410180D1, .imul { bareOps 0 0 6 0 5 0 with form := .w96r, s1 := ⟨.vec, 4, false, ⟨3, 2, true, 1, 0⟩⟩ }),
  (64, 0x4000001410180D4, .imulh { bareOps 0 0 6 4 5 0 with sub := 1 }),
  (96, 0x7200000001410180D9, .imad { bareOps 0 0 6 4 5 0 with form := .w96r, s3 := ⟨.vec, 7, true, Desc.off⟩ }),
  (64, 0x4002001410180DC, .iadds { bareOps 0 0 6 4 5 0 with sub := 1, pd := 2 }),
  (64, 0x5001410180E0, .isubs { bareOps 0 0 6 4 5 0 with pd := 5 }),
  (64, 0x410003FC08040E4, .imin { bareOps 0 0 1 2 0 0 with s2 := im 255, sub := 1 }),
  (64, 0x18180C08040E8, .imax { bareOps 0 0 1 2 3 0 with kd := .idx, ixn := 3 }),
  (64, 0x10000C08240EC, .andB { bareOps 0 0 9 2 3 0 with kd := .pred }),
  (128, 0x248020600000000000400001410180F2, .orB { bareOps 0 0 6 0 0 0 with form := .w128m, s1 := ⟨.vec, 4, false, ⟨1, 9, false, 0, 0⟩⟩, s2 := ⟨.vec, 5, true, ⟨4, 3, false, 0, 0⟩⟩ }),
  (64, 0x80010010180F4, .xorB { bareOps 0 0 6 4 0 0 with s2 := sr 64 }),
  (64, 0x10180F8, .notB (bareOps 0 0 6 4 0 0)),
  (64, 0x100007C10180FC, .shl { bareOps 0 0 6 4 0 0 with s2 := im 31 }),
  (64, 0x141018100, .shr (bareOps 0 0 6 4 5 0)),
  (64, 0x141018104, .sar (bareOps 0 0 6 4 5 0)),
  (64, 0x141018108, .rol (bareOps 0 0 6 4 5 0)),
  (64, 0x14101810C, .ror (bareOps 0 0 6 4 5 0)),
  (64, 0x400000141018110, .bfx { bareOps 0 0 6 4 5 0 with sub := 1 }),
  (96, 0x80400000041C1018115, .bfi { bareOps 0 0 6 4 0 2052 with form := .w96i, s3 := vr 7 }),
  (64, 0x1018118, .popc (bareOps 0 0 6 4 0 0)),
  (64, 0x101811C, .clz (bareOps 0 0 6 4 0 0)),
  (64, 0x1018120, .brev (bareOps 0 0 6 4 0 0)),
  (64, 0xC01300141C08124, .icmp { bareOps 0 0 2 7 5 0 with kd := .pred, sub := 3, pd := 3 }),
  (64, 0x1C00000141018128, .isel { bareOps 0 0 6 4 5 0 with sub := 7 }),
  (64, 0x10020101812C, .iadd64 { bareOps 0 0 6 4 8 0 with pd := 1 }),
  (64, 0xA800201018130, .imul64 { bareOps 0 0 6 0 0 0 with kd := .scal, s1 := sr 4, s2 := sr 8 }),
  (64, 0x2C00000241018134, .lea { bareOps 0 0 6 4 9 0 with sub := 11 }),
  (64, 0x804000000418138, .mov { bareOps 0 0 6 0 0 0 with s1 := im 1, sub := 2 }),
  (128, 0x100000000040000400002813E, .movi { bareOps 0 0 10 0 0 4294967296 with form := .w128i, sub := 1 })]
theorem test_decode_integerWords : decodes integerWords = true := by decide +kernel

def floatWords : List (Nat × Nat × Instr) := [
  (64, 0x181410540, .fadd (bareOps 1 0 4 5 6 0)),
  (96, 0x808000000000000282858145, .fsub { bareOps 0 0 22 0 10 0 with form := .w96r, s1 := ⟨.vec, 10, false, ⟨4, 1, false, 0, 0⟩⟩ }),
  (64, 0x190003F81410148, .fmul { bareOps 0 0 4 5 0 0 with s2 := im 254, rm := .rtz, ftz := true }),
  (96, 0xB00000000403C2CD4D, .ffma { bareOps 3 0 11 15 16 0 with form := .w96r, s3 := vr 11 }),
  (64, 0x80000181410150, .fmin { bareOps 0 0 4 5 6 0 with ftz := true }),
  (64, 0x181410154, .fmax (bareOps 0 0 4 5 6 0)),
  (64, 0x1410158, .fabs (bareOps 0 0 4 5 0 0)),
  (64, 0x141015C, .fneg (bareOps 0 0 4 5 0 0)),
  (64, 0x1C01200181404160, .fcmp { bareOps 0 0 1 5 6 0 with kd := .pred, sub := 7, pd := 2 }),
  (64, 0xC00000181410164, .fsel { bareOps 0 0 4 5 6 0 with sub := 3 }),
  (96, 0x3FF0001004001404169, .fcls { bareOps 0 0 1 5 0 1023 with form := .w96i, kd := .pred }),
  (64, 0x20000000141016C, .frcp { bareOps 0 0 4 5 0 0 with rm := .rup }),
  (64, 0x1410170, .frsq (bareOps 0 0 4 5 0 0)),
  (64, 0x300000001410174, .fsqrt { bareOps 0 0 4 5 0 0 with rm := .rdn }),
  (64, 0x181410178, .fdiv (bareOps 0 0 4 5 6 0)),
  (64, 0x141017C, .fexp2 (bareOps 0 0 4 5 0 0)),
  (64, 0x1410180, .flog2 (bareOps 0 0 4 5 0 0)),
  (64, 0x1410184, .fsin (bareOps 0 0 4 5 0 0)),
  (64, 0x1410188, .fcos (bareOps 0 0 4 5 0 0)),
  (64, 0x141018C, .ftanh (bareOps 0 0 4 5 0 0)),
  (64, 0x201810190, .dadd (bareOps 0 0 4 6 8 0)),
  (64, 0x201810194, .dsub (bareOps 0 0 4 6 8 0)),
  (64, 0x201810198, .dmul (bareOps 0 0 4 6 8 0)),
  (96, 0xA0000000020181019D, .dfma { bareOps 0 0 4 6 8 0 with form := .w96r, s3 := vr 10 }),
  (64, 0x2018101A0, .dmin (bareOps 0 0 4 6 8 0)),
  (64, 0x2018101A4, .dmax (bareOps 0 0 4 6 8 0)),
  (64, 0x8010002018101A8, .dcmp { bareOps 0 0 4 6 8 0 with kd := .pred, sub := 2 }),
  (64, 0x2018101AC, .ddiv (bareOps 0 0 4 6 8 0)),
  (64, 0x18101B0, .dsqrt (bareOps 0 0 4 6 0 0)),
  (64, 0x1814101B4, .hadd2 (bareOps 0 0 4 5 6 0)),
  (64, 0x4000001814101B8, .hmul2 { bareOps 0 0 4 5 6 0 with sub := 1 }),
  (96, 0x7000000001814101BD, .hfma2 { bareOps 0 0 4 5 6 0 with form := .w96r, s3 := vr 7 }),
  (64, 0x1814101C0, .hmin2 (bareOps 0 0 4 5 6 0)),
  (64, 0x1814101C4, .hmax2 (bareOps 0 0 4 5 6 0)),
  (64, 0x3C011001814101C8, .hcmp2 { bareOps 0 0 4 5 6 0 with kd := .pred, sub := 15, pd := 1 }),
  (96, 0x7000000001814101CD, .fdot2 { bareOps 0 0 4 5 6 0 with form := .w96r, s3 := vr 7 })]
theorem test_decode_floatWords : decodes floatWords = true := by decide +kernel

def conversionsWords : List (Nat × Nat × Instr) := [
  (64, 0x20000000014101D0, .f2f { bareOps 0 0 4 5 0 0 with sub := 8 }),
  (64, 0x19000000014101D4, .f2i { bareOps 0 0 4 5 0 0 with sub := 6, rm := .rtz }),
  (64, 0x20000000018101D8, .i2f { bareOps 0 0 4 6 0 0 with sub := 8 }),
  (64, 0x34000000014101DC, .i2i { bareOps 0 0 4 5 0 0 with sub := 13 }),
  (64, 0xC000000014101E0, .ln2f { bareOps 0 0 4 5 0 0 with sub := 3 }),
  (64, 0x14101E4, .f2ln (bareOps 0 0 4 5 0 0)),
  (64, 0x10000001814101E8, .pack { bareOps 0 0 4 5 6 0 with sub := 4 }),
  (64, 0x18100000C14101EC, .unpk { bareOps 0 0 4 5 0 0 with s2 := im 3, sub := 6 }),
  (64, 0x8000000014101F0, .qblk { bareOps 0 0 4 5 0 0 with sub := 2 }),
  (64, 0x1C000001814101F4, .dqbl { bareOps 0 0 4 5 6 0 with sub := 7 }),
  (64, 0x8000000241F8, .qsrd { bareOps 0 0 9 0 0 0 with kd := .scal }),
  (64, 0x400003FC001FC, .qsclr { bareOps 0 0 0 0 0 0 with s1 := im 255 })]
theorem test_decode_conversionsWords : decodes conversionsWords = true := by decide +kernel

def memoryWords : List (Nat × Nat × Instr) := [
  (64, 0x3010041002010200, .gld { bareOps 0 0 4 8 0 0 with s2 := im 64, sub := 12, aux := 2 }),
  (128, 0x1234567891400004002010206, .gst { bareOps 0 0 4 8 0 4886718345 with form := .w128i, sub := 5 }),
  (64, 0x1810000101C20208, .spld { bareOps 0 0 8 7 0 0 with s2 := im 4, sub := 6 }),
  (64, 0x1000000181C1020C, .spst { bareOps 0 0 4 7 6 0 with sub := 4 }),
  (64, 0x812000002010210, .slld { bareOps 0 0 4 0 0 0 with s1 := sr 8, s2 := im 0, sub := 2 }),
  (64, 0x2010214, .slst (bareOps 0 0 4 8 0 0)),
  (64, 0xC02000001410218, .skld { bareOps 0 0 4 0 0 0 with s1 := sr 5, sub := 3 }),
  (64, 0x100400000201021C, .skst { bareOps 0 0 4 0 0 0 with s1 := im 8, sub := 4 }),
  (64, 0x1000000002010238, .gstn { bareOps 0 0 4 8 0 0 with sub := 4 }),
  (64, 0x3412880402018220, .cld { bareOps 0 0 6 0 0 0 with kd := .scal, s1 := sr 8, s2 := im 16, sub := 13, aux := 4 }),
  (64, 0x2000224, .prfgL1 (bareOps 0 0 0 8 0 0)),
  (64, 0x400000002000224, .prfgL2 { bareOps 0 0 0 8 0 0 with sub := 1 }),
  (64, 0x200023C, .cctlIvl (bareOps 0 0 0 8 0 0)),
  (64, 0x40000000000023C, .cctlIval { bareOps 0 0 0 0 0 0 with sub := 1 }),
  (64, 0xA040181020228, .tld { bareOps 0 0 8 0 0 0 with s1 := sr 4, s2 := sr 6, aux := 2 }),
  (64, 0x4120000C101822C, .tst { bareOps 0 0 6 0 0 0 with s1 := sr 4, s2 := im 3, sub := 1 }),
  (64, 0x80A0401C1014230, .qld { bareOps 0 0 5 0 0 0 with s1 := sr 4, s2 := sr 7, sub := 2, aux := 2 }),
  (64, 0xC128C0041014234, .qst { bareOps 0 0 5 0 0 0 with kd := .scal, s1 := sr 4, s2 := im 1, sub := 3, aux := 6 }),
  (96, 0x8800004000810241, .copy { bareOps 0 0 4 2 0 0 with form := .w96i, sub := 34 }),
  (64, 0x1402000004000244, .cprg { bareOps 0 0 0 0 0 0 with s1 := sr 16, sub := 5 }),
  (64, 0x400000FC00248, .hwaitFull { bareOps 0 0 0 0 0 0 with s1 := im 63 }),
  (64, 0x402000000800248, .hwaitFree { bareOps 0 0 0 0 0 0 with s1 := sr 2, sub := 1 }),
  (64, 0x480000140C24C, .hwp { bareOps 0 0 3 0 0 0 with kd := .scal, s1 := im 5 }),
  (64, 0x4000001C00250, .hrelClaim { bareOps 0 0 0 0 0 0 with s1 := im 7 }),
  (64, 0x404000001C00250, .hrelFree { bareOps 0 0 0 0 0 0 with s1 := im 7, sub := 1 }),
  (96, 0x8BEEF0000004001030255, .send { bareOps 0 0 12 4 0 573167 with form := .w96i })]
theorem test_decode_memoryWords : decodes memoryWords = true := by decide +kernel

def atomicsWords : List (Nat × Nat × Instr) := [
  (64, 0x142010258, .aadd (bareOps 0 0 4 8 5 0)),
  (64, 0x40000014201025C, .amin { bareOps 0 0 4 8 5 0 with sub := 1 }),
  (64, 0x2000000181C10260, .amax { bareOps 0 0 4 7 6 0 with sub := 8 }),
  (64, 0x800000282018264, .aand { bareOps 0 0 6 8 10 0 with sub := 2 }),
  (64, 0x100001C2010268, .aor { bareOps 0 0 4 8 0 0 with s2 := im 7 }),
  (64, 0xA80014201026C, .axor { bareOps 0 0 4 0 0 0 with kd := .scal, s1 := sr 8, s2 := sr 5 }),
  (64, 0x1800000302010270, .axch { bareOps 0 0 4 8 12 0 with sub := 6 }),
  (64, 0x182010274, .acas (bareOps 0 0 4 8 6 0)),
  (64, 0x1010000002014278, .rdadd { bareOps 0 0 5 8 0 0 with s2 := im 0, sub := 4 }),
  (64, 0x201427C, .rdmin (bareOps 0 0 5 8 0 0)),
  (64, 0x2014280, .rdmax (bareOps 0 0 5 8 0 0)),
  (64, 0x2014284, .rdand (bareOps 0 0 5 8 0 0)),
  (64, 0x2014288, .rdor (bareOps 0 0 5 8 0 0)),
  (64, 0xC0000000201828C, .rdxor { bareOps 0 0 6 8 0 0 with sub := 3 }),
  (96, 0x1020080840C2014291, .bop { bareOps 0 0 5 8 0 16 with form := .w96i, s3 := sr 3, sub := 8, aux := 4 }),
  (64, 0x1C00000182014294, .bopr { bareOps 0 0 5 8 6 0 with sub := 7 })]
theorem test_decode_atomicsWords : decodes atomicsWords = true := by decide +kernel

def synchronisationWords : List (Nat × Nat × Instr) := [
  (64, 0x80000000298, .fence { bareOps 0 0 0 0 0 0 with aux := 4 }),
  (64, 0x2000000029C, .acq { bareOps 0 0 0 0 0 0 with aux := 1 }),
  (64, 0x600000002A0, .rel { bareOps 0 0 0 0 0 0 with aux := 3 }),
  (64, 0x20000010002A4, .acqSteal { bareOps 0 0 0 0 0 0 with s1 := sr 4 }),
  (64, 0x2A8, .bar (bareOps 0 0 0 0 0 0)),
  (64, 0x2AC, .bararv (bareOps 0 0 0 0 0 0)),
  (64, 0x2B0, .barwt (bareOps 0 0 0 0 0 0)),
  (64, 0x3FFFC00000002B4, .wait (bareOps 0 0 0 0 0 65535)),
  (64, 0x120400400002B8, .publ { bareOps 0 0 0 0 0 0 with s1 := sr 0, s2 := im 1, aux := 2 }),
  (64, 0x4000000000102BC, .cntrd { bareOps 0 0 4 0 0 0 with sub := 1 })]
theorem test_decode_synchronisationWords : decodes synchronisationWords = true := by decide +kernel

def spawningWords : List (Nat × Nat × Instr) := [
  (96, 0x10000000640050002D1, .spawnDirect { bareOps 0 0 0 20 0 256 with form := .w96i, aux := 3 }),
  (64, 0x4080E01850002D0, .spawnIndirect { bareOps 0 0 0 20 0 0 with s2 := sr 6, sub := 1, aux := 7 }),
  (64, 0x4080001800002E0, .bflush { bareOps 0 0 0 0 0 0 with s2 := sr 6, sub := 1 }),
  (96, 0xFFFFFF0000008040000142E5, .bstat { bareOps 0 0 5 0 0 4294967040 with form := .w96i, kd := .scal }),
  (96, 0x1234000AA04200C182D5, .launch { bareOps 0 0 6 0 0 4660 with form := .w96i, kd := .scal, s1 := sr 3, s3 := sr 8, pd := 2 }),
  (64, 0x28000040282D8, .lwait { bareOps 0 0 10 0 0 0 with kd := .scal, s1 := sr 16 }),
  (64, 0x28000040282DC, .lpoll { bareOps 0 0 10 0 0 0 with kd := .scal, s1 := sr 16 })]
theorem test_decode_spawningWords : decodes spawningWords = true := by decide +kernel

def portsWords : List (Nat × Nat × Instr) := [
  (64, 0x2C000200018002F0, .push { bareOps 0 0 0 6 0 0 with sub := 11, aux := 1 }),
  (64, 0x800000000012AF4, .pop { bareOps 2 1 4 0 0 0 with sub := 2 }),
  (64, 0x10001000000102F8, .peek { bareOps 0 0 4 0 0 0 with sub := 4, pd := 1 }),
  (64, 0x14000000000102FC, .pstat { bareOps 0 0 4 0 0 0 with sub := 5 }),
  (64, 0x10300, .pdrd (bareOps 0 0 4 0 0 0)),
  (64, 0x400800000010300, .pdrdClr { bareOps 0 0 4 0 0 0 with kd := .scal, sub := 1 }),
  (64, 0x800000010304, .pmap { bareOps 0 0 4 0 0 0 with kd := .scal })]
theorem test_decode_portsWords : decodes portsWords = true := by decide +kernel

def matrixWords : List (Nat × Nat × Instr) := [
  (64, 0x1C308, .mzero (bareOps 0 0 7 0 0 0)),
  (64, 0x410001FC200030C, .mldw { bareOps 0 0 0 8 0 0 with s2 := im 127, sub := 1 }),
  (64, 0x808000140024330, .mwst { bareOps 0 0 9 0 0 0 with s2 := sr 5, sub := 2 }),
  (96, 0x100C8410005FC6004311, .mstr { bareOps 0 0 1 24 0 4108 with form := .w96i, s3 := im 127, sub := 33 }),
  (96, 0x40011200480100C315, .mstacc { bareOps 0 0 3 0 0 64 with form := .w96i, s1 := sr 4, s3 := im 32, rm := .rtz }),
  (96, 0x40141202480100C321, .mldacc { bareOps 0 0 3 0 0 64 with form := .w96i, s1 := sr 4, s3 := im 32, sub := 5, aux := 1 }),
  (64, 0xC20318, .mrd (bareOps 0 0 8 3 0 0)),
  (64, 0x200C31C, .mwr (bareOps 0 0 3 8 0 0)),
  (64, 0x1408324, .mcpy (bareOps 0 0 2 5 0 0)),
  (64, 0x82000001408328, .mscl { bareOps 0 0 2 0 0 0 with s1 := sr 5, ftz := true }),
  (64, 0x140832C, .mtrn (bareOps 0 0 2 5 0 0)),
  (64, 0x400003FC00334, .msyn { bareOps 0 0 0 0 0 0 with s1 := im 255 })]
theorem test_decode_matrixWords : decodes matrixWords = true := by decide +kernel

def enginesWords : List (Nat × Nat × Instr) := [
  (128, 0x180480400102033A, .lease { bareOps 0 0 8 0 0 0 with form := .w128i, kd := .scal, s1 := im 4, sub := 6 }),
  (128, 0x280280400102033A, .leaseTry { bareOps 0 0 8 0 0 0 with form := .w128i, kd := .scal, s1 := sr 4, sub := 10 }),
  (128, 0x200400200033E, .erls { bareOps 0 0 0 0 0 0 with form := .w128i, s1 := sr 8 }),
  (128, 0x40200400200033E, .erlsCold { bareOps 0 0 0 0 0 0 with form := .w128i, s1 := sr 8, sub := 1 }),
  (128, 0x2004002010342, .estat { bareOps 0 0 4 0 0 0 with form := .w128i, s1 := sr 8 }),
  (128, 0x19850C0A804244014346, .trace { bareOps 0 0 5 0 0 6533 with form := .w128i, kd := .scal, s1 := sr 16, s3 := sr 9, sub := 3 }),
  (128, 0x19C5000A80424401434A, .attr { bareOps 0 0 5 0 0 6597 with form := .w128i, kd := .scal, s1 := sr 16, s3 := sr 9 }),
  (128, 0x1985340A80424401434E, .rast { bareOps 0 0 5 0 0 6533 with form := .w128i, kd := .scal, s1 := sr 16, s3 := sr 9, sub := 13 }),
  (128, 0x1985000A804244014352, .thresh { bareOps 0 0 5 0 0 6533 with form := .w128i, kd := .scal, s1 := sr 16, s3 := sr 9 }),
  (128, 0x1985000A804244014356, .decode { bareOps 0 0 5 0 0 6533 with form := .w128i, kd := .scal, s1 := sr 16, s3 := sr 9 }),
  (128, 0x19C5080A80424401435A, .gather { bareOps 0 0 5 0 0 6597 with form := .w128i, kd := .scal, s1 := sr 16, s3 := sr 9, sub := 2 }),
  (128, 0x19C5040A80424401435E, .scatr { bareOps 0 0 5 0 0 6597 with form := .w128i, kd := .scal, s1 := sr 16, s3 := sr 9, sub := 1 }),
  (128, 0x1985480A804244014362, .coll { bareOps 0 0 5 0 0 6533 with form := .w128i, kd := .scal, s1 := sr 16, s3 := sr 9, sub := 18 }),
  (128, 0x2004001400366, .ecanc { bareOps 0 0 0 0 0 0 with form := .w128i, s1 := sr 5 }),
  (128, 0x280400141836A, .epoll { bareOps 0 0 6 0 0 0 with form := .w128i, kd := .scal, s1 := sr 5 }),
  (128, 0x200400141836E, .ewait { bareOps 0 0 6 0 0 0 with form := .w128i, s1 := sr 5 })]
theorem test_decode_enginesWords : decodes enginesWords = true := by decide +kernel

def systemWords : List (Nat × Nat × Instr) := [
  (96, 0x120200000804000010371, .srd { bareOps 0 0 4 0 0 73760 with form := .w96i, kd := .scal }),
  (96, 0x200230002004006800375, .swr { bareOps 0 0 0 0 0 131107 with form := .w96i, s1 := sr 26 }),
  (64, 0x40000000378, .tlbiAll { bareOps 0 0 0 0 0 0 with aux := 2 }),
  (64, 0x402020000C00378, .tlbiAsid { bareOps 0 0 0 0 0 0 with s1 := sr 3, sub := 1, aux := 1 }),
  (64, 0x80A000180C00378, .tlbiVa { bareOps 0 0 0 0 0 0 with s1 := sr 3, s2 := sr 6, sub := 2 }),
  (64, 0xC120401C1000378, .tlbiMap { bareOps 0 0 0 0 0 0 with s1 := sr 4, s2 := im 7, sub := 3, aux := 2 }),
  (64, 0x1000004000037C, .trap { bareOps 0 0 0 0 0 0 with s2 := im 1 }),
  (64, 0x380, .brkpt (bareOps 0 0 0 0 0 0)),
  (64, 0x384, .hret (bareOps 0 0 0 0 0 0)),
  (64, 0x2000001800388, .hrpl { bareOps 0 0 0 0 0 0 with s1 := sr 6 }),
  (64, 0x400000000000388, .hrplAll { bareOps 0 0 0 0 0 0 with sub := 1 }),
  (64, 0x200000180038C, .hemu { bareOps 0 0 0 0 0 0 with s1 := sr 6 }),
  (64, 0x40200010180038C, .hemuTo { bareOps 0 0 0 0 4 0 with s1 := sr 6, sub := 1 }),
  (64, 0x390, .hend (bareOps 0 0 0 0 0 0)),
  (64, 0x10394, .hfrd (bareOps 0 0 4 0 0 0)),
  (64, 0x1800800000010398, .hsrd { bareOps 0 0 4 0 0 0 with kd := .scal, sub := 6 }),
  (64, 0x200000200039C, .ctxsv { bareOps 0 0 0 0 0 0 with s1 := sr 8 }),
  (64, 0x20000020003A0, .ctxld { bareOps 0 0 0 0 0 0 with s1 := sr 8 }),
  (64, 0x3A4, .icinv (bareOps 0 0 0 0 0 0)),
  (64, 0x8000000000107AC, .pmrd { bareOps 1 0 4 0 0 0 with sub := 2 }),
  (64, 0xA0001810003A8, .l2flWb { bareOps 0 0 0 0 0 0 with s1 := sr 4, s2 := sr 6 }),
  (64, 0x412001FC10003A8, .l2flInv { bareOps 0 0 0 0 0 0 with s1 := sr 4, s2 := im 127, sub := 1 }),
  (64, 0x804000017C003A8, .l2flSlice { bareOps 0 0 0 0 0 0 with s1 := im 95, sub := 2 }),
  (64, 0xC000000000003A8, .l2flPart { bareOps 0 0 0 0 0 0 with sub := 3 })]
theorem test_decode_systemWords : decodes systemWords = true := by decide +kernel

/-- 07 R174: `FADD v4, v5, v6 | IADD v9, v10, v11`; 07 R179: a word of the hint space, whose upper bits are ignored. -/
theorem test_decode_pair : decodeTableWord 128 0x00000002C28240C00000000181410143 =
    some (.pairedWord ⟨0x50, { bareOps 0 0 4 5 6 0 with form := .slot }⟩ ⟨0x30, { bareOps 0 0 9 10 11 0 with form := .slot }⟩) := by
  decide +kernel
theorem test_decode_hint : decodeTableWord 64 0x123456789ABCD7C8 = some (.hintNop ⟨2, 0, 0x48D159E26AF35⟩) := by decide +kernel

/-- A word refused for the named reason. -/
def refuses {α : Type} (x : Except Reject α) (r : Reject) : Bool :=
  match x with
  | .error e => e == r
  | .ok _ => false
/-- Words that are refused: an unassigned major, zero-filled memory, a reserved bit, an illegal field, a pair that is not permitted, and bytes that end
too soon. -/
theorem test_reject_zero : refuses (decodeWord 0) .unassignedMajor = true := by decide
theorem test_reject_major : refuses (decodeWord 0x64) .unassignedMajor = true := by decide
theorem test_reject_bit38 : refuses (decodeWord (0x30 * 4 + 2 ^ 38)) .reservedBit = true := by decide
theorem test_reject_not_p0 : refuses (decodeWord (0x30 * 4 + 2 ^ 13)) .illegalField = true := by decide
theorem test_reject_pair_bits : refuses (decodeWord (3 + 2 ^ 64)) .reservedBit = true := by decide
theorem test_reject_pair : refuses (decodeWord 0x00000002C28241400000000181410143) .illegalPair = true := by decide +kernel
theorem test_reject_short : refuses (decode [0x40, 0x05, 0x41, 0x81, 0x01]) .truncated = true := by decide

/-! ## Single steps, with results from the tables and examples of the spec or worked by hand -/

/-- The state in which the next step runs a word, with vector registers (by lane) and scalars set. -/
def prep (v : List (Nat × (Nat → Word))) (r : List (Nat × Word)) (nbits w : Nat) : State :=
  (State.reset.withFetchWord nbits w).onWarp 0 fun x =>
    r.foldl (fun x p => x.setS p.1 p.2) (x.mapLanes fun l y => v.foldl (fun y p => y.setOwn p.1 (p.2 l)) y)
/-- What the next step leaves satisfies a test. -/
def steps (s : State) (f : State → Bool) : Bool :=
  match step s with
  | .next t => f t
  | _ => false
def same (w : Word) (_l : Nat) : Word := w
def vreg (t : State) (l r : Nat) : Word := getP 0 ((t.warp 0).lane l).v r
def preg (t : State) (l k : Nat) : Bool := ((t.warp 0).lane l).pred k
def sreg (t : State) (r : Nat) : Word := (t.warp 0).sreg r
/-- A prepared state changed before the step: predicates of every lane, or handler mode. -/
def withPreds (s : State) (p : BitVec 8) : State := s.onWarp 0 fun x => x.mapLanes fun _ y => { y with preds := p }
def inHandler (s : State) : State := s.onWarp 0 fun x => { x with hmode := true }

theorem test_iadd_wraps : steps (prep [(4, same 0xFFFFFFFF)] [] 64 0x101000810180C0) (fun t => vreg t 63 6 == 0x1 && preg t 63 1 == true && vreg t 63 4 == 0xFFFFFFFF) = true := by
  decide +kernel

theorem test_iadd_predicated : steps (prep [(4, same 0x9), (6, same 0x7)] [] 64 0x100000810184C0) (fun t => vreg t 63 6 == 0x7 && vreg t 63 4 == 0x9) = true := by
  decide +kernel

theorem test_isub_borrow : steps (prep [(4, same 0x3), (5, same 0x5)] [] 64 0x2001410180C4) (fun t => vreg t 63 6 == 0xFFFFFFFE && preg t 63 2 == true) = true := by
  decide +kernel

theorem test_ineg_min : steps (prep [(4, same 0x80000000)] [] 64 0x10180C8) (fun t => vreg t 63 6 == 0x80000000) = true := by
  decide +kernel

theorem test_iabs : steps (prep [(4, same 0xFFFFFFFB)] [] 64 0x10180CC) (fun t => vreg t 63 6 == 0x5) = true := by
  decide +kernel

theorem test_imul_low : steps (prep [(4, same 0xFFFF), (5, same 0x20000)] [] 64 0x1410180D0) (fun t => vreg t 63 6 == 0xFFFE0000) = true := by
  decide +kernel

theorem test_imulh_signed : steps (prep [(4, same 0xFFFFFFFF), (5, same 0x2)] [] 64 0x1410180D4) (fun t => vreg t 63 6 == 0xFFFFFFFF) = true := by
  decide +kernel

theorem test_imulh_unsigned : steps (prep [(4, same 0xFFFFFFFF), (5, same 0x2)] [] 64 0x4000001410180D4) (fun t => vreg t 63 6 == 0x1) = true := by
  decide +kernel

theorem test_imad : steps (prep [(4, same 0x3), (5, same 0x4), (6, same 0x5)] [] 96 0x6000000001410180D9) (fun t => vreg t 63 6 == 0x11) = true := by
  decide +kernel

theorem test_iadds_saturates : steps (prep [(4, same 0x7FFFFFFF)] [] 64 0x101000410180DC) (fun t => vreg t 63 6 == 0x7FFFFFFF && preg t 63 1 == true) = true := by
  decide +kernel

theorem test_isubs_unsigned : steps (prep [(4, same 0x2)] [] 64 0x4101000C10180E0) (fun t => vreg t 63 6 == 0x0 && preg t 63 1 == true) = true := by
  decide +kernel

/-- 08 R203: `IMIN.nat v1, v2, -1` gives `v2`. -/
theorem test_imin_nat : steps (prep [(2, same 0x7)] [] 64 0x410003FC08040E4) (fun t => vreg t 63 1 == 0x7) = true := by
  decide +kernel

theorem test_imax_signed : steps (prep [(2, same 0x7)] [] 64 0x10003FC08040E8) (fun t => vreg t 63 1 == 0x7) = true := by
  decide +kernel

theorem test_shl_32 : steps (prep [(4, same 0xFFFFFFFF)] [] 64 0x100008010180FC) (fun t => vreg t 63 6 == 0x0) = true := by
  decide +kernel

theorem test_sar_40 : steps (prep [(4, same 0x80000000)] [] 64 0x10000A01018104) (fun t => vreg t 63 6 == 0xFFFFFFFF) = true := by
  decide +kernel

theorem test_ror_33 : steps (prep [(4, same 0x80000001)] [] 64 0x1000084101810C) (fun t => vreg t 63 6 == 0xC0000000) = true := by
  decide +kernel

theorem test_bfx_sign : steps (prep [(4, same 0xF00), (5, same 0x408)] [] 64 0x400000141018110) (fun t => vreg t 63 6 == 0xFFFFFFFF) = true := by
  decide +kernel

theorem test_bfx_beyond : steps (prep [(4, same 0xF0000000), (5, same 0x201C)] [] 64 0x141018110) (fun t => vreg t 63 6 == 0xF) = true := by
  decide +kernel

theorem test_bfi : steps (prep [(4, same 0xFFFFFFFF), (7, same 0x12)] [] 96 0x80400000041C1018115) (fun t => vreg t 63 6 == 0xFFFFF12F) = true := by
  decide +kernel

theorem test_clz_zero : steps (prep [(4, same 0x0)] [] 64 0x101811C) (fun t => vreg t 63 6 == 0x20) = true := by
  decide +kernel

theorem test_brev : steps (prep [(4, same 0x1)] [] 64 0x1018120) (fun t => vreg t 63 6 == 0x80000000) = true := by
  decide +kernel

theorem test_icmp_lt : steps (prep [(3, same 0xFFFFFFFF)] [] 64 0x811200000C04124) (fun t => preg t 63 1 == true && preg t 63 2 == false) = true := by
  decide +kernel

theorem test_icmp_nat : steps (prep [(3, same 0xFFFFFFFF)] [] 64 0x2811200000C04124) (fun t => preg t 63 1 == false && preg t 63 2 == true) = true := by
  decide +kernel

theorem test_iadd64_carries : steps (prep [(4, same 0xFFFFFFFF), (5, same 0xFFFFFFFF), (8, same 0x1), (9, same 0x0)] [] 64 0x10020101812C) (fun t => vreg t 63 6 == 0x0 && vreg t 63 7 == 0x0 && preg t 63 1 == true) = true := by
  decide +kernel

theorem test_lea_signed : steps (prep [(4, same 0x100), (5, same 0x0), (9, same 0xFFFFFFFF)] [] 64 0x2800000241018134) (fun t => vreg t 63 6 == 0xFC && vreg t 63 7 == 0x0) = true := by
  decide +kernel

theorem test_movi_wide : steps (prep [] [] 128 0x123456789ABCDEF0040000400002813E) (fun t => vreg t 63 10 == 0x9ABCDEF0 && vreg t 63 11 == 0x12345678) = true := by
  decide +kernel

theorem test_mov_scalar : steps (prep [] [(5, 0x4D)] 64 0x2800001428138) (fun t => sreg t 10 == 0x4D) = true := by
  decide +kernel

theorem test_fadd : steps (prep [(5, same 0x3F800000), (6, same 0x40000000)] [] 64 0x181410140) (fun t => vreg t 63 4 == 0x40400000) = true := by
  decide +kernel

/-- 04 R82: an exact zero difference is −0 toward minus infinity. -/
theorem test_fsub_cancels : steps (prep [(5, same 0x3F800000)] [] 64 0x300000141410144) (fun t => vreg t 63 4 == 0x80000000) = true := by
  decide +kernel

theorem test_fmin_zeros : steps (prep [(5, same 0x0), (6, same 0x80000000)] [] 64 0x181410150) (fun t => vreg t 63 4 == 0x80000000) = true := by
  decide +kernel

theorem test_fmax_nan : steps (prep [(5, same 0x7FC00001), (6, same 0x3F800000)] [] 64 0x181410154) (fun t => vreg t 63 4 == 0x3F800000) = true := by
  decide +kernel

/-- 08 R207: a NaN payload is kept. -/
theorem test_fneg_nan : steps (prep [(5, same 0x7F800001)] [] 64 0x141015C) (fun t => vreg t 63 4 == 0xFF800001) = true := by
  decide +kernel

theorem test_fcmp_unordered : steps (prep [(5, same 0x7FC00000), (6, same 0x0)] [] 64 0x401200181404160) (fun t => preg t 63 1 == true && preg t 63 2 == false) = true := by
  decide +kernel

theorem test_fcls : steps (prep [(5, same 0x80000001)] [] 96 0x100001004001404169) (fun t => preg t 63 1 == true) = true := by
  decide +kernel

/-- 08 R209: FRCP of ±0 gives ±∞. -/
theorem test_frcp_zero : steps (prep [(5, same 0x80000000)] [] 64 0x141016C) (fun t => vreg t 63 4 == 0xFF800000) = true := by
  decide +kernel

/-- 08 R209: FLOG2 of −1 gives the canonical NaN. -/
theorem test_flog2_negative : steps (prep [(5, same 0xBF800000)] [] 64 0x1410180) (fun t => vreg t 63 4 == 0x7FC00000) = true := by
  decide +kernel

/-- 08 R209: FEXP2 of 128 gives +∞ under RNE and the largest finite value under RTZ. -/
theorem test_fexp2_rne : steps (prep [(5, same 0x43000000)] [] 64 0x141017C) (fun t => vreg t 63 4 == 0x7F800000) = true := by
  decide +kernel

theorem test_fexp2_rtz : steps (prep [(5, same 0x43000000)] [] 64 0x10000000141017C) (fun t => vreg t 63 4 == 0x7F7FFFFF) = true := by
  decide +kernel

theorem test_fdiv : steps (prep [(5, same 0x3F800000), (6, same 0x40400000)] [] 64 0x181410178) (fun t => vreg t 63 4 == 0x3EAAAAAB) = true := by
  decide +kernel

theorem test_dadd : steps (prep [(6, same 0x0), (7, same 0x3FF00000)] [] 64 0x181810190) (fun t => vreg t 63 4 == 0x0 && vreg t 63 5 == 0x40000000) = true := by
  decide +kernel

theorem test_hadd2 : steps (prep [(5, same 0x3C003C00), (6, same 0x40003C00)] [] 64 0x1814101B4) (fun t => vreg t 63 4 == 0x42004000) = true := by
  decide +kernel

theorem test_f2i_rtz : steps (prep [(5, same 0xC06CCCCD)] [] 64 0x1000000014101D4) (fun t => vreg t 63 4 == 0xFFFFFFFD) = true := by
  decide +kernel

theorem test_i2f : steps (prep [(5, same 0xFFFFFFFF)] [] 64 0x14101D8) (fun t => vreg t 63 4 == 0xBF800000) = true := by
  decide +kernel

theorem test_unpk_nibble : steps (prep [(5, same 0x80000000)] [] 64 0x8100001C14101EC) (fun t => vreg t 63 4 == 0xFFFFFFF8) = true := by
  decide +kernel

theorem test_pset : steps (prep [(9, fun l => BitVec.ofNat 32 l)] [] 64 0x240C044) (fun t => preg t 0 3 == false && preg t 1 3 == true) = true := by
  decide +kernel

theorem test_pand_negated : steps (withPreds (prep [] [] 64 0x20C0804048) 0x05) (fun t => preg t 63 1 == true) = true := by
  decide +kernel

theorem test_pst : steps (withPreds (prep [] [] 64 0x5005C) 0x04) (fun t => vreg t 63 20 == 0x5) = true := by
  decide +kernel

theorem test_reduce_add : steps (prep [(6, fun l => BitVec.ofNat 32 l)] [] 64 0x800001810088) (fun t => sreg t 4 == 0x7E0) = true := by
  decide +kernel

theorem test_scan_add : steps (prep [(6, fun l => BitVec.ofNat 32 l)] [] 64 0x182408C) (fun t => vreg t 0 9 == 0x0 && vreg t 4 9 == 0xA && vreg t 63 9 == 0x7E0) = true := by
  decide +kernel

theorem test_agree_mask : steps (prep [] [] 64 0x800800000018094) (fun t => sreg t 6 == 0xFFFFFFFF && sreg t 7 == 0xFFFFFFFF) = true := by
  decide +kernel

theorem test_match : steps (prep [(6, fun l => BitVec.ofNat 32 (l % 2))] [] 64 0x1828098) (fun t => vreg t 2 10 == 0x55555555 && vreg t 3 11 == 0xAAAAAAAA) = true := by
  decide +kernel

theorem test_shfl_reverse : steps (prep [(4, fun l => BitVec.ofNat 32 l), (5, fun l => BitVec.ofNat 32 (63 - l))] [] 64 0x14100C09C) (fun t => vreg t 0 3 == 0x3F && vreg t 63 3 == 0x0) = true := by
  decide +kernel

theorem test_wrln : steps (prep [(6, same 0x1)] [(8, 0x9)] 64 0x120001420180B0) (fun t => vreg t 5 6 == 0x9 && vreg t 4 6 == 0x1) = true := by
  decide +kernel

theorem test_lmov_bfly : steps (prep [(5, fun l => BitVec.ofNat 32 l)] [] 64 0x10100000414100B4) (fun t => vreg t 0 4 == 0x1 && vreg t 63 4 == 0x3E) = true := by
  decide +kernel

theorem test_bra_back : steps (prep [] [] 64 0xFFFFFE0000000008) (fun t => ((t.warp 0).lane 63).pc == 0xFFFFFFFFFFFFFFF8 && (t.warp 0).retryAt == 4) = true := by
  decide +kernel

theorem test_bra_not_taken : steps (prep [] [] 64 0x3E0000000408) (fun t => ((t.warp 0).lane 63).pc == 0x8 && (t.warp 0).retryAt == 1) = true := by
  decide +kernel

theorem test_call : steps (prep [] [] 64 0x640000030018) (fun t => ((t.warp 0).lane 63).pc == 0x190 && vreg t 63 12 == 0x8 && vreg t 63 13 == 0x0) = true := by
  decide +kernel

theorem test_loop_ends : steps (((prep [] [] 64 0x280000020034)).onWarp 0 fun x => x.mapLanes fun _ y => y.setX 0 1) (fun t => ((t.warp 0).lane 63).pc == 0x8 && getP 0 ((t.warp 0).lane 5).x 0 == 0) = true := by
  decide +kernel

/-- 08 R197: lanes whose value is below 4 go to 16 + 8 × value, the others advance. -/
theorem test_jtab : steps (prep [(7, fun l => BitVec.ofNat 32 l)] [] 64 0x400C1C00038) (fun t => ((t.warp 0).lane 0).pc == 0x10 && ((t.warp 0).lane 3).pc == 0x28 && ((t.warp 0).lane 4).pc == 0x8) = true := by
  decide +kernel

theorem test_exit : steps (prep [] [] 64 0x2C) (fun t => ((t.warp 0).lane 63).st == .exited) = true := by
  decide +kernel

/-- 02 R28: a thread whose next address is its meeting register is held. -/
theorem test_meet_holds : steps (prep [] [] 64 0x20000000024) (fun t => ((t.warp 0).lane 63).st == .held && ((t.warp 0).lane 63).pc == 0x8) = true := by
  decide +kernel

theorem test_demote : steps (prep [] [] 64 0x40) (fun t => ((t.warp 0).lane 0).helper == true) = true := by
  decide +kernel

theorem test_sleep : steps (prep [] [] 96 0x3E8000000400000003D) (fun t => (t.warp 0).retryAt == 1000) = true := by
  decide +kernel

theorem test_qfetch : steps (prep [] [] 64 0xC000014100B8) (fun t => (t.warp 0).oq == [(4, 3), (5, 3)]) = true := by
  decide +kernel

/-- 07 R180. -/
theorem test_swr_privileged : steps (prep [] [] 96 0x2004000800375) (fun t => ((t.warp 0).lane 63).st == .parked && (((t.warp 0).lane 63).fault.map (·.cls)) == some 0x10 && t.trapvec == State.reset.trapvec) = true := by
  decide +kernel

/-- 15 R330: the bits of TRAPVEC, written in handler mode. -/
theorem test_swr_trapvec : steps (inHandler (prep [] [(2, 0x4000)] 96 0x2004000800375)) (fun t => getP 0 t.trapvec 0 == 0x4000) = true := by
  decide +kernel

theorem test_hret : steps (inHandler (prep [] [] 64 0x384)) (fun t => (t.warp 0).hmode == false && (t.warp 0).retryAt == 24) = true := by
  decide +kernel

/-- 15 R332. -/
theorem test_trap : steps (prep [] [] 64 0x1000004000037C) (fun t => ((t.warp 0).traps.map (·.cls)) == [0x11] && ((t.warp 0).traps.map (·.subcode)) == [0x81] && ((t.warp 0).lane 63).pc == 0x8) = true := by
  decide +kernel

theorem test_mzero_acc : steps (prep [] [] 64 0x1C308) (fun t => (t.warp 0).acc 7 15 15 == 0) = true := by
  decide +kernel

theorem test_spst : steps (((prep [(4, same 0x12345678), (7, fun l => BitVec.ofNat 32 (4 * l))] [] 64 0x1000000001C1020C)).onTeam 0 fun k => { k with kern := { k.kern with scratch := 1024 } }) (fun t => ((t.memop 0).acc 2).pa == 8 && ((t.memop 0).acc 2).data == 0x12345678 && (t.warp 0).st == 1) = true := by
  decide +kernel

/-- 07 R161: zero-filled memory is an illegal instruction; its lanes park at the address. -/
theorem test_illegal_word : steps (State.reset.withFetchWord 64 0) (fun t =>
    ((t.warp 0).lane 63).st == .parked && (((t.warp 0).lane 63).fault.map (·.cls)) == some 0x01) = true := by decide +kernel
/-- 07 R179: a word of the hint space does nothing. -/
theorem test_hint_word : steps (State.reset.withFetchWord 64 0x123456789ABCD7C8) (fun t => ((t.warp 0).lane 63).pc == 8) = true := by decide +kernel
/-- 07 R176: both slots of a pair issue. -/
theorem test_paired_word : steps (prep [(5, same 0x3F800000), (6, same 0x3F800000), (10, same 2), (11, same 3)] [] 128
    0x00000002C28240C00000000181410143) (fun t => vreg t 63 4 == 0x40000000 && vreg t 63 9 == 5 && ((t.warp 0).lane 63).pc == 16) = true := by
  decide +kernel
/-- 03 R66: a field of QFETCH without its V bit may hold any value. -/
theorem test_qfetch_unused_field : (decodeTableWord 64 0x1FFC3014100B8).isSome = true := by decide +kernel
/-- 07 R166: a uniform destination takes no vector source, v0 among them. -/
theorem test_uniform_v0 : decodeTableWord 64 0x88001800140C0 = none ∧ (decodeTableWord 64 0x80001800140C0).isSome = true := by decide +kernel

/-! ## States that meet the hypotheses of the statements

For each statement with hypotheses, a theorem `test_hyps_<Name>` gives a state and operands that meet them together, for each of its clauses. -/

/-- A team of one warp of 256 registers whose 64 threads run at address 0, in cycle 100. -/
def lab : State := { State.reset.withFetchWord 64 4 with act := BitVec.allOnes 64, issued := true, npc := 8, now := 100 }
/-- The same with the warp, and the team, changed. -/
def labW (f : Warp → Warp) : State := lab.onWarp 0 f
def labT (f : Team → Team) : State := lab.onTeam 0 f
/-- In handler mode. -/
def labH : State := labW fun x => { x with hmode := true, hpc := 64 }
/-- The instruction may run, and no indexed operand breaks its bound. -/
def Ready (s : State) (f : Ops → Instr) (o : Ops) : Prop := ∃ sh, s.mayRun (f o) sh o ∧ s.idxBad sh o = 0
def readyB (s : State) (f : Ops → Instr) (o : Ops) : Bool :=
  match shapeOf (f o) with
  | some sh =>
    (f o).wf && opsOf (f o) == some o && s.me.regsOk sh o && (!privileged sh.maj o || s.me.hmode) && (!barred sh.maj || !s.me.hmode) &&
      s.idxBad sh o == 0
  | none => false
theorem ready {s : State} {f : Ops → Instr} {o : Ops} (h : readyB s f o = true) : Ready s f o := by
  unfold readyB at h
  split at h
  · next sh hs =>
    simp only [Bool.and_eq_true, beq_iff_eq, Bool.or_eq_true, Bool.not_eq_true'] at h
    obtain ⟨⟨⟨⟨⟨a, b⟩, c⟩, d⟩, e⟩, g⟩ := h
    exact ⟨sh, ⟨a, hs, b, c, fun k => d.resolve_left (by simp [k]), fun k => e.resolve_left (by simp [k])⟩, g⟩
  · cases h
/-- The shape of an instruction, and that it may run whatever its indexed operands name. -/
def shape (i : Instr) : Shape := (shapeOf i).getD { maj := 0, forms := [] }
def MayRun (s : State) (f : Ops → Instr) (o : Ops) : Prop := s.mayRun (f o) (shape (f o)) o
theorem mayRun {s : State} {f : Ops → Instr} {o : Ops} (h : ((shapeOf (f o)).isSome && (f o).wf && opsOf (f o) == some o &&
    s.me.regsOk (shape (f o)) o && (!privileged (shape (f o)).maj o || s.me.hmode) && (!barred (shape (f o)).maj || !s.me.hmode)) = true) :
    MayRun s f o := by
  simp only [Bool.and_eq_true, beq_iff_eq, Bool.or_eq_true, Bool.not_eq_true'] at h
  obtain ⟨⟨⟨⟨⟨g, a⟩, b⟩, c⟩, d⟩, e⟩ := h
  obtain ⟨sh, hs⟩ := Option.isSome_iff_exists.1 g
  refine ⟨a, ?_, b, c, fun k => d.resolve_left (by simp [k]), fun k => e.resolve_left (by simp [k])⟩
  simp [shape, hs]
/-- Each instruction of a list is ready with one of some operands. -/
theorem allReady {s : State} {l : List (Ops → Instr)} {os : List Ops} (h : (l.all fun f => os.any fun o => readyB s f o) = true) :
    ∀ f ∈ l, ∃ o, Ready s f o := by
  intro f hf
  obtain ⟨o, -, ho⟩ := List.any_eq_true.1 (List.all_eq_true.1 h f hf)
  exact ⟨o, ready ho⟩
/-- Operands: two, one or three vector registers, immediates, a predicate or a scalar destination. -/
def o2 : Ops := bareOps 0 0 40 44 48 0
def o1 : Ops := bareOps 0 0 40 44 0 0
def o3 : Ops := { o2 with form := .w96r, s3 := vr 52 }
def oi : Ops := { o1 with s2 := im 1 }
def oImm : Ops := { bareOps 0 0 40 0 0 0 with s2 := im 5 }
def o3i : Ops := { bareOps 0 0 40 44 0 0x804 with form := .w96i, s3 := vr 52 }
def o2p : Ops := { o2 with kd := .pred, dst := 2 }
def o1p : Ops := { bareOps 0 0 2 44 0 0x10 with form := .w96i, kd := .pred }
def oSet : Ops := bareOps 0 0 2 44 0 0
def shapes : List Ops := [o2, o1, o3, oi, oImm, o3i, o2p, o1p, oSet]
/-- Several instructions are ready in one state. -/
theorem readies {s : State} {l : List ((Ops → Instr) × Ops)} (h : (l.all fun p => readyB s p.1 p.2) = true) : ∀ p ∈ l, Ready s p.1 p.2 :=
  fun p hp => ready (List.all_eq_true.1 h p hp)
/-- The running instruction was tried in an earlier cycle. -/
def labAt (phase datum : Nat) : State := labW fun x => { x with stalled := some ⟨lab.ipc, 0, 1, phase, datum⟩ }

/-- A word of a major whose sub-opcode, second source and other low fields are all ones, and one whose upper half is `h`. -/
def badWord (maj h : Nat) : Nat := 4 * maj + h
/-- One of its sub-opcodes is refused. -/
def SubWitness (maj : Nat) (ok : Nat → Bool) : Prop := ∃ w, Claims.single maj w ∧ ok (Claims.wSub w) = false
theorem subWitness {maj : Nat} {ok : Nat → Bool}
    (h : (decide (badWord maj (63 * 2 ^ 58) % 4 ≠ 3) && badWord maj (63 * 2 ^ 58) / 4 % 256 == maj && !ok (Claims.wSub (badWord maj (63 * 2 ^ 58)))) = true) :
    SubWitness maj ok := by
  simp only [Bool.and_eq_true, decide_eq_true_eq, beq_iff_eq, Bool.not_eq_true'] at h
  exact ⟨_, ⟨h.1.1, h.1.2⟩, h.2⟩
/-- Words for `Timed`: legal, with lanes that pass, and with none. -/
def Times (f : Ops → Instr) : Prop :=
  ∃ o sh, (f o).wf = true ∧ shapeOf (f o) = some sh ∧ lab.anyPass o = true ∧ lab.anyPass { o with pn := 1 } = false ∧
    (f { o with pn := 1 }).wf = true
def timesB (f : Ops → Instr) (o : Ops) : Bool :=
  (f o).wf && (shapeOf (f o)).isSome && lab.anyPass o && !lab.anyPass { o with pn := 1 } && (f { o with pn := 1 }).wf
theorem times {l : List (Ops → Instr)} {os : List Ops} (h : (l.all fun f => os.any fun o => timesB f o) = true) : ∀ f ∈ l, Times f := by
  intro f hf
  obtain ⟨o, -, ho⟩ := List.any_eq_true.1 (List.all_eq_true.1 h f hf)
  simp only [timesB, Bool.and_eq_true, Bool.not_eq_true'] at ho
  obtain ⟨⟨⟨⟨a, b⟩, c⟩, d⟩, e⟩ := ho
  obtain ⟨sh, hs⟩ := Option.isSome_iff_exists.1 b
  exact ⟨o, sh, a, hs, c, d, e⟩

/-- Scalar destinations and operands in handler mode. -/
def o2s : Ops := { o2 with kd := .scal, s1 := sr 8, s2 := sr 20, dst := 12 }
def o1s : Ops := { o1 with kd := .scal, s1 := sr 8, dst := 12 }
def o3s : Ops := { o3 with kd := .scal, s1 := sr 8, s2 := sr 20, s3 := sr 24, dst := 12 }
theorem test_hyps_IntegerInstructions :
    (∀ f ∈ (Claims.arithmetic ++ Claims.logic).map Prod.fst, ∃ o, Ready lab f o) ∧
    (∀ f ∈ (Claims.arithmetic ++ Claims.logic).map Prod.fst, ∃ o, Ready labH f o) ∧
    Ready lab .iadd o2s ∧ Ready lab .imad o3s ∧ Ready lab .popc o1s ∧
    (∀ f ∈ Claims.integerWords.map Prod.fst, Times f) ∧
    (SubWitness 0x30 (fun n => decide (n ≤ 0)) ∧ SubWitness 0x4A fun n => decide (n ≤ 7)) ∧
    ∀ maj ∈ [0x32, 0x33, 0x3E, 0x46, 0x47, 0x48],
      (Claims.single maj (badWord maj (2 ^ 30)) ∧ Claims.wSrc2 (badWord maj (2 ^ 30)) ≠ 0) ∧
      Claims.single maj (badWord maj (2 ^ 51)) ∧ Claims.wK2 (badWord maj (2 ^ 51)) ≠ 0 :=
  ⟨allReady (os := shapes) (by decide +kernel), allReady (os := shapes) (by decide +kernel), ready (by decide +kernel), ready (by decide +kernel),
    ready (by decide +kernel), times (os := shapes) (by decide +kernel), ⟨subWitness (by decide), subWitness (by decide)⟩,
    by unfold Claims.single Claims.wSrc2 Claims.wK2 badWord; decide⟩

theorem test_hyps_BitFields :
    (∀ f ∈ Claims.fields.map Prod.fst, ∃ o, Ready lab f o) ∧ (∀ f ∈ Claims.fields.map Prod.fst, Times f) ∧
    SubWitness 0x44 (fun n => decide (n ≤ 1)) ∧ SubWitness 0x45 (fun n => decide (n = 0)) :=
  ⟨allReady (os := shapes) (by decide +kernel), times (os := shapes) (by decide +kernel), subWitness (by decide), subWitness (by decide)⟩

theorem test_hyps_IntegerCompare :
    (∀ f ∈ Claims.compares.map Prod.fst, ∃ o, Ready lab f o) ∧ Times .icmp ∧ SubWitness 0x49 (fun n => decide (n % 8 ≤ 5 ∧ n < 16)) ∧
    (∃ p q : Slot, p.maj.toNat = 0x49 ∧ q.maj.toNat = 0x30) ∧
    (Claims.single 0x49 (badWord 0x49 0) ∧ Claims.wKd (badWord 0x49 0) ≠ 2) ∧
    Claims.single 0x49 (badWord 0x49 (2 * 2 ^ 47 + 8 * 2 ^ 14)) ∧ 8 ≤ Claims.wDst (badWord 0x49 (2 * 2 ^ 47 + 8 * 2 ^ 14)) :=
  ⟨allReady (os := shapes) (by decide +kernel), times (os := shapes) (l := [.icmp]) (by decide +kernel) _ (by simp), subWitness (by decide),
    ⟨⟨0x49, o2⟩, ⟨0x30, o2⟩, rfl, rfl⟩, by unfold Claims.single Claims.wKd badWord; decide, by unfold Claims.single Claims.wDst badWord; decide⟩

theorem test_hyps_FloatInstructions :
    (∀ f ∈ (Claims.float32 ++ Claims.float32Tests).map Prod.fst, ∃ o, Ready lab f o) ∧ (∀ f ∈ Claims.floatWords.map Prod.fst, Times f) ∧
    SubWitness 0x50 (fun n => decide (n ≤ 0)) ∧ SubWitness 0x58 (fun n => decide (n ≤ 7)) ∧
    (∀ p ∈ Claims.floatWords, p.2.2.2.2.1 = false → Claims.single p.2.1 (badWord p.2.1 (3 * 2 ^ 56)) ∧ Claims.wRm (badWord p.2.1 (3 * 2 ^ 56)) ≠ 0) ∧
    (∀ p ∈ Claims.floatWords, p.2.2.2.2.2 = false → Claims.single p.2.1 (badWord p.2.1 (2 ^ 55)) ∧ Claims.wFtz (badWord p.2.1 (2 ^ 55)) ≠ 0) ∧
    ∀ maj ∈ [0x58, 0x5A], (Claims.single maj (badWord maj 0) ∧ Claims.wKd (badWord maj 0) ≠ 2) ∧
      Claims.single maj (badWord maj (2 * 2 ^ 47 + 8 * 2 ^ 14)) ∧ 8 ≤ Claims.wDst (badWord maj (2 * 2 ^ 47 + 8 * 2 ^ 14)) :=
  ⟨allReady (os := shapes) (by decide +kernel), times (os := shapes) (by decide +kernel), subWitness (by decide), subWitness (by decide),
    by unfold Claims.single Claims.wRm badWord; decide, by unfold Claims.single Claims.wFtz badWord; decide,
    by unfold Claims.single Claims.wKd Claims.wDst badWord; decide⟩

/-- Operands of DQBL, and of the lane operations. -/
def oBlk : Ops := { o2 with sub := 7 }
def oQblk : Ops := { o1 with sub := 2 }
theorem test_hyps_MovesConversionsAndPacking :
    (∀ f ∈ (Claims.wideMoves ++ Claims.packed16 ++ Claims.conversions ++ Claims.narrow).map Prod.fst, ∃ o, Ready lab f o) ∧
    ∀ f ∈ Claims.moveTimes.map Prod.fst, Times f :=
  ⟨allReady (os := oBlk :: shapes) (by decide +kernel), times (os := oBlk :: oQblk :: shapes) (by decide +kernel)⟩

/-- The function units of quarter 0 are busy until cycle 101. -/
def labBusy : State := { lab with quarters := [{ Quarter.idle_ with unitFree := 101, fp64Free := 101 }] }
theorem test_hyps_FunctionUnits :
    (∀ f ∈ (Claims.special ++ Claims.float64).map Prod.fst, ∃ o, Ready lab f o) ∧
    (lab.unitBusy false = false ∧ lab.unitBusy true = false ∧ labBusy.unitBusy false = true ∧ labBusy.unitBusy true = true) ∧
    (∀ f ∈ (Claims.special ++ Claims.transcendental ++ Claims.float64).map Prod.fst, ∃ o, Ready labBusy f o) ∧
    ∀ f ∈ Claims.unitTimes.map Prod.fst, Times f :=
  ⟨allReady (os := shapes) (by decide +kernel), by decide, allReady (os := shapes) (by decide +kernel), times (os := shapes) (by decide +kernel)⟩
theorem test_hyps_Transcendental :
    (∀ f ∈ Claims.transcendental.map Prod.fst, ∃ o, Ready lab f o) ∧ lab.unitBusy false = false :=
  ⟨allReady (os := shapes) (by decide +kernel), by decide⟩

def oMask : Ops := { bareOps 0 0 6 0 0 0 with kd := .scal, aux := 2, sub := 2 }
def oVote : Ops := { bareOps 0 0 2 0 0 0 with kd := .pred, aux := 1 }
def oEvery : Ops := { bareOps 0 0 7 0 0 0 with kd := .pred, aux := 3, sub := 1 }
def oFirst : Ops := { bareOps 0 0 7 4 0 0 with kd := .scal }
def oPopl : Ops := { bareOps 0 0 7 0 0 0 with kd := .scal, aux := 4 }
def oRdln : Ops := { bareOps 0 0 9 4 0 0 with kd := .scal, s2 := sr 2 }
def oWrln : Ops := { bareOps 0 0 6 0 0 0 with s1 := sr 8, s2 := im 63 }
def oRed : Ops := { bareOps 0 0 4 6 0 0 with kd := .scal, sub := 8 }
def laneShapes : List Ops := [oMask, oVote, oEvery, oFirst, oPopl, oRdln, oWrln, oRed] ++ shapes
/-- No lane takes part. -/
def labNone : State := { lab with act := 0 }
theorem test_hyps_LaneOperations :
    (∀ f ∈ (Claims.reductions ++ Claims.agreements).map Claims.LaneRow.instr, ∃ o, Ready lab f o) ∧
    (∀ f ∈ (Claims.reductions ++ Claims.agreements).map Claims.LaneRow.instr, ∃ o, Ready labNone f o) ∧
    oVote.kd = .pred ∧ oMask.kd ≠ .pred ∧ Claims.contributes labNone oMask = [] ∧ ∀ f ∈ Claims.laneTimes.map Prod.fst, Times f :=
  ⟨allReady (os := laneShapes) (by decide +kernel), allReady (os := laneShapes) (by decide +kernel), by decide, by decide, by decide,
    times (os := laneShapes) (by decide +kernel)⟩

/-- An LDPAT of the warp is replacing table 2. -/
def labLdpat : State := { lab with memops := [{ MemOp.idle with live := true, kind := .ldpat 2, ctr := .ld }] }
def oPerm : Ops := { o1 with aux := 2 }
theorem test_hyps_LaneMovement :
    (∀ f ∈ Claims.laneMoves.map Prod.fst, ∃ o, Ready lab f o) ∧ Ready lab .wrln oWrln ∧
    (Ready lab .perm oPerm ∧ lab.tried = none ∧ ∀ k ∈ lab.memops, ¬(k.live = true ∧ k.warp = lab.cur ∧ k.kind = .ldpat oPerm.aux.toNat)) ∧
    Ready labLdpat .perm oPerm ∧ labLdpat.tried = none ∧
      ∃ k ∈ labLdpat.memops, k.live = true ∧ k.warp = labLdpat.cur ∧ k.kind = .ldpat oPerm.aux.toNat :=
  ⟨allReady (os := shapes) (by decide +kernel), ready (by decide +kernel), ⟨ready (by decide +kernel), by decide, by decide⟩,
    ready (by decide +kernel), by decide, by decide⟩

def oPreds : Ops := bareOps 0 0 7 2 0x83 0
def oPnot : Ops := bareOps 0 0 4 0x87 0 0
def oPsel : Ops := { oPreds with aux := 7 }
def oPld : Ops := { bareOps 0 0 0 0 0 0 with s1 := sr 5 }
def oPst : Ops := bareOps 0 0 255 0 0 0
theorem test_hyps_PredicateInstructions :
    (∀ f ∈ Claims.predicates.map Prod.fst, ∃ o, Ready lab f o) ∧ Ready lab .pld oPld ∧ Ready lab .pst oPst ∧
    (∀ f ∈ Claims.predicateWords.map Prod.fst, Times f) ∧
    (Claims.single 0x15 (badWord 0x15 (2 ^ 30)) ∧ Claims.wSrc2 (badWord 0x15 (2 ^ 30)) ≠ 0) ∧
    (Claims.single 0x16 (badWord 0x16 (2 ^ 14)) ∧ Claims.wDst (badWord 0x16 (2 ^ 14)) ≠ 0) ∧
    Claims.single 0x17 (badWord 0x17 (2 ^ 37)) ∧ badWord 0x17 (2 ^ 37) / 2 ^ 22 % 2 ^ 16 ≠ 0 :=
  ⟨allReady (os := [oPreds, oPnot, oPsel, oSet]) (by decide +kernel), ready (by decide +kernel), ready (by decide +kernel),
    times (os := [oPreds, oPnot, oPsel, oSet, oPld, oPst]) (by decide +kernel), by unfold Claims.single Claims.wSrc2 badWord; decide,
    by unfold Claims.single Claims.wDst badWord; decide, by unfold Claims.single badWord; decide⟩

/-- The lanes agree on where they go. -/
theorem agreed {s : State} {f : Nat → Option DWord} (h : s.me.hmode = false) : s.agrees f := fun k => absurd k (by simp [h])
/-- In lane `l`, `v7` is `l` and the index register `x0` is 1 or 2; lanes 0 to 9 pass under `p1`. -/
def labTable : State := labW fun x => x.mapLanes fun l y => { y.setOwn 7 (BitVec.ofNat 32 l) with x := [BitVec.ofNat 16 (1 + l % 2)], preds := if l < 10 then 2 else 0 }
def oBra : Ops := bareOps 1 0 0 0 0 0xFFFFFE
def oJump : Ops := bareOps 0 0 0 8 0 0
def oCall : Ops := bareOps 0 0 12 0 0 0x800000
def oCallx : Ops := { bareOps 0 0 14 0 0 0 with s1 := sr 6 }
def oLoop : Ops := bareOps 0 0 8 0 0 0xFFFFEC
def oJtab : Ops := bareOps 0 0 0 7 255 4
def oJbad : Ops := bareOps 0 0 0 7 0 5
theorem test_hyps_ControlFlow :
    ((∀ f ∈ Claims.branches.map Prod.fst, ∃ o, Ready labTable f o) ∧ ∀ p ∈ Claims.branches, ∀ o, labTable.agrees (p.2 labTable o)) ∧
    (Ready labH .bra { oBra with pn := 0 } ∧ labH.agrees fun _ => some (Claims.target labH { oBra with pn := 0 })) ∧
    (Ready lab .call oCall ∧ Ready lab .callx oCallx ∧ ∀ x o, lab.agrees (Claims.callTarget x lab o)) ∧
    (Ready labTable .loop oLoop ∧ labTable.agrees (Claims.loopTarget labTable oLoop)) ∧
    (Ready labTable .jtab oJtab ∧ (Claims.target labTable oJtab).toNat % 8 = 0 ∧ labTable.agrees (Claims.tableTarget labTable oJtab)) ∧
    Ready labTable .jtab oJbad ∧ (Claims.target labTable oJbad).toNat % 8 ≠ 0 ∧ labTable.me.hmode = false ∧
      (Claims.tableTarget labTable oJbad 0).isSome = true ∧ Claims.tableTarget labTable oJbad 1 = none :=
  ⟨⟨allReady (os := [oBra, oJump, bareOps 0 0 0 0 0 0]) (by decide +kernel), fun _ _ _ => agreed rfl⟩,
    ⟨ready (by decide +kernel), fun _ _ _ _ _ _ _ => rfl⟩, ⟨ready (by decide +kernel), ready (by decide +kernel), fun _ _ => agreed rfl⟩,
    ⟨ready (by decide +kernel), agreed rfl⟩, ⟨ready (by decide +kernel), by decide +kernel, agreed rfl⟩, ready (by decide +kernel), by decide +kernel,
    rfl, by decide +kernel, by decide +kernel⟩

def oMeetx : Ops := bareOps 0 0 0 10 0 0
def oSleep : Ops := { bareOps 0 0 0 0 0 0xFFFFFFFF with form := .w96i }
def oPlain : Ops := bareOps 0 0 0 0 0 0
theorem test_hyps_ThreadAndWarpState :
    Ready lab .meet oBra ∧ Ready lab .meetx oMeetx ∧ Ready lab .exitT oPlain ∧ Ready lab .demote oPlain ∧ Ready lab .sleep oSleep ∧
    Ready lab .yield oPlain ∧ lab.issued = true :=
  ⟨ready (by decide +kernel), ready (by decide +kernel), ready (by decide +kernel), ready (by decide +kernel), ready (by decide +kernel),
    ready (by decide +kernel), rfl⟩

def oQfetch : Ops := { oPlain with imm := 0xF050403FF }
/-- A source with a last-read mark, named or indexed, and its queue entry. -/
def oMarked : Ops := { o2 with s1 := ⟨.vec, 44, true, Desc.off⟩ }
def oMarkedIx : Ops := { o2 with s1 := ⟨.idx, 48, true, Desc.off⟩ }
def labQueue : State := labW fun x => { x with oq := [(44, 0), (48, 0)] }
theorem test_hyps_QueueAndCompression :
    (Ready lab .qfetch oQfetch ∧ ∀ r ∈ Claims.fetches oQfetch, r < lab.me.nregs) ∧ (Ready labH .qfetch oQfetch ∧ labH.me.hmode = true) ∧
    ((∀ f ∈ Claims.plainRows.map Prod.fst, ∃ o, Ready labQueue f o) ∧ labQueue.me.hmode = false ∧
      (Ready labQueue .iadd oMarked ∧ Claims.marked labQueue (shape (.iadd oMarked)) oMarked 44) ∧
      Ready labQueue .iadd oMarkedIx ∧ Claims.marked labQueue (shape (.iadd oMarkedIx)) oMarkedIx 48) ∧
    Ready lab .iadd o2 ∧ lab.me.hmode = false ∧ o2.kd = .vec ∧ (shapeOf (.iadd o2)).map Shape.dstRegs = some 1 ∧ ∃ l < 64, lab.pass o2 l = true :=
  ⟨⟨ready (by decide +kernel), by decide⟩, ⟨ready (by decide +kernel), rfl⟩,
    ⟨allReady (os := oBlk :: shapes) (by decide +kernel), rfl,
      ⟨ready (by decide +kernel), (⟨.vec, 44, true, Desc.off⟩, 1), by decide, rfl, .inl (by decide)⟩,
      ready (by decide +kernel), (⟨.idx, 48, true, Desc.off⟩, 1), by decide, rfl, .inr ⟨rfl, 63, by decide, by decide, 48, by decide, by decide, by decide⟩⟩,
    ready (by decide +kernel), rfl, rfl, by decide, 63, by decide, by decide⟩

/-- The index register of lane `l` is `l`: lanes 0 to 15 name a register below the bound, the others one within it. -/
def labIndex : State := labW fun x => { x.mapLanes fun l y => { y with x := [0, BitVec.ofNat 16 l] } with lo := 24, hi := 71 }
def oIndex : Ops := { o1 with s1 := ix 8, ixn := 1 }
/-- The warp holds eight registers. -/
def labSmall : State := labW fun x => { x with nregs := 8 }
def labSmallH : State := labH.onWarp 0 fun x => { x with nregs := 8 }
theorem test_hyps_OperandChecks :
    (MayRun labIndex .iabs oIndex ∧ labIndex.me.hmode = false ∧
      Claims.breaks labIndex (shape (.iabs oIndex)) oIndex 15 23 ∧ ¬Claims.outside labIndex.me 24 1 ∧
      ¬Claims.outside labIndex.me 71 1 ∧ Claims.outside labIndex.me 72 1) ∧
    (shapeOf (.iabs o1) = some (shape (.iabs o1)) ∧ labSmall.me.regsOk (shape (.iabs o1)) o1 = false ∧ labSmall.me.hmode = false) ∧
    (shapeOf (.hret oPlain) = some (shape (.hret oPlain)) ∧ lab.me.regsOk (shape (.hret oPlain)) oPlain = true ∧
      privileged (shape (.hret oPlain)).maj oPlain = true ∧ lab.me.hmode = false) ∧
    shapeOf (.exitT oPlain) = some (shape (.exitT oPlain)) ∧ labH.me.regsOk (shape (.exitT oPlain)) oPlain = true ∧
      barred (shape (.exitT oPlain)).maj = true ∧ labH.me.hmode = true ∧ labH.me.ended = false :=
  ⟨⟨mayRun (by decide +kernel), rfl, by unfold Claims.breaks Claims.outside; decide +kernel, by unfold Claims.outside; decide⟩,
    ⟨by decide, by decide, rfl⟩, ⟨by decide, by decide, by decide, rfl⟩, by decide, by decide, by decide, rfl, rfl⟩

/-- Memory is trained: 64 GiB in one interleave domain over every slice; the core's TLB maps a page of 1 MiB of slice memory at 0x10000000. Lanes 0 and
63 are active; their addresses `v8`:`v9` are the first 16 bytes and the last of that page, `s8`:`s9` its first line, their offsets `v7` and `s7` 0. -/
def labM : State :=
  { (labW fun x => { x.mapLanes fun l y => { y with
        v := [0, 0, 0, 0, 0, 0, 0, 0, if l = 63 then 0x100FFFF0 else 0x10000000, 0, 1, 2, 3, 4, 5, 6] } with
      s := [0, 0, 0, 0, 16, 0, 16, 0, 0x10000000, 0] }) with
    act := 0x8000000000000001
    capmap := List.replicate 18 (0 : DWord) ++ [65536#64 <<< 32]
    hashLive := [0x800000000FFF0000, 0x1FF]
    sliceLive := [0, 6, 12, 18, 24, 30, 36, 42, 48, 54, 60, 66, 72, 78, 84, 95]
    slmcarve := List.replicate 96 2
    tlb := [⟨0, 0, false, 0x10000000, 0x4000000, 4, false, true, false, false, 0⟩, ⟨0, 0, false, 0, 0, 0, true, false, false, false, 0⟩] }
/-- The team's stack is 16 bytes a lane, and its scratch 1,024 bytes. -/
def labS : State := labM.onTeam 0 fun k => { k with sb := 0x10000000, sz := 16, kern := { k.kern with scratch := 1024 } }
/-- The leaf of an address. -/
def leafOf (s : State) (va : Nat) : TlbEnt := (s.tlbFind s.me.core s.myTeam.asid va).getD ⟨600, 0, false, 0, 0, 0, false, false, false, false, 0⟩
def grantedB (s : State) (need : Need) (a : Acc) : Bool :=
  let e := leafOf s a.va
  canonical a.va && s.tlb.contains e && e.unit == s.me.core && e.covers s.myTeam.asid a.va &&
    (s.tlb.all fun x => !(x.unit == s.me.core && x.covers s.myTeam.asid a.va) || x == e) &&
    decide (s.checkAcc (s.partOf s.cur) need a.va ⟨0, some e, 0⟩ = .ok (e.phys a.va) e.slr e.cmp (Claims.attrOf e))
theorem granted {s : State} {need : Need} {a : Acc} (h : grantedB s need a = true) : Claims.granted s need (leafOf s) a := by
  simp only [grantedB, Bool.and_eq_true, decide_eq_true_eq, beq_iff_eq, List.all_eq_true, Bool.or_eq_true, Bool.not_eq_true',
    Bool.and_eq_false_iff, beq_eq_false_iff_ne, List.contains_iff_mem] at h
  obtain ⟨⟨⟨⟨⟨a, b⟩, c⟩, d⟩, e⟩, f⟩ := h
  exact ⟨a, ⟨b, c, d, fun x hx h1 h2 => (e x hx).resolve_left fun k => k.elim (· h1) (by simp [h2])⟩, f⟩
/-- The hypotheses of `AccessRule`. -/
structure AccessHyps (p : Claims.AccessRow) (o : Ops) (s : State) : Prop where
  form : p.form o
  run : s.mayRun (p.instr o) (shape (p.instr o)) o
  bound : s.idxBad (shape (p.instr o)) o = 0
  lanes : s.act ≠ 0 ∧ p.lanes s (shape (p.instr o)) o ≠ []
  room : s.noRoom (p.op s (shape (p.instr o)) o).ctr = false
  ready : ∀ l ∈ p.lanes s (shape (p.instr o)) o, p.ready s o l
  granted : ∀ a ∈ (p.lanes s (shape (p.instr o)) o).flatMap (p.accs s o), Claims.granted s (p.need s o) (leafOf s) a
theorem access {p : Claims.AccessRow} {o : Ops} {s : State} (f : p.form o)
    (h : ((shapeOf (p.instr o)).isSome && (p.instr o).wf && opsOf (p.instr o) == some o &&
      s.me.regsOk (shape (p.instr o)) o && (!privileged (shape (p.instr o)).maj o || s.me.hmode) && (!barred (shape (p.instr o)).maj || !s.me.hmode)) = true)
    (b : (s.idxBad (shape (p.instr o)) o == 0 && s.act != 0 && !(p.lanes s (shape (p.instr o)) o).isEmpty &&
      !s.noRoom (p.op s (shape (p.instr o)) o).ctr &&
      ((p.lanes s (shape (p.instr o)) o).flatMap (p.accs s o)).all (grantedB s (p.need s o))) = true)
    (r : ∀ l ∈ p.lanes s (shape (p.instr o)) o, p.ready s o l) : AccessHyps p o s := by
  simp only [Bool.and_eq_true, beq_iff_eq, bne_iff_ne, Bool.not_eq_true', List.all_eq_true, List.isEmpty_eq_false_iff] at b
  obtain ⟨⟨⟨⟨a, b⟩, c⟩, d⟩, e⟩ := b
  exact ⟨f, mayRun h, a, ⟨b, c⟩, d, r, fun x hx => Tests.granted (e x hx)⟩
/-! One instruction of each row. -/
theorem load0 : AccessHyps (Claims.vectorLoad false .gld) { bareOps 0 0 12 8 0 0 with sub := 6 } labM :=
  access (nofun) (by decide +kernel) (by decide +kernel) (by simp only [Claims.vectorLoad]; decide +kernel)
theorem load1 : AccessHyps (Claims.scalarLoad false .gld) { bareOps 0 0 4 0 0 0 with kd := .scal, s1 := sr 8, s2 := im 0, sub := 5 } labM :=
  access (rfl) (by decide +kernel) (by decide +kernel) (by simp only [Claims.scalarLoad]; decide +kernel)
theorem load2 : AccessHyps (Claims.vectorLoad true .slld) { bareOps 0 0 12 8 0 0 with sub := 4 } labM :=
  access (nofun) (by decide +kernel) (by decide +kernel) (by simp only [Claims.vectorLoad]; decide +kernel)
theorem load3 : AccessHyps (Claims.scalarLoad true .slld) { bareOps 0 0 4 0 0 0 with kd := .scal, s1 := sr 8, s2 := im 0, sub := 5 } labM :=
  access (rfl) (by decide +kernel) (by decide +kernel) (by simp only [Claims.scalarLoad]; decide +kernel)
theorem load4 : AccessHyps (Claims.stackLoad) { bareOps 0 0 12 7 0 0 with sub := 6 } labS :=
  access (nofun) (by decide +kernel) (by decide +kernel) (by simp only [Claims.stackLoad, Claims.onStack]; decide +kernel)
theorem load5 : AccessHyps (Claims.stackScalar) { bareOps 0 0 4 0 0 0 with kd := .scal, s1 := sr 7, s2 := im 0, sub := 0 } labS :=
  access (rfl) (by decide +kernel) (by decide +kernel) (by simp only [Claims.stackScalar, Claims.onStack]; decide +kernel)
theorem load6 : AccessHyps (Claims.uniformLoad) { bareOps 0 0 4 0 0 0 with kd := .scal, s1 := sr 8, s2 := im 0, sub := 13, aux := 1 } labM :=
  access (nofun) (by decide +kernel) (by decide +kernel) (by simp only [Claims.uniformLoad]; decide +kernel)
theorem load7 : AccessHyps (Claims.uniformIndexed) { bareOps 0 0 12 0 0 0 with kd := .idx, s1 := sr 8, s2 := im 0, sub := 2 } labM :=
  access (rfl) (by decide +kernel) (by decide +kernel) (by simp only [Claims.uniformIndexed]; decide +kernel)
theorem load8 : AccessHyps (Claims.prefetches true .prfgL1) (bareOps 0 0 0 8 0 0) labM :=
  access (trivial) (by decide +kernel) (by decide +kernel) (by simp only [Claims.prefetches]; decide +kernel)
theorem load9 : AccessHyps (Claims.prefetches false .prfgL2) { bareOps 0 0 0 8 0 0 with sub := 1 } labM :=
  access (trivial) (by decide +kernel) (by decide +kernel) (by simp only [Claims.prefetches]; decide +kernel)
theorem load10 : AccessHyps (Claims.tileLoad) { bareOps 0 0 12 0 0 0 with s1 := sr 8, s2 := sr 6 } labM :=
  access (trivial) (by decide +kernel) (by decide +kernel) (by simp only [Claims.tileLoad, Claims.tileReady]; decide +kernel)
theorem load11 : AccessHyps (Claims.scaledLoad) { bareOps 0 0 5 0 0 0 with s1 := sr 8, s2 := sr 7, sub := 2, aux := 2 } labM :=
  access (trivial) (by decide +kernel) (by decide +kernel) (by simp only [Claims.scaledLoad]; decide +kernel)
theorem store0 : AccessHyps (Claims.vectorStore false false .gst) { bareOps 0 0 12 8 0 0 with sub := 6 } labM :=
  access (trivial) (by decide +kernel) (by decide +kernel) (by simp only [Claims.vectorStore]; decide +kernel)
theorem store1 : AccessHyps (Claims.vectorStore true false .slst) { bareOps 0 0 12 8 0 0 with sub := 0 } labM :=
  access (trivial) (by decide +kernel) (by decide +kernel) (by simp only [Claims.vectorStore]; decide +kernel)
theorem store2 : AccessHyps (Claims.vectorStore false true .gstn) { bareOps 0 0 12 8 0 0 with sub := 4 } labM :=
  access (trivial) (by decide +kernel) (by decide +kernel) (by simp only [Claims.vectorStore]; decide +kernel)
theorem store3 : AccessHyps (Claims.stackStore) { bareOps 0 0 12 7 0 0 with sub := 6 } labS :=
  access (trivial) (by decide +kernel) (by decide +kernel) (by simp only [Claims.stackStore, Claims.onStack]; decide +kernel)
theorem store4 : AccessHyps (Claims.tileStore) { bareOps 0 0 12 0 0 0 with s1 := sr 8, s2 := sr 6, sub := 1 } labM :=
  access (trivial) (by decide +kernel) (by decide +kernel) (by simp only [Claims.tileStore, Claims.tileReady]; decide +kernel)
theorem store5 : AccessHyps (Claims.scaledStore) { bareOps 0 0 12 0 0 0 with s1 := sr 8, s2 := im 0, sub := 1 } labM :=
  access (trivial) (by decide +kernel) (by decide +kernel) (by simp only [Claims.scaledStore]; decide +kernel)
theorem atomic0 : AccessHyps (Claims.returning false .aadd (fun _ => .add) Claims.typeOf (Claims.operandRegs .add)) (bareOps 0 0 12 8 10 0) labM :=
  access (⟨nofun, .inr rfl⟩) (by decide +kernel) (by decide +kernel) (by simp only [Claims.returning]; decide +kernel)
theorem atomic1 : AccessHyps (Claims.returningOnce false .aadd (fun _ => .add) Claims.typeOf (Claims.operandRegs .add)) { bareOps 0 0 4 0 0 0 with kd := .scal, s1 := sr 8, s2 := sr 6 } labM :=
  access (⟨rfl, .inr rfl⟩) (by decide +kernel) (by decide +kernel) (by simp only [Claims.returningOnce]; decide +kernel)
theorem atomic2 : AccessHyps (Claims.returning false .amin (fun _ => .min) Claims.typeOf (Claims.operandRegs .min)) (bareOps 0 0 12 8 10 0) labM :=
  access (⟨nofun, .inr rfl⟩) (by decide +kernel) (by decide +kernel) (by simp only [Claims.returning]; decide +kernel)
theorem atomic3 : AccessHyps (Claims.returningOnce false .amin (fun _ => .min) Claims.typeOf (Claims.operandRegs .min)) { bareOps 0 0 4 0 0 0 with kd := .scal, s1 := sr 8, s2 := sr 6 } labM :=
  access (⟨rfl, .inr rfl⟩) (by decide +kernel) (by decide +kernel) (by simp only [Claims.returningOnce]; decide +kernel)
theorem atomic4 : AccessHyps (Claims.returning false .amax (fun _ => .max) Claims.typeOf (Claims.operandRegs .max)) (bareOps 0 0 12 8 10 0) labM :=
  access (⟨nofun, .inr rfl⟩) (by decide +kernel) (by decide +kernel) (by simp only [Claims.returning]; decide +kernel)
theorem atomic5 : AccessHyps (Claims.returningOnce false .amax (fun _ => .max) Claims.typeOf (Claims.operandRegs .max)) { bareOps 0 0 4 0 0 0 with kd := .scal, s1 := sr 8, s2 := sr 6 } labM :=
  access (⟨rfl, .inr rfl⟩) (by decide +kernel) (by decide +kernel) (by simp only [Claims.returningOnce]; decide +kernel)
theorem atomic6 : AccessHyps (Claims.returning false .aand (fun _ => .and) Claims.typeOf (Claims.operandRegs .and)) (bareOps 0 0 12 8 10 0) labM :=
  access (⟨nofun, .inr rfl⟩) (by decide +kernel) (by decide +kernel) (by simp only [Claims.returning]; decide +kernel)
theorem atomic7 : AccessHyps (Claims.returningOnce false .aand (fun _ => .and) Claims.typeOf (Claims.operandRegs .and)) { bareOps 0 0 4 0 0 0 with kd := .scal, s1 := sr 8, s2 := sr 6 } labM :=
  access (⟨rfl, .inr rfl⟩) (by decide +kernel) (by decide +kernel) (by simp only [Claims.returningOnce]; decide +kernel)
theorem atomic8 : AccessHyps (Claims.returning false .aor (fun _ => .or) Claims.typeOf (Claims.operandRegs .or)) (bareOps 0 0 12 8 10 0) labM :=
  access (⟨nofun, .inr rfl⟩) (by decide +kernel) (by decide +kernel) (by simp only [Claims.returning]; decide +kernel)
theorem atomic9 : AccessHyps (Claims.returningOnce false .aor (fun _ => .or) Claims.typeOf (Claims.operandRegs .or)) { bareOps 0 0 4 0 0 0 with kd := .scal, s1 := sr 8, s2 := sr 6 } labM :=
  access (⟨rfl, .inr rfl⟩) (by decide +kernel) (by decide +kernel) (by simp only [Claims.returningOnce]; decide +kernel)
theorem atomic10 : AccessHyps (Claims.returning false .axor (fun _ => .xor) Claims.typeOf (Claims.operandRegs .xor)) (bareOps 0 0 12 8 10 0) labM :=
  access (⟨nofun, .inr rfl⟩) (by decide +kernel) (by decide +kernel) (by simp only [Claims.returning]; decide +kernel)
theorem atomic11 : AccessHyps (Claims.returningOnce false .axor (fun _ => .xor) Claims.typeOf (Claims.operandRegs .xor)) { bareOps 0 0 4 0 0 0 with kd := .scal, s1 := sr 8, s2 := sr 6 } labM :=
  access (⟨rfl, .inr rfl⟩) (by decide +kernel) (by decide +kernel) (by simp only [Claims.returningOnce]; decide +kernel)
theorem atomic12 : AccessHyps (Claims.returning false .axch (fun _ => .xch) Claims.typeOf (Claims.operandRegs .xch)) (bareOps 0 0 12 8 10 0) labM :=
  access (⟨nofun, .inr rfl⟩) (by decide +kernel) (by decide +kernel) (by simp only [Claims.returning]; decide +kernel)
theorem atomic13 : AccessHyps (Claims.returningOnce false .axch (fun _ => .xch) Claims.typeOf (Claims.operandRegs .xch)) { bareOps 0 0 4 0 0 0 with kd := .scal, s1 := sr 8, s2 := sr 6 } labM :=
  access (⟨rfl, .inr rfl⟩) (by decide +kernel) (by decide +kernel) (by simp only [Claims.returningOnce]; decide +kernel)
theorem atomic14 : AccessHyps (Claims.returning false .acas (fun _ => .cas) Claims.typeOf (Claims.operandRegs .cas)) (bareOps 0 0 12 8 10 0) labM :=
  access (⟨nofun, .inr rfl⟩) (by decide +kernel) (by decide +kernel) (by simp only [Claims.returning]; decide +kernel)
theorem atomic15 : AccessHyps (Claims.returningOnce false .acas (fun _ => .cas) Claims.typeOf (Claims.operandRegs .cas)) { bareOps 0 0 4 0 0 0 with kd := .scal, s1 := sr 8, s2 := sr 6 } labM :=
  access (⟨rfl, .inr rfl⟩) (by decide +kernel) (by decide +kernel) (by simp only [Claims.returningOnce]; decide +kernel)
theorem atomic16 : AccessHyps (Claims.packet false .rdadd (fun _ => .add) Claims.typeOf Claims.packetData) (bareOps 0 0 12 8 0 0) labM :=
  access (.inr rfl) (by decide +kernel) (by decide +kernel) (by simp only [Claims.packet]; decide +kernel)
theorem atomic17 : AccessHyps (Claims.packet false .rdmin (fun _ => .min) Claims.typeOf Claims.packetData) (bareOps 0 0 12 8 0 0) labM :=
  access (.inr rfl) (by decide +kernel) (by decide +kernel) (by simp only [Claims.packet]; decide +kernel)
theorem atomic18 : AccessHyps (Claims.packet false .rdmax (fun _ => .max) Claims.typeOf Claims.packetData) (bareOps 0 0 12 8 0 0) labM :=
  access (.inr rfl) (by decide +kernel) (by decide +kernel) (by simp only [Claims.packet]; decide +kernel)
theorem atomic19 : AccessHyps (Claims.packet false .rdand (fun _ => .and) Claims.typeOf Claims.packetData) (bareOps 0 0 12 8 0 0) labM :=
  access (.inr rfl) (by decide +kernel) (by decide +kernel) (by simp only [Claims.packet]; decide +kernel)
theorem atomic20 : AccessHyps (Claims.packet false .rdor (fun _ => .or) Claims.typeOf Claims.packetData) (bareOps 0 0 12 8 0 0) labM :=
  access (.inr rfl) (by decide +kernel) (by decide +kernel) (by simp only [Claims.packet]; decide +kernel)
theorem atomic21 : AccessHyps (Claims.packet false .rdxor (fun _ => .xor) Claims.typeOf Claims.packetData) (bareOps 0 0 12 8 0 0) labM :=
  access (.inr rfl) (by decide +kernel) (by decide +kernel) (by simp only [Claims.packet]; decide +kernel)
theorem atomic22 : AccessHyps (Claims.returning true .bopr Claims.bankOps (fun o => o.aux.toNat) Claims.bankRegs) { bareOps 0 0 12 8 10 0 with sub := 7 } labM :=
  access (⟨nofun, .inl rfl⟩) (by decide +kernel) (by decide +kernel) (by simp only [Claims.returning]; decide +kernel)
theorem atomic23 : AccessHyps (Claims.returningOnce true .bopr Claims.bankOps (fun o => o.aux.toNat) Claims.bankRegs) { bareOps 0 0 4 0 0 0 with kd := .scal, s1 := sr 8, s2 := sr 6, sub := 0 } labM :=
  access (⟨rfl, .inl rfl⟩) (by decide +kernel) (by decide +kernel) (by simp only [Claims.returningOnce]; decide +kernel)
theorem atomic24 : AccessHyps (Claims.packet true .bop Claims.bankOps (fun o => o.aux.toNat) Claims.bankData) { bareOps 0 0 12 8 0 0 with form := .w96i, s3 := sr 3, sub := 8, aux := 4, imm := 0 } labM :=
  access (.inl rfl) (by decide +kernel) (by decide +kernel) (by simp only [Claims.packet]; decide +kernel)
theorem test_hyps_LoadsIssue : ∀ p ∈ Claims.loads ++ [Claims.scaledLoad], ∃ o s, AccessHyps p o s := by
  simp only [Claims.loads, List.flatMap_cons, List.flatMap_nil, List.map_cons, List.map_nil, List.cons_append, List.nil_append, List.forall_mem_cons, List.append_nil]
  exact ⟨⟨_, _, load0⟩, ⟨_, _, load1⟩, ⟨_, _, load2⟩, ⟨_, _, load3⟩, ⟨_, _, load4⟩, ⟨_, _, load5⟩, ⟨_, _, load6⟩, ⟨_, _, load7⟩, ⟨_, _, load8⟩, ⟨_, _, load9⟩, ⟨_, _, load10⟩, ⟨_, _, load11⟩, fun _ h => nomatch h⟩
theorem test_hyps_StoresIssue : ∀ p ∈ Claims.stores ++ [Claims.scaledStore], ∃ o s, AccessHyps p o s := by
  simp only [Claims.stores, List.flatMap_cons, List.flatMap_nil, List.map_cons, List.map_nil, List.cons_append, List.nil_append, List.forall_mem_cons, List.append_nil]
  exact ⟨⟨_, _, store0⟩, ⟨_, _, store1⟩, ⟨_, _, store2⟩, ⟨_, _, store3⟩, ⟨_, _, store4⟩, ⟨_, _, store5⟩, fun _ h => nomatch h⟩
theorem test_hyps_AtomicsIssue : ∀ p ∈ Claims.atomics, ∃ o s, AccessHyps p o s := by
  simp only [Claims.atomics, Claims.atomicTable, Claims.packetTable, List.flatMap_cons, List.flatMap_nil, List.map_cons, List.map_nil, List.cons_append, List.nil_append, List.forall_mem_cons, List.append_nil]
  exact ⟨⟨_, _, atomic0⟩, ⟨_, _, atomic1⟩, ⟨_, _, atomic2⟩, ⟨_, _, atomic3⟩, ⟨_, _, atomic4⟩, ⟨_, _, atomic5⟩, ⟨_, _, atomic6⟩, ⟨_, _, atomic7⟩, ⟨_, _, atomic8⟩, ⟨_, _, atomic9⟩, ⟨_, _, atomic10⟩, ⟨_, _, atomic11⟩, ⟨_, _, atomic12⟩, ⟨_, _, atomic13⟩, ⟨_, _, atomic14⟩, ⟨_, _, atomic15⟩, ⟨_, _, atomic16⟩, ⟨_, _, atomic17⟩, ⟨_, _, atomic18⟩, ⟨_, _, atomic19⟩, ⟨_, _, atomic20⟩, ⟨_, _, atomic21⟩, ⟨_, _, atomic22⟩, ⟨_, _, atomic23⟩, ⟨_, _, atomic24⟩, fun _ h => nomatch h⟩


/-- Two slots of different units. -/
def slotA : Slot := ⟨0x50, { bareOps 0 0 40 44 48 0 with form := .slot }⟩
def slotB : Slot := ⟨0x30, { bareOps 0 0 61 65 69 0 with form := .slot }⟩
def rowOf (f : Ops → Instr) : Claims.RegRow := (Claims.plainRows.find? fun r => r.1 oPlain == f oPlain).getD (f, fun _ => ⟨0, none, none⟩)
theorem rowOf_mem {f : Ops → Instr} (h : (Claims.plainRows.find? fun r => r.1 oPlain == f oPlain).isSome = true) : rowOf f ∈ Claims.plainRows := by
  unfold rowOf
  obtain ⟨r, hr⟩ := Option.isSome_iff_exists.1 h
  rw [hr]
  exact List.mem_of_find?_eq_some hr
theorem test_hyps_PairedWords :
    rowOf .fadd ∈ Claims.plainRows ∧ rowOf .iadd ∈ Claims.plainRows ∧ Claims.runsIn slotA (rowOf .fadd) (shape (.fadd slotA.ops)) ∧
    Claims.runsIn slotB (rowOf .iadd) (shape (.iadd slotB.ops)) ∧ (Instr.pairedWord slotA slotB).wf = true ∧
    lab.me.regsOk (shape (.fadd slotA.ops)) slotA.ops = true ∧ lab.me.regsOk (shape (.iadd slotB.ops)) slotB.ops = true ∧ lab.issued = true :=
  ⟨rowOf_mem (by decide), rowOf_mem (by decide), by unfold Claims.runsIn; decide, by unfold Claims.runsIn; decide, by decide, by decide, by decide, rfl⟩

/-- Lane 63 names the last 16 bytes of the team's scratch, lane 0 its first. -/
def labX : State := labS.onWarp 0 fun x => x.mapLanes fun l y => y.setOwn 7 (if l = 63 then 1008 else 0)
def oSp : Ops := { bareOps 0 0 12 7 0 0 with s2 := im 0, sub := 6 }
def oSps : Ops := { oSp with kd := .scal, s1 := sr 7, dst := 16 }
/-- An atomic on scratch. -/
def oSa : Ops := { bareOps 0 0 12 7 10 0 with sub := 8 }
def oSas : Ops := { oSa with kd := .scal, s1 := sr 7, s2 := sr 6, dst := 4 }
/-- A reduce packet on scratch. -/
def oSr : Ops := { bareOps 0 0 12 7 0 0 with s2 := im 0, sub := 8 }
def scratchHyps (p : (Ops → Instr) × AOp × Bool) (o : Ops) (s : State) : Bool :=
  let ty := Claims.atomicTy (Claims.typeOf o)
  let n := Claims.atomicBytes ty
  let ls := Claims.scratchLanesOf s o p.2.2
  readyB s p.1 o && o.sub.getLsbD 3 && !s.noRoom (if p.2.2 then .ld else .st) && !ls.isEmpty &&
    ls.all fun l => Claims.scratchAddr s o p.2.2 l % n == 0 && Claims.scratchAddr s o p.2.2 l + n ≤ s.myTeam.kern.scratch
/-- A scratch access that reaches its banks: the first 16 bytes and the last. -/
def labScr (k : ReqKind) (kind : OpKind) (b : Nat) : State :=
  { labX with
    ev := ⟨0, b, 0, 0, []⟩
    memops := [{ MemOp.idle with
      live := true, ctr := .ld, kind := kind, req := k, left := 1
      accs := [⟨0, 0, 0, 16, 7, 10, false, false, none⟩, ⟨63, 1008, 1008, 16, 9, 12, false, false, none⟩] }] }
theorem test_hyps_ScratchInstructions :
    (Ready labX .spst oSp ∧ labX.act ≠ 0 ∧ labX.noRoom .st = false ∧ Claims.storeLanes labX (shape (.spst oSp)) oSp = [0, 63] ∧
      Claims.inScratch labX (Claims.bytesOf oSp) (labX.sAddr oSp 63) ∧ Claims.inScratch labX (Claims.bytesOf oSp) (labX.sAddr oSp 0)) ∧
    (Ready labX .spld oSp ∧ labX.noRoom .ld = false ∧ Claims.contributes labX oSp = [0, 63]) ∧
    (Ready labX .spld oSps ∧ Claims.inScratch labX (Claims.bytesOf oSps) (labX.sAddr oSps 0)) ∧
    ((∀ p ∈ Claims.scratchAtomics, ∃ o ∈ [oSa, oSr], scratchHyps p o labX = true) ∧ ∀ p ∈ Claims.atomicTable, scratchHyps (p.1, p.2, true) oSas labX = true) ∧
    (∀ k ∈ [.load, .store, .atomic .cas .b128 true], (labScr k .store 2).ev = ⟨0, 2, 0, 0, []⟩ ∧ ((labScr k .store 2).memop 0).req = k ∧
      ∀ a ∈ ((labScr k .store 2).memop 0).accs, a.size = Claims.atomicBytes .b128) :=
  ⟨⟨ready (by decide +kernel), by decide, by decide, by decide +kernel, by unfold Claims.inScratch; decide +kernel, by unfold Claims.inScratch; decide +kernel⟩,
    ⟨ready (by decide +kernel), by decide, by decide +kernel⟩, ⟨ready (by decide +kernel), by unfold Claims.inScratch; decide +kernel⟩,
    ⟨by decide +kernel, by decide +kernel⟩, by decide⟩

def oQsrd : Ops := { bareOps 0 0 9 0 0 0 with kd := .scal }
def oQsclr : Ops := { bareOps 0 0 0 0 0 0 with s1 := im 255 }
def oQldS : Ops := { bareOps 0 0 5 0 0 0 with s1 := sr 8, s2 := sr 7, sub := 2, aux := 2 }
def oLdpat : Ops := { bareOps 0 0 0 0 0 0 with s1 := sr 5, s2 := im 0, aux := 7 }
/-- The last of a pattern table's bytes is the last of the scratch. -/
def labPat : State := labX.onWarp 0 fun x => { x with s := x.s.set 5 512 }
/-- A quantising operation of the warp completes in the next cycle. -/
def labQlater : State := lab.onTeam 0 fun k => { k with qlater := [(0, 101, 5)] }
/-- A pattern table is about to be replaced. -/
def labTab : State :=
  { lab with ev := ⟨0, 0, 7, 0, List.replicate 512 0x5A⟩, memops := [{ MemOp.idle with live := true, kind := .ldpat 7, ctr := .ld, left := 1 }] }.onWarp 0
    fun x => { x with ld := 1 }
theorem test_hyps_QuantStatusAndTables :
    Ready lab .qblk oQblk ∧ Ready lab .qsrd oQsrd ∧ Claims.contributes lab oQsrd ≠ [] ∧ lab.quantPending = false ∧
    Ready labQlater .qsrd oQsrd ∧ labQlater.quantPending = true ∧
    Ready labQlater .qsclr oQsclr ∧ Claims.contributes labQlater oQsclr ≠ [] ∧ (∀ e ∈ labQlater.myTeam.qlater, e.2.1 ≠ labQlater.now) ∧
    AccessHyps Claims.scaledLoad oQldS labM ∧
    (Ready labPat .ldpat oLdpat ∧ labPat.noRoom .ld = false ∧ Claims.contributes labPat oLdpat ≠ [] ∧ labPat.patAddr oLdpat = 512 ∧
      labPat.myTeam.kern.scratch = 1024) ∧
    ((labScr .load (.ldpat 7) 3).ev = ⟨0, 3, 0, 0, []⟩ ∧ ((labScr .load (.ldpat 7) 3).memop 0).kind = .ldpat 7) ∧
    labTab.ev.b = 0 ∧ labTab.ev.c = 7 ∧ (labTab.memop labTab.ev.a).live = true ∧ (labTab.memop labTab.ev.a).left = 1 ∧
      (labTab.memop labTab.ev.a).kind = .ldpat 7 ∧ (labTab.memop labTab.ev.a).ctr = .ld :=
  ⟨ready (by decide +kernel), ready (by decide +kernel), by decide, by decide, ready (by decide +kernel), by decide, ready (by decide +kernel), by decide,
    by decide, load11, ⟨ready (by decide +kernel), by decide, by decide, by decide +kernel, rfl⟩, ⟨rfl, rfl⟩, rfl, rfl, rfl, rfl, rfl, rfl⟩

/-- A line request of each kind that arrives at its slice: two lanes of the first line of memory, which the slice holds. -/
def labReq (k : ReqKind) (n : Nat) : State :=
  { labM with
    ev := ⟨0, 0, 0, 0, []⟩
    reqs := [{ Req.idle with live := true, line := 0x4000000, accs := [0, 1], seq := 1, gen := labM.domGen 0 }]
    memops := [{ MemOp.idle with
      live := true, ctr := .ld, kind := .load true false, req := k, left := 1, seq := 1
      accs := [⟨0, 0x10000000, 0x4000000, n, 7, 10, false, false, none⟩, ⟨63, 0x10000070, 0x4000070, n, 9, 12, false, false, none⟩] }]
    l2 := [⟨0x4000000, sliceOf (labM.homeOf (labM.reqPart Req.idle) 0x4000000), false, 3, true, false, false, false, 0, 0, none⟩] }
where
  sliceOf : Home → Nat
    | .slice _ sl => sl
    | _ => 0
def arrivesB (s : State) (i d sl : Nat) : Bool :=
  let r := s.req i
  s.ev == ⟨i, 0, 0, 0, []⟩ && r.live && !r.performed && !r.refl && s.homeOf (s.reqPart r) r.line == .slice d sl && r.gen == s.genOf (s.reqPart r) r.line && !s.scanning d &&
    !s.behind r && !s.isFlagged r.line && !s.ownedBy r && (s.conflicts r).isEmpty && (s.reqs.all fun q => !(q.live && q.waits && q.core == r.core && q.line == r.line && decide (q.seq < r.seq))) &&
    (s.homeCopy r.line).isSome
theorem arrives {s : State} {i d sl : Nat} (h : arrivesB s i d sl = true) : Claims.arrives s i d sl := by
  simp only [arrivesB, Bool.and_eq_true, beq_iff_eq, Bool.not_eq_true', List.all_eq_true, List.isEmpty_iff, Bool.and_eq_false_iff, decide_eq_false_iff_not,
    beq_eq_false_iff_ne] at h
  obtain ⟨⟨⟨⟨⟨⟨⟨⟨⟨⟨⟨⟨a, b⟩, c⟩, d⟩, e⟩, f⟩, g⟩, m⟩, n⟩, h⟩, i⟩, j⟩, k⟩ := h
  exact ⟨a, ⟨b, c, d⟩, e, ⟨f, g⟩, ⟨m, n, h, i, fun q hq hn => by have := j q hq; simp_all⟩, .inl k⟩
/-- A memory operation of one request whose reply or acknowledgement is due. -/
def labDone (m : MemOp) : State :=
  { lab with ev := ⟨0, 0, 0, 0, []⟩, reqs := [{ Req.idle with live := true }], memops := [{ m with live := true }] }.onWarp 0 fun x => { x with ld := 1, st := 1 }
def opLoad : MemOp :=
  { MemOp.idle with ctr := .ld, kind := .load true false, left := 1, buf := [(0, 0x80), (1, 0x1234)]
                    accs := [⟨0, 0, 0, 1, 0, 10, false, false, none⟩, ⟨63, 16, 16, 16, 0, 252, false, false, none⟩] }
theorem test_hyps_RequestTraffic :
    (∃ d sl, Claims.arrives (labReq .load 16) 0 d sl) ∧ (∃ d sl, Claims.arrives (labReq .store 16) 0 d sl) ∧
    (∃ d sl, Claims.arrives (labReq (.atomic .cas .b128 true) 16) 0 d sl) ∧
    (labReq (.atomic .cas .b128 true) 16).ev = ⟨0, 0, 0, 0, []⟩ ∧
    (∀ k ∈ ((labReq (.atomic .cas .b128 true) 16).req 0).accs, (((labReq (.atomic .cas .b128 true) 16).memop 0).acc k).size = Claims.atomicBytes .b128) ∧
    (∀ m ∈ [{ opLoad with ctr := .st, kind := OpKind.store }, { opLoad with left := 2 }, opLoad],
      (labDone m).ev = ⟨0, 0, 0, 0, []⟩ ∧ ((labDone m).req 0).live = true ∧ (labDone m).memop ((labDone m).req 0).op = { m with live := true }) ∧
    (opLoad.accs.map fun a => a.lane).Nodup ∧ (∀ a ∈ opLoad.accs, a.lane < 64 ∧ a.reg < 1000) ∧ ((labDone opLoad).req 0).captured = none :=
  ⟨⟨0, _, arrives (by decide +kernel : arrivesB _ _ _ (labReq.sliceOf (labM.homeOf (labM.reqPart Req.idle) 0x4000000)) = true)⟩, ⟨0, _, arrives (by decide +kernel : arrivesB _ _ _ (labReq.sliceOf (labM.homeOf (labM.reqPart Req.idle) 0x4000000)) = true)⟩, ⟨0, _, arrives (by decide +kernel : arrivesB _ _ _ (labReq.sliceOf (labM.homeOf (labM.reqPart Req.idle) 0x4000000)) = true)⟩, rfl,
    by decide +kernel, by decide +kernel, by decide, by decide, rfl⟩
/-- Refused requests (17 R363; 19 R403): one alone, the later of two that leave their core in one cycle, and one that has been performed. -/
def labRefused (two done : Bool) : State :=
  { labReq .load 16 with
    reqs := [{ (labReq .load 16).req 0 with performed := done }] ++
      if two then [{ (labReq .load 16).req 0 with seq := 0, sent := labM.now, line := 0x4000080 }] else [] }
theorem test_hyps_RequestTraffic_refused :
    (∃ d sl, (labRefused false false).homeOf ((labRefused false false).reqPart ((labRefused false false).req 0)) ((labRefused false false).req 0).line =
      .slice d sl) ∧
    (∀ b ∈ [false, true], (labRefused b false).ev = ⟨0, 0, 0, 0, []⟩ ∧ ((labRefused b false).req 0).live = true ∧
      ((labRefused b false).req 0).performed = false ∧ (labRefused b false).resendFirst 0 = b) ∧
    (∀ q ∈ (labRefused false false).reqs, ¬q.seq < ((labRefused false false).req 0).seq) ∧
    (labRefused false true).ev = ⟨0, 0, 0, 0, []⟩ ∧ ((labRefused false true).req 0).performed = true :=
  ⟨⟨0, labReq.sliceOf (labM.homeOf (labM.reqPart Req.idle) 0x4000000), by decide +kernel⟩, by decide +kernel, by decide +kernel, rfl, rfl⟩


def oFence (scope : BitVec 3) : Ops := { oPlain with aux := scope }
/-- A load, and a store with its request, of the warp are under way. -/
def labOut (k : ReqKind) : State :=
  { lab with
    seq := 7
    memops := [{ MemOp.idle with live := true, ctr := if k = .load then .ld else .st, req := k, seq := 5 }]
    reqs := [{ Req.idle with live := true, seq := 5 }] }
def fences : List ((Ops → Instr) × Ops) := [0, 1, 3, 4].flatMap fun k => [(.fence, oFence k), (.acq, oFence k), (.rel, oFence k)]
def oSteal : Ops := { oPlain with s1 := im 1 }
/-- A steal that arrives at core 1, whose stores have drained. -/
def labSteal : State := { labAt 20 0 with ev := ⟨0, 1, 0, 0, []⟩, l1 := [⟨1, 128, 5⟩] }
theorem test_hyps_FencesAndAcquires :
    (∀ p ∈ fences, Ready lab p.1 p.2) ∧ (∀ p ∈ fences, Ready (labOut .load) p.1 p.2) ∧ (∀ p ∈ fences, Ready (labOut .store) p.1 p.2) ∧
    Claims.contributes lab oPlain ≠ [] ∧ ¬Claims.loadsOut lab ∧ ¬Claims.storesOut lab ∧ Claims.loadsOut (labOut .load) ∧ Claims.storesOut (labOut .store) ∧
    (Ready lab .acqSteal oSteal ∧ lab.uni oSteal oSteal.s1 = 1 ∧ lab.partOfSector (1 / 96) = lab.partOf lab.cur ∧ lab.phase = 0) ∧
    (Ready (labAt 20 0) .acqSteal oSteal ∧ (labAt 20 0).phase = 20) ∧
    (Ready (labAt 21 0) .acqSteal oSteal ∧ (labAt 21 0).phase = 21 ∧ (labAt 21 0).since = 0 ∧ ¬Claims.loadsOut (labAt 21 0)) ∧
    labSteal.ev = ⟨0, 1, 0, 0, []⟩ ∧ (labSteal.warp 0).stalled = some ⟨labSteal.ipc, 0, 1, 20, 0⟩ ∧ labSteal.reqs = [] :=
  ⟨readies (by decide +kernel), readies (by decide +kernel), readies (by decide +kernel), by decide, by unfold Claims.loadsOut; decide +kernel,
    by unfold Claims.storesOut Claims.writes; decide +kernel, by unfold Claims.loadsOut; decide +kernel, by unfold Claims.storesOut Claims.writes; decide +kernel,
    ⟨ready (by decide +kernel), by decide, by decide, rfl⟩, ⟨ready (by decide +kernel), rfl⟩,
    ⟨ready (by decide +kernel), rfl, rfl, by unfold Claims.loadsOut; decide +kernel⟩, rfl, rfl, rfl⟩

/-- A team of two warps; the other one has arrived at the barrier, or not. -/
def labPair (there : Bool) : State :=
  { lab with warps := lab.warps ++ [{ lab.me with num := 1, arrived := there }] }.onTeam 0 fun k => { k with warps := [0, 1] }
/-- The last phase completed in the cycle before this one, and the instruction waits. -/
def labRest (f : Warp → Warp) : State :=
  ((labAt 1 0).onWarp 0 f).onTeam 0 fun k => { k with phase := 1, phaseAt := 99 }
def bars : List ((Ops → Instr) × Ops) := [(.bararv, oPlain), (.bar, oPlain), (.barwt, oPlain)]
theorem test_hyps_TeamBarrier :
    (∀ b : Bool, (labPair b).act ≠ 0 ∧ Claims.member (labPair b) ∧ (labPair b).me.arrived = false ∧ (labPair b).phaseNow = false ∧
      (labPair b).me.barAt ≠ some (labPair b).ipc ∧ (labPair b).phase = 0 ∧ ¬Claims.loadsOut (labPair b)) ∧
    (∀ p ∈ bars, Ready (labPair false) p.1 p.2) ∧ (∀ p ∈ bars, Ready (labPair true) p.1 p.2) ∧
    (∃ w ∈ Claims.others (labPair false), ((labPair false).warp w).arrived = false) ∧ (∀ w ∈ Claims.others (labPair true), ((labPair true).warp w).arrived = true) ∧
    (let s := labRest fun x => { x with barAt := some lab.ipc }
     Ready s .bar oPlain ∧ s.act ≠ 0 ∧ Claims.member s ∧ s.me.barAt = some s.ipc ∧ s.me.arrived = false ∧ s.phase = 1 ∧
      s.now ≤ s.myTeam.phaseAt + 3 ∧ ¬Claims.loadsOut s) ∧
    (let s := labRest fun x => { x with arrived := true }
     Ready s .barwt oPlain ∧ s.act ≠ 0 ∧ Claims.member s ∧ s.me.arrived = true) :=
  ⟨by unfold Claims.member Claims.loadsOut; decide +kernel, readies (by decide +kernel), readies (by decide +kernel), by decide +kernel, by decide +kernel,
    ⟨ready (by decide +kernel), by decide, by unfold Claims.member; decide +kernel, rfl, rfl, rfl, by decide, by unfold Claims.loadsOut; decide +kernel⟩,
    ready (by decide +kernel), by decide, by unfold Claims.member; decide +kernel, rfl⟩

/-- One load is out, within the limits of the first `WAIT` and beyond those of the second. -/
def oWait1 : Ops := { oPlain with imm := 0x10000 }
def labWait : State := labW fun x => { x with ld := 1 }
def oCctl : Ops := bareOps 0 0 0 8 0 0
def oPubl : Ops := { oPlain with s1 := sr 8, s2 := im 8, aux := 2 }
theorem test_hyps_WaitsAndHandles :
    (Ready labWait .wait oWait1 ∧ Claims.withinLimits labWait oWait1 ∧ Ready labWait .wait oPlain ∧ ¬Claims.withinLimits labWait oPlain) ∧
    (Ready labM .cctlIvl oCctl ∧ Claims.contributes labM oCctl = [0, 63] ∧
      ∀ l ∈ [0, 63], Claims.mapsTo labM (labM.readN oCctl oCctl.s1 2 l) (leafOf labM (labM.readN oCctl oCctl.s1 2 l))) ∧
    Ready labM .cctlIval { oPlain with sub := 1 } ∧
    (Ready labM .publ oPubl ∧ labM.uni64 oPubl.s1 = 0x10000000 ∧ labM.uni oPubl oPubl.s2 = 8 ∧ labM.phase = 0 ∧ labM.reqs = [] ∧
      ∀ k < 8, let va := (0x10000000 + 128 * k) % 2 ^ 64
        canonical va = true ∧ (leafOf labM va).from_ ≤ labM.now ∧ Claims.mapsTo labM va (leafOf labM va) ∧
          Claims.mapsTo labM (va / 4096 * 4096) (leafOf labM va)) ∧
    ∀ st < 4, let s := lab.onTeam 0 fun k => { k with handles := [{ Handle.idle with state := st }] }
      let o : Ops := { oPlain with s1 := im 0 }
      Claims.contributes s o ≠ [] ∧ s.uni o o.s1 < s.myTeam.handles.length ∧ s.phase = 0 ∧ s.me.hmode = false ∧ (s.me.lane 63).st = .running ∧
        (readyB s .hwaitFull o && readyB s .hwaitFree { o with sub := 1 } && readyB s .hrelClaim o && readyB s .hrelFree { o with sub := 1 }) = true :=
  ⟨⟨ready (by decide +kernel), by unfold Claims.withinLimits; decide +kernel, ready (by decide +kernel), by unfold Claims.withinLimits; decide +kernel⟩,
    ⟨ready (by decide +kernel), by decide +kernel, by unfold Claims.mapsTo; decide +kernel⟩, ready (by decide +kernel),
    ⟨ready (by decide +kernel), by decide +kernel, by decide +kernel, rfl, rfl, by unfold Claims.mapsTo; decide +kernel⟩, by decide +kernel⟩

/-- `COPY` of 4 bytes a lane: to a handle, from scratch, and between global addresses; lane 63 names the last bytes of the buffer. -/
def oCopyH : Ops := { bareOps 0 0 7 8 0 0x801 with form := .w96i, sub := 0 }
def oCopyS : Ops := { bareOps 0 0 8 7 0 0 with form := .w96i, sub := 5 }
def oCopyG : Ops := { bareOps 0 0 8 8 0 0 with form := .w96i, sub := 10 }
/-- `CPRG` in its three directions, with a record of one row each. -/
def oCprg (dir : BitVec 6) (r : BitVec 8) : Ops := { oPlain with s1 := sr r, sub := dir }
/-- Buffer 1 of the team is its last 64 bytes of scratch and is free. -/
def labC : State :=
  (labM.onTeam 0 fun k => { k with kern := { k.kern with scratch := 1024 }, handles := [Handle.idle, { Handle.idle with base := 15 }] }).onWarp 0 fun x =>
    { x.mapLanes fun l y => y.setOwn 7 (if l = 63 then 60 else 0) with
      s := [0, 0, 0, 0, 16, 0, 16, 0, 0x10000000, 0, 0, 0, 0, 0, 0, 0,
        0x10000000, 0, 0, 1, 0x400001, 0, 0, 0x20, 960, 0, 0x10000000, 0, 0x400001, 0, 0, 0, 0x10000000, 0, 0x10000FC0, 0, 0x400001, 0, 0, 0] }
def copyGrantedB (s : State) (o : Ops) (l : Nat) : Bool :=
  (Claims.copyDir o == 1 || grantedB s (Claims.page false (Claims.copyBytes o)) ⟨l, Claims.copySrc s o l, 0, Claims.copyBytes o, 0, 0, false, false, none⟩) &&
  (Claims.copyDir o == 0 || grantedB s (Claims.page true (Claims.copyBytes o)) ⟨l, Claims.copyDst s o l, 0, Claims.copyBytes o, 0, 1, false, false, none⟩)
theorem copyGranted {s : State} {o : Ops} {l : Nat} (h : copyGrantedB s o l = true) : Claims.copyGranted s o (leafOf s) l := by
  simp only [copyGrantedB, Bool.and_eq_true, Bool.or_eq_true, beq_iff_eq] at h
  exact ⟨fun k => granted (h.1.resolve_left k), fun k => granted (h.2.resolve_left k)⟩
def regionGrantedB (s : State) (r : Region) (dir : Nat) : Bool :=
  (dir == 1 || (decide (r.src < 2 ^ 56) && grantedB s (Claims.regionNeed false r.src r.sstride r) ⟨s.firstLane, r.src / 4096 * 4096, 0, 4, 0, 0, false, false, none⟩)) &&
  (dir == 0 || (decide (r.dst < 2 ^ 56) && grantedB s (Claims.regionNeed true r.dst r.dstride r) ⟨s.firstLane, r.dst / 4096 * 4096, 0, 4, 0, 1, false, false, none⟩))
theorem regionGranted {s : State} {r : Region} {dir : Nat} (h : regionGrantedB s r dir = true) : Claims.regionGranted s r dir (leafOf s) := by
  simp only [regionGrantedB, Bool.and_eq_true, Bool.or_eq_true, beq_iff_eq, decide_eq_true_eq] at h
  exact ⟨fun k => ⟨(h.1.resolve_left k).1, granted (h.1.resolve_left k).2⟩, fun k => ⟨(h.2.resolve_left k).1, granted (h.2.resolve_left k).2⟩⟩
/-- A line operation of a copy of 16 bytes, alone in queue 2 of channel 0; its operation has two lines. -/
def lineOf2 (dst : Place) : LineOp :=
  { LineOp.idle with live := true, queue := 2, moves := [(dst, .glob 0x4000000, 16)], got := [(0x4000000, 0x1234)], permits := 0 }
def labLine (dst : Place) : State :=
  { labC with
    ev := ⟨0, 0, 0, 0, []⟩
    memops := [{ MemOp.idle with live := true, ctr := .cp, kind := .copy, left := 2 }], lineops := [lineOf2 dst]
    channels := [{ Channel.idle with queues := [[], [], [0], []] }], tkshare := [0, 0, 0, 0, 0, 0, 0x1248] }
def deliverableB (s : State) (p la : Nat) : Bool :=
  (match s.homeOf p la with | .slice _ _ => true | _ => false) && (s.tierLat la).isSome && s.reqs.isEmpty
theorem deliverable {s : State} {p la : Nat} (h : deliverableB s p la = true) : Claims.deliverable s p la false := by
  simp only [deliverableB, Bool.and_eq_true, List.isEmpty_iff] at h
  refine ⟨?_, by simp [h.2]⟩
  obtain ⟨⟨a, b⟩, -⟩ := h
  revert a
  cases s.homeOf p la <;> simp [b]
theorem test_hyps_Copies :
    (∀ o ∈ [oCopyH, oCopyS, oCopyG], readyB labC .copy o = true ∧ labC.noRoom .cp = false ∧ Claims.storeLanes labC (shape (.copy o)) o = [0, 63] ∧
      ((∀ l ∈ [0, 63], Claims.copyReady labC o l) ∧ (Claims.copyDir o = 0 → Claims.fillable labC (Claims.copyHandle o) (o.imm.extractLsb' 6 3).toNat
        (o.imm.extractLsb' 9 4).toNat (o.imm.getLsbD 13))) ∧ ∀ l ∈ [0, 63], copyGrantedB labC o l = true) ∧
    (∀ p ∈ [oCprg 0 16, oCprg 5 24, oCprg 10 32], readyB labC .cprg p = true ∧ Claims.storeLanes labC (shape (.cprg p)) p ≠ [] ∧
      labC.regionBad (labC.region p.s1.val.toNat (Claims.copyDir p)) (Claims.copyDir p) = none ∧ Claims.oneRow labC (labC.region p.s1.val.toNat (Claims.copyDir p)) (Claims.copyDir p) ∧
      regionGrantedB labC (labC.region p.s1.val.toNat (Claims.copyDir p)) (Claims.copyDir p) = true) ∧
    (∃ ch, ((labLine (.glob 0x4000080)).permitWait 0).pickQueue 40 ((labLine (.glob 0x4000080)).channel 0) = some (2, ch) ∧ getP [] ch.queues 2 = [0]) ∧
    (let s := labLine (.glob 0x4000080)
     s.metered (s.lineop 0).core = false ∧ (s.lineop 0).live = true ∧ (s.lineop 0).dstLine = some 0x4000080 ∧ s.deliveryWaits (s.lineop 0) = false ∧
      s.scan = none ∧ s.ev = ⟨0, 0, 0, BitVec.ofNat 64 (s.genOf (s.partOfSector ((s.lineop 0).core / 96)) 0x4000080), []⟩ ∧ Claims.deliverable s (s.partOfSector ((s.lineop 0).core / 96)) 0x4000080 (s.slrOf (s.lineop 0).op 0x4000080) ∧ 1 < (s.memop (s.lineop 0).op).left) ∧
    let s := labLine (.scr 0 1008 (some 1) 48)
    s.ev = ⟨0, 0, 0, 0, []⟩ ∧ (s.lineop 0).live = true ∧ (s.lineop 0).moves = [(.scr 0 1008 (some 1) 48, .glob 0x4000000, 16)] ∧ 1 < (s.memop (s.lineop 0).op).left :=
  ⟨by unfold Claims.copyReady Claims.fillable; decide +kernel, by unfold Claims.oneRow; decide +kernel,
    ⟨((((labLine (.glob 0x4000080)).permitWait 0).pickQueue 40 ((labLine (.glob 0x4000080)).channel 0)).getD (0, Channel.idle)).2, by decide +kernel, by decide +kernel⟩,
    ⟨by decide +kernel, rfl, rfl, by decide +kernel, rfl, by decide +kernel, deliverable (by decide +kernel), by decide⟩, rfl, rfl, rfl, by decide⟩

def oSendMsg : Ops := { bareOps 0 0 12 4 0 0x3C0007 with form := .w96i }
/-- The ring of the team stands at 64 and holds one entry; TAIL is at the top of its range. -/
def labRing : State :=
  { lab with ev := ⟨0, 0, 0, 0, []⟩, msgs := [{ Msg.idle with live := true, payload := List.replicate 60 0x77, arrived := some 4 }] }.onTeam 0 fun k =>
    { k with
      kern := { k.kern with ringOff := 64, ringN := 1, scratch := 256 }, ringTail := 2 ^ 32 - 1
      scratch := (List.range 4).map fun i => ⟨68 + i, 0xFF⟩ }
theorem test_hyps_Messages :
    (Ready lab .send oSendMsg ∧ lab.noRoom .st = false ∧ Claims.storeLanes lab (shape (.send oSendMsg)) oSendMsg ≠ []) ∧
    labRing.ev = ⟨0, 0, 0, 0, []⟩ ∧ (labRing.msg 0).live = true ∧ (labRing.msg 0).arrived = some 4 ∧ labRing.msgBehind (labRing.msg 0) 4 = false ∧
    labRing.teamSaved (labRing.msg 0).part (labRing.msg 0).gridId (labRing.msg 0).dest = false ∧ labRing.teamSaved (labRing.msg 0).part (labRing.msg 0).gridId (labRing.msg 0).sender = false ∧
    labRing.teamOf (labRing.msg 0).part (labRing.msg 0).gridId (labRing.msg 0).dest = some 0 ∧ (labRing.team 0).kern.ringN = 1 ∧
    Claims.scratchValue (Claims.scratchByte (labRing.team 0)) 68 4 = (labRing.team 0).ringTail ∧ (labRing.msg 0).payload.length = 60 :=
  ⟨⟨ready (by decide +kernel), by decide, by decide +kernel⟩, rfl, rfl, rfl, by decide, by decide, by decide, by decide, rfl, by decide +kernel, rfl⟩

/-- The team's warps lie on a line, open at its ends (`SUB` 0 and 1) and closed in the other directions. -/
def labPorts : State :=
  (labW fun x => x.mapLanes fun l y => if l = 5 then y.onQueue 0 fun _ => [⟨true, 7⟩] else y.onQueue 0 fun _ => [⟨true, 8⟩, ⟨false, 9⟩]).onTeam 0 fun k =>
    { k with kern := { k.kern with portmap := 0x80050001 } }
def oPush : Ops := { bareOps 0 0 0 6 0 0 with sub := 1 }
def oPop : Ops := { bareOps 0 0 9 0 0 0 with sub := 0 }
def oPushRel : Ops := { oPush with sub := 9, aux := 1 }
def oPopAcq : Ops := { oPop with sub := 8, aux := 1 }
/-- A value, and a credit, that arrive at lane 63 of the warp. -/
def labXfer : State :=
  { labW fun x => x.mapLanes fun _ y => y.onQueue 5 fun _ => [⟨false, 7⟩] with ev := ⟨0, 0, 0, 0, []⟩, xfers := [⟨true, [(0, 63, lab.me.placed)], 5⟩] }
theorem test_hyps_PortInstructions :
    (∀ o ∈ [oPushRel, oPopAcq], o.sub.getLsbD 3 = true ∧ Claims.beyond o = true ∧ ¬Claims.storesOut labPorts ∧ ¬Claims.loadsOut labPorts) ∧
    (Ready labPorts .push oPushRel ∧ Ready labPorts .pop oPopAcq ∧ Claims.side labPorts oPushRel = Claims.side labPorts oPush ∧
      Claims.side labPorts oPopAcq = Claims.side labPorts oPop) ∧
    (∀ o ∈ [oPush, oPop], labPorts.idxBad (shape (if o = oPush then .push o else .pop o)) o = 0 ∧ o.sub.getLsbD 3 = false ∧ Claims.portLanes labPorts o ≠ []) ∧
    (Ready labPorts .push oPush ∧ Claims.side labPorts oPush 63 = .open_ ∧ ∀ l < 63, Claims.side labPorts oPush l = .conn 0 (l + 1) ∧ 0 < (labPorts.me.lane l).credit 1) ∧
    (Ready labPorts .pop oPop ∧ Claims.side labPorts oPop 0 = .open_ ∧
      ∀ l < 64, l ≠ 0 → Claims.side labPorts oPop l = .conn 0 (l - 1) ∧ ((labPorts.me.lane l).front 0).isSome = true) ∧
    labXfer.xfer labXfer.ev.a = ⟨true, [(0, 63, (labXfer.warp 0).placed)], 5⟩ ∧ (labXfer.warp 0).live = true ∧
      ((labXfer.warp 0).lane 63).queue 5 = [⟨false, 7⟩] :=
  ⟨by unfold Claims.storesOut Claims.writes Claims.loadsOut; decide +kernel, ⟨ready (by decide +kernel), ready (by decide +kernel), rfl, rfl⟩,
    by decide +kernel, ⟨ready (by decide +kernel), by decide +kernel, by decide +kernel⟩, ⟨ready (by decide +kernel), by decide +kernel, by decide +kernel⟩,
    rfl, rfl, by decide +kernel⟩


def oStatus : Ops := bareOps 0 0 9 0 0 0
def labStatus : State := lab.onTeam 0 fun k => { k with handles := [{ Handle.idle with state := 1, wptr := 192 }] }
/-- Operands of the status instructions: for `HWP`, the lease and ticket reads, and the two registers of `HSRD`. -/
def oHandle0 : Ops := { oStatus with s1 := im 0 }
def oLease : Ops := { oStatus with form := .w128i, s1 := sr 8 }
def oHsrd : Ops := { oStatus with dst := 8, sub := 6, kd := .scal }
def labStatusH : State := labStatus.onWarp 0 fun x => { x with hmode := true, hpc := 64 }
/-- A bin at the address 256 bytes on, with records. -/
def recs1 (n : Nat) : List BinRec := List.replicate n (BinRec.ofWords [5])
def labBin (waiting : List BinArr) (n : Nat) (phase : Nat) : State :=
  { labAt phase 0 with
    bins := [{ Bin.idle with live := true, entry := lab.ipc + 256, recs := recs1 n, waiting := waiting, due := List.replicate 3 (0, 200, recs1 64), expires := some 100 }] }
def oBin : Ops := { bareOps 0 0 0 20 0 0x100 with form := .w96i, aux := 3 }
def oBinS : Ops := { bareOps 0 0 0 20 0 0 with s2 := sr 6, sub := 1 }
def oBstat : Ops := { bareOps 0 0 5 0 0 0x100 with form := .w96i, kd := .scal }
theorem test_hyps_StatusReads :
    (∀ p ∈ Claims.statusRows, ∃ o ∈ [oStatus, oHandle0, oLease, oHsrd], ∃ s ∈ [labStatus, labStatusH], readyB s p.instr o = true ∧ Claims.contributes s o ≠ [] ∧
      (s.myTeam.handles.length = 1 ∧ s.uni oHandle0 oHandle0.s1 = 0 )) ∧
    Ready (labBin [] 63 0) .bstat oBstat ∧ Claims.binAt (labBin [] 63 0) oBstat (oBstat.sub = 0) 0 :=
  ⟨by decide +kernel, ready (by decide +kernel), by unfold Claims.binAt; decide +kernel⟩

def oPdrdS : Ops := { oStatus with kd := .scal }
def oPdrdX : Ops := { oStatus with kd := .idx }
/-- No lane takes part. -/
def oPdrdOff : Ops := { bareOps 1 0 9 0 0 0 with sub := 1 }
theorem test_hyps_PortCounts :
    (∀ o ∈ [oStatus, oPdrdS, oPdrdX], readyB lab .pdrd o = true ∧ readyB lab .pmap o = true ∧ readyB lab .pdrdClr { o with sub := 1 } = true ∧
      Claims.contributes lab { o with sub := 1 } ≠ []) ∧
    readyB lab .pdrdClr oPdrdOff = true ∧ Claims.contributes lab oPdrdOff = [] := by decide +kernel

/-- One record can enter: the bin has 63, its launches to come 192, and its limit is 256. One lane takes part. -/
def oBin1 : Ops := { oBin with pn := 1 }
def labBin1 (waiting : List BinArr) (n : Nat) (phase : Nat) : State :=
  (labBin waiting n phase).onWarp 0 fun x => x.mapLanes fun l y => { y with preds := if l = 63 then 2 else 0 }
theorem test_hyps_SpawningAndBins :
    (Ready (labBin [] 63 0) .spawnDirect oBin ∧ Claims.spawned (labBin [] 63 0) oBin ≠ [] ∧ Claims.binAt (labBin [] 63 0) oBin true 0 ∧
      ((labBin [] 63 0).bin 0).asid = (labBin [] 63 0).myTeam.asid ∧ (labBin [] 63 0).phase = 0) ∧
    (let s := labBin1 [] 63 1
     Ready s .spawnDirect oBin1 ∧ (Claims.spawned s oBin1).length = 1 ∧ Claims.binAt s oBin1 true 0 ∧ s.phase = 1 ∧ s.since + 8 ≤ s.now ∧
      (s.bin 0).waiting = [] ∧ 4 * 64 - ((s.bin 0).recs.length + ((s.bin 0).due.map fun d => d.2.2.length).sum) = 1 ∧ (s.bin 0).freed.1 ≠ s.now) ∧
    (let s := labBin [] 63 1
     Ready s .spawnDirect oBin ∧ Claims.binAt s oBin true 0 ∧ s.phase = 1 ∧ 1 < (Claims.spawned s oBin).length) ∧
    (Ready { lab with bins := [{ Bin.idle with live := true }] } .spawnIndirect oBinS ∧ Claims.binAt { lab with bins := [{ Bin.idle with live := true }] } oBinS false 0) ∧
    (let s := { labBin [⟨recs1 1, false, 0, 0, none, some 0⟩] 63 1 with ev := ⟨0, 0, 0, 0, []⟩ }
     (s.bin 0).live = true ∧ (s.bin 0).waiting = [⟨recs1 1, false, 0, 0, none, some 0⟩] ∧ recs1 1 ≠ [] ∧
      1 ≤ 4 * 64 - ((s.bin 0).recs.length + ((s.bin 0).due.map fun d => d.2.2.length).sum) ∧ (s.bin 0).recs.length < 64 ∧
      (s.warp 0).stalled.isSome = true ∧ (s.warp 0).hmode = false) ∧
    (let s := labBin [] 63 0
     (s.bin s.ev.a).live = true ∧ (s.bin s.ev.a).expires = some s.now ∧ (s.bin s.ev.a).recs ≠ [] ∧ (s.bin s.ev.a).recs.length = 63) ∧
    Ready (labBin [] 63 0) .bflush { oPlain with form := .w96i, imm := 0x100 } ∧ Claims.binAt (labBin [] 63 0) { oPlain with form := .w96i, imm := 0x100 } (decide ((0 : BitVec 6) = 0)) 0 ∧
    Ready (labBin [] 0 0) .bflush { oPlain with form := .w96i, imm := 0x100 } ∧ ((labBin [] 0 0).bin 0).recs = [] :=
  ⟨⟨ready (by decide +kernel), by decide +kernel, by unfold Claims.binAt; decide +kernel, rfl, rfl⟩,
    ⟨ready (by decide +kernel), by decide +kernel, by unfold Claims.binAt; decide +kernel, rfl, by decide, rfl, by decide +kernel, by decide⟩,
    ⟨ready (by decide +kernel), by unfold Claims.binAt; decide +kernel, rfl, by decide +kernel⟩,
    ⟨ready (by decide +kernel), by unfold Claims.binAt; decide +kernel⟩, by decide +kernel, by decide +kernel, ready (by decide +kernel),
    by unfold Claims.binAt; decide +kernel, ready (by decide +kernel), rfl⟩

/-- `LAUNCH` of the template with the index 1 for the team count in `s7`. -/
def oLaunch : Ops := { bareOps 0 0 10 0 0 1 with form := .w96i, kd := .scal, s1 := sr 7, s3 := sr 8, pd := 2 }
def labLaunch (n : Word) (depth : Nat) (pool : List PoolEnt) (act : BitVec 64) : State :=
  { (labW fun x => { x with s := x.s ++ [0, 0, 0, 0, 0, 0, 0, n] }).onTeam 0 fun k => { k with depth := depth, gridId := 1 } with
    act := act, parts := [{ Part.idle_ with templates := [Kernel.idle, Kernel.idle], pool := pool }] }
def fullPool : List PoolEnt := List.replicate 8192 ⟨true, 1, 0, 0, 0⟩
def leadsB (s : State) (o : Ops) : Bool :=
  match s.leader s.me.team with
  | some (w, l) => w == s.cur && s.pass o l && !(s.me.lane l).helper
  | none => false
theorem leads {s : State} {o : Ops} (h : leadsB s o = true) : Claims.leads s o := by
  unfold leadsB at h
  split at h
  · next w l e =>
    simp only [Bool.and_eq_true, beq_iff_eq, Bool.not_eq_true'] at h
    exact ⟨l, by rw [e, h.1.1], h.1.2, h.2⟩
  · cases h
theorem leads_not {s : State} {o : Ops} (h : leadsB s o = false) : ¬Claims.leads s o := by
  rintro ⟨l, a, b, c⟩
  simp [leadsB, a, b, c] at h
/-- A handle of entry 5 with sequence number 9, in `s7`. -/
def oWaitL : Ops := { bareOps 0 0 10 0 0 0 with kd := .scal, s1 := sr 7 }
def labChild (busy : Bool) (phase : Nat) : State :=
  { labAt phase 0 with parts := [{ Part.idle_ with pool := List.replicate 5 PoolEnt.idle ++ [(⟨busy, 9, 9, 0, 40⟩ : PoolEnt)] }] }.onWarp 0 fun x =>
    { x with s := [0, 0, 0, 0, 0, 0, 0, 0x12005] }
theorem freeSlot_full (n : Nat) (x : PoolEnt) (h : x.busy = true) : freeSlot PoolEnt.busy (List.replicate n x) = n := by
  induction n with
  | zero => rfl
  | succ n ih => simp [List.replicate_succ, freeSlot, h, ih]
theorem full_pool (n : Word) (d : Nat) (a : BitVec 64) : (labLaunch n d fullPool a).poolFree 0 = none := by
  have h : ((labLaunch n d fullPool a).part 0).pool = fullPool := by rfl
  unfold State.poolFree
  rw [h]
  unfold fullPool
  rw [freeSlot_full _ _ rfl]
  rfl
theorem test_hyps_Launches :
    (∀ n ∈ [1, 0x1000000], let s := labLaunch (BitVec.ofNat 32 n) 9 [⟨true, 1, 0, 0, 0⟩] (BitVec.allOnes 64)
      readyB s .launch oLaunch = true ∧ s.act ≠ 0 ∧ oLaunch.imm.toNat % 2 ^ 16 < (s.part (s.partOf s.cur)).templates.length ∧ leadsB s oLaunch = true ∧
        s.uni oLaunch oLaunch.s1 = n ∧ s.myTeam.depth = 9 ∧ (s.poolFree 0).isSome = true) ∧
    (∀ n ∈ [0, 0x1000001], let s := labLaunch (BitVec.ofNat 32 n) 9 [] (BitVec.allOnes 64)
      readyB s .launch oLaunch = true ∧ leadsB s oLaunch = true ∧ s.uni oLaunch oLaunch.s1 = n ∧ s.selected s.cur = false) ∧
    (let s := labLaunch 1 10 [] (BitVec.allOnes 64); readyB s .launch oLaunch = true ∧ leadsB s oLaunch = true ∧ s.myTeam.depth = 10) ∧
    (let s := labLaunch 1 9 fullPool (BitVec.allOnes 64); readyB s .launch oLaunch = true ∧ leadsB s oLaunch = true) ∧
    (let s := labLaunch 1 9 [] 2; readyB s .launch oLaunch = true ∧ s.leader s.me.team ≠ none ∧ leadsB s oLaunch = false) ∧
    (readyB (labChild true 0) .lwait oWaitL = true ∧ readyB (labChild true 0) .lpoll oWaitL = true ∧ Claims.childRuns (labChild true 0) 0x12005) ∧
    (readyB (labChild false 0) .lwait oWaitL = true ∧ readyB (labChild false 0) .lpoll oWaitL = true ∧ ¬Claims.childRuns (labChild false 0) 0x12005) ∧
    readyB (labChild false 1) .lwait oWaitL = true ∧ (labChild false 1).phase = 1 ∧ (Claims.poolOf (labChild false 1) 0x12005).lastAt < (labChild false 1).now ∧
      ¬Claims.loadsOut (labChild false 1) ∧
    (let s := { labChild false 0 with memops := [{ MemOp.idle with live := true, ctr := .ld }] }
     readyB s .lpoll oWaitL = true ∧ ¬Claims.childRuns s 0x12005 ∧ Claims.loadsOut s) := by
  unfold Claims.childRuns Claims.loadsOut
  decide +kernel


/-! Accumulator instructions: `m` is 7 where one is written, and 6 where one is read. -/
def oAcc (p : Claims.AccRow) : Ops :=
  let o : Ops := bareOps 0 0 7 0 0 0
  let i := p.instr o
  if i = .mzero o then o else if i = .mwr o then { o with s1 := vr 40 } else if i = .mscl o then { o with s1 := im 3 } else { o with s1 := vr 6 }
/-- Accumulator 7 is owned by an operation of the warp, or by one of another warp. -/
def labOwned (w : Nat) : State := { lab with tileops := [{ TileOp.idle with live := true, warp := w, kind := .mldacc 7, seq := 3 }] }
/-- Four warps of one sheaf; all have arrived, the last in the cycle before this one, or only the others, or none. -/
def labSheaf (f : Nat → Warp → Warp) : State :=
  { lab with warps := (List.range 4).map fun i => f i { lab.me with num := i, quarter := i % 4 } }.onTeam 0 fun k =>
    { k with warps := [0, 1, 2, 3], handles := [{ Handle.idle with state := 2, base := 0, size := 15 }] }
def labMet : State := labSheaf fun _ x => { x with rdv := some lab.ipc, rdvAt := lab.now }
def labCome (all : Bool) : State := labSheaf fun i x => if i ≠ 0 ∧ (all ∨ i = 1) then { x with rdv := some lab.ipc } else x
def oMldw : Ops := { bareOps 0 0 0 40 0 0 with s2 := im 127, sub := 4 }
def oMwst : Ops := { bareOps 0 0 0 0 0 0 with form := .w96i, sub := 36, imm := 512 }
def oMstr : Ops := { bareOps 0 0 7 40 44 0 with sub := 4 }
def meetsB (s : State) : Bool :=
  s.act == BitVec.allOnes 64 && (s.sheaf s.cur).length == 4 && (Claims.mates s).all fun v => (s.warp v).rdv == none || (s.warp v).rdv == some s.ipc
theorem meets {s : State} (h : meetsB s = true) : Claims.meets s := by
  simp only [meetsB, Bool.and_eq_true, beq_iff_eq, List.all_eq_true, Bool.or_eq_true] at h
  exact ⟨h.1.1, h.1.2, h.2⟩
def sheafOps : List ((Ops → Instr) × Ops) := [(.mldw, oMldw), (.mwst, oMwst), (.mstr, oMstr)]
theorem test_hyps_AccumulatorInstructions :
    (∀ p ∈ Claims.accRows, readyB lab p.instr (oAcc p) = true ∧ readyB (labOwned 0) p.instr (oAcc p) = true ∧ Claims.contributes lab (oAcc p) ≠ [] ∧
      lab.tileops = [] ∧ 7 ∈ p.names (oAcc p) ∧ Claims.owned (labOwned 0) 7 ∧ ¬Claims.owned (labOwned 1) 7) ∧
    (∀ s ∈ [lab, labOwned 0], readyB s .mrd (bareOps 0 0 40 7 0 0) = true ∧ readyB s .msyn ({ oPlain with s1 := im 0x80 }) = true) ∧
    (∀ p ∈ sheafOps, Ready labMet p.1 p.2 ∧ Ready (labCome true) p.1 p.2 ∧ Ready (labCome false) p.1 p.2) ∧
    (∀ b : Bool, Claims.meets (labCome b) ∧ (labCome b).me.rdv = none ∧ (labCome b).cur < (labCome b).warps.length ∧ (labCome b).me.live = true ∧
      (labCome b).me.ended = false) ∧
    (labMet.me.rdv = some labMet.ipc ∧ 0 < labMet.me.rdvAt ∧ labMet.me.rdvAt ≤ labMet.now ∧ labMet.noRoom .tl = false ∧ labMet.act = BitVec.allOnes 64) ∧
    (oMwst.dst.toNat < labMet.myTeam.handles.length ∧ 2 ≤ (labMet.myTeam.handle 0).state ∧ (labMet.myTeam.handle 0).bytes = 512 + 512) ∧
    labMet.weightsAhead.logicalK = 16 :=
  ⟨by unfold Claims.owned; decide +kernel, by decide +kernel,
    fun p hp => ⟨readies (s := labMet) (l := sheafOps) (by decide +kernel) p hp, readies (s := labCome true) (l := sheafOps) (by decide +kernel) p hp,
      readies (s := labCome false) (l := sheafOps) (by decide +kernel) p hp⟩,
    fun b => by cases b <;> exact ⟨meets (by decide +kernel), rfl, by decide, rfl, rfl⟩, ⟨rfl, by decide, by decide, by decide, rfl⟩,
    ⟨by decide, by decide, by decide⟩, by decide +kernel⟩

/-- An FP32 tile of 16 rows of 16 elements: the last 1,024 bytes of the page, and the whole of the handle's buffer. -/
def oTileG : Ops := { bareOps 0 0 7 0 0 0xFFC00 with form := .w96i, s1 := sr 8, s3 := im 16 }
def oTileH (h : BitVec 64) : Ops := { bareOps 0 0 7 0 0 0 with form := .w96i, s1 := im 0, s3 := im 16, sub := 32, imm := h }
def labTile : State := labM.onTeam 0 fun k => { k with handles := [Handle.idle, { Handle.idle with size := 15 }, { Handle.idle with state := 2, size := 15 }] }
def tileGrantedB (s : State) (o : Ops) (store : Bool) : Bool :=
  let t0 := tileAt s o
  (t0.accs s.firstLane (wrapN 64 (s.uni64 o.s1 + sx 32 (o.imm.toNat % 2 ^ 32))) 0).all
    (grantedB s { Claims.page store t0.z with uni := some s.act })
theorem test_hyps_AccumulatorTransfers :
    labTile.noRoom .tl = false ∧
    (Ready labTile .mstacc oTileG ∧ Ready labTile .mldacc oTileG ∧ Claims.storeLanes labTile (shape (.mstacc oTileG)) oTileG ≠ [] ∧
      (tileAt labTile oTileG).aligned 0x100FFC00 = true ∧ tileGrantedB labTile oTileG true = true ∧ tileGrantedB labTile oTileG false = true) ∧
    (Ready labTile .mstacc (oTileH 1) ∧ (tileAt labTile (oTileH 1)).aligned 0 = true ∧ Claims.fillable labTile 1 0 0 false ∧
      0 + (tileAt labTile (oTileH 1)).span = (labTile.myTeam.handle 1).bytes) ∧
    (Ready labTile .mldacc (oTileH 2) ∧ 2 < labTile.myTeam.handles.length ∧ 2 ≤ (labTile.myTeam.handle 2).state ∧
      (labTile.myTeam.handle 2).layout = (tileAt labTile (oTileH 2)).layout ∧ (labTile.myTeam.handle 2).fmt = (tileAt labTile (oTileH 2)).fmt) :=
  ⟨by decide, ⟨ready (by decide +kernel), ready (by decide +kernel), by decide +kernel, by decide +kernel, by decide +kernel, by decide +kernel⟩,
    ⟨ready (by decide +kernel), by decide +kernel, by unfold Claims.fillable; decide +kernel, by decide +kernel⟩,
    ready (by decide +kernel), by decide, by decide, by decide, by decide⟩

/-- A tile operation that can start, whose slot is latched or not; one that is complete; and accesses of an `MSTACC` to a handle. -/
def labStart (k : TileKind) (latched : Bool) : State :=
  { labW fun x => { x with latched := latched, tl := 1 } with
    ev := ⟨0, 0, 0, 0, []⟩
    tileops := [{ TileOp.idle with live := true, kind := k, memop := some 0 }]
    memops := [{ MemOp.idle with live := true, left := 2, accs := [⟨0, 0, 64, 4, 5, 17, false, false, none⟩, ⟨0, 0, 960, 4, 6, 255, false, false, none⟩] }]
    quarters := [{ lab.quarter 0 with latched := if latched then some 0 else none }] }
def kMstr : TileKind := .mstr 7 4 16 16 16 [] []
def kMstacc : TileKind := .mstacc 7 0 0 0 .rne false 16 (.scr 0 64 (some 1) 0) (some 1)
def labStored : State := { labStart kMstacc false with ev := ⟨0, 1, 0, 0, []⟩ }
def labOver : State := { labStart kMstr true with tileops := [{ TileOp.idle with live := true, kind := kMstr, memop := none }] }
def labLoaded : State :=
  { labStart (.mldacc 7) false with
    ev := ⟨0, 4, 0, 0, []⟩
    tileops := [{ TileOp.idle with live := true, kind := .mldacc 7, memop := some 0, readDone := true }]
    memops := [{ MemOp.idle with live := true, kind := .mldacc 7 0, accs := [⟨0, 0, 64, 4, 0, 0, false, false, none⟩], buf := [(0, 0x3F800000)] }] }
theorem test_hyps_TileOperations :
    ((∀ k ∈ [.mldw WSlot.launch, .mwst WSlot.launch, kMstr, kMstacc], (labStart k false).ev.a = 0 ∧ (labStart k false).tileReady ((labStart k false).tileop 0) = true) ∧
      ((labStart kMstr true).quarter 0).latched = some 0 ∧ ((labStart kMstr true).warp 0).latched = true ∧ ((labStart kMstr true).warp 0).ws.sparse = false ∧
      (labStart kMstr true).tileReady ((labStart kMstr true).tileop 0) = true) ∧
    (labOver.ev = ⟨0, 0, 0, 0, []⟩ ∧ (labOver.tileop 0).memop = none) ∧
    (labStored.ev = ⟨0, 1, 0, 0, []⟩ ∧ (labStored.tileop 0).kind = kMstacc ∧ (labStored.tileop 0).memop = some 0 ∧ 1 < (labStored.memop 0).left) ∧
    labLoaded.ev = ⟨0, 4, 0, 0, []⟩ ∧ labLoaded.loadedTile = some 0 ∧ (labLoaded.tileop 0).kind = .mldacc 7 ∧ (labLoaded.tileop 0).memop = some 0 ∧
      (labLoaded.memop 0).kind = .mldacc 7 0 ∧ ∀ a ∈ (labLoaded.memop 0).accs, a.size ≠ 0 := by decide +kernel


/-! Leases of class 4 (four engines of 4 tokens). -/
def oLeaseN (n : BitVec 8) : Ops := { bareOps 0 0 10 0 0 0 with form := .w128i, kd := .scal, s1 := im n, sub := 4 }
def oErls : Ops := { oPlain with form := .w128i, s1 := sr 7 }
def slotL (h : Word) (l : Option Nat) : LeaseSlot := ⟨h, l, false⟩
/-- The team's lease slots; `s7` is the handle of slot 1. -/
def labLease (slots : List LeaseSlot) : State :=
  (labW fun x => { x with s := [0, 0, 0, 0, 0, 0, 0, 97, 0, 0, 0, 0, 0, 0, 0, 0, 5, 6, 7] }).onTeam 0 fun k => { k with leases := slots, leaseSeq := 2 }
def leaseRec : Lease := { Lease.idle with live := true, slot := 1, cls := 4, engines := [16, 17], seq := 1, ready := true, waiter := some 0 }
def labHeld (busy : Bool) : State :=
  { labLease [slotL 0 none, slotL 97 (some 0)] with leases := [leaseRec], cmds := [{ Cmd.idle with live := busy, lease := some 0 }] }
def labQueued (ready : Bool) : State := { labAt 2 97 with leases := [{ leaseRec with ready := ready }] }
theorem test_hyps_Leases :
    (∀ p ∈ [(0, 3), (1, 0), (4, 0), (5, 3)], let s := labLease []; let o := oLeaseN (BitVec.ofNat 8 p.1)
      readyB s .lease o = true ∧ readyB s .leaseTry { o with sub := 12 } = true ∧ Claims.contributes s o ≠ [] ∧ s.phase = 0 ∧
        Claims.leaseRefused s 0 4 (s.uni o o.s1) = p.2) ∧
    Claims.leaseRefused (labLease (List.replicate 8 (slotL 97 (some 0)))) 0 4 1 = 2 ∧ Claims.leaseRefused (labLease (List.replicate 7 (slotL 97 (some 0)))) 0 4 1 = 0 ∧
    Claims.leaseRefused { labLease [] with engbudget := [15] } 0 4 4 = 4 ∧ Claims.leaseRefused { labLease [] with engbudget := [16] } 0 4 4 = 0 ∧
    ((labLease []).sector 0).queue = [] ∧ ((labLease []).sector 0).grantedAt ≠ (labLease []).now + 1 ∧ (labLease []).tokensUsed 0 ≤ (labLease []).budget 0 ∧
    (labLease []).grantPlan 0 4 4 [] = some ([16, 17, 18, 19], []) ∧ (labLease []).myTeam.leaseSeq < 2 ^ 26 ∧
    { labLease [] with engines := List.replicate 24 ⟨.leased, 0⟩ }.grantPlan 0 4 4 [] = none ∧
    (∀ b : Bool, readyB (labQueued b) .lease (oLeaseN 4) = true ∧ (labQueued b).phase = 2 ∧ ((labQueued b).lease 0).live = true ∧
      ((labQueued b).lease 0).waiter = some (labQueued b).cur ∧ ((labQueued b).lease 0).ready = b ∧ ∀ l, 0 < l → ((labQueued b).lease l).live = false) ∧
    (∀ b : Bool, readyB (labHeld b) .erls oErls = true ∧ readyB (labHeld b) .erlsCold { oErls with sub := 1 } = true ∧
      Claims.namesLease (labHeld b) 97 1 (some 0) ∧ ((∃ c ∈ (labHeld b).cmds, c.live = true ∧ c.lease = some 0) ↔ b = true)) ∧
    Claims.namesLease (labLease [slotL 0 none, slotL 97 none]) 97 1 none ∧ ((labLease []).myTeam.slotOf 1).handle ≠ 97 :=
  ⟨by decide +kernel, by decide +kernel, by decide +kernel, by decide +kernel, by decide +kernel, rfl, by decide, by decide +kernel, by decide +kernel, by decide,
    by decide +kernel,
    fun b => ⟨by cases b <;> decide +kernel, by cases b <;> rfl, by cases b <;> rfl, by cases b <;> rfl, by cases b <;> rfl, fun l h => by
      obtain ⟨k, rfl⟩ := Nat.exists_eq_succ_of_ne_zero (Nat.ne_of_gt h); cases b <;> rfl⟩,
    fun b => ⟨by cases b <;> decide +kernel, by cases b <;> decide +kernel, by unfold Claims.namesLease; cases b <;> decide +kernel,
      by cases b <;> decide +kernel⟩, by unfold Claims.namesLease; decide +kernel, by decide +kernel⟩

/-- Requests of warp 0 for the four engines of class 4: they can be granted, or every engine is leased. -/
def labGrant : State :=
  { labAt 1 0 with ev := ⟨0, 0, 0, 0, []⟩, sectors := [⟨[⟨0, 4, 4, 0, 90⟩], 0, 0⟩] }
/-- The last engine of a lease wakes in this cycle. -/
def labWake : State :=
  { lab with ev := ⟨17, 0, 0, 0, []⟩, engines := List.replicate 16 ⟨.dormant, 0⟩ ++ [⟨.leased, 0⟩, ⟨.waking, 100⟩], leases := [{ leaseRec with ready := false }] }
/-- The grace of a lease ends in this cycle: the budget is still too small by one token, or exactly met. -/
def labGrace (budget : DWord) : State :=
  { labHeld true with
    ev := ⟨0, 0, 0, 0, []⟩, engbudget := [budget]
    engines := List.replicate 16 ⟨.dormant, 0⟩ ++ [⟨.leased, 0⟩, ⟨.leased, 0⟩, ⟨.leased, 0⟩], leases := [{ leaseRec with grace := some (100, .budget) }] }
/-- The host starts a grace. -/
def labHost : State := { labHeld true with ev := ⟨0, 1, 0, 0, []⟩ }
theorem one_live {l : List Cmd} {x : Cmd} (h : l = [x]) {s : State} (hs : s.cmds = l) (c : Nat) (hc : (s.cmd c).live = true) : c = 0 := by
  cases c with
  | zero => rfl
  | succ n => simp [State.cmd, hs, h, getP, Cmd.idle] at hc
theorem test_hyps_LeaseEvents :
    (labGrant.ev.a = 0 ∧ 0 ≠ pagerWarp ∧ (labGrant.sector 0).queue = [⟨0, 4, 4, 0, 90⟩] ∧ labGrant.tokensUsed 0 ≤ labGrant.budget 0 ∧
      labGrant.grantPlan 0 4 4 [] = some ([16, 17, 18, 19], []) ∧ (labGrant.sector 0).grantedAt ≠ labGrant.now + 1 ∧
      (labGrant.team (labGrant.warp 0).team).freeLeaseSlot.isSome = true) ∧
    (labWake.ev = ⟨17, 0, 0, 0, []⟩ ∧ (labWake.engine 17).st = .waking ∧ (labWake.engine 17).wakeAt = labWake.now ∧ (labWake.lease 0).live = true ∧
      17 ∈ (labWake.lease 0).engines) ∧
    (labHost.ev.a = 0 ∧ labHost.ev.b = 1 ∧ (labHost.lease 0).live = true ∧ (labHost.lease 0).grace = none) ∧
    (∀ p ∈ [((3 : Nat), false), (4, true)], let s := labGrace (BitVec.ofNat 64 p.1)
      s.ev.a = 0 ∧ s.ev.b = 0 ∧ (s.lease 0).team ≠ pagerWarp ∧ (s.lease 0).grace = some (s.now, .budget) ∧ s.graceMoot 0 = p.2) ∧
    (∀ c d, ((labGrace 3).cmd c).live = true → ((labGrace 3).cmd d).live = true → c = d) ∧ (∀ c, ((labGrace 3).cmd c).owned = []) ∧
    ((labGrace 3).cmd 0).live = true ∧ ((labGrace 3).cmd 0).lease = some 0 :=
  ⟨by decide +kernel, by decide +kernel, by decide +kernel, by decide +kernel,
    fun c d hc hd => (one_live rfl rfl c hc).trans (one_live rfl rfl d hd).symm,
    fun c => by cases c <;> rfl, rfl, rfl⟩

/-! Engine commands: `s7` is the handle of the command's lease in slot 1, the record stands in `s8` and up. -/
def oCmd (p : (Ops → Instr) × CmdKind × Nat × Bool) : Ops :=
  let o : Ops := { bareOps 0 0 4 0 0 0 with form := .w128i, kd := .scal, s1 := sr 8, s3 := sr 7 }
  if p.2.1 = .attr ∨ p.2.1 = .gather then { o with imm := 0x40 } else if p.2.1 = .scatr then { o with imm := 0x41 } else o
def handleOf (cls : Nat) : Word := BitVec.ofNat 32 (1 + 8 * cls + 64)
def labCmd (h : Word) (slot : LeaseSlot) : State :=
  ((labW fun x => { x with s := [0, 0, 0, 0, 0, 0, 0, h, 0, 0, 0, 0, 0, 0, 0, 0], tickets := List.replicate 63 ⟨1, 15, true, 0⟩ }).onTeam 0 fun k =>
    { k with leases := [slotL 0 none, slot], handles := [Handle.idle, { Handle.idle with state := 2 }] })
def suitsB (s : State) (o : Ops) (kind : CmdKind) : Bool :=
  let e := s.myTeam.handle (Claims.cmdHandle o)
  let same := e.layout = Claims.cmdLayout o ∧ e.fmt = Claims.cmdFmt o
  match kind with
  | .attr => decide (Claims.cmdHandle o < s.myTeam.handles.length ∧ e.state = 0 ∧ Claims.cmdLayout o = 0 ∧ Claims.cmdFmt o = 0)
  | .gather => decide (Claims.cmdHandle o < s.myTeam.handles.length ∧ e.state = 0)
  | .scatr => decide (Claims.cmdHandle o < s.myTeam.handles.length ∧ 2 ≤ e.state ∧ same)
  | _ => true
theorem suits {s : State} {o : Ops} {kind : CmdKind} (h : suitsB s o kind = true) : Claims.suits s o kind := by
  cases kind <;> simp only [suitsB, decide_eq_true_eq] at h <;> simp only [Claims.suits] <;> try trivial
  · exact ⟨h.1, by omega, .inr ⟨h.2.2.1, h.2.2.2, fun k => by omega⟩⟩
  · exact ⟨h.1, by omega, .inr fun k => by omega⟩
  · exact ⟨h.1, h.2.1, .inr h.2.2⟩
/-- A ticket of the warp, in `s7`: slot 63, sequence number 5. -/
def oTicket (dst : Nat) : Ops := { bareOps 0 0 dst 0 0 0 with form := .w128i, s1 := sr 7, kd := if dst = 0 then .vec else .scal }
def labTicket (seq : Nat) (busy : Bool) (flight : List Item) : State :=
  { labW fun x => { x with s := [0, 0, 0, 0, 0, 0, 0, 0x17F], tickets := List.replicate 63 ticketIdle ++ [⟨seq, 3, busy, 99⟩] } with
    cmds := [{ Cmd.idle with live := busy, lease := some 0, ticket := 63, tseq := 5, flight := flight }] }
theorem test_hyps_CommandsAndTickets :
    (∀ p ∈ Claims.commandTable, ∀ slot ∈ [slotL (handleOf p.2.2.1) (some 0), slotL (handleOf p.2.2.1) none, ⟨handleOf p.2.2.1, none, true⟩, slotL 0 none],
      let s := labCmd (handleOf p.2.2.1) slot
      readyB s p.1 (oCmd p) = true ∧ s.noRoom .cp = false ∧ Claims.storeLanes s (shape (p.1 (oCmd p))) (oCmd p) ≠ [] ∧ suitsB s (oCmd p) p.2.1 = true ∧
        (getP ticketIdle s.me.tickets 63).busy = false ∧ (s.me.sreg (oCmd p).s3.val.toNat).toNat % 8 = 1 ∧ (handleOf p.2.2.1).toNat / 8 % 8 = p.2.2.1 ∧
        s.myTeam.slotOf 1 = slot) ∧
    (∀ f ∈ [[], [⟨0, Reading.idle, none⟩]], let s := labTicket 5 true f
      readyB s .ecanc (oTicket 0) = true ∧ readyB s .ewait (oTicket 9) = true ∧ s.uni (oTicket 0) (oTicket 0).s1 = 64 * 5 + 63 ∧
        (getP ticketIdle s.me.tickets 63) = ⟨5, 3, true, 99⟩ ∧ s.cmdOf (64 * 5 + 63) = some 0 ∧ (s.cmd 0).lease.isSome = true ∧ (s.cmd 0).stopped = false ∧
        (s.cmd 0).ending = false ∧ (s.cmd 0).kind ≠ .thresh ∧ (s.cmd 0).kind ≠ .coll ∧ (s.cmd 0).flight = f ∧ (s.cmd 0).parts = []) ∧
    (∀ x ∈ [{ Cmd.idle with kind := .thresh }, { Cmd.idle with kind := .coll, others := none }, { Cmd.idle with kind := .coll, others := some [] }],
      let s := { labTicket 5 true [] with cmds := [{ x with live := true, lease := some 0, ticket := 63, tseq := 5 }] }
      readyB s .ecanc (oTicket 0) = true ∧ s.cmdOf (64 * 5 + 63) = some 0) ∧
    (∀ k ∈ [4, 5], let s := labTicket k false []
      readyB s .ecanc (oTicket 0) = true ∧ readyB s .ewait (oTicket 9) = true ∧ s.idxBad (shape (.ewait (oTicket 9))) (oTicket 9) = 0 ∧
        (getP ticketIdle s.me.tickets 63) = ⟨k, 3, false, 99⟩ ∧ s.cmdOf (64 * 5 + 63) = none) := by decide +kernel

/-! Events of commands. -/
def labC0 (x : Cmd) (b : Nat) : State := { labHeld true with ev := ⟨0, b, 0, 0, []⟩, cmds := [{ x with live := true }] }
def cmdArrives : State := { labC0 { Cmd.idle with lease := some 0 } 0 with leases := [{ leaseRec with rot := 1 }] }
/-- Item 0 of 2 of a `GATHER.b32` of a table of 5 elements; its index is 5. -/
def cmdGather : Cmd :=
  { Cmd.idle with
    kind := .gather, lease := some 0, arrived := true, count := 2, engine := 16, handle := some 0, words := [0x1000, 0, 2, 5, 0, 0, 0, 64]
    idx := [⟨0, 0, [⟨0x1000, 99, 0, 5, LineAttr.none_⟩], none⟩] }
def labGather : State := { labC0 cmdGather 0 with engines := List.replicate 16 ⟨.dormant, 0⟩ ++ [⟨.leased, 0⟩] }
def labWrite : State := labC0 { Cmd.idle with flight := [⟨0, Reading.idle, some [⟨100, 0, true, some (.scratch (.scr 0 64 (some 0) 0) [1, 2])⟩]⟩] } 1
def labColl : State := labC0 { Cmd.idle with kind := .coll } 0
/-- A tile of 24 lines at the start of the page, open; pixel 255 of it waits. -/
def tileA : Tile := ⟨0x4000000, (List.range 24).map fun i => 0x4000000 + 128 * i, 0, .opened, 0, 0, none⟩
def lineAt (sl la : Nat) : L2Line := ⟨la, sl, false, 0, false, false, false, false, 0, 0, none⟩
/-- The item of a stalled pixel. -/
def stalled : Item := ⟨0, Reading.idle, some [⟨0, 0, true, some (.pixel 0x10000000 255 7 9 false false)⟩]⟩
def labStall : State :=
  { labM with
    ev := ⟨0, 0, 0, 0, []⟩, tlb := [⟨576, 0, false, 0x10000000, 0x4000000, 4, false, true, false, false, 0⟩], tiles := [tileA]
    l2 := (List.range 24).map fun i => lineAt 0 (0x4000000 + 128 * i)
    cmds := [{ Cmd.idle with live := true, kind := .rast, flight := [stalled] }] }
/-- A collective of two ranks, group 7, whose table is the first line of the page; rank 1 has issued its command. -/
def labColls : State :=
  { labStall with
    l2 := [{ lineAt 0 0x4000000 with data := BitVec.ofNat 1024 (2 + 7 * 2 ^ 32) }]
    cmds := [{ Cmd.idle with live := true, kind := .coll, ranks := [(1, 7, 0)], words := [0, 0, 0, 0, 0, 0x10000000, 0, 0] }] }
def sliceB : Home → Bool
  | .slice _ _ => true
  | _ => false
theorem sliced {h : Home} (k : sliceB h = true) : ∃ d sl, h = .slice d sl := by
  cases h <;> simp [sliceB] at k ⊢
theorem test_hyps_EngineEvents :
    (Claims.means cmdArrives 0 ∧ (cmdArrives.cmd 0).lease = some 0 ∧ (cmdArrives.lease 0).engines ≠ [] ∧ (cmdArrives.cmd 0).owned = []) ∧
    (Claims.means labGather 0 ∧ labGather.ev.b = 0 ∧ Claims.served labGather 0 ∧
      (let x := labGather.cmd 0
       x.kind = .gather ∧ x.lease.isSome = true ∧ 0 < x.count ∧ x.next + 1 < x.count ∧ x.count = x.w 2 ∧ x.w 2 ≤ 32 ∧ x.flight = [] ∧ x.w2 0 % 128 = 0 ∧ x.startAt ≤ labGather.now ∧
        canonical (x.w2 0) = true ∧ x.idx = [⟨0, 0, [⟨x.w2 0, 99, 0, 5, LineAttr.none_⟩], none⟩] ∧ 99 ≤ labGather.now ∧ lineGet (5 : BitVec 1024) (4 * x.next) 4 = 5 ∧ x.w 3 = 5)) ∧
    (Claims.means labWrite 0 ∧ labWrite.ev.b = 1 ∧ (labWrite.cmd 0).parts = [] ∧
      (labWrite.cmd 0).flight = [⟨0, Reading.idle, some [⟨labWrite.now, 0, true, some (.scratch (.scr 0 64 (some 0) 0) [1, 2])⟩]⟩] ∧
      (labWrite.cmd 0).kind ≠ .thresh) ∧
    (Claims.means labColl 0 ∧ (labColl.cmd 0).kind = .coll ∧ (labColl.cmd 0).stopped = false ∧ (labColl.cmd 0).ending = false ∧ (labColl.cmd 0).parts = [] ∧
      labColl.ranksIn (labColl.cmd 0) = false) ∧
    (Claims.means labColls 0 ∧ (labColls.cmd 0).kind = .coll ∧ labColls.ranksIn (labColls.cmd 0) = true) ∧
    (let g := labStall.cmdAgent (labStall.cmd 0)
     let ls := labStall.linesAt g 0x10000000 3072
     let li := getP 0 ls (255 / 16)
     let ld := getP 0 ls (16 + 255 / 32)
     labStall.ev.a = 0 ∧ (labStall.cmd 0).live = true ∧ (labStall.cmd 0).kind = .rast ∧ (labStall.cmd 0).flight = [stalled] ∧ ls ≠ [] ∧
      labStall.tile (getP 0 ls 0) = some tileA ∧ tileA.st = .opened ∧ labStall.conflictsAt li true = [] ∧ labStall.conflictsAt ld true = [] ∧
      labStall.refusedAt g.port li (labStall.genOf g.part li) = none ∧ li ≠ ld ∧ sliceB (labStall.homeOf g.part li) = true ∧
      (labStall.homeCopy li).isSome = true ∧ (labStall.homeCopy ld).isSome = true ∧ ∀ r ∈ labStall.reqs, ¬(r.live = true ∧ r.waits = true)) :=
  ⟨by unfold Claims.means; decide +kernel, ⟨by unfold Claims.means; decide +kernel, rfl, by unfold Claims.served; dsimp only; decide +kernel, by dsimp only; decide +kernel⟩,
    by unfold Claims.means; decide +kernel, by unfold Claims.means; decide +kernel, by unfold Claims.means; decide +kernel, by decide +kernel⟩

/-- Lane 63 waits for the attribute engine: its record is of a background pixel, in its item or not. The table at 0x1000 has one instance, two materials
and the background material 1; that material, in the line after, has three registers, each of list 15. -/
def tabLine : LineRead := ⟨0x1000, 90, 0, BitVec.ofNat 1024 (1 + 2 * 2 ^ 32 + 0x1060 * 2 ^ 128 + 2 ^ 256), LineAttr.none_⟩
def matLine : LineRead := ⟨0x1080, 80, 0, BitVec.ofNat 1024 (3 * 2 ^ 64 + 0x0F0F0F * 2 ^ 128), LineAttr.none_⟩
def labDeliv (ev : Nat → EvArg) (d : Deliv) : State :=
  { labW fun x => { x with
      deliv := [d], recs := List.replicate 63 BinRec.blank ++ [{ BinRec.blank with ident := 0x8000000000000000, first := 3, depth := 4, owner := 9, table := 0x1000 }] } with
    ev := ev lab.me.placed, leases := [leaseRec] }
theorem test_hyps_LaneDelivery :
    (let s := labDeliv (fun _ => ⟨0, 0, 9, 0, []⟩) ⟨63, 0, none⟩
     s.ev = ⟨0, 0, 9, 0, []⟩ ∧ s.leaseNamed 9 = none ∧ (s.warp 0).live = true ∧ ((s.warp 0).recOf 63).owner = 9 ∧ 10 ≤ (s.warp 0).nregs ∧
      (∃ d ∈ (s.warp 0).deliv, d.lane = 63 ∧ d.due = 0)) ∧
    (let rd : Reading := ⟨80, 100, [tabLine, matLine], none⟩
     let s := (labDeliv (fun p => ⟨0, 63, p, 1, []⟩) ⟨63, 0, some rd⟩).onWarp 0 fun x => { x with nregs := 12 }
     let s := { s with now := 106 }
     let b := (s.warp 0).recOf 63
     let h := TabHead.of b.table.toNat (lineGet tabLine.data (b.table.toNat % 128) 64)
     let ma := h.mat + 32 * h.bg
     let field (k n : Nat) : Nat := lineGet matLine.data (ma % 128 + k) n
     s.ev = ⟨0, 63, (s.warp 0).placed, 1, []⟩ ∧ (s.warp 0).live = true ∧ (s.warp 0).nregs = 12 ∧ b.ident.toNat / 2 ^ 62 = 2 ∧
      canonical b.table.toNat = true ∧ h.ok = true ∧ h.bg < h.nm ∧ ma < 2 ^ 64 ∧ canonical ma = true ∧ field 8 1 = 3 ∧
      rd.lines.find? (fun q => q.va == b.table.toNat / 128 * 128) = some tabLine ∧ rd.lines.find? (fun q => q.va == ma / 128 * 128) = some matLine ∧
      field 9 7 = 0 ∧ (∀ k < 16, (k < 3 → field (16 + k) 1 < 16) ∧ (3 ≤ k → field (16 + k) 1 = 0)) ∧
      max (max rd.start 90) 80 + 4 + min 12 (10 + 3) ≤ s.now) ∧
    (let s := labDeliv (fun p => ⟨0, 0, p, 2, []⟩) ⟨63, 92, none⟩
     s.ev = ⟨0, 0, (s.warp 0).placed, 2, []⟩ ∧ (s.warp 0).live = true ∧ ∀ d ∈ (s.warp 0).deliv, d.due ≠ 0 ∧ d.due + 8 ≤ s.now) := by decide +kernel


def labMH : State := labM.onWarp 0 fun x => { x with hmode := true, hpc := 64 }
/-- `SRD` and `SWR` of a register at an index, and `SWR` with an index scalar. -/
def oSrd (n i : Nat) : Ops := { bareOps 0 0 4 0 0 (n + 4096 * i) with form := .w96i, kd := .scal }
def oSwr (n i : Nat) : Ops := { bareOps 0 0 0 0 0 (n + 4096 * i) with form := .w96i, s1 := sr 8 }
theorem test_hyps_SystemRegisters :
    (∀ p ∈ Claims.plainRegs, ∀ i ∈ [0, p.2.1 - 1, p.2.1], readyB labMH .srd (oSrd p.1 i) = true ∧ Claims.regNumber (oSrd p.1 i) = p.1 ∧
      Claims.regIndex labMH (oSrd p.1 i) = i) ∧
    (∀ n ∈ [0x06, 0x09, 0x0A], readyB labMH .srd (oSrd n 0) = true ∧ Claims.regNumber (oSrd n 0) = n) ∧
    (∀ p ∈ Claims.plainWrites, ∀ i ∈ [0, p.2.1 - 1, p.2.1], readyB labMH .swr (oSwr p.1 i) = true ∧ Claims.regNumber (oSwr p.1 i) = p.1 ∧
      Claims.regIndex labMH (oSwr p.1 i) = i) ∧
    (∀ n ∈ [0x03, 0x20, 0x27, 0x2C, 0x2F], readyB labMH .swr (oSwr n 0) = true ∧ Claims.regNumber (oSwr n 0) = n) ∧
    Claims.contributes labMH (oSrd 0 0) = [0, 63] := by decide +kernel

/-! `TLBI` of every form, at the core and over the device; a store of the warp is under way or not. -/
def tlbis (aux : BitVec 3) : List ((Ops → Instr) × Ops) :=
  [(.tlbiAll, { oPlain with aux := aux }), (.tlbiAsid, { oPlain with s1 := sr 9, sub := 1, aux := aux }),
    (.tlbiVa, { oPlain with s1 := sr 9, s2 := sr 8, sub := 2, aux := aux }), (.tlbiMap, { oPlain with s1 := sr 8, s2 := im 7, sub := 3, aux := aux })]
def labOutH : State := { labMH with seq := 7, memops := (labOut .store).memops, reqs := (labOut .store).reqs }
def labPhase2 (datum : Nat) : State := labMH.onWarp 0 fun x => { x with stalled := some ⟨labMH.ipc, 0, 1, 2, datum⟩ }
/-- A walk of sector 5 that core 575 waits for has ended with a leaf. -/
def labWalk (barred : Bool) : State :=
  { lab with ev := ⟨0, 0, 0, 0, []⟩, walks := [⟨true, 5, [575], 0, 0, 100, labM.tlb[0]?, 0, none, barred⟩] }
theorem test_hyps_Translations :
    (∀ aux : BitVec 3, aux.toNat ≤ 2 → ∀ p ∈ tlbis aux, readyB labMH p.1 p.2 = true ∧ readyB labOutH p.1 p.2 = true ∧ readyB (labPhase2 0) p.1 p.2 = true) ∧
    (∀ p ∈ Claims.dropTable, ∃ q ∈ tlbis 2, p.1 q.2 = q.1 q.2) ∧
    labMH.act ≠ 0 ∧ labMH.phase ≠ 2 ∧ ¬Claims.storesOut labMH ∧ labOutH.phase ≠ 2 ∧ Claims.storesOut labOutH ∧
    (∀ aux : BitVec 3, aux.toNat ≤ 2 → ∀ p ∈ tlbis aux, let d := Claims.dropCycles p.2
      (∀ k ∈ [0, 1, 31], let s := { labPhase2 ((100 - d) * 2 ^ 69 + k) with now := 100 - d + d }
        s.phase = 2 ∧ s.datum / 2 ^ 69 + d ≤ s.now ∧ s.datum % 32 = k ∧ s.memops = [] ∧ s.cmds = [] ∧ ∀ x ∈ s.warps, x.deliv = []) ∧
      let s := { labPhase2 (81 * 2 ^ 69) with now := 80 + d }
      s.phase = 2 ∧ s.datum / 2 ^ 69 + d = s.now + 1) ∧
    (labPhase2 100).datum = (labPhase2 100).now ∧
    (labMH.uni64 (sr 8) % 2 ^ (12 + 2 * 7) = 0 ∧ labMH.uni oPlain (im 7) = 7) ∧
    ∀ b : Bool, let k := getP Walk.idle (labWalk b).walks 0
      (labWalk b).ev = ⟨0, 0, 0, 0, []⟩ ∧ k.live = true ∧ k.leaf.isSome = true ∧ k.bad = none ∧ k.sector < 6 ∧ (∀ c ∈ k.cores, c < 576) ∧ k.barred = b :=
  ⟨by decide +kernel, by decide +kernel, by decide, by decide, by unfold Claims.storesOut Claims.writes; decide +kernel, by decide,
    by unfold Claims.storesOut Claims.writes; decide +kernel, by decide +kernel, by decide +kernel, by decide +kernel, by decide +kernel⟩

def l2fls : List ((Ops → Instr) × Ops) :=
  [(.l2flWb, { oPlain with s1 := sr 8, s2 := sr 9 }), (.l2flInv, { oPlain with s1 := sr 8, s2 := im 127, sub := 1 }), (.l2flSlice, { oPlain with s1 := im 95, sub := 2 }),
    (.l2flPart, { oPlain with sub := 3 })]
/-- 65,536 lines. -/
def lab64K (s : State) : State := s.onWarp 0 fun x => { x with s := x.s.set 9 65536 }
theorem test_hyps_CacheFlushes :
    (∀ p ∈ l2fls, ∀ s ∈ [lab64K labMH, lab64K labOutH, lab64K (labPhase2 100)], readyB s p.1 p.2 = true ∧ s.act ≠ 0) ∧
    ((lab64K labMH).uni64 (sr 8) % 128 = 0 ∧ (lab64K labMH).uni oPlain (sr 9) = 65536 ∧ (lab64K labMH).uni oPlain (im 127) = 127 ∧
      (lab64K labMH).uni oPlain (im 95) = 95 ∧ (lab64K labMH).partcfg.getLsbD 2 = false) ∧
    (lab64K labMH).phase ≠ 2 ∧ ¬Claims.storesOut (lab64K labMH) ∧ (lab64K labOutH).phase ≠ 2 ∧ Claims.storesOut (lab64K labOutH) ∧
    (lab64K (labPhase2 100)).phase = 2 ∧ (lab64K (labPhase2 100)).datum = (lab64K (labPhase2 100)).now :=
  ⟨by decide +kernel, by decide +kernel, by decide, by unfold Claims.storesOut Claims.writes; decide +kernel, by decide,
    by unfold Claims.storesOut Claims.writes; decide +kernel, by decide, by decide⟩

/-- Two traps are due, or every lane is parked with its record complete. -/
def labTraps : State := { labW fun x => { x with traps := [⟨0x13, 0, 0, 0⟩, ⟨0x08, 0, 64, 1⟩] } with ev := ⟨0, 0, 0, 0, []⟩ }
def labParked (f : Bool) (d : Bool) : State :=
  { labW fun x => x.mapLanes fun _ y => { y with st := .parked, fault := some { mkFault 1 64 with fetch := f, delivery := d } } with ev := ⟨0, 0, 0, 0, []⟩ }
theorem test_hyps_TakeVector :
    (labTraps.ev.a = 0 ∧ labTraps.vectorDue 0 = true ∧ (labTraps.warp 0).traps ≠ []) ∧
    (let s := labTraps.onWarp 0 fun x => { x with traps := [⟨0x13, 0, 0, 0⟩] }; s.ev.a = 0 ∧ s.vectorDue 0 = true) ∧
    (labParked false false).ev.a = 0 ∧ (labParked false false).vectorDue 0 = true ∧ ((labParked false false).warp 0).traps = [] := by decide +kernel

/-- Memory with page tables: addresses below 2^42 map to themselves. -/
def table (la : Nat) (v : BitVec 1024) : L2Line := ⟨la, 0, false, v, false, false, false, false, 0, 0, none⟩
def labI : State :=
  { labMH with
    asidtab := 0x4100001
    l2 := [table 0x4100000 0x4100081, table 0x4100080 0x4100201, table 0x4100200 0x4100401, table 0x4100400 0x3F] }
/-- Lanes 0 and 63 are parked at the last address of a block and at the first; `s8`:`s9` name them, lane 63 was held at address 0. -/
def labReplay : State := labI.onWarp 0 fun x =>
  { x.mapLanes fun l y => if l = 0 ∨ l = 63 then
      { y with st := .parked, pc := if l = 0 then 0x4000014 else 0x4000020, meet := if l = 63 then 0 else y.meet, fault := some (mkFault 1 0x4000014) } else y with
    s := [0, 0, 0, 0, 0, 0, 0, 0, 1, 0x80000000] }
theorem test_hyps_HandlerInstructions :
    (∀ p ∈ [(Instr.hrpl { oPlain with s1 := sr 8 }), .hrplAll { oPlain with sub := 1 }, .hemu { oPlain with s1 := sr 8 },
        .hemuTo { oPlain with s1 := sr 8, s2 := vr 8, sub := 1 }, .hend oPlain, .hret oPlain, .icinv oPlain],
      readyB labReplay (fun _ => p) ((opsOf p).getD oPlain) = true) ∧ labReplay.phase ≠ 1 ∧
    (∀ l < 64, (labReplay.me.lane l).st = .parked → (labReplay.me.lane l).fault = some (mkFault 1 0x4000014) ∧
      labReplay.lengthAt labReplay.cur (labReplay.me.lane l).pc = some 8) ∧
    (BitVec.ofNat 64 (labReplay.uni64 (sr 8)) = (0x8000000000000001 : BitVec 64) ∧ (labReplay.me.lane 0).st = .parked ∧ (labReplay.me.lane 63).st = .parked ∧
      BitVec.ofNat 64 (labReplay.src oPlain .i64 (vr 8) 63) = (labReplay.me.lane 63).meet) ∧
    (let s := labReplay.onWarp 0 fun x => x.mapLanes fun l y => if l = 63 then { y with fault := some { mkFault 1 0x4000014 with delivery := true } } else y
     readyB s .hrpl { oPlain with s1 := sr 8 } = true ∧ (s.me.lane 63).st = .parked ∧ (s.me.lane 63).fault.map FaultRec.delivery = some true) := by decide +kernel

/-! Context images: the warp has 8 registers, and its image begins at 0x4000000. -/
def imageLines (f : Nat → BitVec 1024) : List L2Line := (List.range 224).map fun i => table (0x4000000 + 128 * i) (f i)
def labImage (phase : Nat) (f : Nat → BitVec 1024) : State :=
  { labI with l2 := labI.l2 ++ imageLines f }.onWarp 0 fun x =>
    { x.mapLanes fun _ y => { y with v := List.replicate 8 0 } with
      nregs := 8, cause := ⟨0x13, 0, 0, 0⟩, s := [0, 0, 0, 0, 0, 0, 0, 0, 0x4000000, 0], stalled := some ⟨labI.ipc, 0, 1, phase, 0x4000000⟩ }
def pages (n : Nat) : List Nat := (List.range n).map fun i => 0x4000000 + 4096 * i
/-- An image of 28,672 bytes whose warp's register 0 has the code 4. -/
def saved (i : Nat) : BitVec 1024 := if i = 0 then 0x700000000000 else if i = 218 then 4 else 0
def oImage : Ops := { oPlain with s1 := sr 8 }
def okIs (r : Except (Nat × Nat) (List Nat)) (l : List Nat) : Bool :=
  match r with
  | .ok x => x == l
  | .error _ => false
theorem ok_of {r : Except (Nat × Nat) (List Nat)} {l : List Nat} (h : okIs r l = true) : r = .ok l := by
  cases r <;> simp_all [okIs]
def residentB (s : State) (la : Nat) : Bool := sliceB (s.homeAny la) && (s.homeCopy la).isSome
theorem resident {s : State} {la : Nat} (h : residentB s la = true) : Claims.resident s la := by
  simp only [residentB, Bool.and_eq_true] at h
  exact ⟨sliced h.1, h.2⟩
theorem test_hyps_ContextImages :
    (∀ k ∈ [0, 1, 10, 11, 12], let s := labImage k saved
      readyB s .ctxsv oImage = true ∧ readyB s .ctxld oImage = true ∧ s.me.cause.cls = 0x13 ∧ s.uni64 oImage.s1 = 0x4000000 ∧ s.phase = k) ∧
    ((labImage 10 saved).allAt 0 10 0x4000000 = true ∧ (labImage 10 saved).saveReady 0 = true ∧
      okIs ((labImage 10 saved).imagePages 0 true 0x4000000 7) (pages 7) = true ∧ (labImage 10 saved).myTeam.bin = none ∧
      ((List.range 224).all fun i => residentB (labImage 10 saved) (0x4000000 + 128 * i)) = true) ∧
    ((((labImage 10 saved).teamImage 0).length + 4095) / 4096 = 7) ∧
    ((labImage 11 saved).allAt 0 11 0x4000000 = true ∧ okIs ((labImage 11 saved).imagePages 0 false 0x4000000 1) [0x4000000] = true ∧
      min 1024 ((max ((labImage 11 saved).imageGet [0x4000000] 4 4) 4800 + 4095) / 4096) = 7 ∧
      okIs ((labImage 11 saved).imagePages 0 false 0x4000000 7) (pages 7) = true ∧ (labImage 11 saved).myTeam.warps = [0] ∧
      0 < ((labImage 11 saved).warp 0).nregs ∧ (labImage 11 saved).imageGet (pages 7) (4864 + 23040) 1 = 4) ∧
    (pages 7).Nodup ∧ ∀ p ∈ pages 7, p % 4096 = 0 :=
  ⟨by decide +kernel, by decide +kernel, by decide +kernel, by decide +kernel, by decide +kernel, by decide +kernel⟩

/-- A port instruction waits since cycle 100, for as long as its kernel allows, or one cycle less. -/
def labPort : State :=
  { labW fun x => { x with portSince := some 100, stalled := some ⟨64, 100, 1, 0, 3⟩ } with now := 355, ev := ⟨0, 0, 0, 0, []⟩ }.onTeam 0 fun k =>
    { k with kern := { k.kern with portmap := 0x1000000000001 } }
theorem test_hyps_TrapsAndPreemption :
    (readyB lab .trap { oPlain with s2 := im 127 } = true ∧ readyB lab .brkpt oPlain = true ∧ lab.act ≠ 0 ∧ lab.me.hmode = false) ∧
    ({ lab with ev := ⟨0, 3, 0, 0, []⟩ }.warp 0).hmode = false ∧
    ((labPort.warp 0).live = true ∧ (labPort.warp 0).hmode = false ∧ (labPort.warp 0).portSince = some 100 ∧ (labPort.warp 0).stalled.isSome = true ∧
      (labPort.team (labPort.warp 0).team).kern.timeout = labPort.now + 1 - 100) ∧
    (let s : State := { lab with ev := ⟨0, 0, 0, 1, []⟩ }
     s.ev.a < 6 ∧ s.d3hot = false ∧ 4 ≤ s.stage ∧ (s.team 0).live = true ∧ (s.team 0).part = 0 ∧ (s.team 0).gridId = BitVec.ofNat 32 (s.ev.v.toNat / 2 ^ 32) ∧
      s.ev.v.getLsbD 0 = true ∧ Claims.inTeam s 0 0) ∧
    ({ lab with ev := ⟨0, 0, 0, 0, []⟩ }.team 0).num = 0 ∧
    (∀ s ∈ [lab, labH], (s.warp 0).live = true ∧ (s.warp 0).ended = false ∧ (s.warp 0).traps = []) := by
  unfold Claims.inTeam
  decide +kernel


/-- A warp whose lanes 2 and 63 are held at address 64; no thread runs there, or lane 0 does. -/
def labMeet (busy : Bool) : State :=
  { labW fun x => x.mapLanes fun l y =>
      if l = 2 ∨ l = 63 then { y with st := .held, meet := 64 } else if l = 0 ∧ busy then { y with meet := 64 } else y with
    ev := ⟨0, 0, 0, 64, []⟩ }
/-- Every thread of warp 0 has exited; another warp of its team has not, or there is none; its grid has `n` teams. -/
def labExit (two : Bool) (n : Nat) : State :=
  let s : State := { labW fun x => x.mapLanes fun _ y => { y with st := .exited } with ev := ⟨0, 0, 0, 0, []⟩ }
  { s with
    warps := s.warps ++ if two then [{ lab.me with num := 1 }] else []
    parts := [Part.idle_], grids := [{ Grid.idle with st := .pending, nteams := 1, next := 1, liveTeams := n, pool := some 3, host := true, irq := true }] }.onTeam 0
      fun k => { k with warps := if two then [0, 1] else [0] }
def labFreed : State := { lab with ev := ⟨0, 0, 0, 0, []⟩ }.onTeam 0 fun k => { k with live := false }
/-- Quarter 0 has issued from warp 0; warp 4 of the quarter is ready, or not. -/
def labGreed (b : Bool) : State :=
  { lab with warps := [lab.me, { lab.me with num := 4, retryAt := if b then 100 else 101 }], ev := ⟨0, 0, 0, 0, []⟩, quarters := [{ lab.quarter 0 with greed := 256 }] }
/-- A kernel that core 0, where the team of `lab` is, cannot hold too, and core 1 can. -/
def kern12 : Kernel := { Kernel.idle with hasEntry := true, entry := 64, warps := 12, regs := 256, hi := 255 }
def gridOf (prio order : Nat) : Grid :=
  { Grid.idle with st := .pending, kern := kern12, nteams := 2 ^ 24, next := 2 ^ 24 - 1, prio := prio, order := order, readyAt := 100, args := [1, 2, 3, 4, 5, 6, 7, 8] }
def labPlace : State := { lab with ev := ⟨0, 0, 0, 0, []⟩, parts := [Part.idle_], grids := [gridOf 1 4, gridOf 2 9, gridOf 2 8] }
def labPlaceBin : State :=
  { lab with
    ev := ⟨0, 0, 0, 0, []⟩, parts := [{ Part.idle_ with dueBins := [0, 1] }]
    bins := [{ Bin.idle with live := true, kern := kern12, launched := 2 ^ 24, due := [(2, 100, recs1 65), (1, 101, recs1 1)] }] }
theorem ready_grids {h : Nat} (k : labPlace.gridReady 0 h = true) : h = 2 ∨ (labPlace.grid h).prio < 2 ∨ ((labPlace.grid h).prio = 2 ∧ 8 < (labPlace.grid h).order) := by
  rcases h with _ | _ | _ | h
  · exact .inr (.inl (by decide))
  · exact .inr (.inr (by decide))
  · exact .inl rfl
  · exact absurd k (by simp [State.gridReady, State.grid, labPlace, getP, Grid.idle])
theorem alone {v : Nat} (h : v ≠ 0) : ¬Claims.inTeam (labExit false 1) 0 v := by
  rintro ⟨a, -⟩
  have e : ((labExit false 1).team 0).warps = [0] := by rfl
  simp [e] at a
  exact h a
theorem test_hyps_TeamLifetimes :
    (let s := labMeet false
     s.ev.a = 0 ∧ (s.warp 0).live = true ∧ (s.warp 0).hmode = false ∧ ((s.warp 0).lane 2).st = .held ∧ ((s.warp 0).lane 2).meet = s.ev.v ∧
      Claims.meetingDone (s.warp 0) s.ev.v ∧ (∀ k < 2, ((s.warp 0).lane k).st ≠ .held) ∧ ¬Claims.meetingDone ((labMeet true).warp 0) s.ev.v) ∧
    (∀ p ∈ [(true, 1), (false, 2), (false, 1)], let s := labExit p.1 p.2
      s.ev.a = 0 ∧ (s.warp 0).live = true ∧ (s.warp 0).hmode = false ∧ (s.warp 0).ld = 0 ∧ (s.warp 0).st = 0 ∧ (s.warp 0).cp = 0 ∧ (s.warp 0).tl = 0 ∧
        (s.warp 0).deliv = [] ∧ (∀ l < 64, ((s.warp 0).lane l).st = .exited) ∧ s.memops = [] ∧ (s.team 0).live = true ∧ (s.team 0).bin = none ∧
        (s.grid (s.team 0).grid).liveTeams = p.2) ∧
    Claims.inTeam (labExit true 1) 0 1 ∧ (∀ v, v ≠ 0 → ¬Claims.inTeam (labExit false 1) 0 v) ∧
    (let g := (labExit false 1).grid 0
     g.st = .pending ∧ g.nteams ≤ g.next ∧ g.kids = 0 ∧ g.saved = [] ∧ g.parent = none ∧ g.pool = some 3 ∧ g.host = true ∧ g.irq = true) ∧
    (labFreed.ev.a = 0 ∧ (labFreed.team 0).holds = true ∧ (labFreed.team 0).live = false) ∧
    (∀ b : Bool, (labGreed b).ev.a = 0 ∧ (1 ≠ ((labGreed b).quarter 0).last ∧ ((labGreed b).warp 1).unit = 0 ∧ (labGreed b).eligible 1 = b)) ∧
    (∀ s ∈ [labPlace, labPlaceBin], s.ev.a = 0 ∧ s.neverGrid 0 = none ∧ kern12.ny = 1 ∧ kern12.nz = 1 ∧ s.holdsTeam 0 1 kern12 false = true ∧
      s.holdsTeam 0 0 kern12 false = false) ∧
    ((labPlace.grid 2).kern = kern12 ∧ (labPlace.part 0).dueBins = [] ∧ (labPlace.part 0).restores = [] ∧ labPlace.gridReady 0 2 = true ∧
      (labPlace.grid 2).host = false ∧ ∀ h, labPlace.gridReady 0 h = true → h = 2 ∨ (labPlace.grid h).prio < 2 ∨ ((labPlace.grid h).prio = 2 ∧ 8 < (labPlace.grid h).order)) ∧
    (labPlaceBin.bin 0).kern = kern12 ∧ (labPlaceBin.part 0).dueBins = [0, 1] ∧ (labPlaceBin.bin 0).due = [(2, 100, recs1 65), (1, 101, recs1 1)] ∧
      ∀ r ∈ recs1 65, r.kind = .spawn ∧ r.tile = none :=
  ⟨by unfold Claims.meetingDone; decide +kernel, by decide +kernel, by unfold Claims.inTeam; decide +kernel, fun _ => alone, by decide +kernel, by decide +kernel,
    by decide +kernel, by decide +kernel, ⟨rfl, rfl, rfl, by decide +kernel, rfl, fun _ => ready_grids⟩, rfl, rfl, rfl, by decide +kernel⟩

/-! Launch records: HEAD is at the top of its range, and the record is the last of a ring of 16 at 0x4000000. -/
def recOf (kind tmpl stok comp : Nat) : BitVec 1024 :=
  BitVec.ofNat 1024 (kind + 2 ^ 32 * tmpl + 2 ^ 64 + 2 ^ 120 + 2 ^ 512 * 0xFFFFFFFF + 2 ^ 576 * stok + 2 ^ 640 * comp)
def labRecord (r : BitVec 1024) : State :=
  { labM with
    ev := ⟨0, 0, 0, 0, []⟩, lqbase := [0x4000000], l2 := [table 0x4000000 0, table 0x4003000 0, table (0x4002000 + 128 * 15) r]
    parts := [{ Part.idle_ with head := 2 ^ 32 - 1, bells := [(0, 100)], templates := [kern12] }] }
def labRing16 (tail : BitVec 64) (head : Nat) : State := { labM with ev := ⟨5, 0, 0, tail, []⟩, parts := List.replicate 5 Part.idle_ ++ [{ Part.idle_ with head := head }] }
theorem test_hyps_LaunchRecords :
    (let s := labRing16 15 (2 ^ 32 - 1)
     s.ev.a = 5 ∧ s.d3hot = false ∧ 4 ≤ s.stage ∧ (s.part 5).halted = false ∧ ¬(s.lqSize 5 < (s.ev.v.toNat % 2 ^ 32 + 2 ^ 32 - (s.part 5).head) % 2 ^ 32) ∧ (s.part 5).waits = []) ∧
    (let s := labRing16 16 (2 ^ 32 - 1); s.lqSize 5 < (s.ev.v.toNat % 2 ^ 32 + 2 ^ 32 - (s.part 5).head) % 2 ^ 32) ∧
    (∀ p ∈ [(1, 0, 0xFFFFFFFF, 0, true), (1, 0, 1023, 0x4003008, true), (0, 9, 0xFFFFFFFF, 0x4003000, true), (2, 9, 0xFFFFFFFF, 0x4003001, true),
        (3, 0, 0xFFFFFFFF, 0x4003000, false), (1, 1, 0xFFFFFFFF, 0x4003000, false), (0, 0, 1024, 0x4003078, false)],
      let s := labRecord (recOf p.1 p.2.1 p.2.2.1 p.2.2.2.1)
      s.ev.a = 0 ∧ Claims.canTake s 0 ∧ s.recordOk 0 (s.recordAt 0) = p.2.2.2.2 ∧ (s.recordAt 0).kind = p.1 ∧ s.poolFree 0 = some 0 ∧
        (s.recordAt 0).wtok = 0xFFFFFFFF ∧ (s.recordAt 0).stok.toNat = p.2.2.1 ∧ (s.recordAt 0).comp.toNat = p.2.2.2.1 ∧ (s.recordAt 0).flags = 1) ∧
    (∀ la ∈ [0x4000000, 0x4003000], residentB (labRecord 0) la = true) ∧ (labRecord 0).lqBase 0 = 0x4000000 := by
  unfold Claims.canTake
  decide +kernel

/-- A context boundary: partition registers and shares. -/
def labShares (a b : Nat) (v : DWord) : State := { State.reset with ev := ⟨a, b, 0, v, []⟩, tkshare := [7, 0, 0, 0, 0, 0, 0x1248], partcfg := 0 }
/-- Domain 0 is live over every slice; the staged words, and the domains that a commit names. -/
def labCommit (mask : List DWord) (tab : List DWord) (doms : DWord) (scan : Option Scan) (l2 : List L2Line) : State :=
  { labM with ev := ⟨0, 0, 0, doms, []⟩, hashmask := mask, slicetab := tab, scan := scan, l2 := l2 }
def committedB (s t : State) (doms : BitVec 16) : Bool :=
  ((List.range 16).all fun d => getP 0 t.hashLive (2 * d) == (if doms.getLsbD d then
      (getP 0 s.hashmask (2 * d) &&& ~~~(0xFF#64 <<< 48)) ||| (BitVec.ofNat 64 ((s.domGen d + 1) % 256) <<< 48) else getP 0 s.hashLive (2 * d)) &&
    getP 0 t.hashLive (2 * d + 1) == if doms.getLsbD d then getP 0 s.hashmask (2 * d + 1) else getP 0 s.hashLive (2 * d + 1)) &&
  (List.range 256).all fun i => getP 0 t.sliceLive i == if doms.getLsbD (i / 16) then getP 0 s.slicetab i else getP 0 s.sliceLive i
theorem committed {s t : State} {doms : BitVec 16} (h : committedB s t doms = true) : Claims.committed s t doms := by
  simp only [committedB, Bool.and_eq_true, List.all_eq_true, beq_iff_eq, List.mem_range] at h
  exact ⟨fun d hd => h.1 d hd, fun i hi => h.2 i hi⟩
def nextMap (s : State) : State := s.withMap (s.nextHash (s.ev.v.setWidth 16)) (s.nextSlices (s.ev.v.setWidth 16))
/-- Both domains 0 and 15 take in GiB 63. -/
def overlapping : State := labCommit (labM.hashLive ++ List.replicate 28 0 ++ [0x80000000003F003F, 0]) [] 0x8000 none []
/-- Domain 0 is committed with its entries reversed; a clean line moves. -/
def reversed : State := labCommit [0x80000000003F0000, 0x1FF] labM.sliceLive.reverse 1 none [lineAt 0 0x4000000]
theorem test_hyps_PartitionsAndInterleaves :
    ((Claims.boundary (labShares 0 0 7) ∧ (labShares 0 0 7).filledSlices = [] ∧ Claims.quiet (labShares 0 0 7) ∧ ¬Claims.boundary lab) ∧
    (∀ i ∈ [0, 6], (labShares i 0 0).ev.a = i) ∧
    (∀ c ∈ [0, 575], Claims.rate (labShares c 0 0) ((labShares c 0 0).partOfSector (sectorOf c)) = 7 ∧ Claims.quiet (labShares c 0 0)) ∧
    Claims.rate { labShares 0 0 0 with tkshare := [] } 0 = 0 ∧
    (labShares 5 0 8).tokensUsed 5 ≤ min 40 ((labShares 5 0 8).ev.v.toNat % 256) ∧
    ((getP 0 (labShares 95 0 2).harvest (9 + 95 / 64)).getLsbD (95 % 64) = false ∧ Claims.boundary (labShares 95 0 2) ∧ 95 ∉ (labShares 95 0 2).filledSlices ∧
      (labShares 95 0 2).l2 = [])) ∧
    (let s := labCommit [] [] 1 (some ⟨100, 1, [], []⟩) []; s.scanBusy = true ∧ s.now = 100) ∧
    (let s := labCommit [] (List.replicate 255 0 ++ [96]) 0x8000 (some ⟨99, 1, [], []⟩) []
     s.scanBusy = false ∧ (s.ev.v.setWidth 16).getLsbD (255 / 16) = true ∧ 95 < (getP 0 s.slicetab 255).toNat % 2 ^ 7) ∧
    (overlapping.scanBusy = false ∧ Claims.committed overlapping (nextMap overlapping) (overlapping.ev.v.setWidth 16) ∧
      winIn ((nextMap overlapping).window 0) 63 = true ∧ winIn ((nextMap overlapping).window 15) 63 = true) ∧
    (reversed.scanBusy = false ∧ reversed.commitBad (nextMap reversed) 1 = false ∧ ∀ x ∈ reversed.l2, x.dirty = false) ∧
    (let s := labCommit [] [] 0 (some ⟨100, 1, [], []⟩) []; s.scan = some ⟨s.now, 1, [], []⟩ ∧ s.reqs = []) :=
  ⟨by unfold Claims.boundary Claims.quiet; decide +kernel,
    by decide +kernel, by decide +kernel, ⟨rfl, committed (by decide +kernel), by decide +kernel, by decide +kernel⟩,
    ⟨rfl, by decide +kernel, by decide +kernel⟩, rfl, rfl⟩


/-- Object 0 is a line at 0x4000000, or with a width that is no multiple of 128; object 1 is enabled at the next line. -/
def labObj (en : Bool) (w : DWord) (tenures : List Tenure) : State :=
  { labM with
    now := 10000, ev := ⟨0, 3, 0, 0x4000000, []⟩, tenures := tenures
    objtab := [if en then 0x8000000004000000 else 0, w, 128, 2, 0, 0, 0, 0, 0x8000000004000080, 0x100000080, 128, 0] }
theorem getP_past {α : Type} (d : α) (l : List α) (n : Nat) (h : l.length ≤ n) : getP d l n = d := by
  induction l generalizing n with
  | nil => rfl
  | cons x l ih =>
    cases n with
    | zero => simp at h
    | succ n => exact ih n (by simpa using h)
theorem obj_valid : Claims.objValid (labObj false 0x100000080 []) 0 0x4000000 := by
  refine ⟨by decide, by decide, by decide, by decide, by decide, ?_⟩
  intro k hk he a
  rcases k with _ | _ | k
  · exact absurd rfl hk
  · rintro ⟨⟨j, h1, h2, h3⟩, ⟨i, h4, h5, h6⟩⟩
    simp [Claims.objReg, labObj, getP, Claims.baseMask] at h1 h2 h3 h4 h5 h6
    omega
  · have e : Claims.objReg (labObj false 0x100000080 []) (k + 1 + 1) 0 = 0 := getP_past _ _ _ (by simp [labObj]; omega)
    rw [e] at he
    cases he
/-- A tenure of object 0 by device 3 whose recall is not answered 6,000 cycles later, one that may not be renewed, and one of a reader. -/
def ten (dev : Nat) (write : Bool) (recalled : Option Nat) (noRenew : Bool) : Tenure := ⟨0, dev, write, 20000, recalled, noRenew⟩
def labTen (c : Nat) (t : Tenure) : State := { labObj true 0x100000080 [t] with ev := ⟨0, 3, c, 0, []⟩ }
def heldRec : Held := ⟨0, true, [⟨0x14000000000, 7, true, 3⟩], 10000⟩
def heldClean : Held := ⟨0, true, [⟨0x14000000000, 7, true, 3⟩, ⟨0x14000000080, 7, false, 2⟩], 10000⟩
/-- Page requests: the last slot of a queue at 0x4200000 holds one for the last page of 4 KiB of a table of level 0, or for address `va`. -/
def labPageW (w va comp : Nat) (a : Nat) (v : DWord) (bytes : List Byte) : State :=
  { labI with
    ev := ⟨a, 0, 0, v, bytes⟩, pageq := [0x4200001], pageDb := [(0, 255), (0, 3)]
    l2 := labI.l2.take 3 ++ [table 0x4100400 (0x3F + 2 ^ 64 * 0x4100601), table 0x4100600 0x4100801, table 0x4100800 0x4100A01, table 0x4100A00 0x4100C01,
      table 0x4100C00 0x4100E01, table 0x4201F80 (BitVec.ofNat 1024 (w * 2 ^ 768 + va * 2 ^ 832 + comp * 2 ^ 896))] ++ imageLines (fun _ => 0) }
def labPage : Nat → Nat → Nat → DWord → List Byte → State := labPageW 0
def mappedB (s : State) : Bool :=
  let a := (getP 0 s.pageq 0 &&& 0xFFFFFFFFFF000).toNat + 32 * 255
  canonical (s.peek (a + 8) 8) && (s.walkTables 0 (s.peek a 4 % 2 ^ 14) (s.peek (a + 8) 8)).leaf.isSome
/-- Page 63 of the table of level 0 under address 2^42. -/
def labPageIn : State := labPage (2 ^ 42 + 63 * 4096) (2 ^ 63) 1 0x4000000 (List.replicate 4096 0x5A)
/-- A compressed page: one cluster of one vertex and one triangle; and a job of the pager for the page of `labPageIn`. -/
def labPacked : State := { labPageW (2 ^ 24) (2 ^ 42 + 63 * 4096) (2 ^ 63) 1 0x4000000 [1, 0, 1, 0, 0, 0, 1] with engbudget := [5] }
def labJob (stage : Nat) (packed : List Byte) : State :=
  { labPage (2 ^ 42 + 63 * 4096) (2 ^ 63) 4 0 [] with
    pageJob := some ⟨0, 0, 2 ^ 42 + 63 * 4096, 2 ^ 63, 0x4000000, packed, 0, stage, 0, 1, false, 0⟩
    leases := [{ leaseRec with team := pagerWarp }], l2 := labPageIn.l2 ++ [table 0x4100F80 0] }
theorem pager_jobs :
    (let s := labPacked
     mappedB s = false ∧ s.ev.a = 1 ∧ (s.leafSlots 0 (2 ^ 42 + 63 * 4096) 0).isSome = true ∧ s.peek (0x4200000 + 32 * 255) 4 / 2 ^ 24 = 1 ∧
      (PageJob.unpacked ⟨0, 0, 2 ^ 42 + 63 * 4096, 2 ^ 63, 0x4000000, s.ev.bytes, 0, 0, 0, 0, false, 0⟩).isSome = true ∧ s.pagerLease = none ∧ s.ev.b % 6 = 0 ∧
      s.classEngines 0 5 ≠ [] ∧ s.budget 0 = 5 ∧ s.sectors = [] ∧ s.fwHalted = false ∧ s.pageJob = none) ∧
    (let s := labJob 0 [1, 0, 1, 0, 0, 0, 1]
     s.fwHalted = false ∧ s.ev.a = 4 ∧ (s.pageJob.bind PageJob.unpacked).map (·.2) = some 3 ∧ s.pagerLease = some 0 ∧ (s.lease 0).ready = true) ∧
    (let s := labJob 2 []
     s.ev.a = 4 ∧ s.leafSlots 0 (2 ^ 42 + 63 * 4096) 0 = some [0x4100E00 + 8 * 63] ∧ (∀ x ∈ s.l2, x.slm = false) ∧
      residentB s ((0x4100E00 + 8 * 63) / 128 * 128) = true) ∧
    (let s := labJob 3 []; s.ev.a = 4 ∧ s.memops = [] ∧ s.cmds = [] ∧ ∀ x ∈ s.warps, x.deliv = []) ∧
    (let s := { labJob 3 [] with ev := ⟨0, 0, 0, 0, []⟩ }; s.pageJob.isSome = true ∧ s.pageDb = [(0, 255), (0, 3)] ∧ s.fwHalted = false) := by decide +kernel
theorem pager_hyps :
    ((getP 0 (labPage 0 0 0 255 []).pageq 0).getLsbD 0 = true ∧ (labPage 0 0 0 255 []).ev.v.toNat = 255) ∧
    (∀ a ∈ [0, 3], (labPage 0x4000000 0x4003004 a 0 []).pageDb = [(0, 255), (0, 3)] ∧ mappedB (labPage 0x4000000 0x4003004 a 0 []) = true) ∧
    mappedB (labPage (2 ^ 63) 0 0 0 []) = false ∧ mappedB labPageIn = false ∧
    (let s := labPage 0x4000000 0x4003004 0 0 []
     canonical 0x4003004 = true ∧ ((s.walkTables 0 0 0x4003004).leaf.map fun e => (e.ex, e.phys 0x4003004)) = some (false, 0x4003004) ∧
      residentB s (0x4003004 / 128 * 128) = true ∧ s.peek (0x4200000 + 32 * 255 + 16) 8 = 0x4003004) ∧
    (labPageIn.leafSlots 0 (2 ^ 42 + 63 * 4096) 0 = some [0x4100E00 + 8 * 63] ∧ canonical (labPageIn.peek (0x4200000 + 32 * 255 + 16) 8) = false ∧
      (0x4100E00 + 8 * 63) % 8 = 0 ∧ 0x4000000 + 4096 ≤ 0x4100E00 + 8 * 63) ∧
    ((List.range 32).all fun i => residentB labPageIn (0x4000000 + 128 * i)) = true := by decide +kernel
theorem test_hyps_ObjectsAndTenures :
    ((Claims.objReg (labObj false 0x100000080 []) 0 0).getLsbD 63 = false ∧ Claims.objValid (labObj false 0x100000080 []) 0 0x4000000 ∧
      (labObj false 0x100000080 []).ev.v &&& Claims.baseMask = 0x4000000) ∧
    ((Claims.objReg (labObj false 0x10000007F []) 0 0).getLsbD 63 = false ∧ ¬Claims.objValid (labObj false 0x10000007F []) 0 0x4000000) ∧
    (∀ ts ∈ [[], [ten 3 false none false]], (Claims.objReg (labObj true 0x100000080 ts) 0 0).getLsbD 63 = true ∧
      ((∃ k ∈ (labObj true 0x100000080 ts).tenures, k.obj = 0) ↔ ts ≠ [])) ∧
    (∀ t ∈ [ten 3 true (some 4000) false, ten 3 true (some 4000) true, ten 3 false none false],
      (labTen 0 t).ev.a = 0 ∧ (labTen 0 t).ev.b = 3 ∧ (labTen 0 t).ev.c = 0 ∧ (labTen 0 t).tenures.find? (fun k => k.obj == 0 && k.dev == 3) = some t ∧
        (labTen 0 t).reqs = []) ∧
    4000 + recallBound 3 = (labTen 0 (ten 3 true (some 4000) false)).now ∧
    (∀ p ∈ [(1, false), (2, false), (2, true)], let s := labTen p.1 (ten 4 p.2 none false)
      s.ev.a = 0 ∧ s.ev.b = 3 ∧ s.ev.c = p.1 ∧ (Claims.objReg s 0 0).getLsbD 63 = true ∧ (Claims.objReg s 0 0).getLsbD 62 = false ∧
        ((∃ k ∈ s.tenures, k.obj = 0 ∧ k.dev ≠ 3 ∧ (k.write = true ∨ p.1 = 2)) ↔ p.1 = 2)) ∧
    (let s : State := { labTen 0 (ten 3 true none false) with held := [heldRec] }
     s.ev.a = 0 ∧ s.held.find? (fun h => h.obj == 0) = some heldRec ∧ heldRec.lapse ≤ s.now ∧ heldRec.lines = [⟨0x14000000000, 7, true, 3⟩] ∧ s.ev.c ≠ 1) ∧
    (let s : State := { labTen 0 (ten 3 true none false) with held := [heldClean], ev := ⟨0, 2, 1, 0x14000000080, []⟩ }
     s.ev.a = 0 ∧ s.held.find? (fun h => h.obj == 0) = some heldClean ∧ s.ev.c = 1 ∧ s.ev.v.toNat / 128 * 128 = 0x14000000080 ∧ s.ev.b = 2 ∧
      ∀ l ∈ heldClean.lines, l.addr = 0x14000000080 → l.gen.toNat = 2 → l.dirty = false) ∧
    (let s : State := { labTen 5 (ten 3 true none false) with ev := ⟨0, 3, 5, 0x400007F, []⟩ }
     s.ev.a = 0 ∧ s.ev.b = 3 ∧ s.ev.c = 5 ∧ s.ev.v.toNat / 128 * 128 = 0x4000000 ∧ s.inObject 0 0x4000000 = true ∧
      s.tenures.find? (fun k => k.obj == 0 && k.dev == 3) = some (ten 3 true none false)) ∧
    ((getP 0 (labPage 0 0 0 255 []).pageq 0).getLsbD 0 = true ∧ mappedB (labPage 0x4000000 0x4003004 0 0 []) = true ∧ labPageIn.ev.bytes.length = 2 ^ 12 ∧
      labPageIn.fwHalted = false ∧ labPageIn.pageJob = none ∧ labPageIn.peek (0x4200000 + 32 * 255) 4 / 2 ^ 24 = 0 ∧ ∀ x ∈ labPageIn.l2, x.slm = false) :=
  ⟨⟨by decide, obj_valid, by decide⟩, ⟨by decide, fun h => absurd h.2.2.1 (by decide)⟩, by decide +kernel, by decide +kernel, by decide +kernel, by decide +kernel,
    by decide +kernel, by decide +kernel, by decide +kernel, by decide +kernel, pager_hyps.2.1 0 (by simp) |>.2, List.length_replicate, rfl, rfl, by decide +kernel,
    by decide +kernel⟩

/-- Bank 63 of layer `l` of stack 1 is lost; the columns are as they are. -/
def labBank (l mode : Nat) : State :=
  { lab with
    ev := ⟨1, 63, l, 0, []⟩, capmap := List.replicate 18 (1 <<< 63)
    columns := List.replicate 127 Column.whole ++ [{ Column.whole with mode := mode }] }
def labGlean (g : Nat) : State :=
  { lab with ev := ⟨1, 63, 0, 0, []⟩, columns := List.replicate 127 Column.whole ++ [{ Column.whole with mode := 1, lost := 2, glean := g, gleanAt := 100 }] }
def labRemap (r : RemapSt) : State := { State.reset with ev := ⟨1, 0, 0, 0x2FF, []⟩, remaps := [.none, r] }
/-- A request to device 5, whose link is 15. -/
def labLink : State :=
  { lab with
    ev := ⟨15, 0, 0, 0, []⟩, drcfg := 1 <<< 31, drroute := [0, 0, 0, 0, 0, 0x80008000], agenda := [⟨100, .ev .requestArrival ⟨0, 0, 0, 0, []⟩⟩]
    memops := [{ MemOp.idle with live := true }], reqs := [{ Req.idle with live := true, line := 5 * 2 ^ 42 }] }.onTeam 0 fun k => { k with ctx := 9, gridId := 9 }
theorem test_hyps_MemoryAndLinkHealth :
    (∀ p ∈ [(8, 0), (7, 0), (0, 1)], let s := labBank p.1 p.2
      s.ev.a = 1 ∧ s.ev.b = 63 ∧ s.ev.c = p.1 ∧ Claims.bankOn s 1 63 p.1 = true ∧ (Claims.column s 1 63).mode = p.2 ∧ (Claims.column s 1 63).parity = 8) ∧
    (∀ g ∈ [786430, 786431], (labGlean g).ev.a = 1 ∧ (labGlean g).ev.b = 63 ∧ (Claims.column (labGlean g) 1 63).mode = 1 ∧
      (Claims.column (labGlean g) 1 63).gleanAt = (labGlean g).now ∧ (Claims.column (labGlean g) 1 63).glean = g) ∧
    (∀ r ∈ [.none, .waiting, .running 0], (labRemap r).ev.a = 1 ∧ (labRemap r).remapSt 1 = r ∧ (labRemap r).teams = [] ∧ (labRemap r).grids = [] ∧
      (labRemap r).tiles = [] ∧ (labRemap r).now = 0) ∧
    (labLink.ev.a = 15 ∧ labLink.ev.b = 0 ∧ labLink.linkOf (labLink.req 0).line = some 15 ∧ labLink.drcfg.getLsbD (16 + 15) = true ∧
      labLink.ctxOf (labLink.memop (labLink.req 0).op).warp = 9 ∧ ({ labLink with drcfg := 0 } : State).drcfg.getLsbD 31 = false) ∧
    (let s : State := { labLink with ev := ⟨5, 0, 0, 0, []⟩ }
     (s.part (s.partOfSector (s.ev.a % 6))).halted = false ∧ (s.team 0).live = true ∧ (s.team 0).part = s.partOfSector 5 ∧ (s.team 0).ctx = 9) ∧
    ({ lab with parts := [{ Part.idle_ with halted := true }] }.part 0).halted = true := by decide +kernel
theorem link_delayed : Claims.delayed labLink 15 0 false ⟨100, .ev .requestArrival ⟨0, 0, 0, 0, []⟩⟩ :=
  ⟨5 * 2 ^ 42, 0, .inl ⟨⟨0, 0, 0, 0, []⟩, .inl ⟨rfl, rfl⟩, rfl, rfl, rfl⟩, by decide +kernel, by decide⟩
/-- An acknowledgement on the same link, and an item that reads over it. -/
def labBack : State :=
  { labLink with
    ev := ⟨15, 0, 1, 0, []⟩, agenda := [⟨100, .ev .requestArrival ⟨0, 0, 0, 0, []⟩⟩, ⟨100, .ev .storeAcknowledge ⟨0, 0, 0, 0, []⟩⟩]
    cmds := [{ Cmd.idle with live := true, flight := [⟨0, ⟨0, 100, [], some ⟨0, 5 * 2 ^ 42, LineAttr.none_, true, false, 0⟩⟩, none⟩] }] }
theorem link_back : Claims.delayed labBack 15 0 true ⟨100, .ev .storeAcknowledge ⟨0, 0, 0, 0, []⟩⟩ :=
  ⟨5 * 2 ^ 42, 0, .inl ⟨⟨0, 0, 0, 0, []⟩, .inr (.inr ⟨by decide, rfl, rfl⟩), rfl, rfl, rfl⟩, by decide +kernel, by decide⟩
theorem link_item : ∃ it ∈ (labBack.cmd 0).flight, (100 ≤ it.read.due ∧
    ∃ a, it.read.ask = some a ∧ a.left = true ∧ a.refl = false ∧ labBack.linkOf (a.pa / 128 * 128) = some 15) ∧ labBack.linkOf (labBack.req 0).line = some 15 :=
  ⟨_, .head _, ⟨by decide, _, rfl, rfl, rfl, by decide +kernel⟩, by decide +kernel⟩


/-- A device that a power state or a stage is asked of. -/
def labPower (a b : Nat) (v : DWord) (bs : List Byte) : State := { State.reset with ev := ⟨a, b, 0, v, bs⟩, pwrctl := 1100 + (500 <<< 48) + (500 <<< 32) }
theorem test_hyps_PowerAndBringUp :
    (∀ n ∈ [275, 1100], let s := labPower 0 0 (BitVec.ofNat 64 n) []
      s.teams = [] ∧ s.ev.v.toNat % 2 ^ 11 = n ∧ 275 ≤ n ∧ n ≤ 1100 ∧ n % 25 = 0) ∧
    (∀ w ∈ [500, 501], let s := labPower w 0 0 []
      s.ev.a = w ∧ w < 2 ^ 16 ∧ Claims.limitW s.pwrctl = 500 ∧ Claims.drawW s.pwrctl ≤ 500) ∧
    (State.reset.teams = [] ∧ State.reset.grids = [] ∧ lab.teams.any (·.live) = true) ∧
    (State.reset.trip = false ∧ ({ lab with trip := true } : State).trip = true ∧ ({ lab with trip := true } : State).agenda = []) ∧
    (let s : State := { lab with trip := true, agenda := [⟨100, .ev .clockSet EvArg.none_⟩] }
     s.trip = true ∧ s.agenda = [⟨100, .ev .clockSet EvArg.none_⟩]) ∧
    (∀ k < 4, ∀ f ∈ [0, 15], let s : State := { labPower k f 0 [] with stage := k, measurement := [1] }
      s.ev.a = s.stage ∧ s.stage < 4 ∧ s.fail = 0 ∧ s.d3hot = false ∧ s.fwHalted = false ∧ s.ev.b % 16 = f ∧ s.measurement ≠ []) ∧
    (labPower 0 0 0 []).measurement = [] ∧ ({ labPower 4 0 0 [] with stage := 4 } : State).stage = 4 ∧
    (∀ k ∈ [[], [1]], let s : State := { labPower 0 0 0 (List.replicate 265 7) with measurement := k, stage := 1 }
      s.trip = false ∧ s.d3hot = false ∧ s.fwHalted = false ∧ s.stage ≤ 1 ∧ s.ev.bytes.length = 265 ∧ s.measurement = k) := by
  decide +kernel

/-- A module of one section: its code is one `NOP`. -/
def nopModule : List Byte :=
  [0x53, 0x4E, 0x53, 0x59, 3, 0, 0, 0, 1, 0, 0, 0, 32, 0, 0, 0, 0, 0, 0, 0, 32, 0, 0, 0, 0, 0, 0, 0, 0, 0, 0, 0] ++
    [1, 0, 0, 0, 48, 0, 0, 0, 4, 0, 0, 0, 4, 0, 0, 0] ++ [1, 0, 0, 0]
def labMail (stage : Nat) (bs : List Byte) : State := { labPower 0 0x4000000 0 bs with stage := stage }
theorem nop_module : ∃ m l, finalise nopModule ⟨0x4000000, 0, 0⟩ 0 = .ok (m, l) ∧ l.code = [4, 0, 0, 0, 0, 0, 0, 0] ∧ l.templates = [] :=
  ⟨_, _, rfl, by decide +kernel, by decide +kernel⟩
theorem test_hyps_Mailbox :
    (∀ k < 5, (labMail k []).trip = false ∧ (labMail k []).d3hot = false ∧ (labMail k []).fwHalted = false ∧ (labMail k []).ev.bytes = [] ∧ (labMail k []).stage = k) ∧
    (({ labMail 4 [] with d3hot := true } : State).d3hot = true ∧ ({ labMail 4 [] with fwHalted := true } : State).fwHalted = true) ∧
    (∀ n ∈ [1, 31, 63, 64, 65], (labMail 1 (List.replicate n 0)).ev.bytes.length = n) ∧
    (let m := [0x53, 0x4E, 0x53, 0x59, 2, 0] ++ List.replicate 26 (0 : Byte)
     (labMail 2 m).ev.bytes.length = 32 ∧ (labMail 2 m).ev.bytes.take 6 = [0x53, 0x4E, 0x53, 0x59, 2, 0]) ∧
    (labMail 2 nopModule).stage = 2 ∧
      ∃ m l, finalise (labMail 2 nopModule).ev.bytes ⟨(labMail 2 nopModule).ev.b / 4096 * 4096, (labMail 2 nopModule).ev.v.toNat / 4096 * 4096,
        (labMail 2 nopModule).ev.c / 4096 * 4096⟩ ((labMail 2 nopModule).bins.filter fun b => b.live && b.part == 0).length = .ok (m, l) :=
  ⟨by decide +kernel, by decide +kernel, by decide +kernel, by decide +kernel, rfl, (nop_module.imp fun _ h => h.imp fun _ k => k.1)⟩


/-- Warp 0 is next; its lanes run at `pc`, in the line that holds a word `w` at 0 and one at 24. -/
def labFetch (pc : DWord) (d : BitVec 1024) : State :=
  { labW fun x => { x.mapLanes fun _ y => { y with pc := pc } with choice := none } with icache := [⟨0, 0, d⟩] }
def labSector (pc : DWord) : State :=
  { labFetch pc 4 with tlb := [⟨576, 0, false, 0x10000000, 0x4000000, 4, false, false, false, false, 0⟩, ⟨0, 0, false, 0, 0, 0, true, false, false, false, 0⟩,
    ⟨0, 0, false, 0x20000000, 0, 4, false, false, false, false, 0⟩, ⟨0, 0, false, 0x1000, 0x4000000, 0, true, false, false, false, 0⟩] }
def pcOf (s : State) : DWord := (s.warp 0).selection.2
/-- The translation of the next fetch, and the outcome of its look-up. -/
def xlateAt (s : State) : State × Xlate := s.coreLookup (s.partOf 0) (s.warp 0).core (s.team (s.warp 0).team).asid (pcOf s).toNat s.now
def lineOk (s : State) : Bool × Bool × Nat :=
  match (xlateAt s).2.ent with
  | none => (false, false, 0)
  | some e =>
    match ((xlateAt s).1.codeLine (s.partOf 0) (s.warp 0).core (e.phys (pcOf s).toNat)).2 with
    | .error c => (false, false, c)
    | .ok d =>
      let k := 128 - e.phys (pcOf s).toNat % 128
      let bs := toBytes k (lineGet d (e.phys (pcOf s).toNat % 128) k)
      (true, match decode bs with
        | .error _ => true
        | .ok _ => false, (pcOf s).toNat % 32 + formBytes ((bs.headD 0).toNat % 4))
theorem test_hyps_FetchFaults :
    (∀ pc ∈ [2, 0x8000000000000000, 0, 4, 24, 28, 0x10000000, 0x20000000, 0x30000000, 0x1000], let s := labSector (BitVec.ofNat 64 pc)
      s.trip = false ∧ s.ph = 2 ∧ s.nextWarp = some 0 ∧ (s.warp 0).choice = none ∧ (s.warp 0).selection = (BitVec.allOnes 64, BitVec.ofNat 64 pc) ∧
        (s.warp 0).hmode = false ∧ (s.warp 0).acq = none) ∧
    (let s := { labSector 0x10000000 with tlb := [⟨576, 0, false, 0x10000000, 0x4000000, 4, true, false, false, false, 0⟩] }
     (xlateAt s).2.ent.map (·.ex) = some true ∧ s.now < (xlateAt s).2.ready ∧ (s.warp 0).busyTo ≠ s.now) ∧
    canonical 0x8000000000000000 = false ∧ canonical 0xFF00000000000000 = true ∧ canonical 0xFFFFFFFFFFFFFF = true ∧
    ((xlateAt (labSector 0x30000000)).2.ent = none ∧ (xlateAt (labSector 0x30000000)).2.cls = 4 ∧ 100 < (xlateAt (labSector 0x30000000)).2.ready) ∧
    (((xlateAt (labSector 0x20000000)).2.ent.map (·.ex)) = some false ∧ (xlateAt (labSector 0x20000000)).2.ready = 100) ∧
    (((xlateAt (labSector 0x10000000)).2.ent.map (·.ex)) = some false ∧ (xlateAt (labSector 0x10000000)).2.ready = 140) ∧
    ((xlateAt { labSector 0x1000 with capmap := labM.capmap, hashLive := labM.hashLive, sliceLive := labM.sliceLive }).2.ent.map (·.ex)) = some true ∧
    lineOk { labSector 0x1000 with capmap := labM.capmap, hashLive := labM.hashLive, sliceLive := labM.sliceLive } = (false, false, 3) ∧
    lineOk (labSector 0) = (true, false, 8) ∧ (lineOk (labSector 28)).2.2 = 36 ∧ lineOk (labFetch 24 (0x3FC <<< 192)) = (true, true, 32) ∧
    (readyB labMH .srd (oSrd 0 0) = true ∧ (shape (.srd (oSrd 0 0))).maj = 0xDC ∧ privileged 0xDC (oSrd 0 0) = true ∧
      lab.me.regsOk (shape (.srd (oSrd 0 0))) (oSrd 0 0) = true ∧ lab.me.hmode = false) := by decide +kernel

/-- The fetch of an `FADD` that ends its block, its sources in the operand queue. -/
def labRun : State := (labFetch 24 (0x0000000181410540 <<< 192)).onWarp 0 fun x => { x with oq := [(5, 0), (6, 0)] }
def faddR : Instr := .fadd (bareOps 1 0 4 5 6 0)
def decodesTo (bs : List Byte) (i : Instr) (n : Nat) : Bool :=
  match decode bs with
  | .ok (j, r) => j == i && r.length == n
  | .error _ => false
theorem test_hyps_StepRunsDecoded :
    (labRun.trip = false ∧ labRun.ph = 2 ∧ labRun.nextWarp = some 0 ∧ (labRun.warp 0).choice = none ∧ (labRun.warp 0).acq = none ∧ (xlateAt labRun).2.ready ≤ labRun.now ∧ (labRun.warp 0).selection = (BitVec.allOnes 64, 24)) ∧
    ((xlateAt labRun).2.ent.map (·.ex) = some true ∧ lineOk labRun = (true, false, 32) ∧
      decodesTo (toBytes 104 (lineGet (0x0000000181410540 <<< 192 : BitVec 1024) 24 104)) faddR 96 = true) ∧
    (let v := ((xlateAt labRun).1.codeLine 0 0 24).1
     let t : State := { v with cur := 0, act := BitVec.allOnes 64, issued := true, ipc := 24, npc := 32 }
     (∀ k < 4, (getP 0 v.dbgctl (v.partOf 0)).getLsbD (2 + k) = false) ∧ v.scoreboard 0 (keysOf (v.warp 0).hmode faddR) = false ∧ t.slow faddR = false) ∧
    (lab.icache.find? (fun x => x.core == 0 && x.addr == lineOf 127)).isSome = true ∧
    (let s : State := { lab with ph := 1, agenda := [⟨100, .ev .clockSet EvArg.none_⟩, ⟨100, .ev .d0Entry EvArg.none_⟩] }
     s.trip = false ∧ s.ph = 1 ∧ s.agenda = ⟨100, .ev .clockSet EvArg.none_⟩ :: [⟨100, .ev .d0Entry EvArg.none_⟩] ∧ 100 ≤ s.now) := by decide +kernel
theorem test_hyps_RoundTrip : (Instr.fadd o2).encodable = true ∧ (Instr.fadd o2).wf = true := by decide
def goesOn (s : State) : Bool :=
  match step s with
  | .next _ => true
  | _ => false
theorem goes_on {s : State} (h : goesOn s = true) : ∃ t, step s = .next t := by
  unfold goesOn at h
  split at h
  · next t e => exact ⟨t, e⟩
  · cases h
theorem test_hyps_StepKeepsMemory : Claims.canonicalMemory lab ∧ ∃ t, step lab = .next t := ⟨⟨rfl, rfl, by decide⟩, goes_on (by decide +kernel)⟩

end Sys2Proof.Tests
end

section
/-!
PROOFS. The step of a warp in its turn, and of a due action of the agenda (02 R414; 07 R160, R161; 20 R412).
-/
namespace Sys2Proof.Machine

/-! ## A fetch -/

/-- An instruction decoded from some bytes, and the bytes left, are those of its form's length (07 R159). -/
theorem decode_length {bs rest : List Byte} {i : Instr} (h : decode bs = .ok (i, rest)) :
    ∃ b r, bs = b :: r ∧ formBytes (b.toNat % 4) = bs.length - rest.length := by
  unfold decode at h
  split at h
  · cases h
  · rename_i b r
    dsimp only at h
    split at h
    · cases h
    · rename_i hlen
      split at h
      · cases h
        exact ⟨b, r, rfl, by rw [List.length_drop]; omega⟩
      · cases h

/-- Steps 6 and 7 of 07 R161 on bytes that decode and lie in their 32-byte block. -/
theorem decodeAt_eq {pc : DWord} {bs rest : List Byte} {i : Instr} (h : decode bs = .ok (i, rest))
    (hfit : pc.toNat % 32 + (bs.length - rest.length) ≤ 32) : decodeAt pc bs = .ok (i, bs.length - rest.length) := by
  obtain ⟨b, r, rfl, hn⟩ := decode_length h
  simp only [decodeAt, hn, if_neg (Nat.not_lt.2 hfit), h]

/-! ### A lookup takes no time of the state -/

theorem State.walkReads_now (s : State) (p sec : Nat) (rs : List Nat) (t : Nat) : (s.walkReads p sec rs t).1.now = s.now := by
  induction rs generalizing s t with
  | nil => rfl
  | cons a r ih =>
    have hread : (s.walkRead p sec a t).1.now = s.now := by
      unfold State.walkRead
      split
      · split <;> rfl
      · rfl
      · rfl
    exact (ih _ _).trans hread

theorem State.startWalk_now (s : State) (p sec : Nat) (cores : List Nat) (asid va t : Nat) :
    (s.startWalk p sec cores asid va t).1.now = s.now :=
  State.walkReads_now s p sec _ _

theorem State.sectorLookup_now (s : State) (p sec : Nat) (cores : List Nat) (asid va t : Nat) :
    (s.sectorLookup p sec cores asid va t).1.now = s.now := by
  unfold State.sectorLookup
  split
  · rename_i e _
    exact List.foldlRecOn cores _ (motive := fun u : State => u.now = s.now) rfl fun _ hu _ _ => hu
  · split
    · rfl
    · exact s.startWalk_now p sec cores asid va t

/-- A lookup keeps the cycle: what it waits for is in its answer. -/
theorem State.coreLookup_now (s : State) (p core asid va t : Nat) : (s.coreLookup p core asid va t).1.now = s.now := by
  unfold State.coreLookup
  split
  · rfl
  · exact s.sectorLookup_now p _ _ asid va _

/-- The bytes of a line at an address, as many as the line still holds. -/
def bytesFrom (d : BitVec 1024) (pa : Nat) : List Byte := toBytes (128 - pa % 128) (lineGet d (pa % 128) (128 - pa % 128))

theorem bytesFrom_length (d : BitVec 1024) (pa : Nat) : (bytesFrom d pa).length = 128 - pa % 128 := toBytes_length _ _

/-- A fetch whose translation is ready, in a line that the core reads (07 R161). -/
theorem State.fetch_got {s u v : State} {w : Nat} {pc : DWord} {tr : Xlate} {e : TlbEnt} {d : BitVec 1024} {i : Instr} {n : Nat}
    (halign : pc.toNat % 4 = 0) (hcan : canonical pc.toNat = true)
    (hlook : s.coreLookup (s.partOf w) (s.warp w).core (s.team (s.warp w).team).asid pc.toNat s.now = (u, tr))
    (hent : tr.ent = some e) (hex : e.ex = true) (hready : tr.ready ≤ s.now ∨ (s.warp w).busyTo = s.now)
    (hline : u.codeLine (s.partOf w) (s.warp w).core (e.phys pc.toNat) = (v, .ok d))
    (hdec : decodeAt pc (bytesFrom d (e.phys pc.toNat)) = .ok (i, n)) : s.fetch w pc = .got v i n := by
  have hnow : u.now = s.now := by
    have := s.coreLookup_now (s.partOf w) (s.warp w).core (s.team (s.warp w).team).asid pc.toNat s.now
    rwa [hlook] at this
  have hwait : (decide (s.now < tr.ready) && (s.warp w).busyTo != s.now) = false := by
    rcases hready with h | h
    · simp [Nat.not_lt.2 h]
    · simp [h]
  unfold bytesFrom at hdec
  simp only [State.fetch, halign, hcan, hlook, hent, hex, hnow, hwait, hline, hdec, ne_eq, not_true_eq_false, Bool.not_true,
    Bool.false_eq_true, ↓reduceIte]

/-! ## The turn of a warp -/

/-- No breakpoint stops a warp at an address (15 R333). -/
def State.unbroken (s : State) (w : Nat) (pc : DWord) : Prop :=
  (s.warp w).hmode = true ∨ (s.warp w).dbgSkip = true ∨ s.selected w = false ∨
    ∀ k < 4, (getP 0 s.dbgctl (s.partOf w)).getLsbD (2 + k) = true → getP 0 s.bkaddr k ≠ pc

theorem State.breakAt_none {s : State} {w : Nat} {pc : DWord}
    (h : ∀ k < 4, (getP 0 s.dbgctl (s.partOf w)).getLsbD (2 + k) = true → getP 0 s.bkaddr k ≠ pc) : s.breakAt w pc = none := by
  simpa [State.breakAt, List.find?_eq_none] using h

/-- A fetched instruction that no breakpoint, no result and no operand holds back is run. -/
theorem State.tryInstr_run {s : State} {w n : Nat} {act : BitVec 64} {pc : DWord} {i : Instr} (hb : s.unbroken w pc)
    (hsb : s.scoreboard w (keysOf (s.warp w).hmode i) = false) (hslow : (s.ready w act pc n).slow i = false) :
    s.tryInstr w act pc i n = .run i (s.ready w act pc n) := by
  have hnone : (if (s.warp w).hmode || (s.warp w).dbgSkip || !s.selected w then none else s.breakAt w pc) = none := by
    rcases hb with h | h | h | h
    · simp [h]
    · simp [h]
    · simp [h]
    · simp [State.breakAt_none h]
  simp only [State.tryInstr, hnone, hsb, hslow, Bool.false_and, Bool.false_eq_true, ↓reduceIte]

/-- In the part of the cycle in which the quarters issue, the step is the try of the next warp (02 R414). -/
theorem step_warp {s : State} {w : Nat} (htrip : s.trip = false) (hph : s.ph = 2) (hw : s.nextWarp = some w) : step s = runTry w s := by
  have hplan : s.plan = (.warp w, { s with ph := 2 }) := by simp [State.plan, hph, hw]
  have hs : { s with ph := 2 } = s := by rw [← hph]
  rw [step, hplan, hs]
  simp [htrip]

/-! ## The agenda -/

/-- An action of the agenda that is due and is no arrival of a request is taken when no trip is due. -/
theorem State.takeDue_head {s : State} {d : Due} {r : List Due} (hag : s.agenda = d :: r) (hdue : d.at_ ≤ s.now)
    (htrip : s.tripDue = none) (harr : s.arrivalOf d = none) : s.takeDue = some (d.act, { s with agenda := r }) := by
  have hplace : s.duePlace d = (0, 0) := by simp [State.duePlace, htrip, harr]
  simp [State.takeDue, hag, Nat.not_lt.2 hdue, hplace, dropAt]

theorem State.tripDue_none {s : State} (h : ∀ d ∈ s.agenda, d.at_ ≤ s.now → ∀ y, d.act ≠ .ev .overTemperatureTrip y) : s.tripDue = none := by
  simp only [State.tripDue, List.findIdx?_eq_none_iff, Bool.and_eq_false_iff, decide_eq_false_iff_not]
  intro d hd
  by_cases hdue : d.at_ ≤ s.now
  · right
    unfold Due.isTrip
    split
    · exact absurd ‹_› (h d hd hdue _)
    · rfl
  · exact .inl hdue

theorem State.arrivalOf_none (s : State) {i : Instr} (at_ : Nat) (x : EvArg) (h : i ≠ .requestArrival) : s.arrivalOf ⟨at_, .ev i x⟩ = none := by
  unfold State.arrivalOf
  split
  · rename_i heq
    cases heq
    exact absurd rfl h
  · rfl

/-- The step that takes an action in the part of the cycle in which arrivals and completions are due. -/
theorem step_due {s t : State} {a : Act} (htrip : s.trip = false) (hph : s.ph = 1) (hd : s.takeDue = some (a, t)) (hkeep : t.ph = 1) :
    step s = runAct a t := by
  have hplan : s.plan = (.act a, { t with ph := 1 }) := by simp [State.plan, hph, hd]
  have ht : { t with ph := 1 } = t := by rw [← hkeep]
  rw [step, hplan, ht]
  simp [htrip]

/-- Settles O32: the fetch finds the decoded instruction, and nothing between it and its execution holds it back; an action of the agenda is
taken where it stands first. -/
theorem stepRunsDecoded : Obligations.StepRunsDecoded := by
  unfold Obligations.StepRunsDecoded
  refine ⟨?_, ?_, ?_⟩
  · intro s u v w act pc tr e d i rest htrip hph hw x p k n q t hacq hchoice hsel hready halign hcan hlook hent hex hline hdec hfit
      hbreak hsb hslow
    have hlen : (bytesFrom d (e.phys pc.toNat)).length - rest.length = n := by rw [bytesFrom_length]
    have hfetch : s.fetch w pc = .got v i n :=
      State.fetch_got halign hcan hlook hent hex hready hline (hlen ▸ decodeAt_eq hdec (hlen ▸ hfit))
    have hrun : v.tryInstr w act pc i n = .run i t := State.tryInstr_run hbreak hsb hslow
    have htry : s.tryWarp w = .run i t := by
      simp only [State.tryWarp, show (s.warp w).acq = none from hacq, show (s.warp w).choice = none from hchoice,
        show (s.warp w).selection = (act, pc) from hsel, hfetch, hrun]
    rw [step_warp htrip hph hw, runTry, htry]
  · intro s p core pa c hfind
    simp only [State.codeLine, hfind]
  · intro s at_ i x r htrip hph hag hdue hi hno
    have htake := State.takeDue_head hag hdue (State.tripDue_none hno) (s.arrivalOf_none at_ x hi)
    rw [step_due htrip hph htake hph]
    rfl

end Sys2Proof.Machine
end

section
/-!
PROOFS. The end of warps, teams and grids, the release of held threads, and the greed limit (02 R28, R34, R42, R48, R53; 08 R200).
-/
namespace Sys2Proof.Machine

/-! ## What the upkeep of a team leaves alone -/

/-- Two records of a warp that agree on whether it lives, its team, its threads and its scalar registers. -/
structure Warp.Alike (x y : Warp) : Prop where
  live : y.live = x.live
  team : y.team = x.team
  lanes : y.lanes = x.lanes
  scalars : y.s = x.s

theorem Warp.Alike.refl (x : Warp) : x.Alike x := ⟨rfl, rfl, rfl, rfl⟩
theorem Warp.Alike.trans {x y z : Warp} (h : x.Alike y) (k : y.Alike z) : x.Alike z :=
  ⟨k.live.trans h.live, k.team.trans h.team, k.lanes.trans h.lanes, k.scalars.trans h.scalars⟩

/-- The second state has the cycle, the teams, the grids, the bins and the partitions of the first, and its warps but for what they wait for. -/
structure State.Keeps (s t : State) : Prop where
  now : t.now = s.now
  teams : t.teams = s.teams
  grids : t.grids = s.grids
  bins : t.bins = s.bins
  parts : t.parts = s.parts
  warps : ∀ v, (s.warp v).Alike (t.warp v)

namespace State.Keeps

theorem refl (s : State) : s.Keeps s := ⟨rfl, rfl, rfl, rfl, rfl, fun _ => .refl _⟩
theorem trans {s t u : State} (h : s.Keeps t) (k : t.Keeps u) : s.Keeps u :=
  ⟨k.now.trans h.now, k.teams.trans h.teams, k.grids.trans h.grids, k.bins.trans h.bins, k.parts.trans h.parts,
    fun v => (h.warps v).trans (k.warps v)⟩
theorem foldl {α : Type} {f : State → α → State} (h : ∀ s a, State.Keeps s (f s a)) (s : State) (l : List α) : s.Keeps (l.foldl f s) :=
  List.foldlRecOn l f (motive := s.Keeps) (refl s) fun t ht a _ => ht.trans (h t a)
/-- An operation that touches none of the six tables. -/
theorem aside {s t : State} (now : t.now = s.now) (teams : t.teams = s.teams) (grids : t.grids = s.grids) (bins : t.bins = s.bins)
    (parts : t.parts = s.parts) (warps : t.warps = s.warps) : s.Keeps t :=
  ⟨now, teams, grids, bins, parts, fun v => by unfold State.warp; rw [warps]; exact .refl _⟩
theorem onWarp {s : State} {w : Nat} {f : Warp → Warp} (h : (s.warp w).Alike (f (s.warp w))) : s.Keeps (s.onWarp w f) := by
  refine ⟨rfl, rfl, rfl, rfl, rfl, fun v => ?_⟩
  by_cases hv : v = w
  · subst hv
    rwa [State.onWarp, State.warp_setWarp_same]
  · rw [State.onWarp, State.warp_setWarp_ne _ _ _ _ hv]
    exact .refl _

theorem team {s t : State} (h : s.Keeps t) (k : Nat) : t.team k = s.team k := by unfold State.team; rw [h.teams]
theorem bin {s t : State} (h : s.Keeps t) (b : Nat) : t.bin b = s.bin b := by unfold State.bin; rw [h.bins]
theorem part {s t : State} (h : s.Keeps t) (p : Nat) : t.part p = s.part p := by unfold State.part; rw [h.parts]

end State.Keeps

theorem State.onTile_keeps (s : State) (a : Nat) (f : Tile → Tile) : s.Keeps (s.onTile a f) := .aside rfl rfl rfl rfl rfl rfl
theorem State.closeTile_keeps (s : State) (a : Nat) : s.Keeps (s.closeTile a) := by
  unfold State.closeTile
  split
  · exact .aside rfl rfl rfl rfl rfl rfl
  · exact .refl s
theorem State.dropRef_keeps (s : State) (a : Nat) : s.Keeps (s.dropRef a) := by
  have htile := s.onTile_keeps a fun t => { t with refs := t.refs - 1 }
  unfold State.dropRef
  dsimp only
  split
  · split
    · exact htile.trans (State.closeTile_keeps _ a)
    · exact htile
  · exact htile
theorem State.dropRefs_keeps (s : State) (w : Nat) : s.Keeps (s.dropRefs w) :=
  (State.Keeps.foldl State.dropRef_keeps s _).trans (.onWarp ⟨rfl, rfl, rfl, rfl⟩)

theorem breakStep_keeps (s : State) (w kase v : Nat) : s.Keeps (breakStep w kase s v) := by
  unfold breakStep
  split
  · exact .onWarp ⟨rfl, rfl, rfl, rfl⟩
  · exact .refl s
theorem State.breakSheaf_keeps (s : State) (w kase : Nat) : s.Keeps (s.breakSheaf w kase) := by
  rw [State.breakSheaf_eq]
  exact .foldl (fun t v => breakStep_keeps t w kase v) s _

theorem State.freeLease_keeps (s : State) (l : Nat) (st : EngSt) : s.Keeps (s.freeLease l st) := by
  rw [State.freeLease_rest]
  exact .aside rfl rfl rfl rfl rfl rfl
theorem State.endLeases_keeps (s : State) (t : Nat) : s.Keeps (s.endLeases t) := by
  refine .foldl (fun u l => ?_) s _
  split
  · exact u.freeLease_keeps l _
  · exact .refl u
theorem State.dropSaves_keeps (s : State) (f : SavedTeam → Bool) : s.Keeps (s.dropSaves f) :=
  (State.Keeps.foldl State.dropRef_keeps s _).trans (.aside rfl rfl rfl rfl rfl rfl)

/-! ## The agenda and the barrier -/

theorem mem_insertDue (d : Due) (l : List Due) : d ∈ insertDue d l := by
  induction l with
  | nil => simp [insertDue]
  | cons x l ih =>
    simp only [insertDue]
    split
    · simp
    · exact List.mem_cons_of_mem x ih

/-- A phase that completes takes the arrivals of its warps, and counts in its team (09 R242). -/
theorem State.checkBarrier_cases (s : State) (t : Nat) :
    s.checkBarrier t = s ∨ ∃ u, s.Keeps u ∧ s.checkBarrier t = u.onTeam t fun k => { k with phase := k.phase + 1, phaseAt := u.now } := by
  unfold State.checkBarrier
  dsimp only
  split
  · exact .inl rfl
  · exact .inr ⟨_, .foldl (fun u w => .onWarp ⟨rfl, rfl, rfl, rfl⟩) s _, rfl⟩

/-! ## A warp retires -/

theorem exec_warpRetire (s : State) : exec .warpRetire s = execWarpRetire s := rfl

/-- The state after a warp has retired, its team not yet looked at. -/
def State.warpOver (s : State) (w : Nat) : State :=
  (((s.dropRefs w).breakSheaf w 3).onWarp w fun x => { x with live := false, rdv := none, stalled := none }).checkBarrier (s.warp w).team

theorem State.canRetire_of {s : State} {w : Nat} (hlive : (s.warp w).live = true) (hmode : (s.warp w).hmode = false) (hld : (s.warp w).ld = 0)
    (hst : (s.warp w).st = 0) (hcp : (s.warp w).cp = 0) (htl : (s.warp w).tl = 0) (hdel : (s.warp w).deliv = [])
    (hexit : ∀ l < 64, ((s.warp w).lane l).st = .exited) (hops : ∀ m ∈ s.memops, m.live = true → m.warp ≠ w) : s.canRetire w = true := by
  simpa [State.canRetire, hlive, hmode, hld, hst, hcp, htl, hdel] using ⟨hexit, hops⟩

theorem exec_warpRetire_eq {s : State} {w : Nat} (hev : s.ev.a = w) (h : s.canRetire w = true) :
    exec .warpRetire s = .next ((s.warpOver w).teamOver (s.warp w).team) := by
  subst hev
  simp only [exec_warpRetire, execWarpRetire, h, ↓reduceIte]
  rfl

/-- A warp that retires is not live, and counts no more at its team's barrier. -/
structure State.WarpGone (s t : State) (w : Nat) : Prop where
  now : t.now = s.now
  grids : t.grids = s.grids
  parts : t.parts = s.parts
  gone : (t.warp w).live = false
  others : ∀ v, v ≠ w → (s.warp v).Alike (t.warp v)
  teams : ∀ k, ∃ n c, t.team k = { s.team k with phase := n, phaseAt := c }

theorem State.warpOver_gone (s : State) (w : Nat) : s.WarpGone (s.warpOver w) w := by
  have hk : s.Keeps ((s.dropRefs w).breakSheaf w 3) := (s.dropRefs_keeps w).trans (State.breakSheaf_keeps _ w 3)
  unfold State.warpOver
  generalize hu : (s.dropRefs w).breakSheaf w 3 = u at hk
  have hgone : s.WarpGone (u.onWarp w fun x => { x with live := false, rdv := none, stalled := none }) w := by
    refine ⟨hk.now, hk.grids, hk.parts, by simp [State.onWarp], fun v hv => ?_, fun k => ⟨_, _, hk.team k⟩⟩
    rw [State.onWarp, State.warp_setWarp_ne _ _ _ _ hv]
    exact hk.warps v
  generalize u.onWarp w _ = v at hgone
  rcases v.checkBarrier_cases (s.warp w).team with h | ⟨x, hx, h⟩
  · rwa [h]
  · rw [h]
    refine ⟨hx.now.trans hgone.now, hx.grids.trans hgone.grids, hx.parts.trans hgone.parts, (hx.warps w).live.trans hgone.gone,
      fun y hy => (hgone.others y hy).trans (hx.warps y), fun k => ?_⟩
    obtain ⟨n, c, hteam⟩ := hgone.teams k
    by_cases hkt : k = (s.warp w).team
    · subst hkt
      rw [State.onTeam, State.team_setTeam_same, hx.team, hteam]
      exact ⟨_, _, rfl⟩
    · rw [State.onTeam, State.team_setTeam_ne _ _ _ _ hkt, hx.team, hteam]
      exact ⟨_, _, rfl⟩

/-! ## Grids that are over -/

/-- The second state has the cycle, the warps, the teams and the agenda of the first, and posts nothing less. -/
structure State.Settles (s t : State) : Prop where
  now : t.now = s.now
  warps : t.warps = s.warps
  teams : t.teams = s.teams
  agenda : t.agenda = s.agenda
  posts : s.posts ⊆ t.posts

theorem State.Settles.refl (s : State) : s.Settles s := ⟨rfl, rfl, rfl, rfl, fun _ h => h⟩
theorem State.Settles.trans {s t u : State} (h : s.Settles t) (k : t.Settles u) : s.Settles u :=
  ⟨k.now.trans h.now, k.warps.trans h.warps, k.teams.trans h.teams, k.agenda.trans h.agenda, List.Subset.trans h.posts k.posts⟩

/-- Nor does it change an entry of a pending-launch pool. -/
structure State.KeepsPools (s t : State) : Prop extends State.Settles s t where
  pools : ∀ p, (t.part p).pool = (s.part p).pool

namespace State.KeepsPools

theorem refl (s : State) : s.KeepsPools s := ⟨.refl s, fun _ => rfl⟩
theorem trans {s t u : State} (h : s.KeepsPools t) (k : t.KeepsPools u) : s.KeepsPools u :=
  ⟨h.toSettles.trans k.toSettles, fun p => (k.pools p).trans (h.pools p)⟩
theorem ofMem {s t : State} (h : s.OnlyMem t) : s.KeepsPools t := by
  rw [show t = s.withMem t from h]
  exact ⟨⟨rfl, rfl, rfl, rfl, fun _ hp => hp⟩, fun _ => rfl⟩
theorem post (s : State) (x : Post) : s.KeepsPools (s.post x) := ⟨⟨rfl, rfl, rfl, rfl, List.subset_append_left _ _⟩, fun _ => rfl⟩
theorem ite {s t : State} {c : Prop} [Decidable c] (h : s.KeepsPools t) : s.KeepsPools (if c then t else s) := by
  split
  · exact h
  · exact .refl s
theorem onPart {s : State} {p : Nat} {f : Part → Part} (h : (f (s.part p)).pool = (s.part p).pool) : s.KeepsPools (s.onPart p f) := by
  refine ⟨⟨rfl, rfl, rfl, rfl, fun _ hp => hp⟩, fun q => ?_⟩
  by_cases hq : q = p
  · subst hq
    rw [State.part_onPart_same, h]
  · rw [State.part_onPart_ne _ _ _ _ hq]
theorem onGrid (s : State) (g : Nat) (f : Grid → Grid) : s.KeepsPools (s.onGrid g f) := ⟨⟨rfl, rfl, rfl, rfl, fun _ hp => hp⟩, fun _ => rfl⟩
theorem entry {s t : State} (h : s.KeepsPools t) (p e : Nat) : (t.part p).entry e = (s.part p).entry e := by
  unfold Part.entry
  rw [h.pools]

end State.KeepsPools

/-- The completion word, the token and the interrupt of a record or a grid (17 R357). -/
theorem State.complete_keepsPools (s : State) (p : Nat) (comp : DWord) (sig : Word) (irq : Bool) (st : Nat) (id : Word) :
    s.KeepsPools (s.complete p comp sig irq st id) :=
  ((State.KeepsPools.ite (.ofMem (State.pokeNum_only _ _ _ _))).trans (.ite (.ofMem (State.pokeNum_only _ _ _ _)))).trans
    (.ite (.post _ _))
theorem State.msix_mem_complete (s : State) (p : Nat) (comp : DWord) (sig : Word) (st : Nat) (id : Word) :
    Post.msix p ∈ (s.complete p comp sig true st id).posts := by
  simp only [State.complete, State.post, ↓reduceIte, List.mem_append, List.mem_singleton, or_true]
theorem State.logError_keepsPools (s : State) (kind cls unit : Nat) (ctx : Word) (addr : Nat) :
    s.KeepsPools (s.logError kind cls unit ctx addr) := by
  unfold State.logError
  dsimp only
  split
  · exact ⟨⟨rfl, rfl, rfl, rfl, fun _ hp => hp⟩, fun _ => rfl⟩
  · refine State.KeepsPools.trans ?_ (.post _ _)
    refine State.KeepsPools.trans ?_ (.post _ _)
    exact ⟨⟨rfl, rfl, rfl, rfl, fun _ hp => hp⟩, fun _ => rfl⟩

theorem State.beginRestore_keepsPools (s : State) (r : WaitRec) : s.KeepsPools (s.beginRestore r) := by
  unfold State.beginRestore
  split
  · exact .onPart rfl
  · exact (s.logError_keepsPools _ _ _ _ _).trans (State.complete_keepsPools _ _ _ _ _ _ _)
theorem State.recordReady_keepsPools (s : State) (r : WaitRec) : s.KeepsPools (s.recordReady r) := by
  unfold State.recordReady
  split
  · exact s.complete_keepsPools _ _ _ _ _ _
  · exact .onGrid s _ _
  · exact s.beginRestore_keepsPools r
theorem State.readTokens_keepsPools (s : State) (p : Nat) : s.KeepsPools (s.readTokens p) := by
  unfold State.readTokens
  refine List.foldlRecOn _ _ (motive := s.KeepsPools) (.onPart rfl) fun t ht r _ => ht.trans ?_
  split
  · exact t.recordReady_keepsPools r
  · exact .onPart rfl

/-- The state in which a grid that the host has launched is complete (17 R357). -/
def State.signalled (s : State) (g : Nat) : State :=
  let x := s.grid g
  if x.host then s.complete x.part x.comp x.sigtok x.irq x.status x.id else s
theorem State.signalled_keepsPools (s : State) (g : Nat) : s.KeepsPools (s.signalled g) := .ite (s.complete_keepsPools _ _ _ _ _ _)

/-- A grid retires with its ancestors that this leaves over: whatever the chain, nothing but grids, partitions, memory and posts change. -/
theorem State.retireGrid_settles (s : State) (g fuel : Nat) : s.Settles (s.retireGrid g fuel) := by
  induction fuel generalizing s g with
  | zero => exact .refl s
  | succ n ih =>
    unfold State.retireGrid
    dsimp only
    split
    · exact .refl s
    · have hword : s.Settles (s.signalled g) := (s.signalled_keepsPools g).toSettles
      unfold State.signalled at hword
      dsimp only at hword
      generalize (if (s.grid g).host then _ else s) = u at hword
      have hpart (f : Part → Part) : s.Settles ((u.onPart (s.grid g).part f).onGrid g fun _ => Grid.idle) :=
        hword.trans ⟨rfl, rfl, rfl, rfl, fun _ hp => hp⟩
      have hfree : s.Settles (u.onGrid g fun _ => Grid.idle) := hword.trans ⟨rfl, rfl, rfl, rfl, fun _ hp => hp⟩
      split <;> split
      · exact ((hpart _).trans (State.KeepsPools.onGrid _ _ _).toSettles).trans (ih _ _)
      · exact (hfree.trans (State.KeepsPools.onGrid _ _ _).toSettles).trans (ih _ _)
      · exact hpart _
      · exact hfree

theorem State.gridOver_settles (s : State) (g : Nat) : s.Settles (s.gridOver g) := by
  unfold State.gridOver
  split
  · exact (s.retireGrid_settles g 12).trans (State.readTokens_keepsPools _ _).toSettles
  · exact .refl s

theorem State.gridOver_of_not {s : State} {g : Nat} (h : (s.grid g).over = false) : s.gridOver g = s := by simp [State.gridOver, h]

/-- A partition whose grid has retired from a pool entry. -/
def Part.returnEntry (p : Part) (e status now : Nat) : Part :=
  { p with pool := setP PoolEnt.idle p.pool e ⟨false, (p.entry e).seq, (p.entry e).seq, status, now⟩ }
theorem Part.entry_returnEntry (p : Part) (e status now : Nat) :
    (p.returnEntry e status now).entry e = ⟨false, (p.entry e).seq, (p.entry e).seq, status, now⟩ := getP_setP_same _ _ _ _

/-- The state in which a grid has retired to pool entry `e`. -/
def State.entryReturned (s : State) (g e : Nat) : State :=
  ((s.signalled g).onPart (s.grid g).part fun p => p.returnEntry e (s.grid g).status (s.signalled g).now).onGrid g fun _ => Grid.idle
theorem State.retireGrid_root {s : State} {g e n : Nat} (hover : (s.grid g).over = true) (hpar : (s.grid g).parent = none)
    (hpool : (s.grid g).pool = some e) : s.retireGrid g (n + 1) = s.entryReturned g e := by
  simp only [State.retireGrid, hover, hpar, hpool, Bool.not_true, Bool.false_eq_true, ↓reduceIte]
  rfl

/-- A grid that is over and has no parent returns its pool entry with its status, and interrupts the host that asked for it (02 R48; 17 R357). -/
theorem State.gridOver_root {s : State} {g e : Nat} (hover : (s.grid g).over = true) (hpar : (s.grid g).parent = none)
    (hpool : (s.grid g).pool = some e) :
    let x := s.grid g
    ((s.gridOver g).part x.part).entry e = ⟨false, ((s.part x.part).entry e).seq, ((s.part x.part).entry e).seq, x.status, s.now⟩ ∧
      (x.host = true → x.irq = true → Post.msix x.part ∈ (s.gridOver g).posts) := by
  intro x
  have hu := s.signalled_keepsPools g
  have hout : s.gridOver g = (s.entryReturned g e).readTokens x.part := by
    rw [State.gridOver, if_pos hover, State.retireGrid_root hover hpar hpool]
  have hread := (s.entryReturned g e).readTokens_keepsPools x.part
  rw [hout]
  constructor
  · rw [hread.entry, State.entryReturned, State.part, State.onGrid_parts, ← State.part, State.part_onPart_same, Part.entry_returnEntry,
      hu.entry, hu.now]
  · intro hhost hirq
    refine hread.posts (show Post.msix x.part ∈ (s.signalled g).posts from ?_)
    rw [State.signalled, if_pos hhost, show (s.grid g).irq = true from hirq]
    exact s.msix_mem_complete _ _ _ _ _

/-! ## A team is over -/

/-- The state in which a team has retired, its grid not yet looked at. -/
def State.teamEnded (s : State) (t : Nat) : State :=
  let x := s.team t
  (((s.endLeases t).dropSaves fun k => k.part == x.part && k.gridId == x.gridId && k.num == x.num).onTeam t fun x => { x with live := false }).later
    40 .teamResourcesFree t

/-- A team whose last warp has retired is not live, and its resources return 40 cc later (02 R42). -/
structure State.TeamGone (s t : State) (k : Nat) : Prop where
  now : t.now = s.now
  grids : t.grids = s.grids
  parts : t.parts = s.parts
  warps : ∀ v, (s.warp v).Alike (t.warp v)
  gone : (t.team k).live = false
  free : Claims.later s 40 .teamResourcesFree k ∈ t.agenda

theorem State.teamEnded_gone (s : State) (k : Nat) : s.TeamGone (s.teamEnded k) k := by
  have hk := (s.endLeases_keeps k).trans (State.dropSaves_keeps _ fun x =>
    x.part == (s.team k).part && x.gridId == (s.team k).gridId && x.num == (s.team k).num)
  unfold State.teamEnded
  dsimp only
  generalize State.dropSaves _ _ = u at hk
  refine ⟨hk.now, hk.grids, hk.parts, hk.warps, ?_, ?_⟩
  · show ((u.setTeam k _).team k).live = false
    rw [State.team_setTeam_same]
  · rw [Claims.later, ← hk.now]
    exact mem_insertDue _ _

/-- A live warp that belongs to a team. -/
def State.hasWarp (s : State) (k : Nat) : Prop := ∃ v ∈ (s.team k).warps, (s.warp v).live = true ∧ (s.warp v).team = k

theorem State.teamOver_of_warp {s : State} {k : Nat} (h : s.hasWarp k) : s.teamOver k = s := by
  obtain ⟨v, hv, hl, ht⟩ := h
  have hany : ((s.team k).warps.any fun w => (s.warp w).live && (s.warp w).team == k) = true :=
    List.any_eq_true.2 ⟨v, hv, by simp [hl, ht]⟩
  simp [State.teamOver, hany]

theorem State.teamOver_last {s : State} {k : Nat} (hlive : (s.team k).live = true) (hlast : ¬s.hasWarp k) :
    s.teamOver k = if (s.team k).bin.isSome then s.teamEnded k else
      ((s.teamEnded k).onGrid (s.team k).grid fun g => { g with liveTeams := g.liveTeams - 1 }).gridOver (s.team k).grid := by
  have hany : ((s.team k).warps.any fun w => (s.warp w).live && (s.warp w).team == k) = false := by
    simpa [State.hasWarp] using hlast
  simp only [State.teamOver, hlive, hany, Bool.not_true, Bool.or_self, Bool.false_eq_true, ↓reduceIte]
  rfl

/-- What is said of a team that is gone stays true when its grid is looked at. -/
theorem State.TeamGone.afterGrid {s t : State} {k : Nat} (h : s.TeamGone t k) (g : Nat) (f : Grid → Grid) :
    (∀ v, (s.warp v).Alike (((t.onGrid g f).gridOver g).warp v)) ∧ (((t.onGrid g f).gridOver g).team k).live = false ∧
      Claims.later s 40 .teamResourcesFree k ∈ ((t.onGrid g f).gridOver g).agenda := by
  have ho := (t.onGrid g f).gridOver_settles g
  generalize State.gridOver _ _ = u at ho
  refine ⟨fun v => ?_, ?_, ?_⟩
  · show (s.warp v).Alike (getP Warp.idle u.warps v)
    rw [ho.warps]
    exact h.warps v
  · rw [State.team, ho.teams]
    exact h.gone
  · rw [ho.agenda]
    exact h.free

/-- No case of a team's end touches the threads of a warp. -/
theorem State.teamOver_warps (s : State) (k v : Nat) : (s.warp v).Alike ((s.teamOver k).warp v) := by
  have hg := s.teamEnded_gone k
  by_cases hw : s.hasWarp k
  · rw [State.teamOver_of_warp hw]
    exact .refl _
  · by_cases hl : (s.team k).live = true
    · rw [State.teamOver_last hl hw]
      split
      · exact hg.warps v
      · exact (hg.afterGrid _ _).1 v
    · simp only [State.teamOver, hl, Bool.not_false, Bool.true_or, ↓reduceIte]
      exact .refl _

theorem State.teamOver_last_gone {s : State} {k : Nat} (hlive : (s.team k).live = true) (hlast : ¬s.hasWarp k) :
    ((s.teamOver k).team k).live = false ∧ Claims.later s 40 .teamResourcesFree k ∈ (s.teamOver k).agenda := by
  have hg := s.teamEnded_gone k
  rw [State.teamOver_last hlive hlast]
  split
  · exact ⟨hg.gone, hg.free⟩
  · exact (hg.afterGrid _ _).2

/-- A team of a grid that has others leaves it with one less. -/
theorem State.teamOver_liveTeams {s : State} {k : Nat} (hlive : (s.team k).live = true) (hlast : ¬s.hasWarp k) (hbin : (s.team k).bin = none)
    (hmore : 1 < (s.grid (s.team k).grid).liveTeams) :
    ((s.teamOver k).grid (s.team k).grid).liveTeams = (s.grid (s.team k).grid).liveTeams - 1 := by
  have hgrid : (s.teamEnded k).grid (s.team k).grid = s.grid (s.team k).grid := by
    rw [State.grid, (s.teamEnded_gone k).grids, State.grid]
  have hne : (s.grid (s.team k).grid).liveTeams - 1 ≠ 0 := by omega
  rw [State.teamOver_last hlive hlast, hbin, if_neg (by simp), State.gridOver_of_not, State.grid_onGrid_same, hgrid]
  rw [State.grid_onGrid_same, hgrid]
  simp [Grid.over, hne]

/-- The last team of a grid that is over with it, and that has no parent, returns the grid's pool entry. -/
theorem State.teamOver_grid {s : State} {k e : Nat} (hlive : (s.team k).live = true) (hlast : ¬s.hasWarp k) (hbin : (s.team k).bin = none)
    (hone : (s.grid (s.team k).grid).liveTeams = 1) (hover : ({ s.grid (s.team k).grid with liveTeams := 0 } : Grid).over = true)
    (hpar : (s.grid (s.team k).grid).parent = none)
    (hpool : (s.grid (s.team k).grid).pool = some e) :
    let x := s.grid (s.team k).grid
    ((s.teamOver k).part x.part).entry e = ⟨false, ((s.part x.part).entry e).seq, ((s.part x.part).entry e).seq, x.status, s.now⟩ ∧
      (x.host = true → x.irq = true → Post.msix x.part ∈ (s.teamOver k).posts) := by
  have hg := s.teamEnded_gone k
  have hgrid : ((s.teamEnded k).onGrid (s.team k).grid fun g => { g with liveTeams := g.liveTeams - 1 }).grid (s.team k).grid =
      { s.grid (s.team k).grid with liveTeams := 0 } := by
    rw [State.grid_onGrid_same, State.grid, hg.grids, ← State.grid, hone]
  have hpart (p : Nat) : ((s.teamEnded k).onGrid (s.team k).grid fun g => { g with liveTeams := g.liveTeams - 1 }).part p = s.part p := by
    rw [State.part, State.onGrid_parts, hg.parts, ← State.part]
  have hnow : ((s.teamEnded k).onGrid (s.team k).grid fun g => { g with liveTeams := g.liveTeams - 1 }).now = s.now := hg.now
  have hroot := State.gridOver_root (g := (s.team k).grid) (e := e)
    (s := (s.teamEnded k).onGrid (s.team k).grid fun g => { g with liveTeams := g.liveTeams - 1 })
    (by rw [hgrid]; exact hover) (by rw [hgrid]; exact hpar) (by rw [hgrid]; exact hpool)
  rw [State.teamOver_last hlive hlast, hbin, if_neg (by simp)]
  simpa only [hgrid, hpart, hnow] using hroot

/-- The other warps of the team are those that were in it. -/
theorem State.WarpGone.hasWarp_iff {s t : State} {w : Nat} (h : s.WarpGone t w) (k : Nat) :
    t.hasWarp k ↔ ∃ v, v ≠ w ∧ Claims.inTeam s k v := by
  have hwarps : (t.team k).warps = (s.team k).warps := by
    obtain ⟨_, _, hteam⟩ := h.teams k
    rw [hteam]
  constructor
  · rintro ⟨v, hv, hl, ht⟩
    have hne : v ≠ w := by
      rintro rfl
      rw [h.gone] at hl
      cases hl
    exact ⟨v, hne, hwarps ▸ hv, (h.others v hne).live ▸ hl, (h.others v hne).team ▸ ht⟩
  · rintro ⟨v, hne, hv, hl, ht⟩
    exact ⟨v, hwarps ▸ hv, (h.others v hne).live.trans hl, (h.others v hne).team.trans ht⟩

/-- The last warp of a live team to retire ends the team (02 R34, R42), and the team its grid where that is over with it (02 R48). -/
theorem State.warpOver_ends_team {s u : State} {w : Nat} (hu : s.WarpGone u w) (hlive : (s.team (s.warp w).team).live = true)
    (hlast : ∀ v, v ≠ w → ¬Claims.inTeam s (s.warp w).team v) :
    let k := s.team (s.warp w).team
    let t := u.teamOver (s.warp w).team
    (t.team (s.warp w).team).live = false ∧ Claims.later s 40 .teamResourcesFree (s.warp w).team ∈ t.agenda ∧
      (k.bin = none → 1 < (s.grid k.grid).liveTeams → (t.grid k.grid).liveTeams = (s.grid k.grid).liveTeams - 1) ∧
      (∀ e, let g := s.grid k.grid
        k.bin = none → g.st = .pending → g.liveTeams = 1 → g.nteams ≤ g.next → g.kids = 0 → g.saved = [] → g.parent = none → g.pool = some e →
        (t.part g.part).entry e = ⟨false, ((s.part g.part).entry e).seq, ((s.part g.part).entry e).seq, g.status, s.now⟩ ∧
          (g.host = true → g.irq = true → Post.msix g.part ∈ t.posts)) := by
  intro k t
  obtain ⟨n, c, hteam⟩ := hu.teams (s.warp w).team
  have hl : (u.team (s.warp w).team).live = true := by rw [hteam]; exact hlive
  have hbin : (u.team (s.warp w).team).bin = k.bin := by rw [hteam]
  have hgno : (u.team (s.warp w).team).grid = k.grid := by rw [hteam]
  have hgrid : u.grid (u.team (s.warp w).team).grid = s.grid k.grid := by rw [hgno, State.grid, hu.grids, ← State.grid]
  have hpart (p : Nat) : u.part p = s.part p := by unfold State.part; rw [hu.parts]
  have hnone : ¬u.hasWarp (s.warp w).team := fun h => by
    obtain ⟨v, hv, hin⟩ := (hu.hasWarp_iff _).1 h
    exact hlast v hv hin
  obtain ⟨hdead, hfree⟩ := State.teamOver_last_gone hl hnone
  refine ⟨hdead, ?_, ?_, ?_⟩
  · rw [Claims.later, ← hu.now]
    exact hfree
  · intro hb hmore
    have := State.teamOver_liveTeams hl hnone (hbin.trans hb) (hgrid ▸ hmore)
    rwa [hgrid, hgno] at this
  · intro e g hb hst hone hall hkids hsaved hpar hpool
    have hover : ({ s.grid k.grid with liveTeams := 0 } : Grid).over = true := by
      simp [Grid.over, show (s.grid k.grid).st = .pending from hst, show (s.grid k.grid).nteams ≤ (s.grid k.grid).next from hall,
        show (s.grid k.grid).kids = 0 from hkids, show (s.grid k.grid).saved = [] from hsaved]
    have := State.teamOver_grid (e := e) hl hnone (hbin.trans hb) (hgrid ▸ hone) (hgrid ▸ hover) (hgrid ▸ hpar) (hgrid ▸ hpool)
    simpa only [hgrid, hpart, hu.now] using this

/-! ## The resources of a team -/

theorem exec_teamResourcesFree (s : State) : exec .teamResourcesFree s = execTeamResourcesFree s := rfl

/-- Warps of a list put back to idle slots. -/
theorem State.foldl_idle_rest (s : State) (ws : List Nat) :
    ws.foldl (fun s w => s.setWarp w Warp.idle) s = { s with warps := (ws.foldl (fun s w => s.setWarp w Warp.idle) s).warps } := by
  induction ws generalizing s with
  | nil => rfl
  | cons w ws ih => exact ih (s.setWarp w Warp.idle)
theorem State.foldl_idle_warp (s : State) (ws : List Nat) (w : Nat) :
    (ws.foldl (fun s w => s.setWarp w Warp.idle) s).warp w = if w ∈ ws then Warp.idle else s.warp w := by
  induction ws generalizing s with
  | nil => simp
  | cons v ws ih =>
    rw [List.foldl_cons, ih]
    by_cases hv : w = v
    · subst hv
      simp
    · simp [hv, State.warp_setWarp_ne _ _ _ _ hv]

/-- The slots of a team that has retired are free again, and nothing else changes (02 R42). -/
theorem exec_teamResourcesFree_frees {s : State} {k : Nat} (hev : s.ev.a = k) (hholds : (s.team k).holds = true)
    (hdead : (s.team k).live = false) :
    ∃ t, exec .teamResourcesFree s = .next t ∧ t.team k = Team.idle ∧ (∀ j, j ≠ k → t.team j = s.team j) ∧
      (∀ w, t.warp w = if w ∈ (s.team k).warps then Warp.idle else s.warp w) ∧ t = { s with warps := t.warps, teams := t.teams } := by
  subst hev
  let u : State := (s.team s.ev.a).warps.foldl (fun s w => s.setWarp w Warp.idle) s
  refine ⟨{ u with teams := setP Team.idle s.teams s.ev.a Team.idle }, ?_, getP_setP_same _ _ _ _, fun j hj => getP_setP_ne _ _ _ _ _ hj,
    s.foldl_idle_warp _, ?_⟩
  · simp [exec_teamResourcesFree, execTeamResourcesFree, hholds, hdead, u]
  · rw [show u = { s with warps := u.warps } from s.foldl_idle_rest _]

/-! ## Threads that go on together -/

theorem exec_meetingRelease (s : State) : exec .meetingRelease s = execMeetingRelease s := rfl

/-- The first place of a range where a function answers. -/
theorem findSome?_range {α : Type} {f : Nat → Option α} {a : α} {l n : Nat} (hl : l < n) (hf : f l = some a) (hno : ∀ k < l, f k = none) :
    (List.range n).findSome? f = some a := by
  induction n with
  | zero => omega
  | succ n ih =>
    rw [List.range_succ, List.findSome?_append]
    by_cases hln : l = n
    · subst hln
      rw [List.findSome?_eq_none_iff.2 fun k hk => hno k (List.mem_range.1 hk)]
      simp [hf]
    · rw [ih (by omega)]
      rfl

/-- The meeting value of a held lane that is done, as `Warp.released` asks for it. -/
def Warp.doneAt (x : Warp) (y : Lane) : Option DWord :=
  if y.st == .held && !((List.range 64).any fun k => (x.lane k).st == .running && (x.lane k).meet == y.meet) then some y.meet else none

theorem Warp.doneAt_eq (x : Warp) (y : Lane) [Decidable (Claims.meetingDone x y.meet)] :
    x.doneAt y = if y.st = .held ∧ Claims.meetingDone x y.meet then some y.meet else none := by
  unfold Warp.doneAt
  congr 1
  simp [Claims.meetingDone]

/-- The lowest held lane whose meeting value no running lane carries says what is released (02 R28). -/
theorem Warp.released_eq {x : Warp} {l : Nat} {m : DWord} (hmode : x.hmode = false) (hl : l < 64) (hst : (x.lane l).st = .held)
    (hm : (x.lane l).meet = m) (hdone : Claims.meetingDone x m)
    (hfirst : ∀ k < l, (x.lane k).st = .held → ¬Claims.meetingDone x (x.lane k).meet) : x.released = some m := by
  classical
  have hfind : (List.range 64).findSome? (fun k => x.doneAt (x.lane k)) = some m := by
    refine findSome?_range hl ?_ fun k hk => ?_
    · rw [Warp.doneAt_eq, if_pos ⟨hst, hm ▸ hdone⟩, hm]
    · rw [Warp.doneAt_eq, if_neg fun h => hfirst k hk h.1 h.2]
  rw [Warp.released, hmode, if_neg (by simp), List.findSome?_map]
  exact hfind

/-- A lane held at a meeting value that is released goes on (02 R28). -/
def Lane.release (m : DWord) (y : Lane) : Lane := if y.st == .held && y.meet == m then { y with st := .running, meet := noMeeting } else y

/-- The lanes held at a meeting value, and no others, run again. -/
theorem exec_meetingRelease_releases {s : State} {w l : Nat} (hev : s.ev.a = w) (hlive : (s.warp w).live = true) (hmode : (s.warp w).hmode = false)
    (hl : l < 64) (hst : ((s.warp w).lane l).st = .held) (hm : ((s.warp w).lane l).meet = s.ev.v) (hdone : Claims.meetingDone (s.warp w) s.ev.v)
    (hfirst : ∀ k < l, ((s.warp w).lane k).st = .held → ¬Claims.meetingDone (s.warp w) ((s.warp w).lane k).meet) :
    ∃ t, exec .meetingRelease s = .next t ∧
      (∀ k < 64, (t.warp w).lane k = if ((s.warp w).lane k).st = .held ∧ ((s.warp w).lane k).meet = s.ev.v then
        { (s.warp w).lane k with st := .running, meet := noMeeting } else (s.warp w).lane k) ∧
      t.warp w = { s.warp w with lanes := (t.warp w).lanes } ∧ (∀ v, v ≠ w → t.warp v = s.warp v) ∧ t = { s with warps := t.warps } := by
  subst hev
  have hrel := Warp.released_eq hmode hl hst hm hdone hfirst
  refine ⟨s.onWarp s.ev.a fun x => x.mapLanes fun _ => Lane.release s.ev.v, ?_, fun k hk => ?_, ?_, fun v hv => State.warp_setWarp_ne _ _ _ _ hv, rfl⟩
  · simp only [exec_meetingRelease, execMeetingRelease, hlive, hrel, BEq.rfl, Bool.and_self, ↓reduceIte]
    rfl
  · rw [State.onWarp, State.warp_setWarp_same, Warp.mapLanes_lane _ _ _ hk]
    simp [Lane.release]
  · rw [State.onWarp, State.warp_setWarp_same]
    rfl

/-! ## The greed limit -/

theorem exec_greedLimit (s : State) : exec .greedLimit s = execGreedLimit s := rfl

/-- A warp slot beyond the table holds no warp, so none that is ready. -/
theorem State.eligible_lt {s : State} {w : Nat} (h : s.eligible w = true) : w < s.warps.length := by
  refine Nat.lt_of_not_le fun hge => ?_
  have hidle : s.warp w = Warp.idle := getP_beyond _ _ _ hge
  simp [State.eligible, hidle, Warp.idle] at h

/-- A warp of a quarter that is ready, other than the one that it issued from last, as `execGreedLimit` looks for it. -/
def State.otherReady (s : State) (u : Nat) : Bool :=
  (List.range s.warps.length).any fun w => s.eligible w && (s.warp w).unit == u && w != (s.quarter u).last
theorem State.otherReady_iff (s : State) (u : Nat) :
    s.otherReady u = true ↔ ∃ w, w ≠ (s.quarter u).last ∧ s.eligible w = true ∧ (s.warp w).unit = u := by
  simp only [State.otherReady, List.any_eq_true, List.mem_range, Bool.and_eq_true, beq_iff_eq, bne_iff_ne]
  constructor
  · rintro ⟨w, -, ⟨he, hu⟩, hne⟩
    exact ⟨w, hne, he, hu⟩
  · rintro ⟨w, hne, he, hu⟩
    exact ⟨w, State.eligible_lt he, ⟨he, hu⟩, hne⟩

/-- The warp of a quarter that has had its turns becomes the youngest where another is ready (02 R53). -/
theorem exec_greedLimit_yields {s : State} {u : Nat} (hev : s.ev.a = u) :
    let q := s.quarter u
    let other := ∃ w, w ≠ q.last ∧ s.eligible w = true ∧ (s.warp w).unit = u
    ∃ t, exec .greedLimit s = .next t ∧ (t.quarter u).greed = 0 ∧
      (other → (t.quarter u).young = (q.last, s.now) :: q.young.filter fun e => e.1 != q.last) ∧ (¬other → (t.quarter u).young = q.young) ∧
      t.quarter u = { q with greed := 0, young := (t.quarter u).young } ∧ (∀ v, v ≠ u → t.quarter v = s.quarter v) ∧
      t = { s with quarters := t.quarters } := by
  intro q other
  subst hev
  have hready : s.otherReady s.ev.a = true ↔ other := s.otherReady_iff s.ev.a
  refine ⟨_, by rw [exec_greedLimit, execGreedLimit], ?_, fun h => ?_, fun h => ?_, ?_, fun v hv => State.quarter_onQuarter_ne _ _ _ _ hv, rfl⟩
  · rw [State.quarter_onQuarter_same]
  · rw [State.quarter_onQuarter_same]
    exact if_pos (hready.2 h)
  · rw [State.quarter_onQuarter_same]
    exact if_neg (mt hready.1 h)
  · rw [State.quarter_onQuarter_same]

/-- Every clause is the lemma about its event. -/
theorem retirement : Claims.Retirement := by
  unfold Claims.Retirement
  refine ⟨?_, ?_, ?_, ?_⟩
  · intro s w l x hev hlive hmode hl hst hm hdone hfirst
    exact exec_meetingRelease_releases hev hlive hmode hl hst hm hdone hfirst
  · intro s w x k hev hlive hmode hld hst hcp htl hdel hexit hops
    have hu := s.warpOver_gone w
    refine ⟨_, exec_warpRetire_eq hev (State.canRetire_of hlive hmode hld hst hcp htl hdel hexit hops), ?_, ?_, ?_, ?_⟩
    · exact ((s.warpOver w).teamOver_warps _ w).live.trans hu.gone
    · intro v hv
      have halike := (hu.others v hv).trans ((s.warpOver w).teamOver_warps x.team v)
      exact ⟨halike.live, halike.lanes⟩
    · intro hother
      obtain ⟨n, c, hteam⟩ := hu.teams x.team
      rw [State.teamOver_of_warp ((hu.hasWarp_iff _).2 hother), hteam]
      exact ⟨rfl, hu.grids⟩
    · exact State.warpOver_ends_team hu
  · intro s k hev hholds hdead
    exact exec_teamResourcesFree_frees hev hholds hdead
  · intro s u hev
    exact exec_greedLimit_yields hev

end Sys2Proof.Machine
end

section
/-!
PROOFS. Placement (02 R26, R40, R47-R49, R52, R58): what a team takes on its core, and which grid or bin is placed next.
-/
namespace Sys2Proof

/-! ## Padded lists and free slots -/

theorem getP_append_left {α : Type} (d : α) (l r : List α) {i : Nat} (h : i < l.length) : getP d (l ++ r) i = getP d l i := by
  induction l generalizing i with
  | nil => simp at h
  | cons x l ih => cases i with
    | zero => rfl
    | succ i => exact ih (by simpa using h)
theorem getP_append_length {α : Type} (d : α) (l : List α) (x : α) : getP d (l ++ [x]) l.length = x := by
  induction l with
  | nil => rfl
  | cons y l ih => exact ih
theorem getP_mem {α : Type} (d : α) (l : List α) {i : Nat} (h : i < l.length) : getP d l i ∈ l := by
  induction l generalizing i with
  | nil => simp at h
  | cons x l ih => cases i with
    | zero => simp
    | succ i => exact List.mem_cons_of_mem x (ih (by simpa using h))
theorem getP_replicate {α : Type} (d x : α) {n i : Nat} (h : i < n) : getP d (List.replicate n x) i = x := by
  induction n generalizing i with
  | zero => omega
  | succ n ih => cases i with
    | zero => rfl
    | succ i => exact ih (by omega)

end Sys2Proof

namespace Sys2Proof.Machine

/-- A slot that is free in the table, or beyond it where the default is free, is free. -/
theorem freeSlot_free {α : Type} {live : α → Bool} {d : α} (hd : live d = false) (l : List α) : live (getP d l (freeSlot live l)) = false := by
  induction l with
  | nil => simpa [freeSlot] using hd
  | cons x l ih =>
    simp only [freeSlot]
    split
    · exact ih
    · simpa using ‹¬live x = true›

/-- A list of numbers holds not every number up to its length. -/
theorem firstFree_not_mem (l : List Nat) : firstFree l ∉ l := by
  unfold firstFree
  cases hfind : (List.range (l.length + 1)).find? fun k => !l.contains k with
  | none =>
    have hall : List.range (l.length + 1) ⊆ l := fun k hk => by
      have hk' := List.find?_eq_none.1 hfind k hk
      rwa [Bool.not_eq_true, Bool.not_eq_false', List.contains_iff_mem] at hk'
    have hle := List.nodup_range.length_le_of_subset hall
    rw [List.length_range] at hle
    exact absurd hle (Nat.not_succ_le_self _)
  | some j =>
    have hj := List.find?_some (p := fun k => !l.contains k) hfind
    rwa [Bool.not_eq_true', ← Bool.not_eq_true, List.contains_iff_mem] at hj

/-! ## The warps of a team that is placed -/

/-- One more warp of a team that is placed: the state and the team's warps so far. -/
def placeWarp (core retry tn now : Nat) (k : Kernel) (taken : List Nat) (f : Nat → Warp → Warp) (a : State × List Nat) (i : Nat) :
    State × List Nat :=
  let w := firstFree (taken ++ a.2)
  let used := ((taken ++ a.2).filter fun v => (a.1.warp v).core == core && (a.1.warp v).quarter == i % 4).map fun v => (a.1.warp v).slot
  (a.1.setWarp w (f i (Warp.start now tn i core (firstFree used) retry k)), a.2 ++ [w])

/-- `n` warps stand in slots of their own, each as it is made for its place in its quarter, and every other slot is as it was. -/
structure WarpsPlaced (s : State) (make : Nat → Nat → Warp) (n : Nat) (r : State × List Nat) : Prop where
  length : r.2.length = n
  nodup : r.2.Nodup
  rest : r.1 = { s with warps := r.1.warps }
  others : ∀ w, w ∉ r.2 → r.1.warp w = s.warp w
  placed : ∀ i < n, ∃ slot, r.1.warp (getP 0 r.2 i) = make i slot

theorem WarpsPlaced.succ {s : State} {core retry tn now n : Nat} {k : Kernel} {taken : List Nat} {f : Nat → Warp → Warp} {r : State × List Nat}
    (h : WarpsPlaced s (fun i slot => f i (Warp.start now tn i core slot retry k)) n r) :
    WarpsPlaced s (fun i slot => f i (Warp.start now tn i core slot retry k)) (n + 1) (placeWarp core retry tn now k taken f r n) := by
  obtain ⟨hlen, hnodup, hrest, hothers, hplaced⟩ := h
  have hnew : firstFree (taken ++ r.2) ∉ r.2 := fun hm => firstFree_not_mem (taken ++ r.2) (List.mem_append_right _ hm)
  refine ⟨by simp [placeWarp, hlen], ?_, ?_, fun w hw => ?_, fun i hi => ?_⟩
  · exact List.nodup_append.2 ⟨hnodup, List.pairwise_singleton _ _, fun a ha b hb => by
      rintro rfl
      exact hnew (List.mem_singleton.1 hb ▸ ha)⟩
  · rw [placeWarp, State.setWarp, hrest]
  · simp only [placeWarp, List.mem_append, List.mem_singleton, not_or] at hw
    exact (State.warp_setWarp_ne _ _ _ _ hw.2).trans (hothers w hw.1)
  · simp only [placeWarp]
    by_cases hin : i = n
    · subst hin
      rw [← hlen, getP_append_length, State.warp_setWarp_same, hlen]
      exact ⟨_, rfl⟩
    · have hlt : i < r.2.length := by omega
      have hne : getP 0 r.2 i ≠ firstFree (taken ++ r.2) := fun heq => hnew (heq ▸ getP_mem 0 r.2 hlt)
      rw [getP_append_left _ _ _ hlt, State.warp_setWarp_ne _ _ _ _ hne]
      exact hplaced i (by omega)

theorem warpsPlaced_range (s : State) (core retry tn now : Nat) (k : Kernel) (taken : List Nat) (f : Nat → Warp → Warp) (n : Nat) :
    WarpsPlaced s (fun i slot => f i (Warp.start now tn i core slot retry k)) n
      ((List.range n).foldl (placeWarp core retry tn now k taken f) (s, [])) := by
  induction n with
  | zero => exact ⟨rfl, List.nodup_nil, rfl, fun _ _ => rfl, fun i hi => absurd hi (Nat.not_lt_zero i)⟩
  | succ n ih =>
    rw [List.range_succ, List.foldl_append]
    exact ih.succ

/-! ## A team that is placed -/

/-- A team stands in slot `k`, which held none, with its warps on a core; other slots are as they were. -/
structure TeamPlaced (s t : State) (k core : Nat) (tm : Team) (make : Nat → Nat → Warp) : Prop where
  slot : (s.team k).holds = false
  team : ∃ ws hs pf, t.team k = { tm with live := true, holds := true, core := core, warps := ws, handles := hs, patFree := pf }
  teams : ∀ j, j ≠ k → t.team j = s.team j
  length : (t.team k).warps.length = tm.kern.warps
  nodup : (t.team k).warps.Nodup
  others : ∀ w, w ∉ (t.team k).warps → t.warp w = s.warp w
  placed : ∀ i < tm.kern.warps, ∃ slot, t.warp (getP 0 (t.team k).warps i) = make i slot

/-- What is said of a team that is placed is said of the teams and the warps alone. -/
theorem TeamPlaced.congr {s t s' t' : State} {k core : Nat} {tm : Team} {make : Nat → Nat → Warp} (h : TeamPlaced s t k core tm make)
    (hs : s.teams = s'.teams) (hsw : s.warps = s'.warps) (ht : t'.teams = t.teams) (htw : t'.warps = t.warps) :
    TeamPlaced s' t' k core tm make := by
  have hteam (j : Nat) : t'.team j = t.team j := by unfold State.team; rw [ht]
  have hwarp (w : Nat) : t'.warp w = t.warp w := by unfold State.warp; rw [htw]
  have hteam' (j : Nat) : s.team j = s'.team j := by unfold State.team; rw [hs]
  have hwarp' (w : Nat) : s.warp w = s'.warp w := by unfold State.warp; rw [hsw]
  obtain ⟨hslot, hmine, hothers, hlen, hnodup, hrest, hplaced⟩ := h
  constructor <;> simpa only [hteam, hwarp, ← hteam', ← hwarp']

/-- The warps that a team takes are its own. -/
theorem State.placeTeam_warps (s : State) (core : Nat) (tm : Team) (retry : Nat) (f : Nat → Warp → Warp) :
    let tn := freeSlot Team.holds s.teams
    ∃ r : State × List Nat, WarpsPlaced s (fun i slot => f i (Warp.start s.now tn i core slot retry tm.kern)) tm.kern.warps r ∧
      (s.placeTeam core tm retry f).1 = { r.1.setTeam tn
        { tm with
          live := true, holds := true, core := core, warps := r.2
          handles := tm.kern.bufs.map fun b => { Handle.idle with base := b.1, size := b.2 }, patFree := s.free + 1 } with free := s.free + 1 } :=
  ⟨_, warpsPlaced_range s core retry (freeSlot Team.holds s.teams) s.now tm.kern s.heldWarps f tm.kern.warps, rfl⟩

theorem State.placeTeam_rest (s : State) (core : Nat) (tm : Team) (retry : Nat) (f : Nat → Warp → Warp) :
    let t := (s.placeTeam core tm retry f).1
    t = { s with warps := t.warps, teams := t.teams, free := t.free } := by
  obtain ⟨r, hw, hout⟩ := s.placeTeam_warps core tm retry f
  rw [hout, State.setTeam, hw.rest]

theorem State.placeTeam_placed (s : State) (core : Nat) (tm : Team) (retry : Nat) (f : Nat → Warp → Warp) :
    TeamPlaced s (s.placeTeam core tm retry f).1 (freeSlot Team.holds s.teams) core tm fun i slot =>
      f i (Warp.start s.now (freeSlot Team.holds s.teams) i core slot retry tm.kern) := by
  obtain ⟨r, hw, hout⟩ := s.placeTeam_warps core tm retry f
  rw [hout]
  generalize hk : freeSlot Team.holds s.teams = k at hw
  have hteam (x : Team) (n : Nat) : ({ r.1.setTeam k x with free := n } : State).team k = x := getP_setP_same _ _ _ _
  refine ⟨hk ▸ freeSlot_free rfl s.teams, ⟨_, _, _, hteam _ _⟩, fun j hj => ?_, ?_, ?_, ?_, ?_⟩
  · refine (getP_setP_ne _ _ _ _ _ hj).trans ?_
    rw [hw.rest]
    rfl
  · rw [hteam, hw.length]
  · rw [hteam]
    exact hw.nodup
  · rw [hteam]
    exact hw.others
  · rw [hteam]
    exact hw.placed

/-! ## The core of a team -/

/-- A kernel outside a port group goes to the lowest core that holds it (02 R47). -/
theorem State.groupCores_single {s : State} {p c n : Nat} {k : Kernel} {empty : Bool} (hy : k.ny = 1) (hz : k.nz = 1) (hc : c < 576)
    (hholds : s.holdsTeam p c k empty = true) (hlow : ∀ d < c, s.holdsTeam p d k empty = false) : s.groupCores p k n empty = some [c] := by
  have hfind : (List.range 576).find? (fun c => s.holdsTeam p c k empty) = some c := by
    rw [List.find?_range_eq_some]
    exact ⟨hholds, List.mem_range.2 hc, fun j hj => by simp [hlow j hj]⟩
  simp [State.groupCores, hy, hz, hfind]

/-! ## The order of the grids -/

/-- Grid `a` comes before grid `b` (02 R47): the higher priority, then the order of launch. -/
def State.comesBefore (s : State) (a b : Nat) : Bool :=
  (s.grid b).prio < (s.grid a).prio || ((s.grid a).prio == (s.grid b).prio && (s.grid a).order < (s.grid b).order)
/-- The grid that comes first so far, and one more. -/
def State.earlierGrid (s : State) (m : Option Nat) (g : Nat) : Option Nat :=
  match m with
  | none => some g
  | some k => if s.comesBefore g k then some g else some k
/-- The grid of a list that comes first. -/
def State.firstGrid (s : State) (gs : List Nat) : Option Nat := gs.foldl s.earlierGrid none

theorem State.earlierGrid_of_before {s : State} {g : Nat} {m : Option Nat} (h : ∀ k, m = some k → k = g ∨ s.comesBefore g k = true) :
    s.earlierGrid m g = some g := by
  cases m with
  | none => rfl
  | some k =>
    rcases h k rfl with rfl | hb
    · simp [State.earlierGrid]
    · simp [State.earlierGrid, hb]
theorem State.earlierGrid_mem {s : State} {m : Option Nat} {g k : Nat} (h : s.earlierGrid m g = some k) : k = g ∨ m = some k := by
  unfold State.earlierGrid at h
  split at h
  · cases h
    exact .inl rfl
  · split at h
    · cases h
      exact .inl rfl
    · exact .inr h
theorem State.comesBefore_asymm {s : State} {a b : Nat} (h : s.comesBefore a b = true) : s.comesBefore b a = false := by
  simp only [State.comesBefore, Bool.or_eq_true, decide_eq_true_eq, Bool.and_eq_true, beq_iff_eq] at h
  simp only [State.comesBefore, Bool.or_eq_false_iff, decide_eq_false_iff_not, Bool.and_eq_false_iff, beq_eq_false_iff_ne]
  omega

/-- Once found, the grid before all others stays. -/
theorem State.foldl_earlierGrid_stays {s : State} {l : List Nat} {g : Nat} (h : ∀ k ∈ l, k = g ∨ s.comesBefore g k = true) :
    l.foldl s.earlierGrid (some g) = some g := by
  refine List.foldlRecOn l s.earlierGrid (motive := (· = some g)) rfl ?_
  rintro _ rfl k hk
  rcases h k hk with rfl | hb
  · simp [State.earlierGrid]
  · simp [State.earlierGrid, State.comesBefore_asymm hb]
theorem State.foldl_earlierGrid_eq {s : State} {l : List Nat} {g : Nat} {m : Option Nat} (hg : g ∈ l)
    (h : ∀ k ∈ l, k = g ∨ s.comesBefore g k = true) (hm : ∀ k, m = some k → k = g ∨ s.comesBefore g k = true) :
    l.foldl s.earlierGrid m = some g := by
  induction l generalizing m with
  | nil => simp at hg
  | cons a l ih =>
    have htail : ∀ k ∈ l, k = g ∨ s.comesBefore g k = true := fun k hk => h k (List.mem_cons_of_mem a hk)
    rw [List.foldl_cons]
    by_cases hag : a = g
    · subst hag
      rw [State.earlierGrid_of_before hm]
      exact State.foldl_earlierGrid_stays htail
    · refine ih ((List.mem_cons.1 hg).resolve_left (Ne.symm hag)) htail fun k hk => ?_
      rcases State.earlierGrid_mem hk with rfl | hk
      · exact h k (by simp)
      · exact hm k hk
theorem State.firstGrid_eq {s : State} {l : List Nat} {g : Nat} (hg : g ∈ l) (h : ∀ k ∈ l, k = g ∨ s.comesBefore g k = true) :
    s.firstGrid l = some g := State.foldl_earlierGrid_eq hg h fun k hk => by cases hk

theorem State.gridReady_lt {s : State} {p g : Nat} (h : s.gridReady p g = true) : g < s.grids.length := by
  refine Nat.lt_of_not_le fun hge => ?_
  have hidle : s.grid g = Grid.idle := getP_beyond _ _ _ hge
  simp [State.gridReady, hidle, Grid.idle] at h

/-- With no bin due and no team to restore, the grid that comes first is placed (02 R47). -/
theorem State.nextPlacing_grid {s : State} {p g : Nat} {cores : List Nat} (hnever : s.neverGrid p = none) (hbins : (s.part p).dueBins = [])
    (hrest : (s.part p).restores = []) (hready : s.gridReady p g = true)
    (hfirst : ∀ h, s.gridReady p h = true → h = g ∨ (s.grid h).prio < (s.grid g).prio ∨
      ((s.grid h).prio = (s.grid g).prio ∧ (s.grid g).order < (s.grid h).order))
    (hcores : s.groupCores p (s.grid g).kern (s.grid g).groupSize false = some cores) : s.nextPlacing p = some (.grid g cores) := by
  have hbest : s.firstGrid ((List.range s.grids.length).filter (s.gridReady p)) = some g := by
    refine State.firstGrid_eq (List.mem_filter.2 ⟨List.mem_range.2 (State.gridReady_lt hready), hready⟩) fun h hh => ?_
    have := hfirst h (List.mem_filter.1 hh).2
    simp only [State.comesBefore, Bool.or_eq_true, decide_eq_true_eq, Bool.and_eq_true, beq_iff_eq]
    omega
  simp only [State.nextPlacing, hnever, hbins, hrest, List.filter_nil, List.filterMap_nil, List.foldl_nil]
  generalize hm : List.foldl _ none (List.filter (s.gridReady p) (List.range s.grids.length)) = m
  obtain rfl : m = some g := hm.symm.trans hbest
  simp only [hcores, Option.map_some]

/-- A bin whose first team is due comes before every grid and every restore (02 R47, R49). -/
theorem State.nextPlacing_bin {s : State} {p b : Nat} {bs cores : List Nat} {cause at_ : Nat} {recs : List BinRec}
    {rest : List (Nat × Nat × List BinRec)} (hnever : s.neverGrid p = none) (hbins : (s.part p).dueBins = b :: bs)
    (hdue : (s.bin b).due = (cause, at_, recs) :: rest) (hat : at_ ≤ s.now) (hcores : s.groupCores p (s.bin b).kern 1 false = some cores) :
    s.nextPlacing p = some (.bin b cores) := by
  simp only [State.nextPlacing, hnever, hbins, hdue, hat, ↓reduceIte, hcores, Option.map_some]

/-! ## A team of a grid -/

theorem exec_teamPlacement (s : State) : exec .teamPlacement s = execTeamPlacement s := rfl

/-- A warp starts with every thread running at the entry of its kernel (02 R26). -/
theorem Warp.start_lane (now tn i core slot retry : Nat) (k : Kernel) {l : Nat} (h : l < 64) :
    (Warp.start now tn i core slot retry k).lane l = { Lane.idle with st := .running, pc := k.entry } := getP_replicate _ _ h

/-- The L1 of a core that is cleared holds no line, and no other L1 changes (06 R138). -/
theorem State.l1Clear_empty (s : State) (c : Nat) : Claims.l1Empty s (s.l1Clear c) c := by
  constructor
  · intro la
    simpa [State.l1Line, State.l1Clear] using fun x _ h h' => absurd h' h
  · intro d hd la
    simp only [State.l1Line, State.l1Clear, List.find?_filter]
    congr 1
    funext x
    rw [Bool.eq_iff_iff]
    simp only [decide_eq_true_eq, Bool.and_eq_true, bne_iff_ne, beq_iff_eq, and_iff_right_iff_imp]
    rintro ⟨rfl, -⟩
    exact hd

/-- The next team of a grid. -/
def State.gridTeam (s : State) (p g : Nat) : Team :=
  let x := s.grid g
  { Team.idle with
    part := p, grid := g, gridId := x.id, ctx := x.ctx, num := x.next, depth := x.depth, nteams := x.nteams, asid := x.asid, prio := x.prio
    sb := x.sb, sz := x.sz, kern := x.kern }
/-- The state in which a team of a grid takes its core: the core of a child's team holds no line in its L1 (02 R48). -/
def State.beforeGrid (s : State) (g c : Nat) : State := if (s.grid g).host then s else s.l1Clear c
/-- The state with the next team of a grid on a core, the grid and the dispatcher as they were. -/
def State.withGridTeam (s : State) (p g c : Nat) : State :=
  ((s.beforeGrid g c).placeTeam c (s.gridTeam p g) (s.beforeGrid g c).now fun _ w => { w with s := (s.grid g).args }).1

theorem State.placeGrid_single (s : State) (p g c : Nat) :
    s.placeGrid p g [c] = ((s.withGridTeam p g c).onGrid g fun y => { y with next := y.next + 1, liveTeams := y.liveTeams + 1 }).onPart p
      fun q => { q with placeAt := (s.withGridTeam p g c).now + 8 } := rfl

theorem State.beforeGrid_rest (s : State) (g c : Nat) :
    s.beforeGrid g c = { s with l1 := (s.beforeGrid g c).l1, reqs := (s.beforeGrid g c).reqs } := by
  unfold State.beforeGrid
  split <;> rfl
theorem State.withGridTeam_rest (s : State) (p g c : Nat) :
    let t := s.withGridTeam p g c
    t = { s with warps := t.warps, teams := t.teams, free := t.free, l1 := (s.beforeGrid g c).l1, reqs := (s.beforeGrid g c).reqs } := by
  intro t
  rw [show t = _ from State.placeTeam_rest _ _ _ _ _, s.beforeGrid_rest g c]

/-- One team of a grid stands on its core, with the arguments of the grid (02 R26, R40, R47). -/
theorem State.placeGrid_placed (s : State) (p g c : Nat) :
    ∃ k, TeamPlaced s (s.placeGrid p g [c]) k c (s.gridTeam p g) fun i slot =>
      { Warp.start s.now k i c slot s.now (s.grid g).kern with s := (s.grid g).args } := by
  have hbefore := s.beforeGrid_rest g c
  have hnow : (s.beforeGrid g c).now = s.now := by rw [hbefore]
  have h := (s.beforeGrid g c).placeTeam_placed c (s.gridTeam p g) (s.beforeGrid g c).now fun _ w => { w with s := (s.grid g).args }
  rw [hnow] at h
  refine ⟨_, h.congr ?_ ?_ ?_ ?_⟩
  · rw [hbefore]
  · rw [hbefore]
  · rw [State.placeGrid_single, State.onPart_teams, State.onGrid_teams, State.withGridTeam, hnow]
  · rw [State.placeGrid_single, State.onPart_warps, State.onGrid_warps, State.withGridTeam, hnow]
theorem State.placeGrid_grid (s : State) (p g c : Nat) :
    (s.placeGrid p g [c]).grid g = { s.grid g with next := (s.grid g).next + 1, liveTeams := (s.grid g).liveTeams + 1 } := by
  rw [State.placeGrid_single, State.grid, State.onPart_grids, ← State.grid, State.grid_onGrid_same, s.withGridTeam_rest p g c]
  rfl
theorem State.placeGrid_grid_ne (s : State) (p c : Nat) {g h : Nat} (hh : h ≠ g) : (s.placeGrid p g [c]).grid h = s.grid h := by
  rw [State.placeGrid_single, State.grid, State.onPart_grids, ← State.grid, State.grid_onGrid_ne _ _ _ _ hh, s.withGridTeam_rest p g c]
  rfl
theorem State.placeGrid_placeAt (s : State) (p g c : Nat) : ((s.placeGrid p g [c]).part p).placeAt = s.now + 8 := by
  rw [State.placeGrid_single, State.part_onPart_same, s.withGridTeam_rest p g c]
theorem State.placeGrid_l1 (s : State) (p g c : Nat) (hhost : (s.grid g).host = false) : Claims.l1Empty s (s.placeGrid p g [c]) c := by
  have hl1 : (s.placeGrid p g [c]).l1 = (s.l1Clear c).l1 := by
    rw [State.placeGrid_single, State.onPart_l1, State.onGrid_l1, s.withGridTeam_rest p g c]
    simp [State.beforeGrid, hhost]
  have hclear := s.l1Clear_empty c
  simpa only [Claims.l1Empty, State.l1Line, hl1] using hclear

/-! ## A team of a bin -/

theorem State.takeRef_keeps (s : State) (a : Nat) : s.Keeps (s.takeRef a) := s.onTile_keeps a _
theorem State.countRf_keeps (s : State) (w : Nat) (rs : List Nat) : s.Keeps (s.countRf w rs) := .aside rfl rfl rfl rfl rfl rfl
theorem State.startDelivery_keeps (s : State) (w : Nat) : s.Keeps (s.startDelivery w) :=
  .foldl (fun t n => .aside (t := t.later 0 .laneDelivery 0 0 n) rfl rfl rfl rfl rfl rfl) s _

/-- A bin without the records of the team that is placed, and its dispatcher (02 R49, R50). -/
def State.binTaken (s : State) (p b : Nat) (recs : List BinRec) (rest : List (Nat × Nat × List BinRec)) : State :=
  (s.onBin b fun x =>
    { x with
      due := rest, launched := x.launched + 1, freed := (s.now, recs.length + (if x.freed.1 = s.now then x.freed.2 else 0)) }).onPart p fun q =>
    { q with dueBins := q.dueBins.drop 1, placeAt := s.now + 8 }
/-- The next team of a bin. -/
def State.binTeam (s : State) (p b : Nat) : Team :=
  let x := s.bin b
  { Team.idle with
    part := p, bin := some b, gridId := x.gridId, ctx := x.gridId, num := x.launched % 2 ^ 24, asid := x.asid, prio := x.prio, kern := x.kern }
/-- A warp of a bin's team: its records, and the cause and the count (02 R49, R52). -/
def binWarp (k : Kernel) (cause : Nat) (recs : List BinRec) (i : Nat) (w : Warp) : Warp :=
  { w with
    s := [BitVec.ofNat 32 cause, BitVec.ofNat 32 recs.length]
    lanes := (List.range 64).map fun l => BinRec.lane (recAt recs (64 * i + l)) k
    recs := (recs.drop (64 * i)).take 64
    deliv := (List.range 64).filterMap fun l => match recAt recs (64 * i + l) with
      | some r => if r.kind.delivered then some ⟨l, 0, none⟩ else none
      | none => none }
/-- The state with the team of a bin on its core. -/
def State.withBinTeam (s : State) (p b c cause : Nat) (recs : List BinRec) (rest : List (Nat × Nat × List BinRec)) : State :=
  ((s.binTaken p b recs rest).placeTeam c (s.binTeam p b) s.now (binWarp (s.bin b).kern cause recs)).1

/-- Tile references, the count of register writes and deliveries are the upkeep that follows. -/
theorem State.placeBin_keeps {s : State} {p b c cause at_ : Nat} {recs : List BinRec} {rest : List (Nat × Nat × List BinRec)}
    (hdue : (s.bin b).due = (cause, at_, recs) :: rest) : (s.withBinTeam p b c cause recs rest).Keeps (s.placeBin p b [c]) := by
  unfold State.placeBin
  simp only [hdue]
  refine State.Keeps.trans ?_ (.foldl State.startDelivery_keeps _ _)
  refine State.Keeps.trans ?_ (.foldl (fun t w => t.countRf_keeps w _) _ _)
  refine State.Keeps.trans ?_ (.foldl State.dropRef_keeps _ _)
  exact .foldl (fun t w => (State.Keeps.onWarp ⟨rfl, rfl, rfl, rfl⟩).trans (.foldl State.takeRef_keeps _ _)) _ _

/-- The dispatcher's own part of the placement of a bin's team. -/
theorem State.withBinTeam_bin (s : State) (p b c cause : Nat) (recs : List BinRec) (rest : List (Nat × Nat × List BinRec)) :
    ((s.withBinTeam p b c cause recs rest).bin b).due = rest ∧
      ((s.withBinTeam p b c cause recs rest).bin b).launched = (s.bin b).launched + 1 := by
  have hbin : (s.withBinTeam p b c cause recs rest).bin b = (s.binTaken p b recs rest).bin b := by
    rw [State.withBinTeam, State.placeTeam_rest]
    rfl
  rw [hbin, State.binTaken, State.bin, State.onPart_bins, State.onBin, getP_setP_same]
  exact ⟨rfl, rfl⟩
theorem State.withBinTeam_part (s : State) (p b c cause : Nat) (recs : List BinRec) (rest : List (Nat × Nat × List BinRec)) :
    ((s.withBinTeam p b c cause recs rest).part p).dueBins = (s.part p).dueBins.drop 1 ∧
      ((s.withBinTeam p b c cause recs rest).part p).placeAt = s.now + 8 := by
  have hpart : (s.withBinTeam p b c cause recs rest).part p = (s.binTaken p b recs rest).part p := by
    rw [State.withBinTeam, State.placeTeam_rest]
    rfl
  rw [hpart, State.binTaken, State.part_onPart_same]
  exact ⟨rfl, rfl⟩
theorem State.withBinTeam_placed (s : State) (p b c cause : Nat) (recs : List BinRec) (rest : List (Nat × Nat × List BinRec)) :
    ∃ k, TeamPlaced s (s.withBinTeam p b c cause recs rest) k c (s.binTeam p b) fun i slot =>
      binWarp (s.bin b).kern cause recs i (Warp.start s.now k i c slot s.now (s.bin b).kern) :=
  ⟨_, (State.placeTeam_placed (s.binTaken p b recs rest) c (s.binTeam p b) s.now (binWarp (s.bin b).kern cause recs)).congr rfl rfl rfl rfl⟩

/-- A lane of a warp of a bin's team is that of its record. -/
theorem binWarp_lane (k : Kernel) (cause : Nat) (recs : List BinRec) (i : Nat) (w : Warp) {l : Nat} (h : l < 64) :
    (binWarp k cause recs i w).lane l = BinRec.lane (recAt recs (64 * i + l)) k :=
  getP_map_range Lane.idle (fun l => BinRec.lane (recAt recs (64 * i + l)) k) 64 l h
/-- The lane of a `SPAWN` record runs at the entry with the record in its registers (02 R49, R52). -/
theorem BinRec.lane_spawn {recs : List BinRec} {j : Nat} (k : Kernel) (hj : j < recs.length) (hkind : ∀ r ∈ recs, r.kind = .spawn) :
    BinRec.lane (recAt recs j) k =
      { Lane.idle with st := .running, pc := k.entry, v := (getP BinRec.blank recs j).words.take k.regs } := by
  simp only [recAt, hj, ↓reduceIte, BinRec.lane, hkind _ (getP_mem _ _ hj)]
/-- A lane beyond the records has exited. -/
theorem BinRec.lane_beyond {recs : List BinRec} {j : Nat} (k : Kernel) (hj : recs.length ≤ j) :
    BinRec.lane (recAt recs j) k = Lane.idle := by
  simp only [recAt, Nat.not_lt.2 hj, ↓reduceIte, BinRec.lane]

/-- What a warp of a bin's team starts with: its threads, the cause and the count. -/
theorem binWarp_starts {now k i c slot cause : Nat} {kern : Kernel} {recs : List BinRec} {y : Warp} (hrecs : ∀ r ∈ recs, r.kind = .spawn)
    (h : (binWarp kern cause recs i (Warp.start now k i c slot now kern)).Alike y) :
    y.live = true ∧ y.team = k ∧ y.sreg 0 = BitVec.ofNat 32 cause ∧ y.sreg 1 = BitVec.ofNat 32 recs.length ∧
      ∀ l < 64,
        (64 * i + l < recs.length → (y.lane l).st = .running ∧ (y.lane l).pc = kern.entry ∧
          (y.lane l).v = (getP BinRec.blank recs (64 * i + l)).words.take kern.regs) ∧
        (recs.length ≤ 64 * i + l → (y.lane l).st = .exited) := by
  refine ⟨h.live, h.team, ?_, ?_, fun l hl => ?_⟩
  · rw [Warp.sreg, h.scalars]
    rfl
  · rw [Warp.sreg, h.scalars]
    rfl
  · rw [Warp.lane, h.lanes, ← Warp.lane, binWarp_lane _ _ _ _ _ hl]
    constructor
    · intro hin
      rw [BinRec.lane_spawn _ hin hrecs]
      exact ⟨rfl, rfl, rfl⟩
    · intro hout
      rw [BinRec.lane_beyond _ hout]
      rfl

/-! ## The statement -/

theorem exec_teamPlacement_grid {s : State} {p g : Nat} {cores : List Nat} (hev : s.ev.a = p) (h : s.nextPlacing p = some (.grid g cores)) :
    exec .teamPlacement s = .next (s.placeGrid p g cores) := by
  subst hev
  simp only [exec_teamPlacement, execTeamPlacement, h]
theorem exec_teamPlacement_bin {s : State} {p b : Nat} {cores : List Nat} (hev : s.ev.a = p) (h : s.nextPlacing p = some (.bin b cores)) :
    exec .teamPlacement s = .next (s.placeBin p b cores) := by
  subst hev
  simp only [exec_teamPlacement, execTeamPlacement, h]

/-- The core is the lowest that holds the kernel, and what is placed is the bin that is due or the grid that comes first. -/
theorem placement : Claims.Placement := by
  unfold Claims.Placement
  intro s p c kern hev hnever hny hnz hc hholds hlow
  have hcores (n : Nat) : s.groupCores p kern n false = some [c] := State.groupCores_single hny hnz hc hholds hlow
  constructor
  · intro g x hkern hbins hrest hready hfirst
    have hexec := exec_teamPlacement_grid hev (State.nextPlacing_grid hnever hbins hrest hready hfirst (hkern ▸ hcores _))
    obtain ⟨k, hslot, ⟨ws, hs, pf, hteam⟩, hothers, hlen, hnodup, hwarps, hplaced⟩ := s.placeGrid_placed p g c
    subst hkern
    refine ⟨_, k, hexec, hslot, ?_, ?_, ?_, ?_, ?_, ?_, ?_, hlen, hnodup, hothers, hwarps, fun i hi => ?_, s.placeGrid_grid p g c,
      fun h hh => s.placeGrid_grid_ne p c hh, s.placeGrid_l1 p g c, s.placeGrid_placeAt p g c⟩
    case refine_8 =>
      obtain ⟨slot, hw⟩ := hplaced i hi
      dsimp only
      rw [hw]
      exact ⟨rfl, rfl, rfl, rfl, rfl, rfl, rfl, fun l hl => Warp.start_lane s.now k i c slot s.now x.kern hl⟩
    all_goals simp only [hteam, State.gridTeam, x]
  · intro b bs cause at_ recs rest x hkern hbins hdue hat hrecs
    have hexec := exec_teamPlacement_bin hev (State.nextPlacing_bin hnever hbins hdue hat (hkern ▸ hcores 1))
    have hkeep := s.placeBin_keeps (p := p) (c := c) hdue
    obtain ⟨k, hslot, ⟨ws, hs, pf, hteam⟩, -, hlen, -, -, hplaced⟩ := s.withBinTeam_placed p b c cause recs rest
    obtain ⟨hrest, hlaunched⟩ := s.withBinTeam_bin p b c cause recs rest
    obtain ⟨hdrop, hplaceAt⟩ := s.withBinTeam_part p b c cause recs rest
    subst hkern
    rw [← hkeep.team] at hteam hlen
    refine ⟨_, k, hexec, hslot, ?_, ?_, ?_, ?_, ?_, ?_, hlen, fun i hi => ?_, ?_, ?_, ?_, ?_⟩
    case refine_7 =>
      obtain ⟨slot, hw⟩ := hplaced i hi
      have halike := hkeep.warps (getP 0 ((s.placeBin p b [c]).team k).warps i)
      rw [hkeep.team, hw] at halike
      rw [hkeep.team]
      exact binWarp_starts (fun r hr => (hrecs r hr).1) halike
    case refine_8 => rw [hkeep.bin, hrest]
    case refine_9 => rw [hkeep.bin, hlaunched]
    case refine_10 => rw [hkeep.part, hdrop, hbins, List.drop_one, List.tail_cons]
    case refine_11 => rw [hkeep.part, hplaceAt]
    all_goals simp only [hteam, State.binTeam, x]

/-- Settles O56: the ends of warps, teams and grids, and the placement of the next team. -/
theorem teamLifetimes : Obligations.TeamLifetimes := by
  unfold Obligations.TeamLifetimes
  exact ⟨retirement, placement⟩

end Sys2Proof.Machine
end

section
/-!
PROOFS. Partitions at a context boundary and the shares of their cores (17 R353, R366-R369), the engine budget (17 R370), and carve-outs
(05 R118).
-/
namespace Sys2Proof

/-- An entry written is read, whatever pads the list. -/
theorem getP_setP_padded {α : Type} (d e : α) (l : List α) (i : Nat) (v : α) : getP d (setP e l i v) i = v := by
  induction i generalizing l with
  | zero => cases l <;> rfl
  | succ i ih => cases l with
    | nil => exact ih []
    | cons x l => exact ih l

/-- A function applied to each entry, where it keeps the padding. -/
theorem getP_map_of_default {α : Type} {d : α} {f : α → α} (hf : f d = d) (l : List α) (i : Nat) : getP d (l.map f) i = f (getP d l i) := by
  induction l generalizing i with
  | nil => simp [hf]
  | cons x l ih => cases i with
    | zero => rfl
    | succ i => exact ih i

end Sys2Proof

namespace Sys2Proof.Machine

/-! ## Nothing waits -/

theorem filter_eq_nil_of_false {α : Type} {p : α → Bool} (h : ∀ x, p x = false) (l : List α) : l.filter p = [] :=
  List.filter_eq_nil_iff.2 fun x _ => by rw [h x]; exact Bool.false_ne_true

theorem State.req_dead {s : State} (h : ∀ r ∈ s.reqs, r.live = false) (i : Nat) : (s.req i).live = false := by
  by_cases hi : i < s.reqs.length
  · exact h _ (getP_mem _ _ hi)
  · rw [State.req, getP_beyond _ _ _ (Nat.le_of_not_lt hi)]
    rfl
theorem State.waitingReqs_eq_nil {s : State} (h : ∀ r ∈ s.reqs, r.live = false) (p : Req → Bool) : s.waitingReqs p = [] := by
  rw [State.waitingReqs, filter_eq_nil_of_false fun i => by rw [State.req_dead h i, Bool.false_and, Bool.false_and], List.foldr_nil]
theorem State.releasePort_eq_self {s : State} (h : ∀ r ∈ s.reqs, r.live = false) (c : Nat) : s.releasePort c = s := by
  rw [State.releasePort, State.atPort, filter_eq_nil_of_false fun i => by rw [State.req_dead h i, Bool.false_and, Bool.false_and], List.foldr_nil,
    List.foldl_nil]
theorem State.waitingPorts_eq_nil {s : State} (h : ∀ r ∈ s.reqs, r.live = false) : s.waitingPorts = [] := by
  have hnone : (s.reqs.filter fun r => r.live && r.port) = [] := List.filter_eq_nil_iff.2 fun r hr => by simp [h r hr]
  simp [State.waitingPorts, hnone]
/-- No transfer asks for a token where every channel is idle. -/
theorem State.tokenless_eq_nil {s : State} (h : ∀ c ∈ s.channels, c = Channel.idle) (c : Nat) : s.tokenless c = [] := by
  unfold State.tokenless
  split
  · rfl
  · refine List.flatMap_eq_nil_iff.2 fun x hx => ?_
    rw [h x hx]
    rfl

/-! ## Full buckets, and PARTCFG and TKSHARE (17 R353, R366-R368) -/

theorem State.boundary_iff (s : State) : s.boundary = true ↔ Claims.boundary s := by
  simp [State.boundary, State.vacant, State.noGrid, Claims.boundary, and_assoc]

/-- The state with every bucket at its BURST. -/
def State.withFullBuckets (s : State) : State :=
  { s with buckets := (List.range 576).map fun c => (s.share (s.partOfSector (sectorOf c))).1 }
theorem State.withFullBuckets_bucket (s : State) {c : Nat} (hc : c < 576) :
    getP 0 s.withFullBuckets.buckets c = Claims.burst (getP 0 s.tkshare (s.partOfSector (sectorOf c))) := by
  unfold State.withFullBuckets
  rw [getP_map_range 0 _ 576 c hc]
  rfl
theorem State.withFullBuckets_rest (s : State) : s.withFullBuckets = { s with buckets := s.withFullBuckets.buckets } := by
  simp only [State.withFullBuckets]
theorem State.withFullBuckets_reqs (s : State) : s.withFullBuckets.reqs = s.reqs := by rw [s.withFullBuckets_rest]
theorem State.withFullBuckets_partcfg (s : State) : s.withFullBuckets.partcfg = s.partcfg := by rw [s.withFullBuckets_rest]
theorem State.withFullBuckets_parts (s : State) : s.withFullBuckets.parts = s.parts := by rw [s.withFullBuckets_rest]
theorem State.withFullBuckets_tkshare (s : State) : s.withFullBuckets.tkshare = s.tkshare := by rw [s.withFullBuckets_rest]
theorem State.fillBuckets_eq {s : State} (h : ∀ r ∈ s.reqs, r.live = false) : s.fillBuckets = s.withFullBuckets := by
  have hports : s.withFullBuckets.waitingPorts = [] := State.waitingPorts_eq_nil (by rwa [State.withFullBuckets_reqs])
  change s.withFullBuckets.waitingPorts.foldl State.releasePort s.withFullBuckets = _
  rw [hports, List.foldl_nil]

/-- A partition that starts again. -/
def Part.restarted (x : Part) : Part := { x with halted := false, idle := false, idleSeen := false }
/-- The state in which PARTCFG has its new value and the buckets are not yet filled. -/
def State.repartitioned (s : State) (v : DWord) : State :=
  { s with partcfg := v &&& 7, lastCharge := [], parts := s.parts.map Part.restarted }
theorem State.repartitioned_part (s : State) (v : DWord) (p : Nat) : (s.repartitioned v).part p = (s.part p).restarted :=
  getP_map_of_default rfl s.parts p

theorem exec_partcfgWrite_boundary {s : State} (h : Claims.boundary s ∧ s.filledSlices = []) (hreqs : ∀ r ∈ s.reqs, r.live = false) :
    exec .partcfgWrite s = .next (s.repartitioned s.ev.v).withFullBuckets := by
  have hok : (s.boundary && s.filledSlices.isEmpty) = true := by
    rwa [Bool.and_eq_true, State.boundary_iff, List.isEmpty_iff]
  rw [← State.fillBuckets_eq (s := s.repartitioned s.ev.v) hreqs]
  exact congrArg Host.Outcome.next (if_pos hok)
theorem exec_partcfgWrite_ignored {s : State} (h : ¬(Claims.boundary s ∧ s.filledSlices = [])) : exec .partcfgWrite s = .next s := by
  have hbad : ¬(s.boundary && s.filledSlices.isEmpty) = true := by
    rwa [Bool.and_eq_true, State.boundary_iff, List.isEmpty_iff]
  exact congrArg Host.Outcome.next (if_neg hbad)

/-- The state with a new share of a partition, or new weights of the queues. -/
def State.withShare (s : State) (i : Nat) (v : DWord) : State :=
  { s with tkshare := setP 0 s.tkshare i (v &&& (if i < 6 then 0xFFFFFFFF else 0xFFFF)) }
theorem exec_tkshareWrite {s : State} (h : s.ev.a < 7) (hreqs : ∀ r ∈ s.reqs, r.live = false) :
    exec .tkshareWrite s = .next (s.withShare s.ev.a s.ev.v).withFullBuckets := by
  rw [← State.fillBuckets_eq (s := s.withShare s.ev.a s.ev.v) hreqs]
  change Host.Outcome.next (s.writeTkshare s.ev.a s.ev.v) = _
  unfold State.writeTkshare State.withShare
  by_cases h6 : s.ev.a < 6
  · simp only [h6, ↓reduceIte]
  · have h6' : s.ev.a = 6 := by omega
    simp only [h6', Nat.lt_irrefl, ↓reduceIte]

/-! ## Refill (17 R368, R369) -/

/-- EXTRA's sum over some partitions: one without a rate or without sectors adds nothing. -/
theorem foldl_weight_filter {w w' : Nat → Nat} {g : Nat → Bool} (hw : ∀ p, w' p = if g p then w p else 0) (f : Nat → Bool)
    (l : List Nat) (n : Nat) : ((l.filter g).filter f).foldl (fun n p => n + w p) n = n + ((l.filter f).map w').sum := by
  induction l generalizing n with
  | nil => rfl
  | cons p l ih =>
    rw [List.filter_filter] at ih ⊢
    cases hg : g p <;> cases hf : f p <;> simp [hg, hf, ih, hw p, Nat.add_assoc]
theorem State.shareOf_eq (s : State) (p : Nat) :
    Claims.shareOf s p = if (s.share p).2 != 0 && !(s.sectorsOf p).isEmpty then (s.share p).2 * (s.coresOf p).length else 0 := by
  change (if s.sectorsOf p = [] then 0 else (s.share p).2 * (s.coresOf p).length) = _
  by_cases hsectors : s.sectorsOf p = []
  · simp [hsectors]
  · by_cases hrate : (s.share p).2 = 0 <;> simp [hsectors, hrate]
theorem State.extra_eq (s : State) (q : Nat) : s.extra q = Claims.extra s q := by
  have hidle : Claims.idleSeen s = s.idleView := rfl
  have hsum := foldl_weight_filter s.shareOf_eq
  simp only [State.extra, Claims.extra, hsum, hidle, Nat.zero_add, beq_true, beq_false]
  rfl

/-- The state after the refill of one core's bucket. -/
def State.refill (s : State) (c p : Nat) : State :=
  { s with
    buckets := setP 0 s.buckets c (min (s.share p).1 (getP 0 s.buckets c + (s.share p).2 + s.extra p))
    refilled := setP 0 s.refilled c (s.now + 1) }
theorem exec_bucketRefill_metered {s : State} (hquiet : Claims.quiet s) (h : Claims.rate s (s.partOfSector (sectorOf s.ev.a)) ≠ 0) :
    exec .bucketRefill s = .next (s.refill s.ev.a (s.partOfSector (sectorOf s.ev.a))) := by
  obtain ⟨hreqs, -, hchannels⟩ := hquiet
  rw [← State.releasePort_eq_self (s := s.refill _ _) hreqs s.ev.a]
  refine congrArg Host.Outcome.next ((if_neg h).trans ?_)
  rw [State.tokenless_eq_nil hchannels]
  rfl
theorem exec_bucketRefill_unmetered {s : State} (h : Claims.rate s (s.partOfSector (sectorOf s.ev.a)) = 0) : exec .bucketRefill s = .next s :=
  congrArg Host.Outcome.next (if_pos h)
theorem State.refill_bucket (s : State) (c p k : Nat) :
    getP 0 (s.refill c p).buckets k = if k = c then
      min (Claims.burst (getP 0 s.tkshare p)) (getP 0 s.buckets c + Claims.rate s p + Claims.extra s p) else getP 0 s.buckets k := by
  rw [← State.extra_eq]
  exact getP_setP _ _ _ _ _

/-! ## Idle partitions (17 R369) -/

theorem exec_partitionIdleChange (s : State) :
    exec .partitionIdleChange s = .next ((s.onPart s.ev.a fun x => { x with idle := !x.idle }).later 64 .idleStateArrival s.ev.a
      (if (s.part s.ev.a).idle then 0 else 1)) := by
  change Host.Outcome.next ((s.onPart s.ev.a fun x => { x with idle := !x.idle }).later 64 .idleStateArrival s.ev.a
    (if !(s.part s.ev.a).idle then 1 else 0)) = _
  cases (s.part s.ev.a).idle <;> rfl

/-- The idle state of a partition as it reaches the cores. -/
def Part.sees (x : Part) (now : Nat) (b : Bool) : Part := if x.idleSeen = b then x else { x with idleSeen := b, idleAt := now + 1 }
theorem Part.sees_idleSeen (x : Part) (now : Nat) (b : Bool) : (x.sees now b).idleSeen = b := by
  unfold Part.sees
  split
  · assumption
  · rfl
theorem exec_idleStateArrival (s : State) :
    exec .idleStateArrival s = .next (s.onPart s.ev.a fun x => x.sees s.now (s.ev.b == 1)) := rfl

/-! ## The engine budget (17 R370) -/

/-- The state with a new budget of a sector. -/
def State.withBudget (s : State) (sec : Nat) (v : DWord) : State := { s with engbudget := setP 40 s.engbudget sec (v &&& 0xFF) }
theorem State.withBudget_budget (s : State) (sec : Nat) (v : DWord) : (s.withBudget sec v).budget sec = min 40 (v.toNat % 256) := by
  have hand : (v &&& 0xFF).toNat % 256 = v.toNat % 256 := by
    rw [BitVec.toNat_and, show (0xFF : DWord).toNat = 2 ^ 8 - 1 from rfl, Nat.and_two_pow_sub_one_eq_mod, Nat.mod_mod]
  rw [State.budget, State.withBudget, getP_setP_padded, hand]

theorem sleepSome_of_le {budget use : Nat} (h : use ≤ budget) (l : List Nat) : (sleepSome budget use l).2 = [] := by
  cases l with
  | nil => rfl
  | cons e l => simp only [sleepSome, h, ↓reduceIte]
theorem mem_of_mem_sleepSome {budget use e : Nat} {l : List Nat} (h : e ∈ (sleepSome budget use l).2) : e ∈ l := by
  induction l generalizing use with
  | nil => exact h
  | cons a l ih =>
    unfold sleepSome at h
    split at h
    · cases h
    · rcases List.mem_cons.1 h with rfl | h
      · exact List.mem_cons_self
      · exact List.mem_cons_of_mem a (ih h)

theorem State.sleepOver_rest (s : State) (sec : Nat) : s.sleepOver sec = { s with engines := (s.sleepOver sec).engines } := by
  refine List.foldlRecOn _ _ (motive := fun u : State => u = { s with engines := u.engines }) rfl ?_
  intro u hu e _
  rw [hu]
  rfl
/-- Only an idle engine goes to sleep. -/
theorem State.sleepOver_engine {s : State} {e : Nat} (h : (s.engine e).st ≠ .idle) (sec : Nat) : (s.sleepOver sec).engine e = s.engine e := by
  refine List.foldlRecOn _ _ (motive := fun u : State => u.engine e = s.engine e) rfl ?_
  intro u hu a ha
  have hidle := (List.mem_filter.1 (mem_of_mem_sleepSome ha)).2
  have hne : e ≠ a := by
    rintro rfl
    exact h (beq_iff_eq.1 hidle)
  rw [← hu]
  exact getP_setP_ne _ _ _ _ _ hne
theorem State.sleepOver_of_le {s : State} {sec : Nat} (h : s.tokensUsed sec ≤ s.budget sec) : s.sleepOver sec = s := by
  rw [State.sleepOver, sleepSome_of_le h]
  rfl

/-- The second state differs from the first in the grace of leases and the agenda. -/
def State.OnlyGrace (s t : State) : Prop :=
  t = { s with leases := t.leases, agenda := t.agenda } ∧ ∀ l, t.lease l = { s.lease l with grace := (t.lease l).grace }
theorem State.OnlyGrace.refl (s : State) : s.OnlyGrace s := ⟨rfl, fun _ => rfl⟩
theorem State.OnlyGrace.trans {s t u : State} (h : s.OnlyGrace t) (k : t.OnlyGrace u) : s.OnlyGrace u := by
  obtain ⟨hst, hlease⟩ := h
  obtain ⟨htu, hlease'⟩ := k
  refine ⟨?_, fun l => ?_⟩
  · rw [htu, hst]
  · rw [hlease' l, hlease l]
theorem State.startGrace_onlyGrace (s : State) (l : Nat) (o : Origin) : s.OnlyGrace (s.startGrace l o) := by
  refine ⟨rfl, fun k => ?_⟩
  have hlease : (s.startGrace l o).lease k = if k = l then { s.lease l with grace := some (s.now + 20000, o) } else s.lease k :=
    getP_setP _ _ _ _ _
  rw [hlease]
  split
  · subst k
    rfl
  · rfl
theorem State.graceYoungest_onlyGrace (s : State) (sec : Nat) (l : List Nat) : s.OnlyGrace (s.graceYoungest sec l) := by
  induction l generalizing s with
  | nil => exact .refl s
  | cons a l ih =>
    unfold State.graceYoungest
    dsimp only
    split
    · exact .refl s
    · split
      · exact ih s
      · exact (s.startGrace_onlyGrace a .budget).trans (ih _)
theorem State.graceYoungest_of_le {s : State} {sec : Nat} (h : s.tokensUsed sec ≤ s.budget sec) (l : List Nat) : s.graceYoungest sec l = s := by
  cases l with
  | nil => rfl
  | cons a l =>
    unfold State.graceYoungest
    exact if_pos (Nat.le_add_right_of_le h)

/-- The state in which the idle engines beyond a new budget sleep, and that in which the youngest leases beyond it are in grace. -/
def State.overSlept (s : State) (sec : Nat) (v : DWord) : State := (s.withBudget sec v).sleepOver sec
def State.overGraced (s : State) (sec : Nat) (v : DWord) : State :=
  (s.overSlept sec v).graceYoungest sec (((s.overSlept sec v).leasesOf sec).foldr (s.overSlept sec v).insertYoung [])
theorem State.overSlept_rest (s : State) (sec : Nat) (v : DWord) :
    s.overSlept sec v = { s with engbudget := setP 40 s.engbudget sec (v &&& 0xFF), engines := (s.overSlept sec v).engines } :=
  (s.withBudget sec v).sleepOver_rest sec
theorem State.overGraced_onlyGrace (s : State) (sec : Nat) (v : DWord) : (s.overSlept sec v).OnlyGrace (s.overGraced sec v) :=
  State.graceYoungest_onlyGrace _ _ _
theorem State.overGraced_engbudget (s : State) (sec : Nat) (v : DWord) (k : Nat) :
    getP 40 (s.overGraced sec v).engbudget k = if k = sec then v &&& 0xFF else getP 40 s.engbudget k := by
  have hbudget : (s.overGraced sec v).engbudget = setP 40 s.engbudget sec (v &&& 0xFF) := by
    rw [(s.overGraced_onlyGrace sec v).1, s.overSlept_rest]
  rw [hbudget, getP_setP]
theorem State.overGraced_warp (s : State) (sec : Nat) (v : DWord) (w : Nat) : (s.overGraced sec v).warp w = s.warp w := by
  have hwarps : (s.overGraced sec v).warps = s.warps := by
    rw [(s.overGraced_onlyGrace sec v).1, s.overSlept_rest]
  rw [State.warp, hwarps, State.warp]
theorem State.overGraced_engine {s : State} {e : Nat} (h : (s.engine e).st ≠ .idle) (sec : Nat) (v : DWord) :
    (s.overGraced sec v).engine e = s.engine e := by
  have hengines : (s.overGraced sec v).engines = (s.overSlept sec v).engines := by
    rw [(s.overGraced_onlyGrace sec v).1]
  rw [State.engine, hengines]
  exact State.sleepOver_engine (s := s.withBudget sec v) h sec
theorem State.overGraced_lease (s : State) (sec : Nat) (v : DWord) (l : Nat) :
    (s.overGraced sec v).lease l = { s.lease l with grace := ((s.overGraced sec v).lease l).grace } := by
  have hlease : (s.overSlept sec v).lease l = s.lease l := by
    rw [s.overSlept_rest]
    rfl
  rw [(s.overGraced_onlyGrace sec v).2 l, hlease]
/-- A budget that covers the tokens in use changes no lease. -/
theorem State.overGraced_lease_of_le {s : State} {sec : Nat} {v : DWord} (h : s.tokensUsed sec ≤ min 40 (v.toNat % 256)) (l : Nat) :
    (s.overGraced sec v).lease l = s.lease l := by
  have hle : (s.withBudget sec v).tokensUsed sec ≤ (s.withBudget sec v).budget sec := by
    rw [State.withBudget_budget]
    exact h
  rw [State.overGraced, State.overSlept, State.sleepOver_of_le hle, State.graceYoungest_of_le hle]
  rfl
theorem State.onSector_engbudget (s : State) (k : Nat) (f : Sector → Sector) : (s.onSector k f).engbudget = s.engbudget := rfl
theorem State.onSector_warp (s : State) (k : Nat) (f : Sector → Sector) (w : Nat) : (s.onSector k f).warp w = s.warp w := rfl
theorem State.onSector_engine (s : State) (k : Nat) (f : Sector → Sector) (e : Nat) : (s.onSector k f).engine e = s.engine e := rfl
theorem State.onSector_lease (s : State) (k : Nat) (f : Sector → Sector) (l : Nat) : (s.onSector k f).lease l = s.lease l := rfl
theorem exec_engbudgetWrite {s : State} (h : s.ev.a < 6) :
    exec .engbudgetWrite s = .next
      ((s.overGraced s.ev.a s.ev.v).onSector s.ev.a fun k => { k with touched := (s.overSlept s.ev.a s.ev.v).now + 1 }) :=
  congrArg Host.Outcome.next (if_neg (Nat.not_le_of_lt h))

/-! ## Carve-outs (05 R118) -/

/-- A slice whose carve-out may change: present, at a context boundary, flushed and with nothing pinned. -/
def State.CarveOpen (s : State) (sl : Nat) : Prop :=
  (getP 0 s.harvest (9 + sl / 64)).getLsbD (sl % 64) = false ∧ Claims.boundary s ∧ sl ∉ s.filledSlices ∧
    ∀ x ∈ s.l2, x.slice = sl → x.slm = false ∧ x.pinned = false
/-- The state with the carve-out of a slice, clamped to 2 MiB. -/
def State.withCarve (s : State) (sl : Nat) (v : DWord) : State :=
  { s with slmcarve := setP 0 s.slmcarve sl (BitVec.ofNat 64 (min 2 (v.toNat % 4))) }
theorem State.carveOpen_iff {s : State} {sl : Nat} (h : sl < 96) :
    (sl < 96 && s.sliceLive_ sl && s.boundary && !s.filledSlices.contains sl && !(s.l2.any fun x => x.slice == sl && (x.slm || x.pinned))) = true ↔
      s.CarveOpen sl := by
  simp [State.CarveOpen, ← State.boundary_iff, State.sliceLive_, h, and_assoc]
theorem exec_slmcarveWrite_open {s : State} (h : s.ev.a < 96) (hopen : s.CarveOpen s.ev.a) :
    exec .slmcarveWrite s = .next (s.withCarve s.ev.a s.ev.v) :=
  congrArg Host.Outcome.next (if_pos ((State.carveOpen_iff h).2 hopen))
theorem exec_slmcarveWrite_ignored {s : State} (h : s.ev.a < 96) (hshut : ¬s.CarveOpen s.ev.a) : exec .slmcarveWrite s = .next s :=
  congrArg Host.Outcome.next (if_neg (mt (State.carveOpen_iff h).1 hshut))

/-! ## The statement about shares and budgets -/

theorem partitionShares : Claims.PartitionShares := by
  refine ⟨fun s => ⟨fun hok hquiet => ?_, exec_partcfgWrite_ignored⟩, fun s i hi hlt hquiet => ?_,
    fun s c hc hquiet => ⟨fun hrate => ?_, ?_⟩, fun s p hp => ⟨?_, ?_⟩, fun s sec hsec hlt => ?_,
    fun s sl hsl hlt => ⟨fun hopen => ?_, ?_⟩⟩
  · refine ⟨_, exec_partcfgWrite_boundary hok hquiet.1, ?_, fun p => ?_, fun c hc => ?_, ?_⟩
    · rw [State.withFullBuckets_partcfg]
      rfl
    · rw [State.part, State.withFullBuckets_parts]
      exact s.repartitioned_part s.ev.v p
    · rw [State.withFullBuckets_bucket _ hc, State.partOfSector, State.partOfSector, State.npart, State.npart, State.withFullBuckets_partcfg]
      rfl
    · rw [State.withFullBuckets_rest, State.repartitioned]
  · subst hi
    refine ⟨_, exec_tkshareWrite hlt hquiet.1, fun k => ?_, fun c hc => ?_, ?_⟩
    · rw [State.withFullBuckets_tkshare]
      exact getP_setP _ _ _ _ _
    · rw [State.withFullBuckets_bucket _ hc, State.withFullBuckets_tkshare]
      rfl
    · rw [State.withFullBuckets_rest, State.withShare]
  · subst hc
    exact ⟨_, exec_bucketRefill_metered hquiet hrate, s.refill_bucket _ _, rfl⟩
  · subst hc
    exact exec_bucketRefill_unmetered
  · subst hp
    exact ⟨_, exec_partitionIdleChange s, getP_setP_same _ _ _ _, mem_insertDue _ _, fun k hk => getP_setP_ne _ _ _ _ _ hk, rfl⟩
  · subst hp
    refine ⟨_, exec_idleStateArrival s, ?_, fun k hk => s.part_onPart_ne _ k _ hk, rfl⟩
    rw [State.part_onPart_same, Part.sees_idleSeen]
    rfl
  · subst hsec
    refine ⟨_, exec_engbudgetWrite hlt, fun k => ?_, fun e he => ?_, fun hle l => ?_, fun l => ?_, fun w => ?_⟩
    · rw [State.onSector_engbudget, State.overGraced_engbudget]
    · rw [State.onSector_engine, State.overGraced_engine he]
    · rw [State.onSector_lease, State.overGraced_lease_of_le hle]
    · rw [State.onSector_lease, ← s.overGraced_lease]
    · rw [State.onSector_warp, State.overGraced_warp]
  · subst hsl
    exact ⟨_, exec_slmcarveWrite_open hlt hopen, fun k => getP_setP _ _ _ _ _, rfl⟩
  · subst hsl
    exact exec_slmcarveWrite_ignored hlt

end Sys2Proof.Machine
end

section
/-!
PROOFS. The commit of an interleave: what is refused, and what the orphan scan leaves in the slices (17 R360-R363).
-/
namespace Sys2Proof.Machine

/-! ## The map that a commit gives -/

theorem State.withNextMap_committed (s : State) (doms : BitVec 16) :
    Claims.committed s (s.withMap (s.nextHash doms) (s.nextSlices doms)) doms := by
  refine ⟨fun d hd => ⟨?_, ?_⟩, fun i hi => ?_⟩
  · change getP 0 (s.nextHash doms) (2 * d) = _
    rw [State.nextHash, getP_map_range _ _ _ _ (by omega)]
    simp
  · change getP 0 (s.nextHash doms) (2 * d + 1) = _
    rw [State.nextHash, getP_map_range _ _ _ _ (by omega)]
    simp [show (2 * d + 1) / 2 = d by omega]
  · change getP 0 (s.nextSlices doms) i = _
    rw [State.nextSlices, getP_map_range _ _ _ _ hi]
/-- Two states with the same committed map show the same windows. -/
theorem State.window_eq_of_committed {s t u : State} {doms : BitVec 16} (ht : Claims.committed s t doms)
    (hu : Claims.committed s u doms) {d : Nat} (hd : d < 16) : t.window d = u.window d :=
  (ht.1 d hd).1.trans (hu.1 d hd).1.symm

/-- The state with the map that the commit of the event would give. -/
def State.mapNext (s : State) : State := s.withMap (s.nextHash (s.ev.v.setWidth 16)) (s.nextSlices (s.ev.v.setWidth 16))

/-! ## Refusals (17 R362) -/

theorem State.commitBad_of_overlap {s t : State} {d e g : Nat} (hde : d < e) (he : e < 16) (hd : winIn (t.window d) g = true)
    (hg : winIn (t.window e) g = true) (doms : BitVec 16) : s.commitBad t doms = true := by
  simp only [winIn, Bool.and_eq_true, decide_eq_true_eq] at hd hg
  obtain ⟨⟨hond, hbased⟩, hlimd⟩ := hd
  obtain ⟨⟨hone, hbasee⟩, hlime⟩ := hg
  simp only [State.commitBad, Bool.or_eq_true, Bool.and_eq_true, decide_eq_true_eq, List.any_eq_true, List.mem_range, and_assoc]
  exact .inl (.inl (.inl (.inl ⟨d, Nat.lt_trans hde he, e, he, hde, hond, hone, Nat.le_trans hbased hlimd, Nat.le_trans hbasee hlime,
    Nat.le_trans hbased hlime, Nat.le_trans hbasee hlimd⟩)))
theorem State.commitBad_of_entry {s t : State} {doms : BitVec 16} {i : Nat} (hi : i < 256) (hdom : doms.getLsbD (i / 16) = true)
    (hbig : 95 < (getP 0 t.sliceLive i).toNat % 2 ^ 7) : s.commitBad t doms = true := by
  simp only [State.commitBad, Bool.or_eq_true, Bool.and_eq_true, decide_eq_true_eq, List.any_eq_true, List.mem_range, List.mem_map]
  exact .inl (.inl (.inl (.inr ⟨i / 16, by omega, hdom, _, ⟨i % 16, Nat.mod_lt _ (by decide), rfl⟩, .inl (by rwa [Nat.div_add_mod])⟩)))

theorem exec_hashmaskCommit_waits {s : State} (h : s.scanBusy = true) :
    exec .hashmaskCommit s = .next (s.schedule (s.now + 1) (.ev .hashmaskCommit s.ev)) := congrArg Host.Outcome.next (if_pos h)
theorem exec_hashmaskCommit_idle {s : State} (h : s.scanBusy = false) :
    exec .hashmaskCommit s = .next (s.commit (s.ev.v.setWidth 16)).1 := congrArg Host.Outcome.next (if_neg (Bool.eq_false_iff.1 h))
theorem exec_hashmaskCommit_refused {s : State} (h : s.scanBusy = false) (hbad : s.commitBad s.mapNext (s.ev.v.setWidth 16) = true) :
    exec .hashmaskCommit s = .next s := by
  unfold State.mapNext at hbad
  rw [exec_hashmaskCommit_idle h, State.commit]
  simp only [hbad, ↓reduceIte]

/-! ## The orphan scan (17 R362) -/

theorem State.mem_orphans {s t : State} {x : L2Line} : x ∈ s.orphans t ↔ x ∈ s.l2 ∧ Claims.rehomed s t x := by
  simp [State.orphans, Claims.rehomed]
/-- Nothing dirty is orphaned: the scan takes 2,056 cc. -/
theorem exec_hashmaskCommit_scans {s : State} (h : s.scanBusy = false) (hgood : s.commitBad s.mapNext (s.ev.v.setWidth 16) = false)
    (hclean : ∀ x ∈ s.l2, Claims.rehomed s s.mapNext x → x.dirty = false) :
    exec .hashmaskCommit s = .next (({ s with
      scan := some ⟨s.now + 2056, s.ev.v.setWidth 16, s.mapNext.hashLive, s.mapNext.sliceLive⟩ } : State).later 2056 .commitScanEnd) := by
  have hdirty : (s.orphans s.mapNext).filter (·.dirty) = [] := List.filter_eq_nil_iff.2 fun x hx => by
    obtain ⟨hmem, hmoved⟩ := State.mem_orphans.1 hx
    rw [hclean x hmem hmoved]
    exact Bool.false_ne_true
  rw [exec_hashmaskCommit_idle h, State.commit]
  unfold State.mapNext at hgood hdirty ⊢
  simp only [hgood, hdirty, Bool.false_eq_true, ↓reduceIte]
  rfl

/-- The second state differs from the first in the lines of the slices and in what a line written back reaches:
less than `State.OnlyMem` allows. -/
def State.OnlyEvicted (s t : State) : Prop :=
  t = { s with l2 := t.l2, dram := t.dram, codes := t.codes, queues := t.queues, poisoned := t.poisoned }
theorem State.OnlyEvicted.trans {s t u : State} (h : s.OnlyEvicted t) (k : t.OnlyEvicted u) : s.OnlyEvicted u := by
  unfold State.OnlyEvicted at *
  rw [k, h]
theorem State.OnlyEvicted.foldl {α : Type} {f : State → α → State} (h : ∀ s a, State.OnlyEvicted s (f s a)) (s : State) (l : List α) :
    s.OnlyEvicted (l.foldl f s) :=
  List.foldlRecOn l f (motive := s.OnlyEvicted) rfl fun u hu a _ => hu.trans (h u a)
theorem State.storeLine_onlyEvicted (s : State) (la : Nat) (d : BitVec 1024) : s.OnlyEvicted (s.storeLine la d) := by
  unfold State.storeLine
  split <;> rfl
/-- The wait at a bank changes the queues alone. -/
theorem State.bankWait_queues (s : State) (la t : Nat) : (s.bankWait la t).1 = { s with queues := (s.bankWait la t).1.queues } := by
  refine List.foldlRecOn _ _ (motive := fun a : State × Nat => a.1 = { s with queues := a.1.queues }) rfl ?_
  intro a ha u _
  dsimp only
  rw [ha]
  rfl
theorem State.writeBack_onlyEvicted (s : State) (x : L2Line) : s.OnlyEvicted (s.writeBack x) := by
  unfold State.writeBack
  split
  · rfl
  · have hbank : ∀ u : State, u.OnlyEvicted (u.bankWait x.addr s.now).1 := fun u => u.bankWait_queues _ _ ▸ rfl
    exact ((s.storeLine_onlyEvicted _ _).trans (hbank _)).trans rfl
theorem State.evict_onlyEvicted (s : State) (x : L2Line) : s.OnlyEvicted (s.evict x) := (s.writeBack_onlyEvicted x).trans rfl

theorem State.storeLine_l2 (s : State) (la : Nat) (d : BitVec 1024) : (s.storeLine la d).l2 = s.l2 := by
  unfold State.storeLine
  split <;> rfl
theorem State.writeBack_l2 (s : State) (x : L2Line) : (s.writeBack x).l2 = s.l2 := by
  unfold State.writeBack
  split
  · rfl
  · dsimp only
    rw [State.bankWait_queues, State.storeLine_l2]
theorem State.mem_evict {s : State} {o x : L2Line} (h : o.isRefl = false) : x ∈ (s.evict o).l2 ↔ x ∈ s.l2 ∧ x.addr ≠ o.addr := by
  simp [State.evict, h, State.writeBack_l2]
/-- Lines evicted one after another: what is left are the lines of other addresses. -/
theorem State.mem_foldl_evict {l : List L2Line} (hl : ∀ o ∈ l, o.isRefl = false) (s : State) (x : L2Line) :
    x ∈ (l.foldl State.evict s).l2 ↔ x ∈ s.l2 ∧ ∀ o ∈ l, x.addr ≠ o.addr := by
  induction l generalizing s with
  | nil => simp
  | cons o l ih =>
    obtain ⟨ho, hl⟩ := List.forall_mem_cons.1 hl
    rw [List.foldl_cons, ih hl, State.mem_evict ho, List.forall_mem_cons, and_assoc]

/-- The state after a scan: the orphans are gone, and the ports hold the new map. -/
def State.afterScan (s : State) (k : Scan) : State :=
  ((s.orphans (s.withMap k.hash k.slices)).foldl State.evict s).withMap k.hash k.slices
theorem exec_commitScanEnd_ends {s : State} {k : Scan} (hscan : s.scan = some k) (hend : k.endAt = s.now) (hreqs : ∀ r ∈ s.reqs, r.live = false) :
    exec .commitScanEnd s = .next (s.afterScan k) := by
  change execCommitScanEnd s = _
  simp only [execCommitScanEnd, hscan, hend, ne_eq, not_true_eq_false, ↓reduceIte, State.waitingReqs_eq_nil hreqs, List.foldl_nil]
  rfl
theorem State.afterScan_rest (s : State) (k : Scan) :
    let t := s.afterScan k
    t = { s with
      hashLive := k.hash, sliceLive := k.slices, l2 := t.l2, dram := t.dram, codes := t.codes, queues := t.queues, poisoned := t.poisoned } := by
  intro t
  have h := State.OnlyEvicted.foldl State.evict_onlyEvicted s (s.orphans (s.withMap k.hash k.slices))
  change State.withMap _ k.hash k.slices = _
  rw [h]
  rfl
/-- Where a line has its home rests on the map alone of what a scan changes. -/
theorem State.afterScan_homeSlice (s : State) (k : Scan) (la : Nat) : (s.afterScan k).homeSlice la = (s.withMap k.hash k.slices).homeSlice la := by
  rw [s.afterScan_rest k]
  rfl
theorem State.afterScan_rehomed (s : State) (k : Scan) (x : L2Line) :
    Claims.rehomed s (s.afterScan k) x ↔ Claims.rehomed s (s.withMap k.hash k.slices) x := by
  rw [Claims.rehomed, Claims.rehomed, State.afterScan_homeSlice]
theorem State.mem_afterScan (s : State) (k : Scan) (x : L2Line) :
    x ∈ (s.afterScan k).l2 ↔ x ∈ s.l2 ∧ ∀ o ∈ s.l2, Claims.rehomed s (s.afterScan k) o → x.addr ≠ o.addr := by
  simp only [State.afterScan_rehomed]
  refine (State.mem_foldl_evict (fun o ho => (State.mem_orphans.1 ho).2.1) s x).trans ?_
  simp only [State.mem_orphans, and_imp]

/-! ## The statement -/

theorem interleaveCommits : Claims.InterleaveCommits := by
  refine ⟨fun s => ⟨fun hbusy => ?_, fun hidle hentry => ?_, fun u hidle hu hoverlap => ?_, fun u hidle hu hgood hclean => ?_⟩,
    fun s k hscan hend hreqs => ?_⟩
  · exact ⟨_, exec_hashmaskCommit_waits hbusy, mem_insertDue _ _, rfl⟩
  · obtain ⟨i, hi, hdom, hbig⟩ := hentry
    refine exec_hashmaskCommit_refused hidle (State.commitBad_of_entry hi hdom ?_)
    rwa [State.mapNext, (s.withNextMap_committed _).2 i hi, if_pos hdom]
  · obtain ⟨d, e, g, hde, he, hd, hg⟩ := hoverlap
    have hsame {c : Nat} (hc : c < 16) : u.window c = s.mapNext.window c := State.window_eq_of_committed hu (s.withNextMap_committed _) hc
    rw [hsame (Nat.lt_trans hde he)] at hd
    rw [hsame he] at hg
    exact exec_hashmaskCommit_refused hidle (State.commitBad_of_overlap hde he hd hg _)
  · subst hu
    exact ⟨_, exec_hashmaskCommit_scans hidle hgood hclean, s.withNextMap_committed _, rfl, mem_insertDue _ _, rfl⟩
  · have hrest := s.afterScan_rest k
    refine ⟨_, exec_commitScanEnd_ends hscan hend hreqs, rfl, rfl, fun x hx => ?_, fun x hx hrefl hstays => ?_, hrest⟩
    · obtain ⟨hmem, hothers⟩ := (s.mem_afterScan k x).1 hx
      exact ⟨hmem, fun hmoved => hothers x hmem hmoved rfl⟩
    · refine (s.mem_afterScan k x).2 ⟨hx, fun o _ ho haddr => hstays ⟨hrefl, ?_⟩⟩
      rw [haddr]
      exact ho.2

/-- Settles O57: the shares and budgets of partitions, and the commit of an interleave. -/
theorem partitionsAndInterleaves : Obligations.PartitionsAndInterleaves := by
  unfold Obligations.PartitionsAndInterleaves
  exact ⟨partitionShares, interleaveCommits⟩

end Sys2Proof.Machine
end
